-- ==== Sys2Proof/Word.lean ====
section
/-! DEFINITION. The word types of the B8 (00_scope.md R3: little-endian, byte-addressed). -/

namespace Sys2Proof

/-- A byte. -/
abbrev Byte := BitVec 8

/-- A 32-bit register value (05 R86). -/
abbrev Word := BitVec 32

/-- A 64-bit value: a register pair, an instruction address (03 R30, R40). -/
abbrev Dword := BitVec 64

/-- A fetch line: five 96-bit slots and a 32-bit line word (03 R27). -/
abbrev Line := BitVec 512

end Sys2Proof
end

