-- ==== Sys2Proof/Machine/FmtReg.lean ====
section
/-! DEFINITION. The fields of a format register and when its value is valid (06_formats.md R118, R119). -/

namespace Sys2Proof.Machine

/-- S, the sign bit of the code (06 R118 bit 0). -/
def fmtS (f : Word) : Nat := (f.extractLsb' 0 1).toNat
/-- E, the exponent bits of the code (06 R118 [3:1]). -/
def fmtE (f : Word) : Nat := (f.extractLsb' 1 3).toNat
/-- M, the mantissa bits of the code (06 R118 [6:4]). -/
def fmtM (f : Word) : Nat := (f.extractLsb' 4 3).toNat
/-- BIAS, two's complement (06 R118 [15:8]). -/
def fmtBias (f : Word) : Int := (f.extractLsb' 8 8).toInt
/-- SCALE: 0 none, 1 blocks of 32, 2 blocks of 16 (06 R118 [17:16]). -/
def fmtScale (f : Word) : Nat := (f.extractLsb' 16 2).toNat
/-- SAT, conversions saturate by default (06 R118 bit 18). -/
def fmtSat (f : Word) : Bool := f.getLsbD 18
/-- The code width w = S + E + M (06 R119). -/
def fmtWidth (f : Word) : Nat := fmtS f + fmtE f + fmtM f
/-- A register is unset when its value is 0 (06 R118). -/
def fmtUnset (f : Word) : Bool := f == 0#32
/-- A valid value (06 R119). -/
def fmtValid (f : Word) : Bool :=
  2 ≤ fmtWidth f && fmtWidth f ≤ 8 && fmtScale f != 3 && f.extractLsb' 19 13 == 0#13 && f.getLsbD 7 == false
/-- What FMTSET accepts: a valid value, or 0 (06 R136). -/
def fmtAccepted (f : Word) : Bool := fmtUnset f || fmtValid f
/-- The field width fw that holds a code: 4 when w ≤ 4 and 8 otherwise (06 R126, R134). -/
def fmtField (f : Word) : Nat := if fmtWidth f ≤ 4 then 4 else 8

end Sys2Proof.Machine
end

