-- ==== Sys2Proof/Syntax.lean ====
section
/-! DEFINITION. The syntax of every row of spec/opcode_table.json: the Chalin instructions of a 96-bit slot
(03 R37 to R53), the row operations of a near-bank unit (12 R261), and the steps of engines, dispatchers, dealer,
fabric and host ("events"), each with the operands that say which unit takes the step. -/

namespace Sys2Proof

/-! ## Names of units -/

/-- A core: its die, 0 to 7, and its number within the die, 0 to 63 (02 R16). -/
structure CoreId where
  die : Nat
  core : Nat
deriving DecidableEq, Repr

/-- A quadrant of a core, 0 to 3 (02 R16). -/
structure QuadId where
  die : Nat
  core : Nat
  quad : Nat
deriving DecidableEq, Repr

/-- A copy channel of a quadrant, 0 to 3 (09 R181). -/
structure ChanId where
  quad : QuadId
  ch : Nat
deriving DecidableEq, Repr

/-- A team by the team slot it holds, 0 to 15 of a core (04 R58). -/
structure TeamId where
  die : Nat
  core : Nat
  slot : Nat
deriving DecidableEq, Repr

/-- A hand of a team, by its logical index (02 R18). -/
structure HandKey where
  team : TeamId
  hand : Nat
deriving DecidableEq, Repr

/-- A thread: a lane of a hand (02 R18). -/
structure ThreadKey where
  team : TeamId
  hand : Nat
  lane : Nat
deriving DecidableEq, Repr

/-- A bag controller: home die and slot, 0 to 255 (11 R232, R233). -/
structure BagId where
  die : Nat
  slot : Nat
deriving DecidableEq, Repr

/-! ## Operand forms of the instruction word -/

/-- The guard: predicate PG and sense PN (03 R41). -/
structure Guard where
  pg : BitVec 3
  pn : Bool
deriving DecidableEq, Repr

/-- A source modifier (03 R47): class, segment code and distance. -/
inductive Modifier where
  | none
  | rot (seg : BitVec 3) (dist : BitVec 7)
  | bfly (seg : BitVec 3) (mask : BitVec 7)
  | bcst (seg : BitVec 3) (lane : BitVec 7)
deriving DecidableEq, Repr

/-- A vector register source that may carry a modifier and a trap-on-empty bit (03 R47, R50). -/
structure Src where
  reg : BitVec 8
  mod : Modifier
  fe : Bool
deriving DecidableEq, Repr

/-- A vector register source that may carry a trap-on-empty bit and no modifier (03 R47: source C; 05 R108). -/
structure CSrc where
  reg : BitVec 8
  fe : Bool
deriving DecidableEq, Repr

/-- Source B of the V format: a register, or IMM16 under IMMB = 1 (03 R43, R44). -/
inductive SrcB where
  | reg (s : Src)
  | imm (i : BitVec 16)
deriving DecidableEq, Repr

/-- Rounding mode (05 R99). -/
inductive Rm where
  | rn | rz | ru | rd
deriving DecidableEq, Repr

/-- Integer comparison (05 R97). -/
inductive ICond where
  | eq | ne | ult | ule | ugt | uge | slt | sle | sgt | sge
deriving DecidableEq, Repr

/-- Floating-point comparison (05 R102). -/
inductive FCond where
  | eq | ne | lt | le | gt | ge | un | ord
deriving DecidableEq, Repr

/-- Cross-lane reduction operation (05 R108). -/
inductive XOp where
  | fadd | fmin | fmax | iadd | and | or | xor
deriving DecidableEq, Repr

/-- Atomic operation of scratchpad and Commons (07 R145, 08 R172). -/
inductive AtomOp where
  | add | min | max | mins | maxs | and | or | xor | xchg | cas | inc | fadd | fmin | fmax
deriving DecidableEq, Repr

/-- Type of CAXPY (08 R177). -/
inductive AxpyTy where
  | f32 | bf2 | i32
deriving DecidableEq, Repr

/-- Scope of an ordered access or fence (07 R142, 13 R279). -/
inductive Scope where
  | hand | team | die | pkg | sys
deriving DecidableEq, Repr

/-- Access size (07 R142). -/
inductive Size where
  | b | h | w | d
deriving DecidableEq, Repr

/-- Order of CATOM (08 R173) with its scope, TEAM to SYS. -/
inductive AtomOrd where
  | none
  | acq (sc : Scope)
  | rel (sc : Scope)
  | ar (sc : Scope)
deriving DecidableEq, Repr

/-- Space of LD and ST (07 R142). -/
inductive LdSpace where
  | sp | stk
deriving DecidableEq, Repr

/-- Saturation choice of CVT.N and ACSTORE (06 R133, 10 R212). -/
inductive SatSel where
  | reg | sat | wrap
deriving DecidableEq, Repr

/-- A tile name: local tM, or tile M of the peer team on core N of the cluster (07 R143). -/
inductive TileName where
  | loc (m : BitVec 6)
  | remote (core : BitVec 3) (m : BitVec 6)
deriving DecidableEq, Repr

/-- Special registers (05 R90). -/
inductive SReg where
  | tid | lane | hand | teamX | teamY | teamZ | width | core | die | quad | pmask | edge | stkbase | stklim
  | detmode | cycle | time | foldst
deriving DecidableEq, Repr

/-- Element type of a row operation (12 R262). -/
inductive ElemT where
  | f32 | i32 | bf
deriving DecidableEq, Repr

/-- Comparison of NCMP (12 R264). -/
inductive NCond where
  | eq | ne | lt | le | gt | ge
deriving DecidableEq, Repr

/-- Kind of NCVT (12 R264). -/
inductive NCvt where
  | f2i | i2f | toBf | fromBf
deriving DecidableEq, Repr

/-! ## Operands of the events -/

/-- State of a first-stage page (14 R310); a MIGRATING page says whether its old copy is host memory. -/
inductive PageState where
  | invalid | resident | remote | host | migrating (oldHost : Bool) | pulling | lost
deriving DecidableEq, Repr

/-- A first-stage translation (14 R310, R314, R315, R318, R330). -/
structure Page where
  va : Nat               -- virtual address of the page, a multiple of size
  size : Nat             -- 65,536, 2 MiB or 512 MiB
  state : PageState
  rd : Bool
  wr : Bool
  ex : Bool
  dup : Bool
  fa : Nat               -- function address of a RESIDENT or PULLING page (R312)
  node : Nat             -- owning node, 22 bits
  addr : Nat             -- the owner's device physical address, or the host address
  inc : Word             -- the owner's incarnation number (R318)
  holders : List Nat     -- nodes that hold a read-duplicated copy (13 R283)
  pulled : List Nat      -- 128-byte lines of a PULLING page already pulled (R317)
  wanted : List Nat      -- 128-byte lines of a PULLING page that an access waits for (R317)
  reads : Nat            -- forwarded lines read, saturating 16 bits (R315)
  writes : Nat           -- forwarded lines written, saturating 16 bits (R315)
  key : Nat              -- of a LOST page: the key index of its translation as it was lost (R330)
deriving DecidableEq, Repr

/-- Registers that the dealer or the owning function writes and that have no step of their own (00 R6). -/
inductive RegName where
  | queueTmpl (q : Nat) | queueBase (q : Nat) | queueEn (q : Nat) | queueHome (q : Nat) | queueLog2n (q : Nat)
  | queueFunc (q : Nat)
  | nbArb (p : Nat)
  | segment (func i : Nat)
  | qos (func : Nat)
  | dirtyAddr0 (func : Nat) | dirtyAddr1 (func : Nat) | dirtyEn (func : Nat)
  | ctxPool (func : Nat)
  | collLog (func : Nat)
  | clearCounters (func va : Nat)
  | exportRange (node func lo hi key : Nat)
  | route (node : Nat)
  | healthLog
  | errorLog
  /-- n bytes of a function's request area, written by its host (16 R372). -/
  | mailbox (func off n : Nat)
  /-- An entry of a function's MSI-X table, written by its host (16 R372). -/
  | msixEntry (func vec : Nat)
  /-- The halt register of a core (23 R407). -/
  | coreHalt (c : CoreId)
  /-- A register of a thread, written by a debugger (03 R51). -/
  | threadReg (t : ThreadKey) (r : BitVec 8)
  /-- n bytes of the flash, written by the host through the recovery window (23 R401). -/
  | flash (off n : Nat)
deriving DecidableEq, Repr

/-- A forwarded line of which a step decides (14 R309, R314). -/
inductive LineStep where
  /-- The n-th of this module's own lines on their way, at its owner. -/
  | sent (n : Nat)
  /-- A line of another module's function that has come to this module, its owner: some bytes for a write, a length for a
  read. -/
  | came (node func loc : Nat) (write : Option (List Byte)) (len : Nat)
  /-- A line of another module's reducing copy: its operator and operands, under its tag (09 R197). -/
  | reduces (node func loc rop : Nat) (data : List Byte) (tag : Nat)
deriving DecidableEq, Repr

/-- How a reset of a VF comes (15 R337, R338; 16 R372). -/
inductive ResetWhy where
  /-- A function level reset of the PCI Express function. -/
  | level
  /-- A request in a function's mailbox: the PF's or its own. -/
  | mailbox (func : Nat)
  /-- The VF is another module's: the kitty of its job here is freed. -/
  | elsewhere (job : Nat)
deriving DecidableEq, Repr

/-- A reset of a VF: its number and how the reset comes. -/
structure VfReset where
  func : Nat
  why : ResetWhy
deriving DecidableEq, Repr

/-- A resource the dealer gives (some owner) or takes back (none) (15 R331). -/
inductive Grant where
  | quad (q : QuadId) (owner : Option Nat)
  | spBanks (c : CoreId) (group : Nat) (owner : Option Nat)
  | tiles (c : CoreId) (group : Nat) (owner : Option Nat)
  | commons (die group : Nat) (owner : Option Nat)
  | carveOut (func seg : Nat) (base size key : Nat) (ro give : Bool)
  | keySlot (k : Nat) (owner : Option Nat) (key : BitVec 512)
  | queue (q : Nat) (owner : Option Nat)
deriving DecidableEq, Repr

/-- A fold command (15 R346). -/
structure FoldCmd where
  root : Nat
  t : Nat
  kva : Nat
  mainLen : Nat
  lateLen : Nat
  job : Nat
  fdead : Nat
  latew : Nat
  func : Nat
deriving DecidableEq, Repr

/-- An unfold (15 R350): the job, the unfold time, and whether another module's kitty of the job is lossy (R349, R352). -/
structure UnfoldCmd where
  job : Nat
  t2 : Nat
  lossy : Bool
deriving DecidableEq, Repr

/-- The write-back that a die makes next, by its place among those that wait (02 R25). -/
structure SweepRef where
  die : Nat
  place : Nat
deriving DecidableEq, Repr

/-- The request that a pseudo-channel's controller performs next, by its place among those it holds (11 R230). -/
structure HeldRef where
  pch : Nat
  place : Nat
deriving DecidableEq, Repr

/-- Queue stage a packet stands in (15 R348). -/
inductive Stage where
  | ingress | xbar | egress
deriving DecidableEq, Repr

/-- A packet of the Onoux Link (16 R354) with the queue it stands in or arrives at. -/
structure Packet where
  src : Nat
  dst : Nat
  stage : Stage
  port : Nat
  vc : Nat
  job : Nat
  flits : List (BitVec 512)
deriving DecidableEq, Repr

/-- A packet that arrives for a folded job; told: another module's dealer says that it has discarded it (15 R349). -/
structure Arrival where
  packet : Packet
  told : Bool
deriving DecidableEq, Repr

/-- A collective packet (16 R360 to R362): a chunk of a subtree result going up, or of the final result going down; or the
peer's refusal of what the receiving rank has sent. -/
structure CollMsg where
  refusal : Bool
  func : Nat             -- of the receiving rank
  reached : Nat          -- operation of the rank that it reaches
  opid : Nat             -- and the operation that it names
  opc : Nat
  count : Nat
  nrank : Nat
  hash : BitVec 256
  sender : Nat
  target : Nat           -- the receiving rank
  up : Bool
  chunk : Nat
  data : List Byte
deriving DecidableEq, Repr

/-- A bit of the readiness register (23 R403). -/
inductive ReadyBit where
  | func (f : Nat) | die (d : Nat) | stack (s : Nat) | link (p : Nat)
deriving DecidableEq, Repr

/-- The unit an error event strikes (23 R405). -/
inductive ErrUnit where
  | dramRow (loc : Nat)
  | spBank (c : CoreId) (bank off : Nat)
  | cmBank (die bank off : Nat)
  | regSlice (q : QuadId)
  | codeLine (loc : Nat)
  /-- A code line fetched from another module's or, with none, the host's memory (03 R33). -/
  | farLine (node : Option Nat) (addr : Nat)
  | linkLane (port lane : Nat)
deriving DecidableEq, Repr

/-! ## The instructions -/

/-- One constructor per row of spec/opcode_table.json. -/
inductive Instr where
  /-- NOP: 04 R76 -/
  | nop (g : Guard)
  /-- BRA: 04 R77 -/
  | bra (g : Guard) (tslot : BitVec 3) (disp : Word)
  /-- BRP_ANY: 04 R78 -/
  | brpAny (g : Guard) (a : BitVec 3) (tslot : BitVec 3) (disp : Word)
  /-- BRP_ALL: 04 R78 -/
  | brpAll (g : Guard) (a : BitVec 3) (tslot : BitVec 3) (disp : Word)
  /-- BRP_NONE: 04 R78 -/
  | brpNone (g : Guard) (a : BitVec 3) (tslot : BitVec 3) (disp : Word)
  /-- JMP: 04 R77 -/
  | jmp (g : Guard) (a : CSrc)
  /-- CALL: 04 R77 -/
  | call (g : Guard) (tslot : BitVec 3) (disp : Word)
  /-- CALLR: 04 R77 -/
  | callr (g : Guard) (a : CSrc)
  /-- RET: 04 R77 -/
  | ret (g : Guard)
  /-- JTAB: 04 R79 -/
  | jtab (g : Guard) (a : CSrc) (b : CSrc) (off : Word)
  /-- JOIN_IMM: 04 R80 -/
  | joinImm (g : Guard) (imm : Word)
  /-- JOIN_REG: 04 R80 -/
  | joinReg (g : Guard) (w : Bool) (a : CSrc)
  /-- EXIT: 04 R81 -/
  | exit (g : Guard)
  /-- YIELD: 04 R82 -/
  | yield (g : Guard)
  /-- WAITF: 04 R83: no FE bit, no modifier -/
  | waitf (g : Guard) (w : Bool) (a : BitVec 8) (b : BitVec 8) (c : BitVec 8)
  /-- BRK: 04 R84 -/
  | brk (g : Guard) (imm : BitVec 16)
  /-- TRAP: 04 R85 -/
  | trap (g : Guard) (imm : BitVec 16)
  /-- ADD: 05 R94 -/
  | add (g : Guard) (w : Bool) (d : BitVec 8) (a : Src) (b : SrcB)
  /-- ADDI: 05 R94 -/
  | addi (g : Guard) (w : Bool) (d : BitVec 8) (a : Src) (imm : Word)
  /-- SUB: 05 R94 -/
  | sub (g : Guard) (w : Bool) (d : BitVec 8) (a : Src) (b : SrcB)
  /-- MUL: 05 R94 -/
  | mul (g : Guard) (w : Bool) (d : BitVec 8) (a : Src) (b : SrcB)
  /-- MULHI: 05 R94 -/
  | mulhi (g : Guard) (w : Bool) (d : BitVec 8) (a : Src) (b : SrcB)
  /-- MULHS: 05 R94 -/
  | mulhs (g : Guard) (w : Bool) (d : BitVec 8) (a : Src) (b : SrcB)
  /-- MAD: 05 R94 -/
  | mad (g : Guard) (w : Bool) (d : BitVec 8) (a : Src) (b : SrcB) (c : CSrc)
  /-- DIV: 05 R95 -/
  | div (g : Guard) (d : BitVec 8) (a : Src) (b : SrcB)
  /-- DIVS: 05 R95 -/
  | divs (g : Guard) (d : BitVec 8) (a : Src) (b : SrcB)
  /-- REM: 05 R95 -/
  | rem (g : Guard) (d : BitVec 8) (a : Src) (b : SrcB)
  /-- REMS: 05 R95 -/
  | rems (g : Guard) (d : BitVec 8) (a : Src) (b : SrcB)
  /-- MIN: 05 R94 -/
  | min (g : Guard) (w : Bool) (d : BitVec 8) (a : Src) (b : SrcB)
  /-- MAX: 05 R94 -/
  | max (g : Guard) (w : Bool) (d : BitVec 8) (a : Src) (b : SrcB)
  /-- MINS: 05 R94 -/
  | mins (g : Guard) (w : Bool) (d : BitVec 8) (a : Src) (b : SrcB)
  /-- MAXS: 05 R94 -/
  | maxs (g : Guard) (w : Bool) (d : BitVec 8) (a : Src) (b : SrcB)
  /-- ABS: 05 R94 -/
  | abs (g : Guard) (w : Bool) (d : BitVec 8) (a : Src)
  /-- NEG: 05 R94 -/
  | neg (g : Guard) (w : Bool) (d : BitVec 8) (a : Src)
  /-- AND: 05 R94 -/
  | and (g : Guard) (w : Bool) (d : BitVec 8) (a : Src) (b : SrcB)
  /-- OR: 05 R94 -/
  | or (g : Guard) (w : Bool) (d : BitVec 8) (a : Src) (b : SrcB)
  /-- XOR: 05 R94 -/
  | xor (g : Guard) (w : Bool) (d : BitVec 8) (a : Src) (b : SrcB)
  /-- ANDN: 05 R94 -/
  | andn (g : Guard) (w : Bool) (d : BitVec 8) (a : Src) (b : SrcB)
  /-- NOT: 05 R94 -/
  | not (g : Guard) (w : Bool) (d : BitVec 8) (a : Src)
  /-- SHL: 05 R94 -/
  | shl (g : Guard) (w : Bool) (d : BitVec 8) (a : Src) (b : SrcB)
  /-- SHR: 05 R94 -/
  | shr (g : Guard) (w : Bool) (d : BitVec 8) (a : Src) (b : SrcB)
  /-- SAR: 05 R94 -/
  | sar (g : Guard) (w : Bool) (d : BitVec 8) (a : Src) (b : SrcB)
  /-- ROT: 05 R94 -/
  | rot (g : Guard) (w : Bool) (d : BitVec 8) (a : Src) (b : SrcB)
  /-- CLZ: 05 R94 -/
  | clz (g : Guard) (w : Bool) (d : BitVec 8) (a : Src)
  /-- POPC: 05 R94 -/
  | popc (g : Guard) (w : Bool) (d : BitVec 8) (a : Src)
  /-- BREV: 05 R94 -/
  | brev (g : Guard) (w : Bool) (d : BitVec 8) (a : Src)
  /-- BFX: 05 R94 -/
  | bfx (g : Guard) (w : Bool) (d : BitVec 8) (a : Src) (b : SrcB)
  /-- BFXS: 05 R94 -/
  | bfxs (g : Guard) (w : Bool) (d : BitVec 8) (a : Src) (b : SrcB)
  /-- BFI: 05 R94 -/
  | bfi (g : Guard) (w : Bool) (d : BitVec 8) (a : Src) (b : SrcB) (c : CSrc)
  /-- SEL: 05 R94 -/
  | sel (g : Guard) (w : Bool) (d : BitVec 8) (a : Src) (b : SrcB) (c : BitVec 3)
  /-- MOV: 05 R94 -/
  | mov (g : Guard) (w : Bool) (d : BitVec 8) (a : Src)
  /-- MOV_K: 05 R94 -/
  | movK (g : Guard) (w : Bool) (d : BitVec 8) (a : BitVec 6)
  /-- MOVI: 05 R94 -/
  | movi (g : Guard) (w : Bool) (d : BitVec 8) (imm : Dword)
  /-- LEA: 05 R94 -/
  | lea (g : Guard) (w : Bool) (d : BitVec 8) (a : Src) (b : SrcB) (sh : BitVec 3)
  /-- ICMP: 05 R97 -/
  | icmp (g : Guard) (w : Bool) (d : BitVec 3) (a : Src) (b : SrcB) (cc : ICond)
  /-- PAND: 05 R98 -/
  | pand (g : Guard) (d : BitVec 3) (a : BitVec 3) (b : BitVec 3)
  /-- POR: 05 R98 -/
  | por (g : Guard) (d : BitVec 3) (a : BitVec 3) (b : BitVec 3)
  /-- PXOR: 05 R98 -/
  | pxor (g : Guard) (d : BitVec 3) (a : BitVec 3) (b : BitVec 3)
  /-- PNOT: 05 R98 -/
  | pnot (g : Guard) (d : BitVec 3) (a : BitVec 3)
  /-- PMOV: 05 R98 -/
  | pmov (g : Guard) (d : BitVec 3) (a : BitVec 3)
  /-- PMOV_IMM: 05 R98 -/
  | pmovImm (g : Guard) (d : BitVec 3) (imm : Bool)
  /-- FADD: 05 R101 -/
  | fadd (g : Guard) (d : BitVec 8) (a : Src) (b : SrcB) (rm : Rm)
  /-- FSUB: 05 R101 -/
  | fsub (g : Guard) (d : BitVec 8) (a : Src) (b : SrcB) (rm : Rm)
  /-- FMUL: 05 R101 -/
  | fmul (g : Guard) (d : BitVec 8) (a : Src) (b : SrcB) (rm : Rm)
  /-- FFMA: 05 R101 -/
  | ffma (g : Guard) (d : BitVec 8) (a : Src) (b : SrcB) (c : CSrc) (rm : Rm)
  /-- FMIN: 05 R102 -/
  | fmin (g : Guard) (d : BitVec 8) (a : Src) (b : SrcB)
  /-- FMAX: 05 R102 -/
  | fmax (g : Guard) (d : BitVec 8) (a : Src) (b : SrcB)
  /-- FABS: 05 R102 -/
  | fabs (g : Guard) (d : BitVec 8) (a : Src)
  /-- FNEG: 05 R102 -/
  | fneg (g : Guard) (d : BitVec 8) (a : Src)
  /-- FCMP: 05 R102 -/
  | fcmp (g : Guard) (d : BitVec 3) (a : Src) (b : SrcB) (cc : FCond)
  /-- FDIV: 05 R101 -/
  | fdiv (g : Guard) (d : BitVec 8) (a : Src) (b : SrcB) (rm : Rm)
  /-- FRCP: 05 R103 -/
  | frcp (g : Guard) (d : BitVec 8) (a : Src) (rm : Rm)
  /-- FRSQ: 05 R103 -/
  | frsq (g : Guard) (d : BitVec 8) (a : Src)
  /-- FSQRT: 05 R103 -/
  | fsqrt (g : Guard) (d : BitVec 8) (a : Src) (rm : Rm)
  /-- FEXP2: 05 R103 -/
  | fexp2 (g : Guard) (d : BitVec 8) (a : Src)
  /-- FLOG2: 05 R103 -/
  | flog2 (g : Guard) (d : BitVec 8) (a : Src)
  /-- FSIN: 05 R103 -/
  | fsin (g : Guard) (d : BitVec 8) (a : Src)
  /-- FCOS: 05 R103 -/
  | fcos (g : Guard) (d : BitVec 8) (a : Src)
  /-- FTANH: 05 R103 -/
  | ftanh (g : Guard) (d : BitVec 8) (a : Src)
  /-- FRND: 05 R104 -/
  | frnd (g : Guard) (d : BitVec 8) (a : Src) (rm : Rm)
  /-- FCLASS: 05 R102 -/
  | fclass (g : Guard) (d : BitVec 8) (a : Src)
  /-- F2I: 05 R104 -/
  | f2i (g : Guard) (d : BitVec 8) (a : Src) (rm : Rm) (u : Bool)
  /-- I2F: 05 R104 -/
  | i2f (g : Guard) (d : BitVec 8) (a : Src) (rm : Rm) (u : Bool)
  /-- HADD2: 05 R105 -/
  | hadd2 (g : Guard) (d : BitVec 8) (a : Src) (b : Src) (rm : Rm) (bf : Bool)
  /-- HMUL2: 05 R105 -/
  | hmul2 (g : Guard) (d : BitVec 8) (a : Src) (b : Src) (rm : Rm) (bf : Bool)
  /-- HFMA2: 05 R105 -/
  | hfma2 (g : Guard) (d : BitVec 8) (a : Src) (b : Src) (c : CSrc) (rm : Rm) (bf : Bool)
  /-- FDOT4: 05 R106 -/
  | fdot4 (g : Guard) (d : BitVec 8) (a : Src) (b : Src) (c : CSrc) (rm : Rm) (f : BitVec 4)
  /-- CVT_N: 06 R134 -/
  | cvtN (g : Guard) (d : BitVec 8) (a : Src) (b : Src) (c : CSrc) (rm : Rm) (satm : SatSel) (f : BitVec 4) (slot : BitVec 3)
  /-- CVT_W: 06 R134 -/
  | cvtW (g : Guard) (d : BitVec 8) (a : Src) (b : Src) (rm : Rm) (f : BitVec 4) (slot : BitVec 3)
  /-- CVT_B: 06 R135 -/
  | cvtB (g : Guard) (d : BitVec 8) (a : Src) (b : Src) (rm : Rm) (bf : Bool)
  /-- CVT_B_W: 06 R135 -/
  | cvtBW (g : Guard) (d : BitVec 8) (a : Src) (bf : Bool) (half : Bool)
  /-- FMTSET: 06 R136 -/
  | fmtset (g : Guard) (d : BitVec 4) (a : Src)
  /-- FMTSET_IMM: 06 R136 -/
  | fmtsetImm (g : Guard) (d : BitVec 4) (imm : Word)
  /-- FMTGET: 06 R136 -/
  | fmtget (g : Guard) (d : BitVec 8) (a : BitVec 4)
  /-- LANEL: 05 R110 -/
  | lanel (g : Guard) (w : Bool) (d : BitVec 8) (a : CSrc)
  /-- LANER: 05 R110 -/
  | laner (g : Guard) (w : Bool) (d : BitVec 8) (a : CSrc)
  /-- XLGET: 05 R111 -/
  | xlget (g : Guard) (w : Bool) (d : BitVec 8) (a : CSrc) (b : CSrc)
  /-- XLPUT: 05 R111 -/
  | xlput (g : Guard) (w : Bool) (d : BitVec 8) (a : CSrc) (b : CSrc)
  /-- XLRED: 05 R114 -/
  | xlred (g : Guard) (w : Bool) (d : BitVec 8) (a : CSrc) (op : XOp)
  /-- XLRED_KEY: 05 R115 -/
  | xlredKey (g : Guard) (w : Bool) (d : BitVec 8) (a : CSrc) (b : CSrc) (op : XOp)
  /-- XLSCAN: 05 R116 -/
  | xlscan (g : Guard) (w : Bool) (d : BitVec 8) (a : CSrc) (op : XOp) (ex : Bool)
  /-- XLVOTE_ANY: 05 R113 -/
  | xlvoteAny (g : Guard) (d : BitVec 3) (a : BitVec 3)
  /-- XLVOTE_ALL: 05 R113 -/
  | xlvoteAll (g : Guard) (d : BitVec 3) (a : BitVec 3)
  /-- XLVOTE_BALLOT: 05 R113 -/
  | xlvoteBallot (g : Guard) (w : Bool) (d : BitVec 8) (a : BitVec 3)
  /-- XLVOTE_COUNT: 05 R113 -/
  | xlvoteCount (g : Guard) (d : BitVec 8) (a : BitVec 3)
  /-- XLBCAST: 05 R112 -/
  | xlbcast (g : Guard) (w : Bool) (d : BitVec 8) (a : CSrc) (lane : BitVec 16)
  /-- XLBCAST_LOW: 05 R112 -/
  | xlbcastLow (g : Guard) (w : Bool) (d : BitVec 8) (a : CSrc)
  /-- LD: 07 R144 -/
  | ld (g : Guard) (d : BitVec 8) (a : Src) (sz : Size) (sgn : Bool) (acq : Option Scope) (off : Word) (space : LdSpace)
  /-- ST: 07 R144 -/
  | st (g : Guard) (a : Src) (b : CSrc) (sz : Size) (rel : Option Scope) (off : Word) (space : LdSpace)
  /-- SATOM: 07 R145 -/
  | satom (g : Guard) (w : Bool) (d : BitVec 8) (a : Src) (b : CSrc) (op : AtomOp) (off : Word)
  /-- TSET: 07 R154 -/
  | tset (g : Guard) (d : BitVec 6) (a : CSrc) (b : CSrc) (lay : BitVec 2) (el : BitVec 2) (rows : BitVec 6) (cols : BitVec 6) (f : BitVec 4)
  /-- TGET_E: 07 R155 -/
  | tgetE (g : Guard) (w : Bool) (d : BitVec 8) (t : BitVec 6)
  /-- TGET: 07 R155 -/
  | tget (g : Guard) (w : Bool) (d : BitVec 8) (a : Src) (t : TileName)
  /-- TREADY: 07 R153 -/
  | tready (g : Guard) (d : BitVec 6)
  /-- TREL: 07 R153 -/
  | trel (g : Guard) (d : BitVec 6)
  /-- BBINIT: 07 R159 -/
  | bbinit (g : Guard) (a : Src) (b : Src) (c : CSrc) (off : BitVec 16)
  /-- BBINIT_IMM: 07 R159 -/
  | bbinitImm (g : Guard) (a : CSrc) (off : BitVec 16) (bytes : BitVec 20) (arrivals : BitVec 12)
  /-- BBARR: 07 R160 -/
  | bbarr (g : Guard) (a : Src) (off : Word)
  /-- BBWAIT: 07 R160 -/
  | bbwait (g : Guard) (a : Src) (off : Word)
  /-- TBAR: 07 R162 -/
  | tbar (g : Guard)
  /-- LBAR: 07 R163 -/
  | lbar (g : Guard)
  /-- CLD: 08 R174 -/
  | cld (g : Guard) (d : BitVec 8) (a : Src) (sz : Size) (sgn : Bool) (acq : Option Scope) (off : Word)
  /-- CST: 08 R174 -/
  | cst (g : Guard) (a : Src) (b : CSrc) (sz : Size) (rel : Option Scope) (off : Word)
  /-- CATOM: 08 R175 -/
  | catom (g : Guard) (w : Bool) (d : BitVec 8) (a : Src) (b : CSrc) (op : AtomOp) (ord : AtomOrd) (off : Word)
  /-- CRED: 08 R176 -/
  | cred (g : Guard) (w : Bool) (a : Src) (b : CSrc) (op : AtomOp) (off : Word)
  /-- CAXPY: 08 R177 -/
  | caxpy (g : Guard) (d : BitVec 8) (a : Src) (b : CSrc) (ty : AxpyTy) (off : Word)
  /-- CONFL: 08 R178 -/
  | confl (g : Guard) (w : Bool) (d : BitVec 8) (a : Src) (c : BitVec 3) (e : BitVec 8)
  /-- FENCE: 13 R286 -/
  | fence (g : Guard) (sc : Scope)
  /-- FENCE_ACQ: 13 R286 -/
  | fenceAcq (g : Guard) (sc : Scope)
  /-- FENCE_REL: 13 R286 -/
  | fenceRel (g : Guard) (sc : Scope)
  /-- FENCE_ENG: 13 R287 -/
  | fenceEng (g : Guard)
  /-- KICK: 09 R202 -/
  | kick (g : Guard) (d : BitVec 2) (a : Src) (off : Word)
  /-- CHWAIT: 09 R203 -/
  | chwait (g : Guard) (d : BitVec 8) (ch : BitVec 2)
  /-- CHSTAT: 09 R203 -/
  | chstat (g : Guard) (d : BitVec 8) (ch : BitVec 2)
  /-- CHSTOP: 09 R204 -/
  | chstop (g : Guard) (ch : BitVec 2)
  /-- CHSTOP_FREEZE: 09 R204 -/
  | chstopFreeze (g : Guard) (ch : BitVec 2)
  /-- CHSTOP_THAW: 09 R204 -/
  | chstopThaw (g : Guard) (ch : BitVec 2)
  /-- WBIND: 09 R205 -/
  | wbind (g : Guard) (a : Src) (off : Word)
  /-- WUNBIND: 09 R205 -/
  | wunbind (g : Guard) (n : BitVec 3)
  /-- WSTAT: 09 R205 -/
  | wstat (g : Guard) (d : BitVec 8) (n : BitVec 3)
  /-- MMA_IP: 10 R218 -/
  | mmaIp (g : Guard) (d : BitVec 2) (a : TileName) (b : TileName)
  /-- MMA_OP: 10 R218 -/
  | mmaOp (g : Guard) (d : BitVec 2) (a : TileName) (b : TileName)
  /-- MMA_RW: 10 R218 -/
  | mmaRw (g : Guard) (d : BitVec 2) (a : TileName) (b : TileName)
  /-- MMA_OP_SK: 10 R218 -/
  | mmaOpSk (g : Guard) (d : BitVec 2) (a : TileName) (b : TileName)
  /-- MMA_RW_SP: 10 R218 -/
  | mmaRwSp (g : Guard) (d : BitVec 2) (a : TileName) (b : TileName)
  /-- ACZERO: 10 R221 -/
  | aczero (g : Guard) (d : BitVec 2)
  /-- ACLOAD: 10 R222 -/
  | acload (g : Guard) (d : BitVec 2) (a : BitVec 6)
  /-- ACLOAD_RAW_F: 10 R222 -/
  | acloadRawF (g : Guard) (d : BitVec 2) (a : CSrc)
  /-- ACLOAD_RAW_I: 10 R222 -/
  | acloadRawI (g : Guard) (d : BitVec 2) (a : CSrc)
  /-- ACSTORE: 10 R223 -/
  | acstore (g : Guard) (d : BitVec 6) (a : BitVec 2) (rm : Rm) (satm : SatSel)
  /-- ACSTORE_RAW: 10 R223 -/
  | acstoreRaw (g : Guard) (a : CSrc) (n : BitVec 2)
  /-- ACGET: 10 R224 -/
  | acget (g : Guard) (d : BitVec 8) (a : Src) (b : Src) (n : BitVec 2)
  /-- ACGET_RAW: 10 R224 -/
  | acgetRaw (g : Guard) (d : BitVec 8) (a : Src) (b : Src) (n : BitVec 2)
  /-- DELTA: 10 R225 -/
  | delta (g : Guard) (d : BitVec 6) (a : BitVec 6) (b : BitVec 6) (c : CSrc)
  /-- SPCOMP: 10 R226 -/
  | spcomp (g : Guard) (d : BitVec 6) (a : BitVec 6)
  /-- TXPOSE: 10 R227 -/
  | txpose (g : Guard) (d : BitVec 6) (a : BitVec 6)
  /-- BAGPUT: 11 R245 -/
  | bagput (g : Guard) (d : BitVec 8) (a : Src) (b : Src) (off : BitVec 16)
  /-- BAGTAKE: 11 R246 -/
  | bagtake (g : Guard) (d : BitVec 8) (a : Src) (b : Src) (ch : BitVec 2) (off : BitVec 16)
  /-- BAGCNT: 11 R247 -/
  | bagcnt (g : Guard) (d : BitVec 8) (a : Src)
  /-- BAGHIST_RES: 11 R247 -/
  | baghistRes (g : Guard) (d : BitVec 8) (a : Src) (b : Src)
  /-- BAGHIST_PUTS: 11 R247 -/
  | baghistPuts (g : Guard) (d : BitVec 8) (a : Src) (b : Src)
  /-- BAGCUT: 11 R241 -/
  | bagcut (g : Guard) (d : BitVec 8) (a : Src)
  /-- BAGITER: 11 R248 -/
  | bagiter (g : Guard) (a : Src) (b : Src) (c : BitVec 8)
  /-- BAGWAIT: 11 R248 -/
  | bagwait (g : Guard) (d : BitVec 8) (a : Src)
  /-- BAGCLR: 11 R243 -/
  | bagclr (g : Guard) (a : Src)
  /-- BAGINFO: 11 R247 -/
  | baginfo (g : Guard) (d : BitVec 8) (a : Src) (sel : BitVec 3)
  /-- NBRUN: 12 R269 -/
  | nbrun (g : Guard) (a : Src) (off : Word)
  /-- FOLDQ: 15 R353 -/
  | foldq (g : Guard) (d : BitVec 8)
  /-- FOLDQ_P: 15 R353 -/
  | foldqP (g : Guard) (d : BitVec 3)
  /-- COLL: 16 R367 -/
  | coll (g : Guard) (d : BitVec 8) (a : Src) (off : Word)
  /-- COLLQ: 16 R368 -/
  | collq (g : Guard) (d : BitVec 8) (a : Src)
  /-- COLLQ_WAIT: 16 R368 -/
  | collqWait (g : Guard) (d : BitVec 8) (a : Src)
  /-- SRD: 14 R329 -/
  | srd (g : Guard) (w : Bool) (d : BitVec 8) (sr : SReg)
  /-- SWR: 14 R329: only %edge -/
  | swr (g : Guard) (a : Src)
  /-- PROBE: 14 R330 -/
  | probe (g : Guard) (d : BitVec 8) (a : Src)
  /-- NLOAD: 12 R263 -/
  | nload (d : BitVec 3) (k : BitVec 2)
  /-- NSTORE: 12 R263 -/
  | nstore (a : BitVec 3) (k : BitVec 2)
  /-- NSET: 12 R263 -/
  | nset (d : BitVec 3) (k : BitVec 3)
  /-- NSET_IMM: 12 R263 -/
  | nsetImm (d : BitVec 3) (imm : BitVec 16)
  /-- NADD: 12 R262 -/
  | nadd (d : BitVec 3) (a : BitVec 3) (b : BitVec 3) (t : ElemT)
  /-- NSUB: 12 R262 -/
  | nsub (d : BitVec 3) (a : BitVec 3) (b : BitVec 3) (t : ElemT)
  /-- NMUL: 12 R262 -/
  | nmul (d : BitVec 3) (a : BitVec 3) (b : BitVec 3) (t : ElemT)
  /-- NFMA: 12 R262 -/
  | nfma (d : BitVec 3) (a : BitVec 3) (b : BitVec 3) (t : ElemT)
  /-- NMAX: 12 R262 -/
  | nmax (d : BitVec 3) (a : BitVec 3) (b : BitVec 3) (t : ElemT)
  /-- NMIN: 12 R262 -/
  | nmin (d : BitVec 3) (a : BitVec 3) (b : BitVec 3) (t : ElemT)
  /-- NSUM: 12 R264 -/
  | nsum (d : BitVec 3) (a : BitVec 3) (t : ElemT)
  /-- NCMP: 12 R264 -/
  | ncmp (d : BitVec 3) (a : BitVec 3) (b : BitVec 3) (t : ElemT) (cc : NCond)
  /-- NSEL: 12 R264 -/
  | nsel (d : BitVec 3) (a : BitVec 3) (b : BitVec 3)
  /-- NCVT: 12 R264 -/
  | ncvt (d : BitVec 3) (a : BitVec 3) (kind : NCvt) (rm : Rm)
  /-- NKEY: 12 R265 -/
  | nkey (a : BitVec 3) (lo : BitVec 3) (hi : BitVec 3) (inv : Bool)
  /-- NEMIT: 12 R265 -/
  | nemit (a : BitVec 3) (k : BitVec 3)
  /-- NNEXT: 12 R266 -/
  | nnext (target : BitVec 8)
  /-- NLOOP: 12 R266 -/
  | nloop (k : BitVec 2) (target : BitVec 8)
  /-- NJMP: 12 R266 -/
  | njmp (m0 : Bool) (target : BitVec 8)
  /-- NHALT: 12 R266 -/
  | nhalt
  /-- NSYNC: 12 R266 -/
  | nsync
  /-- FETCH_LINE: 03 R36 -/
  | fetchLine (h : HandKey) (lanes : BitVec 64)
  /-- REGROUP_BUNDLES: 04 R68 -/
  | regroupBundles (q : QuadId)
  /-- ISSUE_SELECT: 04 R70, R71 -/
  | issueSelect (q : QuadId)
  /-- RENDEZVOUS_FORM: 04 R73 -/
  | rendezvousForm (t : ThreadKey)
  /-- PRODUCER_FILL: 03 R50 -/
  | producerFill (t : ThreadKey) (n : Nat)
  /-- LAUNCH_QUEUE_DOORBELL: 04 R54 -/
  | launchQueueDoorbell (q : Nat) (func : Nat) (tail : Word)
  /-- TAKE_ROOT: 04 R55 -/
  | takeRoot (q : Nat)
  /-- VALIDATION_READ_ANSWER: 02 R23 -/
  | validationReadAnswer (q : Nat) (mapped : Bool)
  /-- RETIREMENT_NOTICE: 04 R60 -/
  | retirementNotice (die : Nat)
  /-- WCB_WRITEBACK: 02 R25 -/
  | wcbWriteback (w : SweepRef) (refused : Bool)
  /-- PLACE_TEAM: 04 R57, R58 -/
  | placeTeam (die : Nat)
  /-- ADVERTISE_FREE_SLOTS: 04 R61 -/
  | advertiseFreeSlots (die : Nat)
  /-- TEAM_MESSAGE_RECEIVE: 04 R63 -/
  | teamMessageReceive (die : Nat)
  /-- STAGING_DONE: 04 R59, R66 -/
  | stagingDone (t : TeamId)
  /-- STAGING_PAGE_ANSWER: 04 R67 -/
  | stagingPageAnswer (t : TeamId) (mapped : Bool)
  /-- TEAM_DRAIN_DONE: 04 R59, R67 -/
  | teamDrainDone (t : TeamId)
  /-- SCRATCHPAD_BANK_ACCEPT: 07 R141 -/
  | scratchpadBankAccept (h : HandKey)
  /-- COMMONS_BANK_ACCEPT: 08 R170 -/
  | commonsBankAccept (h : HandKey) (n : Nat)
  /-- DET_COMMIT: 13 R290 -/
  | detCommit (t : TeamId)
  /-- STACK_FILL: 07 R149 -/
  | stackFill (t : ThreadKey)
  /-- STACK_SPILL: 07 R149 -/
  | stackSpill (h : HandKey)
  /-- STACK_PAGE_ANSWER: 07 R149 -/
  | stackPageAnswer (t : ThreadKey) (mapped perm : Bool)
  /-- COPY_RECORD_ACCEPT: 09 R184 -/
  | copyRecordAccept (c : ChanId)
  /-- COPY_RECORD_START: 09 R184 -/
  | copyRecordStart (c : ChanId) (n : Nat)
  /-- COPY_UNIT_SETTLE: 09 R191 -/
  | copyUnitSettle (c : ChanId) (r : Nat) (u : Nat) (more : Nat)
  /-- COPY_UNIT_REPLAY: 09 R196 -/
  | copyUnitReplay (c : ChanId) (r : Nat)
  /-- COPY_END_ACTIONS: 09 R193 -/
  | copyEndActions (c : ChanId)
  /-- COMPLETION_RING_WRITE: 09 R195 -/
  | completionRingWrite (c : ChanId)
  /-- REDUCING_ELEMENT_APPLY: 09 R190 -/
  | reducingElementApply (c : ChanId) (r : Nat) (u : Nat)
  /-- MATRIX_OWNERSHIP_GRANT: 10 R207 -/
  | matrixOwnershipGrant (q : QuadId)
  /-- MATRIX_INSTRUCTION_DONE: 10 R214 -/
  | matrixInstructionDone (q : QuadId) (n : Nat)
  /-- BAG_PUT_ARBITRATE: 11 R236 -/
  | bagPutArbitrate (n : Nat)
  /-- BAG_TAKE_CLAIM: 11 R240 -/
  | bagTakeClaim (n : Nat)
  /-- BAG_TAKE_LAND: 11 R246 -/
  | bagTakeLand (c : ChanId)
  /-- BAG_QUERY_ACCEPT: 11 R247 -/
  | bagQueryAccept (n : Nat)
  /-- BAG_CLEAR_PERFORM: 11 R243 -/
  | bagClearPerform (b : BagId)
  /-- BAG_ITERATION_START: 11 R242 -/
  | bagIterationStart (b : BagId)
  /-- BAG_ITERATION_END: 12 R271 -/
  | bagIterationEnd (b : BagId)
  /-- BAG_CREATE_REQUEST: 11 R234 -/
  | bagCreateRequest (func : Nat) (desc : Nat) (row : Nat)
  /-- BAG_REMOVE_REQUEST: 11 R234 -/
  | bagRemoveRequest (func : Nat) (desc : Nat)
  /-- NB_RUN_ACCEPT: 12 R252 -/
  | nbRunAccept (n : Nat)
  /-- NB_RUN_START: 12 R251 -/
  | nbRunStart (p : Nat)
  /-- NB_ROW_START: 12 R260 -/
  | nbRowStart (p : Nat)
  /-- NB_ARBITRATION_SUSPEND: 12 R254 -/
  | nbArbitrationSuspend (p : Nat)
  /-- NB_RESUME: 12 R254 -/
  | nbResume (p : Nat)
  /-- NB_ROW_MAPPED: 12 R269 -/
  | nbRowMapped (r : Nat) (i : Nat) (mapped : Bool)
  /-- NB_RUN_STOP: 12 R272 -/
  | nbRunStop (p : Nat)
  /-- NB_RUN_END: 12 R266 -/
  | nbRunEnd (p : Nat)
  /-- NB_STATUS_WRITE: 12 R270 -/
  | nbStatusWrite (r : Nat)
  /-- ORDINARY_REQUEST_SERVE: 12 R256 -/
  | ordinaryRequestServe (r : HeldRef)
  /-- LANE_RATIO_QUIESCE: 11 R229 -/
  | laneRatioQuiesce (p : Nat)
  /-- PSEUDO_CHANNEL_QUIESCED: 11 R229 -/
  | pseudoChannelQuiesced (p : Nat)
  /-- LANE_RATIO_RESUME: 11 R229 -/
  | laneRatioResume (p : Nat)
  /-- LANE_RATIO_SET: 11 R229 -/
  | laneRatioSet (p : Nat) (ratio : BitVec 2)
  /-- REGISTER_WRITE: 00 R6 -/
  | registerWrite (r : RegName) (v : Nat)
  /-- FAULT_FILTER_MERGE: 14 R320 -/
  | faultFilterMerge (n : Nat)
  /-- FAULT_QUEUE_APPEND: 14 R322 -/
  | faultQueueAppend (die : Nat)
  /-- DEALER_MAP: 14 R319 -/
  | dealerMap (func : Nat) (page : Page) (fill : List Byte)
  /-- DEALER_REFUSE: 14 R319 -/
  | dealerRefuse (func : Nat) (va : Nat) (code : Byte)
  /-- TRANSLATION_CHANGE: 14 R311 -/
  | translationChange (func : Nat) (va : Nat) (page : Option Page)
  /-- FORWARDED_LINE: 14 R314 -/
  | forwardedLine (l : LineStep)
  /-- MIGRATION_SWITCH: 14 R316 -/
  | migrationSwitch (func : Nat) (va : Nat) (page : Page)
  /-- LINE_PULL: 14 R317 -/
  | linePull (func : Nat) (va : Nat) (failed : Bool)
  /-- DUP_INVALIDATE_ACK: 14 R283 -/
  | dupInvalidateAck (n : Nat) (node : Nat)
  /-- PEER_RESET: 14 R318 -/
  | peerReset (node : Nat) (inc : Word)
  /-- PEER_UNREACHABLE: 14 R318 -/
  | peerUnreachable (node : Nat)
  /-- DIRTY_SWAP_SCHEDULE: 14 R327 -/
  | dirtySwapSchedule (func : Nat) (t : Nat)
  /-- DIRTY_SWAP: 14 R327 -/
  | dirtySwap (func : Nat)
  /-- MAILBOX_DOORBELL: 16 R372 -/
  | mailboxDoorbell (func : Nat)
  /-- RESUME: 14 R325 -/
  | resume (func : Nat) (node : Nat) (team : Nat) (hand : Nat) (mask : BitVec 64)
  /-- RESUME_NEXT: 14 R325 -/
  | resumeNext (func : Nat) (node : Nat) (team : Nat) (hand : Nat) (mask : BitVec 64)
  /-- ABORT: 14 R325 -/
  | abort (func : Nat) (node : Nat) (team : Nat)
  /-- DEBUG_ENABLE_REQUEST: 23 R407 -/
  | debugEnableRequest (func : Nat) (en : Bool)
  /-- BUDGET_THROTTLE: 15 R335 -/
  | budgetThrottle (func : Nat)
  /-- BUDGET_PERIOD_END: 15 R335 -/
  | budgetPeriodEnd (func : Nat)
  /-- SLICE_END: 15 R339 -/
  | sliceEnd (q : Nat) (node : Nat)
  /-- DEALER_PREEMPT_REQUEST: 15 R339 -/
  | dealerPreemptRequest (q : Nat) (node : Nat)
  /-- DEALER_LIFT_PREEMPT: 15 R345 -/
  | dealerLiftPreempt (q : Nat) (node : Nat)
  /-- ESCALATE: 15 R342 -/
  | escalate (t : TeamId)
  /-- CONTEXT_IMAGE_WRITE: 15 R344 -/
  | contextImageWrite (t : TeamId)
  /-- NODE_PREEMPTED: 15 R345 -/
  | nodePreempted (q : Nat) (node : Nat)
  /-- VF_RESET: 15 R337 -/
  | vfReset (r : VfReset)
  /-- PF_RESET: 15 R338 -/
  | pfReset
  /-- FOLD_COMMAND: 15 R346 -/
  | foldCommand (cmd : FoldCmd)
  /-- FOLD_INSTANT: 15 R347 -/
  | foldInstant (job : Nat)
  /-- LATE_PACKET_ARRIVAL: 15 R349 -/
  | latePacketArrival (a : Arrival)
  /-- UNFOLD: 15 R350 -/
  | unfoldJob (cmd : UnfoldCmd)
  /-- LINK_TRAIN: 16 R355 -/
  | linkTrain (port : Nat) (node : Nat) (inc : Word)
  /-- TIME_SYNC: 16 R356 -/
  | timeSync (master : Nat) (t : Nat)
  /-- TIME_MASTER_TAKEOVER: 16 R356 -/
  | timeMasterTakeover
  /-- FLIT_RETRY: 16 R357 -/
  | flitRetry (port : Nat) (lane : Nat)
  /-- PACKET_SEND: 16 R354 -/
  | packetSend (port : Nat) (vc : Nat)
  /-- COLL_CHUNK_RECEIVE: 16 R362 -/
  | collChunkReceive (m : CollMsg)
  /-- COLL_RANK_END: 16 R364 -/
  | collRankEnd (c : CoreId) (slot : Nat)
  /-- POISON_SHARED_READ: 16 R369 -/
  | poisonSharedRead (loc : Nat) (n : Nat)
  /-- POWER_ON_BOOT: 23 R401 -/
  | powerOnBoot (imageOk : Bool) (records : List (Bool × BitVec 128))
  /-- UNIT_READY: 23 R403 -/
  | unitReady (u : ReadyBit)
  /-- CORRECTED_ERROR: 23 R405 -/
  | correctedError (u : ErrUnit)
  /-- UNCORRECTABLE_ERROR: 23 R405 -/
  | uncorrectableError (u : ErrUnit)
  /-- THERMAL_CLOCK_LOWER: 23 R400 -/
  | thermalClockLower (die : Nat)
  /-- THERMAL_POWER_OFF: 23 R400 -/
  | thermalPowerOff (die : Nat)
  /-- DEBUG_HALT: 23 R407 -/
  | debugHalt (c : CoreId)
  /-- DEBUG_FREEZE: 23 R407 -/
  | debugFreeze (c : CoreId)
  /-- DEBUG_RELEASE: 23 R408 -/
  | debugRelease (c : CoreId)
  /-- DEBUG_IDLE: 23 R408 -/
  | debugIdle (c : CoreId)
  /-- BREAKPOINT_RESUME: 04 R84 -/
  | breakpointResume (t : ThreadKey)
  /-- READINESS_BIT_FALLS: 23 R404 -/
  | readinessBitFalls (u : ReadyBit)
  /-- RESOURCE_GRANT: 15 R331 -/
  | resourceGrant (g : Grant)
  /-- BAG_RECORD_WRITE: 11 R236 -/
  | bagRecordWrite (b : BagId) (seq : Nat)
deriving DecidableEq, Repr, Inhabited

end Sys2Proof
end

