-- ==== Sys2Proof/WellFormed.lean ====
section
/-! DEFINITION. What an encoding must satisfy to be an instruction: the ILLEGAL checks of 03 R53 that follow from the
encoding alone (`Instr.wf`), and those that compare it with the launch's fixed parameters W, regs, TILES and CHAIN
(`Instr.fits`, 03 R36, R48; 05 R86, R112; 07 R143, R163; 10 R212). -/

namespace Sys2Proof

/-- The registers source B names, with whether each is a pair. -/
def SrcB.uses (b : SrcB) (pair : Bool) : List (BitVec 8 × Bool) :=
  match b with
  | .reg s => [(s.reg, pair)]
  | .imm _ => []

/-- The modifiers of source B. -/
def SrcB.mods : SrcB → List Modifier
  | .reg s => [s.mod]
  | .imm _ => []

/-- The local tile a tile name holds. -/
def TileName.localTile : TileName → List (BitVec 6)
  | .loc m => [m]
  | .remote _ _ => []

/-- Float operations of the reduction codes (05 R108). -/
def XOp.isFloat (op : XOp) : Bool := op == .fadd || op == .fmin || op == .fmax

/-- Float operations of the atomics (08 R173). -/
def AtomOp.isFloat (op : AtomOp) : Bool := op == .fadd || op == .fmin || op == .fmax

/-- CATOM takes no HAND scope (08 R173). -/
def AtomOrd.scopeOk : AtomOrd → Bool
  | .none => true
  | .acq sc => sc != .hand
  | .rel sc => sc != .hand
  | .ar sc => sc != .hand

/-- The segment size a segment code names, with W for code 0 (03 R47). -/
def segSize (seg : BitVec 3) (w : Nat) : Nat := if seg = 0#3 then w else 2 ^ seg.toNat

/-- The checks of a modifier that need no launch parameter (03 R48). -/
def Modifier.wf : Modifier → Bool
  | .none => true
  | .rot seg _ => seg != 7#3
  | .bfly seg m => seg != 7#3 && (seg == 0#3 || m.toNat < 2 ^ seg.toNat)
  | .bcst seg l => seg != 7#3 && (seg == 0#3 || l.toNat < 2 ^ seg.toNat)

/-- The checks of a modifier against the launch's W (03 R48). -/
def Modifier.fits (w : Nat) : Modifier → Bool
  | .none => true
  | .rot seg _ => segSize seg w ≤ w
  | .bfly seg m => segSize seg w ≤ w && m.toNat < segSize seg w
  | .bcst seg l => segSize seg w ≤ w && l.toNat < segSize seg w

/-- Every vector register field of an instruction, with whether it names a pair (03 R40). -/
def Instr.regUses : Instr → List (BitVec 8 × Bool)
  | .jmp _ a => [(a.reg, true)]
  | .callr _ a => [(a.reg, true)]
  | .jtab _ a b _ => [(a.reg, false)] ++ [(b.reg, false)]
  | .joinReg _ w a => [(a.reg, w)]
  | .waitf _ w a b c => [(a, w)] ++ [(b, w)] ++ [(c, w)]
  | .add _ w d a b => [(d, w)] ++ [(a.reg, w)] ++ b.uses w
  | .addi _ w d a _ => [(d, w)] ++ [(a.reg, w)]
  | .sub _ w d a b => [(d, w)] ++ [(a.reg, w)] ++ b.uses w
  | .mul _ w d a b => [(d, w)] ++ [(a.reg, w)] ++ b.uses w
  | .mulhi _ w d a b => [(d, w)] ++ [(a.reg, w)] ++ b.uses w
  | .mulhs _ w d a b => [(d, w)] ++ [(a.reg, w)] ++ b.uses w
  | .mad _ w d a b c => [(d, w)] ++ [(a.reg, w)] ++ b.uses w ++ [(c.reg, w)]
  | .div _ d a b => [(d, false)] ++ [(a.reg, false)] ++ b.uses false
  | .divs _ d a b => [(d, false)] ++ [(a.reg, false)] ++ b.uses false
  | .rem _ d a b => [(d, false)] ++ [(a.reg, false)] ++ b.uses false
  | .rems _ d a b => [(d, false)] ++ [(a.reg, false)] ++ b.uses false
  | .min _ w d a b => [(d, w)] ++ [(a.reg, w)] ++ b.uses w
  | .max _ w d a b => [(d, w)] ++ [(a.reg, w)] ++ b.uses w
  | .mins _ w d a b => [(d, w)] ++ [(a.reg, w)] ++ b.uses w
  | .maxs _ w d a b => [(d, w)] ++ [(a.reg, w)] ++ b.uses w
  | .abs _ w d a => [(d, w)] ++ [(a.reg, w)]
  | .neg _ w d a => [(d, w)] ++ [(a.reg, w)]
  | .and _ w d a b => [(d, w)] ++ [(a.reg, w)] ++ b.uses w
  | .or _ w d a b => [(d, w)] ++ [(a.reg, w)] ++ b.uses w
  | .xor _ w d a b => [(d, w)] ++ [(a.reg, w)] ++ b.uses w
  | .andn _ w d a b => [(d, w)] ++ [(a.reg, w)] ++ b.uses w
  | .not _ w d a => [(d, w)] ++ [(a.reg, w)]
  | .shl _ w d a b => [(d, w)] ++ [(a.reg, w)] ++ b.uses w
  | .shr _ w d a b => [(d, w)] ++ [(a.reg, w)] ++ b.uses w
  | .sar _ w d a b => [(d, w)] ++ [(a.reg, w)] ++ b.uses w
  | .rot _ w d a b => [(d, w)] ++ [(a.reg, w)] ++ b.uses w
  | .clz _ w d a => [(d, w)] ++ [(a.reg, w)]
  | .popc _ w d a => [(d, w)] ++ [(a.reg, w)]
  | .brev _ w d a => [(d, w)] ++ [(a.reg, w)]
  | .bfx _ w d a b => [(d, w)] ++ [(a.reg, w)] ++ b.uses w
  | .bfxs _ w d a b => [(d, w)] ++ [(a.reg, w)] ++ b.uses w
  | .bfi _ w d a b c => [(d, w)] ++ [(a.reg, w)] ++ b.uses w ++ [(c.reg, w)]
  | .sel _ w d a b _ => [(d, w)] ++ [(a.reg, w)] ++ b.uses w
  | .mov _ w d a => [(d, w)] ++ [(a.reg, w)]
  | .movK _ w d _ => [(d, w)]
  | .movi _ w d _ => [(d, w)]
  | .lea _ w d a b _ => [(d, w)] ++ [(a.reg, w)] ++ b.uses w
  | .icmp _ w _ a b _ => [(a.reg, w)] ++ b.uses w
  | .fadd _ d a b _ => [(d, false)] ++ [(a.reg, false)] ++ b.uses false
  | .fsub _ d a b _ => [(d, false)] ++ [(a.reg, false)] ++ b.uses false
  | .fmul _ d a b _ => [(d, false)] ++ [(a.reg, false)] ++ b.uses false
  | .ffma _ d a b c _ => [(d, false)] ++ [(a.reg, false)] ++ b.uses false ++ [(c.reg, false)]
  | .fmin _ d a b => [(d, false)] ++ [(a.reg, false)] ++ b.uses false
  | .fmax _ d a b => [(d, false)] ++ [(a.reg, false)] ++ b.uses false
  | .fabs _ d a => [(d, false)] ++ [(a.reg, false)]
  | .fneg _ d a => [(d, false)] ++ [(a.reg, false)]
  | .fcmp _ _ a b _ => [(a.reg, false)] ++ b.uses false
  | .fdiv _ d a b _ => [(d, false)] ++ [(a.reg, false)] ++ b.uses false
  | .frcp _ d a _ => [(d, false)] ++ [(a.reg, false)]
  | .frsq _ d a => [(d, false)] ++ [(a.reg, false)]
  | .fsqrt _ d a _ => [(d, false)] ++ [(a.reg, false)]
  | .fexp2 _ d a => [(d, false)] ++ [(a.reg, false)]
  | .flog2 _ d a => [(d, false)] ++ [(a.reg, false)]
  | .fsin _ d a => [(d, false)] ++ [(a.reg, false)]
  | .fcos _ d a => [(d, false)] ++ [(a.reg, false)]
  | .ftanh _ d a => [(d, false)] ++ [(a.reg, false)]
  | .frnd _ d a _ => [(d, false)] ++ [(a.reg, false)]
  | .fclass _ d a => [(d, false)] ++ [(a.reg, false)]
  | .f2i _ d a _ _ => [(d, false)] ++ [(a.reg, false)]
  | .i2f _ d a _ _ => [(d, false)] ++ [(a.reg, false)]
  | .hadd2 _ d a b _ _ => [(d, false)] ++ [(a.reg, false)] ++ [(b.reg, false)]
  | .hmul2 _ d a b _ _ => [(d, false)] ++ [(a.reg, false)] ++ [(b.reg, false)]
  | .hfma2 _ d a b c _ _ => [(d, false)] ++ [(a.reg, false)] ++ [(b.reg, false)] ++ [(c.reg, false)]
  | .fdot4 _ d a b c _ _ => [(d, false)] ++ [(a.reg, false)] ++ [(b.reg, false)] ++ [(c.reg, false)]
  | .cvtN _ d a b c _ _ _ _ => [(d, false)] ++ [(a.reg, false)] ++ [(b.reg, false)] ++ [(c.reg, false)]
  | .cvtW _ d a b _ _ _ => [(d, false)] ++ [(a.reg, false)] ++ [(b.reg, false)]
  | .cvtB _ d a b _ _ => [(d, false)] ++ [(a.reg, false)] ++ [(b.reg, false)]
  | .cvtBW _ d a _ _ => [(d, false)] ++ [(a.reg, false)]
  | .fmtset _ _ a => [(a.reg, false)]
  | .fmtget _ d _ => [(d, false)]
  | .lanel _ w d a => [(d, w)] ++ [(a.reg, w)]
  | .laner _ w d a => [(d, w)] ++ [(a.reg, w)]
  | .xlget _ w d a b => [(d, w)] ++ [(a.reg, w)] ++ [(b.reg, w)]
  | .xlput _ w d a b => [(d, w)] ++ [(a.reg, w)] ++ [(b.reg, w)]
  | .xlred _ w d a _ => [(d, w)] ++ [(a.reg, w)]
  | .xlredKey _ w d a b _ => [(d, w)] ++ [(a.reg, w)] ++ [(b.reg, w)]
  | .xlscan _ w d a _ _ => [(d, w)] ++ [(a.reg, w)]
  | .xlvoteBallot _ w d _ => [(d, w)]
  | .xlvoteCount _ d _ => [(d, false)]
  | .xlbcast _ w d a _ => [(d, w)] ++ [(a.reg, w)]
  | .xlbcastLow _ w d a => [(d, w)] ++ [(a.reg, w)]
  | .ld _ d a sz _ _ _ _ => [(d, (sz == Size.d))] ++ [(a.reg, false)]
  | .st _ a b sz _ _ _ => [(a.reg, false)] ++ [(b.reg, (sz == Size.d))]
  | .satom _ w d a b _ _ => [(d, w)] ++ [(a.reg, false)] ++ [(b.reg, w)]
  | .tset _ _ a b _ _ _ _ _ => [(a.reg, false)] ++ [(b.reg, false)]
  | .tgetE _ w d _ => [(d, w)]
  | .tget _ w d a _ => [(d, w)] ++ [(a.reg, false)]
  | .bbinit _ a b c _ => [(a.reg, false)] ++ [(b.reg, false)] ++ [(c.reg, false)]
  | .bbinitImm _ a _ _ _ => [(a.reg, false)]
  | .bbarr _ a _ => [(a.reg, false)]
  | .bbwait _ a _ => [(a.reg, false)]
  | .cld _ d a sz _ _ _ => [(d, (sz == Size.d))] ++ [(a.reg, false)]
  | .cst _ a b sz _ _ => [(a.reg, false)] ++ [(b.reg, (sz == Size.d))]
  | .catom _ w d a b _ _ _ => [(d, w)] ++ [(a.reg, false)] ++ [(b.reg, w)]
  | .cred _ w a b _ _ => [(a.reg, false)] ++ [(b.reg, w)]
  | .caxpy _ d a b _ _ => [(d, false)] ++ [(a.reg, false)] ++ [(b.reg, false)]
  | .confl _ w d a _ e => [(d, w)] ++ [(a.reg, w)] ++ [(e, w)]
  | .kick _ _ a _ => [(a.reg, false)]
  | .chwait _ d _ => [(d, false)]
  | .chstat _ d _ => [(d, false)]
  | .wbind _ a _ => [(a.reg, false)]
  | .wstat _ d _ => [(d, false)]
  | .acloadRawF _ _ a => [(a.reg, false)]
  | .acloadRawI _ _ a => [(a.reg, false)]
  | .acstoreRaw _ a _ => [(a.reg, false)]
  | .acget _ d a b _ => [(d, false)] ++ [(a.reg, false)] ++ [(b.reg, false)]
  | .acgetRaw _ d a b _ => [(d, true)] ++ [(a.reg, false)] ++ [(b.reg, false)]
  | .delta _ _ _ _ c => [(c.reg, false)]
  | .bagput _ d a b _ => [(d, false)] ++ [(a.reg, false)] ++ [(b.reg, false)]
  | .bagtake _ d a b _ _ => [(d, false)] ++ [(a.reg, false)] ++ [(b.reg, false)]
  | .bagcnt _ d a => [(d, false)] ++ [(a.reg, false)]
  | .baghistRes _ d a b => [(d, false)] ++ [(a.reg, false)] ++ [(b.reg, false)]
  | .baghistPuts _ d a b => [(d, true)] ++ [(a.reg, false)] ++ [(b.reg, false)]
  | .bagcut _ d a => [(d, true)] ++ [(a.reg, false)]
  | .bagiter _ a b c => [(a.reg, false)] ++ [(b.reg, true)] ++ [(c, false)]
  | .bagwait _ d a => [(d, false)] ++ [(a.reg, false)]
  | .bagclr _ a => [(a.reg, false)]
  | .baginfo _ d a _ => [(d, false)] ++ [(a.reg, false)]
  | .nbrun _ a _ => [(a.reg, false)]
  | .foldq _ d => [(d, false)]
  | .coll _ d a _ => [(d, false)] ++ [(a.reg, false)]
  | .collq _ d a => [(d, false)] ++ [(a.reg, false)]
  | .collqWait _ d a => [(d, false)] ++ [(a.reg, false)]
  | .srd _ w d _ => [(d, w)]
  | .swr _ a => [(a.reg, false)]
  | .probe _ d a => [(d, true)] ++ [(a.reg, true)]
  | _ => []

/-- Every source modifier of an instruction (03 R47). -/
def Instr.mods : Instr → List Modifier
  | .add _ _ _ a b => [a.mod] ++ b.mods
  | .addi _ _ _ a _ => [a.mod]
  | .sub _ _ _ a b => [a.mod] ++ b.mods
  | .mul _ _ _ a b => [a.mod] ++ b.mods
  | .mulhi _ _ _ a b => [a.mod] ++ b.mods
  | .mulhs _ _ _ a b => [a.mod] ++ b.mods
  | .mad _ _ _ a b _ => [a.mod] ++ b.mods
  | .div _ _ a b => [a.mod] ++ b.mods
  | .divs _ _ a b => [a.mod] ++ b.mods
  | .rem _ _ a b => [a.mod] ++ b.mods
  | .rems _ _ a b => [a.mod] ++ b.mods
  | .min _ _ _ a b => [a.mod] ++ b.mods
  | .max _ _ _ a b => [a.mod] ++ b.mods
  | .mins _ _ _ a b => [a.mod] ++ b.mods
  | .maxs _ _ _ a b => [a.mod] ++ b.mods
  | .abs _ _ _ a => [a.mod]
  | .neg _ _ _ a => [a.mod]
  | .and _ _ _ a b => [a.mod] ++ b.mods
  | .or _ _ _ a b => [a.mod] ++ b.mods
  | .xor _ _ _ a b => [a.mod] ++ b.mods
  | .andn _ _ _ a b => [a.mod] ++ b.mods
  | .not _ _ _ a => [a.mod]
  | .shl _ _ _ a b => [a.mod] ++ b.mods
  | .shr _ _ _ a b => [a.mod] ++ b.mods
  | .sar _ _ _ a b => [a.mod] ++ b.mods
  | .rot _ _ _ a b => [a.mod] ++ b.mods
  | .clz _ _ _ a => [a.mod]
  | .popc _ _ _ a => [a.mod]
  | .brev _ _ _ a => [a.mod]
  | .bfx _ _ _ a b => [a.mod] ++ b.mods
  | .bfxs _ _ _ a b => [a.mod] ++ b.mods
  | .bfi _ _ _ a b _ => [a.mod] ++ b.mods
  | .sel _ _ _ a b _ => [a.mod] ++ b.mods
  | .mov _ _ _ a => [a.mod]
  | .lea _ _ _ a b _ => [a.mod] ++ b.mods
  | .icmp _ _ _ a b _ => [a.mod] ++ b.mods
  | .fadd _ _ a b _ => [a.mod] ++ b.mods
  | .fsub _ _ a b _ => [a.mod] ++ b.mods
  | .fmul _ _ a b _ => [a.mod] ++ b.mods
  | .ffma _ _ a b _ _ => [a.mod] ++ b.mods
  | .fmin _ _ a b => [a.mod] ++ b.mods
  | .fmax _ _ a b => [a.mod] ++ b.mods
  | .fabs _ _ a => [a.mod]
  | .fneg _ _ a => [a.mod]
  | .fcmp _ _ a b _ => [a.mod] ++ b.mods
  | .fdiv _ _ a b _ => [a.mod] ++ b.mods
  | .frcp _ _ a _ => [a.mod]
  | .frsq _ _ a => [a.mod]
  | .fsqrt _ _ a _ => [a.mod]
  | .fexp2 _ _ a => [a.mod]
  | .flog2 _ _ a => [a.mod]
  | .fsin _ _ a => [a.mod]
  | .fcos _ _ a => [a.mod]
  | .ftanh _ _ a => [a.mod]
  | .frnd _ _ a _ => [a.mod]
  | .fclass _ _ a => [a.mod]
  | .f2i _ _ a _ _ => [a.mod]
  | .i2f _ _ a _ _ => [a.mod]
  | .hadd2 _ _ a b _ _ => [a.mod] ++ [b.mod]
  | .hmul2 _ _ a b _ _ => [a.mod] ++ [b.mod]
  | .hfma2 _ _ a b _ _ _ => [a.mod] ++ [b.mod]
  | .fdot4 _ _ a b _ _ _ => [a.mod] ++ [b.mod]
  | .cvtN _ _ a b _ _ _ _ _ => [a.mod] ++ [b.mod]
  | .cvtW _ _ a b _ _ _ => [a.mod] ++ [b.mod]
  | .cvtB _ _ a b _ _ => [a.mod] ++ [b.mod]
  | .cvtBW _ _ a _ _ => [a.mod]
  | .fmtset _ _ a => [a.mod]
  | .ld _ _ a _ _ _ _ _ => [a.mod]
  | .st _ a _ _ _ _ _ => [a.mod]
  | .satom _ _ _ a _ _ _ => [a.mod]
  | .tget _ _ _ a _ => [a.mod]
  | .bbinit _ a b _ _ => [a.mod] ++ [b.mod]
  | .bbarr _ a _ => [a.mod]
  | .bbwait _ a _ => [a.mod]
  | .cld _ _ a _ _ _ _ => [a.mod]
  | .cst _ a _ _ _ _ => [a.mod]
  | .catom _ _ _ a _ _ _ _ => [a.mod]
  | .cred _ _ a _ _ _ => [a.mod]
  | .caxpy _ _ a _ _ _ => [a.mod]
  | .confl _ _ _ a _ _ => [a.mod]
  | .kick _ _ a _ => [a.mod]
  | .wbind _ a _ => [a.mod]
  | .acget _ _ a b _ => [a.mod] ++ [b.mod]
  | .acgetRaw _ _ a b _ => [a.mod] ++ [b.mod]
  | .bagput _ _ a b _ => [a.mod] ++ [b.mod]
  | .bagtake _ _ a b _ _ => [a.mod] ++ [b.mod]
  | .bagcnt _ _ a => [a.mod]
  | .baghistRes _ _ a b => [a.mod] ++ [b.mod]
  | .baghistPuts _ _ a b => [a.mod] ++ [b.mod]
  | .bagcut _ _ a => [a.mod]
  | .bagiter _ a b _ => [a.mod] ++ [b.mod]
  | .bagwait _ _ a => [a.mod]
  | .bagclr _ a => [a.mod]
  | .baginfo _ _ a _ => [a.mod]
  | .nbrun _ a _ => [a.mod]
  | .coll _ _ a _ => [a.mod]
  | .collq _ _ a => [a.mod]
  | .collqWait _ _ a => [a.mod]
  | .swr _ a => [a.mod]
  | .probe _ _ a => [a.mod]
  | _ => []

/-- Every local tile number of an instruction (07 R143, 10 R212). -/
def Instr.localTiles : Instr → List (BitVec 6)
  | .tset _ d _ _ _ _ _ _ _ => [d]
  | .tgetE _ _ _ t => [t]
  | .tget _ _ _ _ t => t.localTile
  | .tready _ d => [d]
  | .trel _ d => [d]
  | .mmaIp _ _ a b => a.localTile ++ b.localTile
  | .mmaOp _ _ a b => a.localTile ++ b.localTile
  | .mmaRw _ _ a b => a.localTile ++ b.localTile
  | .mmaOpSk _ _ a b => a.localTile ++ b.localTile
  | .mmaRwSp _ _ a b => a.localTile ++ b.localTile
  | .acload _ _ a => [a]
  | .acstore _ d _ _ _ => [d]
  | .delta _ d a b _ => [d] ++ [a] ++ [b]
  | .spcomp _ d a => [d] ++ [a]
  | .txpose _ d a => [d] ++ [a]
  | _ => []

/-- The conditions of single instructions (05 R94, R108; 06 R136; 07 R142, R145, R154, R159; 08 R173; 03 R46;
12 R264). -/
def Instr.formWf : Instr → Bool
  | .movK _ w _ a => (!w || a.getLsbD 0 == false)
  | .movi _ w _ imm => (w || imm.toNat < 2 ^ 32)
  | .fmtsetImm _ _ imm => Machine.fmtAccepted imm
  | .xlred _ w _ _ op => !(w && op.isFloat)
  | .xlredKey _ w _ _ _ op => !(w && op.isFloat)
  | .xlscan _ w _ _ op _ => !(w && op.isFloat)
  | .ld _ _ _ sz sgn acq _ space => (!sgn || sz == .b || sz == .h) && (space == .sp || acq == none)
  | .st _ _ _ _ rel _ space => (space == .sp || rel == none)
  | .satom _ w _ _ _ op _ => (op != .fmin && op != .fmax) && !(w && op == .fadd)
  | .tset _ _ _ _ lay el _ _ f => (lay.toNat ≤ 2) && (el.toNat ≤ 2) && (el == 0#2 || f == 0#4)
  | .bbinitImm _ _ _ bytes arrivals => !(bytes == 0#20 && arrivals == 0#12)
  | .cld _ _ _ sz sgn _ _ => (!sgn || sz == .b || sz == .h)
  | .catom _ w _ _ _ op ord _ => !(w && op.isFloat) && ord.scopeOk
  | .cred _ w _ _ op _ => (op != .xchg && op != .cas && op != .inc) && !(w && op.isFloat)
  | .bra _ tslot _ => tslot.toNat ≤ 4
  | .brpAny _ _ tslot _ => tslot.toNat ≤ 4
  | .brpAll _ _ tslot _ => tslot.toNat ≤ 4
  | .brpNone _ _ tslot _ => tslot.toNat ≤ 4
  | .call _ tslot _ => tslot.toNat ≤ 4
  | .ncvt _ _ kind rm => kind != .fromBf || rm == .rn
  | _ => true

/-- No ILLEGAL, and in a row program no NB_ILLEGAL, follows from the encoding alone (03 R53, 12 R261, R264). -/
def Instr.wf (i : Instr) : Bool :=
  i.regUses.all (fun u => !u.2 || u.1.getLsbD 0 == false) && i.mods.all Modifier.wf && i.formWf

/-- The parameters a launch fixes for decoding (03 R36). -/
structure LaunchParams where
  w : Nat
  regs : Nat
  tiles : Nat
  chain : Bool
deriving DecidableEq, Repr

/-- The checks of single instructions against the launch (05 R112, 07 R163). -/
def Instr.formFits (p : LaunchParams) : Instr → Bool
  | .xlbcast _ _ _ _ lane => lane.toNat < p.w
  | .lbar _ => p.chain
  | _ => true

/-- A register field fits the launch's registers, and so does the odd half of a pair (05 R86). -/
def regFits (regs : Nat) (u : BitVec 8 × Bool) : Bool :=
  if u.2 then u.1.toNat + 1 < regs else u.1.toNat < regs

/-- No ILLEGAL follows from the encoding and the launch's fixed parameters (03 R36). -/
def Instr.fits (p : LaunchParams) (i : Instr) : Bool :=
  i.regUses.all (regFits p.regs) && i.mods.all (Modifier.fits p.w) &&
    i.localTiles.all (fun t => t.toNat < p.tiles) && i.formFits p

/-- JOIN, BRP, CONFL and the cross-lane instructions (04 R73, 05 R107, 08 R178). -/
def Instr.crossLane : Instr → Bool
  | .lanel _ _ _ _ => true
  | .laner _ _ _ _ => true
  | .xlget _ _ _ _ _ => true
  | .xlput _ _ _ _ _ => true
  | .xlred _ _ _ _ _ => true
  | .xlredKey _ _ _ _ _ _ => true
  | .xlscan _ _ _ _ _ _ => true
  | .xlvoteAny _ _ _ => true
  | .xlvoteAll _ _ _ => true
  | .xlvoteBallot _ _ _ _ => true
  | .xlvoteCount _ _ _ => true
  | .xlbcast _ _ _ _ _ => true
  | .xlbcastLow _ _ _ _ => true
  | .confl _ _ _ _ _ _ => true
  | .brpAny _ _ _ _ => true
  | .brpAll _ _ _ _ => true
  | .brpNone _ _ _ _ => true
  | .joinImm _ _ => true
  | .joinReg _ _ _ => true
  | _ => false

/-- A rendezvous instruction (04 R73). -/
def Instr.isRendezvous (i : Instr) : Bool := i.crossLane || i.mods.any (· != .none)

end Sys2Proof
end

