-- ==== Sys2Proof/Decode.lean ====
section
/-! DEFINITION. The decoder of a 96-bit instruction slot (03 R37 to R53) and of a 32-bit row operation (12 R261), and
the encoder, both written from the encoding tables of the owning chapters. A field is read where its format puts it;
a word is an instruction only if encoding what was read gives the word back, which is R39: every field that the
instruction does not use is zero. -/

namespace Sys2Proof

/-- Why a word is not an instruction; every case is ILLEGAL (0x01) in a thread, and NB_ILLEGAL on a near-bank unit. -/
inductive DecodeError where
  /-- OP, SEL or FN not assigned (03 R52, R53). -/
  | unassigned
  /-- A field breaks the instruction's form: a nonzero unused field, an odd pair, a bad modifier (03 R39, R40, R48). -/
  | form
  /-- FMTSET of an immediate that is not valid (06 R136); the fault record's address is the value. -/
  | fmtValue (v : Word)
deriving DecidableEq, Repr

/-- The code of Rm (05 R99). -/
def Rm.code : Rm → BitVec 2
  | .rn => 0#2
  | .rz => 1#2
  | .ru => 2#2
  | .rd => 3#2

/-- The Rm a code names; an unassigned code reads as the last, which never encodes back to it. -/
def Rm.ofCode (c : BitVec 2) : Rm :=
  match c.toNat with
  | 0 => .rn
  | 1 => .rz
  | 2 => .ru
  | _ => .rd

/-- The code of ICond (05 R97). -/
def ICond.code : ICond → BitVec 4
  | .eq => 0#4
  | .ne => 1#4
  | .ult => 2#4
  | .ule => 3#4
  | .ugt => 4#4
  | .uge => 5#4
  | .slt => 6#4
  | .sle => 7#4
  | .sgt => 8#4
  | .sge => 9#4

/-- The ICond a code names; an unassigned code reads as the last, which never encodes back to it. -/
def ICond.ofCode (c : BitVec 4) : ICond :=
  match c.toNat with
  | 0 => .eq
  | 1 => .ne
  | 2 => .ult
  | 3 => .ule
  | 4 => .ugt
  | 5 => .uge
  | 6 => .slt
  | 7 => .sle
  | 8 => .sgt
  | _ => .sge

/-- The code of FCond (05 R102). -/
def FCond.code : FCond → BitVec 3
  | .eq => 0#3
  | .ne => 1#3
  | .lt => 2#3
  | .le => 3#3
  | .gt => 4#3
  | .ge => 5#3
  | .un => 6#3
  | .ord => 7#3

/-- The FCond a code names; an unassigned code reads as the last, which never encodes back to it. -/
def FCond.ofCode (c : BitVec 3) : FCond :=
  match c.toNat with
  | 0 => .eq
  | 1 => .ne
  | 2 => .lt
  | 3 => .le
  | 4 => .gt
  | 5 => .ge
  | 6 => .un
  | _ => .ord

/-- The code of XOp (05 R108). -/
def XOp.code : XOp → BitVec 3
  | .fadd => 0#3
  | .fmin => 1#3
  | .fmax => 2#3
  | .iadd => 3#3
  | .and => 4#3
  | .or => 5#3
  | .xor => 6#3

/-- The XOp a code names; an unassigned code reads as the last, which never encodes back to it. -/
def XOp.ofCode (c : BitVec 3) : XOp :=
  match c.toNat with
  | 0 => .fadd
  | 1 => .fmin
  | 2 => .fmax
  | 3 => .iadd
  | 4 => .and
  | 5 => .or
  | _ => .xor

/-- The code of AtomOp (07 R145, 08 R172). -/
def AtomOp.code : AtomOp → BitVec 4
  | .add => 0#4
  | .min => 1#4
  | .max => 2#4
  | .mins => 3#4
  | .maxs => 4#4
  | .and => 5#4
  | .or => 6#4
  | .xor => 7#4
  | .xchg => 8#4
  | .cas => 9#4
  | .inc => 10#4
  | .fadd => 11#4
  | .fmin => 12#4
  | .fmax => 13#4

/-- The AtomOp a code names; an unassigned code reads as the last, which never encodes back to it. -/
def AtomOp.ofCode (c : BitVec 4) : AtomOp :=
  match c.toNat with
  | 0 => .add
  | 1 => .min
  | 2 => .max
  | 3 => .mins
  | 4 => .maxs
  | 5 => .and
  | 6 => .or
  | 7 => .xor
  | 8 => .xchg
  | 9 => .cas
  | 10 => .inc
  | 11 => .fadd
  | 12 => .fmin
  | _ => .fmax

/-- The code of AxpyTy (08 R173). -/
def AxpyTy.code : AxpyTy → BitVec 2
  | .f32 => 0#2
  | .bf2 => 1#2
  | .i32 => 2#2

/-- The AxpyTy a code names; an unassigned code reads as the last, which never encodes back to it. -/
def AxpyTy.ofCode (c : BitVec 2) : AxpyTy :=
  match c.toNat with
  | 0 => .f32
  | 1 => .bf2
  | _ => .i32

/-- The code of Scope (07 R142). -/
def Scope.code : Scope → BitVec 3
  | .hand => 0#3
  | .team => 1#3
  | .die => 2#3
  | .pkg => 3#3
  | .sys => 4#3

/-- The Scope a code names; an unassigned code reads as the last, which never encodes back to it. -/
def Scope.ofCode (c : BitVec 3) : Scope :=
  match c.toNat with
  | 0 => .hand
  | 1 => .team
  | 2 => .die
  | 3 => .pkg
  | _ => .sys

/-- The code of Size (07 R142). -/
def Size.code : Size → BitVec 2
  | .b => 0#2
  | .h => 1#2
  | .w => 2#2
  | .d => 3#2

/-- The Size a code names; an unassigned code reads as the last, which never encodes back to it. -/
def Size.ofCode (c : BitVec 2) : Size :=
  match c.toNat with
  | 0 => .b
  | 1 => .h
  | 2 => .w
  | _ => .d

/-- The code of SatSel (06 R133, 10 R212). -/
def SatSel.code : SatSel → BitVec 2
  | .reg => 0#2
  | .sat => 1#2
  | .wrap => 2#2

/-- The SatSel a code names; an unassigned code reads as the last, which never encodes back to it. -/
def SatSel.ofCode (c : BitVec 2) : SatSel :=
  match c.toNat with
  | 0 => .reg
  | 1 => .sat
  | _ => .wrap

/-- The code of ElemT (12 R262). -/
def ElemT.code : ElemT → BitVec 2
  | .f32 => 0#2
  | .i32 => 1#2
  | .bf => 2#2

/-- The ElemT a code names; an unassigned code reads as the last, which never encodes back to it. -/
def ElemT.ofCode (c : BitVec 2) : ElemT :=
  match c.toNat with
  | 0 => .f32
  | 1 => .i32
  | _ => .bf

/-- The code of NCond (12 R264). -/
def NCond.code : NCond → BitVec 3
  | .eq => 0#3
  | .ne => 1#3
  | .lt => 2#3
  | .le => 3#3
  | .gt => 4#3
  | .ge => 5#3

/-- The NCond a code names; an unassigned code reads as the last, which never encodes back to it. -/
def NCond.ofCode (c : BitVec 3) : NCond :=
  match c.toNat with
  | 0 => .eq
  | 1 => .ne
  | 2 => .lt
  | 3 => .le
  | 4 => .gt
  | _ => .ge

/-- The code of NCvt (12 R264). -/
def NCvt.code : NCvt → BitVec 3
  | .f2i => 0#3
  | .i2f => 1#3
  | .toBf => 2#3
  | .fromBf => 3#3

/-- The NCvt a code names; an unassigned code reads as the last, which never encodes back to it. -/
def NCvt.ofCode (c : BitVec 3) : NCvt :=
  match c.toNat with
  | 0 => .f2i
  | 1 => .i2f
  | 2 => .toBf
  | _ => .fromBf

/-- The number of a special register (05 R90). -/
def SReg.code : SReg → BitVec 8
  | .tid => 0#8
  | .lane => 1#8
  | .hand => 2#8
  | .teamX => 3#8
  | .teamY => 4#8
  | .teamZ => 5#8
  | .width => 6#8
  | .core => 7#8
  | .die => 8#8
  | .quad => 9#8
  | .pmask => 10#8
  | .edge => 11#8
  | .stkbase => 12#8
  | .stklim => 13#8
  | .detmode => 14#8
  | .cycle => 16#8
  | .time => 17#8
  | .foldst => 18#8

/-- The special register a number names; an unlisted number reads as %foldst, which never encodes back to it. -/
def SReg.ofCode (c : BitVec 8) : SReg :=
  match c.toNat with
  | 0 => .tid
  | 1 => .lane
  | 2 => .hand
  | 3 => .teamX
  | 4 => .teamY
  | 5 => .teamZ
  | 6 => .width
  | 7 => .core
  | 8 => .die
  | 9 => .quad
  | 10 => .pmask
  | 11 => .edge
  | 12 => .stkbase
  | 13 => .stklim
  | 14 => .detmode
  | 16 => .cycle
  | 17 => .time
  | _ => .foldst

/-! ## The slot and its fields -/

/-- A slot by its common fields and bits [95:32] (03 R37, R38). -/
structure Slot where
  w64 : Bool
  feC : Bool
  feB : Bool
  feA : Bool
  pn : Bool
  pg : BitVec 3
  d : BitVec 8
  fn : BitVec 8
  op : BitVec 8
  body : BitVec 64
deriving DecidableEq, Repr

/-- One bit as a bit vector. -/
def bit (b : Bool) : BitVec 1 := BitVec.ofBool b

/-- The slot's 96 bits (03 R37). -/
def Slot.toWord (s : Slot) : BitVec 96 :=
  s.body ++ (bit s.w64 ++ (bit s.feC ++ (bit s.feB ++ (bit s.feA ++ (bit s.pn ++ (s.pg ++ (s.d ++ (s.fn ++ s.op))))))))

/-- The fields of 96 bits (03 R37). -/
def Slot.ofWord (w : BitVec 96) : Slot where
  w64 := w.getLsbD 31
  feC := w.getLsbD 30
  feB := w.getLsbD 29
  feA := w.getLsbD 28
  pn := w.getLsbD 27
  pg := w.extractLsb' 24 3
  d := w.extractLsb' 16 8
  fn := w.extractLsb' 8 8
  op := w.extractLsb' 0 8
  body := w.extractLsb' 32 64

/-- Field A, bits [39:32] of the slot (03 R38). -/
def Slot.a (s : Slot) : BitVec 8 := s.body.extractLsb' 0 8
/-- Field MA, bits [51:40] (03 R38). -/
def Slot.ma (s : Slot) : BitVec 12 := s.body.extractLsb' 8 12
/-- Field B, bits [59:52] (03 R38). -/
def Slot.b (s : Slot) : BitVec 8 := s.body.extractLsb' 20 8
/-- Field MB, bits [71:60], of the V format (03 R38). -/
def Slot.mb (s : Slot) : BitVec 12 := s.body.extractLsb' 28 12
/-- Field C, bits [79:72], of the V and X formats (03 R38). -/
def Slot.c (s : Slot) : BitVec 8 := s.body.extractLsb' 40 8
/-- Field IMM16, bits [95:80], of the V and X formats (03 R38). -/
def Slot.imm16 (s : Slot) : BitVec 16 := s.body.extractLsb' 48 16
/-- Field IMM32, OFF32 or DISP32, bits [95:64] (03 R38). -/
def Slot.imm32 (s : Slot) : BitVec 32 := s.body.extractLsb' 32 32
/-- Field SPACE, bits [63:60], of the M format (03 R38). -/
def Slot.space (s : Slot) : BitVec 4 := s.body.extractLsb' 28 4
/-- Field TSLOT, bits [62:60], of the J format (03 R38). -/
def Slot.tslot (s : Slot) : BitVec 3 := s.body.extractLsb' 28 3

/-- Bits [95:32] of the V and X formats (03 R38). -/
def bodyV (imm16 : BitVec 16) (c : BitVec 8) (mb : BitVec 12) (b : BitVec 8) (ma : BitVec 12) (a : BitVec 8) : BitVec 64 :=
  imm16 ++ (c ++ (mb ++ (b ++ (ma ++ a))))
/-- Bits [95:32] of the I and M formats; hi is bits [63:60] (03 R38). -/
def bodyM (imm32 : BitVec 32) (hi : BitVec 4) (b : BitVec 8) (ma : BitVec 12) (a : BitVec 8) : BitVec 64 :=
  imm32 ++ (hi ++ (b ++ (ma ++ a)))
/-- Bits [95:32] of the J format (03 R38). -/
def bodyJ (disp : BitVec 32) (tslot : BitVec 3) (b : BitVec 8) (ma : BitVec 12) (a : BitVec 8) : BitVec 64 :=
  disp ++ (0#1 ++ (tslot ++ (b ++ (ma ++ a))))

/-- The 12 bits of a modifier (03 R47). -/
def Modifier.bits : Modifier → BitVec 12
  | .none => 0#12
  | .rot seg d => 1#2 ++ (seg ++ d)
  | .bfly seg m => 2#2 ++ (seg ++ m)
  | .bcst seg l => 3#2 ++ (seg ++ l)

/-- The modifier 12 bits name (03 R47); class 0 with a nonzero rest reads as none and does not encode back. -/
def Modifier.ofBits (m : BitVec 12) : Modifier :=
  match (m.extractLsb' 10 2).toNat with
  | 0 => .none
  | 1 => .rot (m.extractLsb' 7 3) (m.extractLsb' 0 7)
  | 2 => .bfly (m.extractLsb' 7 3) (m.extractLsb' 0 7)
  | _ => .bcst (m.extractLsb' 7 3) (m.extractLsb' 0 7)

/-- IMMB (03 R43). -/
def SrcB.isImm : SrcB → Bool
  | .reg _ => false
  | .imm _ => true
/-- Field B of a source B (03 R44). -/
def SrcB.fieldB : SrcB → BitVec 8
  | .reg s => s.reg
  | .imm _ => 0#8
/-- Field MB of a source B (03 R44). -/
def SrcB.fieldMB : SrcB → BitVec 12
  | .reg s => s.mod.bits
  | .imm _ => 0#12
/-- The FE bit of a source B. -/
def SrcB.fe : SrcB → Bool
  | .reg s => s.fe
  | .imm _ => false
/-- Field IMM16 of a source B (03 R44). -/
def SrcB.fieldImm : SrcB → BitVec 16
  | .reg _ => 0#16
  | .imm i => i

/-- The guard of a slot (03 R41). -/
def Slot.guard (s : Slot) : Guard := ⟨s.pg, s.pn⟩
/-- Source A as a register with modifier and FE bit. -/
def Slot.srcA (s : Slot) : Src := ⟨s.a, Modifier.ofBits s.ma, s.feA⟩
/-- Source B as a register with modifier and FE bit. -/
def Slot.srcB (s : Slot) : Src := ⟨s.b, Modifier.ofBits s.mb, s.feB⟩
/-- Source B, a register or the immediate under IMMB (03 R43). -/
def Slot.srcBI (s : Slot) : SrcB := if s.fn.getLsbD 7 then .imm s.imm16 else .reg s.srcB
/-- Source A as a plain register with FE bit. -/
def Slot.csrcA (s : Slot) : CSrc := ⟨s.a, s.feA⟩
/-- Source B as a plain register with FE bit. -/
def Slot.csrcB (s : Slot) : CSrc := ⟨s.b, s.feB⟩
/-- Source C (03 R47: no modifier). -/
def Slot.csrcC (s : Slot) : CSrc := ⟨s.c, s.feC⟩
/-- A small number in the low bits of a byte field. -/
def Slot.lowD (s : Slot) (n : Nat) : BitVec n := s.d.setWidth n
/-- A small number in the low bits of field A. -/
def Slot.lowA (s : Slot) (n : Nat) : BitVec n := s.a.setWidth n
/-- A small number in the low bits of field B. -/
def Slot.lowB (s : Slot) (n : Nat) : BitVec n := s.b.setWidth n
/-- A small number in the low bits of field C. -/
def Slot.lowC (s : Slot) (n : Nat) : BitVec n := s.c.setWidth n
/-- FN of the lane-arithmetic blocks: IMMB, SEL, VAR (03 R43). -/
def fnLane (imm : Bool) (sel : BitVec 3) (var : BitVec 4) : BitVec 8 := bit imm ++ (sel ++ var)

/-- The order and scope bits of LD and CLD: order 1 is an acquire, and order 0 requires scope 0 (07 R142). -/
def acqBits : Option Scope → BitVec 5
  | none => 0#5
  | some sc => sc.code ++ 1#2
/-- The order and scope bits of ST and CST: order 2 is a release (07 R142). -/
def relBits : Option Scope → BitVec 5
  | none => 0#5
  | some sc => sc.code ++ 2#2
/-- Reads the order and scope bits: order 0 is none. -/
def scopeOfBits (b : BitVec 5) : Option Scope :=
  if b.extractLsb' 0 2 = 0#2 then none else some (Scope.ofCode (b.extractLsb' 2 3))
/-- The scope code of CATOM: TEAM 0, DIE 1, PKG 2, SYS 3 (08 R173). -/
def Scope.atomCode : Scope → BitVec 2
  | .hand => 0#2
  | .team => 0#2
  | .die => 1#2
  | .pkg => 2#2
  | .sys => 3#2
/-- The scope a CATOM scope code names (08 R173). -/
def Scope.ofAtomCode (c : BitVec 2) : Scope :=
  match c.toNat with
  | 0 => .team
  | 1 => .die
  | 2 => .pkg
  | _ => .sys
/-- Order and scope bits of CATOM, FN [7:4] (08 R173). -/
def AtomOrd.bits : AtomOrd → BitVec 4
  | .none => 0#4
  | .acq sc => sc.atomCode ++ 1#2
  | .rel sc => sc.atomCode ++ 2#2
  | .ar sc => sc.atomCode ++ 3#2
/-- Reads order and scope bits of CATOM; order 0 with a scope reads as none and does not encode back. -/
def AtomOrd.ofBits (b : BitVec 4) : AtomOrd :=
  match (b.extractLsb' 0 2).toNat with
  | 0 => .none
  | 1 => .acq (Scope.ofAtomCode (b.extractLsb' 2 2))
  | 2 => .rel (Scope.ofAtomCode (b.extractLsb' 2 2))
  | _ => .ar (Scope.ofAtomCode (b.extractLsb' 2 2))
/-- SPACE of LD and ST (03 R45). -/
def LdSpace.code : LdSpace → BitVec 4
  | .sp => 0#4
  | .stk => 2#4
/-- The space of LD and ST a SPACE value names. -/
def LdSpace.ofCode (c : BitVec 4) : LdSpace := if c = 0#4 then .sp else .stk

/-- A tile name in IMM16 (07 R143). -/
def TileName.bits : TileName → BitVec 16
  | .loc m => 0#10 ++ m
  | .remote n m => 0#6 ++ (n ++ (1#1 ++ m))
/-- Reads a tile name (07 R143). -/
def TileName.ofBits (b : BitVec 16) : TileName :=
  if b.getLsbD 6 then .remote (b.extractLsb' 7 3) (b.extractLsb' 0 6) else .loc (b.extractLsb' 0 6)
/-- The tile number of a tile name. -/
def TileName.num : TileName → BitVec 6
  | .loc m => m
  | .remote _ m => m
/-- The remote flag and core of an MMA operand, IMM16 [3:0] or [7:4] (10 R212). -/
def TileName.matBits : TileName → BitVec 4
  | .loc _ => 0#4
  | .remote n _ => 1#1 ++ n
/-- Reads an MMA operand from its tile number and its remote bits (10 R212). -/
def TileName.ofMat (m : BitVec 6) (r : BitVec 4) : TileName :=
  if r.getLsbD 3 then .remote (r.extractLsb' 0 3) m else .loc m

/-! ## Reading a slot -/

/-- Reads a slot of OP 0x00 to 0x1F (05 R93, 04 R75 NOP). -/
def parseInt (s : Slot) : Option Instr :=
  match s.op.toNat with
  | 0x00 => some (.nop s.guard)
  | 0x01 => some (.add s.guard s.w64 s.d s.srcA s.srcBI)
  | 0x02 => some (.addi s.guard s.w64 s.d s.srcA s.imm32)
  | 0x03 => some (.sub s.guard s.w64 s.d s.srcA s.srcBI)
  | 0x04 => some (.mul s.guard s.w64 s.d s.srcA s.srcBI)
  | 0x05 =>
    if s.fn &&& 0x7F#8 = 0x00#8 then some (.mulhi s.guard s.w64 s.d s.srcA s.srcBI)
    else if s.fn &&& 0x7F#8 = 0x10#8 then some (.mulhs s.guard s.w64 s.d s.srcA s.srcBI)
    else none
  | 0x06 => some (.mad s.guard s.w64 s.d s.srcA s.srcBI s.csrcC)
  | 0x07 =>
    if s.fn &&& 0x7F#8 = 0x00#8 then some (.div s.guard s.d s.srcA s.srcBI)
    else if s.fn &&& 0x7F#8 = 0x10#8 then some (.divs s.guard s.d s.srcA s.srcBI)
    else none
  | 0x08 =>
    if s.fn &&& 0x7F#8 = 0x00#8 then some (.rem s.guard s.d s.srcA s.srcBI)
    else if s.fn &&& 0x7F#8 = 0x10#8 then some (.rems s.guard s.d s.srcA s.srcBI)
    else none
  | 0x09 =>
    if s.fn &&& 0x7F#8 = 0x00#8 then some (.min s.guard s.w64 s.d s.srcA s.srcBI)
    else if s.fn &&& 0x7F#8 = 0x10#8 then some (.max s.guard s.w64 s.d s.srcA s.srcBI)
    else if s.fn &&& 0x7F#8 = 0x20#8 then some (.mins s.guard s.w64 s.d s.srcA s.srcBI)
    else if s.fn &&& 0x7F#8 = 0x30#8 then some (.maxs s.guard s.w64 s.d s.srcA s.srcBI)
    else none
  | 0x0A =>
    if s.fn &&& 0x7F#8 = 0x00#8 then some (.abs s.guard s.w64 s.d s.srcA)
    else if s.fn &&& 0x7F#8 = 0x10#8 then some (.neg s.guard s.w64 s.d s.srcA)
    else none
  | 0x0B =>
    if s.fn &&& 0x7F#8 = 0x00#8 then some (.and s.guard s.w64 s.d s.srcA s.srcBI)
    else if s.fn &&& 0x7F#8 = 0x10#8 then some (.or s.guard s.w64 s.d s.srcA s.srcBI)
    else if s.fn &&& 0x7F#8 = 0x20#8 then some (.xor s.guard s.w64 s.d s.srcA s.srcBI)
    else if s.fn &&& 0x7F#8 = 0x30#8 then some (.andn s.guard s.w64 s.d s.srcA s.srcBI)
    else if s.fn &&& 0x7F#8 = 0x40#8 then some (.not s.guard s.w64 s.d s.srcA)
    else none
  | 0x0C =>
    if s.fn &&& 0x7F#8 = 0x00#8 then some (.shl s.guard s.w64 s.d s.srcA s.srcBI)
    else if s.fn &&& 0x7F#8 = 0x10#8 then some (.shr s.guard s.w64 s.d s.srcA s.srcBI)
    else if s.fn &&& 0x7F#8 = 0x20#8 then some (.sar s.guard s.w64 s.d s.srcA s.srcBI)
    else if s.fn &&& 0x7F#8 = 0x30#8 then some (.rot s.guard s.w64 s.d s.srcA s.srcBI)
    else none
  | 0x0D =>
    if s.fn &&& 0x7F#8 = 0x00#8 then some (.clz s.guard s.w64 s.d s.srcA)
    else if s.fn &&& 0x7F#8 = 0x10#8 then some (.popc s.guard s.w64 s.d s.srcA)
    else if s.fn &&& 0x7F#8 = 0x20#8 then some (.brev s.guard s.w64 s.d s.srcA)
    else none
  | 0x0E =>
    if s.fn &&& 0x7F#8 = 0x00#8 then some (.bfx s.guard s.w64 s.d s.srcA s.srcBI)
    else if s.fn &&& 0x7F#8 = 0x10#8 then some (.bfxs s.guard s.w64 s.d s.srcA s.srcBI)
    else none
  | 0x0F => some (.bfi s.guard s.w64 s.d s.srcA s.srcBI s.csrcC)
  | 0x10 => some (.sel s.guard s.w64 s.d s.srcA s.srcBI (s.lowC 3))
  | 0x11 =>
    if s.fn &&& 0x7F#8 = 0x00#8 then some (.mov s.guard s.w64 s.d s.srcA)
    else if s.fn &&& 0x7F#8 = 0x01#8 then some (.movK s.guard s.w64 s.d (s.lowA 6))
    else none
  | 0x12 => some (.movi s.guard s.w64 s.d s.body)
  | 0x13 => some (.lea s.guard s.w64 s.d s.srcA s.srcBI (s.fn.extractLsb' 0 3))
  | 0x14 => some (.icmp s.guard s.w64 (s.lowD 3) s.srcA s.srcBI (ICond.ofCode (s.fn.extractLsb' 0 4)))
  | _ => none

/-- Reads a slot of OP 0x20 to 0x3F (05 R100, 06 R133). -/
def parseFloat (s : Slot) : Option Instr :=
  match s.op.toNat with
  | 0x20 => some (.fadd s.guard s.d s.srcA s.srcBI (Rm.ofCode (s.fn.extractLsb' 0 2)))
  | 0x21 => some (.fsub s.guard s.d s.srcA s.srcBI (Rm.ofCode (s.fn.extractLsb' 0 2)))
  | 0x22 => some (.fmul s.guard s.d s.srcA s.srcBI (Rm.ofCode (s.fn.extractLsb' 0 2)))
  | 0x23 => some (.ffma s.guard s.d s.srcA s.srcBI s.csrcC (Rm.ofCode (s.fn.extractLsb' 0 2)))
  | 0x24 =>
    if s.fn &&& 0x7F#8 = 0x00#8 then some (.fmin s.guard s.d s.srcA s.srcBI)
    else if s.fn &&& 0x7F#8 = 0x10#8 then some (.fmax s.guard s.d s.srcA s.srcBI)
    else none
  | 0x25 =>
    if s.fn &&& 0x7F#8 = 0x00#8 then some (.fabs s.guard s.d s.srcA)
    else if s.fn &&& 0x7F#8 = 0x10#8 then some (.fneg s.guard s.d s.srcA)
    else none
  | 0x26 => some (.fcmp s.guard (s.lowD 3) s.srcA s.srcBI (FCond.ofCode (s.fn.extractLsb' 0 3)))
  | 0x27 => some (.fdiv s.guard s.d s.srcA s.srcBI (Rm.ofCode (s.fn.extractLsb' 0 2)))
  | 0x28 =>
    if s.fn &&& 0x7C#8 = 0x00#8 then some (.frcp s.guard s.d s.srcA (Rm.ofCode (s.fn.extractLsb' 0 2)))
    else if s.fn &&& 0x7F#8 = 0x10#8 then some (.frsq s.guard s.d s.srcA)
    else if s.fn &&& 0x7C#8 = 0x20#8 then some (.fsqrt s.guard s.d s.srcA (Rm.ofCode (s.fn.extractLsb' 0 2)))
    else none
  | 0x29 =>
    if s.fn &&& 0x7F#8 = 0x00#8 then some (.fexp2 s.guard s.d s.srcA)
    else if s.fn &&& 0x7F#8 = 0x10#8 then some (.flog2 s.guard s.d s.srcA)
    else none
  | 0x2A =>
    if s.fn &&& 0x7F#8 = 0x00#8 then some (.fsin s.guard s.d s.srcA)
    else if s.fn &&& 0x7F#8 = 0x10#8 then some (.fcos s.guard s.d s.srcA)
    else if s.fn &&& 0x7F#8 = 0x20#8 then some (.ftanh s.guard s.d s.srcA)
    else none
  | 0x2B => some (.frnd s.guard s.d s.srcA (Rm.ofCode (s.fn.extractLsb' 0 2)))
  | 0x2C => some (.fclass s.guard s.d s.srcA)
  | 0x2D => some (.f2i s.guard s.d s.srcA (Rm.ofCode (s.fn.extractLsb' 0 2)) (s.fn.getLsbD 2))
  | 0x2E => some (.i2f s.guard s.d s.srcA (Rm.ofCode (s.fn.extractLsb' 0 2)) (s.fn.getLsbD 2))
  | 0x2F =>
    if s.fn &&& 0x78#8 = 0x00#8 then some (.hadd2 s.guard s.d s.srcA s.srcB (Rm.ofCode (s.fn.extractLsb' 0 2)) (s.fn.getLsbD 2))
    else if s.fn &&& 0x78#8 = 0x10#8 then some (.hmul2 s.guard s.d s.srcA s.srcB (Rm.ofCode (s.fn.extractLsb' 0 2)) (s.fn.getLsbD 2))
    else if s.fn &&& 0x78#8 = 0x20#8 then some (.hfma2 s.guard s.d s.srcA s.srcB s.csrcC (Rm.ofCode (s.fn.extractLsb' 0 2)) (s.fn.getLsbD 2))
    else none
  | 0x30 => some (.fdot4 s.guard s.d s.srcA s.srcB s.csrcC (Rm.ofCode (s.fn.extractLsb' 0 2)) (s.imm16.extractLsb' 0 4))
  | 0x31 => some (.cvtN s.guard s.d s.srcA s.srcB s.csrcC (Rm.ofCode (s.fn.extractLsb' 0 2)) (SatSel.ofCode (s.fn.extractLsb' 2 2)) (s.imm16.extractLsb' 0 4) (s.imm16.extractLsb' 4 3))
  | 0x32 => some (.cvtW s.guard s.d s.srcA s.srcB (Rm.ofCode (s.fn.extractLsb' 0 2)) (s.imm16.extractLsb' 0 4) (s.imm16.extractLsb' 4 3))
  | 0x33 =>
    if s.fn &&& 0x78#8 = 0x00#8 then some (.cvtB s.guard s.d s.srcA s.srcB (Rm.ofCode (s.fn.extractLsb' 0 2)) (s.fn.getLsbD 2))
    else if s.fn &&& 0x7B#8 = 0x08#8 then some (.cvtBW s.guard s.d s.srcA (s.fn.getLsbD 2) (s.imm16.getLsbD 0))
    else none
  | 0x34 =>
    if s.fn &&& 0x7F#8 = 0x00#8 then some (.fmtset s.guard (s.lowD 4) s.srcA)
    else if s.fn &&& 0x7F#8 = 0x01#8 then some (.fmtsetImm s.guard (s.lowD 4) s.imm32)
    else if s.fn &&& 0x7F#8 = 0x10#8 then some (.fmtget s.guard s.d (s.lowA 4))
    else none
  | _ => none

/-- Reads a slot of OP 0x40 to 0x4F (05 R98, R108). -/
def parseLane (s : Slot) : Option Instr :=
  match s.op.toNat with
  | 0x40 => some (.pand s.guard (s.lowD 3) (s.lowA 3) (s.lowB 3))
  | 0x41 => some (.por s.guard (s.lowD 3) (s.lowA 3) (s.lowB 3))
  | 0x42 => some (.pxor s.guard (s.lowD 3) (s.lowA 3) (s.lowB 3))
  | 0x43 => some (.pnot s.guard (s.lowD 3) (s.lowA 3))
  | 0x44 =>
    if s.fn &&& 0x7F#8 = 0x00#8 then some (.pmov s.guard (s.lowD 3) (s.lowA 3))
    else if s.fn &&& 0x7F#8 = 0x01#8 then some (.pmovImm s.guard (s.lowD 3) (s.imm16.getLsbD 0))
    else none
  | 0x45 => some (.lanel s.guard s.w64 s.d s.csrcA)
  | 0x46 => some (.laner s.guard s.w64 s.d s.csrcA)
  | 0x47 => some (.xlget s.guard s.w64 s.d s.csrcA s.csrcB)
  | 0x48 => some (.xlput s.guard s.w64 s.d s.csrcA s.csrcB)
  | 0x49 =>
    if s.fn &&& 0x78#8 = 0x00#8 then some (.xlred s.guard s.w64 s.d s.csrcA (XOp.ofCode (s.fn.extractLsb' 0 3)))
    else if s.fn &&& 0x78#8 = 0x08#8 then some (.xlredKey s.guard s.w64 s.d s.csrcA s.csrcB (XOp.ofCode (s.fn.extractLsb' 0 3)))
    else none
  | 0x4A => some (.xlscan s.guard s.w64 s.d s.csrcA (XOp.ofCode (s.fn.extractLsb' 0 3)) (s.fn.getLsbD 3))
  | 0x4B =>
    if s.fn &&& 0x7F#8 = 0x00#8 then some (.xlvoteAny s.guard (s.lowD 3) (s.lowA 3))
    else if s.fn &&& 0x7F#8 = 0x01#8 then some (.xlvoteAll s.guard (s.lowD 3) (s.lowA 3))
    else if s.fn &&& 0x7F#8 = 0x02#8 then some (.xlvoteBallot s.guard s.w64 s.d (s.lowA 3))
    else if s.fn &&& 0x7F#8 = 0x03#8 then some (.xlvoteCount s.guard s.d (s.lowA 3))
    else none
  | 0x4C =>
    if s.fn &&& 0x7F#8 = 0x00#8 then some (.xlbcast s.guard s.w64 s.d s.csrcA s.imm16)
    else if s.fn &&& 0x7F#8 = 0x01#8 then some (.xlbcastLow s.guard s.w64 s.d s.csrcA)
    else none
  | _ => none

/-- Reads a slot of OP 0x50 to 0x5F (04 R75). -/
def parseControl (s : Slot) : Option Instr :=
  match s.op.toNat with
  | 0x50 => some (.bra s.guard s.tslot s.imm32)
  | 0x51 =>
    if s.fn &&& 0xFF#8 = 0x00#8 then some (.brpAny s.guard (s.lowA 3) s.tslot s.imm32)
    else if s.fn &&& 0xFF#8 = 0x01#8 then some (.brpAll s.guard (s.lowA 3) s.tslot s.imm32)
    else if s.fn &&& 0xFF#8 = 0x02#8 then some (.brpNone s.guard (s.lowA 3) s.tslot s.imm32)
    else none
  | 0x52 => some (.jmp s.guard s.csrcA)
  | 0x53 => some (.call s.guard s.tslot s.imm32)
  | 0x54 => some (.callr s.guard s.csrcA)
  | 0x55 => some (.ret s.guard)
  | 0x56 => some (.jtab s.guard s.csrcA s.csrcB s.imm32)
  | 0x57 =>
    if s.fn &&& 0xFF#8 = 0x00#8 then some (.joinImm s.guard s.imm32)
    else if s.fn &&& 0xFF#8 = 0x01#8 then some (.joinReg s.guard s.w64 s.csrcA)
    else none
  | 0x58 => some (.exit s.guard)
  | 0x59 => some (.yield s.guard)
  | 0x5A => some (.waitf s.guard s.w64 s.a s.b s.c)
  | 0x5B => some (.brk s.guard s.imm16)
  | 0x5C => some (.trap s.guard s.imm16)
  | _ => none

/-- Reads a slot of OP 0x60 to 0x7F (07 R142, 08 R173, 13 R285). -/
def parseScratch (s : Slot) : Option Instr :=
  match s.op.toNat with
  | 0x60 => some (.ld s.guard s.d s.srcA (Size.ofCode (s.fn.extractLsb' 0 2)) (s.fn.getLsbD 2) (scopeOfBits (s.fn.extractLsb' 3 5)) s.imm32 (LdSpace.ofCode s.space))
  | 0x61 => some (.st s.guard s.srcA s.csrcB (Size.ofCode (s.fn.extractLsb' 0 2)) (scopeOfBits (s.fn.extractLsb' 3 5)) s.imm32 (LdSpace.ofCode s.space))
  | 0x62 => some (.satom s.guard s.w64 s.d s.srcA s.csrcB (AtomOp.ofCode (s.fn.extractLsb' 0 4)) s.imm32)
  | 0x63 => some (.tset s.guard (s.lowD 6) s.csrcA s.csrcB (s.fn.extractLsb' 0 2) (s.fn.extractLsb' 2 2) (s.imm16.extractLsb' 0 6) (s.imm16.extractLsb' 6 6) (s.imm16.extractLsb' 12 4))
  | 0x64 =>
    if s.fn &&& 0xFF#8 = 0x00#8 then some (.tgetE s.guard s.w64 s.d (s.imm16.extractLsb' 0 6))
    else if s.fn &&& 0xFF#8 = 0x01#8 then some (.tget s.guard s.w64 s.d s.srcA (TileName.ofBits s.imm16))
    else none
  | 0x65 => some (.tready s.guard (s.lowD 6))
  | 0x66 => some (.trel s.guard (s.lowD 6))
  | 0x67 =>
    if s.fn &&& 0xFF#8 = 0x00#8 then some (.bbinit s.guard s.srcA s.srcB s.csrcC s.imm16)
    else if s.fn &&& 0xFF#8 = 0x01#8 then some (.bbinitImm s.guard s.csrcA s.imm16 (s.mb ++ s.b) s.ma)
    else none
  | 0x68 => some (.bbarr s.guard s.srcA s.imm32)
  | 0x69 => some (.bbwait s.guard s.srcA s.imm32)
  | 0x6A => some (.tbar s.guard)
  | 0x6B => some (.lbar s.guard)
  | 0x70 => some (.cld s.guard s.d s.srcA (Size.ofCode (s.fn.extractLsb' 0 2)) (s.fn.getLsbD 2) (scopeOfBits (s.fn.extractLsb' 3 5)) s.imm32)
  | 0x71 => some (.cst s.guard s.srcA s.csrcB (Size.ofCode (s.fn.extractLsb' 0 2)) (scopeOfBits (s.fn.extractLsb' 3 5)) s.imm32)
  | 0x72 => some (.catom s.guard s.w64 s.d s.srcA s.csrcB (AtomOp.ofCode (s.fn.extractLsb' 0 4)) (AtomOrd.ofBits (s.fn.extractLsb' 4 4)) s.imm32)
  | 0x73 => some (.cred s.guard s.w64 s.srcA s.csrcB (AtomOp.ofCode (s.fn.extractLsb' 0 4)) s.imm32)
  | 0x74 => some (.caxpy s.guard s.d s.srcA s.csrcB (AxpyTy.ofCode (s.fn.extractLsb' 0 2)) s.imm32)
  | 0x75 => some (.confl s.guard s.w64 s.d s.srcA (s.lowC 3) (s.imm16.extractLsb' 0 8))
  | 0x76 =>
    if s.fn &&& 0xF8#8 = 0x00#8 then some (.fence s.guard (Scope.ofCode (s.fn.extractLsb' 0 3)))
    else if s.fn &&& 0xF8#8 = 0x08#8 then some (.fenceAcq s.guard (Scope.ofCode (s.fn.extractLsb' 0 3)))
    else if s.fn &&& 0xF8#8 = 0x10#8 then some (.fenceRel s.guard (Scope.ofCode (s.fn.extractLsb' 0 3)))
    else none
  | 0x77 => some (.fenceEng s.guard)
  | _ => none

/-- Reads a slot of OP 0x80 to 0x9F (09 R201, 10 R212). -/
def parseEngine (s : Slot) : Option Instr :=
  match s.op.toNat with
  | 0x80 => some (.kick s.guard (s.lowD 2) s.srcA s.imm32)
  | 0x81 => some (.chwait s.guard s.d (s.imm16.extractLsb' 0 2))
  | 0x82 => some (.chstat s.guard s.d (s.imm16.extractLsb' 0 2))
  | 0x83 =>
    if s.fn &&& 0xFF#8 = 0x00#8 then some (.chstop s.guard (s.imm16.extractLsb' 0 2))
    else if s.fn &&& 0xFF#8 = 0x01#8 then some (.chstopFreeze s.guard (s.imm16.extractLsb' 0 2))
    else if s.fn &&& 0xFF#8 = 0x02#8 then some (.chstopThaw s.guard (s.imm16.extractLsb' 0 2))
    else none
  | 0x84 => some (.wbind s.guard s.srcA s.imm32)
  | 0x85 => some (.wunbind s.guard (s.imm16.extractLsb' 0 3))
  | 0x86 => some (.wstat s.guard s.d (s.imm16.extractLsb' 0 3))
  | 0x90 =>
    if s.fn &&& 0xFF#8 = 0x00#8 then some (.mmaIp s.guard (s.lowD 2) (TileName.ofMat (s.lowA 6) (s.imm16.extractLsb' 0 4)) (TileName.ofMat (s.lowB 6) (s.imm16.extractLsb' 4 4)))
    else if s.fn &&& 0xFF#8 = 0x01#8 then some (.mmaOp s.guard (s.lowD 2) (TileName.ofMat (s.lowA 6) (s.imm16.extractLsb' 0 4)) (TileName.ofMat (s.lowB 6) (s.imm16.extractLsb' 4 4)))
    else if s.fn &&& 0xFF#8 = 0x02#8 then some (.mmaRw s.guard (s.lowD 2) (TileName.ofMat (s.lowA 6) (s.imm16.extractLsb' 0 4)) (TileName.ofMat (s.lowB 6) (s.imm16.extractLsb' 4 4)))
    else if s.fn &&& 0xFF#8 = 0x05#8 then some (.mmaOpSk s.guard (s.lowD 2) (TileName.ofMat (s.lowA 6) (s.imm16.extractLsb' 0 4)) (TileName.ofMat (s.lowB 6) (s.imm16.extractLsb' 4 4)))
    else if s.fn &&& 0xFF#8 = 0x06#8 then some (.mmaRwSp s.guard (s.lowD 2) (TileName.ofMat (s.lowA 6) (s.imm16.extractLsb' 0 4)) (TileName.ofMat (s.lowB 6) (s.imm16.extractLsb' 4 4)))
    else none
  | 0x91 => some (.aczero s.guard (s.lowD 2))
  | 0x92 =>
    if s.fn &&& 0xFF#8 = 0x00#8 then some (.acload s.guard (s.lowD 2) (s.lowA 6))
    else if s.fn &&& 0xFF#8 = 0x01#8 then some (.acloadRawF s.guard (s.lowD 2) s.csrcA)
    else if s.fn &&& 0xFF#8 = 0x02#8 then some (.acloadRawI s.guard (s.lowD 2) s.csrcA)
    else none
  | 0x93 =>
    if s.fn &&& 0xF0#8 = 0x00#8 then some (.acstore s.guard (s.lowD 6) (s.lowA 2) (Rm.ofCode (s.fn.extractLsb' 0 2)) (SatSel.ofCode (s.fn.extractLsb' 2 2)))
    else if s.fn &&& 0xFF#8 = 0x10#8 then some (.acstoreRaw s.guard s.csrcA (s.imm16.extractLsb' 0 2))
    else none
  | 0x94 =>
    if s.fn &&& 0xFF#8 = 0x00#8 then some (.acget s.guard s.d s.srcA s.srcB (s.imm16.extractLsb' 0 2))
    else if s.fn &&& 0xFF#8 = 0x01#8 then some (.acgetRaw s.guard s.d s.srcA s.srcB (s.imm16.extractLsb' 0 2))
    else none
  | 0x95 => some (.delta s.guard (s.lowD 6) (s.lowA 6) (s.lowB 6) s.csrcC)
  | 0x96 => some (.spcomp s.guard (s.lowD 6) (s.lowA 6))
  | 0x97 => some (.txpose s.guard (s.lowD 6) (s.lowA 6))
  | _ => none

/-- Reads a slot of OP 0xA0 to 0xDF (11 R244, 12 R268, 14 R328, 15 R353, 16 R366). -/
def parseSys (s : Slot) : Option Instr :=
  match s.op.toNat with
  | 0xA0 => some (.bagput s.guard s.d s.srcA s.srcB s.imm16)
  | 0xA1 => some (.bagtake s.guard s.d s.srcA s.srcB (s.fn.extractLsb' 0 2) s.imm16)
  | 0xA2 => some (.bagcnt s.guard s.d s.srcA)
  | 0xA3 =>
    if s.fn &&& 0xFF#8 = 0x00#8 then some (.baghistRes s.guard s.d s.srcA s.srcB)
    else if s.fn &&& 0xFF#8 = 0x01#8 then some (.baghistPuts s.guard s.d s.srcA s.srcB)
    else none
  | 0xA4 => some (.bagcut s.guard s.d s.srcA)
  | 0xA5 => some (.bagiter s.guard s.srcA s.srcB s.c)
  | 0xA6 => some (.bagwait s.guard s.d s.srcA)
  | 0xA7 => some (.bagclr s.guard s.srcA)
  | 0xA8 => some (.baginfo s.guard s.d s.srcA (s.imm16.extractLsb' 0 3))
  | 0xB0 => some (.nbrun s.guard s.srcA s.imm32)
  | 0xC0 =>
    if s.fn &&& 0xFF#8 = 0x00#8 then some (.foldq s.guard s.d)
    else if s.fn &&& 0xFF#8 = 0x01#8 then some (.foldqP s.guard (s.lowD 3))
    else none
  | 0xC1 => some (.coll s.guard s.d s.srcA s.imm32)
  | 0xC2 =>
    if s.fn &&& 0xFF#8 = 0x00#8 then some (.collq s.guard s.d s.srcA)
    else if s.fn &&& 0xFF#8 = 0x01#8 then some (.collqWait s.guard s.d s.srcA)
    else none
  | 0xD0 => some (.srd s.guard s.w64 s.d (SReg.ofCode (s.imm16.extractLsb' 0 8)))
  | 0xD1 => some (.swr s.guard s.srcA)
  | 0xD2 => some (.probe s.guard s.d s.srcA)
  | _ => none

/-- Reads a slot by its OP's block (03 R52). -/
def parseSlot (s : Slot) : Option Instr :=
  if s.op.toNat < 0x20 then parseInt s
  else if s.op.toNat < 0x40 then parseFloat s
  else if s.op.toNat < 0x50 then parseLane s
  else if s.op.toNat < 0x60 then parseControl s
  else if s.op.toNat < 0x80 then parseScratch s
  else if s.op.toNat < 0xA0 then parseEngine s
  else parseSys s

/-! ## Encoding -/

/-- The slot that encodes a Chalin instruction; row operations and events have none. -/
def encodeSlot : Instr → Option Slot
  | .nop g => some ⟨false, false, false, false, g.pn, g.pg, 0#8, (0#8), 0x00#8, (bodyV 0#16 0#8 0#12 0#8 0#12 0#8)⟩
  | .bra g tslot disp => some ⟨false, false, false, false, g.pn, g.pg, 0#8, (0#8), 0x50#8, (bodyJ disp tslot 0#8 0#12 0#8)⟩
  | .brpAny g a tslot disp => some ⟨false, false, false, false, g.pn, g.pg, 0#8, (0#8), 0x51#8, (bodyJ disp tslot 0#8 0#12 (a.setWidth 8))⟩
  | .brpAll g a tslot disp => some ⟨false, false, false, false, g.pn, g.pg, 0#8, (1#8), 0x51#8, (bodyJ disp tslot 0#8 0#12 (a.setWidth 8))⟩
  | .brpNone g a tslot disp => some ⟨false, false, false, false, g.pn, g.pg, 0#8, (2#8), 0x51#8, (bodyJ disp tslot 0#8 0#12 (a.setWidth 8))⟩
  | .jmp g a => some ⟨true, false, false, a.fe, g.pn, g.pg, 0#8, (0#8), 0x52#8, (bodyJ 0#32 0#3 0#8 0#12 a.reg)⟩
  | .call g tslot disp => some ⟨false, false, false, false, g.pn, g.pg, 0#8, (0#8), 0x53#8, (bodyJ disp tslot 0#8 0#12 0#8)⟩
  | .callr g a => some ⟨true, false, false, a.fe, g.pn, g.pg, 0#8, (0#8), 0x54#8, (bodyJ 0#32 0#3 0#8 0#12 a.reg)⟩
  | .ret g => some ⟨false, false, false, false, g.pn, g.pg, 0#8, (0#8), 0x55#8, (bodyJ 0#32 0#3 0#8 0#12 0#8)⟩
  | .jtab g a b off => some ⟨false, false, b.fe, a.fe, g.pn, g.pg, 0#8, (0#8), 0x56#8, (bodyM off 0#4 b.reg 0#12 a.reg)⟩
  | .joinImm g imm => some ⟨false, false, false, false, g.pn, g.pg, 0#8, (0#8), 0x57#8, (bodyM imm 0#4 0#8 0#12 0#8)⟩
  | .joinReg g w a => some ⟨w, false, false, a.fe, g.pn, g.pg, 0#8, (1#8), 0x57#8, (bodyM 0#32 0#4 0#8 0#12 a.reg)⟩
  | .exit g => some ⟨false, false, false, false, g.pn, g.pg, 0#8, (0#8), 0x58#8, (bodyV 0#16 0#8 0#12 0#8 0#12 0#8)⟩
  | .yield g => some ⟨false, false, false, false, g.pn, g.pg, 0#8, (0#8), 0x59#8, (bodyV 0#16 0#8 0#12 0#8 0#12 0#8)⟩
  | .waitf g w a b c => some ⟨w, false, false, false, g.pn, g.pg, 0#8, (0#8), 0x5A#8, (bodyV 0#16 c 0#12 b 0#12 a)⟩
  | .brk g imm => some ⟨false, false, false, false, g.pn, g.pg, 0#8, (0#8), 0x5B#8, (bodyV (imm) 0#8 0#12 0#8 0#12 0#8)⟩
  | .trap g imm => some ⟨false, false, false, false, g.pn, g.pg, 0#8, (0#8), 0x5C#8, (bodyV (imm) 0#8 0#12 0#8 0#12 0#8)⟩
  | .add g w d a b => some ⟨w, false, b.fe, a.fe, g.pn, g.pg, d, (fnLane b.isImm 0#3 (0#4)), 0x01#8, (bodyV b.fieldImm 0#8 b.fieldMB b.fieldB a.mod.bits a.reg)⟩
  | .addi g w d a imm => some ⟨w, false, false, a.fe, g.pn, g.pg, d, (fnLane false 0#3 (0#4)), 0x02#8, (bodyM imm 0#4 0#8 a.mod.bits a.reg)⟩
  | .sub g w d a b => some ⟨w, false, b.fe, a.fe, g.pn, g.pg, d, (fnLane b.isImm 0#3 (0#4)), 0x03#8, (bodyV b.fieldImm 0#8 b.fieldMB b.fieldB a.mod.bits a.reg)⟩
  | .mul g w d a b => some ⟨w, false, b.fe, a.fe, g.pn, g.pg, d, (fnLane b.isImm 0#3 (0#4)), 0x04#8, (bodyV b.fieldImm 0#8 b.fieldMB b.fieldB a.mod.bits a.reg)⟩
  | .mulhi g w d a b => some ⟨w, false, b.fe, a.fe, g.pn, g.pg, d, (fnLane b.isImm 0#3 (0#4)), 0x05#8, (bodyV b.fieldImm 0#8 b.fieldMB b.fieldB a.mod.bits a.reg)⟩
  | .mulhs g w d a b => some ⟨w, false, b.fe, a.fe, g.pn, g.pg, d, (fnLane b.isImm 1#3 (0#4)), 0x05#8, (bodyV b.fieldImm 0#8 b.fieldMB b.fieldB a.mod.bits a.reg)⟩
  | .mad g w d a b c => some ⟨w, c.fe, b.fe, a.fe, g.pn, g.pg, d, (fnLane b.isImm 0#3 (0#4)), 0x06#8, (bodyV b.fieldImm c.reg b.fieldMB b.fieldB a.mod.bits a.reg)⟩
  | .div g d a b => some ⟨false, false, b.fe, a.fe, g.pn, g.pg, d, (fnLane b.isImm 0#3 (0#4)), 0x07#8, (bodyV b.fieldImm 0#8 b.fieldMB b.fieldB a.mod.bits a.reg)⟩
  | .divs g d a b => some ⟨false, false, b.fe, a.fe, g.pn, g.pg, d, (fnLane b.isImm 1#3 (0#4)), 0x07#8, (bodyV b.fieldImm 0#8 b.fieldMB b.fieldB a.mod.bits a.reg)⟩
  | .rem g d a b => some ⟨false, false, b.fe, a.fe, g.pn, g.pg, d, (fnLane b.isImm 0#3 (0#4)), 0x08#8, (bodyV b.fieldImm 0#8 b.fieldMB b.fieldB a.mod.bits a.reg)⟩
  | .rems g d a b => some ⟨false, false, b.fe, a.fe, g.pn, g.pg, d, (fnLane b.isImm 1#3 (0#4)), 0x08#8, (bodyV b.fieldImm 0#8 b.fieldMB b.fieldB a.mod.bits a.reg)⟩
  | .min g w d a b => some ⟨w, false, b.fe, a.fe, g.pn, g.pg, d, (fnLane b.isImm 0#3 (0#4)), 0x09#8, (bodyV b.fieldImm 0#8 b.fieldMB b.fieldB a.mod.bits a.reg)⟩
  | .max g w d a b => some ⟨w, false, b.fe, a.fe, g.pn, g.pg, d, (fnLane b.isImm 1#3 (0#4)), 0x09#8, (bodyV b.fieldImm 0#8 b.fieldMB b.fieldB a.mod.bits a.reg)⟩
  | .mins g w d a b => some ⟨w, false, b.fe, a.fe, g.pn, g.pg, d, (fnLane b.isImm 2#3 (0#4)), 0x09#8, (bodyV b.fieldImm 0#8 b.fieldMB b.fieldB a.mod.bits a.reg)⟩
  | .maxs g w d a b => some ⟨w, false, b.fe, a.fe, g.pn, g.pg, d, (fnLane b.isImm 3#3 (0#4)), 0x09#8, (bodyV b.fieldImm 0#8 b.fieldMB b.fieldB a.mod.bits a.reg)⟩
  | .abs g w d a => some ⟨w, false, false, a.fe, g.pn, g.pg, d, (fnLane false 0#3 (0#4)), 0x0A#8, (bodyV 0#16 0#8 0#12 0#8 a.mod.bits a.reg)⟩
  | .neg g w d a => some ⟨w, false, false, a.fe, g.pn, g.pg, d, (fnLane false 1#3 (0#4)), 0x0A#8, (bodyV 0#16 0#8 0#12 0#8 a.mod.bits a.reg)⟩
  | .and g w d a b => some ⟨w, false, b.fe, a.fe, g.pn, g.pg, d, (fnLane b.isImm 0#3 (0#4)), 0x0B#8, (bodyV b.fieldImm 0#8 b.fieldMB b.fieldB a.mod.bits a.reg)⟩
  | .or g w d a b => some ⟨w, false, b.fe, a.fe, g.pn, g.pg, d, (fnLane b.isImm 1#3 (0#4)), 0x0B#8, (bodyV b.fieldImm 0#8 b.fieldMB b.fieldB a.mod.bits a.reg)⟩
  | .xor g w d a b => some ⟨w, false, b.fe, a.fe, g.pn, g.pg, d, (fnLane b.isImm 2#3 (0#4)), 0x0B#8, (bodyV b.fieldImm 0#8 b.fieldMB b.fieldB a.mod.bits a.reg)⟩
  | .andn g w d a b => some ⟨w, false, b.fe, a.fe, g.pn, g.pg, d, (fnLane b.isImm 3#3 (0#4)), 0x0B#8, (bodyV b.fieldImm 0#8 b.fieldMB b.fieldB a.mod.bits a.reg)⟩
  | .not g w d a => some ⟨w, false, false, a.fe, g.pn, g.pg, d, (fnLane false 4#3 (0#4)), 0x0B#8, (bodyV 0#16 0#8 0#12 0#8 a.mod.bits a.reg)⟩
  | .shl g w d a b => some ⟨w, false, b.fe, a.fe, g.pn, g.pg, d, (fnLane b.isImm 0#3 (0#4)), 0x0C#8, (bodyV b.fieldImm 0#8 b.fieldMB b.fieldB a.mod.bits a.reg)⟩
  | .shr g w d a b => some ⟨w, false, b.fe, a.fe, g.pn, g.pg, d, (fnLane b.isImm 1#3 (0#4)), 0x0C#8, (bodyV b.fieldImm 0#8 b.fieldMB b.fieldB a.mod.bits a.reg)⟩
  | .sar g w d a b => some ⟨w, false, b.fe, a.fe, g.pn, g.pg, d, (fnLane b.isImm 2#3 (0#4)), 0x0C#8, (bodyV b.fieldImm 0#8 b.fieldMB b.fieldB a.mod.bits a.reg)⟩
  | .rot g w d a b => some ⟨w, false, b.fe, a.fe, g.pn, g.pg, d, (fnLane b.isImm 3#3 (0#4)), 0x0C#8, (bodyV b.fieldImm 0#8 b.fieldMB b.fieldB a.mod.bits a.reg)⟩
  | .clz g w d a => some ⟨w, false, false, a.fe, g.pn, g.pg, d, (fnLane false 0#3 (0#4)), 0x0D#8, (bodyV 0#16 0#8 0#12 0#8 a.mod.bits a.reg)⟩
  | .popc g w d a => some ⟨w, false, false, a.fe, g.pn, g.pg, d, (fnLane false 1#3 (0#4)), 0x0D#8, (bodyV 0#16 0#8 0#12 0#8 a.mod.bits a.reg)⟩
  | .brev g w d a => some ⟨w, false, false, a.fe, g.pn, g.pg, d, (fnLane false 2#3 (0#4)), 0x0D#8, (bodyV 0#16 0#8 0#12 0#8 a.mod.bits a.reg)⟩
  | .bfx g w d a b => some ⟨w, false, b.fe, a.fe, g.pn, g.pg, d, (fnLane b.isImm 0#3 (0#4)), 0x0E#8, (bodyV b.fieldImm 0#8 b.fieldMB b.fieldB a.mod.bits a.reg)⟩
  | .bfxs g w d a b => some ⟨w, false, b.fe, a.fe, g.pn, g.pg, d, (fnLane b.isImm 1#3 (0#4)), 0x0E#8, (bodyV b.fieldImm 0#8 b.fieldMB b.fieldB a.mod.bits a.reg)⟩
  | .bfi g w d a b c => some ⟨w, c.fe, b.fe, a.fe, g.pn, g.pg, d, (fnLane b.isImm 0#3 (0#4)), 0x0F#8, (bodyV b.fieldImm c.reg b.fieldMB b.fieldB a.mod.bits a.reg)⟩
  | .sel g w d a b c => some ⟨w, false, b.fe, a.fe, g.pn, g.pg, d, (fnLane b.isImm 0#3 (0#4)), 0x10#8, (bodyV b.fieldImm (c.setWidth 8) b.fieldMB b.fieldB a.mod.bits a.reg)⟩
  | .mov g w d a => some ⟨w, false, false, a.fe, g.pn, g.pg, d, (fnLane false 0#3 (0#4)), 0x11#8, (bodyV 0#16 0#8 0#12 0#8 a.mod.bits a.reg)⟩
  | .movK g w d a => some ⟨w, false, false, false, g.pn, g.pg, d, (fnLane false 0#3 (1#4)), 0x11#8, (bodyV 0#16 0#8 0#12 0#8 0#12 (a.setWidth 8))⟩
  | .movi g w d imm => some ⟨w, false, false, false, g.pn, g.pg, d, (fnLane false 0#3 (0#4)), 0x12#8, imm⟩
  | .lea g w d a b sh => some ⟨w, false, b.fe, a.fe, g.pn, g.pg, d, (fnLane b.isImm 0#3 ((0#1 ++ sh))), 0x13#8, (bodyV b.fieldImm 0#8 b.fieldMB b.fieldB a.mod.bits a.reg)⟩
  | .icmp g w d a b cc => some ⟨w, false, b.fe, a.fe, g.pn, g.pg, (d.setWidth 8), (fnLane b.isImm 0#3 (cc.code)), 0x14#8, (bodyV b.fieldImm 0#8 b.fieldMB b.fieldB a.mod.bits a.reg)⟩
  | .pand g d a b => some ⟨false, false, false, false, g.pn, g.pg, (d.setWidth 8), (fnLane false 0#3 (0#4)), 0x40#8, (bodyV 0#16 0#8 0#12 (b.setWidth 8) 0#12 (a.setWidth 8))⟩
  | .por g d a b => some ⟨false, false, false, false, g.pn, g.pg, (d.setWidth 8), (fnLane false 0#3 (0#4)), 0x41#8, (bodyV 0#16 0#8 0#12 (b.setWidth 8) 0#12 (a.setWidth 8))⟩
  | .pxor g d a b => some ⟨false, false, false, false, g.pn, g.pg, (d.setWidth 8), (fnLane false 0#3 (0#4)), 0x42#8, (bodyV 0#16 0#8 0#12 (b.setWidth 8) 0#12 (a.setWidth 8))⟩
  | .pnot g d a => some ⟨false, false, false, false, g.pn, g.pg, (d.setWidth 8), (fnLane false 0#3 (0#4)), 0x43#8, (bodyV 0#16 0#8 0#12 0#8 0#12 (a.setWidth 8))⟩
  | .pmov g d a => some ⟨false, false, false, false, g.pn, g.pg, (d.setWidth 8), (fnLane false 0#3 (0#4)), 0x44#8, (bodyV 0#16 0#8 0#12 0#8 0#12 (a.setWidth 8))⟩
  | .pmovImm g d imm => some ⟨false, false, false, false, g.pn, g.pg, (d.setWidth 8), (fnLane false 0#3 (1#4)), 0x44#8, (bodyV ((0#15 ++ bit imm)) 0#8 0#12 0#8 0#12 0#8)⟩
  | .fadd g d a b rm => some ⟨false, false, b.fe, a.fe, g.pn, g.pg, d, (fnLane b.isImm 0#3 ((0#2 ++ rm.code))), 0x20#8, (bodyV b.fieldImm 0#8 b.fieldMB b.fieldB a.mod.bits a.reg)⟩
  | .fsub g d a b rm => some ⟨false, false, b.fe, a.fe, g.pn, g.pg, d, (fnLane b.isImm 0#3 ((0#2 ++ rm.code))), 0x21#8, (bodyV b.fieldImm 0#8 b.fieldMB b.fieldB a.mod.bits a.reg)⟩
  | .fmul g d a b rm => some ⟨false, false, b.fe, a.fe, g.pn, g.pg, d, (fnLane b.isImm 0#3 ((0#2 ++ rm.code))), 0x22#8, (bodyV b.fieldImm 0#8 b.fieldMB b.fieldB a.mod.bits a.reg)⟩
  | .ffma g d a b c rm => some ⟨false, c.fe, b.fe, a.fe, g.pn, g.pg, d, (fnLane b.isImm 0#3 ((0#2 ++ rm.code))), 0x23#8, (bodyV b.fieldImm c.reg b.fieldMB b.fieldB a.mod.bits a.reg)⟩
  | .fmin g d a b => some ⟨false, false, b.fe, a.fe, g.pn, g.pg, d, (fnLane b.isImm 0#3 (0#4)), 0x24#8, (bodyV b.fieldImm 0#8 b.fieldMB b.fieldB a.mod.bits a.reg)⟩
  | .fmax g d a b => some ⟨false, false, b.fe, a.fe, g.pn, g.pg, d, (fnLane b.isImm 1#3 (0#4)), 0x24#8, (bodyV b.fieldImm 0#8 b.fieldMB b.fieldB a.mod.bits a.reg)⟩
  | .fabs g d a => some ⟨false, false, false, a.fe, g.pn, g.pg, d, (fnLane false 0#3 (0#4)), 0x25#8, (bodyV 0#16 0#8 0#12 0#8 a.mod.bits a.reg)⟩
  | .fneg g d a => some ⟨false, false, false, a.fe, g.pn, g.pg, d, (fnLane false 1#3 (0#4)), 0x25#8, (bodyV 0#16 0#8 0#12 0#8 a.mod.bits a.reg)⟩
  | .fcmp g d a b cc => some ⟨false, false, b.fe, a.fe, g.pn, g.pg, (d.setWidth 8), (fnLane b.isImm 0#3 ((0#1 ++ cc.code))), 0x26#8, (bodyV b.fieldImm 0#8 b.fieldMB b.fieldB a.mod.bits a.reg)⟩
  | .fdiv g d a b rm => some ⟨false, false, b.fe, a.fe, g.pn, g.pg, d, (fnLane b.isImm 0#3 ((0#2 ++ rm.code))), 0x27#8, (bodyV b.fieldImm 0#8 b.fieldMB b.fieldB a.mod.bits a.reg)⟩
  | .frcp g d a rm => some ⟨false, false, false, a.fe, g.pn, g.pg, d, (fnLane false 0#3 ((0#2 ++ rm.code))), 0x28#8, (bodyV 0#16 0#8 0#12 0#8 a.mod.bits a.reg)⟩
  | .frsq g d a => some ⟨false, false, false, a.fe, g.pn, g.pg, d, (fnLane false 1#3 (0#4)), 0x28#8, (bodyV 0#16 0#8 0#12 0#8 a.mod.bits a.reg)⟩
  | .fsqrt g d a rm => some ⟨false, false, false, a.fe, g.pn, g.pg, d, (fnLane false 2#3 ((0#2 ++ rm.code))), 0x28#8, (bodyV 0#16 0#8 0#12 0#8 a.mod.bits a.reg)⟩
  | .fexp2 g d a => some ⟨false, false, false, a.fe, g.pn, g.pg, d, (fnLane false 0#3 (0#4)), 0x29#8, (bodyV 0#16 0#8 0#12 0#8 a.mod.bits a.reg)⟩
  | .flog2 g d a => some ⟨false, false, false, a.fe, g.pn, g.pg, d, (fnLane false 1#3 (0#4)), 0x29#8, (bodyV 0#16 0#8 0#12 0#8 a.mod.bits a.reg)⟩
  | .fsin g d a => some ⟨false, false, false, a.fe, g.pn, g.pg, d, (fnLane false 0#3 (0#4)), 0x2A#8, (bodyV 0#16 0#8 0#12 0#8 a.mod.bits a.reg)⟩
  | .fcos g d a => some ⟨false, false, false, a.fe, g.pn, g.pg, d, (fnLane false 1#3 (0#4)), 0x2A#8, (bodyV 0#16 0#8 0#12 0#8 a.mod.bits a.reg)⟩
  | .ftanh g d a => some ⟨false, false, false, a.fe, g.pn, g.pg, d, (fnLane false 2#3 (0#4)), 0x2A#8, (bodyV 0#16 0#8 0#12 0#8 a.mod.bits a.reg)⟩
  | .frnd g d a rm => some ⟨false, false, false, a.fe, g.pn, g.pg, d, (fnLane false 0#3 ((0#2 ++ rm.code))), 0x2B#8, (bodyV 0#16 0#8 0#12 0#8 a.mod.bits a.reg)⟩
  | .fclass g d a => some ⟨false, false, false, a.fe, g.pn, g.pg, d, (fnLane false 0#3 (0#4)), 0x2C#8, (bodyV 0#16 0#8 0#12 0#8 a.mod.bits a.reg)⟩
  | .f2i g d a rm u => some ⟨false, false, false, a.fe, g.pn, g.pg, d, (fnLane false 0#3 ((0#1 ++ (bit u ++ rm.code)))), 0x2D#8, (bodyV 0#16 0#8 0#12 0#8 a.mod.bits a.reg)⟩
  | .i2f g d a rm u => some ⟨false, false, false, a.fe, g.pn, g.pg, d, (fnLane false 0#3 ((0#1 ++ (bit u ++ rm.code)))), 0x2E#8, (bodyV 0#16 0#8 0#12 0#8 a.mod.bits a.reg)⟩
  | .hadd2 g d a b rm bf => some ⟨false, false, b.fe, a.fe, g.pn, g.pg, d, (fnLane false 0#3 ((0#1 ++ (bit bf ++ rm.code)))), 0x2F#8, (bodyV 0#16 0#8 b.mod.bits b.reg a.mod.bits a.reg)⟩
  | .hmul2 g d a b rm bf => some ⟨false, false, b.fe, a.fe, g.pn, g.pg, d, (fnLane false 1#3 ((0#1 ++ (bit bf ++ rm.code)))), 0x2F#8, (bodyV 0#16 0#8 b.mod.bits b.reg a.mod.bits a.reg)⟩
  | .hfma2 g d a b c rm bf => some ⟨false, c.fe, b.fe, a.fe, g.pn, g.pg, d, (fnLane false 2#3 ((0#1 ++ (bit bf ++ rm.code)))), 0x2F#8, (bodyV 0#16 c.reg b.mod.bits b.reg a.mod.bits a.reg)⟩
  | .fdot4 g d a b c rm f => some ⟨false, c.fe, b.fe, a.fe, g.pn, g.pg, d, (fnLane false 0#3 ((0#2 ++ rm.code))), 0x30#8, (bodyV ((0#12 ++ f)) c.reg b.mod.bits b.reg a.mod.bits a.reg)⟩
  | .cvtN g d a b c rm satm f slot => some ⟨false, c.fe, b.fe, a.fe, g.pn, g.pg, d, (fnLane false 0#3 ((satm.code ++ rm.code))), 0x31#8, (bodyV ((0#9 ++ (slot ++ f))) c.reg b.mod.bits b.reg a.mod.bits a.reg)⟩
  | .cvtW g d a b rm f slot => some ⟨false, false, b.fe, a.fe, g.pn, g.pg, d, (fnLane false 0#3 ((0#2 ++ rm.code))), 0x32#8, (bodyV ((0#9 ++ (slot ++ f))) 0#8 b.mod.bits b.reg a.mod.bits a.reg)⟩
  | .cvtB g d a b rm bf => some ⟨false, false, b.fe, a.fe, g.pn, g.pg, d, (fnLane false 0#3 ((0#1 ++ (bit bf ++ rm.code)))), 0x33#8, (bodyV 0#16 0#8 b.mod.bits b.reg a.mod.bits a.reg)⟩
  | .cvtBW g d a bf half => some ⟨false, false, false, a.fe, g.pn, g.pg, d, (fnLane false 0#3 ((1#1 ++ (bit bf ++ 0#2)))), 0x33#8, (bodyV ((0#15 ++ bit half)) 0#8 0#12 0#8 a.mod.bits a.reg)⟩
  | .fmtset g d a => some ⟨false, false, false, a.fe, g.pn, g.pg, (d.setWidth 8), (fnLane false 0#3 (0#4)), 0x34#8, (bodyV 0#16 0#8 0#12 0#8 a.mod.bits a.reg)⟩
  | .fmtsetImm g d imm => some ⟨false, false, false, false, g.pn, g.pg, (d.setWidth 8), (fnLane false 0#3 (1#4)), 0x34#8, (bodyM imm 0#4 0#8 0#12 0#8)⟩
  | .fmtget g d a => some ⟨false, false, false, false, g.pn, g.pg, d, (fnLane false 1#3 (0#4)), 0x34#8, (bodyV 0#16 0#8 0#12 0#8 0#12 (a.setWidth 8))⟩
  | .lanel g w d a => some ⟨w, false, false, a.fe, g.pn, g.pg, d, (fnLane false 0#3 (0#4)), 0x45#8, (bodyV 0#16 0#8 0#12 0#8 0#12 a.reg)⟩
  | .laner g w d a => some ⟨w, false, false, a.fe, g.pn, g.pg, d, (fnLane false 0#3 (0#4)), 0x46#8, (bodyV 0#16 0#8 0#12 0#8 0#12 a.reg)⟩
  | .xlget g w d a b => some ⟨w, false, b.fe, a.fe, g.pn, g.pg, d, (fnLane false 0#3 (0#4)), 0x47#8, (bodyV 0#16 0#8 0#12 b.reg 0#12 a.reg)⟩
  | .xlput g w d a b => some ⟨w, false, b.fe, a.fe, g.pn, g.pg, d, (fnLane false 0#3 (0#4)), 0x48#8, (bodyV 0#16 0#8 0#12 b.reg 0#12 a.reg)⟩
  | .xlred g w d a op => some ⟨w, false, false, a.fe, g.pn, g.pg, d, (fnLane false 0#3 ((0#1 ++ op.code))), 0x49#8, (bodyV 0#16 0#8 0#12 0#8 0#12 a.reg)⟩
  | .xlredKey g w d a b op => some ⟨w, false, b.fe, a.fe, g.pn, g.pg, d, (fnLane false 0#3 ((1#1 ++ op.code))), 0x49#8, (bodyV 0#16 0#8 0#12 b.reg 0#12 a.reg)⟩
  | .xlscan g w d a op ex => some ⟨w, false, false, a.fe, g.pn, g.pg, d, (fnLane false 0#3 ((bit ex ++ op.code))), 0x4A#8, (bodyV 0#16 0#8 0#12 0#8 0#12 a.reg)⟩
  | .xlvoteAny g d a => some ⟨false, false, false, false, g.pn, g.pg, (d.setWidth 8), (fnLane false 0#3 (0#4)), 0x4B#8, (bodyV 0#16 0#8 0#12 0#8 0#12 (a.setWidth 8))⟩
  | .xlvoteAll g d a => some ⟨false, false, false, false, g.pn, g.pg, (d.setWidth 8), (fnLane false 0#3 (1#4)), 0x4B#8, (bodyV 0#16 0#8 0#12 0#8 0#12 (a.setWidth 8))⟩
  | .xlvoteBallot g w d a => some ⟨w, false, false, false, g.pn, g.pg, d, (fnLane false 0#3 (2#4)), 0x4B#8, (bodyV 0#16 0#8 0#12 0#8 0#12 (a.setWidth 8))⟩
  | .xlvoteCount g d a => some ⟨false, false, false, false, g.pn, g.pg, d, (fnLane false 0#3 (3#4)), 0x4B#8, (bodyV 0#16 0#8 0#12 0#8 0#12 (a.setWidth 8))⟩
  | .xlbcast g w d a lane => some ⟨w, false, false, a.fe, g.pn, g.pg, d, (fnLane false 0#3 (0#4)), 0x4C#8, (bodyV (lane) 0#8 0#12 0#8 0#12 a.reg)⟩
  | .xlbcastLow g w d a => some ⟨w, false, false, a.fe, g.pn, g.pg, d, (fnLane false 0#3 (1#4)), 0x4C#8, (bodyV 0#16 0#8 0#12 0#8 0#12 a.reg)⟩
  | .ld g d a sz sgn acq off space => some ⟨(sz == Size.d), false, false, a.fe, g.pn, g.pg, d, (acqBits acq ++ (bit sgn ++ sz.code)), 0x60#8, (bodyM off space.code 0#8 a.mod.bits a.reg)⟩
  | .st g a b sz rel off space => some ⟨(sz == Size.d), false, b.fe, a.fe, g.pn, g.pg, 0#8, (relBits rel ++ (bit false ++ sz.code)), 0x61#8, (bodyM off space.code b.reg a.mod.bits a.reg)⟩
  | .satom g w d a b op off => some ⟨w, false, b.fe, a.fe, g.pn, g.pg, d, ((0#4 ++ op.code)), 0x62#8, (bodyM off 0#4 b.reg a.mod.bits a.reg)⟩
  | .tset g d a b lay el rows cols f => some ⟨false, false, b.fe, a.fe, g.pn, g.pg, (d.setWidth 8), ((0#4 ++ (el ++ lay))), 0x63#8, (bodyV ((f ++ (cols ++ rows))) 0#8 0#12 b.reg 0#12 a.reg)⟩
  | .tgetE g w d t => some ⟨w, false, false, false, g.pn, g.pg, d, (0#8), 0x64#8, (bodyV (0#10 ++ t) 0#8 0#12 0#8 0#12 0#8)⟩
  | .tget g w d a t => some ⟨w, false, false, a.fe, g.pn, g.pg, d, (1#8), 0x64#8, (bodyV t.bits 0#8 0#12 0#8 a.mod.bits a.reg)⟩
  | .tready g d => some ⟨false, false, false, false, g.pn, g.pg, (d.setWidth 8), (0#8), 0x65#8, (bodyV 0#16 0#8 0#12 0#8 0#12 0#8)⟩
  | .trel g d => some ⟨false, false, false, false, g.pn, g.pg, (d.setWidth 8), (0#8), 0x66#8, (bodyV 0#16 0#8 0#12 0#8 0#12 0#8)⟩
  | .bbinit g a b c off => some ⟨false, c.fe, b.fe, a.fe, g.pn, g.pg, 0#8, (0#8), 0x67#8, (bodyV (off) c.reg b.mod.bits b.reg a.mod.bits a.reg)⟩
  | .bbinitImm g a off bytes arrivals => some ⟨false, false, false, a.fe, g.pn, g.pg, 0#8, (1#8), 0x67#8, (bodyV off 0#8 (bytes.extractLsb' 8 12) (bytes.extractLsb' 0 8) arrivals a.reg)⟩
  | .bbarr g a off => some ⟨false, false, false, a.fe, g.pn, g.pg, 0#8, (0#8), 0x68#8, (bodyM off 0#4 0#8 a.mod.bits a.reg)⟩
  | .bbwait g a off => some ⟨false, false, false, a.fe, g.pn, g.pg, 0#8, (0#8), 0x69#8, (bodyM off 0#4 0#8 a.mod.bits a.reg)⟩
  | .tbar g => some ⟨false, false, false, false, g.pn, g.pg, 0#8, (0#8), 0x6A#8, (bodyV 0#16 0#8 0#12 0#8 0#12 0#8)⟩
  | .lbar g => some ⟨false, false, false, false, g.pn, g.pg, 0#8, (0#8), 0x6B#8, (bodyV 0#16 0#8 0#12 0#8 0#12 0#8)⟩
  | .cld g d a sz sgn acq off => some ⟨(sz == Size.d), false, false, a.fe, g.pn, g.pg, d, (acqBits acq ++ (bit sgn ++ sz.code)), 0x70#8, (bodyM off 1#4 0#8 a.mod.bits a.reg)⟩
  | .cst g a b sz rel off => some ⟨(sz == Size.d), false, b.fe, a.fe, g.pn, g.pg, 0#8, (relBits rel ++ (bit false ++ sz.code)), 0x71#8, (bodyM off 1#4 b.reg a.mod.bits a.reg)⟩
  | .catom g w d a b op ord off => some ⟨w, false, b.fe, a.fe, g.pn, g.pg, d, (ord.bits ++ op.code), 0x72#8, (bodyM off 1#4 b.reg a.mod.bits a.reg)⟩
  | .cred g w a b op off => some ⟨w, false, b.fe, a.fe, g.pn, g.pg, 0#8, ((0#4 ++ op.code)), 0x73#8, (bodyM off 1#4 b.reg a.mod.bits a.reg)⟩
  | .caxpy g d a b ty off => some ⟨false, false, b.fe, a.fe, g.pn, g.pg, d, ((0#6 ++ ty.code)), 0x74#8, (bodyM off 1#4 b.reg a.mod.bits a.reg)⟩
  | .confl g w d a c e => some ⟨w, false, false, a.fe, g.pn, g.pg, d, (0#8), 0x75#8, (bodyV (0#8 ++ e) (c.setWidth 8) 0#12 0#8 a.mod.bits a.reg)⟩
  | .fence g sc => some ⟨false, false, false, false, g.pn, g.pg, 0#8, ((0#3 ++ (0#2 ++ sc.code))), 0x76#8, (bodyV 0#16 0#8 0#12 0#8 0#12 0#8)⟩
  | .fenceAcq g sc => some ⟨false, false, false, false, g.pn, g.pg, 0#8, ((0#3 ++ (1#2 ++ sc.code))), 0x76#8, (bodyV 0#16 0#8 0#12 0#8 0#12 0#8)⟩
  | .fenceRel g sc => some ⟨false, false, false, false, g.pn, g.pg, 0#8, ((0#3 ++ (2#2 ++ sc.code))), 0x76#8, (bodyV 0#16 0#8 0#12 0#8 0#12 0#8)⟩
  | .fenceEng g => some ⟨false, false, false, false, g.pn, g.pg, 0#8, (0#8), 0x77#8, (bodyV 0#16 0#8 0#12 0#8 0#12 0#8)⟩
  | .kick g d a off => some ⟨false, false, false, a.fe, g.pn, g.pg, (d.setWidth 8), (0#8), 0x80#8, (bodyM off 0#4 0#8 a.mod.bits a.reg)⟩
  | .chwait g d ch => some ⟨false, false, false, false, g.pn, g.pg, d, (0#8), 0x81#8, (bodyV ((0#14 ++ ch)) 0#8 0#12 0#8 0#12 0#8)⟩
  | .chstat g d ch => some ⟨false, false, false, false, g.pn, g.pg, d, (0#8), 0x82#8, (bodyV ((0#14 ++ ch)) 0#8 0#12 0#8 0#12 0#8)⟩
  | .chstop g ch => some ⟨false, false, false, false, g.pn, g.pg, 0#8, (0#8), 0x83#8, (bodyV ((0#14 ++ ch)) 0#8 0#12 0#8 0#12 0#8)⟩
  | .chstopFreeze g ch => some ⟨false, false, false, false, g.pn, g.pg, 0#8, (1#8), 0x83#8, (bodyV ((0#14 ++ ch)) 0#8 0#12 0#8 0#12 0#8)⟩
  | .chstopThaw g ch => some ⟨false, false, false, false, g.pn, g.pg, 0#8, (2#8), 0x83#8, (bodyV ((0#14 ++ ch)) 0#8 0#12 0#8 0#12 0#8)⟩
  | .wbind g a off => some ⟨false, false, false, a.fe, g.pn, g.pg, 0#8, (0#8), 0x84#8, (bodyM off 0#4 0#8 a.mod.bits a.reg)⟩
  | .wunbind g n => some ⟨false, false, false, false, g.pn, g.pg, 0#8, (0#8), 0x85#8, (bodyV ((0#13 ++ n)) 0#8 0#12 0#8 0#12 0#8)⟩
  | .wstat g d n => some ⟨false, false, false, false, g.pn, g.pg, d, (0#8), 0x86#8, (bodyV ((0#13 ++ n)) 0#8 0#12 0#8 0#12 0#8)⟩
  | .mmaIp g d a b => some ⟨false, false, false, false, g.pn, g.pg, (d.setWidth 8), (0#8), 0x90#8, (bodyV (0#8 ++ (b.matBits ++ a.matBits)) 0#8 0#12 (b.num.setWidth 8) 0#12 (a.num.setWidth 8))⟩
  | .mmaOp g d a b => some ⟨false, false, false, false, g.pn, g.pg, (d.setWidth 8), (1#8), 0x90#8, (bodyV (0#8 ++ (b.matBits ++ a.matBits)) 0#8 0#12 (b.num.setWidth 8) 0#12 (a.num.setWidth 8))⟩
  | .mmaRw g d a b => some ⟨false, false, false, false, g.pn, g.pg, (d.setWidth 8), (2#8), 0x90#8, (bodyV (0#8 ++ (b.matBits ++ a.matBits)) 0#8 0#12 (b.num.setWidth 8) 0#12 (a.num.setWidth 8))⟩
  | .mmaOpSk g d a b => some ⟨false, false, false, false, g.pn, g.pg, (d.setWidth 8), (5#8), 0x90#8, (bodyV (0#8 ++ (b.matBits ++ a.matBits)) 0#8 0#12 (b.num.setWidth 8) 0#12 (a.num.setWidth 8))⟩
  | .mmaRwSp g d a b => some ⟨false, false, false, false, g.pn, g.pg, (d.setWidth 8), (6#8), 0x90#8, (bodyV (0#8 ++ (b.matBits ++ a.matBits)) 0#8 0#12 (b.num.setWidth 8) 0#12 (a.num.setWidth 8))⟩
  | .aczero g d => some ⟨false, false, false, false, g.pn, g.pg, (d.setWidth 8), (0#8), 0x91#8, (bodyV 0#16 0#8 0#12 0#8 0#12 0#8)⟩
  | .acload g d a => some ⟨false, false, false, false, g.pn, g.pg, (d.setWidth 8), (0#8), 0x92#8, (bodyV 0#16 0#8 0#12 0#8 0#12 (a.setWidth 8))⟩
  | .acloadRawF g d a => some ⟨false, false, false, a.fe, g.pn, g.pg, (d.setWidth 8), (1#8), 0x92#8, (bodyV 0#16 0#8 0#12 0#8 0#12 a.reg)⟩
  | .acloadRawI g d a => some ⟨false, false, false, a.fe, g.pn, g.pg, (d.setWidth 8), (2#8), 0x92#8, (bodyV 0#16 0#8 0#12 0#8 0#12 a.reg)⟩
  | .acstore g d a rm satm => some ⟨false, false, false, false, g.pn, g.pg, (d.setWidth 8), ((0#4 ++ (satm.code ++ rm.code))), 0x93#8, (bodyV 0#16 0#8 0#12 0#8 0#12 (a.setWidth 8))⟩
  | .acstoreRaw g a n => some ⟨false, false, false, a.fe, g.pn, g.pg, 0#8, (16#8), 0x93#8, (bodyV ((0#14 ++ n)) 0#8 0#12 0#8 0#12 a.reg)⟩
  | .acget g d a b n => some ⟨false, false, b.fe, a.fe, g.pn, g.pg, d, (0#8), 0x94#8, (bodyV ((0#14 ++ n)) 0#8 b.mod.bits b.reg a.mod.bits a.reg)⟩
  | .acgetRaw g d a b n => some ⟨true, false, b.fe, a.fe, g.pn, g.pg, d, (1#8), 0x94#8, (bodyV ((0#14 ++ n)) 0#8 b.mod.bits b.reg a.mod.bits a.reg)⟩
  | .delta g d a b c => some ⟨false, c.fe, false, false, g.pn, g.pg, (d.setWidth 8), (0#8), 0x95#8, (bodyV 0#16 c.reg 0#12 (b.setWidth 8) 0#12 (a.setWidth 8))⟩
  | .spcomp g d a => some ⟨false, false, false, false, g.pn, g.pg, (d.setWidth 8), (0#8), 0x96#8, (bodyV 0#16 0#8 0#12 0#8 0#12 (a.setWidth 8))⟩
  | .txpose g d a => some ⟨false, false, false, false, g.pn, g.pg, (d.setWidth 8), (0#8), 0x97#8, (bodyV 0#16 0#8 0#12 0#8 0#12 (a.setWidth 8))⟩
  | .bagput g d a b off => some ⟨false, false, b.fe, a.fe, g.pn, g.pg, d, (0#8), 0xA0#8, (bodyV (off) 0#8 b.mod.bits b.reg a.mod.bits a.reg)⟩
  | .bagtake g d a b ch off => some ⟨false, false, b.fe, a.fe, g.pn, g.pg, d, ((0#6 ++ ch)), 0xA1#8, (bodyV (off) 0#8 b.mod.bits b.reg a.mod.bits a.reg)⟩
  | .bagcnt g d a => some ⟨false, false, false, a.fe, g.pn, g.pg, d, (0#8), 0xA2#8, (bodyV 0#16 0#8 0#12 0#8 a.mod.bits a.reg)⟩
  | .baghistRes g d a b => some ⟨false, false, b.fe, a.fe, g.pn, g.pg, d, (0#8), 0xA3#8, (bodyV 0#16 0#8 b.mod.bits b.reg a.mod.bits a.reg)⟩
  | .baghistPuts g d a b => some ⟨true, false, b.fe, a.fe, g.pn, g.pg, d, (1#8), 0xA3#8, (bodyV 0#16 0#8 b.mod.bits b.reg a.mod.bits a.reg)⟩
  | .bagcut g d a => some ⟨true, false, false, a.fe, g.pn, g.pg, d, (0#8), 0xA4#8, (bodyV 0#16 0#8 0#12 0#8 a.mod.bits a.reg)⟩
  | .bagiter g a b c => some ⟨true, false, b.fe, a.fe, g.pn, g.pg, 0#8, (0#8), 0xA5#8, (bodyV 0#16 c b.mod.bits b.reg a.mod.bits a.reg)⟩
  | .bagwait g d a => some ⟨false, false, false, a.fe, g.pn, g.pg, d, (0#8), 0xA6#8, (bodyV 0#16 0#8 0#12 0#8 a.mod.bits a.reg)⟩
  | .bagclr g a => some ⟨false, false, false, a.fe, g.pn, g.pg, 0#8, (0#8), 0xA7#8, (bodyV 0#16 0#8 0#12 0#8 a.mod.bits a.reg)⟩
  | .baginfo g d a sel => some ⟨false, false, false, a.fe, g.pn, g.pg, d, (0#8), 0xA8#8, (bodyV ((0#13 ++ sel)) 0#8 0#12 0#8 a.mod.bits a.reg)⟩
  | .nbrun g a off => some ⟨false, false, false, a.fe, g.pn, g.pg, 0#8, (0#8), 0xB0#8, (bodyM off 0#4 0#8 a.mod.bits a.reg)⟩
  | .foldq g d => some ⟨false, false, false, false, g.pn, g.pg, d, (0#8), 0xC0#8, (bodyV 0#16 0#8 0#12 0#8 0#12 0#8)⟩
  | .foldqP g d => some ⟨false, false, false, false, g.pn, g.pg, (d.setWidth 8), (1#8), 0xC0#8, (bodyV 0#16 0#8 0#12 0#8 0#12 0#8)⟩
  | .coll g d a off => some ⟨false, false, false, a.fe, g.pn, g.pg, d, (0#8), 0xC1#8, (bodyM off 0#4 0#8 a.mod.bits a.reg)⟩
  | .collq g d a => some ⟨false, false, false, a.fe, g.pn, g.pg, d, (0#8), 0xC2#8, (bodyV 0#16 0#8 0#12 0#8 a.mod.bits a.reg)⟩
  | .collqWait g d a => some ⟨false, false, false, a.fe, g.pn, g.pg, d, (1#8), 0xC2#8, (bodyV 0#16 0#8 0#12 0#8 a.mod.bits a.reg)⟩
  | .srd g w d sr => some ⟨w, false, false, false, g.pn, g.pg, d, (0#8), 0xD0#8, (bodyV ((0#8 ++ sr.code)) 0#8 0#12 0#8 0#12 0#8)⟩
  | .swr g a => some ⟨false, false, false, a.fe, g.pn, g.pg, 0#8, (0#8), 0xD1#8, (bodyV (11#16) 0#8 0#12 0#8 a.mod.bits a.reg)⟩
  | .probe g d a => some ⟨true, false, false, a.fe, g.pn, g.pg, d, (0#8), 0xD2#8, (bodyV 0#16 0#8 0#12 0#8 a.mod.bits a.reg)⟩
  | _ => none

/-- The word of a row operation (12 R261): OP [31:26], D [25:23], A [22:20], B [19:17], F [16:0]. -/
def encodeRow : Instr → Option Word
  | .nload d k => some ((1#32 <<< 26) ||| ((d.setWidth 32) <<< 23) ||| (k.setWidth 32))
  | .nstore a k => some ((2#32 <<< 26) ||| ((a.setWidth 32) <<< 20) ||| (k.setWidth 32))
  | .nset d k => some ((3#32 <<< 26) ||| ((d.setWidth 32) <<< 23) ||| (k.setWidth 32))
  | .nsetImm d imm => some ((3#32 <<< 26) ||| 0x10000#32 ||| ((d.setWidth 32) <<< 23) ||| (imm.setWidth 32))
  | .nadd d a b t => some ((4#32 <<< 26) ||| ((d.setWidth 32) <<< 23) ||| ((a.setWidth 32) <<< 20) ||| ((b.setWidth 32) <<< 17) ||| ((t.code.setWidth 32) <<< 15))
  | .nsub d a b t => some ((5#32 <<< 26) ||| ((d.setWidth 32) <<< 23) ||| ((a.setWidth 32) <<< 20) ||| ((b.setWidth 32) <<< 17) ||| ((t.code.setWidth 32) <<< 15))
  | .nmul d a b t => some ((6#32 <<< 26) ||| ((d.setWidth 32) <<< 23) ||| ((a.setWidth 32) <<< 20) ||| ((b.setWidth 32) <<< 17) ||| ((t.code.setWidth 32) <<< 15))
  | .nfma d a b t => some ((7#32 <<< 26) ||| ((d.setWidth 32) <<< 23) ||| ((a.setWidth 32) <<< 20) ||| ((b.setWidth 32) <<< 17) ||| ((t.code.setWidth 32) <<< 15))
  | .nmax d a b t => some ((8#32 <<< 26) ||| ((d.setWidth 32) <<< 23) ||| ((a.setWidth 32) <<< 20) ||| ((b.setWidth 32) <<< 17) ||| ((t.code.setWidth 32) <<< 15))
  | .nmin d a b t => some ((9#32 <<< 26) ||| ((d.setWidth 32) <<< 23) ||| ((a.setWidth 32) <<< 20) ||| ((b.setWidth 32) <<< 17) ||| ((t.code.setWidth 32) <<< 15))
  | .nsum d a t => some ((10#32 <<< 26) ||| ((d.setWidth 32) <<< 23) ||| ((a.setWidth 32) <<< 20) ||| ((t.code.setWidth 32) <<< 15))
  | .ncmp d a b t cc => some ((11#32 <<< 26) ||| ((d.setWidth 32) <<< 23) ||| ((a.setWidth 32) <<< 20) ||| ((b.setWidth 32) <<< 17) ||| ((t.code.setWidth 32) <<< 15) ||| (cc.code.setWidth 32))
  | .nsel d a b => some ((12#32 <<< 26) ||| ((d.setWidth 32) <<< 23) ||| ((a.setWidth 32) <<< 20) ||| ((b.setWidth 32) <<< 17))
  | .ncvt d a kind rm => some ((13#32 <<< 26) ||| ((d.setWidth 32) <<< 23) ||| ((a.setWidth 32) <<< 20) ||| (kind.code.setWidth 32) ||| ((rm.code.setWidth 32) <<< 3))
  | .nkey a lo hi inv => some ((14#32 <<< 26) ||| ((a.setWidth 32) <<< 20) ||| (lo.setWidth 32) ||| ((hi.setWidth 32) <<< 3) ||| (((bit inv).setWidth 32) <<< 6))
  | .nemit a k => some ((15#32 <<< 26) ||| ((a.setWidth 32) <<< 20) ||| (k.setWidth 32))
  | .nnext target => some ((16#32 <<< 26) ||| (target.setWidth 32))
  | .nloop k target => some ((17#32 <<< 26) ||| ((k.setWidth 32) <<< 20) ||| (target.setWidth 32))
  | .njmp m0 target => some ((18#32 <<< 26) ||| (((bit m0).setWidth 32) <<< 8) ||| (target.setWidth 32))
  | .nhalt => some ((19#32 <<< 26))
  | .nsync => some ((20#32 <<< 26))
  | _ => none

/-- Reads a row operation's fields (12 R261). -/
def parseRow (w : Word) : Option Instr :=
  match (w.extractLsb' 26 6).toNat with
  | 1 => some (.nload (w.extractLsb' 23 3) (w.extractLsb' 0 2))
  | 2 => some (.nstore (w.extractLsb' 20 3) (w.extractLsb' 0 2))
  | 3 => if w.getLsbD 16 then some (.nsetImm (w.extractLsb' 23 3) (w.extractLsb' 0 16)) else some (.nset (w.extractLsb' 23 3) (w.extractLsb' 0 3))
  | 4 => some (.nadd (w.extractLsb' 23 3) (w.extractLsb' 20 3) (w.extractLsb' 17 3) (ElemT.ofCode (w.extractLsb' 15 2)))
  | 5 => some (.nsub (w.extractLsb' 23 3) (w.extractLsb' 20 3) (w.extractLsb' 17 3) (ElemT.ofCode (w.extractLsb' 15 2)))
  | 6 => some (.nmul (w.extractLsb' 23 3) (w.extractLsb' 20 3) (w.extractLsb' 17 3) (ElemT.ofCode (w.extractLsb' 15 2)))
  | 7 => some (.nfma (w.extractLsb' 23 3) (w.extractLsb' 20 3) (w.extractLsb' 17 3) (ElemT.ofCode (w.extractLsb' 15 2)))
  | 8 => some (.nmax (w.extractLsb' 23 3) (w.extractLsb' 20 3) (w.extractLsb' 17 3) (ElemT.ofCode (w.extractLsb' 15 2)))
  | 9 => some (.nmin (w.extractLsb' 23 3) (w.extractLsb' 20 3) (w.extractLsb' 17 3) (ElemT.ofCode (w.extractLsb' 15 2)))
  | 10 => some (.nsum (w.extractLsb' 23 3) (w.extractLsb' 20 3) (ElemT.ofCode (w.extractLsb' 15 2)))
  | 11 => some (.ncmp (w.extractLsb' 23 3) (w.extractLsb' 20 3) (w.extractLsb' 17 3) (ElemT.ofCode (w.extractLsb' 15 2)) (NCond.ofCode (w.extractLsb' 0 3)))
  | 12 => some (.nsel (w.extractLsb' 23 3) (w.extractLsb' 20 3) (w.extractLsb' 17 3))
  | 13 => some (.ncvt (w.extractLsb' 23 3) (w.extractLsb' 20 3) (NCvt.ofCode (w.extractLsb' 0 3)) (Rm.ofCode (w.extractLsb' 3 2)))
  | 14 => some (.nkey (w.extractLsb' 20 3) (w.extractLsb' 0 3) (w.extractLsb' 3 3) (w.getLsbD 6))
  | 15 => some (.nemit (w.extractLsb' 20 3) (w.extractLsb' 0 3))
  | 16 => some (.nnext (w.extractLsb' 0 8))
  | 17 => some (.nloop (w.extractLsb' 20 2) (w.extractLsb' 0 8))
  | 18 => some (.njmp (w.getLsbD 8) (w.extractLsb' 0 8))
  | 19 => some (.nhalt)
  | 20 => some (.nsync)
  | _ => none

/-! ## Decoding -/

/-- The words an instruction encodes to: how many bits, and their value. -/
def encode (i : Instr) : Option (Nat × Nat) :=
  match encodeSlot i with
  | some s => some (96, s.toWord.toNat)
  | none => (encodeRow i).map fun w => (32, w.toNat)

/-- Decodes a 96-bit slot (03 R53), naming why it is no instruction. -/
def decodeSlot (w : BitVec 96) : Except DecodeError Instr :=
  match parseSlot (Slot.ofWord w) with
  | none => .error .unassigned
  | some i =>
    if encodeSlot i = some (Slot.ofWord w) then
      if i.wf then .ok i
      else match i with
        | .fmtsetImm _ _ v => .error (.fmtValue v)
        | _ => .error .form
    else .error .form

/-- Decodes a 32-bit row operation (12 R261, R264). -/
def decodeRow (w : Word) : Except DecodeError Instr :=
  match parseRow w with
  | none => .error .unassigned
  | some i => if encodeRow i = some w && i.wf then .ok i else .error .form

/-- The bytes of a number, low byte first, as the hardware stores them (00 R3). -/
def bytesOfNat : Nat → Nat → List Byte
  | 0, _ => []
  | n + 1, v => BitVec.ofNat 8 v :: bytesOfNat n (v / 256)

/-- The number that bytes stand for, low byte first (00 R3). -/
def natOfBytes : List Byte → Nat
  | [] => 0
  | b :: bs => b.toNat + 256 * natOfBytes bs

/-- Decodes the bytes of an instruction: 12 bytes are a slot and 4 bytes a row operation (03 R27, 12 R257). -/
def decodeBytes (bs : List Byte) : Except DecodeError Instr :=
  if bs.length = 12 then decodeSlot (BitVec.ofNat 96 (natOfBytes bs))
  else if bs.length = 4 then decodeRow (BitVec.ofNat 32 (natOfBytes bs))
  else .error .unassigned

/-- The instruction the decoder reads from nbits bits of value w: up to 32 bits a row operation, up to 96 a slot. -/
def decodeTableWord (nbits w : Nat) : Option Instr :=
  let n := if nbits ≤ 32 then 4 else 12
  match decodeBytes (bytesOfNat n (w % 2 ^ nbits)) with
  | .ok i => some i
  | .error _ => none

end Sys2Proof
end

