-- ==== Sys2Proof/Machine/Float.lean ====
section
/-! DEFINITION. Numbers: exact values, the IEEE formats and F36 with their rounding (05 R99 to R106, 06 R124 to R132),
the narrow formats, block scales and OCP codes, and the functions of 05 R103. -/

namespace Sys2Proof.Machine

/-- An exact value: NaN, an infinity, or (-1)^neg · m · 2^e. -/
inductive Num where
  | nan
  | inf (neg : Bool)
  | fin (neg : Bool) (m : Nat) (e : Int)
deriving DecidableEq, Repr

/-- A binary floating-point format: exponent bits and mantissa bits (06 R128). -/
structure FpFmt where
  eb : Nat
  mb : Nat
deriving DecidableEq, Repr

def fp32 : FpFmt := ⟨8, 23⟩
def fp16 : FpFmt := ⟨5, 10⟩
def bf16 : FpFmt := ⟨8, 7⟩
def f36 : FpFmt := ⟨9, 26⟩

/-- The exponent bias. -/
def FpFmt.bias (f : FpFmt) : Nat := 2 ^ (f.eb - 1) - 1
/-- The code of +Inf; every code above it in magnitude is a NaN. -/
def FpFmt.infCode (f : FpFmt) : Nat := (2 ^ f.eb - 1) * 2 ^ f.mb
/-- The sign bit's weight. -/
def FpFmt.signBit (f : FpFmt) : Nat := 2 ^ (f.eb + f.mb)
/-- The canonical NaN (06 R128). -/
def FpFmt.nanCode (f : FpFmt) : Nat := f.infCode + 2 ^ (f.mb - 1)

/-- The value of a code. -/
def unpack (f : FpFmt) (c : Nat) : Num :=
  let neg := c / f.signBit % 2 = 1
  let ex := c / 2 ^ f.mb % 2 ^ f.eb
  let fr := c % 2 ^ f.mb
  if ex = 2 ^ f.eb - 1 then (if fr = 0 then .inf neg else .nan)
  else if ex = 0 then .fin neg fr (1 - (f.bias : Int) - f.mb)
  else .fin neg (2 ^ f.mb + fr) ((ex : Int) - f.bias - f.mb)

/-- Whether a magnitude that lies between M and M + 1 is rounded up: r compares its fraction with a half. -/
def roundsUp (rm : Rm) (neg : Bool) (m : Nat) (inexact : Bool) (r : Ordering) : Bool :=
  match rm with
  | .rn => r = .gt || (r = .eq && m % 2 = 1)
  | .rz => false
  | .ru => inexact && !neg
  | .rd => inexact && neg

/-- m · 2^e, and a little more if sticky, to a whole number of quanta 2^q. -/
def toQuantum (rm : Rm) (neg : Bool) (m : Nat) (e q : Int) (sticky : Bool) : Nat :=
  if q ≤ e then
    let k := m * 2 ^ (e - q).toNat
    if roundsUp rm neg k sticky .lt then k + 1 else k
  else
    let s := (q - e).toNat
    let k := m / 2 ^ s
    let r := m % 2 ^ s
    let c := if r = 2 ^ (s - 1) then (if sticky then Ordering.gt else .eq) else compare r (2 ^ (s - 1))
    if roundsUp rm neg k (r ≠ 0 || sticky) c then k + 1 else k

/-- Rounds a finite magnitude to a format (06 R128); sticky: the magnitude is a little more than m · 2^e. -/
def roundFin (f : FpFmt) (rm : Rm) (neg : Bool) (m : Nat) (e : Int) (sticky : Bool) : Nat :=
  let sg := if neg then f.signBit else 0
  if m = 0 then sg
  else
    let top : Int := e + Nat.log2 m
    let q := max (top - f.mb) (1 - (f.bias : Int) - f.mb)
    let k := toQuantum rm neg m e q sticky
    let code := ((q + f.mb + f.bias - 1).toNat) * 2 ^ f.mb + k
    if code < f.infCode then sg + code
    else
      let toInf := match rm with
        | .rn => true
        | .rz => false
        | .ru => !neg
        | .rd => neg
      sg + (if toInf then f.infCode else f.infCode - 1)

/-- Rounds a value to a format: round_fp32, round_fp16, round_bf16 and round_f36 (06 R128). -/
def roundTo (f : FpFmt) (rm : Rm) : Num → Nat
  | .nan => f.nanCode
  | .inf neg => (if neg then f.signBit else 0) + f.infCode
  | .fin neg m e => roundFin f rm neg m e false

/-! ## Exact arithmetic -/

def Num.isNan : Num → Bool
  | .nan => true
  | _ => false

def Num.neg : Num → Num
  | .nan => .nan
  | .inf n => .inf !n
  | .fin n m e => .fin (!n) m e

/-- The sum; an exact zero from terms of opposite sign is +0, but −0 when rounding down (05 R99). -/
def Num.add (rm : Rm) (x y : Num) : Num :=
  match x, y with
  | .nan, _ => .nan
  | _, .nan => .nan
  | .inf a, .inf b => if a = b then .inf a else .nan
  | .inf a, .fin _ _ _ => .inf a
  | .fin _ _ _, .inf b => .inf b
  | .fin na ma ea, .fin nb mb eb =>
    let e := min ea eb
    let a : Int := (ma * 2 ^ (ea - e).toNat : Nat)
    let b : Int := (mb * 2 ^ (eb - e).toNat : Nat)
    let s := (if na then -a else a) + (if nb then -b else b)
    if s = 0 then
      .fin (if ma = 0 && mb = 0 && na = nb then na else rm = .rd) 0 0
    else .fin (s < 0) s.natAbs e

/-- The product. -/
def Num.mul (x y : Num) : Num :=
  match x, y with
  | .nan, _ => .nan
  | _, .nan => .nan
  | .inf a, .inf b => .inf (a != b)
  | .inf a, .fin b m _ => if m = 0 then .nan else .inf (a != b)
  | .fin a m _, .inf b => if m = 0 then .nan else .inf (a != b)
  | .fin a ma ea, .fin b mb eb => .fin (a != b) (ma * mb) (ea + eb)

/-- x · 2^k. -/
def Num.scale (x : Num) (k : Int) : Num :=
  match x with
  | .fin n m e => .fin n m (e + k)
  | y => y

/-- The order of two values that are not NaN; −0 equals +0. -/
def Num.cmp (x y : Num) : Ordering :=
  match x, y with
  | .inf a, .inf b => if a = b then .eq else if a then .lt else .gt
  | .inf a, _ => if a then .lt else .gt
  | _, .inf b => if b then .gt else .lt
  | .fin na ma ea, .fin nb mb eb =>
    let e := min ea eb
    let a : Int := (ma * 2 ^ (ea - e).toNat : Nat)
    let b : Int := (mb * 2 ^ (eb - e).toNat : Nat)
    compare (if na then -a else a) (if nb then -b else b)
  | _, _ => .eq

/-- Rounds to a whole number in a mode. -/
def Num.toInt (rm : Rm) (neg : Bool) (m : Nat) (e : Int) : Int :=
  let k : Int := toQuantum rm neg m e 0 false
  if neg then -k else k

/-! ## Division and roots: an integer quotient or root with a sticky bit -/

/-- x / y rounded (05 R101). -/
def divRound (f : FpFmt) (rm : Rm) (x y : Num) : Nat :=
  match x, y with
  | .nan, _ => f.nanCode
  | _, .nan => f.nanCode
  | .inf _, .inf _ => f.nanCode
  | .inf a, .fin b _ _ => roundTo f rm (.inf (a != b))
  | .fin a _ _, .inf b => roundTo f rm (.fin (a != b) 0 0)
  | .fin a ma ea, .fin b mb eb =>
    if mb = 0 then (if ma = 0 then f.nanCode else roundTo f rm (.inf (a != b)))
    else if ma = 0 then roundTo f rm (.fin (a != b) 0 0)
    else
      let s := Nat.log2 mb + f.mb + 8
      roundFin f rm (a != b) (ma * 2 ^ s / mb) (ea - eb - s) (ma * 2 ^ s % mb ≠ 0)

/-- The integer square root, from the bit of weight 2^n down. -/
def isqrt (v : Nat) : Nat → Nat → Nat
  | 0, r => if (r + 1) * (r + 1) ≤ v then r + 1 else r
  | n + 1, r => isqrt v n (if (r + 2 ^ (n + 1)) * (r + 2 ^ (n + 1)) ≤ v then r + 2 ^ (n + 1) else r)

/-- √x rounded (05 R103). -/
def sqrtRound (f : FpFmt) (rm : Rm) (x : Num) : Nat :=
  match x with
  | .nan => f.nanCode
  | .inf neg => if neg then f.nanCode else f.infCode
  | .fin neg m e =>
    if m = 0 then roundTo f rm x
    else if neg then f.nanCode
    else
      let s := 2 * (f.mb + 8) + (if e % 2 = 0 then 0 else 1)
      let v := m * 2 ^ s
      let r := isqrt v (Nat.log2 v / 2 + 1) 0
      roundFin f rm false r ((e - s) / 2) (r * r ≠ v)

/-- 1/√x rounded (05 R103). -/
def rsqrtRound (f : FpFmt) (rm : Rm) (x : Num) : Nat :=
  match x with
  | .nan => f.nanCode
  | .inf neg => if neg then f.nanCode else 0
  | .fin neg m e =>
    if m = 0 then roundTo f rm (.inf neg)
    else if neg then f.nanCode
    else
      let m' := if e % 2 = 0 then m else 2 * m
      let e' := if e % 2 = 0 then e else e - 1
      let k := Nat.log2 m' + f.mb + 8
      let n := 2 ^ (2 * k)
      let r := isqrt (n / m') (k + 1) 0
      roundFin f rm false r (-(k : Int) - e' / 2) (r * r * m' ≠ n)

/-! ## The functions of 05 R103, in fixed point with 512 fraction bits (notes/assumptions/11.md) -/

/-- π with 512 fraction bits. -/
def piFix : Nat := 0x3243f6a8885a308d313198a2e03707344a4093822299f31d0082efa98ec4e6c89452821e638d01377be5466cf34e90c6cc0ac29b7c97c50dd3f84d5b5b5470917
/-- ln 2 with 512 fraction bits. -/
def ln2Fix : Nat := 0xb17217f7d1cf79abc9e3b39803f2f6af40f343267298b62d8a0d175b8baafa2be7b876206debac98559552fb4afa1b10ed2eae35c138214427573b291169b825
/-- 1 with 512 fraction bits. -/
def oneFix : Nat := 2 ^ 512

/-- m · 2^e with 512 fraction bits, for e at least −512. -/
def toFix (m : Nat) (e : Int) : Nat := m * 2 ^ (512 + e).toNat

/-- The terms t, t·z/d(n), … added up: each is the one before times z over the next divisor. -/
def seriesSum (z : Nat) (d : Nat → Nat) : Nat → Nat → Nat → Nat → Nat
  | 0, _, _, acc => acc
  | fuel + 1, n, t, acc => seriesSum z d fuel (n + 1) (t * z / (oneFix * d n)) (acc + t)

/-- The same with alternating signs. -/
def seriesAlt (z : Nat) (d : Nat → Nat) : Nat → Nat → Bool → Nat → Int → Int
  | 0, _, _, _, acc => acc
  | fuel + 1, n, neg, t, acc =>
    seriesAlt z d fuel (n + 1) (!neg) (t * z / (oneFix * d n)) (acc + (if neg then -(t : Int) else t))

/-- e^t for 0 ≤ t < 1. -/
def expFix (t : Nat) : Nat := seriesSum t (fun n => n + 1) 100 0 oneFix 0

/-- sin r for 0 ≤ r < 2. -/
def sinFix (r : Nat) : Nat := (seriesAlt (r * r / oneFix) (fun n => (2 * n + 2) * (2 * n + 3)) 60 0 false r 0).toNat

/-- cos r for 0 ≤ r < 2. -/
def cosFix (r : Nat) : Nat := (seriesAlt (r * r / oneFix) (fun n => (2 * n + 1) * (2 * n + 2)) 60 0 false oneFix 0).toNat

/-- z + z³/3 + z⁵/5 + …: each step adds the power over its odd number. -/
def atanhSum (z2 : Nat) : Nat → Nat → Nat → Nat → Nat
  | 0, _, _, acc => acc
  | fuel + 1, n, p, acc => atanhSum z2 fuel (n + 2) (p * z2 / oneFix) (acc + p / n)

/-- 2^x rounded to nearest. -/
def exp2Round (x : Num) : Nat :=
  match x with
  | .nan => fp32.nanCode
  | .inf neg => if neg then 0 else fp32.infCode
  | .fin neg m e =>
    if m = 0 then 0x3F800000
    else if 8 ≤ e + Nat.log2 m then (if neg then 0 else fp32.infCode)
    else
      let v := toFix m e
      let n : Int := if neg then -((v + oneFix - 1) / oneFix : Nat) else (v / oneFix : Nat)
      let fr := if neg then (oneFix - v % oneFix) % oneFix else v % oneFix
      if fr = 0 then roundFin fp32 .rn false 1 n false
      else roundFin fp32 .rn false (expFix (fr * ln2Fix / oneFix)) (n - 512) true

/-- log₂ x rounded to nearest. -/
def log2Round (x : Num) : Nat :=
  match x with
  | .nan => fp32.nanCode
  | .inf neg => if neg then fp32.nanCode else fp32.infCode
  | .fin neg m e =>
    if m = 0 then fp32.signBit + fp32.infCode
    else if neg then fp32.nanCode
    else
      let l := Nat.log2 m
      let v := toFix m (-(l : Int))
      let big := v * 10 > oneFix * 14
      let k : Int := e + l + (if big then 1 else 0)
      let num : Int := if big then (v : Int) - 2 * oneFix else (v : Int) - oneFix
      let den : Nat := if big then v + 2 * oneFix else v + oneFix
      if num = 0 then roundFin fp32 .rn (k < 0) k.natAbs 0 false
      else
        let z := num.natAbs * oneFix / den
        let ln := 2 * atanhSum (z * z / oneFix) 120 1 z 0
        let fr : Int := (ln * oneFix / ln2Fix : Nat)
        let r : Int := k * oneFix + (if num < 0 then -fr else fr)
        roundFin fp32 .rn (r < 0) r.natAbs (-512) true

/-- sin x or cos x rounded to nearest: exact reduction by π/2, then the function of the remainder. -/
def sinCosRound (cos : Bool) (x : Num) : Nat :=
  match x with
  | .nan => fp32.nanCode
  | .inf _ => fp32.nanCode
  | .fin neg m e =>
    if m = 0 then (if cos then 0x3F800000 else roundTo fp32 .rn x)
    else
      let v := 2 * toFix m e
      let q := v / piFix
      let r := (v - q * piFix) / 2
      let quad := (if cos then q + 1 else q) % 4
      let val := if quad % 2 = 0 then sinFix r else cosFix r
      roundFin fp32 .rn (((!cos && neg) != (2 ≤ quad)) : Bool) val (-512) true

/-- tanh x rounded to nearest. -/
def tanhRound (x : Num) : Nat :=
  match x with
  | .nan => fp32.nanCode
  | .inf neg => (if neg then fp32.signBit else 0) + 0x3F800000
  | .fin neg m e =>
    if m = 0 then roundTo fp32 .rn x
    else if 4 ≤ e + Nat.log2 m then (if neg then fp32.signBit else 0) + 0x3F800000
    else
      let v := 2 * toFix m e
      let n := v / ln2Fix
      let ex := expFix (v - n * ln2Fix) * 2 ^ n
      roundFin fp32 .rn neg ((ex - oneFix) * oneFix / (ex + oneFix)) (-512) true

/-! ## Lane operations on FP32, FP16 and BF16 (05 R101, R102) -/

def fpAdd (f : FpFmt) (rm : Rm) (x y : Nat) : Nat := roundTo f rm ((unpack f x).add rm (unpack f y))
def fpSub (f : FpFmt) (rm : Rm) (x y : Nat) : Nat := roundTo f rm ((unpack f x).add rm (unpack f y).neg)
def fpMul (f : FpFmt) (rm : Rm) (x y : Nat) : Nat := roundTo f rm ((unpack f x).mul (unpack f y))
def fpFma (f : FpFmt) (rm : Rm) (x y z : Nat) : Nat := roundTo f rm (((unpack f x).mul (unpack f y)).add rm (unpack f z))

/-- Whether x comes before y, with −0 below +0. -/
def fpBelow (f : FpFmt) (x y : Nat) : Bool :=
  match (unpack f x).cmp (unpack f y) with
  | .lt => true
  | .gt => false
  | .eq => x / f.signBit % 2 = 1 && y / f.signBit % 2 = 0

/-- FMIN (05 R102). -/
def fpMin (f : FpFmt) (x y : Nat) : Nat :=
  if (unpack f x).isNan then (if (unpack f y).isNan then f.nanCode else y)
  else if (unpack f y).isNan then x else if fpBelow f y x then y else x

/-- FMAX (05 R102). -/
def fpMax (f : FpFmt) (x y : Nat) : Nat :=
  if (unpack f x).isNan then (if (unpack f y).isNan then f.nanCode else y)
  else if (unpack f y).isNan then x else if fpBelow f x y then y else x

/-- FCLASS (05 R102). -/
def fpClass (x : Nat) : Nat :=
  let neg := x / 2 ^ 31 % 2 = 1
  let ex := x / 2 ^ 23 % 256
  let fr := x % 2 ^ 23
  if ex = 255 then
    if fr = 0 then (if neg then 1 else 2 ^ 7) else if fr < 2 ^ 22 then 2 ^ 8 else 2 ^ 9
  else if ex = 0 then
    if fr = 0 then (if neg then 2 ^ 3 else 2 ^ 4) else (if neg then 2 ^ 2 else 2 ^ 5)
  else if neg then 2 ^ 1 else 2 ^ 6

/-- F2I (05 R104): saturating; NaN gives 0. -/
def fpToInt (rm : Rm) (u : Bool) (x : Nat) : BitVec 32 :=
  let lo : Int := if u then 0 else -(2 ^ 31)
  let hi : Int := if u then 2 ^ 32 - 1 else 2 ^ 31 - 1
  match unpack fp32 x with
  | .nan => 0
  | .inf neg => BitVec.ofInt 32 (if neg then lo else hi)
  | .fin neg m e => BitVec.ofInt 32 (max lo (min hi (Num.toInt rm neg m e)))

/-- I2F (05 R104): a zero gives +0. -/
def intToFp (rm : Rm) (u : Bool) (x : BitVec 32) : Nat :=
  let v : Int := if u then x.toNat else x.toInt
  roundFin fp32 rm (v < 0) v.natAbs 0 false

/-- FRND (05 R104): the sign of a zero result is that of the operand. -/
def fpRound (rm : Rm) (x : Nat) : Nat :=
  match unpack fp32 x with
  | .fin neg m e => roundFin fp32 rm neg (Num.toInt rm neg m e).natAbs 0 false
  | y => roundTo fp32 rm y

/-! ## Narrow formats (06 R124, R125) and block scales (R126) -/

/-- The exact value of a code under a format register. -/
def decodeFmt (f : Word) (c : Nat) : Num :=
  let w := fmtWidth f
  let E := fmtE f
  let M := fmtM f
  if w = 0 then .nan
  else
    let c := c % 2 ^ w
    if E = 0 then
      let i : Int := if fmtS f = 1 && 2 ^ (w - 1) ≤ c then (c : Int) - 2 ^ w else c
      .fin (i < 0) i.natAbs (-fmtBias f)
    else
      let s := fmtS f = 1 && 2 ^ (w - 1) ≤ c
      let e := c / 2 ^ M % 2 ^ E
      let m := c % 2 ^ M
      if e = 0 then .fin s m (1 - fmtBias f - M) else .fin s (2 ^ M + m) (e - fmtBias f - M)

/-- The code of a value under a format register, and the overflow flag (06 R125). A tie between two magnitudes without
fraction bits (M = 0) goes to the even multiple of the smaller one (DESIGN CHOICE, notes/assumptions/125.md). -/
def encodeFmt (f : Word) (x : Num) (rm : Rm) (sat : Bool) : Nat × Bool :=
  let w := fmtWidth f
  let E := fmtE f
  let M := fmtM f
  let S := fmtS f
  if E = 0 then
    let lo : Int := if S = 1 then -(2 ^ (w - 1)) else 0
    let hi : Int := if S = 1 then 2 ^ (w - 1) - 1 else 2 ^ w - 1
    let code := fun (n : Int) => (n % (2 ^ w : Int)).toNat
    match x with
    | .nan => (0, true)
    | .inf neg => (code (if neg then lo else hi), true)
    | .fin neg m e =>
      let n := Num.toInt rm neg m (e + fmtBias f)
      if lo ≤ n && n ≤ hi then (code n, false)
      else if sat then (code (max lo (min hi n)), true)
      else (code n, true)
  else
    let largest := 2 ^ (E + M) - 1
    let withSign := fun (neg : Bool) (c : Nat) => if S = 1 && neg then 2 ^ (w - 1) + c else c
    match x with
    | .nan => (0, true)
    | .inf neg => if S = 0 && neg then (0, true) else (withSign neg largest, true)
    | .fin neg m e =>
      if m = 0 then (withSign neg 0, false)
      else if S = 0 && neg then (0, true)
      else
        let top : Int := e + Nat.log2 m
        let q := max (top - M) (1 - fmtBias f - M)
        let c := (q + M + fmtBias f - 1).toNat * 2 ^ M + toQuantum rm neg m e q false
        if c ≤ largest then (withSign neg c, false) else (withSign neg largest, true)

/-- The value of a block scale byte (06 R126). -/
def scaleVal (s : Nat) : Num := if s = 255 then .nan else .fin false 1 ((s : Int) - 127)

/-- x / scale_val(s). -/
def unscale (x : Num) (s : Nat) : Num := if s = 255 then .nan else x.scale (127 - (s : Int))

/-! ## OCP codes (06 R131, R132) -/

/-- The largest finite code of E4M3 (form false) and E5M2 (form true). -/
def ocpMax (e5 : Bool) : Nat := if e5 then 0x7B else 0x7E

/-- encode_ocp (06 R132). -/
def encodeOcp (e5 : Bool) (x : Num) (rm : Rm) (sat : Bool) : Nat :=
  let bias : Int := if e5 then 15 else 7
  let M : Nat := if e5 then 2 else 3
  let beyond := fun (neg : Bool) =>
    let sg := if neg then 0x80 else 0
    if sat then sg + ocpMax e5 else if e5 then sg + 0x7C else 0x7F
  match x with
  | .nan => 0x7F
  | .inf neg => beyond neg
  | .fin neg m e =>
    let sg := if neg then 0x80 else 0
    if m = 0 then sg
    else
      let top : Int := e + Nat.log2 m
      let q := max (top - M) (1 - bias - M)
      let c := (q + M + bias - 1).toNat * 2 ^ M + toQuantum rm neg m e q false
      if c ≤ ocpMax e5 then sg + c else beyond neg

end Sys2Proof.Machine
end

