-- ==== Sys2Proof/Machine/Flags.lean ====
section
/-! DEFINITION. Every comparison that sets a predicate (05 R97, R102; 12 R264), and the new values of the atomic
operations (07 R145, 08 R172, R177). -/

namespace Sys2Proof.Machine

/-- ICMP (05 R97). -/
def icmp (cc : ICond) (n : Nat) (x y : BitVec n) : Bool :=
  match cc with
  | .eq => x == y
  | .ne => x != y
  | .ult => x.ult y
  | .ule => x.ule y
  | .ugt => y.ult x
  | .uge => y.ule x
  | .slt => x.slt y
  | .sle => x.sle y
  | .sgt => y.slt x
  | .sge => y.sle x

/-- FCMP (05 R102): a NaN operand makes the pair unordered. -/
def fcmp (cc : FCond) (x y : Nat) : Bool :=
  let a := unpack fp32 x
  let b := unpack fp32 y
  let un := a.isNan || b.isNan
  let c := a.cmp b
  match cc with
  | .eq => !un && c == .eq
  | .ne => un || c != .eq
  | .lt => !un && c == .lt
  | .le => !un && c != .gt
  | .gt => !un && c == .gt
  | .ge => !un && c != .lt
  | .un => un
  | .ord => !un

/-- The new value of an atomic operation on N bits (07 R145, 08 R172). -/
def atomNew (op : AtomOp) (n : Nat) (old b cmp : BitVec n) : BitVec n :=
  match op with
  | .add => old + b
  | .min => if old.ult b then old else b
  | .max => if old.ult b then b else old
  | .mins => if old.slt b then old else b
  | .maxs => if old.slt b then b else old
  | .and => old &&& b
  | .or => old ||| b
  | .xor => old ^^^ b
  | .xchg => b
  | .cas => if old = cmp then b else old
  | .inc => if b.ule old then 0 else old + 1
  | .fadd => BitVec.ofNat n (fpAdd fp32 .rn old.toNat b.toNat)
  | .fmin => BitVec.ofNat n (fpMin fp32 old.toNat b.toNat)
  | .fmax => BitVec.ofNat n (fpMax fp32 old.toNat b.toNat)

/-- The new value under W64, or on the low 32 bits. -/
def atomWide (op : AtomOp) (w : Bool) (old b cmp : Dword) : Dword :=
  if w then atomNew op 64 old b cmp
  else (atomNew op 32 (old.setWidth 32) (b.setWidth 32) (cmp.setWidth 32)).setWidth 64

/-- The new value of CAXPY (08 R177): one rounding, to nearest. -/
def axpyNew (ty : AxpyTy) (old s b : Word) : Word :=
  match ty with
  | .f32 => BitVec.ofNat 32 (fpFma fp32 .rn s.toNat b.toNat old.toNat)
  | .bf2 =>
    let half := fun (i : Nat) =>
      BitVec.ofNat 16 (roundTo bf16 .rn (((unpack fp32 s.toNat).mul (unpack bf16 (b.extractLsb' i 16).toNat)).add .rn
        (unpack bf16 (old.extractLsb' i 16).toNat)))
    half 16 ++ half 0
  | .i32 => s * b + old

/-- The combined value of an element of a reducing copy (09 R190). -/
def reduceNew (rop : Nat) (old v : Word) : Word :=
  match rop with
  | 0 => BitVec.ofNat 32 (fpAdd fp32 .rn old.toNat v.toNat)
  | 1 =>
    let half := fun (i : Nat) => BitVec.ofNat 16 (fpAdd bf16 .rn (old.extractLsb' i 16).toNat (v.extractLsb' i 16).toNat)
    half 16 ++ half 0
  | 2 => old + v
  | 3 => BitVec.ofNat 32 (fpMin fp32 old.toNat v.toNat)
  | 4 => BitVec.ofNat 32 (fpMax fp32 old.toNat v.toNat)
  | 5 => if v.slt old then v else old
  | _ => if old.slt v then v else old

/-- The combined bytes of elements, from the old ones and the record's. -/
def combineBytes (rop : Nat) (old new : List Byte) : List Byte :=
  let word (bs : List Byte) (j : Nat) : Word := BitVec.ofNat 32 (natOfBytes ((bs.drop (4 * j)).take 4))
  (List.range (old.length / 4)).flatMap fun j => bytesOfNat 4 (reduceNew rop (word old j) (word new j)).toNat

/-- What a write leaves at a place that held some bytes: its own, or those of a reducing copy combined with them. -/
def writtenBytes (rop : Option Nat) (old new : List Byte) : List Byte :=
  match rop with
  | some r => combineBytes r old new
  | none => new

end Sys2Proof.Machine
end

