-- ==== Sys2Proof/Config.lean ====
section
/-! DEFINITION. What the spec leaves open, as constants without a body: nothing in Lean can find their values, so what
is proved holds whatever they are (notes/assumptions/2.md, 3.md). -/

namespace Sys2Proof.Config

/-- The order that the spec leaves free (00 R10): which step of an engine, an arbiter, the dealer, the fabric or the
outside comes at a moment, and with which operands. -/
opaque nextStep : Nat → Instr

/-- The clocks of 0.8 ns that pass before that step (00 R409: a program must not depend on relative timing). -/
opaque elapsed : Nat → Nat

/-- Whose turn it is at that moment: a near-bank unit, at its next row operation (12 R251), or, with none, that step. -/
opaque unitTurn : Nat → Option Nat

/-- A value that the spec leaves open: by its use (0 the slewing of a clock, 1 the choice of a bundle, 2 and on the
credits of a virtual channel) and the moment. -/
opaque freeValue : Nat → Nat → Nat

/-- Whether the dealer of another module has exported a location of its memory to a function of this one (14 R309): at a
moment, by node, function and location. -/
opaque exported : Nat → Nat → Nat → Nat → Bool

/-- What the host writes to its own memory at a moment, and what some module, by its node, has written to its memory that this
module may be allowed to read (00 R10): an address and bytes. -/
opaque hostWrite : Nat → Option (Nat × List Byte)
opaque farWrite : Nat → Option (Nat × Nat × List Byte)

/-- The text that a line of DRAM reads as under one key when it was written under another; none: key index 0, plaintext
(14 R308). By the keys, the line and what was written. -/
opaque retext : Option (BitVec 512) → Option (BitVec 512) → Nat → BitVec 512 → BitVec 512

/-- Whether the unit's product of a +0, stored or absent, and an infinity or a NaN is NaN, or +0: 06 R130 has the one, 10 R218
and R219 the other. -/
opaque zeroTimesNaN : Bool

/-- A byte of a function's BAR0 of which the spec does not say what it reads as: the layout of its identity and status, the
doorbell, and what lies between (16 R372). By the function, its node identifier and incarnation, and the offset. -/
opaque barOpen : Nat → Nat → BitVec 32 → Nat → BitVec 8

/-- What disturbs the first copy of a code line that is fetched from memory (03 R33). -/
opaque disturbance : Nat → BitVec 512

end Sys2Proof.Config
end

