-- ==== Sys2Proof/Machine/ThreadTypes.lean ====
section
/-! DEFINITION. What threads, hands, teams, cores and quadrants hold (02 R18 to R26, 03 R50, 04 R54 to R85, 05 R86 to
R91, 07 R138 to R161, 13 R274 to R290). -/

namespace Sys2Proof.Machine

/-- What a fault says beside its code (14 R323): its faulting address, element, access bits and offset. -/
structure FaultInfo where
  code : Nat
  faddr : Dword := 0
  felem : Nat := 0xFFFFFFFF
  acc : Nat := 0
  spoff : Nat := 0
deriving DecidableEq, Repr

/-- A condition on which a hand of DET-SCHED parks (04 R71). -/
inductive Park where
  | bbwait (addr : Nat) (phase : Bool)
  /-- A tile event or access (07 R153): 0 TSET, 1 TREADY, 2 TREL, 3 a reader, 4 a writer. -/
  | tile (team : TeamId) (entry what : Nat)
  | matrix
  | chwait (ch : Nat)
  | kick (ch : Nat)
deriving DecidableEq, Repr

/-- Where a thread stands between the steps of its hand. -/
inductive Run where
  /-- It may issue (04 R68). -/
  | ready
  /-- It may issue, and last found that its instruction has to wait for its turn. -/
  | stalled
  /-- It waits until these registers of lane l of its hand are full (03 R50): its own, or on an X-format instruction those
  of the lowest performing lane of its bundle (R42). -/
  | regs (l : Nat) (rs : List (BitVec 8 × Bool))
  /-- It may issue, and last found the condition unmet. -/
  | blocked (p : Park)
  /-- It has arrived at a rendezvous instruction, over the mask m (04 R73, R80). -/
  | rendezvous (m : BitVec 64)
  /-- Its rendezvous has formed, and a member of it waits: these lanes perform together (04 R73). -/
  | formed (set : BitVec 64)
  | tbar | lbar | yield
  /-- Its fetch of the line at va waits for the dealer (14 R319). -/
  | fetch (va : Dword) (code : Nat)
  /-- Its fetch waits for a line being pulled (14 R317). -/
  | pull (va : Dword)
  /-- Its scratchpad atomic or barrier arrival waits for its bank (07 R145, R160). -/
  | bank
  /-- The stack engine waits for the dealer on a line of its area (07 R149). -/
  | stack
  /-- A fault stopped it (14 R325). -/
  | stopped (code : Nat)
  /-- It stopped at a BRK (04 R84). -/
  | broken (imm : BitVec 16)
  | exited
deriving DecidableEq, Repr

/-- What a lane of another hand or team reads of a thread that has arrived at a LANEL or LANER (05 R110). -/
inductive Seen where
  | value (v : Dword)
  /-- It arrived with its guard false. -/
  | inactive
  /-- Its register was empty, and a read of it traps. -/
  | empty
deriving DecidableEq, Repr

/-- A thread (02 R18). -/
structure Thread where
  regs : List Word                  -- v0 to v(regs-1) (05 R86)
  full : List Bool                  -- the full/empty bits (03 R50)
  preds : BitVec 8                  -- p0 to p7 (05 R87)
  pc : Dword                        -- instruction address (03 R30)
  line : Option (Dword × Line)      -- the fetched line it executes from (03 R35)
  pmask : BitVec 64
  edge : Word
  depth : Nat                       -- call depth (04 R77)
  token : Option (Nat × Bool)       -- barrier token (07 R160)
  run : Run
  go : Option Dword                 -- target of a BRP whose fetch waited (04 R78)
  ask : Option Nat                  -- request whose reply it waits for (11 R244, 12 R269)
  bwait : Option (Nat × Option Bool)  -- barrier a BBWAIT waits on, and the phase; none once it has flipped (07 R160)
  fenceAt : Option Nat              -- sequence number at which a waiting FENCE was issued (13 R286)
  need : Option (Nat × Bool)        -- byte of its area whose stack line it waits for; true: the dealer has yet to answer (07 R149)
  arrivals : List (Dword × Seen)    -- neighbour values not yet read across hands (05 R110)
  poison : List Nat                 -- registers that hold an uncorrectable error of the register file (23 R405)
deriving DecidableEq, Repr

/-- A bundle: the threads of a hand that issue as one (04 R68). -/
structure Bundle where
  pc : Dword
  lanes : BitVec 64
  age : Nat
deriving DecidableEq, Repr

/-- An access in a hand's store queue (13 R274, R275). Addresses are the team's or the Commons'. -/
inductive AccOp where
  | spStore (addr n val : Nat)
  | spAtom (addr : Nat) (op : AtomOp) (w : Bool) (b cmp : Dword) (dest : BitVec 8)
  | spArrive (addr : Nat)
  /-- own: the bytes that the thread's own buffered entries give (08 R179). -/
  | cmLoad (addr n : Nat) (sgn w : Bool) (dest : BitVec 8) (own : List (Option Byte)) (clean : Bool)
  | cmStore (addr n val : Nat)
  | cmAtom (addr : Nat) (op : AtomOp) (w : Bool) (b cmp : Dword) (dest : BitVec 8)
  | cmAxpy (addr : Nat) (ty : AxpyTy) (s b : Word)
deriving DecidableEq, Repr

/-- An entry of the store queue: its place in issue order, its thread, and its ordering (13 R278, R279). -/
structure Access where
  seq : Nat
  lane : Nat
  iaddr : Dword
  op : AccOp
  rel : Option Scope
  acq : Option Scope
  batch : Nat                       -- which issue it came from: the accesses of one instruction of one bundle share it
deriving DecidableEq, Repr

/-- An entry of the deterministic store buffer (13 R289). -/
structure DetEntry where
  data : Dword
  lane : Nat
  kind : Nat
  opx : Nat
  bmask : BitVec 8
  addr : Nat
  iaddr : Dword          -- the instruction, for the fault of a tile event (07 R156)
deriving DecidableEq, Repr

/-- A line of a hand's stack cache: 64 bytes of a lane's area (07 R149). -/
structure StackLine where
  lane : Nat
  line : Nat
  data : BitVec 512
  dirty : Bool
deriving DecidableEq, Repr

/-- A hand (02 R18). -/
structure Hand where
  quad : Nat
  bundles : List Bundle
  serve : List (BitVec 64)          -- groups of a JTAB not yet served (04 R79)
  storeQ : List Access
  seq : Nat                         -- accesses and requests issued so far
  pend : List Nat                   -- requests not yet accepted, by number (13 R279)
  detBuf : List DetEntry
  stack : List StackLine            -- most recently used first
  fences : List (Nat × Scope)       -- FENCE.RELs not yet performed: their place among the hand's accesses (13 R278)
  trick : Bool                      -- it has issued a matrix instruction in the current trick (10 R215)
deriving DecidableEq, Repr

/-- What fills a destination that a long-latency producer left empty (03 R50, R51, 05 R91). -/
inductive FillWhat where
  /-- A value that has been computed. -/
  | value (v : Dword)
  /-- Bytes of a peer's scratchpad, by their places, read when the answer comes (07 R155). -/
  | scratch (keys : List Nat)
  /-- The fabric time or the fold status, read when the answer comes (05 R90). -/
  | time
  | foldst
  /-- The status of a collective's ticket, read once its rank has ended (16 R368). -/
  | coll (core : CoreId) (slot gen : Nat)
  /-- The producer ended in a fault (03 R51). -/
  | fault (f : FaultInfo)
deriving DecidableEq, Repr

/-- A value on its way to a thread. -/
structure Fill where
  thread : ThreadKey
  dest : BitVec 8
  pair : Bool
  what : FillWhat
  iaddr : Dword
  seq : Option Nat                  -- place of the access among its hand's (13 R278); none: no access
deriving DecidableEq, Repr

/-- An accumulator tile (10 R206): elements by 64i + j; an absent element is zero. -/
structure AccTile where
  tag : Nat                         -- 0 UNSET, 1 F36, 2 INT36
  elems : List (Nat × BitVec 36)
deriving DecidableEq, Repr

/-- Bytes of a team's scratchpad that a matrix instruction holds, as a destination or a source (10 R214). -/
structure Hold where
  team : TeamId
  lo : Nat
  len : Nat
  dst : Bool
  tile : Option Nat                 -- the entry of the team's core's tile table, if a tile lies there
deriving DecidableEq, Repr

/-- Effective values of a node (02 R22). -/
structure Eff where
  wissue : Nat
  wdram : Nat
  wfab : Nat
  maxq : Nat
  slice : Nat
  prio : Nat
  fq : Nat
  msix : Nat
  det : Nat
  deadline : Nat
deriving DecidableEq, Repr

/-- State of a team (04 R59). -/
inductive TeamSt where
  | staging | running | draining | retired | suspended
deriving DecidableEq, Repr

end Sys2Proof.Machine
end

