-- ==== Sys2Proof/Machine/FabricTypes.lean ====
section
/-! DEFINITION. What links, folds, collectives, health and readiness hold (15 R346 to R352, 16 R354 to R370, 23 R400 to
R408). -/

namespace Sys2Proof.Machine

/-- A link port (16 R354, R355; 23 R405). -/
structure Port where
  trained : Bool
  peer : Nat
  lanes : Nat                       -- lanes in use, of 8
  credits : List Nat                -- flits the next hop takes, by virtual channel
  passed : List ((Nat × Nat) × Nat) -- by virtual channel and waiting job: flits sent since its last (15 R334)
deriving DecidableEq, Repr

/-- A line of 128 bytes on its way to its owner (14 R314). -/
structure Forward where
  id : Nat                          -- the unit that waits for it
  func : Nat
  node : Option Nat                 -- the owning module; none: host memory
  inc : Word                        -- the owner's incarnation in the translation
  addr : Nat
  va : Nat
  write : Option (List Byte)        -- the bytes written; none: a read
  len : Nat
  src : Option ChanId               -- the channel that made it
  wcb : Nat                         -- the LAUNCH node it is made for
  rop : Option Nat                  -- of a reducing copy: how its operands are combined with what is there (09 R190)
  group : Nat                       -- the accesses of one unit that are performed together, or not at all (09 R192)
  dram : Option (Option Nat)        -- it lies in this module's DRAM: the function whose dirty bitmap it marks
deriving DecidableEq, Repr

/-- A range exported to another node (14 R309). -/
structure Export where
  node : Nat
  func : Nat
  lo : Nat
  hi : Nat
  key : Nat
deriving DecidableEq, Repr

/-- The module on the fabric. -/
structure Fabric where
  node : Nat                        -- 22 bits (16 R355)
  inc : Word                        -- incarnation number (14 R318)
  linkEn : Nat                      -- ports that may train (23 R402)
  stackEn : Nat
  version : Nat
  ports : List (Nat × Port)
  peers : List (Nat × Word)         -- known incarnations (16 R355)
  routes : List (Nat × Nat)         -- node to port, the dealer's route table
  lost : List Nat                   -- unreachable nodes (14 R318)
  noRoute : List (Nat × Nat)        -- nodes without a route, and since when (16 R355)
  exports : List Export
  tags : List (Nat × Nat)           -- reductions of other modules that have been applied here: node, tag (09 R197)
  packets : List Packet             -- in every queue, oldest first
  sent : List (Nat × Packet)        -- packets given to the link: port, packet
  time : Nat                        -- fabric time in ns (16 R356)
  timeFrac : Nat                    -- fifths of a ns not yet counted (a clock is 0.8 ns, 00 R5)
  master : Option Nat               -- time master
  ahead : Nat                       -- ns by which the copy is ahead of the master's and slews
  slewed : Nat                      -- millionths of a ns of slewing not yet counted
  joined : Bool                     -- it has taken the master's time since it joined (16 R356)
  beat : Nat                        -- fabric time at which it last sent its time, as master
  replies : List (Nat × Option Nat × List Byte) -- answers given to other modules' lines: node, refusal, bytes read (14 R309)
deriving DecidableEq, Repr

/-- A fold of a job (15 R346 to R350). -/
structure Fold where
  cmd : FoldCmd
  kstate : Nat                      -- 0 to 3
  swept : Nat                       -- its queues below this place in the order of the sweep are closed (15 R347)
  sealT : Nat
  mainN : Nat
  lateN : Nat
  mainB : Nat
  lateB : Nat
  dropN : Nat
  lossy : Bool
  stale : Bool                      -- its header in memory has still to be written
  asked : List (Nat × Nat)          -- page and code of the records that its accesses have sent
  refused : List Nat                -- pages that the dealer has refused to it (14 R319)
  t2 : Option Nat                   -- its unfold time (15 R350)
  link : List Packet                -- packets held at the link until it is unfolded
  late : List Packet                -- packets that came in the late window and wait for a page of the kitty (15 R349)
  dead : Bool                       -- its job's function is being reset: it is never unfolded (15 R338)
deriving DecidableEq, Repr

/-- A collective rank (16 R358 to R364). -/
structure Rank where
  core : CoreId
  slot : Nat
  team : Option TeamId              -- none once its team is away
  func : Nat
  queue : Nat
  blk : BitVec 512                  -- the collective block as accepted
  parent : Option Nat
  children : List Nat
  nodes : List (Nat × Nat)          -- node of every rank
  funcs : List (Nat × Nat)          -- function of every rank
  raw : List Byte                   -- what has been read of the tree and child arrays
  asked : List (Nat × Nat)          -- page and code of the records that its accesses have sent
  hash : BitVec 256
  acc : List (Nat × List Word)      -- chunk to the elements combined so far; absent until its part of SBUF has been read
  got : List (Nat × Nat)            -- done map: sender, chunk (16 R362)
  next : List (Nat × Nat)           -- chunk to the number of children combined
  held : List CollMsg               -- contributions that wait for an earlier child (16 R361)
  tree : Bool                       -- the tree has been read and validated (16 R360)
  sent : List Nat                   -- chunks combined with every child's
  fin : List Nat                    -- chunks whose final values it has
  wrote : List Nat                  -- chunks of the result written to RBUF
  code : Nat                        -- failure, or 0
deriving DecidableEq, Repr

/-- A collective slot (16 R367). -/
structure CollSlot where
  gen : Nat                         -- 28 bits
  state : Nat                       -- 0 free, 1 running, 2 done, 3 failed
  code : Nat
  team : Option TeamId
deriving DecidableEq, Repr

/-- A poisoned line that has been read (16 R369, R370). -/
structure PoisonRead where
  line : Nat                        -- location / 64
  reqs : List (Nat × Nat)           -- functions that read it, in serving order, each with the time of its first read
  logged : Nat                      -- those of them that a line record has named
deriving DecidableEq, Repr

/-- A write that a MIGRATING page holds at the requesting engine (14 R316). -/
structure HeldWrite where
  id : Nat                          -- its request
  func : Nat
  va : Nat
  data : List Byte
  who : Nat × Nat
  src : Option ChanId
  rop : Option Nat
  group : Nat                       -- the accesses of one unit, which are held together (09 R192)
deriving DecidableEq, Repr

/-- What the dealer is told of (14 R313, R322; 16 R373). -/
inductive DealerNote where
  /-- An access of a function passed a segment's bound. -/
  | bound (func va : Nat)
  /-- A fault queue, or a collective log, is unwritable. -/
  | queue (func fq : Nat)
  /-- A vector lies beyond a function's table. -/
  | vector (func v : Nat)
  /-- A packet of a job of another module has been discarded: the job, and bits [127:64] of the packet's header (15 R349). -/
  | late (job head : Nat)
  /-- A job is folded on this module (15 R347). -/
  | folded (job : Nat)
  /-- The fold engine waits for a page of a kitty, or has been refused it, in a job of another module. -/
  | kitty (job va code : Nat)
deriving DecidableEq, Repr

/-- Health and readiness (23 R400 to R406, 16 R370). -/
structure Health where
  powered : Bool
  booted : Bool                     -- the image has been checked, and the dealer runs (23 R401)
  recovery : Bool                   -- the PF is held in recovery (23 R401)
  counts : List (ErrUnit × Nat × Nat) -- corrected errors in the window, and its start
  lasting : List ErrUnit
  log : Nat                         -- address of the health log in the PF's space (23 R406)
  errLog : Nat                      -- address of the PF's error log (16 R370)
  pendingLog : List (BitVec 128)    -- health records the ring had no room for
  pendingErr : List (BitVec 512)
  ready : List ReadyBit             -- bits set in the readiness register (23 R403)
  fallen : List ReadyBit            -- units whose readiness bit has fallen: a lasting fault of each (23 R404)
  slowed : List (Nat × Nat)         -- clock steps taken on each die (23 R400)
  poisonReads : List PoisonRead     -- poisoned lines that have been read (16 R370)
  told : List DealerNote            -- what the dealer has been told of, oldest first
  pfReset : Option Nat              -- a reset of the PF is under way: the function it has reached (15 R338)
  flash : List Host.Cell            -- what the host has written to the flash through the recovery window (23 R401)
deriving DecidableEq, Repr

end Sys2Proof.Machine
end

