-- ==== Sys2Proof/Machine/TeamTypes.lean ====
section
/-! DEFINITION. What teams, chain groups, cores, quadrants, launch trees, dispatchers, functions and the fault path hold
(02 R18 to R26, 04 R54 to R67, 07 R150, R161, 14 R306 to R327, 15 R331 to R345). -/

namespace Sys2Proof.Machine

/-- A team (02 R18). -/
structure Team where
  func : Nat
  queue : Nat
  node : Nat                        -- address of its LAUNCH node
  homeDie : Nat
  index : Nat                       -- linear index (02 R24)
  tx : Nat
  ty : Nat
  w : Nat
  regs : Nat
  hands : Nat
  scratch : Nat
  ntiles : Nat
  chain : Bool
  entry : Dword
  kconst : List Word
  region : List (BitVec 128)        -- the region entries in use (04 R64)
  eff : Eff
  st : TeamSt
  ranNever : Bool                   -- drains without having run a thread (04 R67)
  staged : Nat                      -- mask of the staging entries done (04 R66)
  stageAt : List (Nat × Nat)        -- bytes that an entry under way has copied
  stageWait : Nat                   -- mask of those whose reads wait for the dealer; draining: 1 while a write-back waits
  stagePhase : Nat                  -- write-back entries done while draining
  banks : List Nat                  -- the partition's scratchpad banks, ascending (07 R138)
  start : Nat                       -- first share address of its range (07 R139)
  quads : List Nat                  -- quadrants, ascending (04 R58)
  tiles : List Nat                  -- tile-table entries t0, t1, … (07 R150)
  fmts : List Word                  -- fmt0 to fmt15 (06 R118)
  windows : List (Option (BitVec 256)) -- descriptors bound to w0 to w7 (09 R198)
  yarr : Nat                        -- team barrier record (07 R161)
  phase : Bool
  arr : Nat
  live : Nat
  commit : Nat                      -- stage of a quantum boundary: 0 none, then the pass to make (13 R290)
  commitYield : Bool                -- that boundary is a YIELD's
  commitExit : Bool                 -- that boundary is the team's exit
  tileEvents : List (Nat × DetEntry) -- tile events not yet applied, with their hand (07 R156)
  trickTiles : List Nat             -- its tiles that a matrix instruction writes in the trick, by number (10 R215)
  accs : List (Nat × List (Nat × AccTile)) -- accumulators of its image that it has not become owner of, by place of the quadrant (10 R207)
  resumed : Bool                    -- %foldst RESUMED (15 R345, R352)
  halted : Bool                     -- halted at an instruction boundary (15 R342)
  debug : Bool                      -- halted by a debugger while it was suspended or before (15 R351)
  suspendAt : Option Bool           -- suspension under way: at a yield point (false) or escalated (true)
  placedAt : Nat                    -- cycle of placement, for CYCLES (15 R335)
  countedAt : Nat                   -- cycle up to which the function's period has counted it (15 R335)
  bpLog : List (Nat × Nat × Dword × BitVec 16)  -- breakpoints reported: hand, lane, address, IMM16 (04 R84)
deriving DecidableEq, Repr

/-- The launch barrier record of a chain group (07 R161). -/
structure Group where
  last : Nat
  repeated : Bool
  phase : Bool
  arr : Nat
  live : Nat
  opened : Bool                     -- it has opened before
  lastArr : Nat                     -- core, 0 to 7, of the latest arrival
  teams : List TeamId               -- the group's teams, by place in the group (05 R109)
  boosted : Option Nat              -- the core that runs boosted (15 R336)
  shape : Nat × Nat                 -- hands and lanes of a hand of its teams (05 R109)
  past : List (Nat × List (Dword × Seen) × List (Dword × Seen)) -- retired teams by place: neighbour values not yet read, of the first lane and of the last (05 R110)
deriving DecidableEq, Repr

/-- A core. -/
structure Core where
  tiles : List (Nat × BitVec 64)    -- tile table; an absent entry is zero (07 R150)
  bankOwner : List (Nat × Nat)      -- owner of each group of 4 banks (07 R138)
  tileOwner : List (Nat × Nat)      -- owner of each group of 4 entries (07 R150)
  halt : Bool                       -- debug register (23 R407)
  freeze : Bool
  idle : Bool
  stuck : List Nat                  -- banks retired by a lasting fault (23 R406)
deriving DecidableEq, Repr

/-- A node of a work tree as its home dispatcher holds it (02 R21 to R26). -/
structure Node where
  addr : Nat
  fields : BitVec 5120              -- as read at validation
  level : Nat
  parent : Nat                      -- 0 in the root
  succ : List Nat                   -- successors, in array order
  checked : Bool                    -- it has passed its checks (02 R23)
  reason : Nat
  eff : Eff
  state : Nat                       -- 0 WAITING to 5 REFUSED
  depc : Nat
  under : Bool
  retired : Nat
  nextTeam : Nat
  allDisp : Bool
  abrt : Bool
  cycles : Nat
  readyAt : Nat                     -- when it became READY, in the dispatcher's order (04 R56)
  runAt : Nat                       -- fabric time at which it last entered RUNNING (15 R339)
  pending : Bool                    -- a slice end is pending
  pendAt : Nat                      -- since when, in fabric time
  why : Nat                         -- mask: 1 slice end, 2 dealer's request, 4 fold (15 R345)
  held : List (Nat × List Nat)      -- each die's held list (15 R340)
deriving DecidableEq, Repr

/-- What a waiting access has told the dealer: the address, its page and the fault code (14 R319). -/
structure Asked where
  va : Nat
  page : Nat
  code : Nat
deriving DecidableEq, Repr

/-- A validation under way: what it waits for (02 R23). -/
structure Validation where
  root : Nat
  addr : Nat                        -- the address whose read waits
  blame : Option Nat                -- the node whose field names it; none: the root itself
  asked : Option Asked              -- the record that it has sent
deriving DecidableEq, Repr

/-- A tree taken from a launch queue (02 R20, R25). -/
structure Tree where
  root : Nat
  home : Nat
  func : Nat
  tmpl : Eff
  nodes : List Node                 -- in the order of the visit
  waiting : Option Validation
  lossy : Bool                      -- the latest unfold followed a lossy fold (15 R352)
  bad : Option Nat                  -- the reason that its template fails (04 R55)
deriving DecidableEq, Repr

/-- A launch queue block (04 R54). -/
structure Queue where
  tmpl : Nat
  base : Nat
  tail : Word
  head : Word
  busy : Bool
  en : Bool
  home : Nat
  log2n : Nat
  func : Nat
  asked : Option Asked              -- the record that a read of its ring or template has sent (14 R319)
  owed : Bool                       -- its ring is overfull, and its template's vector has still to be signalled (04 R55)
deriving DecidableEq, Repr

/-- A team message (04 R62). -/
structure TeamMsg where
  ctx : Nat
  wcb : Nat
  first : Nat
  count : Nat
  queue : Nat
  homeDie : Nat
  srcDie : Nat
  prio : Nat
  kind : Nat
deriving DecidableEq, Repr

/-- A write-back that waits (02 R25): the node, the RW bits to write, and what its fault record says. -/
structure Sweep where
  func : Nat
  addr : Nat
  data : BitVec 1024
  wcb : Nat                         -- the completing node, whose domain is told
  fq : Nat
  msix : Nat
  asked : Option Asked              -- the record that it has sent
deriving DecidableEq, Repr

/-- What a quadrant's issue unit remembers (04 R70, 15 R335). -/
structure QuadIssue where
  last : Nat                        -- cycle of its last issue
  used : List ((Nat × Nat) × Nat)   -- issue time by node: queue and address
deriving DecidableEq, Repr

/-- The dispatcher of a die (04 R55 to R63). -/
structure Dispatcher where
  pointer : Nat                     -- round-robin pointer, 6 bits (04 R57)
  incoming : List TeamMsg           -- messages on their way to the die (04 R62)
  fresh : List TeamMsg              -- received messages of suspended teams not yet placed (04 R63)
  got : List TeamMsg                -- received messages of fresh teams; those not yet fully placed count (04 R63)
  adverts : List ((Nat × Nat) × Nat) -- last advertised count of (die, function) (04 R61)
  notices : List (Nat × Nat)        -- retirement notices for its trees: queue, node (04 R60)
  sweeps : List Sweep
deriving DecidableEq, Repr

/-- A function's registers and translations (14 R310 to R327, 15 R333 to R344). -/
structure Func where
  segs : List Dword                 -- segment registers 0 to 2 (14 R312)
  budget : Nat                      -- partition QoS register (15 R333)
  period : Nat
  wfab : Nat
  wcomm : Nat
  wdram : Nat
  used : Nat                        -- quadrant-clocks of the period (15 R335)
  throttled : Bool
  periodAt : Nat                    -- fabric time at which the period was last counted afresh (15 R335)
  resetting : Bool                  -- a reset of the function is under way (15 R337)
  dirtyEn : Bool                    -- dirty bitmap control (14 R326)
  dirtyCur : Bool
  dirtyPend : Bool
  dirtyAddr0 : Nat
  dirtyAddr1 : Nat
  swapt : Nat
  ctxPool : List Nat                -- context pool (15 R344)
  debugEn : Bool                    -- debug enable (23 R407)
  collLog : Nat                     -- collective log address (16 R363)
  msix : List (Nat × Nat)           -- messages sent of each MSI-X vector (16 R373)
  msixTable : List (Nat × BitVec 128) -- its MSI-X table, by vector (16 R372)
  msixPending : List Nat            -- its pending-bit array: the vectors whose bit is set
  mailbox : List Byte               -- request area (16 R372)
  reply : List Byte                 -- reply area
  pages : List Page                 -- first-stage translations (14 R310)
  bagTable : List (Nat × Word)      -- descriptor address to handle (11 R234)
  cmGroups : List (Nat × Nat)       -- Commons groups held: die, group (08 R167)
deriving DecidableEq, Repr

/-- A fault on its way to its domain's queue (14 R319 to R323). -/
structure FaultRec where
  code : Nat
  wait : Bool
  src : Nat
  acc : Nat                         -- bits 20 to 23 of the record: read 1, write 2, fetch 4, read-modify-write 8
  waiters : Nat
  hand : Nat
  lane : Nat
  quad : Nat
  core : Nat
  die : Nat
  chan : Nat
  spoff : Nat
  team : Nat
  felem : Nat
  wcb : Nat
  iaddr : Dword
  faddr : Dword
  func : Nat
  page : Nat                        -- the page that waiting faults share
  homeDie : Nat
  fq : Nat
  msix : Nat
  written : Bool                    -- its record is in the queue; it is kept while unresolved (14 R320)
deriving DecidableEq, Repr

/-- The fault path: faults at the cores' filters, then the home mergers' records in the order accepted. -/
structure Faults where
  raw : List FaultRec
  merged : List FaultRec
deriving DecidableEq, Repr

/-- The memories (07 R138, 08 R166, 14 R307): each a list of bytes in canonical form, absent bytes 0. -/
structure Memory where
  sp : List Host.Cell               -- key: core · 2 MiB + bank · 32 KiB + offset
  cm : List Host.Cell               -- key: die · 64 MiB + bank · 256 KiB + offset
  dram : List Host.Cell             -- key: location
  fabric : List Host.Cell           -- key: node · 2^42 + location, other modules' memory (14 R309)
  host : List Host.Cell             -- key: address, host memory
  spPoison : List Nat               -- poisoned words of 8 bytes, by key / 8
  cmPoison : List Nat
  dramPoison : List Nat             -- poisoned lines of 64 bytes, by location / 64
  dramKey : List (Nat × Option (BitVec 512)) -- the key under which a line was last written; none: key index 0 (14 R308)
deriving DecidableEq, Repr

end Sys2Proof.Machine
end

