-- ==== Sys2Proof/Machine/EngineTypes.lean ====
section
/-! DEFINITION. What copy channels, matrix units, bag arbiters, pseudo-channels, near-bank runs and suspended teams hold
(09 R181 to R204, 10 R206 to R214, 11 R228 to R248, 12 R251 to R273, 15 R341 to R345). -/

namespace Sys2Proof.Machine

/-! ## Requests and replies -/

/-- An ordinary request that waits at a pseudo-channel's controller (12 R254, 22 R398). -/
structure Req where
  id : Nat
  loc : Nat
  len : Nat
  write : Option (List Byte)        -- the bytes written; none: a read
  dirty : Option Nat                -- function whose dirty bitmap a write marks (14 R326)
  since : Nat                       -- cycle of arrival
  who : Nat × Nat                   -- function and node it is made for (11 R230)
  src : Option ChanId               -- the channel that made it (22 R398)
  va : Nat                          -- its virtual address
  rop : Option Nat                  -- of a reducing copy: how its operands are combined with what is there (09 R190)
  more : List (Nat × Nat × Nat)     -- its further parts: virtual address, device physical address and bytes (22 R398)
deriving DecidableEq, Repr

/-- The parts of a request: virtual address, device physical address and bytes. -/
def Req.parts (q : Req) : List (Nat × Nat × Nat) := (q.va, q.loc, q.len) :: q.more

/-- What the asker of a request gets. -/
structure Answer where
  fault : Option FaultInfo
  val : Nat
  data : List Byte
deriving DecidableEq, Repr

/-! ## Copy channels -/

/-- A transfer record that a channel has accepted (09 R184). -/
structure Rec where
  off : Nat
  word : BitVec 256                 -- the record as read
  bad : Bool                        -- malformed (09 R185)
  started : Bool
  lost : Bool                       -- it met TILE_STATE, and every unit is abandoned (09 R192)
  desc : BitVec 64                  -- the tile entry at the start
  fmt : Word                        -- the tile's format register at the start (06 R122)
  slot : Option Nat                 -- the window it works through (09 R199)
  wdesc : BitVec 256
  idx : List Nat                    -- indices of the elements covered
  badIdx : List Nat                 -- those elements whose index was poisoned (07 R141)
  shape : BitVec 256                -- shape record (09 R189)
  units : Nat
  issued : Nat
  limit : Option Nat                -- units that may be issued before a halt (15 R343)
  mask : Nat                        -- partial-completion mask (09 R191)
  gone : Nat                        -- mask of the units that were abandoned
  waiting : List Nat                -- units that wait for the dealer
  asked : List (Nat × Nat × Nat)    -- of a waiting unit, the page and code of the record that it has sent
  reqs : List (Nat × List Nat)      -- requests of each issued unit
  bufs : List (Nat × List Byte)     -- storage pieces read by a convert (09 R188)
  ring : Bool                       -- its end actions are done but for the ring entry (09 R195)
deriving DecidableEq, Repr

/-- A chain (09 R181). -/
structure Chain where
  team : TeamId
  hand : Nat
  seq : Nat                         -- the hand's accesses before the KICK
  acqs : List Nat                   -- acquires of the kicking thread not yet performed at the KICK (13 R279)
  recs : List Rec                   -- accepted records that have not ended, in chain order
  next : Option Nat                 -- offset of the next record; none: none follows
  stopped : Bool                    -- CHSTOP (09 R204)
deriving DecidableEq, Repr

/-- A record that a take has claimed: its share, row, slot and sequence number (11 R240). -/
structure Claim where
  share : Nat
  row : Nat
  slot : Nat
  seq : Nat
deriving DecidableEq, Repr

/-- A take that occupies a place of a channel (11 R246). -/
structure TakeJob where
  id : Nat                          -- its request
  team : TeamId
  hand : Nat
  lane : Nat
  iaddr : Dword
  bag : BagId
  off : Nat                         -- of its take block
  dest : Nat
  bb : Nat
  rsize : Nat
  claims : List Claim               -- in claim order
  landed : Nat
  limit : Option Nat                -- records that may land before a halt (15 R343)
deriving DecidableEq, Repr

/-- What a channel serves. -/
inductive Job where
  | chain (c : Chain)
  | take (t : TakeJob)
deriving DecidableEq, Repr

/-- A copy channel (09 R181). -/
structure Chan where
  run : Option Job
  back : List Job                   -- what resumed teams have brought back, served before the queue (15 R345)
  queue : List Job                  -- the kick queue, of four places
  frozen : List TeamId              -- teams whose chains are frozen (09 R204)
  incomp : List (TeamId × Nat)      -- INCOMP (09 R203)
deriving DecidableEq, Repr

/-! ## Matrix units -/

/-- A matrix instruction that has issued and is not done (10 R214). -/
structure MatJob where
  num : Nat
  thread : ThreadKey
  iaddr : Dword
  fault : Option FaultInfo          -- found after issue (10 R213)
  dst : Option (TeamId × Nat)       -- the tile it writes whole
deriving DecidableEq, Repr

/-- A quadrant's matrix unit. -/
structure Mat where
  owner : Option TeamId
  wait : List TeamId                -- oldest request first (10 R207)
  accs : List (Nat × AccTile)
  jobs : List MatJob                -- in issue order
deriving DecidableEq, Repr

/-! ## Bags -/

/-- A record of a bag. -/
structure BagRec where
  seq : Nat
  key : Nat
  share : Nat
  row : Nat                         -- number of its row, by the order rows were opened
  slot : Nat
  data : List Byte                  -- its bytes until they are written to the row (11 R236)
  written : Bool
  claimed : Bool
  claimNo : Nat                     -- which claim of the bag it was; 0: none
  seen : Bool                       -- visited by the running iteration (11 R241)
deriving DecidableEq, Repr

/-- An open row of a share: its number, its share, and its place in the share's reservation. -/
structure BagRow where
  num : Nat
  share : Nat
  place : Nat
deriving DecidableEq, Repr

/-- An iteration that waits for its turn (11 R242). -/
structure IterReq where
  no : Nat
  cut : Nat
  run : Nat                         -- the near-bank run that it becomes
deriving DecidableEq, Repr

/-- A live bag (11 R231 to R243). -/
structure Bag where
  func : Nat
  desc : Nat                        -- descriptor address
  gen : Nat
  rsize : Nat
  cap : Nat
  spread : Nat
  policy : Nat
  bound : Nat
  fmode : Nat
  rowBase : Nat                     -- first row reserved in each pseudo-channel
  seq : Nat                         -- highest sequence number accepted
  resident : Nat
  ptr : Nat                         -- take pointer
  claims : Nat                      -- records claimed since its creation
  cuts : List (Nat × Nat)           -- cuts given, and the records claimed before each (11 R241)
  recs : List BagRec
  rows : List BagRow                -- oldest first
  nextRow : Nat
  puts : List (Nat × Nat)
  res : List (Nat × Nat)
  iters : Nat                       -- iterations accepted
  ended : Nat                       -- iterations finished
  iter : Option (Nat × Nat × Nat)   -- running: its number, its cut, its run
  iterQ : List IterReq
  last : Option (Bool × Nat)        -- the last finished iteration: stopped on a fault, records visited
  clear : Option Nat                -- the BAGCLR that waits to be performed (11 R243)
deriving DecidableEq, Repr

/-- What a bag request asks for. -/
inductive BagAsk where
  /-- A put of the record at a scratchpad address; kept: its bytes, as read at a quantum boundary (11 R249). -/
  | put (addr : Nat) (dest : BitVec 8) (kept : Option (List Byte))
  /-- A put by NEMIT of a run on a unit (12 R265). -/
  | emit (run unit : Nat) (bytes : List Byte)
  | take (chan : ChanId) (block : BitVec 128) (off : Nat) (dest : BitVec 8)
  | count (dest : BitVec 8)
  | hist (puts : Bool) (bin : Nat) (dest : BitVec 8)
  | cut
  | iter (cut off : Nat)
  | wait
  | clear
  | info (sel : Nat)
deriving DecidableEq, Repr

/-- A request on its way to a bag arbiter (11 R235). -/
structure BagReq where
  id : Nat
  handle : Word
  func : Nat
  thread : ThreadKey                -- the asking thread; of an emit, the one that started the run
  iaddr : Dword
  seq : Nat
  ask : BagAsk
  after : Option Nat                -- accepted BAGWAIT: the iterations it waits for (11 R248)
deriving DecidableEq, Repr

/-! ## Near-bank runs and units -/

/-- A row of a run: its index, and the device physical address of each stream's row. -/
structure RowRef where
  i : Nat
  locs : List (Option Nat)
deriving DecidableEq, Repr

/-- A run on one unit. -/
structure UnitRun where
  rows : List RowRef                -- still to be started, in order
  cur : Option RowRef
  bagRow : Option Nat               -- an iteration's current row
  emits : Nat                       -- NEMIT puts not yet answered
  begun : Bool                      -- its first row has started
  noMore : Bool                       -- it starts no more rows
  ended : Bool
  owed : Nat                        -- landed(1) calls to make once its puts are answered
deriving DecidableEq, Repr

/-- A run (12 R257 to R273). -/
structure NbRun where
  team : TeamId
  thread : ThreadKey
  func : Nat
  dom : FaultRec                    -- a fault record of its domain, to be completed (12 R272)
  iaddr : Dword
  word : BitVec 768                 -- the descriptor as read
  ops : List Word                   -- empty until the run is accepted
  bag : Option BagId                -- of an iteration
  cut : Nat
  claims : Nat                      -- records claimed before its cut (11 R241)
  seq : Nat                         -- the hand's accesses before it (13 R279)
  rsize : Nat
  waiting : List Nat                -- rows whose translation waits for the dealer
  late : List Nat                   -- rows whose stream-0 page was not mapped at acceptance (12 R269)
  asked : List (Nat × Nat × Nat)    -- of a waiting row, the page and code of the record that it has sent
  units : List (Nat × UnitRun)
  done : Nat
  skip : Nat
  emitOk : Nat
  emitRef : Nat
  stops : List (Nat × Nat)          -- pseudo-channel and code where it stopped
  visited : Nat
  landedN : Nat                     -- landed(1) calls made
  last : Bool                       -- the last call is held for the status block (22 R397)
  status : Bool                     -- the status block is written
  away : Bool                       -- its team is suspended: writes are held (12 R273)
  heldN : Nat                       -- landed(1) calls held
  heldSt : Bool                     -- the status write is held
deriving DecidableEq, Repr

/-- A pseudo-channel with its controller and near-bank unit (11 R228, 12 R251). -/
structure Pch where
  qreq : Bool
  qack : Bool
  ratio : Nat
  quota : Nat
  nbarb : Nat
  reqs : List Req
  held : Nat                        -- the first of them, which QREQ found here (11 R229)
  runq : List Nat                   -- runs that hold a place, in order of acceptance
  active : Bool                     -- the first of them has started
  store : List Word
  pc : Nat
  n : List (BitVec 8192)
  l : List Nat
  m : Nat
  susp : Option Nat                 -- suspended: ordinary requests served since
  fresh : Bool                      -- it has resumed and performed no row operation since (12 R254)
  wait : Option Nat                 -- a remote row's request (12 R259)
  passed : List ((Bool × Nat × Nat) × Nat) -- by direction (true: writes) and waiting node: requests served since its last (11 R230)
  direct : List (Nat × Bool × Nat × Nat) -- requests that engines make in one step and that wait: since when, direction and asker (11 R230, 12 R254)
deriving DecidableEq, Repr

/-! ## Suspended teams -/

/-- What a context image holds (15 R344), by the address it was written to. -/
structure Saved where
  team : Team
  id : TeamId                       -- the name it has while it is away
  threads : List (ThreadKey × Thread)
  hands : List (HandKey × Hand)
  jobs : List (Nat × Nat × List Job) -- quadrant, channel, its jobs of the team
  frozen : List (Nat × Nat)
  incomp : List (Nat × Nat × Nat)
  accs : List (Nat × List (Nat × AccTile)) -- by place in the team's quadrants
  tiles : List (BitVec 64)
  scratch : List Byte
  poison : List Nat                 -- poisoned words of its range
  next : Nat                        -- image of the next team of its group
  held : List (Nat × Nat)           -- landed(n) calls meant for it: barrier, n (15 R345)
  later : List (Bool × Nat × BitVec 64) -- requests to be performed at its resume: RESUME or RESUME.NEXT, hand, lanes (14 R325)
  abort : Bool
  image : List Byte                 -- its image, as it is written
  left : List (Nat × List Byte)     -- pieces of it not yet written: address and bytes
  asked : Option (Nat × Nat)        -- page and code of the record that a piece has sent
  refused : Bool                    -- the dealer has refused a page to the read of its image (14 R319)
  dom : FaultRec                    -- a fault record of its domain, to be completed
  msg : Option (Nat × TeamMsg)      -- the message that carries it once its image is written, and the die (04 R62)
deriving DecidableEq, Repr

end Sys2Proof.Machine
end

