-- ==== Sys2Proof/Machine/State.lean ====
section
/-! DEFINITION. The state of a B8 module, why a step may stop, and the state after reset. -/

namespace Sys2Proof.Machine

/-- What acts in the next step (notes/assumptions/2.md). -/
inductive Focus where
  /-- Nothing yet: time passes and a step of an engine, the dealer or the outside follows. -/
  | none
  /-- The bundle of a hand that has been selected to issue (04 R70). -/
  | bundle (h : HandKey) (lanes : BitVec 64)
  /-- The near-bank unit of a pseudo-channel, at its next row operation (12 R251). -/
  | unit (p : Nat)
deriving DecidableEq, Repr

/-- The module's state. -/
structure State where
  threads : List (ThreadKey × Thread)
  hands : List (HandKey × Hand)
  teams : List (TeamId × Team)
  groups : List ((Nat × Nat) × Group)       -- by node and group number
  fills : List Fill                         -- values on their way to threads (03 R50)
  cores : List (CoreId × Core)
  holds : List (Nat × Hold)                 -- by matrix job (10 R214)
  current : List (QuadId × HandKey)         -- current hand of DET-SCHED (04 R71)
  issue : List (QuadId × QuadIssue)
  quadOwner : List (QuadId × Nat)           -- 15 R331
  queues : List (Nat × Queue)
  trees : List (Nat × Tree)                 -- by launch queue
  dispatchers : List (Nat × Dispatcher)     -- by die
  funcs : List (Nat × Func)                 -- 0 the PF, 1 to 64 the VFs
  keySlots : List (Nat × Nat × BitVec 512)  -- loaded key slots: the function each was given to, and its key (14 R308)
  faults : Faults
  mem : Memory
  fab : Fabric
  folds : List (Nat × Fold)                 -- by job
  ranks : List Rank
  collSlots : List ((CoreId × Nat) × CollSlot)
  health : Health
  chans : List (ChanId × Chan)
  mats : List (QuadId × Mat)
  bags : List (BagId × Bag)
  freeBags : List (Nat × List (Nat × Nat))  -- by die: free bag controllers in the order freed, and last generation
  bagReqs : List BagReq
  pchs : List (Nat × Pch)
  cmPassed : List ((Bool × Nat × Nat) × Nat) -- by Commons bank and function that waits there: accesses accepted since its last (08 R171)
  runs : List (Nat × NbRun)
  forwards : List Forward
  heldWrites : List HeldWrite               -- in the order they were issued (14 R316)
  answers : List (Nat × Answer)             -- replies not yet taken, by request
  nextId : Nat                              -- the model's own: numbers of requests, runs and matrix jobs
  saved : List (Nat × Saved)                -- suspended teams, by image address
  cycle : Nat                               -- 05 R90
  focus : Focus                             -- the model's own
  tick : Nat                                -- the model's own: counts the free choices made
  glitch : Line                             -- the model's own: disturbs the first copy of the next line fetched (03 R33)
deriving DecidableEq, Repr

/-! ## Values after reset (00 R6: the Reset columns of the maps; where there is none, notes/assumptions/7.md) -/

/-- A core to which the dealer has given nothing. -/
def Core.reset : Core := ⟨[], [], [], false, false, false, []⟩

/-- A launch queue block (04 R54). -/
def Queue.reset : Queue := ⟨0, 0, 0, 0, false, false, 0, 0, 0, none, false⟩

/-- A die's dispatcher (04 R57). -/
def Dispatcher.reset : Dispatcher := ⟨0, [], [], [], [], [], []⟩

/-- A function's registers (14 R312, R326; 15 R333): PERIOD and the weights reset to 1. -/
def Func.reset : Func where
  segs := [0, 0, 0]
  budget := 0
  period := 1
  wfab := 1
  wcomm := 1
  wdram := 1
  used := 0
  throttled := false
  periodAt := 0
  resetting := false
  dirtyEn := false
  dirtyCur := false
  dirtyPend := false
  dirtyAddr0 := 0
  dirtyAddr1 := 0
  swapt := 0
  ctxPool := []
  debugEn := false
  collLog := 0
  msix := []
  msixTable := []
  msixPending := []
  mailbox := []
  reply := []
  pages := []
  bagTable := []
  cmGroups := []

/-- A link port that has not trained: eight lanes, and no credit from a next hop. -/
def Port.reset : Port := ⟨false, 0, 8, List.replicate 8 0, []⟩

/-- The memories with nothing listed: every byte reads as zero. -/
def Memory.empty : Memory := ⟨[], [], [], [], [], [], [], [], []⟩

/-- The module on the fabric at power-on: node 0, no port may train, fabric time 0 (16 R356, 23 R402). -/
def Fabric.reset : Fabric where
  node := 0
  inc := 0
  linkEn := 0
  stackEn := 0
  version := 0
  ports := []
  peers := []
  routes := []
  lost := []
  noRoute := []
  exports := []
  tags := []
  packets := []
  sent := []
  time := 0
  timeFrac := 0
  master := none
  ahead := 0
  slewed := 0
  joined := false
  beat := 0
  replies := []

/-- A copy channel: idle (09 R181). -/
def Chan.reset : Chan := ⟨none, [], [], [], []⟩

/-- An accumulator that a team finds on becoming owner: zero and UNSET (10 R207). -/
def AccTile.reset : AccTile := ⟨0, []⟩

/-- A matrix unit that no team owns. -/
def Mat.reset : Mat := ⟨none, [], [], []⟩

/-- A pseudo-channel: RATIO 1, QUOTA 16, NBARB 64 (11 R229, 12 R253), and a unit at rest. -/
def Pch.reset : Pch where
  qreq := false
  qack := false
  ratio := 1
  quota := 16
  nbarb := 64
  reqs := []
  held := 0
  runq := []
  active := false
  store := []
  pc := 0
  n := List.replicate 8 0
  l := [0, 0, 0, 0]
  m := 0
  susp := none
  fresh := false
  wait := none
  passed := []
  direct := []

/-- Health and readiness at power-on: powered, nothing ready (23 R403). -/
def Health.reset : Health := ⟨true, false, false, [], [], 0, 0, [], [], [], [], [], [], [], none, []⟩

/-- The module right after reset: nothing is granted, mapped, queued or running, every register holds its reset value,
and memory lists nothing (notes/assumptions/4.md, 5.md, 7.md). -/
def State.reset : State where
  threads := []
  hands := []
  teams := []
  groups := []
  fills := []
  cores := []
  holds := []
  current := []
  issue := []
  quadOwner := []
  queues := []
  trees := []
  dispatchers := []
  funcs := []
  keySlots := []
  faults := ⟨[], []⟩
  mem := Memory.empty
  fab := Fabric.reset
  folds := []
  ranks := []
  collSlots := []
  health := Health.reset
  chans := []
  mats := []
  bags := []
  freeBags := []
  bagReqs := []
  pchs := []
  cmPassed := []
  runs := []
  forwards := []
  heldWrites := []
  answers := []
  nextId := 0
  saved := []
  cycle := 0
  focus := .none
  tick := 0
  glitch := 0

/-- Why the machine stops. -/
inductive Fault where
  /-- Raised by step once the module has powered itself off (23 R400): safe, nothing runs on a module without power. -/
  | poweredOff
deriving DecidableEq, Repr

/-- Why a step has no meaning. -/
inductive Refusal where
  /-- Raised by exec alone, for an instruction that has no meaning yet: safe, a run stops at it. -/
  | notModelled (mnemonic : String)
deriving DecidableEq, Repr

end Sys2Proof.Machine
end

