-- ==== Sys2Proof/Machine/Parts.lean ====
section
/-! DEFINITION. Finding and changing parts of the state: what a key that is not listed stands for is its reset value. -/

namespace Sys2Proof.Machine

def State.setThread (s : State) (k : ThreadKey) (t : Thread) : State := { s with threads := aset k t s.threads }
def State.modThread (s : State) (k : ThreadKey) (f : Thread → Thread) : State := { s with threads := amod k f s.threads }
def State.setHand (s : State) (k : HandKey) (h : Hand) : State := { s with hands := aset k h s.hands }
def State.modHand (s : State) (k : HandKey) (f : Hand → Hand) : State := { s with hands := amod k f s.hands }
def State.setTeam (s : State) (k : TeamId) (t : Team) : State := { s with teams := aset k t s.teams }
def State.modTeam (s : State) (k : TeamId) (f : Team → Team) : State := { s with teams := amod k f s.teams }
def State.core (s : State) (c : CoreId) : Core := agetD c Core.reset s.cores
def State.modCore (s : State) (c : CoreId) (f : Core → Core) : State := { s with cores := aset c (f (s.core c)) s.cores }
def State.func (s : State) (f : Nat) : Func := agetD f Func.reset s.funcs
def State.modFunc (s : State) (n : Nat) (f : Func → Func) : State := { s with funcs := aset n (f (s.func n)) s.funcs }
def State.queue (s : State) (q : Nat) : Queue := agetD q Queue.reset s.queues
def State.modQueue (s : State) (q : Nat) (f : Queue → Queue) : State := { s with queues := aset q (f (s.queue q)) s.queues }
def State.disp (s : State) (d : Nat) : Dispatcher := agetD d Dispatcher.reset s.dispatchers
def State.modDisp (s : State) (d : Nat) (f : Dispatcher → Dispatcher) : State :=
  { s with dispatchers := aset d (f (s.disp d)) s.dispatchers }
def State.chan (s : State) (c : ChanId) : Chan := agetD c Chan.reset s.chans
def State.modChan (s : State) (c : ChanId) (f : Chan → Chan) : State := { s with chans := aset c (f (s.chan c)) s.chans }
def State.mat (s : State) (q : QuadId) : Mat := agetD q Mat.reset s.mats
def State.modMat (s : State) (q : QuadId) (f : Mat → Mat) : State := { s with mats := aset q (f (s.mat q)) s.mats }
def State.pch (s : State) (p : Nat) : Pch := agetD p Pch.reset s.pchs
def State.modPch (s : State) (p : Nat) (f : Pch → Pch) : State := { s with pchs := aset p (f (s.pch p)) s.pchs }
def State.modRun (s : State) (r : Nat) (f : NbRun → NbRun) : State := { s with runs := amod r f s.runs }
def State.modBag (s : State) (b : BagId) (f : Bag → Bag) : State := { s with bags := amod b f s.bags }
def State.setMem (s : State) (m : Memory) : State := { s with mem := m }

end Sys2Proof.Machine
end

