-- ==== Sys2Proof/Machine/Controller.lean ====
section
/-! DEFINITION. When a pseudo-channel's controller takes a request: its sharing with the near-bank unit (11 R229, 12 R254),
and the order in which it serves what waits (11 R230, 15 R334, 22 R398). -/

namespace Sys2Proof.Machine

/-- The pseudo-channel of a location (14 R307). -/
def pchOf (loc : Nat) : Nat := bits loc 20 10

/-- Whether the module has a trained route to a node: by the dealer's route table, or by a link that ends there (16 R355). -/
def hasRoute (s : State) (node : Nat) : Bool :=
  (match aget node s.fab.routes with
    | some p => (agetD p Port.reset s.fab.ports).trained
    | none => false) || s.fab.ports.any fun p => p.2.trained && p.2.peer = node

/-- Whether a virtual channel of a port is blocked by a packet that is held at the link (15 R350). -/
def vcBlocked (s : State) (port vc : Nat) : Bool := s.folds.any fun f => f.2.link.any fun p => p.port = port && p.vc = vc

/-- The port that leads to a node (16 R355). -/
def portTo (s : State) (node : Nat) : Option Nat :=
  match (aget node s.fab.routes).filter fun p => (agetD p Port.reset s.fab.ports).trained with
  | some p => some p
  | none => (s.fab.ports.find? fun p => p.2.trained && p.2.peer = node).map (·.1)

/-! ## Shares of a bag (11 R228, R232) -/

/-- The stacks that hold shares, ascending. -/
def Bag.stacks (b : Bag) : List Nat := (List.range 32).filter fun i => bit b.spread i
/-- P, the number of shares. -/
def Bag.shares (b : Bag) : Nat := 64 * b.stacks.length
/-- The pseudo-channel of a share. -/
def Bag.pch (b : Bag) (share : Nat) : Nat := 64 * b.stacks.getD (share / 64) 0 + share % 64

/-! ## Whether the unit holds the banks (12 R254) -/

/-- The row operation that a unit reaches next. -/
def Pch.nextOp (p : Pch) : Word := p.store.getD p.pc 0

/-- A run's part on a unit. -/
def NbRun.unit (r : NbRun) (p : Nat) : Option UnitRun := aget p r.units

/-- A record that an iteration must or may see, and that no take has read (11 R241). -/
def BagRec.visible (r : NbRun) (x : BagRec) : Bool := x.seq ≤ r.cut && !x.seen && !(x.claimed && x.claimNo ≤ r.claims)

/-- The row of its share that an iteration reaches next on a unit (12 R271): the oldest with a record at or below the cut
that it has not visited; and the records of M. -/
def iterRow (s : State) (r : NbRun) (p : Nat) : Option (BagRow × List BagRec) :=
  match r.bag.bind fun b => aget b s.bags with
  | none => none
  | some bg =>
    let at_ := fun (x : BagRow) => bg.recs.filter fun y => y.row = x.num && y.seq ≤ r.cut && !y.seen
    (bg.rows.find? fun x => bg.pch x.share = p && at_ x ≠ []).map fun x => (x, (at_ x).filter (·.visible r))

/-- Whether a unit can go on with a row, its next one if it is at none. -/
def rowReady (s : State) (r : NbRun) (p : Nat) (x : UnitRun) : Bool :=
  if x.cur.isSome || x.bagRow.isSome then true
  else if x.noMore then false
  else if r.bag.isNone then x.rows ≠ []
  else match iterRow s r p with
    | some y => y.2.all (·.written)
    | none => false

/-- Whether the unit holds no bank of its pseudo-channel: no run is active, or it is suspended for requests, has no row to
go on with, or waits in NSYNC or on a remote row. -/
def unitAway (s : State) (p : Nat) : Bool :=
  let u := s.pch p
  !u.active || u.wait.isSome ||
    (match u.susp with
      | some n => n < u.quota
      | none =>
        match u.runq with
        | [] => true
        | n :: _ => match aget n s.runs with
          | some r => match r.unit p with
            | some x => !rowReady s r p x || ((x.cur.isSome || x.bagRow.isSome) && u.nextOp = 0x50000000 && x.emits ≠ 0)
            | none => true
          | none => true)

/-! ## Which request is served next (11 R230, 12 R254, 15 R334, 22 R398) -/

/-- The direction of a request and the node it is made for: the controller shares each direction apart. -/
def Req.lane (q : Req) : Bool × Nat × Nat := (q.write.isSome, q.who)

/-- The direction and the asker of a request that an engine makes in one step: the requests of a function that name no node
count as those of one. -/
def engineLane (fn : Nat) (wr : Bool) : Bool × Nat × Nat := (wr, fn, 2 ^ 64)

/-- What waits in a direction: the nodes of the queue, and the engines whose requests in one step have found the controller
taken. -/
def Pch.lanes (u : Pch) (wr : Bool) : List (Bool × Nat × Nat) :=
  ((u.reqs.map Req.lane ++ u.direct.map (·.2)).filter (·.1 = wr)).dedup

/-- Requests of its direction that may still be served before a node's own is: 64 with its own. -/
def slack (passed : List ((Bool × Nat × Nat) × Nat)) (k : Bool × Nat × Nat) : Nat := 64 - agetD k 0 passed

/-- The counts after a request is served: it is none for its own node, and one more for the others that wait. -/
def passedBy (passed : List ((Bool × Nat × Nat) × Nat)) (waits : List (Bool × Nat × Nat)) (own : Bool × Nat × Nat) :
    List ((Bool × Nat × Nat) × Nat) :=
  (waits.filter (· ≠ own)).foldl (fun l k => aset k (agetD k 0 l + 1) l) (adel own passed)

/-- Whether every node that waits can still be served once in every 64 requests. -/
def canShare (passed : List ((Bool × Nat × Nat) × Nat)) (waits : List (Bool × Nat × Nat)) : Bool :=
  (List.range 64).all fun k => (waits.filter fun x => slack passed x ≤ k).length ≤ k

/-- Whether every node keeps its share if a request of one of them is served now. -/
def sharesAfter (u : Pch) (k : Bool × Nat × Nat) : Bool := canShare (passedBy u.passed (u.lanes k.1) k) (u.lanes k.1)

/-- The queue without its n-th request. -/
def Pch.without (u : Pch) (n : Nat) : Pch := { u with reqs := delAt n u.reqs }

/-- The places of the queue whose request may be served and still leaves every node its share. -/
def fairPlaces (u : Pch) : List Nat :=
  (List.range u.reqs.length).filter fun i => match u.reqs[i]? with
    | some q => (u.reqs.take i).all (fun x => q.src.isNone || x.src ≠ q.src) && sharesAfter (u.without i) q.lane
    | none => false

/-- Whether the controller may serve the n-th of its queue next: the requests of one channel keep their order, and every
node is served at least once in every 64 requests of a direction. While the unit is suspended the queue's order holds but
for that; where no choice keeps the guarantee, the oldest is served. -/
def servesNext (u : Pch) (n : Nat) : Bool :=
  match fairPlaces u with
  | [] => n = 0
  | i :: is => if u.susp.isSome then n = i else n = i || is.contains n

/-- The request in one step that has been passed most often. -/
def mostPassed (u : Pch) : Option (Nat × Bool × Nat × Nat) :=
  u.direct.foldl (fun b d => match b with
    | some x => if agetD x.2 0 u.passed < agetD d.2 0 u.passed then some d else b
    | none => some d) none

/-- The engines' request that goes before the n-th of the queue: an older one while the unit is suspended (12 R254), or the
one passed most often where no choice leaves every node its share. -/
def directFirst (u : Pch) (n : Nat) : Option (Nat × Bool × Nat × Nat) :=
  match u.susp.bind (fun _ => u.direct.find? fun d => d.1 < (u.reqs[n]?).elim 0 (·.since)) with
  | some d => some d
  | none => if fairPlaces u = [] then mostPassed u else none

/-- An engine's request no longer waits: it has had its turn. -/
def Pch.turned (u : Pch) (d : Nat × Bool × Nat × Nat) : Pch :=
  { u with direct := u.direct.filter (· ≠ d), passed := adel d.2 u.passed }

/-- Whether a request that an engine makes in one step comes next at a suspended unit: none is older (12 R254). -/
def inTurn (u : Pch) (k : Bool × Nat × Nat) : Bool :=
  match u.direct.find? fun d => d.2 = k with
  | some d => (u.reqs.all fun q => d.1 ≤ q.since) && u.direct.all fun x => d.1 ≤ x.1
  | none => u.reqs = [] && u.direct = []

/-- Whether the controller may serve a request of an engine that has just reached it: it is not quiesced, the unit holds no
bank, and every node that waits keeps its share and its turn. -/
def mayServe (s : State) (p : Nat) (k : Bool × Nat × Nat) : Bool :=
  let u := s.pch p
  !u.qreq && unitAway s p && sharesAfter u k && (u.susp.isNone || inTurn u k)

/-- A controller that has served one more ordinary request: during a suspension it counts, and it passed the nodes that wait. -/
def Pch.served (u : Pch) (k : Bool × Nat × Nat) : Pch :=
  { u with
    susp := u.susp.map (· + 1)
    direct := u.direct.filter fun d => d.2 ≠ k
    passed := passedBy u.passed (u.lanes k.1) k }

/-- One more ordinary request has been served. -/
def countServed (s : State) (p : Nat) (k : Bool × Nat × Nat) : State := { s with pchs := amod p (·.served k) s.pchs }

/-- A request that an engine makes in one step waits at the controller, since when (11 R230, 12 R254). Where no choice leaves
every node its share, the engine passed most often has had its turn. -/
def Pch.noted (now : Nat) (k : Bool × Nat × Nat) (u : Pch) : Pch :=
  let v := if sharesAfter u k then u else match mostPassed { u with direct := u.direct.filter fun d => d.2 ≠ k } with
    | some d => u.turned d
    | none => u
  if v.direct.any fun d => d.2 = k then v else { v with direct := v.direct ++ [(now, k)] }

/-- A request that an engine makes in one step finds its controller taken. -/
def noteBusy (s : State) (p : Nat) (k : Bool × Nat × Nat) : State := s.modPch p (Pch.noted s.cycle k)

end Sys2Proof.Machine
end

