-- ==== Sys2Proof/Machine/Memory.lean ====
section
/-! DEFINITION. A memory as a list of bytes by address in canonical form: addresses rise strictly and no byte listed is
zero, which is what an unlisted address reads as (notes/assumptions/5.md). -/

namespace Sys2Proof.Machine

/-- The byte at an address. -/
def memGet : List Host.Cell → Nat → Byte
  | [], _ => 0
  | (a, b) :: t, x => if x = a then b else memGet t x

/-- A memory with one byte written. -/
def memSet : List Host.Cell → Nat → Byte → List Host.Cell
  | [], x, v => if v = 0 then [] else [(x, v)]
  | (a, b) :: t, x, v =>
    if x < a then (if v = 0 then (a, b) :: t else (x, v) :: (a, b) :: t)
    else if x = a then (if v = 0 then t else (x, v) :: t)
    else (a, b) :: memSet t x v

/-- Every address of the memory is above a bound. -/
def memAbove (lo : Nat) : List Host.Cell → Bool
  | [] => true
  | (a, b) :: t => lo ≤ a && b != 0 && memAbove (a + 1) t

/-- The canonical form. -/
def memWf (m : List Host.Cell) : Bool := memAbove 0 m

/-- The n bytes from an address on. -/
def memRead (m : List Host.Cell) : Nat → Nat → List Byte
  | _, 0 => []
  | a, n + 1 => memGet m a :: memRead m (a + 1) n

/-- A memory with bytes written from an address on. -/
def memWrite (m : List Host.Cell) : Nat → List Byte → List Host.Cell
  | _, [] => m
  | a, b :: bs => memWrite (memSet m a b) (a + 1) bs

/-- A memory with n bytes from an address on made zero. -/
def memClear (m : List Host.Cell) (a n : Nat) : List Host.Cell := m.filter fun c => !(a ≤ c.1 && c.1 < a + n)

/-- The little-endian number of n bytes from an address on (00 R3). -/
def memNat (m : List Host.Cell) (a n : Nat) : Nat := natOfBytes (memRead m a n)

end Sys2Proof.Machine
end

