-- ==== Sys2Proof/Machine/Ops.lean ====
section
/-! DEFINITION. The named operations over registers, threads, memories and translation, and what a fault does to the
thread that raises it: the one operation of taking a fault, and the return from it. -/

namespace Sys2Proof.Machine

/-! ## Names -/

/-- The hand of a thread. -/
def handOf (k : ThreadKey) : HandKey := ⟨k.team, k.hand⟩
/-- The core a team runs on. -/
def coreOf (t : TeamId) : CoreId := ⟨t.die, t.core⟩
/-- The package-wide number of a core (02 R16). -/
def coreNo (c : CoreId) : Nat := 64 * c.die + c.core
/-- The thread of a hand's lane. -/
def threadOf (h : HandKey) (lane : Nat) : ThreadKey := ⟨h.team, h.hand, lane⟩

/-- The lanes of a mask below a width, ascending. -/
def lanesOf (m : BitVec 64) (w : Nat) : List Nat := (List.range w).filter fun i => m.getLsbD i
/-- The mask of a list of lanes. -/
def maskOf (ls : List Nat) : BitVec 64 := ls.foldl (fun m i => m ||| BitVec.twoPow 64 i) 0

/-! ## Registers (03 R40, R50) -/

/-- A register or pair: register 0 and the pair 0 read as zero; a 32-bit register is zero-extended. -/
def readReg (t : Thread) (r : BitVec 8) (pair : Bool) : Dword :=
  if r = 0 then 0
  else if pair then t.regs.getD (r.toNat + 1) 0 ++ t.regs.getD r.toNat 0
  else (t.regs.getD r.toNat 0).setWidth 64

/-- Writes a register or pair: a write to register 0 or pair 0 is discarded. A register that is written holds no error. -/
def writeReg (t : Thread) (r : BitVec 8) (pair : Bool) (v : Dword) : Thread :=
  if r = 0 then t
  else if pair then
    { t with
      regs := (t.regs.set r.toNat (v.extractLsb' 0 32)).set (r.toNat + 1) (v.extractLsb' 32 32)
      poison := t.poison.filter fun x => x ≠ r.toNat && x ≠ r.toNat + 1 }
  else { t with regs := t.regs.set r.toNat (v.extractLsb' 0 32), poison := t.poison.filter (· ≠ r.toNat) }

/-- Whether a register, or a half of a pair, holds an uncorrectable error (23 R405); register 0 holds none. -/
def isPoisoned (t : Thread) (r : BitVec 8) (pair : Bool) : Bool :=
  r ≠ 0 && (t.poison.contains r.toNat || (pair && t.poison.contains (r.toNat + 1)))

/-- Whether a register or pair is full; register 0 always is. -/
def isFull (t : Thread) (r : BitVec 8) (pair : Bool) : Bool :=
  r = 0 || (t.full.getD r.toNat true && (!pair || t.full.getD (r.toNat + 1) true))

/-- Marks a register, or both halves of a pair, full or empty; register 0 stays full. -/
def setFull (t : Thread) (r : BitVec 8) (pair : Bool) (b : Bool) : Thread :=
  if r = 0 then t
  else if pair then { t with full := (t.full.set r.toNat b).set (r.toNat + 1) b }
  else { t with full := t.full.set r.toNat b }

/-- A predicate; p0 is always true (05 R87). -/
def readPred (t : Thread) (p : BitVec 3) : Bool := p = 0 || t.preds.getLsbD p.toNat

/-- Writes a predicate; a write to p0 is discarded (03 R40). -/
def writePred (t : Thread) (p : BitVec 3) (b : Bool) : Thread :=
  if p = 0 then t
  else { t with preds := if b then t.preds ||| BitVec.twoPow 8 p.toNat else t.preds &&& ~~~ BitVec.twoPow 8 p.toNat }

/-- Whether a thread performs an instruction under its guard (03 R41). -/
def guardHolds (t : Thread) (g : Guard) : Bool := readPred t g.pg != g.pn

/-! ## Instruction addresses (03 R30, R46) -/

/-- The byte address of the line of an instruction address. -/
def lineAddr (pc : Dword) : Dword := pc &&& ~~~ 63#64
/-- The slot number of an instruction address. -/
def slotOf (pc : Dword) : Nat := (pc.extractLsb' 0 3).toNat
/-- The next sequential address. -/
def nextSeq (pc : Dword) : Dword := if slotOf pc < 4 then pc + 1 else lineAddr pc + 64
/-- Bits [63:57] repeat bit 56. -/
def canonical (va : Dword) : Bool := let t := va.extractLsb' 56 8; t = 0 || t = 0xFF#8
/-- The target of a J-format instruction (03 R46). -/
def relTarget (pc : Dword) (tslot : BitVec 3) (disp : Word) : Dword :=
  lineAddr (lineAddr pc + 64 * disp.signExtend 64) + tslot.setWidth 64

/-- The thread goes on to its next sequential address; it keeps its line while it stays in it. -/
def Thread.advance (t : Thread) : Thread :=
  let n := nextSeq t.pc
  { t with pc := n, line := if lineAddr n = lineAddr t.pc then t.line else none }

/-! ## Where memory lies -/

/-- The owner of a scratchpad bank (07 R138). -/
def State.bankOwner (s : State) (c : CoreId) (bank : Nat) : Option Nat := aget (bank / 4) (s.core c).bankOwner

/-- The place of a share address in a scratchpad: banks interleave at 64 bytes (07 R138). -/
def spKey (c : CoreId) (banks : List Nat) (x : Nat) : Nat :=
  let nb := max banks.length 1
  coreNo c * 2097152 + banks.getD ((x / 64) % nb) 0 * 32768 + (x / (64 * nb)) * 64 + x % 64

/-- The place of a team's scratchpad address (07 R139). -/
def Team.spKey (t : Team) (id : TeamId) (a : Nat) : Nat := Machine.spKey (coreOf id) t.banks (t.start + a)

/-- The Commons banks a function holds on a die, ascending (08 R167). -/
def Func.cmBanks (f : Func) (die : Nat) : List Nat :=
  (List.range 256).filter fun b => f.cmGroups.contains (die, b / 8)

/-- The place of a Commons address in the function's share (08 R166, R167). -/
def cmKey (f : Func) (a : Nat) : Nat :=
  let die := bits a 28 26; let x := bits a 25 0; let banks := f.cmBanks die; let nb := max banks.length 1
  die * 67108864 + banks.getD ((x / 64) % nb) 0 * 262144 + (x / (64 * nb)) * 64 + x % 64

/-- The length of the function's Commons share on a die (08 R167). -/
def cmLen (f : Func) (die : Nat) : Nat := (f.cmBanks die).length * 262144

/-! ## Scratchpad and Commons bytes -/

/-- The byte of a team's scratchpad address. -/
def State.spByte (s : State) (id : TeamId) (t : Team) (a : Nat) : Byte := memGet s.mem.sp (t.spKey id a)

/-- n bytes of a team's scratchpad. -/
def State.spBytes (s : State) (id : TeamId) (t : Team) (a n : Nat) : List Byte :=
  (List.range n).map fun i => s.spByte id t (a + i)

/-- Whether any byte of a range of a team's scratchpad is in a poisoned word (07 R141). -/
def State.spPoisoned (s : State) (id : TeamId) (t : Team) (a n : Nat) : Bool :=
  (List.range n).any fun i => s.mem.spPoison.contains (t.spKey id (a + i) / 8)

/-- Writes bytes to a team's scratchpad; poison is cleared in words that are written whole. -/
def State.spWrite (s : State) (id : TeamId) (t : Team) (a : Nat) (bs : List Byte) : State :=
  let keys := (List.range bs.length).map fun i => t.spKey id (a + i)
  let m := (keys.zip bs).foldl (fun m e => memSet m e.1 e.2) s.mem.sp
  let p := s.mem.spPoison.filter fun w => !(List.range 8).all fun j => keys.contains (8 * w + j)
  { s with mem := { s.mem with sp := m, spPoison := p } }

/-- The little-endian number of n bytes of a team's scratchpad. -/
def State.spNat (s : State) (id : TeamId) (t : Team) (a n : Nat) : Nat := natOfBytes (s.spBytes id t a n)

/-! ## Translation (14 R306 to R318) -/

/-- What a translation gives: a place, a wait, or a refusal. -/
inductive Xl where
  /-- A device physical address: key index and location (R307); and the function whose dirty bitmap a write there marks
  (14 R326). -/
  | dram (dpa : Nat) (dirty : Option Nat)
  /-- An address of another module, or of host memory, through the translation of the page at va. -/
  | fabric (node addr va : Nat)
  | host (addr va : Nat)
  /-- The dealer is asked (14 R319). -/
  | dealer (code page : Nat)
  /-- The line is not yet pulled (14 R317), a write to a migrating page is held (R316), or a write to a duplicated line
  waits for its holders (13 R283). -/
  | pulling | held | dup (holders : List Nat)
  /-- The controller does not take the request now (11 R229, 12 R254), or the owner has no route (14 R318). -/
  | busy (p : Nat) (k : Bool × Nat × Nat) | noRoute (node : Nat)
  /-- A final refusal. -/
  | final (code : Nat)
deriving DecidableEq, Repr

/-- The access an engine or a fetch makes. -/
inductive Acc where
  | read | write | fetch
deriving DecidableEq, Repr

/-- The location of a device physical address (14 R307). -/
def locOf (dpa : Nat) : Nat := dpa % 2 ^ 42

/-- The page that covers a virtual address. -/
def Func.page (f : Func) (va : Nat) : Option Page := f.pages.find? fun p => p.va ≤ va && va < p.va + p.size

/-- A key index that names no loaded slot (14 R308). -/
def noKey (s : State) (k : Nat) : Bool := k ≠ 0 && (aget k s.keySlots).isNone

/-- Whether an offset passes its segment, which is in no use or too short (14 R313). -/
def pastSegment (s : State) (fn fa : Nat) : Bool :=
  let r := ((s.func fn).segs.getD (bits fa 41 40) 0).toNat
  bits fa 41 40 = 3 || !bit r 63 || bits r 39 20 * 2097152 ≤ bits fa 39 0

/-- The second stage: one comparison per segment (14 R313), and the key slot's own check (R308). -/
def secondStage (s : State) (fn fa : Nat) (write : Bool) : Xl :=
  let seg := bits fa 41 40
  let r := ((s.func fn).segs.getD seg 0).toNat
  if pastSegment s fn fa then .final 0x11
  else if write && bit r 62 then .final 0x11
  else if noKey s (bits r 61 56) then .final 0x11
  else .dram (bits r 61 56 * 2 ^ 42 + bits r 19 0 * 2097152 + bits fa 39 0) (if seg = 0 then some fn else none)

/-- The function whose segment 0 holds a location: its dirty bitmap counts a forwarded write there (14 R326). -/
def carveOf (s : State) (loc : Nat) : Option Nat :=
  (s.funcs.find? fun e =>
    let r := (e.2.segs.getD 0 0).toNat
    bit r 63 && bits r 19 0 * 2097152 ≤ loc && loc < (bits r 19 0 + bits r 39 20) * 2097152).map (·.1)

/-- Whether a page's function addresses reach a location. -/
def pageHolds (s : State) (fn : Nat) (p : Page) (loc : Nat) : Bool :=
  match secondStage s fn p.fa false with
  | .dram d _ => locOf d ≤ loc && loc < locOf d + p.size
  | _ => false

/-- The nodes that hold copies of a location's page, which a write there waits for (13 R283). -/
def dupHolders (s : State) (loc : Nat) : List Nat :=
  s.funcs.flatMap fun f => f.2.pages.flatMap fun p =>
    if p.dup && (p.state = .resident || p.state = .pulling) && pageHolds s f.1 p loc then p.holders else []

/-- A forwarded access to this module's own memory, of a node and its function: only where the dealer has exported the
location to them, and under the export's key (14 R309); a write to a duplicated page waits for its holders (13 R283). -/
def ownExport (s : State) (node fn loc : Nat) (write : Bool) : Xl :=
  match s.fab.exports.find? fun e => e.node = node && e.func = fn && e.lo ≤ loc && loc < e.hi with
  | some e =>
    if noKey s e.key then .final 0x11
    else if write && dupHolders s loc ≠ [] then .dup (dupHolders s loc)
    else .dram (e.key * 2 ^ 42 + loc) (carveOf s loc)
  | none => .final 0x11

/-- A forwarded page: refused while the owner is lost or has another incarnation (14 R318), and where the owner has not
exported the location (R309). A location has 42 bits; the key index of the address is not the request's to name. -/
def forwardTo (s : State) (fn : Nat) (p : Page) (va : Nat) (write : Bool) : Xl :=
  let loc := (p.addr + (va - p.va)) % 2 ^ 42
  if s.fab.lost.contains p.node then .final 0x14
  else if agetD p.node p.inc s.fab.peers ≠ p.inc then .final 0x13
  else if p.node = s.fab.node then ownExport s p.node fn loc write
  else if Config.exported s.tick p.node fn loc then .fabric p.node loc p.va else .final 0x11

/-- The permission an access needs (14 R310). -/
def pageAllows (p : Page) : Acc → Bool
  | .read => p.rd
  | .write => p.wr
  | .fetch => p.ex

/-- A page of this module: a write to a duplicated one waits for its holders (13 R283). -/
def ownPage (s : State) (fn : Nat) (p : Page) (va : Nat) (write : Bool) : Xl :=
  if write && p.dup && p.holders ≠ [] then .dup p.holders else secondStage s fn (p.fa + (va - p.va)) write

/-- The first stage and what follows it (14 R310 to R318). -/
def translate (s : State) (fn va : Nat) (acc : Acc) : Xl :=
  if !canonical (BitVec.ofNat 64 va) then .final 0x10
  else match (s.func fn).page va with
  | none => .dealer 0x10 (va / 65536 * 65536)
  | some p =>
    if p.state = .invalid then .dealer 0x10 p.va
    else if p.state = .lost then .final 0x12
    else if !pageAllows p acc then .dealer 0x11 p.va
    else match p.state with
      | .resident => ownPage s fn p va (acc = .write)
      | .pulling => if p.pulled.contains (va / 128) then ownPage s fn p va (acc = .write) else .pulling
      | .remote => forwardTo s fn p va (acc = .write)
      | .host => .host (p.addr + (va - p.va)) p.va
      | .migrating oldHost =>
        if acc = .write then .held
        else if oldHost then .host (p.addr + (va - p.va)) p.va else forwardTo s fn p va false
      | .invalid => .dealer 0x10 p.va
      | .lost => .final 0x12

/-! ## Folded jobs (15 R347) -/

/-- The fold of a tree's job, if one is pending or has passed its instant. -/
def foldOf (s : State) (tr : Tree) : Option Fold :=
  (s.folds.find? fun e => e.2.cmd.root = tr.root && e.2.cmd.func = tr.func).map (·.2)

/-- Whether a job's fold has passed its instant and has not been unfolded (15 R347, R350). -/
def folded (s : State) (t : Tree) : Bool :=
  match foldOf s t with
  | some f => f.kstate ≠ 0 || f.cmd.t ≤ s.fab.time
  | none => false

/-- Whether a node's job is folded: its engines inject no packet (15 R347). -/
def nodeFolded (s : State) (fn node : Nat) : Bool :=
  s.trees.any fun e => e.2.func = fn && folded s e.2 && e.2.nodes.any fun n => n.addr = node

/-- The translation of an access that an engine or a fetch makes in one step: its controller takes it only when it may, and
a line of another module needs a route; stay: its job is folded, and none of its lines travels. -/
def reach (s : State) (fn va : Nat) (acc : Acc) (stay : Bool := false) : Xl :=
  match translate s fn va acc with
  | .dram d w =>
    let k := engineLane fn (acc = .write)
    if mayServe s (pchOf d) k then .dram d w else .busy (pchOf d) k
  | .fabric node a pva => if stay then .held else if hasRoute s node then .fabric node a pva else .noRoute node
  | x => x

/-! ## DRAM under its keys (14 R308) -/

/-- The key of a device physical address; none: key index 0. -/
def keyAt (s : State) (dpa : Nat) : Option (BitVec 512) := (aget (dpa / 2 ^ 42) s.keySlots).map (·.2)

/-- A line as it reads under a key: one written under another key reads as text that the spec does not give
(DESIGN CHOICE, notes/assumptions/103.md). -/
def rekeyLine (key : Option (BitVec 512)) (m : Memory) (line : Nat) : Memory :=
  match aget line m.dramKey with
  | none => m
  | some old =>
    if old = key then m
    else
      let x := Config.retext old key line (BitVec.ofNat 512 (memNat m.dram (64 * line) 64))
      { m with dram := memWrite m.dram (64 * line) (bytesOfNat 64 x.toNat) }

/-- The lines that a range of locations meets. -/
def dramLines (loc n : Nat) : List Nat := (List.range (if n = 0 then 0 else (loc + n + 63) / 64 - loc / 64)).map (· + loc / 64)

/-- The memory with the lines of a range as they read under the key of an address. -/
def rekey (s : State) (dpa n : Nat) : Memory := (dramLines (locOf dpa) n).foldl (rekeyLine (keyAt s dpa)) s.mem

/-- n bytes of DRAM under the key of a device physical address. -/
def dramRead (s : State) (dpa n : Nat) : List Byte := memRead (rekey s dpa n).dram (locOf dpa) n

/-- Writes bytes of DRAM under the key of a device physical address; a line written whole loses its poison. -/
def dramWrite (s : State) (dpa : Nat) (bs : List Byte) : State :=
  let loc := locOf dpa
  let m := rekey s dpa bs.length
  { s with mem := { m with
      dram := memWrite m.dram loc bs
      dramKey := (dramLines loc bs.length).foldl (fun l x => aset x (keyAt s dpa) l) m.dramKey
      dramPoison := m.dramPoison.filter fun l => !(loc ≤ l * 64 && l * 64 + 64 ≤ loc + bs.length) } }

/-! ## Virtual memory -/

/-- The pieces of a virtual range within aligned blocks of g bytes: address and length. -/
def pieces (g : Nat) : Nat → Nat → Nat → List (Nat × Nat)
  | 0, _, _ => []
  | fuel + 1, a, n => if n = 0 then [] else let k := min n (g - a % g); (a, k) :: pieces g fuel (a + k) (n - k)

/-- The bytes at a place that a translation gave. -/
def placeRead (s : State) (x : Xl) (n : Nat) : List Byte :=
  match x with
  | .dram d _ => dramRead s d n
  | .fabric node addr _ => memRead s.mem.fabric (node * 4398046511104 + addr) n
  | .host addr _ => memRead s.mem.host addr n
  | _ => List.replicate n 0

/-- Whether a range of locations meets a poisoned line (16 R369). -/
def dramPoisoned (s : State) (loc n : Nat) : Bool := s.mem.dramPoison.any fun l => l * 64 < loc + n && loc < l * 64 + 64

/-- Whether the place holds poison. -/
def placePoisoned (s : State) (x : Xl) (n : Nat) : Bool :=
  match x with
  | .dram d _ => dramPoisoned s (locOf d) n
  | _ => false

/-- Which buffer of the dirty bitmap is current: a scheduled swap counts from its instant on (14 R327). -/
def Func.dirtyNow (f : Func) (time : Nat) : Bool := if f.dirtyPend && f.swapt ≤ time then !f.dirtyCur else f.dirtyCur

/-- Marks the dirty bitmap of a function for a write of n bytes at a location: one bit for each 64 KiB (14 R326). -/
def markDirty (s : State) (fn loc n : Nat) : State :=
  let f := s.func fn
  if f.dirtyEn then
    let off := loc - bits (f.segs.getD 0 0).toNat 19 0 * 2097152
    (List.range ((off + n - 1) / 65536 + 1 - off / 65536)).foldl (fun s i =>
      let b := off / 65536 + i
      let a := (if f.dirtyNow s.fab.time then f.dirtyAddr1 else f.dirtyAddr0) + b / 8
      let v := memGet s.mem.dram a ||| BitVec.twoPow 8 (b % 8)
      { s with mem := { s.mem with dram := memSet s.mem.dram a v } }) s
  else s

/-- Writes bytes at a place that a translation gave. -/
def placeWrite (s : State) (x : Xl) (bs : List Byte) : State :=
  match x with
  | .dram d w => dramWrite (match w with
      | some fn => markDirty s fn (locOf d) bs.length
      | none => s) d bs
  | .fabric node addr _ =>
    { s with mem := { s.mem with fabric := memWrite s.mem.fabric (node * 4398046511104 + addr) bs } }
  | .host addr _ => { s with mem := { s.mem with host := memWrite s.mem.host addr bs } }
  | _ => s

/-- Whether a page's lines are forwarded to an owner. -/
def pageForwards (p : Page) : Bool :=
  match p.state with
  | .remote => true
  | .host => true
  | .migrating _ => true
  | _ => false

/-- A line at a virtual address has been read or written: a forwarded page's counter counts it (14 R315). -/
def countLine (s : State) (fn va : Nat) (write : Bool) : State :=
  match (s.func fn).page va with
  | some p =>
    if pageForwards p then
      s.modFunc fn fun f => { f with pages := f.pages.map fun q =>
        if q.va = p.va then
          if write then { q with writes := min (q.writes + 1) 65535 } else { q with reads := min (q.reads + 1) 65535 }
        else q }
    else s
  | none => s

/-- A place has been reached in one step: its controller has served one more request, or its page one more line. The lines
that one access makes in one DRAM row are one request; first: it is the access's first line. -/
def countXl (s : State) (fn va : Nat) (x : Xl) (write first : Bool) : State :=
  countLine (match x with
    | .dram d _ => if first || d % 1024 = 0 then countServed s (pchOf d) (engineLane fn write) else s
    | _ => s) fn va write

/-- The lines of a range have been read or written. -/
def countLines (s : State) (fn va n : Nat) (write : Bool) : State :=
  (pieces 128 (n / 128 + 2) va n).foldl (fun s p => countLine s fn p.1 write) s

/-- Whether a translation gave a place. -/
def Xl.isPlace : Xl → Bool
  | .dram _ _ => true
  | .fabric _ _ _ => true
  | .host _ _ => true
  | _ => false

/-- A function has read a poisoned line (16 R370). -/
def notePoison (s : State) (fn line : Nat) : State :=
  let l := s.health.poisonReads
  let now := (fn, s.fab.time)
  let l1 := if l.all fun e => e.line ≠ line then l ++ [⟨line, [now], 0⟩]
    else l.map fun e => if e.line = line && e.reqs.all (fun r => r.1 ≠ fn) then { e with reqs := e.reqs ++ [now] } else e
  { s with health := { s.health with poisonReads := l1 } }

/-- A function has read locations of which some are poisoned. -/
def notePoisonAt (s : State) (fn loc n : Nat) : State :=
  ((dramLines loc n).filter s.mem.dramPoison.contains).foldl (fun s l => notePoison s fn l) s

/-- An access waits for lines of a PULLING page: they are pulled ahead of the others (14 R317). -/
def wantLine (s : State) (fn va : Nat) : State :=
  s.modFunc fn fun f => { f with pages := f.pages.map fun p =>
    if p.state = .pulling && p.va ≤ va && va < p.va + p.size && !p.wanted.contains (va / 128) then
      { p with wanted := p.wanted ++ [va / 128] }
    else p }

/-- What an access leaves that meets no place at a virtual address: it may wait at a controller or for a line, or it has
read a poisoned line. -/
def missed (s : State) (fn va : Nat) (x : Xl) : State :=
  match x with
  | .busy p k => noteBusy s p k
  | .pulling => wantLine s fn va
  | .final 0x15 => match translate s fn va .read with
    | .dram d _ => notePoisonAt s fn (locOf d) 128
    | _ => s
  | _ => s

/-- Why an access of virtual memory has not been made: the address where it failed, and what its translation gave. -/
structure Miss where
  va : Nat
  xl : Xl
deriving DecidableEq, Repr

/-- What an access leaves that was not made. -/
def Miss.note (m : Miss) (s : State) (fn : Nat) : State := missed s fn m.va m.xl

/-- An engine's read of virtual memory in one step: the bytes, or the first place that it could not read. -/
def virtRead (s : State) (fn va n : Nat) (acc : Acc) (stay : Bool := false) : Except Miss (State × List Byte) :=
  (pieces 128 (n / 128 + 2) va n).foldl (fun r p =>
    match r with
    | .error x => .error x
    | .ok (s, bs) =>
      let x := reach s fn p.1 acc stay
      if !x.isPlace then .error ⟨p.1, x⟩
      else if placePoisoned s x p.2 then .error ⟨p.1, .final 0x15⟩
      else .ok (countXl s fn p.1 x false (p.1 = va), bs ++ placeRead s x p.2)) (.ok (s, []))

/-- An engine's write of virtual memory in one step; nothing is written where a piece has no place. -/
def virtWrite (s : State) (fn va : Nat) (bs : List Byte) (stay : Bool := false) : Except Miss State :=
  let ps := pieces 128 (bs.length / 128 + 2) va bs.length
  match ps.find? fun p => !(reach s fn p.1 .write stay).isPlace with
  | some p => .error ⟨p.1, reach s fn p.1 .write stay⟩
  | none => .ok (ps.foldl (fun s p =>
      let x := translate s fn p.1 .write
      countXl (placeWrite s x ((bs.drop (p.1 - va)).take p.2)) fn p.1 x true (p.1 = va)) s)

/-- A read of virtual memory as a number, zero where it does not translate. -/
def virtNat (s : State) (fn va n : Nat) : Nat :=
  match virtRead s fn va n .read with
  | .ok (_, bs) => natOfBytes bs
  | .error _ => 0

/-! ## Taking a fault, and the return from it (14 R319 to R325) -/

/-- The record of a thread's fault (14 R323). -/
def threadRec (s : State) (k : ThreadKey) (f : FaultInfo) (wait : Bool) (page : Nat) : FaultRec :=
  let iaddr := match aget k s.threads with
    | some t => t.pc
    | none => 0
  let quad := match aget (handOf k) s.hands with
    | some h => h.quad
    | none => 0
  match aget k.team s.teams with
  | some tm =>
    ⟨f.code, wait, 0, f.acc, if wait then 1 else 0, k.hand, k.lane, quad, k.team.core, k.team.die, 0, f.spoff, tm.index,
      f.felem, tm.node, iaddr, f.faddr, tm.func, page, tm.homeDie, tm.eff.fq, tm.eff.msix, false⟩
  | none =>
    ⟨f.code, wait, 0, f.acc, if wait then 1 else 0, k.hand, k.lane, quad, k.team.core, k.team.die, 0, f.spoff, 0,
      f.felem, 0, iaddr, f.faddr, 0, page, 0, 0, 0, false⟩

/-- A fault record that names a team and no thread; src is its SRC (14 R323). -/
def teamRec (s : State) (id : TeamId) (f : FaultInfo) (wait : Bool) (page src : Nat) : FaultRec :=
  match aget id s.teams with
  | some tm =>
    ⟨f.code, wait, src, f.acc, if wait then 1 else 0, 127, 127, 0, id.core, id.die, 0, f.spoff, tm.index, f.felem, tm.node,
      0, f.faddr, tm.func, page, tm.homeDie, tm.eff.fq, tm.eff.msix, false⟩
  | none =>
    ⟨f.code, wait, src, f.acc, if wait then 1 else 0, 127, 127, 0, id.core, id.die, 0, f.spoff, 0, f.felem, 0, 0, f.faddr,
      0, page, 0, 0, 0, false⟩

/-- The dealer is told of something. -/
def tellDealer (s : State) (n : DealerNote) : State := { s with health := { s.health with told := s.health.told ++ [n] } }

/-- The dealer is told of something, unless it has been. -/
def tellOnce (s : State) (n : DealerNote) : State := if s.health.told.contains n then s else tellDealer s n

/-- Whether a function's access at an address was refused for passing a segment's bound (14 R313). -/
def boundRefused (s : State) (fn va : Nat) : Bool :=
  match (s.func fn).page va with
  | some p => (p.state = .resident || p.state = .pulling) && pastSegment s fn (p.fa + (va - p.va))
  | none => false

/-- Sends a fault record on its way (14 R320); the dealer is told of an access that passed a segment's bound (R313). -/
def sendFault (s : State) (r : FaultRec) : State :=
  let s1 := { s with faults := { s.faults with raw := s.faults.raw ++ [r] } }
  if r.code = 0x11 && !r.wait && boundRefused s r.func r.faddr.toNat then tellDealer s1 (.bound r.func r.faddr.toNat) else s1

/-- Whether a waiting fault on a page is unresolved in a function's name. -/
def faultOpen (s : State) (fn page code src : Nat) : Bool :=
  (s.faults.raw ++ s.faults.merged).any fun r => r.wait && r.func = fn && r.page = page && r.code = code && r.src = src

/-- Whether the record that a waiting access has sent still stands for it: the dealer has not answered it, and the access
meets the same refusal at the same address (14 R319, R320). -/
def stillAsked (s : State) (fn src : Nat) (a : Option Asked) (b : Asked) : Bool := a = some b && faultOpen s fn b.page b.code src

/-- Takes lanes out of a hand's bundles. -/
def dropLanes (bs : List Bundle) (m : BitVec 64) : List Bundle :=
  (bs.map fun b => { b with lanes := b.lanes &&& ~~~ m }).filter fun b => b.lanes != 0

/-- The chain group of a team, by its queue and node (05 R109). -/
def groupOf (tm : Team) : Nat × Nat := (tm.queue * 2 ^ 64 + tm.node, tm.index / 8)

/-- A thread that waited at TBAR, LBAR or YIELD no longer counts as arrived (07 R161). -/
def withdraw (s : State) (k : ThreadKey) : State :=
  match aget k s.threads, aget k.team s.teams with
  | some t, some tm =>
    match t.run with
    | .tbar => s.modTeam k.team fun tm => { tm with arr := tm.arr - 1 }
    | .yield => s.modTeam k.team fun tm => { tm with yarr := tm.yarr - 1 }
    | .lbar => { s with groups := amod (groupOf tm) (fun g => { g with arr := g.arr - 1 }) s.groups }
    | _ => s
  | _, _ => s

/-- A fault stops the thread on the instruction at its pc: a record goes to the fault domain, and the thread no longer
issues (14 R325, 20 R392). Registers, predicates and full/empty bits stand as they are. -/
def stopThread (s : State) (k : ThreadKey) (r : FaultRec) : State :=
  let s1 := sendFault (withdraw s k) r
  let s2 := s1.modThread k fun t => { t with run := .stopped r.code, go := none, need := none, fenceAt := none, bwait := none, ask := none }
  s2.modHand (handOf k) fun h => { h with bundles := dropLanes h.bundles (BitVec.twoPow 64 k.lane) }

/-- A thread raises a fault: it stops, with its own record. -/
def takeFault (s : State) (k : ThreadKey) (f : FaultInfo) : State := stopThread s k (threadRec s k f false 0)

/-- A fault record that stops no thread (08 R169). -/
def noteFault (s : State) (k : ThreadKey) (iaddr : Dword) (f : FaultInfo) : State :=
  sendFault s { threadRec s k f false 0 with iaddr := iaddr }

/-- A thread's access waits for the dealer (14 R319): a record with WAIT = 1 goes to the fault domain. -/
def waitDealer (s : State) (k : ThreadKey) (f : FaultInfo) (page : Nat) (run : Run) : State :=
  let s1 := sendFault s (threadRec s k f true page)
  let s2 := s1.modThread k fun t => { t with run := run }
  s2.modHand (handOf k) fun h => { h with bundles := dropLanes h.bundles (BitVec.twoPow 64 k.lane) }

/-- Groups lanes by the pc of their threads, in ascending order of lowest lane. -/
def groupByPc (s : State) (h : HandKey) (age : Nat) (ls : List Nat) : List Bundle :=
  ls.foldl (fun bs l =>
    match aget (threadOf h l) s.threads with
    | none => bs
    | some t =>
      if bs.any fun b => b.pc = t.pc then
        bs.map fun b => if b.pc = t.pc then { b with lanes := b.lanes ||| BitVec.twoPow 64 l } else b
      else bs ++ [⟨t.pc, BitVec.twoPow 64 l, age⟩]) []

/-- Whether every thread of a bundle is ready. -/
def allReady (s : State) (h : HandKey) (m : BitVec 64) : Bool := (List.range 64).all fun l => !m.getLsbD l ||
  (match aget (threadOf h l) s.threads with
    | some t => t.run = .ready
    | none => false)

/-- A bundle of threads that become ready joins a bundle of the hand that became ready at the same address in the same
clock, or stands beside the others (04 R68). -/
def joinClock (s : State) (h : HandKey) (bs : List Bundle) (b : Bundle) : List Bundle :=
  let same (x : Bundle) : Bool := x.pc = b.pc && x.age = b.age && allReady s h x.lanes
  match bs.findIdx? same with
  | some i => bs.modify i fun x => { x with lanes := x.lanes ||| b.lanes }
  | none => bs ++ [b]

/-- Threads of a hand become ready in one clock: those at one address form a bundle of their own, which other threads that
become ready there in the same clock join (04 R68). -/
def wakeLanes (s : State) (h : HandKey) (ls : List Nat) : State :=
  let s1 := ls.foldl (fun s l => s.modThread (threadOf h l) fun t => { t with run := .ready }) s
  s1.modHand h fun hd =>
    { hd with bundles := (groupByPc s1 h s1.cycle ls).foldl (joinClock s1 h) (dropLanes hd.bundles (maskOf ls)) }

/-- The return from a fault (14 R325): a stopped thread restarts at the instruction it stopped on, or after it. -/
def resumeThread (s : State) (k : ThreadKey) (next : Bool) : State :=
  match aget k s.threads with
  | some t =>
    match t.run with
    | .stopped _ =>
      let s1 := if next then s.modThread k Thread.advance else s
      wakeLanes s1 (handOf k) [k.lane]
    | _ => s
  | none => s

/-- Whether a thread may issue. -/
def Run.issuable : Run → Bool
  | .ready => true
  | .stalled => true
  | .regs _ _ => true
  | .blocked _ => true
  | _ => false

/-- Whether a thread still waits to issue its instruction at all. -/
def Run.unissued : Run → Bool
  | .stalled => true
  | .regs _ _ => true
  | _ => false

/-- Whether a thread has ended or stopped: it is in no JTAB group any more (04 R79). -/
def Run.gone : Run → Bool
  | .exited => true
  | .stopped _ => true
  | _ => false

/-- Whether some thread among the lanes given did more than wait. -/
def someIssued (s : State) (h : HandKey) (lanes : BitVec 64) : Bool :=
  (List.range 64).any fun l => lanes.getLsbD l &&
    (match aget (threadOf h l) s.threads with
      | some t => !t.run.unissued
      | none => false)

/-- The JTAB groups of a hand that are still to be served (04 R79): those in which a thread neither ended nor stopped. -/
def liveServe (s : State) (h : HandKey) (hd : Hand) : List (BitVec 64) :=
  hd.serve.filter fun g => (List.range 64).any fun l => g.getLsbD l &&
    (match aget (threadOf h l) s.threads with
      | some t => !t.run.gone
      | none => false)

/-- The lanes given whose threads satisfy a condition. -/
def lanesWhere (s : State) (h : HandKey) (lanes : BitVec 64) (p : Run → Bool) : List Nat :=
  (List.range 64).filter fun l => lanes.getLsbD l &&
    (match aget (threadOf h l) s.threads with
      | some t => p t.run
      | none => false)

/-- The threads of the bundle in focus that may go on split by address into bundles (04 R68), the ready apart from the
waiting; nothing is in focus. -/
def splitBundle (s : State) (h : HandKey) (lanes : BitVec 64) : State :=
  let ready := lanesWhere s h lanes (· = .ready)
  let waits := lanesWhere s h lanes fun r => r.issuable && r ≠ .ready
  { s.modHand h fun hd =>
      { hd with bundles := dropLanes hd.bundles lanes ++ groupByPc s h s.cycle ready ++ groupByPc s h s.cycle waits }
    with focus := .none }

/-- Clocks of the datapath that a bundle takes (04 R68). -/
def bundleClocks (lanes : BitVec 64) : Nat :=
  if lanes.extractLsb' 0 32 ≠ 0#32 && lanes.extractLsb' 32 32 ≠ 0#32 then 2 else 1

/-- The issue of a bundle counts at its quadrant: the clock, and issue time for its node (04 R70, 15 R335). -/
def chargeIssue (s : State) (h : HandKey) (lanes : BitVec 64) : State :=
  match aget h s.hands, aget h.team s.teams with
  | some hd, some tm =>
    let q : QuadId := ⟨h.team.die, h.team.core, hd.quad⟩
    let u := agetD q ⟨0, []⟩ s.issue
    let n := (tm.queue, tm.node)
    { s with issue := aset q ⟨s.cycle, aset n (agetD n 0 u.used + bundleClocks lanes) u.used⟩ s.issue }
  | _, _ => s

/-- A bundle has issued: its issue time counts, the next JTAB group may be served (04 R79), and its threads split. A try
that only finds that it has to wait is no issue. -/
def finishIssue (s : State) (h : HandKey) (lanes : BitVec 64) : State :=
  let s1 := if someIssued s h lanes then chargeIssue s h lanes else s
  splitBundle (s1.modHand h fun hd => { hd with serve := match liveServe s h hd with
    | [] => []
    | g :: r => if someIssued s h (g &&& lanes) then r else g :: r }) h lanes

end Sys2Proof.Machine
end

