-- ==== Sys2Proof/Machine/Operands.lean ====
section
/-! DEFINITION. Operand forms, and how the threads of a bundle perform an instruction together: guards (03 R41), X-format
instructions (R42), immediates (R44), source modifiers (R47 to R49), full and empty registers (R50) and the rendezvous
(04 R73, R74). -/

namespace Sys2Proof.Machine

/-- A source operand: a register with its modifier and trap-on-empty bit, or a value. -/
inductive Opnd where
  | reg (r : BitVec 8) (pair : Bool) (mod : Modifier) (fe : Bool)
  | val (v : Dword)
deriving DecidableEq, Repr

/-- Source A, and the other sources with a modifier. -/
def srcOp (a : Src) (pair : Bool) : Opnd := .reg a.reg pair a.mod a.fe
/-- A source without a modifier. -/
def csrcOp (c : CSrc) (pair : Bool) : Opnd := .reg c.reg pair .none c.fe
/-- Source B of the integer and cross-lane blocks: IMM16 is sign-extended to N bits (03 R44). -/
def srcbOp (b : SrcB) (pair : Bool) : Opnd :=
  match b with
  | .reg s => srcOp s pair
  | .imm i => .val (if pair then i.signExtend 64 else (i.signExtend 32).setWidth 64)
/-- Source B of the floating-point block: IMM16 is the high half of an FP32 value (03 R44). -/
def srcbFp (b : SrcB) : Opnd :=
  match b with
  | .reg s => srcOp s false
  | .imm i => .val ((i ++ 0#16).setWidth 64)
/-- An operand the instruction does not use. -/
def noOp : Opnd := .val 0

/-- The values of sources A, B and C in a lane. -/
structure Vals where
  a : Dword
  b : Dword
  c : Dword
deriving DecidableEq, Repr

/-- What an instruction names: its guard, its sources and its destinations. -/
structure Shape where
  g : Guard
  a : Opnd
  b : Opnd
  c : Opnd
  dsts : List (BitVec 8 × Bool)

/-- What a lane's part comes to. -/
inductive LaneOut where
  /-- Performed: the thread goes on to its next sequential address. -/
  | done (s : State)
  /-- Performed, and the thread stands where the state says. -/
  | left (s : State)
  /-- Its condition is not met: it stays at the instruction. -/
  | wait (s : State)
  | fault (f : FaultInfo)
  /-- A fault, after an effect that stands. -/
  | faultIn (s : State) (f : FaultInfo)

/-! ## Source lanes (03 R49) -/

/-- The lane whose register lane L reads under a modifier. -/
def srcLane (m : Modifier) (w l : Nat) : Nat :=
  match m with
  | .none => l
  | .rot seg dist =>
    let s := segSize seg w; let b := l - l % s
    b + ((((l - b : Nat) : Int) + dist.toInt) % (s : Int)).toNat
  | .bfly seg k => let s := segSize seg w; let b := l - l % s; b + ((l - b) ^^^ k.toNat)
  | .bcst seg k => let s := segSize seg w; let b := l - l % s; b + k.toNat

/-- The modifier of an operand. -/
def Opnd.mod : Opnd → Modifier
  | .reg _ _ m _ => m
  | .val _ => .none

/-- Whether a shape is a rendezvous by a source modifier (03 R49). -/
def Shape.modified (sh : Shape) : Bool := sh.a.mod != .none || sh.b.mod != .none || sh.c.mod != .none

/-- The thread of a hand's lane, if there is one. -/
def State.lane (s : State) (h : HandKey) (l : Nat) : Option Thread := aget (threadOf h l) s.threads

/-- Whether an operand's source lane is among the performing lanes. -/
def Opnd.active (o : Opnd) (w : Nat) (act : List Nat) (l : Nat) : Bool :=
  match o with
  | .val _ => true
  | .reg _ _ .none _ => true
  | .reg _ _ m _ => act.contains (srcLane m w l)

/-- The value of an operand in a lane: its source lane's register. -/
def Opnd.value (o : Opnd) (s : State) (h : HandKey) (w l : Nat) : Dword :=
  match o with
  | .val v => v
  | .reg r pair m _ =>
    match s.lane h (srcLane m w l) with
    | some t => readReg t r pair
    | none => 0

/-- Whether an operand is full in its source lane. -/
def Opnd.full (o : Opnd) (s : State) (h : HandKey) (w l : Nat) : Bool :=
  match o with
  | .val _ => true
  | .reg r pair m _ =>
    match s.lane h (srcLane m w l) with
    | some t => isFull t r pair
    | none => true

/-- Whether an operand holds an uncorrectable error in its source lane (23 R405). -/
def Opnd.poisoned (o : Opnd) (s : State) (h : HandKey) (w l : Nat) : Bool :=
  match o with
  | .val _ => false
  | .reg r pair m _ =>
    match s.lane h (srcLane m w l) with
    | some t => isPoisoned t r pair
    | none => false

/-- Whether an operand traps when empty. -/
def Opnd.traps : Opnd → Bool
  | .reg _ _ _ fe => fe
  | .val _ => false

/-- The registers that an instruction names in a thread: its sources and its destinations. -/
def Shape.regs (sh : Shape) : List (BitVec 8 × Bool) :=
  ([sh.a, sh.b, sh.c].filterMap fun o => match o with
    | .reg r pair _ _ => some (r, pair)
    | .val _ => none) ++ sh.dsts

/-- What the full/empty bits make of a lane (03 R50). -/
inductive Ready where
  | ok (v : Vals)
  | wait
  /-- EMPTY_READ, or POISON of a register that it reads (23 R405). -/
  | trap (code : Nat)
deriving DecidableEq, Repr

/-- The code of a lane that traps. -/
def Ready.code : Ready → Option Nat
  | .trap c => some c
  | _ => none

/-- The lanes of a list that trap, with their codes. -/
def trapLanes (ready : Nat → Ready) (ls : List Nat) : List (Nat × Nat) :=
  ls.filterMap fun l => (ready l).code.map fun c => (l, c)

/-- Reads a lane's operands, all before any result is written. -/
def readOpnds (s : State) (h : HandKey) (w : Nat) (sh : Shape) (l : Nat) : Ready :=
  let e := fun (o : Opnd) => !o.full s h w l
  if (e sh.a && sh.a.traps) || (e sh.b && sh.b.traps) || (e sh.c && sh.c.traps) then .trap 0x05
  else if e sh.a || e sh.b || e sh.c then .wait
  else
    let dstFull := match s.lane h l with
      | some t => sh.dsts.all fun d => isFull t d.1 d.2
      | none => true
    if !dstFull then .wait
    else if sh.a.poisoned s h w l || sh.b.poisoned s h w l || sh.c.poisoned s h w l then .trap 0x15
    else .ok ⟨sh.a.value s h w l, sh.b.value s h w l, sh.c.value s h w l⟩

/-! ## Moving threads on -/

/-- The thread goes on: ready, at its next sequential address. -/
def goOn (s : State) (k : ThreadKey) : State := s.modThread k fun t => { t.advance with run := .ready }

/-- The thread stays at its instruction, and its run state says on what it waits. -/
def blockOn (s : State) (k : ThreadKey) (p : Park) : State := s.modThread k fun t => { t with run := .blocked p }

/-- The thread waits until the registers of lane l of its hand that a shape names are full (03 R50). -/
def waitRegs (s : State) (k : ThreadKey) (l : Nat) (sh : Shape) : State :=
  s.modThread k fun t => { t with run := .regs l sh.regs }

/-- The thread stays at its instruction. -/
def stallThread (s : State) (k : ThreadKey) : State :=
  s.modThread k fun t => if t.run = .ready then { t with run := .stalled } else t

/-- Applies a lane's outcome. -/
def applyOut (k : ThreadKey) (s : State) : LaneOut → State
  | .done s' => goOn s' k
  | .left s' => s'
  | .wait s' => stallThread s' k
  | .fault f => takeFault s k f
  | .faultIn s' f => takeFault s' k f

/-! ## The rendezvous (04 R73, R74) -/

/-- Where a thread waits, as the mismatch check sees it. -/
def clashes (pc : Dword) (m : BitVec 64) (t : Thread) : Bool :=
  match t.run with
  | .rendezvous m' => !(t.pc = pc && m' = m)
  | .tbar => true
  | .lbar => true
  | .yield => true
  | _ => false

/-- The lanes of a hand that raise XLANE_MISMATCH: of each waiting lane whose set holds a clash, every waiting lane
involved. -/
def mismatched (s : State) (h : HandKey) : List Nat :=
  let ls := (List.range 64).filterMap fun l => (s.lane h l).map fun t => (l, t)
  let bad := ls.foldl (fun acc e =>
    match e.2.run with
    | .rendezvous m =>
      let set := ls.filter fun x => m.getLsbD x.1 && x.2.run ≠ .exited
      let cl := set.filter fun x => clashes e.2.pc m x.2
      if cl = [] then acc
      else acc ++ (set.filter fun x => x.2.run = .rendezvous m && x.2.pc = e.2.pc).map (·.1) ++ cl.map (·.1)
    | _ => acc) []
  (List.range 64).filter fun l => bad.contains l

/-- Raises XLANE_MISMATCH (0x0F) in every lane that R74 names, in ascending lane order. -/
def checkMismatch (s : State) (h : HandKey) : State :=
  (mismatched s h).foldl (fun s l => takeFault s (threadOf h l) { code := 0x0F }) s

/-- A thread arrives at a rendezvous instruction over the mask m. -/
def arriveLane (s : State) (h : HandKey) (m : BitVec 64) (l : Nat) : State :=
  if m.getLsbD l then s.modThread (threadOf h l) fun t => { t with run := .rendezvous m }
  else takeFault s (threadOf h l) { code := 0x0F }

/-- The threads of a bundle arrive at a rendezvous instruction other than JOIN, each over its %pmask. -/
def arriveAll (s : State) (h : HandKey) (ls : List Nat) : State :=
  checkMismatch (ls.foldl (fun s l =>
    match s.lane h l with
    | some t => arriveLane s h t.pmask l
    | none => s) s) h

/-- Whether a thread stands at a rendezvous. -/
def Run.arrived : Run → Bool
  | .rendezvous _ => true
  | .formed _ => true
  | _ => false

/-- The members of the rendezvous that a waiting thread belongs to, once it is complete. One that has formed and waits is
complete again when a member that a fault stopped meanwhile has come back to it (20 R392). -/
def formedSet (s : State) (h : HandKey) (l : Nat) : Option (List Nat) :=
  match s.lane h l with
  | some t =>
    match t.run with
    | .rendezvous m =>
      let set := (List.range 64).filter fun x => m.getLsbD x &&
        (match s.lane h x with
          | some u => u.run ≠ .exited
          | none => false)
      if set.all fun x => (match s.lane h x with
          | some u => u.run = .rendezvous m && u.pc = t.pc
          | none => false)
      then some set else none
    | .formed m =>
      let set := (List.range 64).filter fun x => m.getLsbD x &&
        (match s.lane h x with
          | some u => u.run ≠ .exited
          | none => false)
      if set.all fun x => (match s.lane h x with
          | some u => u.run.arrived && u.pc = t.pc
          | none => false)
      then some set else none
    | _ => none
  | none => none

/-! ## Performing an instruction -/

/-- The bundle in focus, with its team and lanes. -/
def inFocus (s : State) : Option (HandKey × Team × List Nat) :=
  match s.focus with
  | .bundle h m =>
    match aget h.team s.teams with
    | some tm => some (h, tm, lanesOf m tm.w)
    | none => none
  | _ => none

/-- The lanes that perform under the guard. -/
def performing (s : State) (h : HandKey) (g : Guard) (ls : List Nat) : List Nat :=
  ls.filter fun l => match s.lane h l with
    | some t => guardHolds t g
    | none => false

/-- Whether the lanes of a bundle stand in a rendezvous that has formed. -/
def allArrived (s : State) (h : HandKey) (ls : List Nat) : Bool :=
  ls.all fun l => match s.lane h l with
    | some t => t.run.arrived
    | none => false

/-- The bundle's instruction has been issued. -/
def endIssue (s : State) (h : HandKey) (ls : List Nat) : State := finishIssue s h (maskOf ls)

/-- The performing lanes whose modified sources are all active (03 R49). A source lane counts as active if its guard is
true, though it may itself lose its part by an inactive source (DEDUCED, notes/assumptions/94.md). -/
def activeLanes (sh : Shape) (w : Nat) (act ls : List Nat) : List Nat :=
  ls.filter fun l => sh.a.active w act l && sh.b.active w act l && sh.c.active w act l

/-- One lane's part of an instruction that is no rendezvous. -/
def runLane (h : HandKey) (w : Nat) (sh : Shape) (s0 : State) (perf : List Nat)
    (body : ThreadKey → Vals → State → LaneOut) (s : State) (l : Nat) : State :=
  let k := threadOf h l
  if perf.contains l then
    match readOpnds s0 h w sh l with
    | .trap c => takeFault s k { code := c }
    | .wait => waitRegs s k l sh
    | .ok v => applyOut k s (body k v s)
  else goOn s k

/-- The lanes of a formed rendezvous that fault before it is performed: those that trap, and those whose own checks
refuse (04 R73). -/
def rdvFaults (h : HandKey) (w : Nat) (sh : Shape) (s0 : State) (perf : List Nat)
    (body : ThreadKey → Vals → State → LaneOut) : List (Nat × FaultInfo) :=
  perf.filterMap fun l =>
    match readOpnds s0 h w sh l with
    | .trap c => some (l, { code := c })
    | .wait => none
    | .ok v => match body (threadOf h l) v s0 with
      | .fault f => some (l, f)
      | .faultIn _ f => some (l, f)
      | _ => none

/-- The state after the waits of a rendezvous whose lanes cannot all perform yet; none when every lane can. -/
def rdvWaits (h : HandKey) (w : Nat) (sh : Shape) (s0 : State) (perf : List Nat)
    (body : ThreadKey → Vals → State → LaneOut) : Option State :=
  perf.foldl (fun r l =>
    match readOpnds s0 h w sh l with
    | .wait => some (r.getD s0)
    | .trap _ => r
    | .ok v => match body (threadOf h l) v (r.getD s0) with
      | .wait s' => some s'
      | _ => r) none

/-- A rendezvous has formed, and a member of it waits: its lanes keep their places, and perform together later. -/
def waitFormed (s : State) (h : HandKey) (ls : List Nat) : State :=
  { ls.foldl (fun s l => s.modThread (threadOf h l) fun t => { t with run := .formed (maskOf ls) }) s with focus := .none }

/-- A lane-by-lane instruction over the bundle in focus. With a modifier it is a rendezvous (03 R49): its threads first
arrive. Once the rendezvous has formed, the checks of every member are made (04 R73); a member that fails one stops, and
counts as an inactive lane; the others perform together, as soon as none of them waits. -/
def runLanes (s : State) (sh : Shape) (body : ThreadKey → Vals → State → LaneOut) : State :=
  match inFocus s with
  | none => { s with focus := .none }
  | some (h, tm, ls) =>
    if sh.modified then
      if !allArrived s h ls then endIssue (arriveAll s h ls) h ls
      else
        let act := performing s h sh.g ls
        let bad := rdvFaults h tm.w sh s (activeLanes sh tm.w act act) body
        let act' := act.filter fun l => !(bad.map (·.1)).contains l
        let perf := activeLanes sh tm.w act' act'
        let s1 := bad.foldl (fun s e => takeFault s (threadOf h e.1) e.2) s
        let rest := ls.filter fun l => !(bad.map (·.1)).contains l
        match rdvWaits h tm.w sh s1 perf body with
        | some s2 => waitFormed s2 h rest
        | none => endIssue (rest.foldl (runLane h tm.w sh s1 perf body) s1) h ls
    else
      let perf := performing s h sh.g ls
      endIssue (ls.foldl (runLane h tm.w sh s perf body) s) h ls

/-- The value of a lane's B once it is full; before that, a number that no lane has. -/
def indexSeen (s : State) (h : HandKey) (w : Nat) (sh : Shape) (l : Nat) : Dword :=
  if sh.b.full s h w l then sh.b.value s h w l else 0xFFFFFFFF

/-- Whether source A is full in the lane that a lane reads, if it reads one. -/
def sourceFull (s : State) (h : HandKey) (w : Nat) (sh : Shape) (src : Option Nat) (l : Nat) : Bool :=
  match src with
  | none => true
  | some i => match sh.a with
    | .reg r pair .none _ => (match s.lane h i with
      | some t => isFull t r pair
      | none => true)
    | o => o.full s h w l

/-- Whether source A holds an uncorrectable error in the lane that a lane reads, if it reads one (23 R405). -/
def sourcePoisoned (s : State) (h : HandKey) (w : Nat) (sh : Shape) (src : Option Nat) (l : Nat) : Bool :=
  match src with
  | none => false
  | some i => match sh.a with
    | .reg r pair .none _ => (match s.lane h i with
      | some t => isPoisoned t r pair
      | none => false)
    | o => o.poisoned s h w l

/-- Whether a lane of a cross-lane rendezvous can read its operands: its own B, C and destinations, and source A of the
lane it reads (05 R107); an empty source with its FE bit set comes before every wait (03 R50). -/
def crossReady (s : State) (h : HandKey) (w : Nat) (sh : Shape) (src : Option Nat) (l : Nat) : Ready :=
  let full := sourceFull s h w sh src l
  if !full && sh.a.traps then .trap 0x05
  else match readOpnds s h w { sh with a := noOp } l with
    | .ok v => if full && sourcePoisoned s h w sh src l then .trap 0x15 else if full then .ok { v with a := sh.a.value s h w l } else .wait
    | r => r

/-- A cross-lane instruction (05 R107): a rendezvous in which one function of the performing lanes' values gives every
change, and all changes take effect together. src names the lane whose source A a lane reads, among the performing lanes
and by its own B. -/
def runCross (s : State) (sh : Shape) (src : List Nat → Nat → Dword → Option Nat)
    (f : HandKey → Nat → List (Nat × Vals) → List (Nat × (Thread → Thread))) : State :=
  match inFocus s with
  | none => { s with focus := .none }
  | some (h, tm, ls) =>
    if !allArrived s h ls then endIssue (arriveAll s h ls) h ls
    else
      let act := performing s h sh.g ls
      let perf := activeLanes sh tm.w act act
      let ready := fun (p : List Nat) l => crossReady s h tm.w sh (src p l (indexSeen s h tm.w sh l)) l
      let bad := trapLanes (ready perf) perf
      let act' := act.filter fun l => !(bad.map (·.1)).contains l
      let perf' := activeLanes sh tm.w act' act'
      let s1 := bad.foldl (fun s e => takeFault s (threadOf h e.1) { code := e.2 }) s
      let rest := ls.filter fun l => !(bad.map (·.1)).contains l
      if perf'.any fun l => ready perf' l = .wait then waitFormed s1 h rest
      else
        let p := perf'.filterMap fun l => match ready perf' l with
          | .ok v => some (l, v)
          | _ => none
        let s2 := (f h tm.w p).foldl (fun s e => s.modThread (threadOf h e.1) e.2) s1
        endIssue (rest.foldl (fun s l => goOn s (threadOf h l)) s2) h ls

/-- The threads of a bundle wait as its lowest performing lane does. -/
def waitTogether (s : State) (k : ThreadKey) (h : HandKey) (ls : List Nat) : State :=
  match aget k s.threads with
  | some t => ls.foldl (fun s l => s.modThread (threadOf h l) fun u => { u with run := t.run }) s
  | none => s

/-- An X-format instruction (03 R42): it acts once for the bundle, from its lowest performing lane. A fault is that
lane's alone; while it waits the performing lanes stay together, and the others go on (R41). -/
def runBundle (s : State) (sh : Shape) (body : ThreadKey → Vals → State → LaneOut) : State :=
  match inFocus s with
  | none => { s with focus := .none }
  | some (h, tm, ls) =>
    match performing s h sh.g ls with
    | [] => endIssue (ls.foldl (fun s l => goOn s (threadOf h l)) s) h ls
    | l :: perf =>
      let k := threadOf h l
      let others := fun (s : State) => (ls.filter (· ≠ l)).foldl (fun s l => goOn s (threadOf h l)) s
      let pass := fun (s : State) => (ls.filter fun x => !(l :: perf).contains x).foldl (fun s l => goOn s (threadOf h l)) s
      match readOpnds s h tm.w sh l with
      | .trap c => endIssue (others (takeFault s k { code := c })) h ls
      | .wait => endIssue (pass (waitTogether (waitRegs s k l sh) k h perf)) h ls
      | .ok v =>
        match body k v s with
        | .done s' => endIssue (others (goOn s' k)) h ls
        | .left s' => endIssue (others s') h ls
        | .wait s' => endIssue (pass (waitTogether (stallThread s' k) k h perf)) h ls
        | .fault f => endIssue (others (takeFault s k f)) h ls
        | .faultIn s' f => endIssue (others (takeFault s' k f)) h ls

/-! ## Results -/

/-- Writes a result to a lane's destination. -/
def putReg (d : BitVec 8) (pair : Bool) (v : Dword) (k : ThreadKey) (s : State) : LaneOut :=
  .done (s.modThread k fun t => writeReg t d pair v)

/-- An N-bit operation on one value: 32 bits, or 64 under W64 (03 R40). -/
def wide1 (w : Bool) (f : (n : Nat) → BitVec n → BitVec n) (x : Dword) : Dword :=
  if w then f 64 x else (f 32 (x.setWidth 32)).setWidth 64

/-- An N-bit operation on two values. -/
def wide2 (w : Bool) (f : (n : Nat) → BitVec n → BitVec n → BitVec n) (x y : Dword) : Dword :=
  if w then f 64 x y else (f 32 (x.setWidth 32) (y.setWidth 32)).setWidth 64

/-- An N-bit operation on three values. -/
def wide3 (w : Bool) (f : (n : Nat) → BitVec n → BitVec n → BitVec n → BitVec n) (x y z : Dword) : Dword :=
  if w then f 64 x y z else (f 32 (x.setWidth 32) (y.setWidth 32) (z.setWidth 32)).setWidth 64

/-- vD := f(vA). -/
def alu1 (s : State) (g : Guard) (w : Bool) (d : BitVec 8) (a : Opnd) (f : Dword → Dword) : State :=
  runLanes s ⟨g, a, noOp, noOp, [(d, w)]⟩ fun k v s => putReg d w (f v.a) k s

/-- vD := f(vA, b). -/
def alu2 (s : State) (g : Guard) (w : Bool) (d : BitVec 8) (a b : Opnd) (f : Dword → Dword → Dword) : State :=
  runLanes s ⟨g, a, b, noOp, [(d, w)]⟩ fun k v s => putReg d w (f v.a v.b) k s

/-- vD := f(vA, b, vC). -/
def alu3 (s : State) (g : Guard) (w : Bool) (d : BitVec 8) (a b c : Opnd) (f : Dword → Dword → Dword → Dword) : State :=
  runLanes s ⟨g, a, b, c, [(d, w)]⟩ fun k v s => putReg d w (f v.a v.b v.c) k s

/-- p[D] := f(vA, b). -/
def cmp2 (s : State) (g : Guard) (d : BitVec 3) (a b : Opnd) (f : Dword → Dword → Bool) : State :=
  runLanes s ⟨g, a, b, noOp, []⟩ fun k v s => .done (s.modThread k fun t => writePred t d (f v.a v.b))

/-- A change of the thread alone, without register operands. -/
def threadOp (s : State) (g : Guard) (dsts : List (BitVec 8 × Bool)) (f : Thread → Thread) : State :=
  runLanes s ⟨g, noOp, noOp, noOp, dsts⟩ fun k _ s => .done (s.modThread k f)

end Sys2Proof.Machine
end

