-- ==== Sys2Proof/Machine/Access.lean ====
section
/-! DEFINITION. Scratchpad and Commons accesses of threads: checks at issue (07 R140, 08 R167), the hand's store queue and
what its loads see (13 R274 to R279), the deterministic store buffer (R289, R290), and the arbiters' acceptance. -/

namespace Sys2Proof.Machine

/-! ## Checks at issue -/

/-- Bounds, then alignment, of a scratchpad access of n bytes (07 R140); acc: 1 read, 2 write, 8 read-modify-write. -/
def spCheck (tm : Team) (a n al acc : Nat) : Option FaultInfo :=
  if tm.scratch < a + n then some { code := 0x08, faddr := BitVec.ofNat 64 a, acc := acc }
  else if a % al ≠ 0 then some { code := 0x09, faddr := BitVec.ofNat 64 a, acc := acc }
  else none

/-- Bounds, then alignment, of a Commons access (08 R166, R167). -/
def cmCheck (f : Func) (a n acc : Nat) : Option FaultInfo :=
  if bits a 31 29 ≠ 0 || cmLen f (bits a 28 26) < bits a 25 0 + n then
    some { code := 0x08, faddr := BitVec.ofNat 64 a, acc := acc }
  else if a % n ≠ 0 then some { code := 0x09, faddr := BitVec.ofNat 64 a, acc := acc }
  else none

/-- The address of the M format: vA + OFF32 modulo 2^32 (03 R45). -/
def memAddr (a : Dword) (off : Word) : Nat := ((a.setWidth 32 : Word) + off).toNat

def sizeBytes : Size → Nat
  | .b => 1
  | .h => 2
  | .w => 4
  | .d => 8

/-- A loaded value, zero- or sign-extended (07 R144). -/
def extendLoad (n : Nat) (sgn : Bool) (v : Nat) : Dword :=
  if sgn && 2 ^ (8 * n - 1) ≤ v then ((BitVec.ofInt 32 ((v : Int) - 2 ^ (8 * n))).setWidth 64) else BitVec.ofNat 64 v

/-! ## Holds of matrix instructions (10 R214) -/

/-- Whether a range of a team's scratchpad is held; dst: by a destination. -/
def heldRange (s : State) (id : TeamId) (a n : Nat) (dst : Bool) : Bool :=
  s.holds.any fun h => h.2.team = id && (!dst || h.2.dst) && h.2.lo < a + n && a < h.2.lo + h.2.len

/-! ## Commons bytes -/

/-- The owner function's record of a team. -/
def teamFunc (s : State) (tm : Team) : Func := s.func tm.func

def cmBytes (s : State) (f : Func) (a n : Nat) : List Byte := (List.range n).map fun i => memGet s.mem.cm (cmKey f (a + i))

/-- Whether an aligned access meets a poisoned word of 8 bytes (08 R169). -/
def cmPoisoned (s : State) (f : Func) (a : Nat) : Bool := s.mem.cmPoison.contains (cmKey f a / 8)

/-- Writes bytes of the Commons; a write of all 8 bytes of a word clears its poison (08 R169). -/
def cmWrite (s : State) (f : Func) (a : Nat) (bs : List Byte) : State :=
  let m := ((List.range bs.length).zip bs).foldl (fun m e => memSet m (cmKey f (a + e.1)) e.2) s.mem.cm
  let p := if bs.length = 8 then s.mem.cmPoison.filter (· ≠ cmKey f a / 8) else s.mem.cmPoison
  { s with mem := { s.mem with cm := m, cmPoison := p } }

/-! ## The deterministic store buffer (13 R289) -/

/-- Whether a team's mode buffers stores. -/
def Team.detMode (t : Team) : Bool := t.eff.det ≠ 0

/-- The bytes of an entry's data that its mask selects, written one by one. -/
def maskWrite (wr : State → Nat → List Byte → State) (s : State) (e : DetEntry) : State :=
  let bs := bytesOfNat 8 e.data.toNat
  if e.bmask = 0xFF#8 then wr s e.addr bs
  else ((List.range 8).zip bs).foldl (fun s x => if e.bmask.getLsbD x.1 then wr s (e.addr + x.1) [x.2] else s) s

/-- The 16 bytes that BBINIT writes (07 R157, R159). -/
def barrierBytes (bytes arrivals : Nat) : List Byte :=
  bytesOfNat 16 ((bytes * 2 ^ 96) + (bytes * 2 ^ 64) + arrivals % 8192)

/-- Applies a store, SATOM, BBINIT or FMTSET entry of a hand to committed state; cmp is the compare value of a 64-bit CAS,
held by the entry before it. A partial CST and an SATOM are refused for poison, with a record (08 R169, 13 R277). -/
def applyEntry (s : State) (h : HandKey) (e : DetEntry) (cmp : Dword) : State :=
  let id := h.team
  match aget id s.teams with
  | none => s
  | some tm =>
    let poison := fun (acc : Nat) =>
      noteFault s (threadOf h e.lane) e.iaddr { code := 0x15, faddr := BitVec.ofNat 64 e.addr, acc := acc }
    if e.kind = 1 && e.bmask ≠ 0xFF#8 && cmPoisoned s (teamFunc s tm) e.addr then poison 2
    else if e.kind = 2 && s.spPoisoned id tm e.addr (if e.bmask = 0xFF#8 then 8 else 4) then poison 8
    else if e.kind = 0 then maskWrite (fun s a bs => s.spWrite id tm a bs) s e
    else if e.kind = 1 then maskWrite (fun s a bs => cmWrite s (teamFunc s tm) a bs) s e
    else if e.kind = 2 then
      let w := e.bmask = 0xFF#8
      let n := if w then 8 else 4
      let old := BitVec.ofNat 64 (s.spNat id tm e.addr n)
      let op := AtomOp.ofCode (BitVec.ofNat 4 e.opx)
      let b := if w then e.data else e.data &&& 0xFFFFFFFF
      let c := if w then cmp else e.data >>> 32
      s.spWrite id tm e.addr (bytesOfNat n (atomWide op w old b c).toNat)
    else if e.kind = 3 then s.spWrite id tm e.addr (barrierBytes (bits e.data.toNat 31 0) (bits e.data.toNat 44 32))
    else if e.kind = 4 then s.modTeam id fun tm => { tm with fmts := tm.fmts.set e.opx (e.data.setWidth 32) }
    else s

/-- Applies entries in order. -/
def applyEntries (s : State) (h : HandKey) (es : List DetEntry) : State :=
  (es.foldl (fun (r : State × Dword) e => (applyEntry r.1 h e r.2, if e.kind = 6 then e.data else r.2)) (s, 0)).1

/-- Takes entries of the buffer for a thread, or none if its share would be passed (13 R289: DET_OVERFLOW). -/
def takeEntries (s : State) (k : ThreadKey) (w : Nat) (es : List DetEntry) : Option State :=
  match aget (handOf k) s.hands with
  | none => some s
  | some h =>
    if 1024 / w < (h.detBuf.filter fun e => e.lane = k.lane).length + es.length then none
    else some (s.setHand (handOf k) { h with detBuf := h.detBuf ++ es })

/-- DET_OVERFLOW (07 R165): the address and the access type of a store, and of an SATOM; an FMTSET and a tile event reach
no address. -/
def overflowOf (e : DetEntry) : FaultInfo :=
  if e.kind = 2 then { code := 0x0E, faddr := BitVec.ofNat 64 e.addr, acc := 8 }
  else if e.kind = 4 || e.kind = 7 then { code := 0x0E }
  else { code := 0x0E, faddr := BitVec.ofNat 64 e.addr, acc := if e.kind = 5 then 1 else 2 }

/-- The outcome of an instruction that takes one entry. -/
def buffered (s : State) (k : ThreadKey) (w : Nat) (e : DetEntry) : LaneOut :=
  match takeEntries s k w [e] with
  | some s' => .done s'
  | none => .fault (overflowOf e)

/-- The pc of a thread. -/
def pcOf (s : State) (k : ThreadKey) : Dword :=
  match aget k s.threads with
  | some t => t.pc
  | none => 0

/-! ## What a thread's loads see (13 R275, R290) -/

/-- Bytes an access touches in scratchpad. -/
def AccOp.spRange : AccOp → Option (Nat × Nat)
  | .spStore a n _ => some (a, n)
  | .spAtom a _ w _ _ _ => some (a, if w then 8 else 4)
  | .spArrive a => some (a, 16)
  | _ => none

/-- Bytes an access touches in the Commons. -/
def AccOp.cmRange : AccOp → Option (Nat × Nat)
  | .cmLoad a n _ _ _ _ _ => some (a, n)
  | .cmStore a n _ => some (a, n)
  | .cmAtom a _ w _ _ _ => some (a, if w then 8 else 4)
  | .cmAxpy a _ _ _ => some (a, 4)
  | _ => none

def AccOp.isLoad : AccOp → Bool
  | .cmLoad _ _ _ _ _ _ _ => true
  | _ => false

/-- Whether two ranges meet. -/
def overlaps (x y : Nat × Nat) : Bool := x.1 < y.1 + y.2 && y.1 < x.1 + x.2

/-- The state as a thread's loads see it: its hand's queued scratchpad stores applied, or in deterministic mode the
thread's own buffered entries. -/
def threadView (s : State) (k : ThreadKey) : State :=
  match aget (handOf k) s.hands, aget k.team s.teams with
  | some h, some tm =>
    let s1 := h.storeQ.foldl (fun s e =>
      match e.op with
      | .spStore a n v => s.spWrite k.team tm a (bytesOfNat n v)
      | _ => s) s
    applyEntries s1 (handOf k) (h.detBuf.filter fun e => e.lane = k.lane)
  | _, _ => s

/-- Whether a read-modify-write of the hand to the bytes is still queued: a load of them waits (13 R275). -/
def rmwPending (h : Hand) (a n : Nat) : Bool :=
  h.storeQ.any fun e => match e.op with
    | .spAtom _ _ _ _ _ _ => (e.op.spRange.map fun r => overlaps r (a, n)).getD false
    | .spArrive _ => (e.op.spRange.map fun r => overlaps r (a, n)).getD false
    | _ => false

/-- An acquire that the thread has issued is not yet performed: its later accesses wait (13 R278); wide: only acquires at
DIE or wider count, which also hold engine requests back (R279). -/
def acqPending (s : State) (k : ThreadKey) (wide : Bool) : Bool :=
  match aget (handOf k) s.hands with
  | some h => h.storeQ.any fun e => e.lane = k.lane &&
      (match e.acq with
        | none => false
        | some sc => !wide || (sc != .hand && sc != .team))
  | none => false

/-- What a scratchpad read comes to. -/
inductive SpRead where
  | ok (v : Nat)
  | wait
  | fault (f : FaultInfo)
deriving DecidableEq, Repr

/-- A thread's read of n bytes of its team's scratchpad (07 R144): own queued stores are seen, held destination bytes and
pending read-modify-writes are waited for, and a poisoned word raises POISON (R141). -/
def spLoad (s : State) (k : ThreadKey) (tm : Team) (a n al : Nat) : SpRead :=
  match spCheck tm a n al 1 with
  | some f => .fault f
  | none =>
    match aget (handOf k) s.hands with
    | none => .wait
    | some h =>
      if acqPending s k false || heldRange s k.team a n true || rmwPending h a n then .wait
      else
        let v := threadView s k
        if v.spPoisoned k.team tm a n then .fault { code := 0x15, faddr := BitVec.ofNat 64 a, acc := 1 }
        else .ok (v.spNat k.team tm a n)

/-! ## Entering the store queue -/

/-- The next number of a hand's accesses. -/
def nextSeqNo (s : State) (h : HandKey) : Nat :=
  match aget h s.hands with
  | some hd => hd.seq
  | none => 0

/-- Puts an access into the hand's store queue. -/
def enqueue (s : State) (k : ThreadKey) (op : AccOp) (rel acq : Option Scope) : State :=
  let e : Access := ⟨nextSeqNo s (handOf k), k.lane, pcOf s k, op, rel, acq, s.tick⟩
  s.modHand (handOf k) fun h => { h with storeQ := h.storeQ ++ [e], seq := h.seq + 1 }

/-- Marks a destination empty (03 R50). -/
def markEmpty (s : State) (k : ThreadKey) (d : BitVec 8) (pair : Bool) : State :=
  s.modThread k fun t => setFull t d pair false

/-- A value is on its way to a destination that has been marked empty. -/
def sendFill (s : State) (k : ThreadKey) (d : BitVec 8) (pair : Bool) (what : FillWhat) (iaddr : Dword) (seq : Option Nat) : State :=
  { s with fills := s.fills ++ [⟨k, d, pair, what, iaddr, seq⟩] }

/-- A long-latency producer whose result is on its way: empty at issue, filled later (05 R91). -/
def produce (s : State) (k : ThreadKey) (d : BitVec 8) (pair : Bool) (what : FillWhat) : State :=
  sendFill (markEmpty s k d pair) k d pair what (pcOf s k) none

/-! ## Settling (13 R277 to R279) -/

/-- Whether a value on its way belongs to an access of a hand numbered below n. -/
def Fill.before (f : Fill) (h : HandKey) (n : Nat) : Bool :=
  handOf f.thread = h && (match f.seq with
    | some q => q < n
    | none => false)

/-- Whether every access of a hand numbered below n has settled: none is queued and every load's value has returned. -/
def settledBefore (s : State) (h : HandKey) (n : Nat) : Bool :=
  (match aget h s.hands with
    | some hd => hd.storeQ.all fun e => n ≤ e.seq
    | none => true) && s.fills.all fun f => !f.before h n

/-- What a channel serves, and what waits for it. -/
def Chan.jobs (c : Chan) : List Job := c.run.toList ++ c.back ++ c.queue

/-- Whether a chain's records have started, or a take has landed some. -/
def Job.started : Job → Bool
  | .chain x => x.recs.any (·.started)
  | .take t => t.landed ≠ 0

/-- The heads that wait at a channel: its kick queue, and what a resumed team has brought that has not started. -/
def Chan.heads (c : Chan) : List Job := c.back.filter (fun j => !j.started) ++ c.queue

/-- The chains that a channel runs or has waiting. -/
def Chan.chains (c : Chan) : List Chain :=
  c.jobs.filterMap fun j => match j with
    | .chain x => some x
    | .take _ => none

/-- Whether every unit of a record has settled (09 R191); a malformed one has none. -/
def Rec.settled (r : Rec) : Bool := r.bad || (r.started && r.issued = r.units && r.mask = 2 ^ r.units - 1)

/-- Whether every unit of every record of a chain has settled. -/
def Chain.settled (x : Chain) : Bool := (x.next.isNone || x.stopped) && x.recs.all Rec.settled

/-- Whether every unit of every record that a hand kicked before its access n has settled (13 R279). -/
def kicksSettled (s : State) (h : HandKey) (n : Nat) : Bool :=
  s.chans.all fun e => e.2.chains.all fun x => x.team ≠ h.team || x.hand ≠ h.hand || n ≤ x.seq || x.settled

/-- What a release at a scope waits for besides (13 R279): from DIE, requests accepted; from PKG, kicked records settled. -/
def extraSettled (s : State) (h : HandKey) (n : Nat) (sc : Scope) : Bool :=
  sc = .hand || sc = .team ||
    ((match aget h s.hands with
      | some hd => hd.pend.all (n ≤ ·)
      | none => true) && (sc = .die || kicksSettled s h n))

/-- Whether a release of the hand numbered n may be performed. -/
def releaseReady (s : State) (h : HandKey) (n : Nat) (sc : Scope) : Bool :=
  settledBefore s h n && extraSettled s h n sc

/-- Whether an entry's own release, and every FENCE.REL before it, allow it to be sent (13 R278). -/
def entryReleased (s : State) (h : HandKey) (e : Access) : Bool :=
  (match e.rel with
    | none => true
    | some sc => releaseReady s h e.seq sc) &&
  (match aget h s.hands with
    | some hd => hd.fences.all fun f => e.seq < f.1 || releaseReady s h f.1 f.2
    | none => true)

/-! ## Byte barriers (07 R157, R158) -/

/-- The fields of a barrier: RELOAD, REM, PHASE, OVR, ARR, EXP. -/
structure Barrier where
  reload : Nat
  rem : Nat
  phase : Bool
  ovr : Bool
  arr : Nat
  exp : Nat
deriving DecidableEq, Repr

def barrierOf (v : Nat) : Barrier := ⟨bits v 127 96, bits v 95 64, bit v 63, bit v 62, bits v 44 32, bits v 12 0⟩

def Barrier.toNat (b : Barrier) : Nat :=
  b.reload * 2 ^ 96 + b.rem * 2 ^ 64 + (if b.phase then 2 ^ 63 else 0) + (if b.ovr then 2 ^ 62 else 0) + b.arr % 8192 * 2 ^ 32 + b.exp

/-- check(): the barrier opens when REM = 0 and ARR = EXP. -/
def Barrier.check (b : Barrier) : Barrier :=
  if b.rem = 0 && b.arr = b.exp then { b with phase := !b.phase, rem := b.reload, arr := 0 } else b

/-- landed(n). -/
def Barrier.landed (b : Barrier) (n : Nat) : Barrier :=
  Barrier.check (if b.rem < n then { b with ovr := true, rem := 0 } else { b with rem := b.rem - n })

/-- arrive(). -/
def Barrier.arrive (b : Barrier) : Barrier :=
  Barrier.check (if b.arr = b.exp then { b with ovr := true } else { b with arr := b.arr + 1 })

/-- The threads of a team that wait at a barrier note that it has opened. -/
def noteFlip (s : State) (id : TeamId) (a : Nat) : State :=
  { s with threads := s.threads.map fun e =>
      if e.1.team = id then
        match e.2.bwait with
        | some (x, some _) => if x = a then (e.1, { e.2 with bwait := some (a, none) }) else e
        | _ => e
      else e }

/-- Updates the barrier at a team's scratchpad address. -/
def updateBarrier (s : State) (id : TeamId) (a : Nat) (f : Barrier → Barrier) : State :=
  match aget id s.teams with
  | some tm =>
    let b := barrierOf (s.spNat id tm a 16)
    let s1 := s.spWrite id tm a (bytesOfNat 16 (f b).toNat)
    if (f b).phase = b.phase then s1 else noteFlip s1 id a
  | none => s

/-- Whether a matrix instruction holds a barrier: an engine's update of it waits (10 R214). -/
def barrierHeld (s : State) (id : TeamId) (a : Nat) : Bool := heldRange s id a 16 false

/-- Whether a barrier is poisoned: an engine that would update it faults (07 R141). -/
def barrierPoisoned (s : State) (id : TeamId) (a : Nat) : Bool :=
  match aget id s.teams with
  | some tm => s.spPoisoned id tm a 16
  | none => false

/-- landed(n) on the barrier at a team's scratchpad address, by the engine src (07 R158); for a suspended team it is held
(15 R345), and a poisoned barrier is left as it is, with a record (07 R141). -/
def landed (s : State) (id : TeamId) (a n : Nat) (src : Nat := 2) : State :=
  if id.die = 8 then
    { s with saved := s.saved.map fun e => if e.2.id = id then (e.1, { e.2 with held := e.2.held ++ [(a, n)] }) else e }
  else if barrierPoisoned s id a then
    sendFault s (teamRec s id { code := 0x15, faddr := BitVec.ofNat 64 a, acc := 8 } false 0 src)
  else updateBarrier s id a (Barrier.landed · n)

/-! ## Acceptance -/

/-- A thread that waited for its bank goes on (07 R145, R160). -/
def bankDone (s : State) (k : ThreadKey) : State :=
  match aget k s.threads with
  | some t => if t.run = .bank then wakeLanes (s.modThread k Thread.advance) (handOf k) [k.lane] else s
  | none => s

/-- A scratchpad bank performs an access (07 R141, R144, R145, R158, R160). An SATOM without a destination, whose thread
has gone on, is refused for poison with a record that stops no thread (13 R277). -/
def performSp (s : State) (h : HandKey) (e : Access) : State :=
  let k := threadOf h e.lane
  match aget h.team s.teams with
  | none => s
  | some tm =>
    match e.op with
    | .spStore a n v => s.spWrite h.team tm a (bytesOfNat n v)
    | .spAtom a op w b cmp d =>
      let n := if w then 8 else 4
      let f : FaultInfo := { code := 0x15, faddr := BitVec.ofNat 64 a, acc := 8 }
      if s.spPoisoned h.team tm a n then (if d = 0 then noteFault s k e.iaddr f else takeFault s k f)
      else
        let old := BitVec.ofNat 64 (s.spNat h.team tm a n)
        let s1 := s.spWrite h.team tm a (bytesOfNat n (atomWide op w old b cmp).toNat)
        if d = 0 then s1 else bankDone (s1.modThread k fun t => writeReg t d w old) k
    | .spArrive a =>
      if s.spPoisoned h.team tm a 16 then takeFault s k { code := 0x15, faddr := BitVec.ofNat 64 a, acc := 8 }
      else
      let ph := (barrierOf (s.spNat h.team tm a 16)).phase
      bankDone ((updateBarrier s h.team a Barrier.arrive).modThread k fun t => { t with token := some (a, ph) }) k
    | _ => s

/-- Bytes with the thread's own laid over them. -/
def overlay (own : List (Option Byte)) (bs : List Byte) : List Byte := (own.zip bs).map fun x => x.1.getD x.2

/-- A Commons bank performs an access whole (08 R169, R170, R174 to R177). -/
def performCm (s : State) (h : HandKey) (e : Access) : State :=
  let k := threadOf h e.lane
  match aget h.team s.teams with
  | none => s
  | some tm =>
    let f := teamFunc s tm
    let poison := fun (a acc : Nat) => noteFault s k e.iaddr { code := 0x15, faddr := BitVec.ofNat 64 a, acc := acc }
    match e.op with
    | .cmLoad a n sgn w d own clean =>
      if cmPoisoned s f a && !clean then
        sendFill s k d w (.fault { code := 0x15, faddr := BitVec.ofNat 64 a, acc := 1 }) e.iaddr (some e.seq)
      else sendFill s k d w (.value (extendLoad n sgn (natOfBytes (overlay own (cmBytes s f a n))))) e.iaddr (some e.seq)
    | .cmStore a n v => if cmPoisoned s f a && n ≠ 8 then poison a 2 else cmWrite s f a (bytesOfNat n v)
    | .cmAtom a op w b cmp d =>
      let n := if w then 8 else 4
      if cmPoisoned s f a then
        if d = 0 then poison a 8
        else sendFill s k d w (.fault { code := 0x15, faddr := BitVec.ofNat 64 a, acc := 8 }) e.iaddr (some e.seq)
      else
        let old := BitVec.ofNat 64 (natOfBytes (cmBytes s f a n))
        let s1 := cmWrite s f a (bytesOfNat n (atomWide op w old b cmp).toNat)
        if d = 0 then s1 else sendFill s1 k d w (.value old) e.iaddr (some e.seq)
    | .cmAxpy a ty sc b =>
      if cmPoisoned s f a then poison a 8
      else
        let old := BitVec.ofNat 32 (natOfBytes (cmBytes s f a 4))
        cmWrite s f a (bytesOfNat 4 (axpyNew ty old sc b).toNat)
    | _ => s

/-- The place in the queue of the oldest store or read-modify-write. -/
def oldestStore (q : List Access) : Option Nat := q.findIdx? fun e => !e.op.isLoad

/-- The Commons bank of an access. -/
def AccOp.cmBank (f : Func) (o : AccOp) : Option Nat := o.cmRange.map fun r => cmKey f r.1 / 262144

/-- A load may be sent once no earlier access to its bytes is queued (13 R275), nor, at its bank, one of a lower lane of
the same instruction (08 R170). -/
def loadFree (f : Func) (q : List Access) (n : Nat) (e : Access) : Bool :=
  (q.take n).all fun x => !((match x.op.cmRange, e.op.cmRange with
    | some r, some r' => overlaps r r'
    | _, _ => false) || (x.batch = e.batch && x.op.cmBank f = e.op.cmBank f))

/-- A CATOM with a result is, as a load, behind earlier loads of its bytes (13 R275). -/
def atomFree (q : List Access) (n : Nat) (e : Access) : Bool :=
  match e.op with
  | .cmAtom _ _ _ _ _ d => d = 0 || (q.take n).all fun x => !(x.op.isLoad && (match x.op.cmRange, e.op.cmRange with
      | some r, some r' => overlaps r r'
      | _, _ => false))
  | _ => true

/-- Whether the n-th queued access may be accepted now. -/
def mayAccept (s : State) (h : HandKey) (q : List Access) (n : Nat) (e : Access) : Bool :=
  if e.op.isLoad then loadFree (match aget h.team s.teams with
    | some tm => teamFunc s tm
    | none => Func.reset) q n e
  else oldestStore q = some n && entryReleased s h e && atomFree q n e &&
    (match e.op.spRange with
      | some r => !heldRange s h.team r.1 r.2 false
      | none => true)

/-- The n-th queued access of a hand is accepted by its bank, if it is of that space and may be; none otherwise. -/
def acceptNth (s : State) (h : HandKey) (n : Nat) (commons : Bool) : Option State :=
  match aget h s.hands with
  | none => none
  | some hd =>
    match hd.storeQ[n]? with
    | none => none
    | some e =>
      if e.op.cmRange.isSome = commons && mayAccept s h hd.storeQ n e then
        let s1 := s.setHand h { hd with storeQ := delAt n hd.storeQ }
        some (if commons then performCm s1 h e else performSp s1 h e)
      else none

end Sys2Proof.Machine
end

