-- ==== Sys2Proof/Machine/Rings.lean ====
section
/-! DEFINITION. Rings in virtual memory that the B8 appends to (14 R322): fault queues, collective logs, the health log and
the error log. -/

namespace Sys2Proof.Machine

/-- What an append comes to. -/
inductive Appended where
  /-- The entry is written, and TAIL is one more; empty: TAIL equalled HEAD before. -/
  | done (s : State) (empty : Bool)
  /-- The ring is full. -/
  | full
  /-- Its address is not aligned, or reserved bits of its header are not zero. -/
  | malformed
  /-- An access has not been made: it may wait, or the ring's address is bad. -/
  | stuck (m : Miss)

/-- Appends an entry of n bytes, a function of TAIL, to the ring of a function at an address: entry i lies at
base + 64 + n·(i mod 2^LOG2N). -/
def ringAppend (s : State) (fn base n : Nat) (entry : Nat → Nat) : Appended :=
  if base % 64 ≠ 0 then .malformed
  else match virtRead s fn base 16 .read with
    | .error x => .stuck x
    | .ok (s1, bs) =>
      let h := natOfBytes bs
      let size := 2 ^ bits h 3 0
      let tail := bits h 95 64
      let head := bits h 127 96
      if bits h 63 4 ≠ 0 then .malformed
      else if size ≤ (tail + 2 ^ 32 - head) % 2 ^ 32 then .full
      else match virtWrite s1 fn (base + 64 + n * (tail % size)) (bytesOfNat n (entry tail)) with
        | .error x => .stuck x
        | .ok s2 =>
          match virtWrite s2 fn (base + 8) (bytesOfNat 4 ((tail + 1) % 2 ^ 32)) with
          | .error x => .stuck x
          | .ok s3 => .done s3 (tail = head)

end Sys2Proof.Machine
end

