-- ==== Sys2Proof/Machine/Errors.lean ====
section
/-! DEFINITION. Errors of units, their counts and windows, and the health log (23 R405, R406). -/

namespace Sys2Proof.Machine

/-- The unit of which an error is counted. -/
def countedUnit : ErrUnit → ErrUnit
  | .dramRow loc => .dramRow (loc / 1024 * 1024)
  | .spBank c b _ => .spBank c b 0
  | .cmBank d b _ => .cmBank d b 0
  | .regSlice q => .regSlice q
  | .codeLine loc => .codeLine (loc / 64 * 64)
  | .farLine n a => .farLine n (a / 64 * 64)
  | .linkLane p l => .linkLane p l

/-- Its limit, and its window in ns. -/
def errLimit : ErrUnit → Nat × Nat
  | .dramRow _ => (4, 30000000000)
  | .spBank _ _ _ => (8, 60000000000)
  | .cmBank _ _ _ => (8, 60000000000)
  | .regSlice _ => (8, 60000000000)
  | .codeLine _ => (4, 30000000000)
  | .farLine _ _ => (4, 30000000000)
  | .linkLane _ _ => (16, 1000000000)

/-- SRC, UNIT and LOC of its health records. -/
def errPlace : ErrUnit → Nat × Nat × Nat
  | .dramRow loc => (0, bits loc 20 10, bits loc 40 21)
  | .spBank c b off => (1, (64 * c.die + c.core) * 64 + b, off / 8)
  | .cmBank d b off => (2, d * 256 + b, off / 8)
  | .regSlice q => (3, (64 * q.die + q.core) * 4 + q.quad, 0)
  | .codeLine loc => (4, bits loc 20 10, bits loc 40 21 * 16 + bits loc 9 6)
  | .farLine n a => (4, n.getD 0, a / 64)
  | .linkLane p l => (5, p * 8 + l, 0)

/-- A health record (23 R406). -/
def healthRec (s : State) (cls : Nat) (p : Nat × Nat × Nat) : BitVec 128 :=
  BitVec.ofNat 128 (p.2.2 % 2 ^ 32 + p.2.1 % 2 ^ 26 * 2 ^ 32 + cls * 2 ^ 58 + p.1 * 2 ^ 60 + s.fab.time % 2 ^ 64 * 2 ^ 64)

/-- Appends the health records that wait, oldest first, as far as the ring takes them. -/
def flushHealth : List (BitVec 128) → State → State
  | [], s => { s with health := { s.health with pendingLog := [] } }
  | r :: rest, s =>
    if s.health.log = 0 then { s with health := { s.health with pendingLog := r :: rest } }
    else match ringAppend s 0 s.health.log 16 fun _ => r.toNat with
      | .done s1 _ => flushHealth rest s1
      | _ => { s with health := { s.health with pendingLog := r :: rest } }

/-- Logs an event. -/
def logHealth (s : State) (cls : Nat) (p : Nat × Nat × Nat) : State :=
  flushHealth (s.health.pendingLog ++ [healthRec s cls p]) s

/-- What the dealer does about a lasting fault: banks are retired at the next change of owner, a link lane at once, and with
its last lane the port. -/
def retireUnit (s : State) (u : ErrUnit) : State :=
  match u with
  | .spBank c b _ => s.modCore c fun x => { x with stuck := if x.stuck.contains b then x.stuck else x.stuck ++ [b] }
  | .linkLane p _ =>
    let port := agetD p Port.reset s.fab.ports
    let left := port.lanes - 1
    let s1 := { s with fab := { s.fab with ports := aset p { port with lanes := left, trained := port.trained && left ≠ 0 } s.fab.ports } }
    if left = 0 then { s1 with health := { s1.health with ready := s1.health.ready.filter (· ≠ .link p) } } else s1
  | _ => s

/-- A unit's fault becomes lasting. -/
def makeLasting (s : State) (u : ErrUnit) : State :=
  if s.health.lasting.contains (countedUnit u) then s
  else
    let s1 := { s with health := { s.health with lasting := s.health.lasting ++ [(countedUnit u)] } }
    retireUnit (logHealth s1 2 (errPlace u)) u

/-- Counts a corrected error: a window restarts at its first error, and at the limit the fault is lasting. -/
def countError (s : State) (u : ErrUnit) : State :=
  let e := agetD (countedUnit u) (0, s.fab.time) s.health.counts
  let e1 : Nat × Nat := if (errLimit u).2 ≤ s.fab.time - e.2 then (1, s.fab.time) else (e.1 + 1, e.2)
  let s1 := { s with health := { s.health with counts := aset (countedUnit u) e1 s.health.counts } }
  let s2 := logHealth s1 0 (errPlace u)
  if (errLimit u).1 ≤ e1.1 then makeLasting s2 u else s2

end Sys2Proof.Machine
end

