-- ==== Sys2Proof/Machine/Fetch.lean ====
section
/-! DEFINITION. Instruction fetch (03 R27 to R36): entering a line by arrival or by sequential flow, its checks in their
order, and the decoding of the slot that a thread has reached. -/

namespace Sys2Proof.Machine

/-- The line word (03 R28). -/
def lineWord (l : Line) : Word := l.extractLsb' 480 32
/-- Slot i (03 R27). -/
def lineSlot (l : Line) (i : Nat) : BitVec 96 := l.extractLsb' (96 * i) 96

/-- Whether a number of bits holds an odd number of ones. -/
def oddOnes : Nat → Nat → Bool
  | 0, _ => false
  | n + 1, v => (v % 2 = 1) != oddOnes n (v / 2)

/-- PAR bit i agrees with slot i (03 R29). -/
def parSlotOk (l : Line) (i : Nat) : Bool := oddOnes 96 (lineSlot l i).toNat == (lineWord l).getLsbD (24 + i)
/-- PARW agrees with the line word (03 R29). -/
def parWordOk (l : Line) : Bool := oddOnes 29 ((lineWord l).toNat % 2 ^ 29) == (lineWord l).getLsbD 29
/-- No parity bit of the line disagrees. -/
def parityOk (l : Line) : Bool := parWordOk l && (List.range 5).all (parSlotOk l)

/-- LV, the reserved bits and the pairs of the line word (03 R32). -/
def formatOk (l : Line) : Bool :=
  let w := lineWord l
  w.extractLsb' 30 2 = 1#2 && w.extractLsb' 9 15 = 0#15 &&
    (List.range 3).all fun k => !(w.getLsbD (5 + k) && w.getLsbD (6 + k))

/-- Slot i is a legal branch target (03 R28). -/
def tgtBit (l : Line) (i : Nat) : Bool := i < 5 && (lineWord l).getLsbD i

/-- The function a team acts for. -/
def funcOf (s : State) (k : ThreadKey) : Nat :=
  match aget k.team s.teams with
  | some t => t.func
  | none => 0

/-- Whether a thread's job is folded: its fetches of another module's lines wait (15 R347). -/
def fetchStays (s : State) (k : ThreadKey) : Bool :=
  match aget k.team s.teams with
  | some t => nodeFolded s t.func t.node
  | none => false

/-- What the fetch of a line gives. -/
inductive Fetched where
  | line (l : Line) (s : State)
  | wait (code page : Nat)
  /-- The line is pulled, its controller does not take the request now, or its owner has no route. -/
  | later (s : State)
  | fault (code : Nat) (s : State)

/-- Fetches the line at an address: translation first (03 R36), then the copy from memory; on a parity mismatch the line
is fetched again, once, and a copy that then matches counts as a transient soft error (03 R33). -/
def fetchLine (s : State) (fn : Nat) (va : Dword) (stay : Bool := false) : Fetched :=
  let x := reach s fn va.toNat .fetch stay
  match x with
  | .dealer code page => .wait code page
  | .final code => .fault code s
  | .pulling => .later (missed s fn va.toNat x)
  | .busy _ _ => .later (missed s fn va.toNat x)
  | .noRoute _ => .later s
  | .held => .later s
  | .dup _ => .later s
  | .dram _ _ => copy x
  | .fabric _ _ _ => copy x
  | .host _ _ => copy x
where
  /-- The copy of the line at a place. -/
  copy (x : Xl) : Fetched :=
    if placePoisoned s x 64 then .fault 0x15 (missed s fn va.toNat (.final 0x15))
    else
      let mem : Line := BitVec.ofNat 512 (natOfBytes (placeRead s x 64))
      let s1 := { countXl s fn va.toNat x false true with glitch := 0 }
      if parityOk (mem ^^^ s.glitch) then .line (mem ^^^ s.glitch) s1
      else if parityOk mem then
        match x with
        | .dram d _ => .line mem (countError s1 (.codeLine (locOf d)))
        | .fabric node addr _ => .line mem (countError s1 (.farLine (some node) addr))
        | .host addr _ => .line mem (countError s1 (.farLine none addr))
        | _ => .line mem s1
      else .line mem s1

/-- The first check that the entered line fails at a slot: PARITY, then LINE_FORMAT (03 R36). A target with bits [5:3] set
names no slot; its bits [2:0] choose the PAR bit that is checked before its TARGET (DESIGN CHOICE, notes/assumptions/93.md). -/
def entryFault (l : Line) (slot : Nat) : Option Nat :=
  if !parWordOk l || (slot < 5 && !parSlotOk l slot) then some 0x03
  else if !formatOk l then some 0x02
  else none

/-- What a transfer of a thread to a target comes to. -/
inductive Xfer where
  /-- The thread has arrived. -/
  | arrived (s : State)
  /-- The thread has arrived and stopped there (03 R32, R33). -/
  | stopped (s : State)
  /-- The fetch waits; the thread stands at the transferring instruction. -/
  | waits (s : State)
  /-- A fault of the transferring instruction, which has no effect (03 R31, R46); the fetch may have had one. -/
  | fault (s : State) (f : FaultInfo)

/-- A thread transfers to a target (03 R31, R36, R46): a target that is not canonical, a translation refused for good and
an arrival at no target fault at the transferring instruction; a bad line faults where the thread entered it, and the
record's faulting address is that slot's (DESIGN CHOICE: no rule gives it, notes/assumptions/92.md). -/
def transfer (s : State) (k : ThreadKey) (target : Dword) : Xfer :=
  if !canonical target then .fault s { code := 0x10, faddr := target, acc := 4 }
  else
    match fetchLine s (funcOf s k) (lineAddr target) (fetchStays s k) with
    | .wait code page =>
      .waits (waitDealer s k { code := code, faddr := target, acc := 4 } page (.fetch target code))
    | .later s' =>
      let s1 := s'.modThread k fun t => { t with run := .pull target }
      .waits (s1.modHand (handOf k) fun h => { h with bundles := dropLanes h.bundles (BitVec.twoPow 64 k.lane) })
    | .fault code s' => .fault s' { code := code, faddr := target, acc := 4 }
    | .line l s1 =>
      let slot := slotOf target
      match entryFault l slot with
      | some code =>
        .stopped (takeFault (s1.modThread k fun t => { t with pc := target, line := none }) k { code := code, faddr := target })
      | none =>
        if target.extractLsb' 3 3 ≠ 0#3 || !tgtBit l slot then .fault s1 { code := 0x04, faddr := target }
        else .arrived (s1.modThread k fun t => { t with pc := target, line := some (lineAddr target, l), run := .ready })

/-- Carries a transfer out for a thread whose instruction has the effect `eff` besides. -/
def jumpTo (s : State) (k : ThreadKey) (target : Dword) (eff : Thread → Thread) : LaneOut :=
  match transfer s k target with
  | .arrived s' => .left (s'.modThread k eff)
  | .stopped s' => .left (s'.modThread k eff)
  | .waits s' => .wait s'
  | .fault s' f => .left (takeFault s' k f)

/-- A thread enters its line by sequential flow, or where it was resumed or launched: no TGT check (03 R30, R31). -/
def enterLine (s : State) (k : ThreadKey) : State :=
  match aget k s.threads with
  | none => s
  | some t =>
    match fetchLine s (funcOf s k) (lineAddr t.pc) (fetchStays s k) with
    | .wait code page => waitDealer s k { code := code, faddr := t.pc, acc := 4 } page (.fetch t.pc code)
    | .later s' =>
      let s1 := s'.modThread k fun t => { t with run := .pull t.pc }
      s1.modHand (handOf k) fun h => { h with bundles := dropLanes h.bundles (BitVec.twoPow 64 k.lane) }
    | .fault code s' => takeFault s' k { code := code, faddr := t.pc, acc := 4 }
    | .line l s1 =>
      match entryFault l (slotOf t.pc) with
      | some code => takeFault s1 k { code := code, faddr := t.pc }
      | none => s1.modThread k fun t => { t with line := some (lineAddr t.pc, l) }

/-- The line a thread holds for its pc. -/
def heldLine (t : Thread) : Option Line :=
  match t.line with
  | some (a, l) => if a = lineAddr t.pc then some l else none
  | none => none

/-- The launch's fixed parameters (03 R36). -/
def launchParams (t : Team) : LaunchParams := ⟨t.w, t.regs, t.ntiles, t.chain⟩

/-- The instruction of the slot a thread has reached: PARITY of the slot (03 R33), then ILLEGAL (R53); an ILLEGAL of
FMTSET's immediate names its value (06 R136), and one of BBINIT's immediate names element 0 (07 R159). -/
def decodeAt (t : Thread) (l : Line) (p : LaunchParams) : Except FaultInfo Instr :=
  let slot := slotOf t.pc
  if !parSlotOk l slot then .error { code := 0x03, faddr := t.pc }
  else match decodeSlot (lineSlot l slot) with
    | .error (.fmtValue v) => .error { code := 0x01, faddr := v.setWidth 64 }
    | .error _ =>
      let sl := Slot.ofWord (lineSlot l slot)
      .error (match parseSlot sl with
        | some (.bbinitImm _ _ _ bytes arrivals) =>
          if bytes = 0 && arrivals = 0 then { code := 0x01, felem := 0 } else { code := 0x01 }
        | _ => { code := 0x01 })
    | .ok i => if i.fits p then .ok i else .error { code := 0x01 }

/-- The threads whose branch waited for its fetch make it now (04 R78). -/
def goPending (s : State) (h : HandKey) (ls : List Nat) : State :=
  ls.foldl (fun s l =>
    match s.lane h l with
    | some t => match t.go with
      | some target =>
        let k := threadOf h l
        let s0 := s.modThread k fun t => { t with go := none }
        match transfer s0 k target with
        | .arrived s' => s'
        | .stopped s' => s'
        | .waits s' => s'.modThread k fun t => { t with go := some target }
        | .fault s' f => takeFault s' k f
      | none => s
    | none => s) s

/-- What a selected bundle does next. -/
inductive Issue where
  /-- Its threads perform this instruction. -/
  | run (i : Instr) (s : State)
  /-- Nothing is performed: lines were entered, or the threads that reached the slot stopped. -/
  | stay (s : State)

/-- The selected bundle fetches and decodes. Threads that do not hold their line enter it first; threads whose held line
has a bad slot or no instruction stop; the others perform the instruction, and any with another reading of the line wait
for a bundle of their own (03 R35). -/
def fetchBundle (s : State) (h : HandKey) (m : BitVec 64) : Issue :=
  match aget h.team s.teams with
  | none => .stay { s with focus := .none }
  | some tm =>
    let ls := lanesOf m tm.w
    let due := ls.filter fun l => match s.lane h l with
      | some t => t.go.isSome
      | none => false
    if due ≠ [] then .stay (splitBundle (goPending s h due) h (maskOf ls)) else
    let s1 := ls.foldl (fun s l =>
      match s.lane h l with
      | some t => if (heldLine t).isNone then enterLine s (threadOf h l) else s
      | none => s) s
    let live := ls.filter fun l => match s1.lane h l with
      | some t => (heldLine t).isSome && (t.run.issuable || s.focus = .bundle h m && t.run.arrived)
      | none => false
    match live with
    | [] => .stay (splitBundle s1 h (maskOf ls))
    | l0 :: _ =>
      let line0 := (s1.lane h l0).bind heldLine
      let same := live.filter fun l => (s1.lane h l).bind heldLine = line0
      match s1.lane h l0, line0 with
      | some t0, some l =>
        match decodeAt t0 l (launchParams tm) with
        | .error f => .stay (splitBundle (same.foldl (fun s x => takeFault s (threadOf h x) f) s1) h (maskOf ls))
        | .ok i => .run i { s1 with focus := .bundle h (maskOf same) }
      | _, _ => .stay (splitBundle s1 h (maskOf ls))

end Sys2Proof.Machine
end

