-- ==== Sys2Proof/Machine/Integer.lean ====
section
/-! DEFINITION. The integer, address and predicate instructions (05 R93 to R98). -/

namespace Sys2Proof.Machine

/-- The outcome of an instruction that always leads to a next state. -/
abbrev Out := Host.Outcome State Fault Refusal

/-! ## N-bit operations (05 R94 to R96) -/

/-- Bits [2N-1:N] of the unsigned product. -/
def mulHiU (n : Nat) (x y : BitVec n) : BitVec n := BitVec.ofNat n (x.toNat * y.toNat / 2 ^ n)
/-- Bits [2N-1:N] of the signed product. -/
def mulHiS (n : Nat) (x y : BitVec n) : BitVec n := BitVec.ofInt n (x.toInt * y.toInt / 2 ^ n)
/-- Count of leading zeros; N for zero. -/
def clzN (n : Nat) (x : BitVec n) : BitVec n := if x = 0 then BitVec.ofNat n n else BitVec.ofNat n (n - 1 - Nat.log2 x.toNat)
/-- Count of ones. -/
def popN (n : Nat) (x : BitVec n) : BitVec n := BitVec.ofNat n ((List.range n).countP fun i => x.getLsbD i)
/-- Bit i of the result is bit N−1−i. -/
def brevN (n : Nat) (x : BitVec n) : BitVec n :=
  BitVec.ofNat n ((List.range n).foldl (fun a i => if x.getLsbD i then a + 2 ^ (n - 1 - i) else a) 0)
/-- The amount of a shift: b[7:0] (05 R96). -/
def amount {n : Nat} (b : BitVec n) : Nat := b.toNat % 256
def shlN (n : Nat) (x b : BitVec n) : BitVec n := if amount b < n then x <<< amount b else 0
def shrN (n : Nat) (x b : BitVec n) : BitVec n := if amount b < n then x >>> amount b else 0
def sarN (n : Nat) (x b : BitVec n) : BitVec n := x.sshiftRight (min (amount b) (n - 1))
def rotN (n : Nat) (x b : BitVec n) : BitVec n := x.rotateLeft (amount b % n)
/-- The effective field width: position b[7:0], width b[15:8] (05 R96). -/
def fieldW (n : Nat) (b : BitVec n) : Nat := if amount b < n then min (b.toNat / 256 % 256) (n - amount b) else 0
/-- The field's bits at the bottom. -/
def fieldBits (n : Nat) (x b : BitVec n) : Nat := x.toNat / 2 ^ amount b % 2 ^ fieldW n b
def bfxN (n : Nat) (x b : BitVec n) : BitVec n := BitVec.ofNat n (fieldBits n x b)
def bfxsN (n : Nat) (x b : BitVec n) : BitVec n :=
  let w := fieldW n b
  let v := fieldBits n x b
  if 0 < w && 2 ^ (w - 1) ≤ v then BitVec.ofInt n ((v : Int) - 2 ^ w) else BitVec.ofNat n v
def bfiN (n : Nat) (x b c : BitVec n) : BitVec n :=
  let m := BitVec.ofNat n ((2 ^ fieldW n b - 1) * 2 ^ amount b)
  (c &&& ~~~ m) ||| ((x <<< amount b) &&& m)

/-! ## Division (05 R95) -/

def divU (x y : Word) : Word := if y = 0 then 0xFFFFFFFF else BitVec.ofNat 32 (x.toNat / y.toNat)
def remU (x y : Word) : Word := if y = 0 then x else BitVec.ofNat 32 (x.toNat % y.toNat)
def divS (x y : Word) : Word := if y = 0 then 0xFFFFFFFF else BitVec.ofInt 32 (x.toInt.tdiv y.toInt)
def remS (x y : Word) : Word := if y = 0 then x else BitVec.ofInt 32 (x.toInt.tmod y.toInt)

/-- An operation on the low 32 bits of two values. -/
def on32 (f : Word → Word → Word) (x y : Dword) : Dword := (f (x.setWidth 32) (y.setWidth 32)).setWidth 64

/-! ## The instructions -/

/-- vD := vA + b (05 R94). -/
def execAdd (g : Guard) (w : Bool) (d : BitVec 8) (a : Src) (b : SrcB) (s : State) : Out :=
  .next (alu2 s g w d (srcOp a w) (srcbOp b w) (wide2 w fun _ x y => x + y))

/-- vD := vA + sextN(IMM32) (05 R94). -/
def execAddi (g : Guard) (w : Bool) (d : BitVec 8) (a : Src) (imm : Word) (s : State) : Out :=
  .next (alu1 s g w d (srcOp a w) (wide1 w fun n x => x + imm.signExtend n))

/-- vD := vA − b (05 R94). -/
def execSub (g : Guard) (w : Bool) (d : BitVec 8) (a : Src) (b : SrcB) (s : State) : Out :=
  .next (alu2 s g w d (srcOp a w) (srcbOp b w) (wide2 w fun _ x y => x - y))

/-- vD := the low half of vA · b (05 R94). -/
def execMul (g : Guard) (w : Bool) (d : BitVec 8) (a : Src) (b : SrcB) (s : State) : Out :=
  .next (alu2 s g w d (srcOp a w) (srcbOp b w) (wide2 w fun _ x y => x * y))

/-- vD := the high half of the unsigned product (05 R94). -/
def execMulhi (g : Guard) (w : Bool) (d : BitVec 8) (a : Src) (b : SrcB) (s : State) : Out :=
  .next (alu2 s g w d (srcOp a w) (srcbOp b w) (wide2 w mulHiU))

/-- vD := the high half of the signed product (05 R94). -/
def execMulhs (g : Guard) (w : Bool) (d : BitVec 8) (a : Src) (b : SrcB) (s : State) : Out :=
  .next (alu2 s g w d (srcOp a w) (srcbOp b w) (wide2 w mulHiS))

/-- vD := the low half of vA · b + vC (05 R94). -/
def execMad (g : Guard) (w : Bool) (d : BitVec 8) (a : Src) (b : SrcB) (c : CSrc) (s : State) : Out :=
  .next (alu3 s g w d (srcOp a w) (srcbOp b w) (csrcOp c w) (wide3 w fun _ x y z => x * y + z))

/-- vD := the unsigned quotient of vA and b (05 R95). -/
def execDiv (g : Guard) (d : BitVec 8) (a : Src) (b : SrcB) (s : State) : Out :=
  .next (alu2 s g false d (srcOp a false) (srcbOp b false) (on32 divU))

/-- vD := the signed quotient of vA and b (05 R95). -/
def execDivs (g : Guard) (d : BitVec 8) (a : Src) (b : SrcB) (s : State) : Out :=
  .next (alu2 s g false d (srcOp a false) (srcbOp b false) (on32 divS))

/-- vD := the unsigned remainder of vA and b (05 R95). -/
def execRem (g : Guard) (d : BitVec 8) (a : Src) (b : SrcB) (s : State) : Out :=
  .next (alu2 s g false d (srcOp a false) (srcbOp b false) (on32 remU))

/-- vD := the signed remainder of vA and b (05 R95). -/
def execRems (g : Guard) (d : BitVec 8) (a : Src) (b : SrcB) (s : State) : Out :=
  .next (alu2 s g false d (srcOp a false) (srcbOp b false) (on32 remS))

/-- Unsigned minimum (05 R94). -/
def execMin (g : Guard) (w : Bool) (d : BitVec 8) (a : Src) (b : SrcB) (s : State) : Out :=
  .next (alu2 s g w d (srcOp a w) (srcbOp b w) (wide2 w fun _ x y => if x.ult y then x else y))

/-- Unsigned maximum (05 R94). -/
def execMax (g : Guard) (w : Bool) (d : BitVec 8) (a : Src) (b : SrcB) (s : State) : Out :=
  .next (alu2 s g w d (srcOp a w) (srcbOp b w) (wide2 w fun _ x y => if x.ult y then y else x))

/-- Signed minimum (05 R94). -/
def execMins (g : Guard) (w : Bool) (d : BitVec 8) (a : Src) (b : SrcB) (s : State) : Out :=
  .next (alu2 s g w d (srcOp a w) (srcbOp b w) (wide2 w fun _ x y => if x.slt y then x else y))

/-- Signed maximum (05 R94). -/
def execMaxs (g : Guard) (w : Bool) (d : BitVec 8) (a : Src) (b : SrcB) (s : State) : Out :=
  .next (alu2 s g w d (srcOp a w) (srcbOp b w) (wide2 w fun _ x y => if x.slt y then y else x))

/-- Signed absolute value; −2^(N−1) gives itself (05 R94). -/
def execAbs (g : Guard) (w : Bool) (d : BitVec 8) (a : Src) (s : State) : Out :=
  .next (alu1 s g w d (srcOp a w) (wide1 w fun _ x => if x.msb then -x else x))

/-- vD := 0 − vA (05 R94). -/
def execNeg (g : Guard) (w : Bool) (d : BitVec 8) (a : Src) (s : State) : Out :=
  .next (alu1 s g w d (srcOp a w) (wide1 w fun _ x => -x))

/-- Bitwise AND (05 R94). -/
def execAnd (g : Guard) (w : Bool) (d : BitVec 8) (a : Src) (b : SrcB) (s : State) : Out :=
  .next (alu2 s g w d (srcOp a w) (srcbOp b w) (wide2 w fun _ x y => x &&& y))

/-- Bitwise OR (05 R94). -/
def execOr (g : Guard) (w : Bool) (d : BitVec 8) (a : Src) (b : SrcB) (s : State) : Out :=
  .next (alu2 s g w d (srcOp a w) (srcbOp b w) (wide2 w fun _ x y => x ||| y))

/-- Bitwise XOR (05 R94). -/
def execXor (g : Guard) (w : Bool) (d : BitVec 8) (a : Src) (b : SrcB) (s : State) : Out :=
  .next (alu2 s g w d (srcOp a w) (srcbOp b w) (wide2 w fun _ x y => x ^^^ y))

/-- vA AND NOT b (05 R94). -/
def execAndn (g : Guard) (w : Bool) (d : BitVec 8) (a : Src) (b : SrcB) (s : State) : Out :=
  .next (alu2 s g w d (srcOp a w) (srcbOp b w) (wide2 w fun _ x y => x &&& ~~~ y))

/-- NOT vA (05 R94). -/
def execNot (g : Guard) (w : Bool) (d : BitVec 8) (a : Src) (s : State) : Out :=
  .next (alu1 s g w d (srcOp a w) (wide1 w fun _ x => ~~~ x))

/-- Shift left; zeros enter (05 R96). -/
def execShl (g : Guard) (w : Bool) (d : BitVec 8) (a : Src) (b : SrcB) (s : State) : Out :=
  .next (alu2 s g w d (srcOp a w) (srcbOp b w) (wide2 w shlN))

/-- Shift right; zeros enter (05 R96). -/
def execShr (g : Guard) (w : Bool) (d : BitVec 8) (a : Src) (b : SrcB) (s : State) : Out :=
  .next (alu2 s g w d (srcOp a w) (srcbOp b w) (wide2 w shrN))

/-- Shift right; copies of bit N−1 enter (05 R96). -/
def execSar (g : Guard) (w : Bool) (d : BitVec 8) (a : Src) (b : SrcB) (s : State) : Out :=
  .next (alu2 s g w d (srcOp a w) (srcbOp b w) (wide2 w sarN))

/-- Rotate left by s mod N (05 R96). -/
def execRot (g : Guard) (w : Bool) (d : BitVec 8) (a : Src) (b : SrcB) (s : State) : Out :=
  .next (alu2 s g w d (srcOp a w) (srcbOp b w) (wide2 w rotN))

/-- Leading zeros (05 R94). -/
def execClz (g : Guard) (w : Bool) (d : BitVec 8) (a : Src) (s : State) : Out :=
  .next (alu1 s g w d (srcOp a w) (wide1 w clzN))

/-- Ones (05 R94). -/
def execPopc (g : Guard) (w : Bool) (d : BitVec 8) (a : Src) (s : State) : Out :=
  .next (alu1 s g w d (srcOp a w) (wide1 w popN))

/-- Bits reversed (05 R94). -/
def execBrev (g : Guard) (w : Bool) (d : BitVec 8) (a : Src) (s : State) : Out :=
  .next (alu1 s g w d (srcOp a w) (wide1 w brevN))

/-- The field of vA that b names, zero-extended (05 R96). -/
def execBfx (g : Guard) (w : Bool) (d : BitVec 8) (a : Src) (b : SrcB) (s : State) : Out :=
  .next (alu2 s g w d (srcOp a w) (srcbOp b w) (wide2 w bfxN))

/-- The field of vA that b names, sign-extended (05 R96). -/
def execBfxs (g : Guard) (w : Bool) (d : BitVec 8) (a : Src) (b : SrcB) (s : State) : Out :=
  .next (alu2 s g w d (srcOp a w) (srcbOp b w) (wide2 w bfxsN))

/-- vC with the field that b names taken from the low bits of vA (05 R96). -/
def execBfi (g : Guard) (w : Bool) (d : BitVec 8) (a : Src) (b : SrcB) (c : CSrc) (s : State) : Out :=
  .next (alu3 s g w d (srcOp a w) (srcbOp b w) (csrcOp c w) (wide3 w bfiN))

/-- vD := vA where p[C] is true, else b (05 R94). -/
def execSel (g : Guard) (w : Bool) (d : BitVec 8) (a : Src) (b : SrcB) (c : BitVec 3) (s : State) : Out :=
  .next (runLanes s ⟨g, srcOp a w, srcbOp b w, noOp, [(d, w)]⟩ fun k v s =>
    .done (s.modThread k fun t => writeReg t d w (if readPred t c then v.a else v.b)))

/-- vD := vA (05 R94). -/
def execMov (g : Guard) (w : Bool) (d : BitVec 8) (a : Src) (s : State) : Out :=
  .next (alu1 s g w d (srcOp a w) fun x => x)

/-- The launch constant kA of a team, or the pair kA, kA+1 (05 R88). -/
def kconst (t : Team) (a : Nat) (w : Bool) : Dword :=
  if w then t.kconst.getD (a + 1) 0 ++ t.kconst.getD a 0 else (t.kconst.getD a 0).setWidth 64

/-- vD := kA (05 R94). -/
def execMovK (g : Guard) (w : Bool) (d : BitVec 8) (a : BitVec 6) (s : State) : Out :=
  .next (runLanes s ⟨g, noOp, noOp, noOp, [(d, w)]⟩ fun k _ s =>
    match aget k.team s.teams with
    | some tm => putReg d w (kconst tm a.toNat w) k s
    | none => .done s)

/-- vD := IMM64[N−1:0] (05 R94). -/
def execMovi (g : Guard) (w : Bool) (d : BitVec 8) (imm : Dword) (s : State) : Out :=
  .next (runLanes s ⟨g, noOp, noOp, noOp, [(d, w)]⟩ fun k _ s => putReg d w imm k s)

/-- vD := vA + (b << sh) (05 R94). -/
def execLea (g : Guard) (w : Bool) (d : BitVec 8) (a : Src) (b : SrcB) (sh : BitVec 3) (s : State) : Out :=
  .next (alu2 s g w d (srcOp a w) (srcbOp b w) (wide2 w fun _ x y => x + (y <<< sh.toNat)))

/-- p[D] := the comparison of vA with b (05 R97). -/
def execIcmp (g : Guard) (w : Bool) (d : BitVec 3) (a : Src) (b : SrcB) (cc : ICond) (s : State) : Out :=
  .next (cmp2 s g d (srcOp a w) (srcbOp b w) fun x y =>
    if w then icmp cc 64 x y else icmp cc 32 (x.setWidth 32) (y.setWidth 32))

/-- p[D] := p[A] AND p[B] (05 R98). -/
def execPand (g : Guard) (d : BitVec 3) (a b : BitVec 3) (s : State) : Out :=
  .next (threadOp s g [] fun t => writePred t d (readPred t a && readPred t b))

/-- p[D] := p[A] OR p[B] (05 R98). -/
def execPor (g : Guard) (d : BitVec 3) (a b : BitVec 3) (s : State) : Out :=
  .next (threadOp s g [] fun t => writePred t d (readPred t a || readPred t b))

/-- p[D] := p[A] XOR p[B] (05 R98). -/
def execPxor (g : Guard) (d : BitVec 3) (a b : BitVec 3) (s : State) : Out :=
  .next (threadOp s g [] fun t => writePred t d (readPred t a != readPred t b))

/-- p[D] := NOT p[A] (05 R98). -/
def execPnot (g : Guard) (d : BitVec 3) (a : BitVec 3) (s : State) : Out :=
  .next (threadOp s g [] fun t => writePred t d (!readPred t a))

/-- p[D] := p[A] (05 R98). -/
def execPmov (g : Guard) (d : BitVec 3) (a : BitVec 3) (s : State) : Out :=
  .next (threadOp s g [] fun t => writePred t d (readPred t a))

/-- p[D] := IMM16[0] (05 R98). -/
def execPmovImm (g : Guard) (d : BitVec 3) (imm : Bool) (s : State) : Out :=
  .next (threadOp s g [] fun t => writePred t d imm)

end Sys2Proof.Machine
end

