-- ==== Sys2Proof/Machine/StackOps.lean ====
section
/-! DEFINITION. The lane stack (07 R147 to R149): areas, the hand's stack cache, call frames (04 R77), and the stack
engine's steps. -/

namespace Sys2Proof.Machine

/-! ## Areas -/

/-- A field of a region entry (04 R64). -/
def regionKind (e : BitVec 128) : Nat := bits e.toNat 127 125
def regionPerTeam (e : BitVec 128) : Bool := e.getLsbD 124
def regionSpoff (e : BitVec 128) : Nat := bits e.toNat 116 96
def regionLen (e : BitVec 128) : Nat := bits e.toNat 95 64
def regionVbase (e : BitVec 128) : Nat := bits e.toNat 63 0

/-- The base of a region entry for a team: VBASE, or VBASE + LEN · index under PERTEAM (04 R64). -/
def regionBase (e : BitVec 128) (index : Nat) : Nat :=
  if regionPerTeam e then (regionVbase e + regionLen e * index) % 2 ^ 64 else regionVbase e

/-- A thread's index in its team: %tid (05 R90). -/
def tidOf (tm : Team) (k : ThreadKey) : Nat := k.hand * tm.w + k.lane

/-- S, the bytes of each thread's area (07 R147). -/
def stackSize (tm : Team) : Nat :=
  match tm.region.find? fun e => regionKind e = 3 with
  | some e => regionLen e / (tm.hands * tm.w) / 64 * 64
  | none => 0

/-- The address of a thread's area: %stkbase (07 R147). -/
def stackBase (tm : Team) (k : ThreadKey) : Nat :=
  match tm.region.find? fun e => regionKind e = 3 with
  | some e => (regionBase e tm.index + tidOf tm k * stackSize tm) % 2 ^ 64
  | none => 0                       -- without a STACK entry: DESIGN CHOICE, notes/assumptions/91.md

/-! ## The stack cache -/

/-- The most lines that a hand's cache of 16 KiB holds. -/
def stackLines : Nat := 256

/-- A lane's line in the cache. -/
def cachedLine (h : Hand) (lane line : Nat) : Option StackLine := h.stack.find? fun l => l.lane = lane && l.line = line

/-- Makes a line the most recently used one. -/
def touchLine (h : Hand) (l : StackLine) : Hand :=
  { h with stack := l :: h.stack.filter fun x => !(x.lane = l.lane && x.line = l.line) }

/-- The lines that n bytes from a on lie in. -/
def linesOf (a n : Nat) : List Nat := (List.range ((a + n - 1) / 64 + 1 - a / 64)).map (· + a / 64)

/-- The first line of an access that the cache does not hold. -/
def missingLine (h : Hand) (lane a n : Nat) : Option Nat := (linesOf a n).find? fun x => (cachedLine h lane x).isNone

/-- The thread asks the stack engine for the line of byte a of its area. -/
def askLine (s : State) (k : ThreadKey) (a : Nat) : State :=
  s.modThread k fun t => { t with need := match t.need with
    | some (b, w) => if b = a then some (b, w) else some (a, false)
    | none => some (a, false) }

/-- Reads n bytes of a thread's area; none where a line is missing, which is then asked for. -/
def stackGet (s : State) (k : ThreadKey) (a n : Nat) : State × Option Nat :=
  match aget (handOf k) s.hands with
  | none => (s, none)
  | some h =>
    match missingLine h k.lane a n with
    | some l => (askLine s k (max a (64 * l)), none)
    | none =>
      let h1 := (linesOf a n).foldl (fun h x => match cachedLine h k.lane x with
        | some l => touchLine h l
        | none => h) h
      let byte := fun i => match cachedLine h k.lane ((a + i) / 64) with
        | some l => l.data.extractLsb' (8 * ((a + i) % 64)) 8
        | none => 0
      (s.setHand (handOf k) h1, some (natOfBytes ((List.range n).map byte)))

/-- A line with one byte written. -/
def putByte (l : StackLine) (i : Nat) (b : Byte) : StackLine :=
  { l with data := (l.data &&& ~~~ ((0xFF#512) <<< (8 * i))) ||| (b.setWidth 512 <<< (8 * i)), dirty := true }

/-- Writes n bytes of a thread's area; none where a line is missing, which is then asked for. -/
def stackPut (s : State) (k : ThreadKey) (a n v : Nat) : State × Bool :=
  match aget (handOf k) s.hands with
  | none => (s, false)
  | some h =>
    match missingLine h k.lane a n with
    | some l => (askLine s k (max a (64 * l)), false)
    | none =>
      let h1 := ((List.range n).zip (bytesOfNat n v)).foldl (fun h e => match cachedLine h k.lane ((a + e.1) / 64) with
        | some l => touchLine h (putByte l ((a + e.1) % 64) e.2)
        | none => h) h
      (s.setHand (handOf k) h1, true)

/-- The fault of a stk[] access of n bytes at byte a of the area (07 R148). -/
def stackCheck (tm : Team) (k : ThreadKey) (a n acc : Nat) : Option FaultInfo :=
  if stackSize tm < a + n || stackSize tm = 0 then
    some { code := 0x0A, faddr := BitVec.ofNat 64 (stackBase tm k + a), acc := acc }
  else none

/-! ## Call frames -/

/-- The byte of the area at which the frame of call depth d lies (07 R148). -/
def frameAt (tm : Team) (d : Nat) : Nat := stackSize tm - 8 * (d + 1)

/-- CALL and CALLR (04 R77): the frame is pushed only if the transfer arrives. -/
def callTo (s : State) (k : ThreadKey) (tm : Team) (target : Dword) : LaneOut :=
  match aget k s.threads with
  | none => .wait s
  | some t =>
    if stackSize tm < 8 * (t.depth + 1) then
      let at_ : Int := (stackBase tm k : Int) + stackSize tm - 8 * (t.depth + 1)
      .fault { code := 0x0A, acc := 2, faddr := BitVec.ofInt 64 at_ }
    else
      let a := frameAt tm t.depth
      let ret := (nextSeq t.pc).toNat
      match stackPut s k a 8 ret with
      | (s1, false) => .wait s1
      | (_, true) =>
        match transfer s k target with
        | .arrived s' => .left ((stackPut s' k a 8 ret).1.modThread k fun t => { t with depth := t.depth + 1 })
        | .stopped s' => .left ((stackPut s' k a 8 ret).1.modThread k fun t => { t with depth := t.depth + 1 })
        | .waits s' => .wait s'
        | .fault s' f => .left (takeFault s' k f)

/-- RET (04 R77): the frame is popped only if the transfer arrives. -/
def returnFrom (s : State) (k : ThreadKey) (tm : Team) : LaneOut :=
  match aget k s.threads with
  | none => .wait s
  | some t =>
    if t.depth = 0 then .fault { code := 0x0A, faddr := t.pc }
    else
      match stackGet s k (frameAt tm (t.depth - 1)) 8 with
      | (s1, none) => .wait s1
      | (s1, some v) => jumpTo s1 k (BitVec.ofNat 64 v) fun t => { t with depth := t.depth - 1 }

/-! ## The stack engine -/

/-- A line of an exited thread that cannot be written back goes: no thread can read it any more. -/
def dropLine (s : State) (k : ThreadKey) (line : Nat) : State :=
  s.modHand (handOf k) fun h => { h with stack := h.stack.filter fun x => !(x.lane = k.lane && x.line = line) }

/-- Whether a thread has exited. -/
def exitedThread (s : State) (k : ThreadKey) : Bool :=
  match aget k s.threads with
  | some t => t.run = .exited
  | none => true

/-- An access at byte a of a thread's area that a translation does not serve: the thread waits for the dealer, or stops, with
a record of the stack engine's that names the address of that byte. -/
def stackFault (s : State) (k : ThreadKey) (a : Nat) (m : Miss) (acc : Nat) : State :=
  match aget k.team s.teams with
  | none => s
  | some tm =>
    let va := BitVec.ofNat 64 (stackBase tm k + a)
    match m.xl with
    | .dealer code page =>
      let s1 := sendFault s { threadRec s k { code := code, faddr := va, acc := acc } true page with src := 3, iaddr := 0 }
      let s2 := s1.modThread k fun t =>
        { t with need := some (a, true), run := if t.run.issuable then .stack else t.run }
      s2.modHand (handOf k) fun h => { h with bundles := match aget k s.threads with
        | some t => if t.run.issuable then dropLanes h.bundles (BitVec.twoPow 64 k.lane) else h.bundles
        | none => h.bundles }
    | .final code =>
      let s1 := m.note s tm.func
      let r := { threadRec s k { code := code, faddr := va, acc := acc } false 0 with src := 3, iaddr := 0 }
      if exitedThread s k then dropLine (sendFault s1 r) k (a / 64) else stopThread s1 k r
    | _ => m.note s tm.func

/-- Makes room for one line: the least recently used clean line goes. -/
def dropClean (ls : List StackLine) : List StackLine :=
  if ls.length < stackLines then ls
  else match ls.reverse.findIdx? fun l => !l.dirty with
    | some i => (delAt i ls.reverse).reverse
    | none => ls

/-- STACK_FILL (07 R149): the stack engine fills the line that a thread has missed. -/
def execStackFill (k : ThreadKey) (s : State) : Out :=
  match aget k s.threads, aget k.team s.teams, aget (handOf k) s.hands with
  | some t, some tm, some h =>
    match t.need with
    | some (a, false) =>
      let line := a / 64
      let room := dropClean h.stack
      if stackLines ≤ room.length then .next s
      else
        match virtRead s tm.func ((stackBase tm k + 64 * line) % 2 ^ 64) 64 .read
            (nodeFolded s tm.func tm.node) with
        | .ok (s1, bs) =>
          let l : StackLine := ⟨k.lane, line, BitVec.ofNat 512 (natOfBytes bs), false⟩
          .next ((s1.modHand (handOf k) fun h => { h with stack := l :: room }).modThread k fun t => { t with need := none })
        | .error x => .next (stackFault s k a x 1)
    | _ => .next s
  | _, _, _ => .next s

/-- Whether a hand's stack cache lacks room: it is full, and a thread of the hand waits for a line (07 R149). -/
def needsRoom (s : State) (h : HandKey) (hd : Hand) : Bool :=
  stackLines ≤ hd.stack.length && s.threads.any fun e => handOf e.1 = h && (match e.2.need with
    | some (_, false) => true
    | _ => false)

/-- STACK_SPILL (07 R149): when room is needed, the stack engine writes back the least recently used dirty line of a
hand. -/
def execStackSpill (h : HandKey) (s : State) : Out :=
  match aget h s.hands, aget h.team s.teams with
  | some hd, some tm =>
    if !needsRoom s h hd then .next s
    else match hd.stack.reverse.find? fun l => l.dirty with
    | some l =>
      let k := threadOf h l.lane
      match virtWrite s tm.func ((stackBase tm k + 64 * l.line) % 2 ^ 64) (bytesOfNat 64 l.data.toNat)
          (nodeFolded s tm.func tm.node) with
      | .ok s1 => .next (s1.modHand h fun hd => { hd with stack := hd.stack.map fun x =>
          if x.lane = l.lane && x.line = l.line then { x with dirty := false } else x })
      | .error x =>
        match aget k s.threads with
        | some t =>
          match t.need with
          | some (_, true) => .next s
          | _ => .next (stackFault s k (64 * l.line) x 2)
        | none => .next s
    | none => .next s
  | _, _ => .next s

/-- STACK_PAGE_ANSWER (07 R149): the dealer has mapped the page of a line, and the access is made again; or it has
refused, and the thread raises PAGE_INVALID or PAGE_PERMISSION. -/
def execStackPageAnswer (k : ThreadKey) (mapped perm : Bool) (s : State) : Out :=
  match aget k s.threads, aget k.team s.teams with
  | some t, some tm =>
    match t.need with
    | some (a, true) =>
      let held := match aget (handOf k) s.hands with
        | some h => (cachedLine h k.lane (a / 64)).isSome
        | none => false
      if mapped then
        let s1 := s.modThread k fun t => { t with need := if held then none else some (a, false) }
        .next (if t.run = .stack then wakeLanes s1 (handOf k) [k.lane] else s1)
      else if exitedThread s k then .next (dropLine (s.modThread k fun t => { t with need := none }) k (a / 64))
      else
        .next (takeFault s k { code := if perm then 0x11 else 0x10, faddr := BitVec.ofNat 64 (stackBase tm k + a), acc := if held then 2 else 1 })
    | _ => .next s
  | _, _ => .next s

end Sys2Proof.Machine
end

