-- ==== Sys2Proof/Machine/Quanta.lean ====
section
/-! DEFINITION. Team barriers, launch barriers, yield points and the ends of threads (04 R81, R82; 07 R161 to R163): who
waits, when the waiting threads leave, and the start of a quantum boundary in deterministic mode (13 R290). -/

namespace Sys2Proof.Machine

/-! ## The hands and threads of a team -/

/-- The hands of a team, by logical index. -/
def teamHands (s : State) (id : TeamId) : List HandKey :=
  match aget id s.teams with
  | some tm => (List.range tm.hands).map fun h => ⟨id, h⟩
  | none => []

/-- The threads of a team in ascending %tid. -/
def teamThreads (s : State) (id : TeamId) : List ThreadKey :=
  match aget id s.teams with
  | some tm => (List.range (tm.hands * tm.w)).map fun i => ⟨id, i / tm.w, i % tm.w⟩
  | none => []

/-- Every scratchpad and Commons access that the team's hands issued has settled (13 R278). -/
def teamSettled (s : State) (id : TeamId) : Bool :=
  (teamHands s id).all fun h => settledBefore s h (nextSeqNo s h)

/-- The waiting threads of a team leave: each goes on to its next sequential address. -/
def leaveWaiters (s : State) (id : TeamId) (p : Run → Bool) : State :=
  (teamHands s id).foldl (fun s h =>
    let ls := (List.range 64).filter fun l => match s.lane h l with
      | some t => p t.run
      | none => false
    if ls = [] then s
    else wakeLanes (ls.foldl (fun s l => s.modThread (threadOf h l) Thread.advance) s) h ls) s

/-! ## Openings -/

/-- Whether a slice end or a fold is pending for a team's node (04 R82, 15 R339). -/
def slicePending (s : State) (tm : Team) : Bool :=
  match aget tm.queue s.trees with
  | some tr => tr.nodes.any fun n => n.addr = tm.node && n.pending
  | none => false

/-- The tree of a team. -/
def treeOf (s : State) (tm : Team) : Option Tree := aget tm.queue s.trees

/-- Whether a slice end or a fold is pending for a team: a fold is so from its command on (15 R352). -/
def yieldSuspends (s : State) (tm : Team) : Bool :=
  slicePending s tm || (match treeOf s tm with
    | some tr => (foldOf s tr).isSome
    | none => false)

/-- The team barrier opens (07 R162). -/
def leaveTbar (s : State) (id : TeamId) : State :=
  let s1 := s.modTeam id fun tm => { tm with arr := 0, phase := !tm.phase }
  leaveWaiters s1 id (· = .tbar)

/-- The whole team has yielded (04 R82): it is to be suspended (15 R341), or every thread goes on. -/
def leaveYield (s : State) (id : TeamId) : State :=
  leaveWaiters (s.modTeam id fun tm => { tm with yarr := 0 }) id (· = .yield)

def completeYield (s : State) (id : TeamId) : State :=
  match aget id s.teams with
  | some tm =>
    if tm.suspendAt.isSome then s
    else if yieldSuspends s tm then s.modTeam id fun tm => { tm with suspendAt := some false }
    else leaveYield s id
  | none => s

/-- A team gives up its accumulators, and no longer asks for any (10 R207). -/
def freeMats (s : State) (id : TeamId) : State :=
  { s with mats := s.mats.map fun e => (e.1, { e.2 with
      owner := if e.2.owner = some id then none else e.2.owner
      accs := if e.2.owner = some id then [] else e.2.accs
      wait := e.2.wait.filter (· ≠ id) }) }

/-- A team whose last thread has exited drains (04 R59): every freeze of its chains is lifted (09 R183). -/
def startDrain (s : State) (id : TeamId) : State :=
  let s1 := (freeMats s id).modTeam id fun tm => { tm with st := .draining }
  { s1 with chans := s1.chans.map fun e => (e.1, { e.2 with frozen := e.2.frozen.filter (· ≠ id) }) }

/-- The opening checks of a team's barrier record. In deterministic mode an opening, the team's yield and its exit are
quantum boundaries, and the commit comes first (13 R290). -/
def openTeam (s : State) (id : TeamId) : State :=
  match aget id s.teams with
  | none => s
  | some tm =>
    if tm.st ≠ .running || tm.halted || tm.commit ≠ 0 || tm.suspendAt.isSome then s
    else if tm.live = 0 then
      if tm.detMode then s.modTeam id fun tm => { tm with commit := 1, commitYield := false, commitExit := true }
      else startDrain s id
    else if tm.arr = tm.live && teamSettled s id then
      if tm.detMode then s.modTeam id fun tm => { tm with commit := 1, commitYield := false, commitExit := false }
      else leaveTbar s id
    else if tm.yarr = tm.live then
      if tm.detMode then s.modTeam id fun tm => { tm with commit := 1, commitYield := true, commitExit := false }
      else completeYield s id
    else s

/-- The opening check of a launch barrier (07 R163), with the laggard boost (15 R336). LAST names the core of the latest
arrival, where an EXIT completes the opening, too (DESIGN CHOICE, notes/assumptions/126.md). -/
def openGroup (s : State) (g : Nat × Nat) : State :=
  match aget g s.groups with
  | none => s
  | some gr =>
    if gr.arr ≠ 0 && gr.arr = gr.live && gr.teams.all (fun id => id.die ≠ 8 && teamSettled s id) then
      let rep := gr.opened && gr.last = gr.lastArr
      let gr' := { gr with last := gr.lastArr, repeated := rep, phase := !gr.phase, arr := 0, opened := true,
                           boosted := if rep then some gr.lastArr else none }
      gr.teams.foldl (fun s id => leaveWaiters s id (· = .lbar)) { s with groups := aset g gr' s.groups }
    else s


/-- The opening checks that an arrival, an exit or a settled access of a team calls for. -/
def openChecks (s : State) (id : TeamId) : State :=
  match aget id s.teams with
  | some tm => if tm.chain then openGroup (openTeam s id) (groupOf tm) else openTeam s id
  | none => s

/-- A thread ends (04 R81, 07 R161). -/
def exitThread (s : State) (k : ThreadKey) : State :=
  match aget k s.threads, aget k.team s.teams with
  | some t, some tm =>
    if t.run = .exited then s
    else
      let s0 := withdraw s k
      let s1 := s0.modThread k fun t => { t with run := .exited, need := none, go := none, fenceAt := none, bwait := none, ask := none }
      let s2 := s1.modTeam k.team fun tm => { tm with live := tm.live - 1 }
      let s3 := s2.modHand (handOf k) fun h => { h with bundles := dropLanes h.bundles (BitVec.twoPow 64 k.lane) }
      if tm.chain then { s3 with groups := amod (groupOf tm) (fun g => { g with live := g.live - 1 }) s3.groups } else s3
  | _, _ => s

/-! ## The current hand of DET-SCHED (04 R71) -/

/-- Whether a thread keeps its hand from resting: it has neither exited nor stopped, and waits neither at a barrier or a
YIELD nor on a condition of R71. -/
def Run.keepsHand : Run → Bool
  | .exited => false
  | .stopped _ => false
  | .broken _ => false
  | .tbar => false
  | .lbar => false
  | .yield => false
  | .blocked _ => false
  | _ => true

/-- Whether a fill waits for a collective's end (16 R368). -/
def FillWhat.isColl : FillWhat → Bool
  | .coll _ _ _ => true
  | _ => false

/-- Whether a thread waits for the register that a COLLQ.WAIT of its own fills. -/
def waitsColl (s : State) (k : ThreadKey) (r : Run) : Bool :=
  match r with
  | .regs _ rs => s.fills.any fun f => f.thread = k && f.what.isColl && rs.any fun x =>
      x.1 = f.dest || x.1 = f.dest + 1 || (x.2 && x.1 + 1 = f.dest)
  | _ => false

/-- A hand that waits at a barrier or a YIELD, is parked, or has wholly exited (04 R71). -/
def handRests (s : State) (h : HandKey) : Bool :=
  (List.range 64).all fun l => match s.lane h l with
    | some t => !t.run.keepsHand || waitsColl s (threadOf h l) t.run
    | none => true

/-- The current hands that rest: another hand may become current. -/
def dropCurrent (s : State) : State := { s with current := s.current.filter fun e => !handRests s e.2 }

/-! ## The team in focus -/

/-- The team whose bundle is in focus. -/
def focusTeam (s : State) : Option TeamId :=
  match s.focus with
  | .bundle h _ => some h.team
  | _ => none

/-- Opening checks for the team that was in focus. -/
def openFocus (s0 s : State) : State :=
  match focusTeam s0 with
  | some id => openChecks s id
  | none => s

/-- Mismatch checks (04 R74) for the hand that was in focus. -/
def mismatchFocus (s0 s : State) : State :=
  match s0.focus with
  | .bundle h _ => checkMismatch s h
  | _ => s

/-- A performing thread waits at TBAR, LBAR or YIELD, and the record counts it. The current hand changes at the arrival,
though it may open the barrier (04 R71). -/
def arriveAt (s : State) (g : Guard) (r : Run) (count : ThreadKey → State → State) : State :=
  let s1 := runLanes s ⟨g, noOp, noOp, noOp, []⟩ fun k _ s => .left ((count k s).modThread k fun t => { t with run := r })
  openFocus s (dropCurrent (mismatchFocus s s1))

/-! ## The instructions -/

/-- TBAR (07 R162). -/
def execTbar (g : Guard) (s : State) : Out :=
  .next (arriveAt s g .tbar fun k s => s.modTeam k.team fun tm => { tm with arr := tm.arr + 1 })

/-- LBAR (07 R163). -/
def execLbar (g : Guard) (s : State) : Out :=
  .next (arriveAt s g .lbar fun k s =>
    match aget k.team s.teams with
    | some tm => { s with groups := amod (groupOf tm) (fun gr => { gr with arr := gr.arr + 1, lastArr := k.team.core % 8 }) s.groups }
    | none => s)

/-- YIELD (04 R82). -/
def execYield (g : Guard) (s : State) : Out :=
  .next (arriveAt s g .yield fun k s => s.modTeam k.team fun tm => { tm with yarr := tm.yarr + 1 })

/-- EXIT (04 R81). -/
def execExit (g : Guard) (s : State) : Out :=
  .next (openFocus s (runLanes s ⟨g, noOp, noOp, noOp, []⟩ fun k _ s => .left (exitThread s k)))

/-! ## Acceptance by the banks (07 R141, 08 R170) -/

/-- SCRATCHPAD_BANK_ACCEPT: a bank arbiter accepts the oldest queued access of a hand; none while IDLE reads 1 (23 R408). -/
def execScratchpadBankAccept (h : HandKey) (s : State) : Out :=
  match aget h s.hands with
  | none => .next s
  | some hd =>
    match oldestStore hd.storeQ with
    | some n => .next (if (s.core (coreOf h.team)).idle then s else match acceptNth s h n false with
      | some s' => openChecks s' h.team
      | none => s)
    | none => .next s

/-- The Commons bank and the function of the n-th queued access of a hand. -/
def cmLane (s : State) (h : HandKey) (n : Nat) : Option (Bool × Nat × Nat) :=
  match aget h.team s.teams, aget h s.hands with
  | some tm, some hd => (hd.storeQ[n]?.bind fun e => e.op.cmBank (teamFunc s tm)).map fun b => (false, b, tm.func)
  | _, _ => none

/-- The functions of which an access waits at a Commons bank. -/
def cmWaits (s : State) (bank : Nat) : List (Bool × Nat × Nat) :=
  (s.hands.flatMap fun e => (List.range e.2.storeQ.length).filterMap fun n => match e.2.storeQ[n]?, cmLane s e.1 n with
    | some a, some k => if k.2.1 = bank && mayAccept s e.1 e.2.storeQ n a then some k else none
    | _, _ => none).dedup

/-- Whether a bank may accept an access of a function: every function that waits there can still be served once in every 64
accepted accesses, or none has been passed more often (08 R171). -/
def cmFair (s : State) (k : Bool × Nat × Nat) : Bool :=
  let w := cmWaits s k.2.1
  canShare (passedBy s.cmPassed w k) w || w.all fun x => agetD x 0 s.cmPassed ≤ agetD k 0 s.cmPassed

/-- A bank has accepted an access of a function while others waited. -/
def cmCounted (s : State) (k : Bool × Nat × Nat) : State := { s with cmPassed := passedBy s.cmPassed (cmWaits s k.2.1) k }

/-- COMMONS_BANK_ACCEPT: a bank arbiter accepts a queued access of a hand and performs it whole. Which of those that wait it
sees first is open, but for each function's share (notes/assumptions/121.md). -/
def execCommonsBankAccept (h : HandKey) (n : Nat) (s : State) : Out :=
  match cmLane s h n with
  | none => .next s
  | some k => .next (if cmFair s k then match acceptNth (cmCounted s k) h n true with
    | some s' => openChecks s' h.team
    | none => s
    else s)

end Sys2Proof.Machine
end

