-- ==== Sys2Proof/Machine/Control.lean ====
section
/-! DEFINITION. Control instructions (04 R75 to R85), but for EXIT and YIELD. -/

namespace Sys2Proof.Machine

/-- A shape of a guard alone. -/
def bare (g : Guard) : Shape := ⟨g, noOp, noOp, noOp, []⟩

/-- NOP (04 R76). -/
def execNop (g : Guard) (s : State) : Out := .next (threadOp s g [] id)

/-- BRA (04 R77). -/
def execBra (g : Guard) (tslot : BitVec 3) (disp : Word) (s : State) : Out :=
  .next (runLanes s (bare g) fun k _ s => jumpTo s k (relTarget (pcOf s k) tslot disp) id)

/-- JMP (04 R77). -/
def execJmp (g : Guard) (a : CSrc) (s : State) : Out :=
  .next (runLanes s ⟨g, csrcOp a true, noOp, noOp, []⟩ fun k v s => jumpTo s k v.a id)

/-- An instruction of a thread that needs its team. -/
def inTeam (s : State) (k : ThreadKey) (f : Team → LaneOut) : LaneOut :=
  match aget k.team s.teams with
  | some tm => f tm
  | none => .wait s

/-- CALL (04 R77). -/
def execCall (g : Guard) (tslot : BitVec 3) (disp : Word) (s : State) : Out :=
  .next (runLanes s (bare g) fun k _ s => inTeam s k fun tm => callTo s k tm (relTarget (pcOf s k) tslot disp))

/-- CALLR (04 R77). -/
def execCallr (g : Guard) (a : CSrc) (s : State) : Out :=
  .next (runLanes s ⟨g, csrcOp a true, noOp, noOp, []⟩ fun k v s => inTeam s k fun tm => callTo s k tm v.a)

/-- RET (04 R77). -/
def execRet (g : Guard) (s : State) : Out :=
  .next (runLanes s (bare g) fun k _ s => inTeam s k fun tm => returnFrom s k tm)

/-! ## BRP (04 R78) -/

/-- A thread of a formed BRP branches; where its fetch waits it keeps the target, to which it goes once it has been
answered. -/
def branchThread (s : State) (k : ThreadKey) (target : Dword) : State :=
  match transfer s k target with
  | .arrived s' => s'
  | .stopped s' => s'
  | .waits s' => s'.modThread k fun t => { t with go := some target }
  | .fault s' f => takeFault s' k f

/-- A BRP: once its rendezvous has formed, the performing threads branch all or not at all, by their votes. -/
def runBrp (s : State) (g : Guard) (a : BitVec 3) (tslot : BitVec 3) (disp : Word) (take : Nat → Nat → Bool) : State :=
  match inFocus s with
  | none => { s with focus := .none }
  | some (h, _, ls) =>
    if !allArrived s h ls then endIssue (arriveAll s h ls) h ls
    else
      let act := performing s h g ls
      let c := act.countP fun l => match s.lane h l with
        | some t => readPred t a
        | none => false
      let s1 := ls.foldl (fun s l =>
        let k := threadOf h l
        if act.contains l && take c act.length then branchThread s k (relTarget (pcOf s k) tslot disp) else goOn s k) s
      endIssue s1 h ls

/-- BRP.ANY (04 R78). -/
def execBrpAny (g : Guard) (a : BitVec 3) (tslot : BitVec 3) (disp : Word) (s : State) : Out :=
  .next (runBrp s g a tslot disp fun c _ => 0 < c)

/-- BRP.ALL (04 R78). -/
def execBrpAll (g : Guard) (a : BitVec 3) (tslot : BitVec 3) (disp : Word) (s : State) : Out :=
  .next (runBrp s g a tslot disp fun c n => c = n)

/-- BRP.NONE (04 R78). -/
def execBrpNone (g : Guard) (a : BitVec 3) (tslot : BitVec 3) (disp : Word) (s : State) : Out :=
  .next (runBrp s g a tslot disp fun c _ => c = 0)

/-! ## JOIN (04 R80) -/

/-- JOIN over the mask that a thread's part gives: performing threads arrive over it, and once all have arrived it is
their %pmask. -/
def runJoin (s : State) (sh : Shape) (mask : Vals → BitVec 64) : State :=
  match inFocus s with
  | none => { s with focus := .none }
  | some (h, tm, ls) =>
    if allArrived s h ls then
      let s1 := ls.foldl (fun s l =>
        let k := threadOf h l
        goOn (s.modThread k fun t => { t with pmask := match t.run with
          | .rendezvous m => m
          | _ => t.pmask }) k) s
      endIssue s1 h ls
    else
      let perf := performing s h sh.g ls
      let s1 := ls.foldl (fun s0 l =>
        let k := threadOf h l
        if perf.contains l then
          match readOpnds s h tm.w sh l with
          | .trap c => takeFault s0 k { code := c }
          | .wait => waitRegs s0 k l sh
          | .ok v => arriveLane s0 h (mask v &&& BitVec.ofNat 64 (2 ^ tm.w - 1)) l
        else goOn s0 k) s
      endIssue (checkMismatch s1 h) h ls

/-- JOIN imm (04 R80): FN = 0. -/
def execJoinImm (g : Guard) (imm : Word) (s : State) : Out := .next (runJoin s (bare g) fun _ => imm.signExtend 64)

/-- JOIN vA (04 R80): FN = 1. -/
def execJoinReg (g : Guard) (w : Bool) (a : CSrc) (s : State) : Out :=
  .next (runJoin s ⟨g, csrcOp a w, noOp, noOp, []⟩ fun v => v.a)

/-! ## Waiting and stopping -/

/-- WAITF (04 R83). -/
def execWaitf (g : Guard) (w : Bool) (a : BitVec 8) (b : BitVec 8) (c : BitVec 8) (s : State) : Out :=
  .next (runLanes s ⟨g, .reg a w .none false, .reg b w .none false, .reg c w .none false, []⟩ fun _ _ s => .done s)

/-- BRK (04 R84): with the partition's debug enable the thread stops and a breakpoint is reported. -/
def execBrk (g : Guard) (imm : BitVec 16) (s : State) : Out :=
  .next (runLanes s (bare g) fun k _ s => inTeam s k fun tm =>
    if (s.func tm.func).debugEn then
      .left ((s.modThread k fun t => { t with run := .broken imm }).modTeam k.team fun tm =>
        { tm with bpLog := tm.bpLog ++ [(k.hand, k.lane, pcOf s k, imm)] })
    else .done s)

/-- BREAKPOINT_RESUME (04 R84): a thread stopped at a BRK goes on at its next sequential address. -/
def execBreakpointResume (k : ThreadKey) (s : State) : Out :=
  match aget k s.threads with
  | some t =>
    match t.run with
    | .broken _ => .next (wakeLanes (s.modThread k Thread.advance) (handOf k) [k.lane])
    | _ => .next s
  | none => .next s

/-- TRAP (04 R85). -/
def execTrap (g : Guard) (imm : BitVec 16) (s : State) : Out :=
  .next (runLanes s (bare g) fun _ _ _ => .fault { code := 0x3F, faddr := imm.setWidth 64 })

end Sys2Proof.Machine
end

