-- ==== Sys2Proof/Machine/Tiles.lean ====
section
/-! DEFINITION. The tile table (07 R150 to R153): entries, tile names, footprints (07 R151, 10 R209 to R211) and the states
that a tile passes through. -/

namespace Sys2Proof.Machine

/-! ## Entries (07 R150) -/

/-- The fields of a tile-table entry. -/
structure Tile where
  scbase : Nat
  base : Nat
  ncol : Nat
  nrow : Nat
  fmt : Nat
  elem : Nat
  layout : Nat
  q : Bool
  state : Nat                       -- 0 EMPTY, 1 FILLING, 2 READY, 3 DRAINING
deriving DecidableEq, Repr

def Tile.ofWord (e : BitVec 64) : Tile :=
  let n := e.toNat
  ⟨bits n 54 38, bits n 37 23, bits n 22 17, bits n 16 11, bits n 10 7, bits n 6 5, bits n 4 3, bit n 2, bits n 1 0⟩

def Tile.toWord (t : Tile) : BitVec 64 :=
  BitVec.ofNat 64 (t.scbase * 2 ^ 38 + t.base * 2 ^ 23 + t.ncol * 2 ^ 17 + t.nrow * 2 ^ 11 + t.fmt * 2 ^ 7 + t.elem * 2 ^ 5
    + t.layout * 2 ^ 3 + (if t.q then 4 else 0) + t.state)

/-- The entry of a core's tile table. -/
def tileWord (s : State) (c : CoreId) (i : Nat) : BitVec 64 := agetD i 0 (s.core c).tiles
def tileAt (s : State) (c : CoreId) (i : Nat) : Tile := Tile.ofWord (tileWord s c i)
def setTileWord (s : State) (c : CoreId) (i : Nat) (e : BitVec 64) : State :=
  s.modCore c fun co => { co with tiles := aset i e co.tiles }
def setTile (s : State) (c : CoreId) (i : Nat) (t : Tile) : State := setTileWord s c i t.toWord
def setTileState (s : State) (c : CoreId) (i st : Nat) : State := setTile s c i { tileAt s c i with state := st }

/-! ## Names (07 R143, R152) -/

/-- A tile: its team and the entry of that team's core's table. -/
structure TileRef where
  team : TeamId
  entry : Nat
deriving DecidableEq, Repr

/-- The team that a remote name's core reaches. -/
def peerTeam (s : State) (id : TeamId) (tm : Team) (n : Nat) : Option TeamId :=
  let c := id.core / 8 * 8 + n
  if c = id.core then some id
  else if tm.chain then
    match aget (groupOf tm) s.groups with
    | some g => g.teams[n]?
    | none => none
  else
    let ps := s.teams.filter fun e => e.1.die = id.die && e.1.core = c && e.2.queue = tm.queue && e.2.node = tm.node
    (ps.foldl (fun b e => match b with
      | none => some e
      | some x => if e.2.index < x.2.index then some e else some x) none).map (·.1)

/-- The tile a name stands for; none raises TILE_STATE (07 R152). -/
def tileRef (s : State) (id : TeamId) (tm : Team) : TileName → Option TileRef
  | .loc m => (tm.tiles[m.toNat]?).map fun e => ⟨id, e⟩
  | .remote n m =>
    match peerTeam s id tm n.toNat with
    | some p => match aget p s.teams with
      | some ptm => (ptm.tiles[m.toNat]?).map fun e => ⟨p, e⟩
      | none => none
    | none => none

/-- The fields of a referenced tile. -/
def TileRef.tile (s : State) (r : TileRef) : Tile := tileAt s (coreOf r.team) r.entry

/-! ## Footprints (07 R151, 10 R209 to R211) -/

/-- The width of an element's field. -/
def Tile.field (t : Tile) (f : Word) : Nat := if t.elem = 0 then fmtField f else 16

/-- The bytes of a dense row. -/
def Tile.stride (t : Tile) (f : Word) : Nat := ((t.ncol + 1) * t.field f + 31) / 32 * 4

/-- Elements in a block that shares a scale; 0 without scales. -/
def Tile.block (t : Tile) (f : Word) : Nat :=
  if t.elem ≠ 0 then 0 else match fmtScale f with
  | 1 => 32
  | 2 => 16
  | _ => 0

/-- Scale bytes of a row. -/
def Tile.blocks (t : Tile) (f : Word) : Nat := if t.block f = 0 then 0 else (t.ncol + t.block f) / t.block f

/-- The committed format value that a tile's entry names in its team. -/
def tileFmt (s : State) (r : TileRef) : Word :=
  match aget r.team s.teams with
  | some tm => tm.fmts.getD (r.tile s).fmt 0
  | none => 0

/-- nnz of a sparse-rows tile, as its row pointers stand. -/
def sparseCount (s : State) (id : TeamId) (tm : Team) (t : Tile) : Nat :=
  if tm.scratch < t.base * 64 + 192 then 0 else s.spNat id tm (t.base * 64 + 2 * (t.nrow + 1)) 2

/-- The row pointer that gives nnz of a sparse-rows tile is poisoned: a reader of nnz raises POISON (07 R141). -/
def sparsePoison (s : State) (id : TeamId) (tm : Team) (t : Tile) : Option FaultInfo :=
  let a := t.base * 64 + 2 * (t.nrow + 1)
  if t.layout = 1 && t.base * 64 + 192 ≤ tm.scratch && s.spPoisoned id tm a 2 then
    some { code := 0x15, faddr := BitVec.ofNat 64 a, acc := 1 }
  else none

/-- The bytes of a tile's footprint. -/
def Tile.footprint (t : Tile) (f : Word) (nnz : Nat) : Nat :=
  if t.layout = 1 then 192 + 4 * nnz
  else if t.layout = 2 then 64 + (t.nrow + 1) * t.stride f
  else (t.nrow + 1) * t.stride f

/-- The bytes of a tile's scale side array. -/
def Tile.sideLen (t : Tile) (f : Word) : Nat := (t.nrow + 1) * t.blocks f

/-- Whether a tile's footprint and side array lie within its team's scratchpad. -/
def Tile.inBounds (t : Tile) (f : Word) (nnz scratch : Nat) : Bool :=
  t.base * 64 + t.footprint f nnz ≤ scratch && (t.sideLen f = 0 || t.scbase * 16 + t.sideLen f ≤ scratch)

/-! ## States (07 R153) -/

/-- What an event meets. -/
inductive TileMeet where
  | go | wait | fault
deriving DecidableEq, Repr

/-- Whether a matrix instruction writes the tile in its team's current trick: it reads FILLING until the boundary
(10 R215). -/
def trickTile (s : State) (r : TileRef) : Bool :=
  match aget r.team s.teams with
  | some tm => tm.trickTiles.any fun m => tm.tiles[m]? = some r.entry
  | none => false

/-- A reader (07 R153); in the same trick it does not wait for a tile that a matrix instruction writes (10 R215). -/
def meetReader (s : State) (reader : TeamId) (r : TileRef) : TileMeet :=
  let t := r.tile s
  if t.state = 2 then .go
  else if t.state = 0 && !t.q then .fault
  else if reader = r.team && trickTile s r then .fault
  else .wait

/-- A matrix instruction that writes the tile whole (07 R153). -/
def meetWriter (s : State) (r : TileRef) : TileMeet :=
  match (r.tile s).state with
  | 0 => .go
  | 2 => .fault
  | _ => .wait

/-- Whether a matrix instruction holds the tile (10 R214). -/
def tileHeld (s : State) (r : TileRef) : Bool := s.holds.any fun h => h.2.team = r.team && h.2.tile = some r.entry

/-- A tile event of a thread (07 R153): 0 TSET, 1 TREADY, 2 TREL. -/
def meetEvent (s : State) (r : TileRef) (op : Nat) : TileMeet :=
  let t := r.tile s
  if op ≠ 1 && tileHeld s r then .wait
  else if t.state = 1 || t.state = 3 then .wait
  else if op = 0 && t.state = 2 then .fault
  else if op = 2 && t.state = 0 && t.q then .wait
  else .go

/-- The effect of a tile event; desc holds a TSET's new entry. -/
def tileEvent (s : State) (r : TileRef) (op : Nat) (desc : BitVec 64) : State :=
  let t := r.tile s
  let c := coreOf r.team
  if op = 0 then setTile s c r.entry { Tile.ofWord desc with q := t.q, state := t.state }
  else if op = 1 then setTile s c r.entry { t with state := 2 }
  else if t.state = 2 then setTile s c r.entry { t with state := 0 }
  else s

end Sys2Proof.Machine
end

