-- ==== Sys2Proof/Machine/Scratchpad.lean ====
section
/-! DEFINITION. Scratchpad loads, stores and atomics (07 R142 to R148), tile instructions (R153 to R156) and byte barriers
(R157 to R160). -/

namespace Sys2Proof.Machine

/-! ## ST (07 R144, R148) -/

/-- The mask of the first n bytes of an entry's data. -/
def byteMask (n : Nat) : BitVec 8 := BitVec.ofNat 8 (2 ^ n - 1)

/-- The low n bytes of a stored value. -/
def lowBytes (n : Nat) (v : Dword) : Nat := v.toNat % 2 ^ (8 * n)

/-- ST of the scratchpad: through the hand's store queue, or in deterministic mode into its buffer (07 R146). -/
def storeSp (s : State) (k : ThreadKey) (tm : Team) (n a : Nat) (v : Dword) (rel : Option Scope) : LaneOut :=
  match spCheck tm a n n 2 with
  | some f => .fault f
  | none =>
    if tm.detMode then buffered s k tm.w ⟨BitVec.ofNat 64 (lowBytes n v), k.lane, 0, 0, byteMask n, a, pcOf s k⟩
    else if acqPending s k false then .wait s
    else .done (enqueue s k (.spStore a n (lowBytes n v)) rel none)

/-- ST of the lane stack: never buffered (07 R146). -/
def storeStk (s : State) (k : ThreadKey) (tm : Team) (n a : Nat) (v : Dword) : LaneOut :=
  match stackCheck tm k a n 2 with
  | some f => .fault f
  | none => match stackPut s k a n (lowBytes n v) with
    | (s1, true) => .done s1
    | (s1, false) => .wait s1

/-- ST (07 R144). -/
def execSt (g : Guard) (a : Src) (b : CSrc) (sz : Size) (rel : Option Scope) (off : Word) (space : LdSpace)
    (s : State) : Out :=
  .next (runLanes s ⟨g, srcOp a false, csrcOp b (sizeBytes sz = 8), noOp, []⟩ fun k v s => inTeam s k fun tm =>
    match space with
    | .sp => storeSp s k tm (sizeBytes sz) (memAddr v.a off) v.b rel
    | .stk => storeStk s k tm (sizeBytes sz) (memAddr v.a off) v.b)

/-! ## SATOM (07 R145, R146) -/

/-- The value of a thread's register or pair. -/
def regOf (s : State) (k : ThreadKey) (r : BitVec 8) (pair : Bool) : Dword :=
  match aget k s.threads with
  | some t => readReg t r pair
  | none => 0

/-- The buffer entries of an SATOM: the compare value of a 64-bit CAS first (13 R289). -/
def satomEntries (k : ThreadKey) (w : Bool) (op : AtomOp) (a : Nat) (b cmp : Dword) (pc : Dword) : List DetEntry :=
  let mask : BitVec 8 := if w then 0xFF else 0x0F
  let data : Dword := if w then b else (cmp.setWidth 32 ++ b.setWidth 32 : BitVec 64)
  let e : DetEntry := ⟨data, k.lane, 2, op.code.toNat, mask, a, pc⟩
  if w && op = .cas then [⟨cmp, k.lane, 6, 0, 0xFF, a, pc⟩, e] else [e]

/-- SATOM in deterministic mode: the old value as the thread sees it, and the operation into the buffer (07 R146). -/
def satomDet (s : State) (k : ThreadKey) (tm : Team) (w : Bool) (d : BitVec 8) (op : AtomOp) (a : Nat) (b : Dword) :
    LaneOut :=
  let n := if w then 8 else 4
  match spCheck tm a n n 8 with
  | some f => .fault f
  | none =>
    match spLoad s k tm a n n with
    | .wait => .wait s
    | .fault f => .fault { f with acc := 8 }
    | .ok old =>
      match takeEntries s k tm.w (satomEntries k w op a b (regOf s k d w) (pcOf s k)) with
      | some s1 => putReg d w (BitVec.ofNat 64 old) k s1
      | none => .fault { code := 0x0E, faddr := BitVec.ofNat 64 a, acc := 8 }

/-- SATOM (07 R145): the thread's register is ready for its next instruction, so with a destination it goes on once its
bank has accepted the access. -/
def satomNormal (s : State) (k : ThreadKey) (tm : Team) (w : Bool) (d : BitVec 8) (op : AtomOp) (a : Nat) (b : Dword) :
    LaneOut :=
  let n := if w then 8 else 4
  match spCheck tm a n n 8 with
  | some f => .fault f
  | none =>
    if acqPending s k false then .wait s
    else
      let s1 := enqueue s k (.spAtom a op w b (regOf s k d w) d) none none
      if d = 0 then .done s1 else .left (s1.modThread k fun t => { t with run := .bank })

/-- SATOM (07 R145). -/
def execSatom (g : Guard) (w : Bool) (d : BitVec 8) (a : Src) (b : CSrc) (op : AtomOp) (off : Word) (s : State) : Out :=
  .next (runLanes s ⟨g, srcOp a false, csrcOp b w, noOp, [(d, w)]⟩ fun k v s => inTeam s k fun tm =>
    if tm.detMode then satomDet s k tm w d op (memAddr v.a off) v.b
    else satomNormal s k tm w d op (memAddr v.a off) v.b)

/-! ## Tiles (07 R153 to R156) -/

/-- The reference of a local tile number. -/
def localTile (tm : Team) (k : ThreadKey) (m : BitVec 6) : TileRef := ⟨k.team, tm.tiles.getD m.toNat 0⟩

/-- A tile event of a thread: at once under R153, or in deterministic mode at the boundary (07 R156). -/
def doTileEvent (s : State) (k : ThreadKey) (tm : Team) (m : BitVec 6) (op : Nat) (desc : BitVec 64) : LaneOut :=
  if tm.detMode then buffered s k tm.w ⟨desc, k.lane, 7, op, 0, m.toNat, pcOf s k⟩
  else
    let r := localTile tm k m
    match meetEvent s r op with
    | .go => .done (tileEvent s r op desc)
    | .wait => .wait (blockOn s k (.tile r.team r.entry op))
    | .fault => .fault { code := 0x0B }

/-- The entry that a TSET describes (07 R154). -/
def tsetDesc (a b : Nat) (lay el : BitVec 2) (rows cols : BitVec 6) (f : BitVec 4) : BitVec 64 :=
  Tile.toWord ⟨b / 16, a / 64, cols.toNat, rows.toNat, f.toNat, el.toNat, lay.toNat, false, 0⟩

/-- TSET (07 R154). -/
def execTset (g : Guard) (d : BitVec 6) (a : CSrc) (b : CSrc) (lay : BitVec 2) (el : BitVec 2) (rows : BitVec 6)
    (cols : BitVec 6) (f : BitVec 4) (s : State) : Out :=
  .next (runBundle s ⟨g, csrcOp a false, csrcOp b false, noOp, []⟩ fun k v s => inTeam s k fun tm =>
    let x := v.a.toNat % 2 ^ 32
    let y := v.b.toNat % 2 ^ 32
    if x % 64 ≠ 0 then .fault { code := 0x09, faddr := BitVec.ofNat 64 x }
    else if y % 16 ≠ 0 then .fault { code := 0x09, faddr := BitVec.ofNat 64 y }
    else if tm.scratch ≤ x then .fault { code := 0x08, faddr := BitVec.ofNat 64 x }
    else if tm.scratch ≤ y then .fault { code := 0x08, faddr := BitVec.ofNat 64 y }
    else doTileEvent s k tm d 0 (tsetDesc x y lay el rows cols f))

/-- TREADY (07 R153). -/
def execTready (g : Guard) (d : BitVec 6) (s : State) : Out :=
  .next (runBundle s (bare g) fun k _ s => inTeam s k fun tm => doTileEvent s k tm d 1 0)

/-- TREL (07 R153). -/
def execTrel (g : Guard) (d : BitVec 6) (s : State) : Out :=
  .next (runBundle s (bare g) fun k _ s => inTeam s k fun tm => doTileEvent s k tm d 2 0)

/-- TGET.E (07 R155): the entry, whatever its state. -/
def execTgetE (g : Guard) (w : Bool) (d : BitVec 8) (t : BitVec 6) (s : State) : Out :=
  .next (runLanes s ⟨g, noOp, noOp, noOp, [(d, w)]⟩ fun k _ s => inTeam s k fun tm =>
    putReg d w (tileWord s (coreOf k.team) (localTile tm k t).entry) k s)

/-! ## Byte barriers (07 R157 to R160) -/

/-- BBINIT of a thread (07 R159): its ILLEGALs before bounds and alignment. -/
def initBarrier (s : State) (k : ThreadKey) (tm : Team) (a bytes arrivals : Nat) : LaneOut :=
  if 4096 < arrivals then .fault { code := 0x01, felem := arrivals, faddr := BitVec.ofNat 64 a }
  else if bytes = 0 && arrivals = 0 then .fault { code := 0x01, felem := 0, faddr := BitVec.ofNat 64 a }
  else match spCheck tm a 16 16 2 with
    | some f => .fault f
    | none =>
      if tm.detMode then
        buffered s k tm.w ⟨BitVec.ofNat 64 (arrivals * 2 ^ 32 + bytes), k.lane, 3, 0, 0, a, pcOf s k⟩
      else if acqPending s k false then .wait s
      else .done (enqueue s k (.spStore a 16 (natOfBytes (barrierBytes bytes arrivals))) none none)

/-- The address of BBINIT: IMM16 counts 16 bytes (07 R142). -/
def barrierAddr (a : Dword) (off : BitVec 16) : Nat := memAddr a (off.setWidth 32 * 16)

/-- BBINIT sp[vA+off], vB, vC (07 R159). -/
def execBbinit (g : Guard) (a : Src) (b : Src) (c : CSrc) (off : BitVec 16) (s : State) : Out :=
  .next (runLanes s ⟨g, srcOp a false, srcOp b false, csrcOp c false, []⟩ fun k v s => inTeam s k fun tm =>
    initBarrier s k tm (barrierAddr v.a off) (v.b.toNat % 2 ^ 32) (v.c.toNat % 2 ^ 32))

/-- BBINIT sp[vA+off], bytes, arrivals (07 R159). -/
def execBbinitImm (g : Guard) (a : CSrc) (off : BitVec 16) (bytes : BitVec 20) (arrivals : BitVec 12) (s : State) : Out :=
  .next (runLanes s ⟨g, csrcOp a false, noOp, noOp, []⟩ fun k v s => inTeam s k fun tm =>
    initBarrier s k tm (barrierAddr v.a off) bytes.toNat arrivals.toNat)

/-- BBARR (07 R158, R160): the token is set when the bank accepts the arrival; never buffered. -/
def execBbarr (g : Guard) (a : Src) (off : Word) (s : State) : Out :=
  .next (runLanes s ⟨g, srcOp a false, noOp, noOp, []⟩ fun k v s => inTeam s k fun tm =>
    let x := memAddr v.a off
    match spCheck tm x 16 16 8 with
    | some f => .fault f
    | none =>
      if acqPending s k false then .wait s
      else .left ((enqueue s k (.spArrive x) none none).modThread k fun t => { t with run := .bank }))

/-- Whether an access of the hand that writes the bytes is still queued. -/
def writePending (h : Hand) (a n : Nat) : Bool :=
  h.storeQ.any fun e => match e.op.spRange with
    | some r => overlaps r (a, n)
    | none => false

/-- BBWAIT of a thread (07 R160): on the phase of its token, or on the next flip. A store or a BBINIT that leaves another PHASE
lets it go on as an opening does (DESIGN CHOICE, notes/assumptions/127.md). -/
def waitBarrier (s : State) (k : ThreadKey) (tm : Team) (x : Nat) : LaneOut :=
  match spCheck tm x 16 16 1 with
  | some f => .fault f
  | none =>
    match aget k s.threads, aget (handOf k) s.hands with
    | some t, some h =>
      if acqPending s k false || writePending h x 16 || heldRange s k.team x 16 true then .wait s
      else if s.spPoisoned k.team tm x 16 then .fault { code := 0x15, faddr := BitVec.ofNat 64 x, acc := 1 }
      else
        let ph := (barrierOf (s.spNat k.team tm x 16)).phase
        let old : Option Bool := match t.bwait with
          | some (y, p) => if y = x then p else some ph
          | none => match t.token with
            | some (y, p) => if y = x then some p else some ph
            | none => some ph
        if old = some ph then
          .wait (blockOn (s.modThread k fun t => { t with bwait := some (x, old) }) k (.bbwait x ph))
        else
          .done (s.modThread k fun t =>
            { t with bwait := none, token := match t.token with
                | some (y, p) => if y = x then none else some (y, p)
                | none => none })
    | _, _ => .wait s

/-- BBWAIT (07 R160). -/
def execBbwait (g : Guard) (a : Src) (off : Word) (s : State) : Out :=
  .next (runLanes s ⟨g, srcOp a false, noOp, noOp, []⟩ fun k v s => inTeam s k fun tm =>
    waitBarrier s k tm (memAddr v.a off))

end Sys2Proof.Machine
end

