-- ==== Sys2Proof/Machine/Commons.lean ====
section
/-! DEFINITION. The Commons instructions (08 R173 to R177), the fences (13 R285 to R287), the arrival of values
(03 R50, R51), and the special-register instructions (14 R328 to R330; 15 R353). -/

namespace Sys2Proof.Machine

/-! ## CLD and CST (08 R174, R179) -/

/-- The bytes that a thread's own buffered entries give at a Commons address (08 R179). -/
def ownBytes (s : State) (k : ThreadKey) (a n : Nat) : List (Option Byte) :=
  match aget (handOf k) s.hands with
  | none => List.replicate n none
  | some h =>
    (List.range n).map fun i =>
      (h.detBuf.reverse.find? fun (e : DetEntry) =>
        e.lane = k.lane && e.kind = 1 && e.addr ≤ a + i && a + i < e.addr + 8 && e.bmask.getLsbD (a + i - e.addr)).map
        fun e => e.data.extractLsb' (8 * (a + i - e.addr)) 8

/-- Whether a thread's own buffered entries write a Commons word whole, which clears its poison (08 R169, R179). -/
def ownClears (s : State) (k : ThreadKey) (a : Nat) : Bool :=
  match aget (handOf k) s.hands with
  | none => false
  | some h => h.detBuf.any fun (e : DetEntry) => e.lane = k.lane && e.kind = 1 && e.addr = a / 8 * 8 && e.bmask = 255

/-- CLD of a thread. -/
def loadCm (s : State) (k : ThreadKey) (tm : Team) (d : BitVec 8) (n : Nat) (sgn : Bool) (acq : Option Scope) (a : Nat) :
    LaneOut :=
  match cmCheck (teamFunc s tm) a n 1 with
  | some f => .fault f
  | none =>
    if acqPending s k false then .wait s
    else
      let acq := if tm.detMode then none else acq
      .done (markEmpty (enqueue s k (.cmLoad a n sgn (n = 8) d (ownBytes s k a n) (ownClears s k a)) none acq) k d (n = 8))

/-- CLD (08 R174). -/
def execCld (g : Guard) (d : BitVec 8) (a : Src) (sz : Size) (sgn : Bool) (acq : Option Scope) (off : Word) (s : State) :
    Out :=
  .next (runLanes s ⟨g, srcOp a false, noOp, noOp, [(d, sizeBytes sz = 8)]⟩ fun k v s => inTeam s k fun tm =>
    loadCm s k tm d (sizeBytes sz) sgn acq (memAddr v.a off))

/-- CST of a thread. -/
def storeCm (s : State) (k : ThreadKey) (tm : Team) (n a : Nat) (v : Dword) (rel : Option Scope) : LaneOut :=
  match cmCheck (teamFunc s tm) a n 2 with
  | some f => .fault f
  | none =>
    if tm.detMode then buffered s k tm.w ⟨BitVec.ofNat 64 (lowBytes n v), k.lane, 1, 0, byteMask n, a, pcOf s k⟩
    else if acqPending s k false then .wait s
    else .done (enqueue s k (.cmStore a n (lowBytes n v)) rel none)

/-- CST (08 R174). -/
def execCst (g : Guard) (a : Src) (b : CSrc) (sz : Size) (rel : Option Scope) (off : Word) (s : State) : Out :=
  .next (runLanes s ⟨g, srcOp a false, csrcOp b (sizeBytes sz = 8), noOp, []⟩ fun k v s => inTeam s k fun tm =>
    storeCm s k tm (sizeBytes sz) (memAddr v.a off) v.b rel)

/-! ## CATOM, CRED and CAXPY (08 R175 to R177) -/

/-- A read-modify-write of the Commons: a violation in deterministic mode, then the checks of R167, then the queue. -/
def rmwCm (s : State) (k : ThreadKey) (tm : Team) (a n : Nat) (op : AccOp) (rel acq : Option Scope)
    (f : State → State) : LaneOut :=
  if tm.detMode then .fault { code := 0x0D }
  else match cmCheck (teamFunc s tm) a n 8 with
    | some x => .fault x
    | none => if acqPending s k false then .wait s else .done (f (enqueue s k op rel acq))

/-- The release and the acquire of CATOM's order (08 R173). -/
def ordParts : AtomOrd → Option Scope × Option Scope
  | .none => (.none, .none)
  | .acq sc => (.none, some sc)
  | .rel sc => (some sc, .none)
  | .ar sc => (some sc, some sc)

/-- CATOM (08 R175). -/
def execCatom (g : Guard) (w : Bool) (d : BitVec 8) (a : Src) (b : CSrc) (op : AtomOp) (ord : AtomOrd) (off : Word)
    (s : State) : Out :=
  .next (runLanes s ⟨g, srcOp a false, csrcOp b w, noOp, [(d, w)]⟩ fun k v s => inTeam s k fun tm =>
    let x := memAddr v.a off
    rmwCm s k tm x (if w then 8 else 4) (.cmAtom x op w v.b (regOf s k d w) d) (ordParts ord).1 (ordParts ord).2
      fun s => markEmpty s k d w)

/-- CRED (08 R176). -/
def execCred (g : Guard) (w : Bool) (a : Src) (b : CSrc) (op : AtomOp) (off : Word) (s : State) : Out :=
  .next (runLanes s ⟨g, srcOp a false, csrcOp b w, noOp, []⟩ fun k v s => inTeam s k fun tm =>
    let x := memAddr v.a off
    rmwCm s k tm x (if w then 8 else 4) (.cmAtom x op w v.b 0 0) none none id)

/-- CAXPY (08 R177): field D names the scale, which is waited for and never traps. -/
def execCaxpy (g : Guard) (d : BitVec 8) (a : Src) (b : CSrc) (ty : AxpyTy) (off : Word) (s : State) : Out :=
  .next (runLanes s ⟨g, srcOp a false, csrcOp b false, noOp, [(d, false)]⟩ fun k v s => inTeam s k fun tm =>
    let x := memAddr v.a off
    rmwCm s k tm x 4 (.cmAxpy x ty ((regOf s k d false).setWidth 32) (v.b.setWidth 32)) none none id)

/-! ## Fences (13 R285 to R287, R291) -/

/-- Notes a FENCE.REL that waits: the hand's later stores are then release stores (13 R278). -/
def noteFence (s : State) (h : HandKey) (n : Nat) (rel : Option Scope) : State :=
  match rel with
  | none => s
  | some sc => s.modHand h fun hd =>
      { hd with fences := if hd.fences.contains (n, sc) then hd.fences else hd.fences ++ [(n, sc)] }

/-- A FENCE.REL has been performed. -/
def dropFence (s : State) (h : HandKey) (n : Nat) (rel : Option Scope) : State :=
  match rel with
  | none => s
  | some sc => s.modHand h fun hd => { hd with fences := hd.fences.filter (· ≠ (n, sc)) }

/-- A thread's fence: at its first issue it notes what came before, and it goes on once that is over. rel: of a FENCE.REL,
its scope. -/
def fenceThread (s : State) (g : Guard) (rel : Option Scope) (done : State → HandKey → Nat → Bool) : State :=
  runLanes s (bare g) fun k _ s => inTeam s k fun tm =>
    if tm.detMode then .done s
    else
      let n := match aget k s.threads with
        | some t => t.fenceAt.getD (nextSeqNo s (handOf k))
        | none => 0
      if done s (handOf k) n then .done ((dropFence s (handOf k) n rel).modThread k fun t => { t with fenceAt := none })
      else .wait ((noteFence s (handOf k) n rel).modThread k fun t => { t with fenceAt := some n })

/-- Every load of a hand numbered below n has been performed and its value has returned. -/
def loadsBack (s : State) (h : HandKey) (n : Nat) : Bool :=
  (match aget h s.hands with
    | some hd => hd.storeQ.all fun e => n ≤ e.seq || (match e.op with
      | .cmLoad _ _ _ _ _ _ _ => false
      | .cmAtom _ _ _ _ _ d => d = 0
      | _ => true)
    | none => true) && s.fills.all fun f => !f.before h n

/-- FENCE.sc (13 R286): a release, then an acquire. -/
def execFence (g : Guard) (sc : Scope) (s : State) : Out :=
  .next (fenceThread s g none fun s h n => releaseReady s h n sc)

/-- FENCE.ACQ.sc (13 R286): an acquire by every earlier load of the hand. -/
def execFenceAcq (g : Guard) (_sc : Scope) (s : State) : Out := .next (fenceThread s g none loadsBack)

/-- FENCE.REL.sc (13 R286). -/
def execFenceRel (g : Guard) (sc : Scope) (s : State) : Out :=
  .next (fenceThread s g (some sc) fun s h n => releaseReady s h n sc)

/-- Every store and read-modify-write of a hand numbered below n has settled. -/
def storesSettled (s : State) (h : HandKey) (n : Nat) : Bool :=
  match aget h s.hands with
  | some hd => hd.storeQ.all fun e => n ≤ e.seq || e.op.isLoad
  | none => true

/-- FENCE.ENG (13 R287). -/
def execFenceEng (g : Guard) (s : State) : Out := .next (fenceThread s g none storesSettled)

/-! ## The arrival of values (03 R50, R51) -/

/-- The value that a filled destination takes, or the fault in which its producer ended. -/
def fillValue (s : State) (fl : Fill) (foldst : Dword) : FaultInfo ⊕ Dword :=
  match fl.what with
  | .value v => .inr v
  | .time => .inr (BitVec.ofNat 64 s.fab.time)
  | .foldst => .inr foldst
  | .fault f => .inl f
  | .coll c slot gen => .inr (BitVec.ofNat 64 (match aget (c, slot) s.collSlots with
    | some x => if x.gen = gen then x.state * 2 ^ 30 + x.code % 256 else 0
    | none => 0))
  | .scratch keys =>
    if keys.any fun x => s.mem.spPoison.contains (x / 8) then .inl { code := 0x15, acc := 1 }
    else .inr (BitVec.ofNat 64 (natOfBytes (keys.map fun x => memGet s.mem.sp x)))

/-- A producer's fault stops its thread at the instruction that issued it, with the destination empty (03 R51); of a thread
that has stopped or ended, it gives its record alone. -/
def producerFault (s : State) (k : ThreadKey) (iaddr : Dword) (f : FaultInfo) : State :=
  match aget k s.threads with
  | some t =>
    match t.run with
    | .stopped _ => noteFault s k iaddr f
    | .exited => noteFault s k iaddr f
    | _ => takeFault ((withdraw s k).modThread k fun t => { t with pc := iaddr, line := none, run := .ready }) k f
  | none => s

/-- The n-th element that satisfies a condition, with its place in the list. -/
def nthWhere {α : Type} (p : α → Bool) : List α → Nat → Nat → Option (Nat × α)
  | [], _, _ => none
  | a :: t, n, i => if p a then (if n = 0 then some (i, a) else nthWhere p t (n - 1) (i + 1)) else nthWhere p t n (i + 1)

/-! ## %foldst (15 R352) -/

/-- The fabric time of a team's escalation, if any is pending (15 R342, R351). -/
def escalateAt (s : State) (tm : Team) : Option Nat :=
  match treeOf s tm with
  | none => none
  | some tr =>
    let slice := match tr.nodes.find? fun n => n.addr = tm.node with
      | some n => if n.pending && n.why ≠ 4 then some (n.pendAt + (if tm.eff.deadline = 0 then 200 else tm.eff.deadline) * 1000) else none
      | none => none
    let fold := match foldOf s tr with
      | some f => some (f.cmd.t + (if f.cmd.fdead = 0 then 20 else f.cmd.fdead) * 1000)
      | none => none
    match slice, fold with
    | some a, some b => some (min a b)
    | some a, none => some a
    | none, some b => some b
    | none, none => none

/-- %foldst of a team (15 R352). -/
def foldStatus (s : State) (id : TeamId) : Dword :=
  match aget id s.teams with
  | none => 0
  | some tm =>
    let tr := treeOf s tm
    let fold := match tr with
      | some t => (foldOf s t).isSome
      | none => false
    let lossy := match tr with
      | some t => t.lossy
      | none => false
    let remain := match escalateAt s tm with
      | some x => min 65535 ((x - s.fab.time) / 1000)
      | none => 0
    BitVec.ofNat 64 ((if fold then 2 ^ 31 else 0) + (if slicePending s tm then 2 ^ 30 else 0) + (if lossy then 2 ^ 29 else 0)
      + (if tm.resumed then 2 ^ 28 else 0) + remain)

/-- Whether a value waits for a collective that runs (16 R368). -/
def collRuns (s : State) (w : FillWhat) : Bool :=
  match w with
  | .coll c slot gen => match aget (c, slot) s.collSlots with
    | some x => x.gen = gen && x.state = 1
    | none => false
  | _ => false

/-- A slot whose ticket has been answered with its end is free (16 R367). -/
def freeColl (s : State) (c : CoreId) (slot gen : Nat) : State :=
  { s with collSlots := amod (c, slot) (fun x =>
      if x.gen = gen && 2 ≤ x.state then { x with state := 0, code := 0, team := none } else x) s.collSlots }

/-- A value arrives at a thread; an exited thread's is discarded (04 R81). -/
def fillThread (s : State) (k : ThreadKey) (fl : Fill) (v : FaultInfo ⊕ Dword) : State :=
  match aget k s.threads with
  | some t =>
    match v with
    | .inr v => if t.run = .exited then s else s.modThread k fun t => setFull (writeReg t fl.dest fl.pair v) fl.dest fl.pair true
    | .inl f => producerFault s k fl.iaddr f
  | none => s

/-- Whether a value may arrive: not while its team is suspended or its core halted, for it then fills its destination after
the resume (03 R51, 11 R250); nor before an earlier one that reads bytes of a peer in common with it (13 R276), nor while a
matrix instruction holds what it reads as its destination (10 R214). -/
def mayFill (s : State) (i : Nat) (fl : Fill) : Bool :=
  fl.thread.team.die ≠ 8 && !(s.core (coreOf fl.thread.team)).halt && !collRuns s fl.what &&
    (match aget fl.thread.team s.teams with
      | some tm => !tm.halted && !tm.debug
      | none => true) &&
    (match fl.what with
      | .scratch keys => (s.holds.all fun h => !h.2.dst || match aget h.2.team s.teams with
          | some tm => !keys.any fun a => (List.range h.2.len).any fun j => tm.spKey h.2.team (h.2.lo + j) = a
          | none => true) && (s.fills.take i).all fun x => handOf x.thread ≠ handOf fl.thread || (match x.what with
        | .scratch ks => ks.all fun a => !keys.contains a
        | _ => true)
      | _ => true)

/-- PRODUCER_FILL (03 R50): the n-th value on its way to a thread arrives. -/
def execProducerFill (k : ThreadKey) (n : Nat) (s : State) : Out :=
  match nthWhere (fun (f : Fill) => f.thread = k) s.fills n 0 with
  | none => .next s
  | some (i, fl) =>
    if !mayFill s i fl then .next s
    else
      let s1 := fillThread { s with fills := delAt i s.fills } k fl (fillValue s fl (foldStatus s k.team))
      let s2 := match fl.what with
        | .coll c slot gen => freeColl s1 c slot gen
        | _ => s1
      .next (openChecks s2 k.team)

/-! ## SRD and SWR (05 R90, 14 R329) -/

/-- The value of a special register of a thread. -/
def sregValue (s : State) (k : ThreadKey) (t : Thread) (tm : Team) (r : SReg) : Dword :=
  let n := BitVec.ofNat 64
  match r with
  | .tid => n (tidOf tm k)
  | .lane => n k.lane
  | .hand => n k.hand
  | .teamX => n (if tm.tx = 0 then 0 else tm.index % tm.tx)
  | .teamY => n (if tm.tx = 0 || tm.ty = 0 then 0 else tm.index / tm.tx % tm.ty)
  | .teamZ => n (if tm.tx = 0 || tm.ty = 0 then 0 else tm.index / (tm.tx * tm.ty))
  | .width => n tm.w
  | .core => n k.team.core
  | .die => n k.team.die
  | .quad => n (match aget (handOf k) s.hands with
    | some h => h.quad
    | none => 0)
  | .pmask => t.pmask &&& n (2 ^ tm.w - 1)
  | .edge => t.edge.setWidth 64
  | .stkbase => n (stackBase tm k)
  | .stklim => n (stackSize tm)
  | .detmode => n tm.eff.det
  | .cycle => n s.cycle
  | .time => n s.fab.time
  | .foldst => foldStatus s k.team

/-- SRD (14 R329): %time and %foldst are long-latency producers (05 R91). -/
def execSrd (g : Guard) (w : Bool) (d : BitVec 8) (sr : SReg) (s : State) : Out :=
  .next (runLanes s ⟨g, noOp, noOp, noOp, [(d, w)]⟩ fun k _ s => inTeam s k fun tm =>
    match sr, aget k s.threads with
    | .time, _ => .done (produce s k d w .time)
    | .foldst, _ => .done (produce s k d w .foldst)
    | r, some t => putReg d w (sregValue s k t tm r) k s
    | _, none => .wait s)

/-- SWR %edge (14 R329). -/
def execSwr (g : Guard) (a : Src) (s : State) : Out :=
  .next (runLanes s ⟨g, srcOp a false, noOp, noOp, []⟩ fun k v s =>
    .done (s.modThread k fun t => { t with edge := v.a.setWidth 32 }))

/-! ## PROBE (14 R330) -/

/-- The number of a page state. -/
def pageCode : PageState → Nat
  | .invalid => 0
  | .resident => 1
  | .remote => 2
  | .host => 3
  | .migrating _ => 4
  | .pulling => 5
  | .lost => 6

/-- The key index of a page's segment. -/
def segKey (s : State) (fn : Nat) (p : Page) : Nat := bits ((s.func fn).segs.getD (bits p.fa 41 40) 0).toNat 61 56

/-- What PROBE finds of a page. A host page has no key index. -/
def probeWord (s : State) (fn : Nat) (p : Page) : Nat :=
  if p.state = .invalid then 0
  else
    let own := p.state = .resident || p.state = .pulling
    let key := match p.state with
      | .lost => p.key
      | .remote => bits p.addr 47 42
      | .migrating oldHost => if oldHost then 0 else bits p.addr 47 42
      | .host => 0
      | _ => segKey s fn p
    let psize := if p.size = 65536 then 0 else if p.size = 2097152 then 1 else 2
    2 ^ 63 + pageCode p.state * 2 ^ 60 + psize * 2 ^ 58 + (if p.rd then 2 ^ 57 else 0) + (if p.wr then 2 ^ 56 else 0)
      + (if p.ex then 2 ^ 55 else 0) + (if p.dup then 2 ^ 54 else 0) + key * 2 ^ 48 + (if own then s.fab.node else p.node)

/-- PROBE (14 R330). -/
def execProbe (g : Guard) (d : BitVec 8) (a : Src) (s : State) : Out :=
  .next (runLanes s ⟨g, srcOp a true, noOp, noOp, [(d, true)]⟩ fun k v s => inTeam s k fun tm =>
    if tm.detMode then .fault { code := 0x0D }
    else
      let r := if !canonical v.a then 0
        else match (s.func tm.func).page v.a.toNat with
          | some p => probeWord s tm.func p
          | none => 0
      putReg d true (BitVec.ofNat 64 r) k s)

/-! ## FOLDQ (15 R353) -/

/-- FOLDQ vD. -/
def execFoldq (g : Guard) (d : BitVec 8) (s : State) : Out :=
  .next (runLanes s ⟨g, noOp, noOp, noOp, [(d, false)]⟩ fun k _ s => inTeam s k fun tm =>
    if tm.detMode then .fault { code := 0x0D } else putReg d false (foldStatus s k.team) k s)

/-- FOLDQ.P pD: whether a fold or a slice end is pending. -/
def execFoldqP (g : Guard) (d : BitVec 3) (s : State) : Out :=
  .next (runLanes s (bare g) fun k _ s => inTeam s k fun tm =>
    if tm.detMode then .fault { code := 0x0D }
    else .done (s.modThread k fun t =>
      writePred t d ((foldStatus s k.team).getLsbD 31 || (foldStatus s k.team).getLsbD 30)))

end Sys2Proof.Machine
end

