-- ==== Sys2Proof/Machine/TileData.lean ====
section
/-! DEFINITION. The data of a tile in its canonical layout (10 R209 to R211): its elements, what a reader checks of them,
and what a writer leaves. -/

namespace Sys2Proof.Machine

/-- A tile that an instruction names, as it stands at issue. -/
structure MOp where
  ref : TileRef
  tm : Team
  tile : Tile
  fmt : Word
deriving DecidableEq, Repr

/-- The operand that a name stands for. -/
def mop (s : State) (id : TeamId) (tm : Team) (n : TileName) : Option MOp :=
  match tileRef s id tm n with
  | none => none
  | some r => match aget r.team s.teams with
    | some ptm => some ⟨r, ptm, r.tile s, tileFmt s r⟩
    | none => none

def MOp.base (o : MOp) : Nat := o.tile.base * 64
def MOp.stride (o : MOp) : Nat := o.tile.stride o.fmt
def MOp.rows (o : MOp) : Nat := o.tile.nrow + 1
def MOp.cols (o : MOp) : Nat := o.tile.ncol + 1
/-- Whether the operand has block scales. -/
def MOp.scaled (o : MOp) : Bool := o.tile.block o.fmt ≠ 0
/-- A narrow operand of integer type (10 R208). -/
def MOp.isInt (o : MOp) : Bool := o.tile.elem = 0 && fmtE o.fmt = 0 && fmtScale o.fmt = 0
/-- ELEM 3 or an unset register (06 R123). -/
def MOp.noFormat (o : MOp) : Bool := o.tile.elem = 3 || (o.tile.elem = 0 && fmtUnset o.fmt)
/-- The low bits of a field that hold the code. -/
def MOp.mask (o : MOp) (c : Nat) : Nat := if o.tile.elem = 0 then c % 2 ^ fmtWidth o.fmt else c

/-- A little-endian number of an operand's scratchpad. -/
def MOp.nat (o : MOp) (s : State) (a n : Nat) : Nat := s.spNat o.ref.team o.tm a n

/-- nnz of a sparse-rows operand, as its row pointers stand. -/
def MOp.nnz (o : MOp) (s : State) : Nat := sparseCount s o.ref.team o.tm o.tile

/-- The offset of row i of dense rows; those of a row-skip tile follow its mask. -/
def MOp.rowAt (o : MOp) (i : Nat) : Nat := o.base + (if o.tile.layout = 2 then 64 else 0) + i * o.stride

/-- The bytes that hold element (i, j) of dense rows: the first, and how many. -/
def MOp.fieldAt (o : MOp) (i j : Nat) : Nat × Nat :=
  let fw := o.tile.field o.fmt
  (o.rowAt i + j * fw / 8, if fw = 16 then 2 else 1)

/-- The code of element (i, j) of dense rows. -/
def MOp.dense (o : MOp) (s : State) (i j : Nat) : Nat :=
  let fw := o.tile.field o.fmt
  let a := o.fieldAt i j
  o.mask (o.nat s a.1 a.2 / 2 ^ (j * fw % 8) % 2 ^ fw)

/-- Writes the field of element (i, j) of dense rows. -/
def MOp.put (o : MOp) (s : State) (i j v : Nat) : State :=
  let fw := o.tile.field o.fmt
  let a := o.fieldAt i j
  let old := o.nat s a.1 a.2
  let p := 2 ^ (j * fw % 8)
  s.spWrite o.ref.team o.tm a.1 (bytesOfNat a.2 (old - old / p % 2 ^ fw * p + v % 2 ^ fw * p))

/-- ROWPTR[i] and entry e of a sparse-rows tile (10 R210). -/
def MOp.rowPtr (o : MOp) (s : State) (i : Nat) : Nat := o.nat s (o.base + 2 * i) 2
def MOp.entry (o : MOp) (s : State) (e : Nat) : Nat := o.nat s (o.base + 192 + 4 * e) 4

/-- LIVE of a row-skip tile (10 R211). -/
def MOp.live (o : MOp) (s : State) : Nat := o.nat s o.base 8

/-- The code of element (i, j); none where it is absent or its row is skipped. -/
def MOp.code (o : MOp) (s : State) (i j : Nat) : Option Nat :=
  match o.tile.layout with
  | 1 =>
    let lo := o.rowPtr s i
    ((List.range (o.rowPtr s (i + 1) - lo)).map (· + lo)).findSome? fun e =>
      let w := o.entry s e
      if w % 64 = j then some (o.mask (w / 65536)) else none
  | 2 => if bit (o.live s) i then some (o.dense s i j) else none
  | _ => some (o.dense s i j)

/-- The scale byte of element (i, j). -/
def MOp.scale (o : MOp) (s : State) (i j : Nat) : Nat :=
  o.nat s (o.tile.scbase * 16 + i * o.tile.blocks o.fmt + j / o.tile.block o.fmt) 1

/-- The value of a code of the operand's format. -/
def MOp.decode (o : MOp) (c : Nat) : Num :=
  match o.tile.elem with
  | 0 => decodeFmt o.fmt c
  | 1 => unpack fp16 c
  | _ => unpack bf16 c

/-- The value of element (i, j); none where it is absent or its row is skipped (06 R126). -/
def MOp.elem (o : MOp) (s : State) (i j : Nat) : Option Num :=
  (o.code s i j).map fun c => if o.scaled then (o.decode c).mul (scaleVal (o.scale s i j)) else o.decode c

/-- The value of element (i, j) of the matrix that the tile stands for: an absent or skipped one is +0 (06 R126). -/
def MOp.value (o : MOp) (s : State) (i j : Nat) : Num := (o.elem s i j).getD (.fin false 0 0)

/-- Element (i, j) as an integer code. -/
def MOp.int (o : MOp) (s : State) (i j : Nat) : Int :=
  match o.code s i j with
  | none => 0
  | some c => if fmtS o.fmt = 1 && 2 ^ (fmtWidth o.fmt - 1) ≤ c then (c : Int) - 2 ^ fmtWidth o.fmt else c

/-- A strictly ascending list. -/
def ascending : List Nat → Bool
  | a :: b :: t => a < b && ascending (b :: t)
  | _ => true

/-- What a reader of a sparse-rows or row-skip tile checks of its row pointers or its mask. -/
def MOp.headOk (o : MOp) (s : State) : Bool :=
  match o.tile.layout with
  | 1 => o.rowPtr s 0 = 0 && (List.range o.rows).all (fun i => o.rowPtr s i ≤ o.rowPtr s (i + 1)) && o.nnz s ≤ o.rows * o.cols
  | 2 => o.live s < 2 ^ o.rows
  | _ => true

/-- The entries of row i of a sparse-rows tile. -/
def MOp.rowEntries (o : MOp) (s : State) (i : Nat) : List Nat :=
  let lo := o.rowPtr s i
  (List.range (o.rowPtr s (i + 1) - lo)).map fun e => o.entry s (lo + e)

/-- What a reader of a sparse-rows or row-skip tile checks of its contents. -/
def MOp.contentOk (o : MOp) (s : State) : Bool :=
  o.headOk s && (o.tile.layout ≠ 1 || (List.range o.rows).all fun i =>
    let ws := o.rowEntries s i
    ascending (ws.map (· % 64)) && ws.all fun w => w % 64 ≤ o.tile.ncol && bits w 15 6 = 0)

/-! ## The bytes that a reader needs (10 R213) -/

/-- Row pointers, or the mask: where they lie, and how many bytes. -/
def MOp.headNeeds (o : MOp) : List (Nat × Nat) :=
  match o.tile.layout with
  | 1 => [(o.base, 2 * (o.rows + 1))]
  | 2 => [(o.base, 8)]
  | _ => []

/-- The rows of dense data that stand for something: the live ones of a row-skip tile. -/
def MOp.liveRows (o : MOp) (s : State) : List Nat :=
  (List.range o.rows).filter fun i => o.tile.layout ≠ 2 || bit (o.live s) i

/-- The elements' bytes. -/
def MOp.dataNeeds (o : MOp) (s : State) : List (Nat × Nat) :=
  if o.tile.layout = 1 then [(o.base + 192, 4 * o.nnz s)]
  else (o.liveRows s).map fun i => (o.rowAt i, (o.cols * o.tile.field o.fmt + 7) / 8)

/-- The scale bytes of what is stored. -/
def MOp.scaleNeeds (o : MOp) (s : State) : List (Nat × Nat) :=
  let nb := o.tile.blocks o.fmt
  let at_ (i : Nat) : Nat := o.tile.scbase * 16 + i * nb
  if !o.scaled then []
  else if o.tile.layout = 1 then (List.range o.rows).flatMap fun i =>
    ((o.rowEntries s i).map fun w => (at_ i + w % 64 / o.tile.block o.fmt, 1)).dedup
  else (o.liveRows s).map fun i => (at_ i, nb)

/-- Whether a poisoned word lies in bytes of an operand's scratchpad. -/
def MOp.poisoned (o : MOp) (s : State) (rs : List (Nat × Nat)) : Bool := rs.any fun r => s.spPoisoned o.ref.team o.tm r.1 r.2

/-- Whether a value is +0. -/
def isPlusZero : Num → Bool
  | .fin false 0 _ => true
  | _ => false

/-- The data of a sparse-rows tile (10 R210): the columns and codes that each row keeps. -/
def sparseData (rows : List (List (Nat × Nat))) : List Byte :=
  let ptrs := rows.foldl (fun (p : List Nat) r => p ++ [p.getLastD 0 + r.length]) [0]
  let head := ptrs.flatMap (bytesOfNat 2)
  head ++ List.replicate (192 - head.length) 0 ++ (rows.flatMap id).flatMap fun e => bytesOfNat 4 (e.1 + 65536 * e.2)

/-- A row of a row-skip tile has been written (10 R211): it is live, and the mask holds nothing above the last row. -/
def MOp.enliven (o : MOp) (s : State) (i : Nat) : State :=
  if o.tile.layout ≠ 2 then s
  else
    let m := (BitVec.ofNat 64 (o.live s % 2 ^ o.rows)) ||| BitVec.twoPow 64 i
    s.spWrite o.ref.team o.tm o.base (bytesOfNat 8 m.toNat ++ List.replicate 56 0)

/-- The bytes of an accumulator as ACSTORE.RAW writes them (10 R223). -/
def AccTile.raw (a : AccTile) : List Byte := (List.range 4096).flatMap fun e => bytesOfNat 8 (agetD e 0 a.elems).toNat

end Sys2Proof.Machine
end

