-- ==== Sys2Proof/Machine/Transfer.lean ====
section
/-! DEFINITION. Transfer records (09 R184 to R189) and window descriptors (R198): their fields, when they are malformed,
the units of a record, and what a convert and a window-convolution compute. -/

namespace Sys2Proof.Machine

/-! ## Fields (09 R184) -/

def Rec.field (r : Rec) (hi lo : Nat) : Nat := bits r.word.toNat hi lo
def Rec.kind (r : Rec) : Nat := r.field 3 0
def Rec.out (r : Rec) : Bool := r.word.getLsbD 4
def Rec.tdst (r : Rec) : Bool := r.word.getLsbD 5
def Rec.trel (r : Rec) : Bool := r.word.getLsbD 6
def Rec.own (r : Rec) : Bool := r.word.getLsbD 8
def Rec.isLast (r : Rec) : Bool := r.word.getLsbD 9
def Rec.cpl (r : Rec) : Nat := r.field 11 10
def Rec.scope (r : Rec) : Nat := r.field 14 12
def Rec.acq (r : Rec) : Bool := r.word.getLsbD 15
def Rec.rel (r : Rec) : Bool := r.word.getLsbD 16
def Rec.len (r : Rec) : Nat := r.field 63 32
def Rec.va (r : Rec) : Nat := r.field 127 64
def Rec.spoff (r : Rec) : Nat := r.field 148 128
def Rec.tileNo (r : Rec) : Nat := r.field 133 128
def Rec.cploff (r : Rec) : Nat := r.field 180 160
def Rec.nextOff (r : Rec) : Nat := r.field 212 192
def Rec.param (r : Rec) : Nat := r.field 255 224
/-- Parameters of a convert (09 R186). -/
def Rec.sfmt (r : Rec) : Nat := bits r.param 3 0
def Rec.rm (r : Rec) : Rm := match bits r.param 5 4 with
  | 0 => .rn
  | 1 => .rz
  | 2 => .ru
  | _ => .rd
def Rec.sat (r : Rec) : Bool := bit r.param 6
def Rec.nsc (r : Rec) : Bool := bit r.param 7
def Rec.scl (r : Rec) : Nat := bits r.param 9 8

/-- A record as a channel has just read it. -/
def Rec.read (off : Nat) (w : BitVec 256) : Rec where
  off := off
  word := w
  bad := false
  started := false
  lost := false
  desc := 0
  fmt := 0
  slot := none
  wdesc := 0
  idx := []
  badIdx := []
  shape := 0
  units := 0
  issued := 0
  limit := none
  mask := 0
  gone := 0
  waiting := []
  asked := []
  reqs := []
  bufs := []
  ring := false

/-- Whether the record fills a tile. -/
def Rec.fills (r : Rec) : Bool := r.tdst && !r.out
/-- The tile as the record found it at its start. -/
def Rec.tile (r : Rec) : Tile := Tile.ofWord r.desc
/-- The scratchpad offset of its first byte. -/
def Rec.spBase (r : Rec) : Nat := if r.tdst then r.tile.base * 64 else r.spoff

/-! ## Malformed records (09 R185, R186) -/

/-- A reserved field is not zero. -/
def Rec.reservedSet (r : Rec) : Bool :=
  r.field 223 213 ≠ 0 || r.field 191 181 ≠ 0 || r.field 159 149 ≠ 0 || r.field 31 22 ≠ 0 || r.field 19 17 ≠ 0
    || r.word.getLsbD 7

/-- The SCOPE rule. -/
def Rec.scopeBad (r : Rec) : Bool := 4 < r.scope || (!r.acq && !r.rel && r.scope ≠ 0)

/-- DIR, TDST and TREL against the table of R185. -/
def Rec.tableBad (r : Rec) : Bool :=
  (r.trel && !(r.out && r.tdst)) ||
    (match r.kind with
      | 0 => false
      | 1 => !r.tdst
      | 2 => r.out || !r.tdst || r.trel
      | 3 => !r.out
      | _ => true)

/-- LEN and VA against the map. -/
def Rec.rangeBad (r : Rec) : Bool :=
  !canonical (BitVec.ofNat 64 r.va) || 1048576 < r.len ||
    (if r.kind = 1 then r.len = 0 else r.len < 4 || r.len % 4 ≠ 0)

/-- PARAM against R186; a shape record that passes SCRATCH makes the record malformed (DESIGN CHOICE,
notes/assumptions/128.md). -/
def Rec.paramBad (r : Rec) (scratch : Nat) : Bool :=
  match r.kind with
  | 0 => r.param ≠ 0
  | 1 => bits r.param 31 10 ≠ 0 || 5 < r.sfmt || r.scl = 3 || (r.scl = 2 && r.out)
  | 2 => bits r.param 31 21 ≠ 0 || r.param % 32 ≠ 0 || scratch < r.param + 32
  | _ => bits r.param 31 3 ≠ 0 || r.param = 7

/-- NEXT breaks the map; with LAST = 1 a NEXT other than 0 does (DESIGN CHOICE, notes/assumptions/128.md). -/
def Rec.nextBad (r : Rec) (scratch : Nat) : Bool :=
  if r.isLast then r.nextOff ≠ 0 else r.nextOff % 32 ≠ 0 || scratch ≤ r.nextOff

/-- CPLOFF names a byte barrier within the scratchpad. -/
def Rec.barrierOk (r : Rec) (scratch : Nat) : Bool := r.cpl = 0 && r.cploff % 16 = 0 && r.cploff + 16 ≤ scratch

/-- The header of a completion ring (09 R195). -/
structure Ring where
  base : Nat
  n : Nat
  tail : Nat
  head : Nat
deriving DecidableEq, Repr

def ringOf (s : State) (id : TeamId) (tm : Team) (off : Nat) : Ring :=
  let v := s.spNat id tm off 16
  ⟨bits v 31 0, bits v 47 32, bits v 95 64, bits v 127 96⟩

/-- A ring header that a record may use: with N of at most 4,096, and whatever its bytes 6 and 7 hold (DESIGN CHOICE,
notes/assumptions/128.md). -/
def ringOk (s : State) (id : TeamId) (tm : Team) (r : Rec) : Bool :=
  r.cploff % 16 = 0 && r.cploff + 16 ≤ tm.scratch &&
    (let g := ringOf s id tm r.cploff
     1 ≤ g.n && g.n ≤ 4096 && g.base % 16 = 0)

/-- What makes a record malformed at its acceptance; with CPL = 1 a CPLOFF other than 0 does (DESIGN CHOICE,
notes/assumptions/128.md). -/
def Rec.malformed (r : Rec) (s : State) (id : TeamId) (tm : Team) : Bool :=
  3 < r.kind || r.cpl = 3 || r.reservedSet || r.scopeBad || r.tableBad || r.rangeBad || r.paramBad tm.scratch ||
    r.nextBad tm.scratch ||
    (match r.cpl with
      | 0 => !r.barrierOk tm.scratch
      | 1 => r.cploff ≠ 0
      | _ => !ringOk s id tm r) ||
    (if r.tdst then r.field 148 134 ≠ 0 || tm.tiles.length ≤ r.tileNo else tm.scratch < r.spoff + r.len)

/-! ## Window descriptors (09 R198) -/

def wTbase (w : BitVec 256) : Nat := bits w.toNat 255 192
def wWbase (w : BitVec 256) : Nat := bits w.toNat 191 128
def wBound (w : BitVec 256) : Nat := bits w.toNat 127 96
def wCount (w : BitVec 256) : Nat := bits w.toNat 95 64
def wSlot (w : BitVec 256) : Nat := bits w.toNat 59 57
def wEsz (w : BitVec 256) : Nat := 4 * 2 ^ bits w.toNat 56 54
def wIsrc (w : BitVec 256) : Bool := w.getLsbD 53
def wItile (w : BitVec 256) : Nat := bits w.toNat 52 47
def wIoff (w : BitVec 256) : Nat := bits w.toNat 20 0
/-- The bytes of a window. -/
def wLen (w : BitVec 256) : Nat := wCount w * wEsz w

/-- Whether a range meets a window. -/
def meetsWindow (w : BitVec 256) (va n : Nat) : Bool := overlaps (wWbase w, wLen w) (va, n)

/-- The bytes of the index tile's footprint, under the committed format value. -/
def indexTileLen (s : State) (id : TeamId) (tm : Team) (m : Nat) : Nat :=
  let r : TileRef := ⟨id, tm.tiles.getD m 0⟩
  (r.tile s).footprint (tileFmt s r) (sparseCount s id tm (r.tile s))

/-- The row pointer of the index tile that a descriptor names, if it is poisoned. -/
def windowPoison (s : State) (id : TeamId) (tm : Team) (w : BitVec 256) : Option FaultInfo :=
  if wIsrc w && wItile w < tm.tiles.length then
    sparsePoison s id tm ((⟨id, tm.tiles.getD (wItile w) 0⟩ : TileRef).tile s)
  else none

/-- When a descriptor is malformed. -/
def windowBad (s : State) (id : TeamId) (tm : Team) (w : BitVec 256) : Bool :=
  bits w.toNat 63 60 ≠ 0 || bits w.toNat 46 21 ≠ 0 || bits w.toNat 56 54 = 7 ||
    !canonical (BitVec.ofNat 64 (wTbase w)) || !canonical (BitVec.ofNat 64 (wWbase w)) ||
    wTbase w % wEsz w ≠ 0 || wWbase w % wEsz w ≠ 0 || wCount w = 0 || 16384 < wCount w ||
    (if wIsrc w then wIoff w ≠ 0 || tm.tiles.length ≤ wItile w || indexTileLen s id tm (wItile w) < 4 * wCount w
      else wItile w ≠ 0 || wIoff w % 4 ≠ 0 || tm.scratch < wIoff w + 4 * wCount w) ||
    ((List.range 8).any fun i => i ≠ wSlot w &&
      (match tm.windows.getD i none with
        | some v => meetsWindow v (wWbase w) (wLen w)
        | none => false))

/-- The lowest-numbered window that a range meets, with its slot. -/
def windowFor (tm : Team) (va n : Nat) : Option (Nat × BitVec 256) :=
  (List.range 8).findSome? fun i => match tm.windows.getD i none with
    | some w => if meetsWindow w va n then some (i, w) else none
    | none => none

/-- Whether a record keeps to the window that its range of n bytes meets: the range lies inside it, and VA and LEN are
multiples of the element's size (09 R199). -/
def insideWindow (w : BitVec 256) (va n len : Nat) : Bool :=
  wWbase w ≤ va && va + n ≤ wWbase w + wLen w && (va - wWbase w) % wEsz w = 0 && len % wEsz w = 0

/-- The first element of a window that a record covers. -/
def Rec.elem0 (r : Rec) : Nat := (r.va - wWbase r.wdesc) / wEsz r.wdesc

/-- The virtual address that element e of a record's window range stands for. -/
def Rec.elemVa (r : Rec) (e : Nat) : Nat := wTbase r.wdesc + r.idx.getD e 0 * wEsz r.wdesc

/-! ## The shape of a window-convolution (09 R189) -/

/-- The shape record. -/
structure Conv where
  padv : Nat
  p0 : Nat
  k0 : Nat
  c : Nat
  h : Nat
  wd : Nat
  kh : Nat
  kw : Nat
  sh : Nat
  sw : Nat
  dh : Nat
  dw : Nat
  ph : Nat
  pw : Nat
  esz : Nat
deriving DecidableEq, Repr

def convOf (w : BitVec 256) : Conv :=
  let n := w.toNat
  ⟨bits n 255 224, bits n 223 192, bits n 191 176, bits n 175 160, bits n 159 144, bits n 143 128, bits n 127 120,
    bits n 119 112, bits n 111 104, bits n 103 96, bits n 95 88, bits n 87 80, bits n 79 72, bits n 71 64, bits n 1 0⟩

/-- OW and OH: a quotient of a negative number is rounded down (DESIGN CHOICE, notes/assumptions/129.md). -/
def Conv.ow (v : Conv) : Int := ((v.wd + 2 * v.pw : Nat) - (v.dw * (v.kw - 1) : Nat) - 1 : Int) / (v.sw : Int) + 1
def Conv.oh (v : Conv) : Int := ((v.h + 2 * v.ph : Nat) - (v.dh * (v.kh - 1) : Nat) - 1 : Int) / (v.sh : Int) + 1
/-- The bytes of an element. -/
def Conv.bytes (v : Conv) : Nat := v.esz + 1

/-- The bytes of a record's virtual range: a window-convolution's is its tensor. -/
def Rec.vlen (r : Rec) : Nat :=
  let v := convOf r.shape
  if r.kind = 2 then v.h * v.wd * v.c * v.bytes else r.len

/-! ## Units (09 R187 to R190, R199) -/

/-- Whether a record's units are window elements; those of a window-convolution are the tile's rows (09 R189). -/
def Rec.byElem (r : Rec) : Bool := r.slot.isSome && r.kind ≠ 2

/-- The window elements that a record covers, of which it reads the indices. -/
def Rec.nIdx (r : Rec) : Nat := if r.slot.isSome then (r.vlen + wEsz r.wdesc - 1) / wEsz r.wdesc else 0

/-- The number of aligned 64-byte pieces of a range. -/
def pieceCount (va n : Nat) : Nat := (va + n - 1) / 64 + 1 - va / 64

/-- What a unit covers: the place of its first byte within the record, and its bytes. -/
structure Span where
  off : Nat
  len : Nat
deriving DecidableEq, Repr

/-- The span of unit u on the virtual side. The first row of a window-convolution that fills a row-skip tile counts the
tile's mask besides, so that the rows count the footprint (DESIGN CHOICE, notes/assumptions/106.md). -/
def Rec.span (r : Rec) (u : Nat) : Span :=
  if r.byElem then ⟨u * wEsz r.wdesc, wEsz r.wdesc⟩
  else match r.kind with
    | 1 => ⟨64 * u, min 64 (r.len - 64 * u)⟩
    | 2 => let st := r.tile.stride r.fmt; ⟨st * u, if r.tile.layout = 2 && u = 0 then st + 64 else st⟩
    | _ =>
      let lo := max r.va (r.va / 64 * 64 + 64 * u)
      let hi := min (r.va + r.len) (r.va / 64 * 64 + 64 * u + 64)
      ⟨lo - r.va, hi - lo⟩

/-- The virtual address of a unit's first byte. -/
def Rec.unitVa (r : Rec) (u : Nat) : Nat :=
  if r.byElem then r.elemVa u % 2 ^ 64 else (r.va + (r.span u).off) % 2 ^ 64

/-! ## Converts (09 R188) -/

/-- The width of a code in packed narrow storage. -/
def Rec.codeWidth (r : Rec) : Nat := if r.tile.elem = 0 then fmtWidth r.fmt else 16
/-- The bits of an element in storage. -/
def Rec.elemBits (r : Rec) : Nat :=
  match r.sfmt with
  | 0 => r.codeWidth
  | 1 => 8
  | 2 => 8
  | 5 => 32
  | _ => 16
/-- The tile's columns, and its elements. -/
def Rec.cols (r : Rec) : Nat := r.tile.ncol + 1
def Rec.elems (r : Rec) : Nat := (r.tile.nrow + 1) * r.cols
/-- The storage bytes that LEN must equal. -/
def Rec.storageLen (r : Rec) : Nat := (r.elems * r.elemBits + 7) / 8

/-- The register that matches an OCP form, without its scale field (06 R131). -/
def ocpReg (e5 : Bool) : Word := if e5 then 0xF2B else 0x739
def ocpMatches (f : Word) (e5 : Bool) : Bool := f &&& 0xFFFF = ocpReg e5 && f.getLsbD 18 = false

/-- What makes a convert malformed at its start. -/
def Rec.convertBad (r : Rec) : Bool :=
  (r.tile.elem = 0 && fmtUnset r.fmt) || r.len ≠ r.storageLen ||
    (r.scl ≠ 0 && r.tile.block r.fmt = 0) ||
    ((r.sfmt = 1 || r.sfmt = 2) && !r.out && (r.tile.elem ≠ 0 || !ocpMatches r.fmt (r.sfmt = 2))) ||
    ((r.sfmt = 1 || r.sfmt = 2) && !r.out && r.nsc && r.tile.block r.fmt = 0)

/-- Elements that are converted together: a row's block under one scale, or one element. -/
def Rec.group (r : Rec) : Nat := let b := r.tile.block r.fmt; if b = 0 then 1 else b
/-- Groups of a row. -/
def Rec.groupsPerRow (r : Rec) : Nat := (r.cols + r.group - 1) / r.group
/-- The elements of group k: the first, and how many. -/
def Rec.groupElems (r : Rec) (k : Nat) : Nat × Nat :=
  let i := k / r.groupsPerRow
  let j := k % r.groupsPerRow * r.group
  (i * r.cols + j, min r.group (r.cols - j))
/-- The group of element n. -/
def Rec.groupOf (r : Rec) (n : Nat) : Nat := n / r.cols * r.groupsPerRow + n % r.cols / r.group
/-- The storage bytes that a group covers: from, and up to. -/
def Rec.groupBytes (r : Rec) (k : Nat) : Nat × Nat :=
  let e := r.groupElems k
  (e.1 * r.elemBits / 8, ((e.1 + e.2) * r.elemBits + 7) / 8)
/-- The groups that meet storage bytes [a, a + n). -/
def Rec.groupsAt (r : Rec) (a n : Nat) : List Nat :=
  if n = 0 || r.elemBits = 0 then []
  else
    let g0 := r.groupOf (a * 8 / r.elemBits)
    let last := min (r.elems - 1) (((a + n) * 8 - 1) / r.elemBits)
    (List.range (r.groupOf last + 1 - g0)).map (· + g0)
/-- The groups whose first storage bit lies in bytes [a, a + n): their scale bytes go with these. -/
def Rec.groupsFrom (r : Rec) (a n : Nat) : List Nat :=
  (r.groupsAt a n).filter fun k => a ≤ (r.groupBytes k).1 && (r.groupBytes k).1 < a + n

/-- Bits of a byte string, from a bit on. -/
def bitsAt (bs : List Byte) (lo n : Nat) : Nat := natOfBytes bs / 2 ^ lo % 2 ^ n

/-- The value of an OCP code (06 R131). -/
def decodeOcp (e5 : Bool) (c : Nat) : Num :=
  let m := c % 128
  if e5 then (if m = 0x7C then .inf (c ≥ 128) else if 0x7C < m then .nan else decodeFmt (ocpReg true) c)
  else if m = 0x7F then .nan else decodeFmt (ocpReg false) c

/-- The code that an OCP code takes in the tile, and whether it makes the block's scale NaN (06 R131). -/
def ingestOcp (e5 nsc : Bool) (c : Nat) : Nat × Bool :=
  match decodeOcp e5 c with
  | .nan => (0, nsc)
  | .inf neg => if nsc then (0, true) else ((if neg then 128 else 0) + ocpMax e5, false)
  | .fin _ _ _ => (c, false)

/-- The value of a stored element. -/
def Rec.storedValue (r : Rec) (c : Nat) : Num :=
  match r.sfmt with
  | 0 => if r.tile.elem = 0 then decodeFmt r.fmt c else unpack (if r.tile.elem = 1 then fp16 else bf16) c
  | 1 => decodeOcp false c
  | 2 => decodeOcp true c
  | 3 => unpack bf16 c
  | 4 => unpack fp16 c
  | _ => unpack fp32 c

/-- The largest code value of a format (06 R125). -/
def fmtMax (f : Word) : Num :=
  decodeFmt f (if fmtE f = 0 then (if fmtS f = 1 then 2 ^ (fmtWidth f - 1) - 1 else 2 ^ fmtWidth f - 1)
    else 2 ^ (fmtE f + fmtM f) - 1)

/-- The smallest k with x ≤ y · 2^k, for magnitudes. -/
def ceilLog (x y : Num) : Int :=
  match x, y with
  | .fin _ mx ex, .fin _ my ey =>
    let k : Int := (ex + Nat.log2 mx) - (ey + Nat.log2 my)
    if (Num.fin false mx ex).cmp (.fin false my (ey + k)) = .gt then k + 1 else k
  | _, _ => 0

/-- The largest magnitude among finite values; zero if there is none. -/
def maxMag (vs : List Num) : Num :=
  vs.foldl (fun a v => match v with
    | .fin _ m e => if (Num.fin false m e).cmp a = .gt then .fin false m e else a
    | _ => a) (.fin false 0 0)

/-- The scale byte that a channel computes for a block (09 R188). -/
def computedScale (f : Word) (vs : List Num) : Nat :=
  if vs.any Num.isNan then 255
  else match maxMag vs with
    | .fin n m e => if m = 0 then 127 else (max 0 (min 254 (127 + ceilLog (.fin n m e) (fmtMax f)))).toNat
    | _ => 127

/-- What a group becomes on its way in: the field of each element, and the block's new scale byte if it is written;
scale is the trailing array's byte, or under SCL = 0 the tile's own. -/
def Rec.convertIn (r : Rec) (codes : List Nat) (scale : Nat) : List Nat × Option Nat :=
  let scaled := r.tile.block r.fmt ≠ 0
  let vs := codes.map r.storedValue
  let sc := if r.scl = 2 then computedScale r.fmt vs else scale
  let put := if scaled && r.scl ≠ 0 then some sc else none
  match r.sfmt with
  | 0 => (codes, put)
  | 1 | 2 =>
    let xs := codes.map (ingestOcp (r.sfmt = 2) r.nsc)
    (xs.map (·.1), if xs.any (·.2) then some 255 else put)
  | _ =>
    if r.tile.elem = 0 then
      let xs := vs.map fun v => encodeFmt r.fmt (if scaled then unscale v sc else v) r.rm r.sat
      (xs.map (·.1), if scaled && !r.sat && xs.any (·.2) then some 255 else put)
    else (vs.map fun v => roundTo (if r.tile.elem = 1 then fp16 else bf16) r.rm v, none)

/-- What a group becomes on its way out: the storage code of each element, from its field and the block's scale. -/
def Rec.convertOut (r : Rec) (fields : List Nat) (scale : Nat) : List Nat :=
  let value := fun (c : Nat) =>
    if r.tile.elem = 0 then
      let v := decodeFmt r.fmt c
      if r.tile.block r.fmt = 0 then v else v.mul (scaleVal scale)
    else unpack (if r.tile.elem = 1 then fp16 else bf16) c
  fields.map fun c => match r.sfmt with
    | 0 => c % 2 ^ r.codeWidth
    | 1 => encodeOcp false (value c) r.rm r.sat
    | 2 => encodeOcp true (value c) r.rm r.sat
    | 3 => roundTo bf16 r.rm (value c)
    | 4 => roundTo fp16 r.rm (value c)
    | _ => roundTo fp32 r.rm (value c)

/-- The record's tile, with the format it was started under. -/
def Rec.mop (r : Rec) (id : TeamId) (tm : Team) : MOp := ⟨⟨id, tm.tiles.getD r.tileNo 0⟩, tm, r.tile, r.fmt⟩

/-- The field of element n of the record's tile; an absent or skipped element is +0 (10 R210, R211), which is code 0 in
every format. -/
def Rec.fieldAt (r : Rec) (s : State) (id : TeamId) (tm : Team) (n : Nat) : Option Nat :=
  (r.mop id tm).code s (n / r.cols) (n % r.cols)

/-- The scratchpad offset of a group's scale byte. -/
def Rec.scaleAt (r : Rec) (k : Nat) : Nat := r.tile.scbase * 16 + k

/-- The scale byte of a group as the tile holds it; 1 where there is none. -/
def Rec.scaleNow (r : Rec) (s : State) (id : TeamId) (tm : Team) (k : Nat) : Nat :=
  if r.tile.block r.fmt = 0 then 127 else s.spNat id tm (r.scaleAt k) 1

/-- The storage bytes [a, a + n) that a convert out writes. -/
def Rec.outBytes (r : Rec) (s : State) (id : TeamId) (tm : Team) (a n : Nat) : List Byte :=
  let w := r.elemBits
  let total := (r.groupsAt a n).foldl (fun acc k =>
    let e := r.groupElems k
    (List.range e.2).foldl (fun acc i =>
      let x := match r.fieldAt s id tm (e.1 + i) with
        | some c => (r.convertOut [c] (r.scaleNow s id tm k)).headD 0
        | none => 0
      let pos : Int := ((e.1 + i) * w : Nat) - (8 * a : Nat)
      acc + (if pos < 0 then x / 2 ^ pos.natAbs else x * 2 ^ pos.toNat)) acc) 0
  bytesOfNat n (total % 2 ^ (8 * n))

/-- The scratchpad bytes that a convert out reads for storage bytes [a, a + n): fields, row pointers or mask, and the
scales of the blocks that it converts. -/
def Rec.outReads (r : Rec) (s : State) (id : TeamId) (tm : Team) (a n : Nat) : List (Nat × Nat) :=
  let o := r.mop id tm
  let w := max r.elemBits 1
  let lo := a * 8 / w
  let hi := min r.elems (((a + n) * 8 + w - 1) / w)
  let fields := match r.tile.layout with
    | 1 => [(o.base + 192, 4 * o.nnz s)]
    | _ => ((List.range (hi - lo)).filter fun i => r.tile.layout ≠ 2 || bit (o.live s) ((lo + i) / r.cols)).map fun i =>
      o.fieldAt ((lo + i) / r.cols) ((lo + i) % r.cols)
  o.headNeeds ++ fields ++
    (if o.scaled && r.sfmt ≠ 0 then (r.groupsAt a n).map fun k => (r.scaleAt k, 1) else [])

/-! ## Window-convolutions (09 R189) -/

/-- What makes a window-convolution malformed at its start: a sparse-rows tile, too, whose rows have no stride (DESIGN
CHOICE, notes/assumptions/106.md). -/
def Rec.convBad (r : Rec) : Bool :=
  let v := convOf r.shape
  bits r.shape.toNat 63 2 ≠ 0 || 1 < v.esz || v.c = 0 || v.h = 0 || v.wd = 0 || v.kh = 0 || v.kw = 0 || v.sh = 0 ||
    v.sw = 0 || v.dh = 0 || v.dw = 0 || v.ow < 1 || r.tile.layout = 1 || (r.tile.elem = 0 && fmtUnset r.fmt) ||
    r.tile.field r.fmt ≠ 8 * v.bytes || r.tile.block r.fmt ≠ 0 || r.len ≠ r.tile.footprint r.fmt 0

/-- The place in the tensor of tile element (i, j); none: the padding value. -/
def Rec.convOff (r : Rec) (i j : Nat) : Option Nat :=
  let v := convOf r.shape
  let p := v.p0 + i
  let k := v.k0 + j
  let c := k % v.c
  let kx := k / v.c % v.kw
  let ky := k / (v.c * v.kw)
  let oy := p / v.ow.toNat
  let ox := p % v.ow.toNat
  let iy : Int := (oy * v.sh + ky * v.dh : Nat) - (v.ph : Int)
  let ix : Int := (ox * v.sw + kx * v.dw : Nat) - (v.pw : Int)
  if v.ow.toNat * v.oh.toNat ≤ p || v.kh ≤ ky || iy < 0 || (v.h : Int) ≤ iy || ix < 0 || (v.wd : Int) ≤ ix then none
  else some (((iy.toNat * v.wd + ix.toNat) * v.c + c) * v.bytes)

/-- The virtual address of a byte of the tensor; through a window, of the element that holds it (09 R199). -/
def Rec.convVa (r : Rec) (off : Nat) : Nat :=
  if r.slot.isSome then (r.elemVa (off / wEsz r.wdesc) + off % wEsz r.wdesc) % 2 ^ 64 else (r.va + off) % 2 ^ 64

/-- The places in the tensor of the elements of tile row i; none: padding. -/
def Rec.convRow (r : Rec) (i : Nat) : List (Option Nat) := (List.range r.cols).map (r.convOff i)

/-- A range of virtual memory to be read, or written with bytes. -/
structure VRange where
  va : Nat
  len : Nat
  data : Option (List Byte)
deriving DecidableEq, Repr

/-- The ranges of n bytes each that tile row i reads, in order, those that follow one another joined. -/
def Rec.convRanges (r : Rec) (i : Nat) : List VRange :=
  let n := (convOf r.shape).bytes
  ((r.convRow i).filterMap fun x => x.map r.convVa).foldr (fun va l => match l with
    | v :: t => if va + n = v.va then ⟨va, n + v.len, none⟩ :: t else ⟨va, n, none⟩ :: v :: t
    | [] => [⟨va, n, none⟩]) []

/-- The bytes of tile row i: what its ranges gave, in order, and the padding value. -/
def Rec.convBytes (r : Rec) (i : Nat) (data : List Byte) : List Byte :=
  let v := convOf r.shape
  ((r.convRow i).foldl (fun (acc : List Byte × List Byte) x => match x with
    | some _ => (acc.1 ++ acc.2.take v.bytes, acc.2.drop v.bytes)
    | none => (acc.1 ++ bytesOfNat v.bytes (v.padv % 2 ^ (8 * v.bytes)), acc.2)) ([], data)).1

/-- The window elements that a unit reads or writes, by their place among those that the record covers. -/
def Rec.unitElements (r : Rec) (u : Nat) : List Nat :=
  if r.byElem then [u]
  else if r.slot.isSome then ((r.convRow u).filterMap fun x => x.map (· / wEsz r.wdesc)).dedup
  else []

end Sys2Proof.Machine
end

