-- ==== Sys2Proof/Machine/Channels.lean ====
section
/-! DEFINITION. Copy channels (09 R181 to R205): the channel and window instructions, and the steps in which a channel
accepts, starts, performs and ends records. -/

namespace Sys2Proof.Machine

/-! ## Names -/

/-- The channels of a team's quadrants. -/
def teamChans (id : TeamId) (tm : Team) : List ChanId :=
  tm.quads.flatMap fun q => (List.range 4).map fun i => ⟨⟨id.die, id.core, q⟩, i⟩

/-- A channel of a thread's own quadrant (09 R201). -/
def ownChan (s : State) (k : ThreadKey) (ch : Nat) : ChanId :=
  ⟨⟨k.team.die, k.team.core, match aget (handOf k) s.hands with
    | some h => h.quad
    | none => 0⟩, ch⟩

/-- The chain that a channel runs. -/
def Chan.chain (c : Chan) : Option Chain :=
  match c.run with
  | some (.chain x) => some x
  | _ => none

def Job.team : Job → TeamId
  | .chain x => x.team
  | .take t => t.team

def Job.isChain : Job → Bool
  | .chain _ => true
  | .take _ => false

def setChain (s : State) (c : ChanId) (x : Chain) : State := s.modChan c fun ch => { ch with run := some (.chain x) }

/-- Changes the n-th record of the chain that a channel runs. -/
def modRec (s : State) (c : ChanId) (n : Nat) (f : Rec → Rec) : State :=
  s.modChan c fun ch => match ch.run with
    | some (.chain x) => { ch with run := some (.chain { x with recs := modAt f n x.recs }) }
    | _ => ch

/-- Whether a team's channels may start records: no freeze of its own or of a debugger, no halt whose IDLE reads 1
(23 R408), and no suspension under way. A debugger's freeze holds a DRAINING team's channels, too (DESIGN CHOICE: R183 lifts
its own, notes/assumptions/101.md). -/
def mayStart (s : State) (c : ChanId) (id : TeamId) : Bool :=
  !(s.chan c).frozen.contains id && !((s.core (coreOf id)).halt && (s.core (coreOf id)).freeze) &&
    !(s.core (coreOf id)).idle &&
    (match aget id s.teams with
      | some tm => tm.suspendAt.isNone && !tm.halted
      | none => false)

/-! ## Fault records of engines (14 R323) -/

/-- A fault record of a copy channel. -/
def chanFault (s : State) (c : ChanId) (id : TeamId) (off : Nat) (f : FaultInfo) (wait : Bool) (page : Nat) : State :=
  sendFault s { teamRec s id { f with spoff := off } wait page 2 with quad := c.quad.quad, chan := c.ch }

/-! ## Requests of engines -/

/-- Who makes requests, for the controllers' shares: a team's function and node (11 R230); and the channel, if one does. -/
structure Asker where
  func : Nat
  node : Nat
  src : Option ChanId
deriving DecidableEq, Repr

/-- The asker of a team's channel. -/
def chanAsker (c : ChanId) (tm : Team) : Asker := ⟨tm.func, tm.node, some c⟩

/-- How the accesses of a unit are made: each on its own way; together, all or none (09 R192), under the number of the first;
or held for a migrating page, all of them (14 R316). -/
inductive SendAs where
  | each
  | joint (group : Nat)
  | held (group : Nat)
deriving DecidableEq, Repr

/-- An access of a unit: what it reads or writes, where, and the further parts of a request (22 R398). -/
structure UnitLine where
  v : VRange
  xl : Xl
  more : List (Nat × Nat × Nat)
deriving DecidableEq, Repr

/-- The bytes of an access's first part. -/
def UnitLine.own (l : UnitLine) : Nat := l.v.len - (l.more.map (·.2.2)).sum

/-- A request to a controller counts its lines, where their page is a forwarded one of this module's own (14 R315). -/
def UnitLine.count (l : UnitLine) (s : State) (fn : Nat) : State :=
  ((l.v.va, l.own) :: l.more.map fun p => (p.1, p.2.2)).foldl (fun s p => countLines s fn p.1 p.2 l.v.data.isSome) s

/-- Sends one access of a unit under the next number: to its controller, to its owner as a forwarded line (14 R314), or to
where the writes of a migrating page are held (R316). -/
def sendLine (s : State) (w : Asker) (rop : Option Nat) (how : SendAs) (l : UnitLine) : State :=
  let id := s.nextId
  let s1 := { s with nextId := id + 1 }
  let v := l.v
  let fwd (node : Option Nat) (inc : Word) (addr : Nat) (dram : Option (Option Nat)) : State :=
    let group := match how with
      | .joint g => g
      | _ => id
    { s1 with forwards := s1.forwards ++
        [⟨id, w.func, node, inc, addr, v.va, v.data, v.len, w.src, w.node, rop, group, dram⟩] }
  match how, l.xl with
  | .held g, _ => { s1 with heldWrites := s1.heldWrites ++ [⟨id, w.func, v.va, v.data.getD [], (w.func, w.node), w.src, rop, g⟩] }
  | .joint _, .dram d dirty => fwd none 0 d (some dirty)
  | .each, .dram d dirty =>
    let q : Req := ⟨id, d, l.own, v.data, dirty, s.cycle, (w.func, w.node), w.src, v.va, rop, l.more⟩
    l.count (s1.modPch (pchOf d) fun p => { p with reqs := p.reqs ++ [q] }) w.func
  | _, .fabric node addr _ => fwd (some node) (((s.func w.func).page v.va).elim 0 (·.inc)) addr none
  | _, .host addr _ => fwd none 0 addr none
  | _, _ => s1

/-- The lines of a range. -/
def VRange.cut (v : VRange) : List VRange :=
  (pieces 128 (v.len / 128 + 2) v.va v.len).map fun p =>
    ⟨p.1, p.2, v.data.map fun bs => (bs.drop (p.1 - v.va)).take p.2⟩

/-- The access that a range makes. -/
def VRange.acc (v : VRange) : Acc := if v.data.isSome then .write else .read

/-- Whether a line and the request that goes on after it are one request: they lie at one controller (22 R398). -/
def joins (a b : UnitLine) : Bool :=
  match a.xl, b.xl with
  | .dram d x, .dram e y => pchOf d = pchOf e && x = y
  | _, _ => false

/-- A line and the request that goes on after it, as one: a part of its own, unless the next begins where it ends. -/
def UnitLine.join (a b : UnitLine) : UnitLine :=
  let data := match a.v.data, b.v.data with
    | some x, some y => some (x ++ y)
    | _, _ => none
  let near := match a.xl, b.xl with
    | .dram d _, .dram e _ => e = d + a.v.len && d / 1024 = e / 1024
    | _, _ => false
  ⟨⟨a.v.va, a.v.len + b.v.len, data⟩, a.xl, if near then b.more else match b.xl with
    | .dram e _ => (b.v.va, e, b.own) :: b.more
    | _ => b.more⟩

/-- The requests of lines: those that follow one another at one controller are one (22 R398; DEDUCED,
notes/assumptions/119.md). -/
def joinLines : List UnitLine → List UnitLine
  | [] => []
  | a :: rest =>
    match joinLines rest with
    | [] => [a]
    | b :: t => if joins a b then a.join b :: t else a :: b :: t

/-- Whether lines lie in this module's DRAM. -/
def UnitLine.inDram (l : UnitLine) : Bool :=
  match l.xl with
  | .dram _ _ => true
  | _ => false

/-- How the lines of a unit are sent: a write or a reduction that may fail after some of it has been performed is performed
whole (09 R192; DEDUCED, notes/assumptions/119.md). -/
def sendHow (s : State) (rop : Option Nat) (ls : List UnitLine) : SendAs :=
  if ls.any (·.xl = .held) then .held s.nextId
  else if ls.any (·.v.data.isSome) && 1 < (joinLines ls).length && (rop.isSome || !ls.all UnitLine.inDram) then .joint s.nextId
  else .each

/-- Sends the accesses of several ranges, if every line has a place, or is held for one; rop: of a reducing copy. -/
def sendRanges (s : State) (w : Asker) (rop : Option Nat) (vs : List VRange) : Except Miss (State × List Nat) :=
  let ls : List UnitLine := (vs.flatMap VRange.cut).map fun v => ⟨v, translate s w.func v.va v.acc, []⟩
  match ls.find? fun l => !l.xl.isPlace && l.xl ≠ .held with
  | some l => .error ⟨l.v.va, l.xl⟩
  | none =>
    let how := sendHow s rop ls
    let qs := if how = .each then joinLines ls else ls
    .ok (qs.foldl (sendLine · w rop how) s, (List.range qs.length).map (· + s.nextId))

/-- The replies to requests, once all have come. -/
def repliesOf (s : State) (ids : List Nat) : Option (List Answer) :=
  if ids.all fun i => (aget i s.answers).isSome then some (ids.filterMap fun i => aget i s.answers) else none

/-- Takes replies. -/
def dropAnswers (s : State) (ids : List Nat) : State :=
  { s with answers := s.answers.filter fun a => !ids.contains a.1 }

/-! ## Acceptance (09 R184) -/

/-- Whether an accepted record that has not started fills a tile of a team. -/
def fillQueued (s : State) (id : TeamId) (no : Nat) : Bool :=
  s.chans.any fun e => e.2.chains.any fun x => x.team = id && x.recs.any fun r =>
    !r.started && !r.bad && r.fills && r.tileNo = no

/-- Brings Q of a tile up to date (07 R153). -/
def updateQ (s : State) (id : TeamId) (no : Nat) : State :=
  match aget id s.teams with
  | some tm =>
    match tm.tiles[no]? with
    | some e => setTile s (coreOf id) e { tileAt s (coreOf id) e with q := fillQueued s id no }
    | none => s
  | none => s

/-- Whether a matrix instruction holds, as its destination, the header of the ring that a record names: reading it waits
(10 R214). -/
def Rec.ringHeld (r : Rec) (s : State) (id : TeamId) : Bool := r.cpl = 2 && heldRange s id r.cploff 16 true

/-- Whether a matrix instruction holds, as its destination, the record at an offset, or the ring header that is read with
it: reading it waits (10 R214). -/
def recHeld (s : State) (id : TeamId) (tm : Team) (off : Nat) : Bool :=
  heldRange s id off 32 true || (Rec.read off (BitVec.ofNat 256 (s.spNat id tm off 32))).ringHeld s id

/-- The record at an offset, as the channel reads it: none where it is not owned by the channel, and the chain ends
there (09 R193). -/
def acceptRec (s : State) (c : ChanId) (id : TeamId) (tm : Team) (off : Nat) : State × Option Rec :=
  if tm.scratch < off + 32 then (chanFault s c id off { code := 0x08, faddr := BitVec.ofNat 64 off, acc := 1 } false 0, none)
  else if s.spPoisoned id tm off 32 then
    (chanFault s c id off { code := 0x15, faddr := BitVec.ofNat 64 off, acc := 1 } false 0, none)
  else
    let r := Rec.read off (BitVec.ofNat 256 (s.spNat id tm off 32))
    if r.own then (s, some { r with bad := r.malformed s id tm }) else (s, none)

/-- The record that follows an accepted one. -/
def followOf (r : Rec) (scratch : Nat) : Option Nat := if r.isLast || r.nextBad scratch then none else some r.nextOff

/-- Ends the chain that a channel runs, if nothing of it is left: its channel is free. -/
def closeChain (s : State) (c : ChanId) : State :=
  match (s.chan c).chain with
  | some x => if x.recs = [] && (x.next.isNone || x.stopped) then s.modChan c fun ch => { ch with run := none } else s
  | none => s

/-! ## KICK (09 R202) -/

/-- The places of acquires at PKG or SYS that a thread has issued and that are not performed (13 R279). -/
def wideAcquires (s : State) (k : ThreadKey) : List Nat :=
  match aget (handOf k) s.hands with
  | some h => (h.storeQ.filter fun e => e.lane = k.lane && (e.acq = some .pkg || e.acq = some .sys)).map (·.seq)
  | none => []

/-- A KICK is accepted: the head record is read, and the chain joins the queue. -/
def kickChain (s : State) (k : ThreadKey) (c : ChanId) (tm : Team) (off : Nat) : State :=
  let q := nextSeqNo s (handOf k)
  let a := acceptRec s c k.team tm off
  let x : Chain := ⟨k.team, k.hand, q, wideAcquires s k, a.2.toList, a.2.bind fun r => followOf r tm.scratch, false⟩
  let s1 := a.1.modChan c fun ch => { ch with queue := ch.queue ++ [.chain x] }
  let s2 := s1.modHand (handOf k) fun h => { h with seq := h.seq + 1 }
  match a.2 with
  | some r => if r.fills && !r.bad then updateQ s2 k.team r.tileNo else s2
  | none => s2

/-- KICK (09 R202). -/
def execKick (g : Guard) (d : BitVec 2) (a : Src) (off : Word) (s : State) : Out :=
  .next (runLanes s ⟨g, srcOp a false, noOp, noOp, []⟩ fun k v s => inTeam s k fun tm =>
    let h := memAddr v.a off
    let c := ownChan s k d.toNat
    if h % 32 ≠ 0 then .fault { code := 0x09, faddr := BitVec.ofNat 64 h, acc := 1 }
    else if tm.scratch < h + 32 then .fault { code := 0x08, faddr := BitVec.ofNat 64 h, acc := 1 }
    else if 4 ≤ (s.chan c).heads.length then .wait (blockOn s k (.kick d.toNat))
    else if recHeld s k.team tm h then .wait s
    else .done (kickChain s k c tm h))

/-! ## Status (09 R203) -/

/-- A team's records that are in flight on a channel, the oldest first. -/
def Chan.flight (ch : Chan) (id : TeamId) : List Rec :=
  (ch.chains.filter (·.team = id)).flatMap fun x => x.recs.filter (·.started)

/-- The channel status word, as a team sees it; BUSY counts the takes that run or wait on the channel, too (11 R246). -/
def chanStatus (s : State) (c : ChanId) (id : TeamId) : Nat :=
  let ch := s.chan c
  let queued := min 4 (ch.heads.filter fun j => j.team = id && j.isChain).length
  let flight := ch.flight id
  let cur := match flight with
    | r :: _ => r.off / 32
    | [] => 0
  (if ch.jobs.any (·.team = id) then 2 ^ 31 else 0) + (if ch.frozen.contains id && flight = [] then 2 ^ 30 else 0)
    + queued * 2 ^ 27 + (if flight = [] then 0 else 2 ^ 26) + min 1023 (agetD id 0 ch.incomp) * 2 ^ 16 + cur

/-- CHSTAT (09 R203). -/
def execChstat (g : Guard) (d : BitVec 8) (ch : BitVec 2) (s : State) : Out :=
  .next (runLanes s ⟨g, noOp, noOp, noOp, [(d, false)]⟩ fun k _ s => inTeam s k fun tm =>
    if tm.detMode then .fault { code := 0x0D }
    else putReg d false (BitVec.ofNat 64 (chanStatus s (ownChan s k ch.toNat) k.team)) k s)

/-- CHWAIT (09 R203). -/
def execChwait (g : Guard) (d : BitVec 8) (ch : BitVec 2) (s : State) : Out :=
  .next (runLanes s ⟨g, noOp, noOp, noOp, [(d, false)]⟩ fun k _ s =>
    let v := chanStatus s (ownChan s k ch.toNat) k.team
    if 2 ^ 31 ≤ v then .wait (blockOn s k (.chwait ch.toNat)) else putReg d false (BitVec.ofNat 64 v) k s)

/-! ## CHSTOP (09 R204) -/

/-- The records of a chain that will not start are dropped. -/
def dropUnstarted (s : State) (id : TeamId) (rs : List Rec) : State :=
  rs.foldl (fun s r => if r.fills && !r.bad && !r.started then updateQ s id r.tileNo else s) s

/-- A chain of a team accepts no further record, and those that it has not started are dropped. -/
def Job.stopped (id : TeamId) : Job → Job
  | .chain x => .chain (if x.team = id then { x with stopped := true, recs := x.recs.filter (·.started) } else x)
  | .take t => .take t

/-- The waiting chains of a team go, but for one that it has brought back with a record in flight. -/
def dropQueued (s : State) (c : ChanId) (id : TeamId) : State :=
  let mine (j : Job) : Bool := j.isChain && j.team = id
  let gone := ((s.chan c).chains.filter (·.team = id)).flatMap (·.recs)
  dropUnstarted (s.modChan c fun ch => { ch with
    back := (ch.back.filter fun j => !mine j || j.started).map (Job.stopped id)
    queue := ch.queue.filter fun j => !mine j }) id gone

/-- FN 0: what has not started is dropped. -/
def stopChan (s : State) (c : ChanId) (id : TeamId) : State :=
  let s1 := match (s.chan c).chain with
    | some x =>
      if x.team = id then
        closeChain (dropUnstarted (setChain s c { x with stopped := true, recs := x.recs.filter (·.started) }) id x.recs) c
      else s
    | none => s
  dropQueued s1 c id

/-- CHSTOP (09 R204). -/
def execChstop (g : Guard) (ch : BitVec 2) (s : State) : Out :=
  .next (runLanes s (bare g) fun k _ s => .done (stopChan s (ownChan s k ch.toNat) k.team))

/-- CHSTOP.FREEZE (09 R204). -/
def execChstopFreeze (g : Guard) (ch : BitVec 2) (s : State) : Out :=
  .next (runLanes s (bare g) fun k _ s => .done (s.modChan (ownChan s k ch.toNat) fun c =>
    { c with frozen := if c.frozen.contains k.team then c.frozen else c.frozen ++ [k.team] }))

/-- CHSTOP.THAW (09 R204). -/
def execChstopThaw (g : Guard) (ch : BitVec 2) (s : State) : Out :=
  .next (runLanes s (bare g) fun k _ s => .done (s.modChan (ownChan s k ch.toNat) fun c =>
    { c with frozen := c.frozen.filter (· ≠ k.team) }))

/-! ## Windows (09 R205) -/

/-- Whether a record of a team that names a window slot is in flight. -/
def slotBusy (s : State) (id : TeamId) (n : Nat) : Bool :=
  s.chans.any fun e => e.2.chains.any fun x => x.team = id && x.recs.any fun r => r.started && r.slot = some n

/-- WBIND (09 R205). -/
def execWbind (g : Guard) (a : Src) (off : Word) (s : State) : Out :=
  .next (runLanes s ⟨g, srcOp a false, noOp, noOp, []⟩ fun k v s => inTeam s k fun tm =>
    let x := memAddr v.a off
    if x % 32 ≠ 0 then .fault { code := 0x09, faddr := BitVec.ofNat 64 x, acc := 1 }
    else if tm.scratch < x + 32 then .fault { code := 0x08, faddr := BitVec.ofNat 64 x, acc := 1 }
    else if heldRange s k.team x 32 true then .wait s
    else if s.spPoisoned k.team tm x 32 then .fault { code := 0x15, faddr := BitVec.ofNat 64 x, acc := 1 }
    else
      let w := BitVec.ofNat 256 (s.spNat k.team tm x 32)
      match windowPoison s k.team tm w with
      | some f => .fault f
      | none =>
      if windowBad s k.team tm w then .fault { code := 0x1B, faddr := BitVec.ofNat 64 x, spoff := x }
      else if slotBusy s k.team (wSlot w) then .wait s
      else .done (s.modTeam k.team fun tm => { tm with windows := tm.windows.set (wSlot w) (some w) }))

/-- WUNBIND (09 R205). -/
def execWunbind (g : Guard) (n : BitVec 3) (s : State) : Out :=
  .next (runLanes s (bare g) fun k _ s =>
    if slotBusy s k.team n.toNat then .wait s
    else .done (s.modTeam k.team fun tm => { tm with windows := tm.windows.set n.toNat none }))

/-- WSTAT (09 R205). -/
def execWstat (g : Guard) (d : BitVec 8) (n : BitVec 3) (s : State) : Out :=
  .next (runLanes s ⟨g, noOp, noOp, noOp, [(d, false)]⟩ fun k _ s => inTeam s k fun tm =>
    if tm.detMode then .fault { code := 0x0D }
    else
      let v := match tm.windows.getD n.toNat none with
        | some w => 2 ^ 31 + (if slotBusy s k.team n.toNat then 2 ^ 30 else 0) + wCount w % 2 ^ 15
        | none => 0
      putReg d false (BitVec.ofNat 64 v) k s)

/-! ## Jobs that resumed teams bring back (15 R345) -/

/-- Does f for every job under way at a channel: the one that it runs, and then each that a resumed team has brought back, as
if the channel ran it. -/
def onJobs (s : State) (c : ChanId) (f : State → State) : State :=
  let s1 := f s
  let r := (s1.chan c).back.foldl (fun (r : State × List Job) j =>
    let s2 := f (r.1.modChan c fun ch => { ch with run := some j })
    (s2, r.2 ++ (s2.chan c).run.toList)) (s1, [])
  r.1.modChan c fun ch => { ch with run := (s1.chan c).run, back := r.2 }

/-! ## COPY_RECORD_ACCEPT (09 R182, R184) -/

/-- Whether the channel has issued every unit of the records it has accepted. -/
def Chain.allIssued (x : Chain) : Bool := x.recs.all fun r => r.started && r.issued = r.units

/-- Whether a free channel may go on with a job: one with a record in flight, or of a team whose records may start. -/
def Job.goes (s : State) (c : ChanId) (j : Job) : Bool := j.started || mayStart s c j.team

/-- A free channel goes on with a job that a resumed team has brought back, the first that may, and else with the head of its
queue. -/
def nextJob (s : State) (c : ChanId) : State :=
  let ch := s.chan c
  match ch.back.findIdx? (Job.goes s c), ch.queue with
  | some i, _ => closeChain (s.modChan c fun ch => { ch with run := ch.back[i]?, back := delAt i ch.back }) c
  | none, j :: rest => if j.goes s c then closeChain (s.modChan c fun ch => { ch with run := some j, queue := rest }) c else s
  | none, [] => s

/-- A channel takes its next job, or the next record of the chain it runs. -/
def acceptNext (s : State) (c : ChanId) : State :=
  match (s.chan c).run with
  | none => nextJob s c
  | some (.take _) => s
  | some (.chain x) =>
    match x.next, aget x.team s.teams with
    | some off, some tm =>
      if mayStart s c x.team && !x.stopped && x.allIssued && !recHeld s x.team tm off then
        let a := acceptRec s c x.team tm off
        let s1 := setChain a.1 c { x with recs := x.recs ++ a.2.toList, next := a.2.bind fun r => followOf r tm.scratch }
        match a.2 with
        | some r => if r.fills && !r.bad then updateQ s1 x.team r.tileNo else s1
        | none => closeChain s1 c
      else s
    | _, _ => s

/-- COPY_RECORD_ACCEPT (09 R184). -/
def execCopyRecordAccept (c : ChanId) (s : State) : Out := .next (acceptNext s c)

/-! ## COPY_RECORD_START (09 R184 to R189, R192, R199) -/

/-- An engine calls landed(n) on a barrier; a poisoned barrier is left as it is, with a record (07 R141). -/
def callLanded (s : State) (id : TeamId) (bb n : Nat) (poisoned : FaultInfo → State) : State :=
  if barrierPoisoned s id bb then poisoned { code := 0x15, faddr := BitVec.ofNat 64 bb, acc := 8 } else landed s id bb n

/-- A call of landed(n) on a record's barrier. -/
def landedCall (s : State) (c : ChanId) (id : TeamId) (r : Rec) (n : Nat) : State :=
  callLanded s id r.cploff n fun f => chanFault s c id r.off f false 0

/-- The barrier of a record counts bytes; nothing without one. -/
def countLanded (s : State) (c : ChanId) (id : TeamId) (r : Rec) (n : Nat) : State :=
  if r.cpl = 0 then landedCall s c id r n else s

/-- Whether a matrix instruction holds a record's barrier: what would update it waits (10 R214). -/
def Rec.barrierWaits (r : Rec) (s : State) (id : TeamId) : Bool := r.cpl = 0 && barrierHeld s id r.cploff

/-- A malformed record: COPY_FORMAT, no unit, and the Q that its acceptance set goes. -/
def startBad (s : State) (c : ChanId) (x : Chain) (n : Nat) (r : Rec) : State :=
  let s1 := modRec s c n fun r => { r with bad := true, started := true, units := 0 }
  let s2 := if r.fills then updateQ s1 x.team r.tileNo else s1
  chanFault s2 c x.team r.off { code := 0x1B } false 0

/-- A record that meets a fault at its start: one fault record, and every unit is abandoned (09 R192). -/
def startLost (s : State) (c : ChanId) (x : Chain) (n : Nat) (r : Rec) (f : FaultInfo) : State :=
  let all := 2 ^ r.units - 1
  let s1 := modRec s c n fun _ => { r with started := true, lost := true, issued := r.units, mask := all, gone := all }
  let s2 := if r.fills then updateQ s1 x.team r.tileNo else s1
  let s3 := chanFault s2 c x.team r.off f false 0
  if r.rel then s3 else (List.range r.units).foldl (fun s u => countLanded s c x.team r (r.span u).len) s3

/-- The number of units of a record. -/
def Rec.countUnits (r : Rec) : Nat :=
  if r.byElem then r.len / wEsz r.wdesc
  else match r.kind with
    | 1 => (r.len + 63) / 64
    | 2 => r.tile.nrow + 1
    | _ => pieceCount r.va r.len

/-- The record with what it reads of its tile, its format register, its window and its shape. -/
def fillRec (s : State) (id : TeamId) (tm : Team) (r : Rec) : Rec :=
  let ref : TileRef := ⟨id, tm.tiles.getD r.tileNo 0⟩
  let r0 := { r with
    desc := if r.tdst then tileWord s (coreOf id) ref.entry else 0
    fmt := if r.tdst then tileFmt s ref else 0
    shape := if r.kind = 2 then BitVec.ofNat 256 (s.spNat id tm r.param 32) else 0 }
  let w := windowFor tm r.va r0.vlen
  let r1 := { r0 with
    slot := Option.map Prod.fst w
    wdesc := match w with
      | some e => e.2
      | none => 0 }
  { r1 with units := r1.countUnits }

/-- What makes a record malformed at its start. -/
def Rec.startMalformed (r : Rec) (tm : Team) : Bool :=
  (match r.kind with
    | 1 => r.convertBad
    | 2 => r.convBad
    | _ => tm.scratch < r.spBase + r.len) || (r.slot.isSome && !insideWindow r.wdesc r.va r.vlen r.len) || 16384 < r.units

/-- Where a record's indices lie. -/
def indexBase (s : State) (id : TeamId) (tm : Team) (r : Rec) : Nat :=
  (if wIsrc r.wdesc then (tileAt s (coreOf id) (tm.tiles.getD (wItile r.wdesc) 0)).base * 64 else wIoff r.wdesc) + 4 * r.elem0

/-- How the tiles that a record names let it start: those it reads, and the one it fills (07 R153). -/
def recMeets (s : State) (id : TeamId) (tm : Team) (r : Rec) : TileMeet :=
  let tref := fun (m : Nat) => (⟨id, tm.tiles.getD m 0⟩ : TileRef)
  let reads := (if r.slot.isSome && wIsrc r.wdesc then [tref (wItile r.wdesc)] else []) ++
    (if r.tdst && r.out then [tref r.tileNo] else [])
  match (reads.map (meetReader s id)).find? (· ≠ .go) with
  | some m => m
  | none =>
    if r.fills && ((tileAt s (coreOf id) (tref r.tileNo).entry).state ≠ 0 || trickTile s (tref r.tileNo)) then .wait
    else if r.trel && tileHeld s (tref r.tileNo) then .wait
    else .go

/-- Whether the acquires that come before a record's data reads are performed: its own, and those of its thread (09 R194,
13 R279). -/
def acquired (s : State) (x : Chain) (r : Rec) : Bool :=
  (!r.acq || settledBefore s ⟨x.team, x.hand⟩ x.seq) &&
    (match aget ⟨x.team, x.hand⟩ s.hands with
      | some h => h.storeQ.all fun e => !x.acqs.contains e.seq
      | none => true)

/-- Whether the footprint of a tile that a record names passes SCRATCH (07 R151); of a sparse-rows tile that the record
fills, only the part that does not depend on what it moves. -/
def Rec.tileOutside (r : Rec) (s : State) (id : TeamId) (tm : Team) : Bool :=
  r.tdst && !(r.tile.elem = 0 && fmtUnset r.fmt) &&
    !r.tile.inBounds r.fmt (if r.fills then 0 else sparseCount s id tm r.tile) tm.scratch

/-- Whether the footprint of the tile that holds a record's indices passes SCRATCH. -/
def Rec.indexOutside (r : Rec) (s : State) (id : TeamId) (tm : Team) : Bool :=
  r.slot.isSome && wIsrc r.wdesc &&
    (let ref : TileRef := ⟨id, tm.tiles.getD (wItile r.wdesc) 0⟩
     !(ref.tile s).inBounds (tileFmt s ref) (sparseCount s id tm (ref.tile s)) tm.scratch)

/-- A bound that an engine passes at a scratchpad address (07 R165). -/
def passesAt (a acc : Nat) : FaultInfo := { code := 0x08, faddr := BitVec.ofNat 64 a, acc := acc }

/-- The fault with which a record that is not malformed is lost at its start: a range that passes SCRATCH, or a sparse-rows or
row-skip tile whose contents a reader refuses (10 R210, R211; DEDUCED of a convert, notes/assumptions/106.md). -/
def Rec.startFault (r : Rec) (s : State) (id : TeamId) (tm : Team) : Option FaultInfo :=
  let o := r.mop id tm
  if r.tdst && r.out && o.poisoned s o.headNeeds then some { code := 0x15, faddr := BitVec.ofNat 64 o.base, acc := 1 }
  else if r.slot.isSome && (windowPoison s id tm r.wdesc).isSome then windowPoison s id tm r.wdesc
  else if r.tileOutside s id tm then some (passesAt (r.tile.base * 64) (if r.out then 1 else 2))
  else if r.indexOutside s id tm || (r.slot.isSome && tm.scratch < indexBase s id tm r + 4 * r.nIdx) then
    some (passesAt (indexBase s id tm r) 1)
  else if r.kind = 1 && r.out && !o.poisoned s (o.dataNeeds s) && !o.contentOk s then some { code := 0x1C, acc := 1 }
  else none

/-- Whether what a record reads at its start is held by a matrix instruction, or comes before its acquires (13 R279, R282): its
shape, its indices, and the row pointers, mask and entries of the tile that it moves out. -/
def Rec.startWaits (r : Rec) (s : State) (x : Chain) (tm : Team) : Bool :=
  ((r.slot.isSome || r.kind = 2 || (r.tdst && r.out)) && !acquired s x r) || (r.kind = 2 && heldRange s x.team r.param 32 true) ||
    (r.slot.isSome && heldRange s x.team (indexBase s x.team tm r) (4 * r.nIdx) true)

/-- A record starts: it reads its indices, and its tile changes its state (07 R153). -/
def startGood (s : State) (c : ChanId) (x : Chain) (n : Nat) (r : Rec) (tm : Team) : State :=
  let entry := tm.tiles.getD r.tileNo 0
  let ia := indexBase s x.team tm r
  let idx := (List.range r.nIdx).map fun i => s.spNat x.team tm (ia + 4 * i) 4
  let bad := (List.range r.nIdx).filter fun i => s.spPoisoned x.team tm (ia + 4 * i) 4
  let s1 := modRec s c n fun _ => { r with started := true, idx := idx, badIdx := bad }
  if r.fills then updateQ (setTileState s1 (coreOf x.team) entry 1) x.team r.tileNo
  else if r.trel then setTileState s1 (coreOf x.team) entry 3
  else s1

/-- The n-th record of the chain that a channel runs starts. -/
def startRec (s : State) (c : ChanId) (x : Chain) (n : Nat) (r0 : Rec) (tm : Team) : State :=
  let lose (r : Rec) (f : FaultInfo) : State := if r.barrierWaits s x.team then s else startLost s c x n r f
  if r0.bad then startBad s c x n r0
  else
    let r := fillRec s x.team tm r0
    if r.startWaits s x tm then s
    else match recMeets s x.team tm r with
      | .wait => s
      | .fault => lose r { code := 0x0B, acc := if r.out then 1 else 0 }
      | .go =>
        if r.kind = 2 && s.spPoisoned x.team tm r.param 32 then
          lose r { code := 0x15, faddr := BitVec.ofNat 64 r.param, acc := 1 }
        else if r.startMalformed tm then startBad s c x n r
        else match r.startFault s x.team tm with
          | some f => lose r f
          | none => startGood s c x n r tm

/-- COPY_RECORD_START (09 R184). -/
def execCopyRecordStart (c : ChanId) (n : Nat) (s : State) : Out :=
  match (s.chan c).chain with
  | none => .next s
  | some x =>
    match x.recs[n]?, aget x.team s.teams with
    | some r, some tm =>
      if !r.started && (x.recs.take n).all (·.started) && mayStart s c x.team then .next (startRec s c x n r tm) else .next s
    | _, _ => .next s

/-! ## Units (09 R191, R196, R199) -/

/-- Whether a unit of a record below u is on its way: its accesses have been sent, and not all of them are answered. -/
def Rec.lowerOut (r : Rec) (s : State) (u : Nat) : Bool :=
  (List.range u).any fun v => match aget v r.reqs with
    | some ids => ids.any fun i => (aget i s.answers).isNone
    | none => false

/-- Whether a record may issue its next unit: within the limit of a halt, and after its acquires. A release record writes
nothing before the earlier records of its chain have settled (13 R300), and a reducing copy's elements are applied in
ascending order (09 R190). -/
def mayIssue (s : State) (x : Chain) (n : Nat) (r : Rec) : Bool :=
  r.started && r.issued < r.units && (match r.limit with
      | some l => r.issued < l
      | none => true) && acquired s x r && (!(r.rel && r.out) || n = 0) && !(r.kind = 3 && r.lowerOut s r.issued)

/-- A unit settles: its mask bit is set and its bytes are counted, once (09 R191). While a matrix instruction holds the
barrier, a unit that has been abandoned settles later. -/
def settleUnit (s : State) (c : ChanId) (x : Chain) (n : Nat) (r : Rec) (u : Nat) (gone : Bool) : State :=
  let mark (r : Rec) : Rec := { r with
    gone := if gone then r.gone ||| 2 ^ u else r.gone
    waiting := r.waiting.filter (· ≠ u)
    asked := adel u r.asked }
  if bit r.mask u then s
  else if !r.rel && r.barrierWaits s x.team then modRec s c n fun r => { mark r with reqs := aset u [] r.reqs }
  else
    let s1 := modRec s c n fun r => { mark r with mask := r.mask ||| 2 ^ u, reqs := adel u r.reqs }
    if r.rel then s1 else countLanded s1 c x.team r (r.span u).len

/-- A unit is abandoned with a fault record. -/
def abandonUnit (s : State) (c : ChanId) (x : Chain) (n : Nat) (r : Rec) (u : Nat) (f : FaultInfo) : State :=
  settleUnit (chanFault s c x.team r.off f false 0) c x n r u true

/-- The element number of a unit's fault record: the window element, or the unit. -/
def Rec.unitElem (r : Rec) (u : Nat) : Nat := if r.byElem then r.elem0 + u else u

/-- The access type of a unit's fault record: read, write, or read-modify-write (14 R323). -/
def Rec.accType (r : Rec) : Nat := if r.kind = 3 then 8 else if r.out then 2 else 1

/-- A unit waits; the dealer is told where it must answer, once while that record is unresolved. -/
def unitWaits (s : State) (c : ChanId) (x : Chain) (n : Nat) (r : Rec) (u fn : Nat) (m : Miss) : State :=
  let s1 := modRec (m.note s fn) c n fun r => { r with waiting := if r.waiting.contains u then r.waiting else r.waiting ++ [u] }
  match m.xl with
  | .dealer code page =>
    if aget u r.asked = some (page, code) && faultOpen s fn page code 2 then s1
    else chanFault (modRec s1 c n fun r => { r with asked := aset u (page, code) r.asked }) c x.team r.off
      { code := code, faddr := BitVec.ofNat 64 m.va, felem := r.unitElem u, acc := r.accType } true page
  | _ => s1

/-- The elements whose first byte lies in a unit of a reducing copy, the first of them and their number: an element that two
units share belongs to the lower one (DESIGN CHOICE, notes/assumptions/130.md). -/
def Rec.unitElems (r : Rec) (u : Nat) : Nat × Nat :=
  let p := r.span u
  if r.byElem then (p.off / 4, p.len / 4) else ((p.off + 3) / 4, (p.off + p.len + 3) / 4 - (p.off + 3) / 4)

/-- The virtual address of the first element of a unit of a reducing copy. -/
def Rec.reduceVa (r : Rec) (u : Nat) : Nat :=
  if r.byElem then r.unitVa u else (r.va + 4 * (r.unitElems u).1) % 2 ^ 64

/-- Where the data of a unit lies in the scratchpad; a convert's is its whole tile. -/
def Rec.unitSp (r : Rec) (s : State) (id : TeamId) (tm : Team) (u : Nat) : Nat × Nat :=
  match r.kind with
  | 1 => (r.tile.base * 64, r.tile.footprint r.fmt (if r.fills then r.elems else sparseCount s id tm r.tile))
  | 2 => ((r.mop id tm).rowAt u, (r.mop id tm).stride)
  | 3 => (r.spBase + 4 * (r.unitElems u).1, 4 * (r.unitElems u).2)
  | _ => (r.spBase + (r.span u).off, (r.span u).len)

/-- The blocks whose scale bytes move with a unit: the first, and how many (09 R188). -/
def Rec.unitScales (r : Rec) (u : Nat) : Nat × Nat :=
  let ks := if r.kind = 1 && r.tile.block r.fmt ≠ 0 && r.scl = 1 then r.groupsFrom (r.span u).off (r.span u).len else []
  (ks.headD 0, ks.length)

/-- What a unit reads or writes in virtual memory. A convert's scale bytes are a request of their own (DEDUCED,
notes/assumptions/106.md). -/
def Rec.unitRanges (r : Rec) (s : State) (id : TeamId) (tm : Team) (u : Nat) : List VRange :=
  let p := r.span u
  let va := r.unitVa u
  let sc := r.unitScales u
  let scVa := (r.va + r.len + sc.1) % 2 ^ 64
  if r.kind = 2 then r.convRanges u
  else if r.kind = 3 then
    let sp := r.unitSp s id tm u
    [⟨r.reduceVa u, sp.2, some (s.spBytes id tm sp.1 sp.2)⟩]
  else if r.out then
    if r.kind = 1 then
      ⟨va, p.len, some (r.outBytes s id tm p.off p.len)⟩ ::
        (if sc.2 = 0 then [] else [⟨scVa, sc.2, some (s.spBytes id tm (r.scaleAt sc.1) sc.2)⟩])
    else [⟨va, p.len, some (s.spBytes id tm (r.unitSp s id tm u).1 p.len)⟩]
  else ⟨va, p.len, none⟩ :: (if sc.2 = 0 then [] else [⟨scVa, sc.2, none⟩])

/-- The scratchpad bytes that a unit reads; a convert in under the tile's own scales reads those of its blocks. -/
def Rec.unitReads (r : Rec) (s : State) (id : TeamId) (tm : Team) (u : Nat) : List (Nat × Nat) :=
  let sc := r.unitScales u
  if !r.out then
    if r.kind = 1 && r.scl = 0 && 2 < r.sfmt && r.tile.block r.fmt ≠ 0 then
      (r.groupsAt (r.span u).off (r.span u).len).map fun k => (r.scaleAt k, 1)
    else []
  else if r.kind = 1 then
    r.outReads s id tm (r.span u).off (r.span u).len ++ (if sc.2 = 0 then [] else [(r.scaleAt sc.1, sc.2)])
  else [r.unitSp s id tm u]

/-- Whether a matrix instruction holds what a unit reads (10 R214). -/
def Rec.readsHeld (r : Rec) (s : State) (id : TeamId) (tm : Team) (u : Nat) : Bool :=
  (r.unitReads s id tm u).any fun p => heldRange s id p.1 p.2 true

/-- The later elements of a scatter that have been issued to a unit's bytes (09 R199). -/
def Rec.laterHits (r : Rec) (u : Nat) : List Nat :=
  if r.byElem && r.out && r.kind ≠ 3 then
    (List.range r.issued).filter fun e => u < e && r.idx.getD e 0 = r.idx.getD u 0 && !r.waiting.contains e && !bit r.gone e
  else []

/-- What an attempt to issue a unit comes to. -/
inductive Try where
  | ok (s : State)
  /-- Its bytes are held by a matrix instruction (10 R214). -/
  | held
  | bad (m : Miss)
  | lost (f : FaultInfo)

/-- Whether a unit of a reducing copy waits for a lower one: for one on its way, or, through a window, for one to its
address that waits. -/
def Rec.reduceWaits (r : Rec) (s : State) (u : Nat) : Bool :=
  r.kind = 3 && (r.lowerOut s u ||
    (r.byElem && (List.range u).any fun v => r.waiting.contains v && r.idx.getD v 0 = r.idx.getD u 0))

/-- How a reducing copy combines its elements; none: another kind. -/
def Rec.rop (r : Rec) : Option Nat := if r.kind = 3 then some (bits r.param 2 0) else none

/-- Makes the accesses of unit u of a record. A scatter element whose bytes a later one has written writes nothing; while
that one is under way, it waits. -/
def tryUnit (s : State) (c : ChanId) (x : Chain) (n : Nat) (r : Rec) (tm : Team) (u : Nat) : Try :=
  let reads := r.unitReads s x.team tm u
  let later := r.laterHits u
  if r.readsHeld s x.team tm u then .held
  else match reads.find? fun p => s.spPoisoned x.team tm p.1 p.2 with
  | some p => .lost { code := 0x15, faddr := BitVec.ofNat 64 p.1, felem := r.unitElem u, acc := 1 }
  | none =>
    if r.reduceWaits s u then .bad ⟨r.unitVa u, .held⟩
    else if later.any fun e => bit r.mask e then .ok (modRec s c n fun r => { r with reqs := aset u [] r.reqs })
    else if later ≠ [] then .bad ⟨r.unitVa u, .held⟩
    else match sendRanges s (chanAsker c tm) r.rop (r.unitRanges s x.team tm u) with
      | .error m => .bad m
      | .ok (s1, ids) => .ok (modRec s1 c n fun r => { r with reqs := aset u ids r.reqs })

/-- The fault of a window element that a unit moves: a poisoned index, or one out of range (07 R141, 09 R199). -/
def Rec.indexFault (r : Rec) (s : State) (id : TeamId) (tm : Team) (u : Nat) : Option FaultInfo :=
  (r.unitElements u).findSome? fun e =>
    if r.badIdx.contains e then
      some { code := 0x15, felem := r.elem0 + e, faddr := BitVec.ofNat 64 (indexBase s id tm r + 4 * e), acc := 1 }
    else if wBound r.wdesc ≤ r.idx.getD e 0 then
      some { code := 0x1A, felem := r.elem0 + e, faddr := BitVec.ofNat 64 (r.idx.getD e 0) }
    else none

/-- Issues or replays unit u; first: it is the unit that comes next in unit order. -/
def performUnit (s : State) (c : ChanId) (x : Chain) (n : Nat) (r : Rec) (tm : Team) (u : Nat) (first : Bool) : State :=
  let s0 := if first then modRec s c n fun r => { r with issued := u + 1 } else s
  match r.indexFault s x.team tm u with
  | some f => abandonUnit s0 c x n r u f
  | none =>
    match tryUnit s0 c x n r tm u with
    | .ok s1 => modRec s1 c n fun r => { r with waiting := r.waiting.filter (· ≠ u), asked := adel u r.asked }
    | .held => if first then s else s0
    | .lost f => abandonUnit s0 c x n r u f
    | .bad m =>
      match m.xl with
      | .final code => abandonUnit (m.note s0 tm.func) c x n r u
          { code := code, felem := r.unitElem u, faddr := BitVec.ofNat 64 m.va, acc := r.accType }
      | _ => unitWaits s0 c x n r u tm.func m

/-- Issues up to k more units of a record, in unit order. -/
def issueMore (c : ChanId) (n : Nat) : Nat → State → State
  | 0, s => s
  | k + 1, s =>
    match (s.chan c).chain with
    | none => s
    | some x =>
      match x.recs[n]?, aget x.team s.teams with
      | some r, some tm =>
        if mayIssue s x n r then issueMore c n k (performUnit s c x n r tm r.issued true) else s
      | _, _ => s

/-- The number of storage bytes of a unit of a convert. -/
def Rec.unitSize (r : Rec) : Nat := if r.byElem then wEsz r.wdesc else 64

/-- The units that cover a group's storage. -/
def Rec.groupUnits (r : Rec) (k : Nat) : List Nat :=
  let b := r.groupBytes k
  let lo := b.1 / r.unitSize
  (List.range ((b.2 - 1) / r.unitSize + 1 - lo)).map (· + lo)

/-- Whether a unit's storage has arrived, or will not. -/
def Rec.unitIn (r : Rec) (u : Nat) : Bool := (aget u r.bufs).isSome || bit r.gone u

/-- What a group of a convert in becomes, once its storage has arrived: its fields, and the block's new scale byte. -/
def Rec.groupIn (r : Rec) (s : State) (id : TeamId) (tm : Team) (k : Nat) : List Nat × Option Nat :=
  let us := r.groupUnits k
  let data := us.flatMap fun u => ((aget u r.bufs).getD []).take (r.span u).len
  let e := r.groupElems k
  let base := us.headD 0 * r.unitSize * 8
  let codes := (List.range e.2).map fun i => bitsAt data ((e.1 + i) * r.elemBits - base) r.elemBits
  let u0 := us.headD 0
  let scale := if r.scl = 1 then
      (((aget u0 r.bufs).getD []).getD ((r.span u0).len + (k - (r.unitScales u0).1)) 0).toNat
    else r.scaleNow s id tm k
  r.convertIn codes scale

/-- Writes a block's scale byte. -/
def Rec.putScale (r : Rec) (id : TeamId) (tm : Team) (s : State) (k : Nat) (b : Option Nat) : State :=
  match b with
  | some b => s.spWrite id tm (r.scaleAt k) [BitVec.ofNat 8 b]
  | none => s

/-- Writes a group of a convert in. -/
def Rec.writeGroup (r : Rec) (id : TeamId) (tm : Team) (s : State) (k : Nat) : State :=
  let e := r.groupElems k
  let o := r.groupIn s id tm k
  let m := r.mop id tm
  let s1 := ((List.range e.2).zip o.1).foldl (fun s y => m.put s ((e.1 + y.1) / r.cols) ((e.1 + y.1) % r.cols) y.2) s
  m.enliven (r.putScale id tm s1 k o.2) (e.1 / r.cols)

/-- The groups of a record. -/
def Rec.groups (r : Rec) : List Nat := List.range ((r.tile.nrow + 1) * r.groupsPerRow)

/-- The data of the sparse-rows tile that a convert in builds (10 R210): it keeps the elements that are not +0, as SPCOMP
does (DESIGN CHOICE, notes/assumptions/106.md). -/
def Rec.sparseIn (r : Rec) (s : State) (id : TeamId) (tm : Team) : List Byte :=
  let m := r.mop id tm
  sparseData ((List.range (r.tile.nrow + 1)).map fun i =>
    ((List.range r.groupsPerRow).map (· + i * r.groupsPerRow)).flatMap fun k =>
      let e := r.groupElems k
      let o := r.groupIn s id tm k
      let sc := o.2.getD (r.scaleNow s id tm k)
      ((List.range e.2).zip o.1).filterMap fun y =>
        let v := m.decode (m.mask y.2)
        if isPlusZero (if m.scaled then v.mul (scaleVal sc) else v) then none else some ((e.1 + y.1) % r.cols, y.2))

/-- The units whose storage a unit of a convert in needs besides its own: those of its groups, or of the whole tile. -/
def Rec.unitPeers (r : Rec) (u : Nat) : List Nat :=
  if r.tile.layout = 1 then List.range r.units
  else (r.groupsAt (r.span u).off (r.span u).len).flatMap r.groupUnits

/-- A unit of a convert in has all that it needs: what it completes is written, and it settles. A group or a sparse-rows
tile is written once, when the first of its units settles, and not where one of them has been abandoned. -/
def finishConvert (s : State) (c : ChanId) (x : Chain) (n : Nat) (r : Rec) (tm : Team) (u : Nat) : State :=
  if r.tile.layout ≠ 1 then
    let ks := (r.groupsAt (r.span u).off (r.span u).len).filter fun k =>
      (r.groupUnits k).all fun v => !bit r.mask v && !bit r.gone v
    settleUnit (ks.foldl (r.writeGroup x.team tm) s) c x n r u false
  else if (List.range r.units).any fun v => bit r.mask v || bit r.gone v then settleUnit s c x n r u false
  else
    let bs := r.sparseIn s x.team tm
    if tm.scratch < r.tile.base * 64 + bs.length then
      let s1 := chanFault s c x.team r.off { code := 0x08, faddr := BitVec.ofNat 64 (r.tile.base * 64), acc := 2 } false 0
      (List.range r.units).foldl (fun s v => settleUnit s c x n r v true) s1
    else
      let s1 := s.spWrite x.team tm (r.tile.base * 64) bs
      settleUnit (r.groups.foldl (fun s1 k => r.putScale x.team tm s1 k (r.groupIn s x.team tm k).2) s1) c x n r u false

/-- The storage of a unit of a convert in has arrived. It settles once the units that share its elements or blocks have
arrived, too, or will not: its writes are then acknowledged (09 R191). -/
def landConvert (s : State) (c : ChanId) (x : Chain) (n : Nat) (r : Rec) (tm : Team) (u : Nat) (data : List Byte) : State :=
  let r1 := if (aget u r.bufs).isSome then r else { r with bufs := aset u data r.bufs, reqs := aset u [] r.reqs }
  let s1 := modRec s c n fun _ => r1
  let sp := r1.unitSp s x.team tm u
  if !(r1.unitPeers u).all r1.unitIn || heldRange s x.team sp.1 sp.2 false ||
      (r1.tile.block r1.fmt ≠ 0 && heldRange s x.team (r1.scaleAt 0) (r1.tile.sideLen r1.fmt) false) then s1
  else finishConvert s1 c x n r1 tm u

/-- The bytes of a unit that has arrived go to the scratchpad. -/
def landUnit (s : State) (r : Rec) (id : TeamId) (tm : Team) (u : Nat) (data : List Byte) : State :=
  let m := r.mop id tm
  let s1 := s.spWrite id tm (r.unitSp s id tm u).1 (if r.kind = 2 then r.convBytes u data else data)
  if r.kind = 2 then m.enliven s1 u else s1

/-- A unit's accesses are over, and none has failed: its part is done, and it settles where nothing holds it. -/
def settleDone (s : State) (c : ChanId) (x : Chain) (n : Nat) (r : Rec) (tm : Team) (u : Nat) (data : List Byte) : State :=
  if r.out then settleUnit s c x n r u false
  else if r.kind = 1 then landConvert s c x n r tm u data
  else settleUnit (landUnit s r x.team tm u data) c x n r u false

/-- Whether a unit's part is done but for its settling: its replies have come. -/
def settleNow (s : State) (c : ChanId) (x : Chain) (n : Nat) (r : Rec) (tm : Team) (u : Nat) : State :=
  match (aget u r.reqs).bind (repliesOf s) with
  | none => s
  | some as =>
    let sp := r.unitSp s x.team tm u
    let ids := agetD u [] r.reqs
    if !r.rel && r.barrierWaits s x.team then s
    else if bit r.gone u then settleUnit s c x n r u true
    else if !r.out && r.kind ≠ 1 && (heldRange s x.team sp.1 sp.2 false || (r.kind = 2 && r.tile.layout = 2 &&
        heldRange s x.team (r.tile.base * 64) 64 false)) then s
    else match as.findSome? (·.fault) with
      | some f => abandonUnit (dropAnswers s ids) c x n r u { f with felem := r.unitElem u }
      | none => settleDone (dropAnswers s ids) c x n r tm u (as.flatMap (·.data))

/-- COPY_UNIT_SETTLE (09 R191): the channel issues more units of record r in their order, and then unit u settles if its
accesses are over. -/
def execCopyUnitSettle (c : ChanId) (r : Nat) (u : Nat) (more : Nat) (s : State) : Out :=
  let s1 := issueMore c r more s
  match (s1.chan c).chain with
  | none => .next s1
  | some x =>
    match x.recs[r]?, aget x.team s1.teams with
    | some rc, some tm =>
      if u < rc.issued && !bit rc.mask u && !rc.waiting.contains u then .next (settleNow s1 c x r rc tm u) else .next s1
    | _, _ => .next s1

/-- Replays the waiting units of a record in unit order, up to one whose bytes a matrix instruction holds (21 R394). -/
def replayUnits (c : ChanId) (n : Nat) : List Nat → State → State
  | [], s => s
  | u :: us, s =>
    match (s.chan c).chain with
    | none => s
    | some x =>
      match x.recs[n]?, aget x.team s.teams with
      | some r, some tm => if r.readsHeld s x.team tm u then s else replayUnits c n us (performUnit s c x n r tm u false)
      | _, _ => s

/-- COPY_UNIT_REPLAY (09 R196): only the units that wait are replayed. -/
def execCopyUnitReplay (c : ChanId) (r : Nat) (s : State) : Out :=
  match (s.chan c).chain with
  | none => .next s
  | some x =>
    match x.recs[r]? with
    | some rc => .next (replayUnits c r (rc.waiting.mergeSort (· ≤ ·)) s)
    | none => .next s

/-! ## End actions (09 R193 to R195) -/

/-- Whether every unit of a record is settled. -/
def Rec.allSettled (r : Rec) : Bool := r.started && r.issued = r.units && r.mask = 2 ^ r.units - 1

/-- The STATUS with which a record ends. -/
def Rec.status (r : Rec) : Nat := if r.bad then 2 else if r.gone ≠ 0 then 1 else 0

/-- Word 0 as the channel rewrites it: its other bits are those of the record as accepted (DESIGN CHOICE,
notes/assumptions/131.md). -/
def Rec.word0 (r : Rec) : Nat :=
  let w := r.field 31 0
  w - (if bit w 8 then 256 else 0) - bits w 21 20 * 2 ^ 20 + r.status * 2 ^ 20

/-- The end actions of a record but for the ring entry. -/
def endRec (s : State) (c : ChanId) (id : TeamId) (tm : Team) (r : Rec) : State :=
  let s1 := if r.bad then (if r.barrierOk tm.scratch then landedCall s c id r r.len else s)
    else if r.rel then countLanded s c id r r.len else s
  let entry := tm.tiles.getD r.tileNo 0
  let s2 := if r.bad || r.lost || !r.tdst then s1
    else if r.fills then setTileState s1 (coreOf id) entry (if r.status = 0 then 2 else 0)
    else if r.trel then setTileState s1 (coreOf id) entry (if r.status = 0 then 0 else 2)
    else s1
  s2.spWrite id tm r.off (bytesOfNat 4 r.word0)

/-- A record of the chain is over. -/
def recOver (s : State) (c : ChanId) (x : Chain) : State := closeChain (setChain s c { x with recs := x.recs.drop 1 }) c

/-- Whether the end actions of a record wait: for a matrix instruction that holds what they write, or, as a release, for what
the kicking hand issued before the KICK (13 R282). -/
def Rec.endWaits (r : Rec) (s : State) (x : Chain) : Bool :=
  heldRange s x.team r.off 4 false || r.ringHeld s x.team || ((r.bad || r.rel) && r.barrierWaits s x.team) ||
    (r.rel && !r.bad && r.status = 0 && !settledBefore s ⟨x.team, x.hand⟩ x.seq)

/-- COPY_END_ACTIONS (09 R193): of the record that comes first in chain order. -/
def execCopyEndActions (c : ChanId) (s : State) : Out :=
  match (s.chan c).chain with
  | none => .next s
  | some x =>
    match x.recs, aget x.team s.teams with
    | r :: _, some tm =>
      if !r.allSettled || r.ring || r.endWaits s x then .next s
      else
        let s1 := endRec s c x.team tm r
        let s2 := if r.status = 0 then s1
          else s1.modChan c fun ch => { ch with incomp := aset x.team (min 1023 (agetD x.team 0 ch.incomp + 1)) ch.incomp }
        if r.cpl = 2 && ringOk s2 x.team tm r then .next (modRec s2 c 0 fun r => { r with ring := true })
        else .next (recOver s2 c x)
    | _, _ => .next s

/-- The number of ones of a mask of n bits. -/
def countOnes (m n : Nat) : Nat := (List.range n).countP fun i => bit m i

/-- The four words of a ring entry. -/
def ringEntry (c : ChanId) (r : Rec) : Nat :=
  r.off + r.word0 * 2 ^ 32 + (if r.bad then 0 else countOnes r.gone r.units) * 2 ^ 64 + (c.ch + 4 * c.quad.quad) * 2 ^ 96

/-- COMPLETION_RING_WRITE (09 R195): entry TAIL mod N, then TAIL; while the ring is full the channel waits. -/
def execCompletionRingWrite (c : ChanId) (s : State) : Out :=
  match (s.chan c).chain with
  | none => .next s
  | some x =>
    match x.recs, aget x.team s.teams with
    | r :: _, some tm =>
      if !r.ring then .next s
      else
        let g := ringOf s x.team tm r.cploff
        let a := g.base + 16 * (g.tail % g.n)
        if heldRange s x.team r.cploff 16 false then .next s
        else if s.spPoisoned x.team tm r.cploff 16 then
          .next (recOver (chanFault s c x.team r.off { code := 0x15, faddr := BitVec.ofNat 64 r.cploff, acc := 8 } false 0) c x)
        else if g.n = 0 || tm.scratch < a + 16 then
          .next (recOver (chanFault s c x.team r.off { code := 0x08, faddr := BitVec.ofNat 64 a, acc := 2 } false 0) c x)
        else if (g.tail + 2 ^ 32 - g.head) % 2 ^ 32 = g.n || heldRange s x.team a 16 false then .next s
        else
          let s1 := s.spWrite x.team tm a (bytesOfNat 16 (ringEntry c r))
          .next (recOver (s1.spWrite x.team tm (r.cploff + 8) (bytesOfNat 4 ((g.tail + 1) % 2 ^ 32))) c x)
    | _, _ => .next s

/-- Whether a unit waits on a page: some line that it reads or writes needs the dealer's answer for it. -/
def unitOnPage (s : State) (id : TeamId) (tm : Team) (r : Rec) (page u : Nat) : Bool :=
  ((r.unitRanges s id tm u).flatMap VRange.cut).any fun v =>
    match translate s tm.func v.va v.acc with
    | .dealer _ p => p = page
    | _ => false

/-- The units that wait on a page the dealer refuses are abandoned (09 R196). -/
def refuseUnits (s : State) (fn page : Nat) : State :=
  s.chans.foldl (fun s e => onJobs s e.1 fun s =>
    match (s.chan e.1).chain with
    | none => s
    | some x =>
      (List.range x.recs.length).foldl (fun s n =>
        match x.recs[n]?, aget x.team s.teams with
        | some r, some tm =>
          if tm.func ≠ fn then s
          else r.waiting.foldl (fun s u =>
            match (s.chan e.1).chain with
            | some x' => match x'.recs[n]? with
              | some r' => if unitOnPage s x.team tm r page u then settleUnit s e.1 x' n r' u true else s
              | none => s
            | none => s) s
        | _, _ => s) s) s

end Sys2Proof.Machine
end

