-- ==== Sys2Proof/Machine/Bags.lean ====
section
/-! DEFINITION. Bags (11 R231 to R250): the bag instructions, the arbiter's acceptance of puts, takes and queries, the
placement and the landing of records, iterations and clears, creation and removal; and the passes of a quantum boundary
(13 R290). -/

namespace Sys2Proof.Machine

/-! ## Handles and shares (11 R232, R233) -/

/-- The bag controller that a handle names. -/
def handleBag (h : Word) : BagId := ⟨bits h.toNat 24 22, bits h.toNat 21 14⟩

/-- The handle of a live bag. -/
def handleOf (b : BagId) (bg : Bag) : Word :=
  BitVec.ofNat 32 (bg.func * 2 ^ 25 + b.die * 2 ^ 22 + b.slot * 2 ^ 14 + bg.gen)

/-- The live bag that a handle names for a function; none: the handle is bad. -/
def liveBag (s : State) (fn : Nat) (h : Word) : Option (BagId × Bag) :=
  match aget (handleBag h) s.bags with
  | some b => if h ≠ 0 && b.func = fn && handleOf (handleBag h) b = h then some (handleBag h, b) else none
  | none => none

/-- Records of a row. -/
def Bag.perRow (b : Bag) : Nat := 1024 / b.rsize
/-- The location of a row of a share (14 R307). -/
def Bag.rowLoc (b : Bag) (share place : Nat) : Nat := (b.rowBase + place) * 2 ^ 21 + b.pch share * 1024
/-- The location of a row by its number. -/
def Bag.locOf (b : Bag) (num : Nat) : Nat :=
  match b.rows.find? fun r => r.num = num with
  | some r => b.rowLoc r.share r.place
  | none => 0

/-- The share count: records placed there and not claimed (11 R237). -/
def Bag.count (b : Bag) (share : Nat) : Nat := b.recs.countP fun r => r.share = share && !r.claimed
def Bag.counts (b : Bag) : List Nat := (List.range b.shares).map b.count

/-! ## Placement (11 R237) -/

/-- The slots of a row that hold a record. -/
def Bag.usedSlots (b : Bag) (num : Nat) : List Nat := (b.recs.filter fun r => r.row = num).map (·.slot)
def Bag.hasFree (b : Bag) (r : BagRow) : Bool := (b.usedSlots r.num).length < b.perRow
def Bag.hasKey (b : Bag) (key : Nat) (r : BagRow) : Bool := b.recs.any fun x => x.row = r.num && x.key = key

/-- home(key). -/
def Bag.home (b : Bag) (key : Nat) : Nat := key * 0x9E3779B1 % 2 ^ 32 / 2 ^ 16 % max b.shares 1

/-- The share that a put of a key goes to. -/
def Bag.shareFor (b : Bag) (key : Nat) : Nat :=
  let cs := b.counts
  let m := cs.foldl min (cs.headD 0)
  let lowest := (cs.findIdx? (· = m)).getD 0
  match b.policy with
  | 0 => b.home key
  | 2 => if m + b.bound < cs.getD (b.home key) 0 then lowest else b.home key
  | _ =>
    match (List.range b.shares).find? fun i => cs.getD i 0 + 1 ≤ m + b.bound &&
        b.rows.any fun r => r.share = i && b.hasFree r && b.hasKey key r with
    | some i => i
    | none => lowest

/-- The lowest number that is not in a list, below a bound. -/
def lowestFree (used : List Nat) (n : Nat) : Nat := ((List.range n).find? fun i => !used.contains i).getD 0

/-- The row of a share that a record of a key goes to; a new one from the reservation where no row has a free slot. -/
def Bag.rowFor (b : Bag) (share key : Nat) : Bag × BagRow :=
  let rs := b.rows.filter fun r => r.share = share
  match rs.find? fun r => b.hasFree r && b.hasKey key r with
  | some r => (b, r)
  | none =>
    match rs.find? b.hasFree with
    | some r => (b, r)
    | none =>
      let r : BagRow := ⟨b.nextRow, share, lowestFree (rs.map (·.place)) (rs.length + 1)⟩
      ({ b with rows := b.rows ++ [r], nextRow := b.nextRow + 1 }, r)

/-- An accepted put: the next sequence number, a share, a row and a slot. -/
def Bag.place (b : Bag) (data : List Byte) : Bag :=
  let key := natOfBytes (data.take 4)
  let share := b.shareFor key
  let x := b.rowFor share key
  let slot := lowestFree (x.1.usedSlots x.2.num) b.perRow
  let c := key % 1024
  { x.1 with
    seq := b.seq + 1
    resident := b.resident + 1
    recs := b.recs ++ [⟨b.seq + 1, key, share, x.2.num, slot, data, false, false, 0, false⟩]
    puts := aset c (agetD c 0 b.puts + 1) b.puts
    res := aset c (agetD c 0 b.res + 1) b.res }

/-- Whether the arbiter refuses a put as full (11 R236). -/
def Bag.full (b : Bag) : Bool := b.resident = b.cap || 2 ^ 48 - 1 ≤ b.seq

/-- A record stops being resident and leaves its slot; a row whose every slot is free returns to the reservation. -/
def Bag.leave (b : Bag) (seq : Nat) : Bag :=
  match b.recs.find? fun r => r.seq = seq with
  | none => b
  | some r =>
    let recs := b.recs.filter fun x => x.seq ≠ seq
    let c := r.key % 1024
    { b with
      recs := recs
      resident := b.resident - 1
      res := aset c (agetD c 0 b.res - 1) b.res
      rows := if recs.any fun x => x.row = r.row then b.rows else b.rows.filter fun x => x.num ≠ r.row }

/-! ## Claims (11 R240) -/

/-- The unclaimed records of a share, oldest row first and lowest slot first. -/
def Bag.unclaimed (b : Bag) (share : Nat) : List BagRec :=
  (b.rows.filter fun r => r.share = share).flatMap fun r =>
    (List.range b.perRow).filterMap fun i => b.recs.find? fun x => x.row = r.num && x.slot = i && !x.claimed

/-- Claims up to n records, visiting shares from s on. -/
def claimLoop (n : Nat) : Nat → Nat → Nat → Bag → List Claim → Bag × List Claim
  | 0, _, _, b, acc => (b, acc)
  | fuel + 1, sh, idle, b, acc =>
    if n ≤ acc.length || b.shares ≤ idle then (b, acc)
    else
      let cs := b.counts
      let top := cs.foldl max 0
      let lim : Int := if b.policy = 1 then min ((n - acc.length : Nat) : Int) ((cs.getD sh 0 : Int) - ((top : Int) - b.bound))
        else ((n - acc.length : Nat) : Int)
      let got := (b.unclaimed sh).take lim.toNat
      if got = [] then claimLoop n fuel ((sh + 1) % b.shares) (idle + 1) b acc
      else
        let b1 := { b with
          recs := b.recs.map fun r =>
            match got.findIdx? fun g => g.seq = r.seq with
            | some i => { r with claimed := true, claimNo := b.claims + i + 1 }
            | none => r
          claims := b.claims + got.length
          ptr := (sh + 1) % b.shares }
        claimLoop n fuel ((sh + 1) % b.shares) 0 b1 (acc ++ got.map fun g => ⟨g.share, g.row, g.slot, g.seq⟩)

/-- claim(n). -/
def Bag.claim (b : Bag) (n : Nat) : Bag × List Claim :=
  if b.shares = 0 then (b, []) else claimLoop n ((n + 1) * (b.shares + 1)) (b.ptr % b.shares) 0 b []

/-! ## Sending requests -/

/-- Sends a request of a thread to the arbiter (11 R235). -/
def sendBag (s : State) (k : ThreadKey) (fn : Nat) (h : Word) (ask : BagAsk) : State × Nat :=
  let id := s.nextId
  let q := nextSeqNo s (handOf k)
  let r : BagReq := ⟨id, h, fn, k, pcOf s k, q, ask, none⟩
  let s1 := { s with nextId := id + 1, bagReqs := s.bagReqs ++ [r] }
  (s1.modHand (handOf k) fun hd => { hd with seq := hd.seq + 1, pend := hd.pend ++ [q] }, id)

/-- The arbiter has accepted a request: it counts no more as pending (13 R279). -/
def bagAccepted (s : State) (r : BagReq) : State :=
  s.modHand (handOf r.thread) fun hd => { hd with pend := hd.pend.filter (· ≠ r.seq) }

/-- A request is over. -/
def dropReq (s : State) (r : BagReq) : State := { s with bagReqs := s.bagReqs.filter fun x => x.id ≠ r.id }

/-- A thread waits for the reply to its request; its first issue sends it. -/
def askAndWait (s : State) (k : ThreadKey) (send : State → State × Nat) (done : Answer → State → LaneOut) : LaneOut :=
  match aget k s.threads with
  | none => .wait s
  | some t =>
    match t.ask with
    | none =>
      let x := send s
      .wait (x.1.modThread k fun t => { t with ask := some x.2 })
    | some id =>
      match aget id s.answers with
      | none => .wait s
      | some a =>
        match a.fault with
        | some f => .fault f
        | none => done a ((dropAnswers s [id]).modThread k fun t => { t with ask := none })

/-- The fault of a bad handle (11 R244). -/
def badHandle (h : Word) : FaultInfo := { code := 0x19, felem := h.toNat }

/-- The offset of a bag instruction: vB + IMM16 (11 R244). -/
def bagAddr (b : Dword) (off : BitVec 16) : Nat := (b.toNat + off.toNat) % 2 ^ 32

/-- The handle in a register. -/
def handleReg (v : Dword) : Word := v.setWidth 32

/-- The common start of the counting and taking instructions: a violation in deterministic mode, then the handle. -/
def withBag (s : State) (tm : Team) (v : Dword) (f : Bag → LaneOut) : LaneOut :=
  if tm.detMode then .fault { code := 0x0D }
  else match liveBag s tm.func (handleReg v) with
    | none => .fault (badHandle (handleReg v))
    | some b => f b.2

/-! ## The instructions (11 R244 to R248) -/

/-- BAGPUT (11 R245): in deterministic mode one entry, and vD := 0 at issue (R249). -/
def execBagput (g : Guard) (d : BitVec 8) (a : Src) (b : Src) (off : BitVec 16) (s : State) : Out :=
  .next (runLanes s ⟨g, srcOp a false, srcOp b false, noOp, [(d, false)]⟩ fun k v s => inTeam s k fun tm =>
    let x := bagAddr v.b off
    if x % 32 ≠ 0 then .fault { code := 0x09, faddr := BitVec.ofNat 64 x, acc := 1 }
    else if tm.scratch ≤ x then .fault { code := 0x08, faddr := BitVec.ofNat 64 x, acc := 1 }
    else if tm.detMode then
      match takeEntries s k tm.w [⟨(handleReg v.a).setWidth 64, k.lane, 5, 0, 0, x, pcOf s k⟩] with
      | some s1 => putReg d false 0 k s1
      | none => .fault { code := 0x0E, faddr := BitVec.ofNat 64 x, acc := 1 }
    else if acqPending s k true then .wait s
    else .done (markEmpty (sendBag s k tm.func (handleReg v.a) (.put x d none)).1 k d false))

/-- BAGTAKE (11 R246): the block is read as a load, and the request goes to the arbiter. -/
def execBagtake (g : Guard) (d : BitVec 8) (a : Src) (b : Src) (ch : BitVec 2) (off : BitVec 16) (s : State) : Out :=
  .next (runLanes s ⟨g, srcOp a false, srcOp b false, noOp, [(d, false)]⟩ fun k v s => inTeam s k fun tm =>
    withBag s tm v.a fun _ =>
      let x := bagAddr v.b off
      if x % 16 ≠ 0 then .fault { code := 0x09, faddr := BitVec.ofNat 64 x, acc := 1 }
      else if tm.scratch < x + 16 then .fault { code := 0x08, faddr := BitVec.ofNat 64 x, acc := 1 }
      else if acqPending s k true then .wait s
      else match spLoad s k tm x 16 16 with
        | .wait => .wait s
        | .fault f => .fault f
        | .ok w =>
          .done (markEmpty (sendBag s k tm.func (handleReg v.a) (.take (ownChan s k ch.toNat) (BitVec.ofNat 128 w) x d)).1
            k d false))

/-- A counting instruction: a long-latency producer. -/
def countBag (s : State) (g : Guard) (d : BitVec 8) (pair : Bool) (a : Src) (b : Opnd) (ask : Nat → BagAsk) : State :=
  runLanes s ⟨g, srcOp a false, b, noOp, [(d, pair)]⟩ fun k v s => inTeam s k fun tm => withBag s tm v.a fun _ =>
    if acqPending s k true then .wait s
    else .done (markEmpty (sendBag s k tm.func (handleReg v.a) (ask (v.b.toNat % 1024))).1 k d pair)

/-- BAGCNT (11 R247). -/
def execBagcnt (g : Guard) (d : BitVec 8) (a : Src) (s : State) : Out :=
  .next (countBag s g d false a noOp fun _ => .count d)

/-- BAGHIST.RES (11 R247). -/
def execBaghistRes (g : Guard) (d : BitVec 8) (a : Src) (b : Src) (s : State) : Out :=
  .next (countBag s g d false a (srcOp b false) fun n => .hist false n d)

/-- BAGHIST.PUTS (11 R247). -/
def execBaghistPuts (g : Guard) (d : BitVec 8) (a : Src) (b : Src) (s : State) : Out :=
  .next (countBag s g d true a (srcOp b false) fun n => .hist true n d)

/-- A request whose thread waits for the reply. -/
def replyBag (s : State) (k : ThreadKey) (tm : Team) (h : Word) (ask : BagAsk) (done : Answer → State → LaneOut) : LaneOut :=
  if acqPending s k true then .wait s else askAndWait s k (fun s => sendBag s k tm.func h ask) done

/-- Whether a thread has a request on its way. -/
def asked (s : State) (k : ThreadKey) : Bool :=
  match aget k s.threads with
  | some t => t.ask.isSome
  | none => false

/-- An instruction whose thread waits for the arbiter: its checks are made when the request is sent. -/
def waitBag (s : State) (k : ThreadKey) (tm : Team) (v : Dword) (ask : BagAsk) (done : Answer → State → LaneOut) : LaneOut :=
  if asked s k then replyBag s k tm (handleReg v) ask done
  else withBag s tm v fun _ => replyBag s k tm (handleReg v) ask done

/-- BAGCUT (11 R241). -/
def execBagcut (g : Guard) (d : BitVec 8) (a : Src) (s : State) : Out :=
  .next (runLanes s ⟨g, srcOp a false, noOp, noOp, [(d, true)]⟩ fun k v s => inTeam s k fun tm =>
    waitBag s k tm v.a .cut fun r s => putReg d true (BitVec.ofNat 64 r.val) k s)

/-- BAGITER (11 R248). -/
def execBagiter (g : Guard) (a : Src) (b : Src) (c : BitVec 8) (s : State) : Out :=
  .next (runLanes s ⟨g, srcOp a false, srcOp b true, csrcOp ⟨c, false⟩ false, []⟩ fun k v s => inTeam s k fun tm =>
    let x := v.c.toNat % 2 ^ 32
    let ask := BagAsk.iter (v.b.toNat % 2 ^ 48) x
    if asked s k then replyBag s k tm (handleReg v.a) ask fun _ s => .done s
    else withBag s tm v.a fun _ =>
      if bits v.b.toNat 63 48 ≠ 0 then .fault { code := 0x19, felem := v.b.toNat % 2 ^ 32 }
      else if x % 32 ≠ 0 then .fault { code := 0x09, faddr := BitVec.ofNat 64 x, acc := 1 }
      else if tm.scratch < x + 96 then .fault { code := 0x08, faddr := BitVec.ofNat 64 x, acc := 1 }
      else replyBag s k tm (handleReg v.a) ask fun _ s => .done s)

/-- BAGWAIT (11 R248). -/
def execBagwait (g : Guard) (d : BitVec 8) (a : Src) (s : State) : Out :=
  .next (runLanes s ⟨g, srcOp a false, noOp, noOp, [(d, false)]⟩ fun k v s => inTeam s k fun tm =>
    waitBag s k tm v.a .wait fun r s => putReg d false (BitVec.ofNat 64 r.val) k s)

/-- BAGCLR (11 R243). -/
def execBagclr (g : Guard) (a : Src) (s : State) : Out :=
  .next (runLanes s ⟨g, srcOp a false, noOp, noOp, []⟩ fun k v s => inTeam s k fun tm =>
    waitBag s k tm v.a .clear fun _ s => .done s)

/-- BAGINFO (11 R247): allowed in deterministic mode (R249). -/
def execBaginfo (g : Guard) (d : BitVec 8) (a : Src) (sel : BitVec 3) (s : State) : Out :=
  .next (runLanes s ⟨g, srcOp a false, noOp, noOp, [(d, false)]⟩ fun k v s => inTeam s k fun tm =>
    let h := handleReg v.a
    if !asked s k && (liveBag s tm.func h).isNone then .fault (badHandle h)
    else replyBag s k tm h (.info sel.toNat) fun r s => putReg d false (BitVec.ofNat 64 r.val) k s)

/-! ## Counting the rows of a run (12 R270) -/

def NbRun.bben (r : NbRun) : Bool := r.word.getLsbD 11
def NbRun.sten (r : NbRun) : Bool := r.word.getLsbD 12
def NbRun.bb (r : NbRun) : Nat := bits r.word.toNat 84 64
def NbRun.rows (r : NbRun) : Nat := bits r.word.toNat 63 32

/-- A fault record of a run. -/
def runFault (s : State) (r : NbRun) (f : FaultInfo) (wait : Bool) (page : Nat) : State :=
  sendFault s { r.dom with
    code := f.code, felem := f.felem, faddr := f.faddr, acc := f.acc, wait := wait, page := page
    waiters := if wait then 1 else 0 }

/-- A run calls landed(n). -/
def runLanded (s : State) (r : NbRun) (n : Nat) : State := callLanded s r.team r.bb n fun f => runFault s r f false 0

/-- Whether the calls of a run are held: while its team is suspended (12 R273), or a matrix instruction holds the barrier
(10 R214). -/
def NbRun.callsHeld (r : NbRun) (s : State) : Bool := r.away || barrierHeld s r.team r.bb

/-- A run makes its landed(1) call for a row: the last one waits for the status block (22 R397), and calls may be held. -/
def rowLanded (s : State) (n : Nat) : State :=
  match aget n s.runs with
  | none => s
  | some r =>
    let r1 := { r with landedN := r.landedN + 1 }
    if !r.bben then s.modRun n fun _ => r1
    else if r.sten && r1.landedN = r.rows then s.modRun n fun _ => { r1 with last := true }
    else if r.callsHeld s then s.modRun n fun _ => { r1 with heldN := r.heldN + 1 }
    else runLanded (s.modRun n fun _ => r1) r1 1

def modUnit (s : State) (n p : Nat) (f : UnitRun → UnitRun) : State := s.modRun n fun r => { r with units := amod p f r.units }

/-- The calls that a unit owes for its rows are made once its puts are answered. -/
def payOwed (s : State) (n p : Nat) : State :=
  match (aget n s.runs).bind (·.unit p) with
  | some u => if u.emits = 0 then iter (fun s => rowLanded s n) u.owed (modUnit s n p fun u => { u with owed := 0 }) else s
  | none => s

/-- An NEMIT put is answered (12 R265). -/
def emitAnswered (s : State) (n p : Nat) (ok : Bool) : State :=
  let s1 := s.modRun n fun r => if ok then { r with emitOk := r.emitOk + 1 } else { r with emitRef := r.emitRef + 1 }
  payOwed (modUnit s1 n p fun u => { u with emits := u.emits - 1 }) n p

/-! ## BAG_PUT_ARBITRATE (11 R236, R245, R249) -/

/-- Whether the release stores and FENCEs that a hand issued before a put are performed: its read then sees the stores
before them (11 R245). -/
def putReleased (s : State) (r : BagReq) : Bool :=
  match r.ask, aget (handOf r.thread) s.hands with
  | .put _ _ none, some hd =>
    (hd.storeQ.all fun e => r.seq ≤ e.seq || e.rel.isNone) &&
      hd.fences.all fun f => r.seq ≤ f.1 || settledBefore s (handOf r.thread) f.1
  | _, _ => true

/-- Whether the arbiter may take a request: it is the first of its hand, or of its unit, to the bag (11 R235), and no clear
is held before it (R243). -/
def mayTake (s : State) (i : Nat) (r : BagReq) : Bool :=
  r.after.isNone && putReleased s r &&
    ((s.bagReqs.take i).all fun x => x.after.isSome || x.handle ≠ r.handle ||
      (match x.ask, r.ask with
        | .emit n p _, .emit n' p' _ => (n, p) ≠ (n', p')
        | .emit _ _ _, _ => true
        | _, .emit _ _ _ => true
        | _, _ => handOf x.thread ≠ handOf r.thread)) &&
    (match liveBag s r.func r.handle with
      | some b => b.2.clear.isNone
      | none => true)

/-- The result of a put of a thread in normal mode. -/
def putResult (s : State) (r : BagReq) (d : BitVec 8) (w : FillWhat) : State :=
  dropReq (sendFill (bagAccepted s r) r.thread d false w r.iaddr none) r

/-- A fault of a buffered put: a record, and no thread stops. -/
def putNote (s : State) (r : BagReq) (f : FaultInfo) : State :=
  dropReq (bagAccepted (sendFault s { threadRec s r.thread f false 0 with iaddr := 0, src := 5 }) r) r

/-- A status or a count that the spec does not state (DESIGN CHOICE, notes/assumptions/107.md). -/
def openReply (s : State) : FillWhat := .value (BitVec.ofNat 64 (Config.freeValue 16 s.tick % 2 ^ 32))

/-- A put of a thread. One that meets poison is refused with a record of the arbiter's, and stops no thread (13 R277). -/
def arbitratePut (s : State) (r : BagReq) (x : Nat) (d : BitVec 8) (kept : Option (List Byte)) : State :=
  match liveBag s r.func r.handle, aget r.thread.team s.teams with
  | none, _ =>
    match kept with
    | some _ => putNote s r (badHandle r.handle)
    | none => putResult s r d (.value 3)
  | some (b, bg), some tm =>
    let bounds : FaultInfo := { code := 0x08, faddr := BitVec.ofNat 64 x, acc := 1 }
    let poison : FaultInfo := { code := 0x15, faddr := BitVec.ofNat 64 x, acc := 1 }
    let cap : FaultInfo := { code := 0x18, felem := bg.resident }
    match kept with
    | some bs =>
      if bs.length < bg.rsize then putNote s r bounds
      else if s.spPoisoned r.thread.team tm x bg.rsize then putNote s r poison
      else if bg.full then putNote s r cap
      else dropReq (bagAccepted (s.modBag b fun y => y.place (bs.take bg.rsize)) r) r
    | none =>
      if tm.scratch < x + bg.rsize then putResult s r d (.fault bounds)
      else if heldRange s r.thread.team x bg.rsize true then s
      else if s.spPoisoned r.thread.team tm x bg.rsize then
        putResult { sendFault s { threadRec s r.thread poison false 0 with iaddr := 0, src := 5 } with tick := s.tick + 1 }
          r d (openReply s)
      else if bg.full then putResult s r d (if bg.fmode = 1 then .value 2 else .fault cap)
      else putResult (s.modBag b fun y => y.place (s.spBytes r.thread.team tm x bg.rsize)) r d (.value 0)
  | some _, none => if r.thread.team.die = 8 then s else dropReq s r

/-- A put of a row program (12 R265): refused ones are counted, and reported in trap mode. -/
def arbitrateEmit (s : State) (r : BagReq) (n p : Nat) (bytes : List Byte) : State :=
  match liveBag s r.func r.handle with
  | none => emitAnswered (dropReq s r) n p false
  | some (b, bg) =>
    if bg.full then
      let s1 := if bg.fmode = 1 then s
        else match aget n s.runs with
          | some run => sendFault s { run.dom with code := 0x18, felem := bg.resident, src := 5 }
          | none => s
      emitAnswered (dropReq s1 r) n p false
    else emitAnswered (dropReq (s.modBag b fun y => y.place bytes) r) n p true

/-- BAG_PUT_ARBITRATE: the arbiter reaches the n-th request, a put. -/
def execBagPutArbitrate (n : Nat) (s : State) : Out :=
  match s.bagReqs[n]? with
  | none => .next s
  | some r =>
    if !mayTake s n r then .next s
    else match r.ask with
      | .put x d kept => .next (openChecks (arbitratePut s r x d kept) r.thread.team)
      | .emit run p bytes => .next (arbitrateEmit s r run p bytes)
      | _ => .next s

/-! ## BAG_RECORD_WRITE (11 R236) -/

/-- The device physical address of a bag's location: under the key of its function's carve-out (14 R307). -/
def Bag.dpa (b : Bag) (s : State) (loc : Nat) : Nat := bits ((s.func b.func).segs.getD 0 0).toNat 61 56 * 2 ^ 42 + loc

/-- BAG_RECORD_WRITE: an accepted record is written to its slot, when the slot's controller takes the request. -/
def execBagRecordWrite (b : BagId) (seq : Nat) (s : State) : Out :=
  match aget b s.bags with
  | none => .next s
  | some bg =>
    match bg.recs.find? fun r => r.seq = seq with
    | none => .next s
    | some r =>
      let d := bg.dpa s (bg.locOf r.row + r.slot * bg.rsize)
      if r.written then .next s
      else if !mayServe s (pchOf d) (engineLane bg.func true) then .next (noteBusy s (pchOf d) (engineLane bg.func true))
      else
        let s1 := countServed (placeWrite s (.dram d (some bg.func)) r.data) (pchOf d) (engineLane bg.func true)
        .next (s1.modBag b fun y => { y with recs := y.recs.map fun x =>
          if x.seq = seq then { x with written := true, data := [] } else x })

/-! ## BAG_TAKE_CLAIM (11 R240, R246) -/

/-- The fault that a take block meets at the arbiter (11 R246). -/
def takeFaultOf (tm : Team) (w rsize off : Nat) : Option FaultInfo :=
  let n := bits w 12 0
  let dest := bits w 84 64
  let bb := bits w 116 96
  let at_ := fun (code x : Nat) => some ({ code := code, faddr := BitVec.ofNat 64 x, spoff := off } : FaultInfo)
  if bits w 127 117 ≠ 0 || bits w 95 85 ≠ 0 || bits w 63 13 ≠ 0 || 1048576 < n * rsize then at_ 0x1B off
  else if dest % 32 ≠ 0 then at_ 0x09 dest
  else if bb % 16 ≠ 0 then at_ 0x09 bb
  else if tm.scratch < dest + n * rsize then at_ 0x08 dest
  else if tm.scratch < bb + 16 then at_ 0x08 bb
  else none

/-- A take occupies a place of its channel, with the records that it has claimed. -/
def queueTake (s : State) (c : ChanId) (r : BagReq) (b : BagId) (w off rsize : Nat) (cs : List Claim) : State :=
  let job : TakeJob := ⟨r.id, r.thread.team, r.thread.hand, r.thread.lane, r.iaddr, b, off, bits w 84 64, bits w 116 96, rsize,
    cs, 0, none⟩
  s.modChan c fun q => { q with queue := q.queue ++ [.take job] }

/-- The arbiter reaches a take: its block is checked, and it waits while its channel holds four heads. Of a bag that has
been removed on its way, the spec states no count (DESIGN CHOICE, notes/assumptions/107.md). -/
def claimTake (s : State) (r : BagReq) (c : ChanId) (block : BitVec 128) (off : Nat) (d : BitVec 8) : State :=
  let w := block.toNat
  let n := bits w 12 0
  match liveBag s r.func r.handle, aget r.thread.team s.teams with
  | none, _ => putResult { s with tick := s.tick + 1 } r d (openReply s)
  | some _, none => if r.thread.team.die = 8 then s else dropReq s r
  | some (b, bg), some tm =>
    match takeFaultOf tm w bg.rsize off with
    | some f => putResult s r d (.fault f)
    | none =>
      if n = 0 then putResult s r d (.value 0)
      else if 4 ≤ (s.chan c).heads.length || barrierHeld s r.thread.team (bits w 116 96) then s
      else
        let x := bg.claim n
        let s2 := queueTake (s.modBag b fun _ => x.1) c r b w off bg.rsize x.2
        let s3 := putResult s2 r d (.value (BitVec.ofNat 64 x.2.length))
        callLanded s3 r.thread.team (bits w 116 96) ((n - x.2.length) * bg.rsize) fun f =>
          chanFault s3 c r.thread.team off f false 0

/-- BAG_TAKE_CLAIM: the arbiter reaches the n-th request, a take. -/
def execBagTakeClaim (n : Nat) (s : State) : Out :=
  match s.bagReqs[n]? with
  | none => .next s
  | some r =>
    if !mayTake s n r then .next s
    else match r.ask with
      | .take c block off d => .next (claimTake s r c block off d)
      | _ => .next s

/-! ## BAG_TAKE_LAND (11 R241, R245, R246) -/

/-- A take that reads a record of a unit's current row clears the slot's bit in M (12 R271). -/
def clearSlot (s : State) (b : BagId) (row slot : Nat) : State :=
  { s with pchs := s.pchs.map fun e =>
      match e.2.runq with
      | [] => e
      | n :: _ =>
        match aget n s.runs with
        | some r =>
          if r.bag = some b && e.2.active && ((r.unit e.1).bind (·.bagRow)) = some row then
            (e.1, { e.2 with m := if bit e.2.m slot then e.2.m - 2 ^ slot else e.2.m })
          else e
        | none => e }

/-- A take that its channel runs ends once every record has landed. -/
def closeTake (s : State) (c : ChanId) : State :=
  match (s.chan c).run with
  | some (.take t) => if t.claims.length ≤ t.landed then s.modChan c fun ch => { ch with run := none } else s
  | _ => s

/-- The next claimed record of a take lands. -/
def landTake (s : State) (c : ChanId) (t : TakeJob) (x : Claim) : State :=
  match aget t.bag s.bags, aget t.team s.teams with
  | some bg, some tm =>
    match bg.recs.find? fun r => r.seq = x.seq with
    | none => s
    | some r =>
      let p := bg.pch x.share
      let dest := t.dest + t.landed * t.rsize
      let loc := bg.locOf x.row + x.slot * bg.rsize
      if !r.written || heldRange s t.team dest t.rsize false || barrierHeld s t.team t.bb ||
          (match t.limit with
            | some l => l ≤ t.landed
            | none => false) then s
      else if !mayServe s p (false, tm.func, tm.node) then noteBusy s p (false, tm.func, tm.node)
      else
        let s1 := if dramPoisoned s loc bg.rsize then
            chanFault (notePoisonAt s bg.func loc bg.rsize) c t.team t.off { code := 0x15, acc := 1, felem := t.landed } false 0
          else s.spWrite t.team tm dest (dramRead s (bg.dpa s loc) bg.rsize)
        let s2 := clearSlot (countServed (s1.modBag t.bag fun y => y.leave x.seq) p (false, tm.func, tm.node)) t.bag x.row x.slot
        let s3 := s2.modChan c fun ch => { ch with run := some (.take { t with landed := t.landed + 1 }) }
        callLanded s3 t.team t.bb t.rsize fun f => chanFault s3 c t.team t.off f false 0
  | _, _ => s

/-- BAG_TAKE_LAND (11 R246): the take that a channel runs moves its next record; with none left it ends. -/
def execBagTakeLand (c : ChanId) (s : State) : Out :=
  match (s.chan c).run with
  | some (.take t) =>
    match t.claims[t.landed]? with
    | some x => .next (closeTake (landTake s c t x) c)
    | none => .next (closeTake s c)
  | _ => .next s

/-! ## Row-program descriptors (12 R257, R258, R271) -/

/-- What makes a descriptor malformed; iter: for BAGITER. -/
def descBad (w : BitVec 768) (scratch : Nat) (iter : Bool) : Bool :=
  let f := fun (hi lo : Nat) => bits w.toNat hi lo
  let st := f 116 96
  let bb := f 84 64
  let base := fun (i : Nat) => f (319 + 64 * i) (256 + 64 * i)
  f 255 160 ≠ 0 || f 127 117 ≠ 0 || f 95 85 ≠ 0 || f 31 13 ≠ 0 || f 8 0 = 0 || 256 < f 8 0 || st % 16 ≠ 0 || bb % 16 ≠ 0 ||
    (w.getLsbD 12 && scratch < st + 16) || (w.getLsbD 11 && scratch < bb + 16) ||
    ((List.range 4).any fun i => base i ≠ 0 && (!canonical (BitVec.ofNat 64 (base i)) || base i % 1024 ≠ 0)) ||
    (if iter then f 63 32 ≠ 0 || w.getLsbD 12 || w.getLsbD 11 || (List.range 4).any fun i => base i ≠ 0
      else f 63 32 = 0 || 2097152 < f 63 32 || base 0 = 0)

/-- The descriptor and its row operations, as an engine reads them; or the fault (12 R269). -/
def readDesc (s : State) (id : TeamId) (tm : Team) (x : Nat) (iter : Bool) : Except FaultInfo (BitVec 768 × List Word) :=
  let w := BitVec.ofNat 768 (s.spNat id tm x 96)
  let n := bits w.toNat 8 0
  if tm.scratch < x + 96 + 4 * n then .error { code := 0x08, faddr := BitVec.ofNat 64 x, acc := 1 }
  else if s.spPoisoned id tm x (96 + 4 * n) then .error { code := 0x15, faddr := BitVec.ofNat 64 x, acc := 1 }
  else if descBad w tm.scratch iter then .error { code := 0x1B, faddr := BitVec.ofNat 64 x, spoff := x }
  else .ok (w, (List.range n).map fun i => BitVec.ofNat 32 (s.spNat id tm (x + 96 + 4 * i) 4))

/-- Whether a matrix instruction holds a descriptor or its row operations as its destination: reading them waits (10 R214). -/
def descHeld (s : State) (id : TeamId) (tm : Team) (x : Nat) : Bool :=
  heldRange s id x (96 + 4 * bits (s.spNat id tm x 96) 8 0) true

/-- A run whose descriptor lies at off, before any row has started. Its fault records name no thread. -/
def newRun (s : State) (k : ThreadKey) (fn : Nat) (iaddr : Dword) (off : Nat) (w : BitVec 768) (ops : List Word) : NbRun where
  team := k.team
  thread := k
  func := fn
  dom := { threadRec s k { code := 0, spoff := off } false 0 with src := 4, iaddr := iaddr, hand := 127, lane := 127 }
  iaddr := iaddr
  word := w
  ops := ops
  bag := none
  cut := 0
  claims := 0
  seq := 0
  rsize := match bits w.toNat 10 9 with
    | 0 => 0
    | 1 => 32
    | 2 => 64
    | _ => 128
  waiting := []
  late := []
  asked := []
  units := []
  done := 0
  skip := 0
  emitOk := 0
  emitRef := 0
  stops := []
  visited := 0
  landedN := 0
  last := false
  status := false
  away := false
  heldN := 0
  heldSt := false

/-- A unit of a run before its first row. -/
def UnitRun.fresh : UnitRun := ⟨[], none, none, 0, false, false, false, 0⟩

/-- Whether every unit has a queue place left (12 R252). -/
def placesFree (s : State) (ps : List Nat) : Bool := ps.all fun p => (s.pch p).runq.length < 8

/-- A run takes a queue place in units. -/
def takePlaces (s : State) (n : Nat) (ps : List Nat) : State :=
  ps.foldl (fun s p => s.modPch p fun u => { u with runq := u.runq ++ [n] }) s

/-! ## BAG_QUERY_ACCEPT (11 R241 to R248) -/

/-- The reply to a request whose thread waits. -/
def replyTo (s : State) (r : BagReq) (a : Answer) : State :=
  dropReq { bagAccepted s r with answers := s.answers ++ [(r.id, a)] } r

def valueReply (v : Nat) : Answer := ⟨none, v, []⟩
def faultReply (f : FaultInfo) : Answer := ⟨some f, 0, []⟩

/-- BAGINFO (11 R247). -/
def Bag.info (bg : Bag) (b : BagId) (sel : Nat) : Nat :=
  match sel with
  | 0 => bg.rsize
  | 1 => bg.cap
  | 2 => bg.spread
  | 3 => bg.policy
  | 4 => bg.bound
  | 5 => bg.fmode
  | 6 => bg.shares
  | _ => b.die

/-- What BAGWAIT writes (11 R248). -/
def Bag.waitWord (bg : Bag) : Nat :=
  match bg.last with
  | some (stopped, n) => (if stopped then 2 ^ 31 else 0) + min n (2 ^ 31 - 1)
  | none => 0

/-- The oldest iteration that waits starts (11 R242): it has seen no record. -/
def Bag.startNext (y : Bag) : Bag :=
  match y.iterQ with
  | q :: rest => { y with iter := some (q.no, q.cut, q.run), iterQ := rest, recs := y.recs.map fun r => { r with seen := false } }
  | [] => y

/-- A BAGITER is accepted: its descriptor is read, and its run takes a place in the unit of every share. Where no iteration
runs or waits it starts at once. -/
def acceptIter (s : State) (r : BagReq) (b : BagId) (bg : Bag) (cut off : Nat) : State :=
  match aget r.thread.team s.teams with
  | none => if r.thread.team.die = 8 then s else dropReq s r
  | some tm =>
    if descHeld s r.thread.team tm off then s
    else match readDesc s r.thread.team tm off true with
    | .error f => replyTo s r (faultReply f)
    | .ok (w, ops) =>
      let ps := (List.range bg.shares).map bg.pch
      if !placesFree s ps then s
      else
        let n := s.nextId
        let run : NbRun := { newRun s r.thread r.func r.iaddr off w ops with
          bag := some b, cut := min cut bg.seq, claims := agetD (min cut bg.seq) bg.claims bg.cuts, rsize := bg.rsize, units := ps.map fun p => (p, UnitRun.fresh) }
        let s1 := takePlaces { s with nextId := n + 1, runs := s.runs ++ [(n, run)] } n ps
        let s2 := s1.modBag b fun y => { y with iters := y.iters + 1, iterQ := y.iterQ ++ [⟨y.iters + 1, run.cut, n⟩] }
        let s3 := if bg.iter.isNone && bg.iterQ = [] then s2.modBag b Bag.startNext else s2
        replyTo s3 r (valueReply 0)

/-- The arbiter reaches a request that counts, inspects, waits or starts an iteration. Of a bag that has been removed on the
request's way, a thread that waits raises BAG_HANDLE (11 R244); the value of a producer is one that the spec does not state
(DESIGN CHOICE, notes/assumptions/107.md). -/
def acceptQuery (s : State) (r : BagReq) : State :=
  match liveBag s r.func r.handle with
  | none =>
    match r.ask with
    | .count d => putResult { s with tick := s.tick + 1 } r d (openReply s)
    | .hist puts _ d =>
      dropReq (sendFill (bagAccepted { s with tick := s.tick + 1 } r) r.thread d puts (openReply s) r.iaddr none) r
    | .put _ _ _ => s
    | .emit _ _ _ => s
    | .take _ _ _ _ => s
    | _ => replyTo s r (faultReply (badHandle r.handle))
  | some (b, bg) =>
    match r.ask with
    | .count d => putResult s r d (.value (BitVec.ofNat 64 bg.resident))
    | .hist false n d => putResult s r d (.value (BitVec.ofNat 64 (agetD n 0 bg.res)))
    | .hist true n d =>
      dropReq (sendFill (bagAccepted s r) r.thread d true (.value (BitVec.ofNat 64 (agetD n 0 bg.puts))) r.iaddr none) r
    | .cut =>
      let s1 := s.modBag b fun y => { y with cuts := aset y.seq y.claims y.cuts }
      replyTo s1 r (valueReply bg.seq)
    | .info sel => replyTo s r (valueReply (bg.info b sel))
    | .wait =>
      if bg.iters ≤ bg.ended then replyTo s r (valueReply bg.waitWord)
      else
        let s1 := bagAccepted s r
        { s1 with bagReqs := s1.bagReqs.map fun x => if x.id = r.id then { x with after := some bg.iters } else x }
    | .clear => (bagAccepted s r).modBag b fun y => { y with clear := some r.id }
    | .iter cut off => acceptIter s r b bg cut off
    | _ => s

/-- An accepted BAGWAIT is answered once the iterations before it are over. -/
def finishWait (s : State) (r : BagReq) (n : Nat) : State :=
  match liveBag s r.func r.handle with
  | some (_, bg) => if n ≤ bg.ended then replyTo s r (valueReply bg.waitWord) else s
  | none => replyTo s r (faultReply (badHandle r.handle))

/-- BAG_QUERY_ACCEPT: the arbiter reaches the n-th request, neither a put nor a take. -/
def execBagQueryAccept (n : Nat) (s : State) : Out :=
  match s.bagReqs[n]? with
  | none => .next s
  | some r =>
    match r.after with
    | some i => .next (finishWait s r i)
    | none => if mayTake s n r then .next (acceptQuery s r) else .next s

/-! ## Clears and iterations (11 R242, R243) -/

/-- BAG_CLEAR_PERFORM (11 R243). -/
def execBagClearPerform (b : BagId) (s : State) : Out :=
  match aget b s.bags with
  | none => .next s
  | some bg =>
    match bg.clear with
    | none => .next s
    | some id =>
      if bg.iter.isSome || bg.recs.any (·.claimed) then .next s
      else
        let s1 := s.modBag b fun y => { y with recs := [], rows := [], resident := 0, res := [], ptr := 0, clear := none }
        .next { s1 with
          answers := s1.answers ++ [(id, valueReply 0)], bagReqs := s1.bagReqs.filter fun x => x.id ≠ id }

/-- BAG_ITERATION_START (11 R242): an iteration that waited for another starts, in the order their BAGITERs were accepted. A
clear waits for the running one alone, so it is performed before one that still waits (11 R243). -/
def execBagIterationStart (b : BagId) (s : State) : Out :=
  match aget b s.bags with
  | none => .next s
  | some bg =>
    match bg.iter, bg.iterQ with
    | none, _ :: _ =>
      if bg.clear.isSome then .next s
      else .next (s.modBag b Bag.startNext)
    | _, _ => .next s

/-- BAG_ITERATION_END (12 R271): every unit has ended the run. -/
def execBagIterationEnd (b : BagId) (s : State) : Out :=
  match aget b s.bags with
  | none => .next s
  | some bg =>
    match bg.iter with
    | none => .next s
    | some (_, _, n) =>
      match aget n s.runs with
      | none => .next s
      | some r =>
        if r.units.all fun u => u.2.ended then
          let s1 := s.modBag b fun y => { y with iter := none, ended := y.ended + 1, last := some (r.stops ≠ [], r.visited) }
          .next { s1 with runs := adel n s1.runs }
        else .next s

/-! ## Creation and removal (11 R231 to R234) -/

/-- The free bag controllers of a die, in the order in which they were freed. -/
def freeOf (s : State) (die : Nat) : List (Nat × Nat) := agetD die ((List.range 256).map fun i => (i, 0)) s.freeBags

/-- Rows that a bag has reserved in each pseudo-channel. -/
def Bag.reserved (b : Bag) : Nat := (b.cap + b.perRow - 1) / b.perRow

/-- The rows of 2 MiB of a carve-out that a page covers: the first, and how many (14 R307, R312). -/
def pageRows (seg : Nat) (p : Page) : Option (Nat × Nat) :=
  let off := bits p.fa 39 0
  if (p.state = .resident || p.state = .pulling) && bits p.fa 41 40 = 0 then
    some (bits seg 19 0 + off / 2097152, (off % 2097152 + p.size + 2097151) / 2097152)
  else none

/-- Whether rows lie in a function's carve-out, under no page of it, and are reserved by no other bag there. -/
def rowsFree (s : State) (fn row n spread : Nat) : Bool :=
  let seg := ((s.func fn).segs.getD 0 0).toNat
  bit seg 63 && bits seg 19 0 ≤ row && row + n ≤ bits seg 19 0 + bits seg 39 20 &&
    (s.bags.all fun e => !(e.2.spread &&& spread ≠ 0 && overlaps (e.2.rowBase, e.2.reserved) (row, n))) &&
    ((s.func fn).pages.filterMap (pageRows seg)).all fun r => !overlaps r (row, n)

/-- Creates a bag for a descriptor with no live bag, in rows of the dealer's choice; none: refused (11 R231, R232). The
descriptor's read may fail. -/
def createBag (s : State) (fn desc row : Nat) : Except Miss (Option (State × Word)) :=
  match virtRead s fn desc 24 .read with
  | .error m => .error m
  | .ok (s0, bs) => .ok (make s0 (natOfBytes bs))
where
  /-- The bag of a descriptor as read. -/
  make (s0 : State) (v : Nat) : Option (State × Word) :=
    let rsize := bits v 31 0
    let cap := bits v 63 32
    let spread := bits v 95 64
    let bound := bits v 159 128
    let q := 1024 / rsize
    if desc % 4 ≠ 0 || !(rsize = 32 || rsize = 64 || rsize = 128) || cap = 0 || 2 ^ 28 < cap || spread = 0 ||
        bits v 97 96 = 3 || bound < q || bits v 127 98 ≠ 0 || bits v 191 161 ≠ 0 then none
    else
      let n := (cap + q - 1) / q
      let low := ((List.range 32).find? fun i => bit spread i).getD 0
      match ((List.range 8).map fun k => (low / 4 + k) % 8).find? fun d => freeOf s d ≠ [] with
      | none => none
      | some die =>
        match freeOf s die with
        | [] => none
        | (slot, gen) :: rest =>
          if !rowsFree s fn row n spread then none
          else
            let g := if gen < 16383 then gen + 1 else 1
            let b : Bag := ⟨fn, desc, g, rsize, cap, spread, bits v 97 96, bound, bits v 160 160, row, 0, 0, 0, 0, [], [], [], 0,
              [], [], 0, 0, none, [], none, none⟩
            let id : BagId := ⟨die, slot⟩
            let h := handleOf id b
            let s1 := { s0 with bags := s0.bags ++ [(id, b)], freeBags := aset die rest s0.freeBags }
            some (s1.modFunc fn fun f => { f with bagTable := aset desc h f.bagTable }, h)

/-- The lowest rows of a function's carve-out that are free for a descriptor. -/
def chooseRow (s : State) (fn desc : Nat) : Nat :=
  let v := virtNat s fn desc 24
  let q := 1024 / bits v 31 0
  let n := if q = 0 then 0 else (bits v 63 32 + q - 1) / q
  let seg := ((s.func fn).segs.getD 0 0).toNat
  let ends := bits seg 19 0 :: (s.bags.map fun e => e.2.rowBase + e.2.reserved)
    ++ ((s.func fn).pages.filterMap (pageRows seg)).map fun r => r.1 + r.2
  ((ends.mergeSort (· ≤ ·)).find? fun r => rowsFree s fn r n (bits v 95 64)).getD 0

/-- A bag ends: its handle is bad from now on, and its rows and its controller are free. -/
def removeBag (s : State) (b : BagId) (bg : Bag) : State :=
  let s1 := { s with
    bags := adel b s.bags
    freeBags := aset b.die (freeOf s b.die ++ [(b.slot, bg.gen)]) s.freeBags }
  s1.modFunc bg.func fun f => { f with bagTable := adel bg.desc f.bagTable }

/-! ## DET_COMMIT (13 R290, 07 R156) -/

/-- The scratchpad bytes that an entry writes. -/
def DetEntry.range (e : DetEntry) : Option (Nat × Nat) :=
  match e.kind with
  | 0 => some (e.addr, Nat.log2 (e.bmask.toNat + 1))
  | 2 => some (e.addr, if e.bmask = 0xFF#8 then 8 else 4)
  | 3 => some (e.addr, 16)
  | _ => none

/-- Entries of pass 1. -/
def DetEntry.isStore (e : DetEntry) : Bool := e.kind ≠ 5 && e.kind ≠ 7

/-- The entries of a thread that come before the first to held bytes; a compare value goes with its SATOM. -/
def freeEntries (s : State) (id : TeamId) : List DetEntry → List DetEntry
  | [] => []
  | e :: t =>
    let blocked := fun (x : DetEntry) => match x.range with
      | some r => heldRange s id r.1 r.2 false
      | none => false
    if blocked e || (e.kind = 6 && (match t with
        | x :: _ => blocked x
        | [] => false)) then [] else e :: freeEntries s id t

/-- Applies the stores of a thread as far as they go; false once one must wait. -/
def commitThread (id : TeamId) (r : State × Bool) (k : ThreadKey) : State × Bool :=
  match r with
  | (s, false) => (s, false)
  | (s, true) =>
    match aget (handOf k) s.hands with
    | none => (s, true)
    | some h =>
      let es := h.detBuf.filter fun e => e.lane = k.lane && e.isStore
      let now := freeEntries s id es
      let rest := es.drop now.length
      let other := h.detBuf.filter fun e => !(e.lane = k.lane && e.isStore)
      ((applyEntries s (handOf k) now).modHand (handOf k) fun h => { h with detBuf := rest ++ other }, rest = [])

/-- Pass 1: the stores of every thread, in ascending %tid. -/
def commitStores (s : State) (id : TeamId) : State × Bool := (teamThreads s id).foldl (commitThread id) (s, true)

/-- Whether matrix instructions still write tiles of a team. -/
def matrixWrites (s : State) (id : TeamId) : Bool := s.holds.any fun h => h.2.team = id && h.2.dst

/-- The tile events of a team's buffers, in ascending hand index and program order. -/
def collectEvents (s : State) (id : TeamId) : List (Nat × DetEntry) :=
  (teamHands s id).flatMap fun h => match aget h s.hands with
    | some hd => (hd.detBuf.filter fun e => e.kind = 7).map fun e => (h.hand, e)
    | none => []

/-- Pass 2: applies the tile events as far as they go. -/
def commitEvents (id : TeamId) : List (Nat × DetEntry) → State → State × List (Nat × DetEntry)
  | [], s => (s, [])
  | (h, e) :: rest, s =>
    match aget id s.teams with
    | none => (s, [])
    | some tm =>
      let k : ThreadKey := ⟨id, h, e.lane⟩
      let r : TileRef := ⟨id, tm.tiles.getD e.addr 0⟩
      match meetEvent s r e.opx with
      | .wait => (s, (h, e) :: rest)
      | .go => commitEvents id rest (tileEvent s r e.opx e.data)
      | .fault =>
        let s1 := match aget k s.threads with
          | some t => if t.run = .exited then noteFault s k e.iaddr { code := 0x0B } else producerFault s k e.iaddr { code := 0x0B }
          | none => s
        commitEvents id rest s1

/-- Pass 3: sends the puts of a thread, with their records read from committed scratchpad. -/
def commitPuts (id : TeamId) (s : State) (k : ThreadKey) : State :=
  match aget (handOf k) s.hands, aget id s.teams with
  | some h, some tm =>
    (h.detBuf.filter fun e => e.lane = k.lane && e.kind = 5).foldl (fun s e =>
      let n := min 128 (tm.scratch - e.addr)
      (sendBag s k tm.func (e.data.setWidth 32) (.put e.addr 0 (some (s.spBytes id tm e.addr n)))).1) s
  | _, _ => s

/-- The tiles that matrix instructions have written in the trick are READY from the boundary on (10 R215). -/
def readyTricks (s : State) (id : TeamId) (tm : Team) : State :=
  (tm.trickTiles.foldl (fun s m => match tm.tiles[m]? with
    | some e => if (tileAt s (coreOf id) e).state = 1 then setTileState s (coreOf id) e 2 else s
    | none => s) s).modTeam id fun tm => { tm with trickTiles := [] }

/-- Pass 4, and what waited for the boundary goes on. -/
def endCommit (s : State) (id : TeamId) (tm : Team) : State :=
  let s1 := (teamHands s id).foldl (fun s h => s.modHand h fun hd => { hd with detBuf := [], trick := false }) s
  let s2 := s1.modTeam id fun tm => { tm with commit := 0 }
  if tm.commitExit then startDrain s2 id else if tm.commitYield then completeYield s2 id else leaveTbar s2 id

/-- Whether a team has Commons loads on their way to their banks: they read what was committed before the boundary (08 R179). -/
def loadsQueued (s : State) (id : TeamId) : Bool :=
  s.hands.any fun e => e.1.team = id && e.2.storeQ.any fun x => x.op.isLoad

/-- DET_COMMIT (13 R290): the next pass of a team's quantum boundary, as far as it can go; none while IDLE reads 1
(23 R408). -/
def execDetCommit (t : TeamId) (s : State) : Out :=
  match aget t s.teams with
  | none => .next s
  | some tm =>
    if (s.core (coreOf t)).idle then .next s
    else match tm.commit with
    | 0 => .next s
    | 1 =>
      if loadsQueued s t then .next s
      else
      let r := commitStores s t
      .next (if r.2 then r.1.modTeam t fun tm => { tm with commit := 2, tileEvents := collectEvents r.1 t } else r.1)
    | 2 =>
      if matrixWrites s t then .next s
      else
        let s1 := readyTricks s t tm
        let r := commitEvents t tm.tileEvents s1
        .next (r.1.modTeam t fun tm => { tm with tileEvents := r.2, commit := if r.2 = [] then 3 else 2 })
    | 3 => .next (((teamThreads s t).foldl (commitPuts t) s).modTeam t fun tm => { tm with commit := 4 })
    | _ => .next (openChecks (endCommit s t tm) t)

end Sys2Proof.Machine
end

