-- ==== Sys2Proof/Machine/NearBank.lean ====
section
/-! DEFINITION. Near-bank units and pseudo-channel controllers (11 R229, R230; 12 R251 to R273; 22 R397, R398): NBRUN, the
acceptance, the rows and the ends of runs, every row operation, and the service of ordinary requests. -/

namespace Sys2Proof.Machine

/-! ## Fields of a run (12 R257) -/

/-- Parameter ck. -/
def NbRun.param (r : NbRun) (k : Nat) : Word := BitVec.ofNat 32 (bits r.word.toNat (543 + 32 * k) (512 + 32 * k))
/-- Stream base Sk; 0: unused. -/
def NbRun.base (r : NbRun) (k : Nat) : Nat := bits r.word.toNat (319 + 64 * k) (256 + 64 * k)
/-- The initial counts. -/
def NbRun.linit (r : NbRun) : List Nat := (List.range 4).map fun k => bits r.word.toNat (135 + 8 * k) (128 + 8 * k)
/-- Status block offset. -/
def NbRun.st (r : NbRun) : Nat := bits r.word.toNat 116 96
/-- The address of row i of stream k (12 R259). -/
def NbRun.rowVa (r : NbRun) (k i : Nat) : Nat := (r.base k + 1024 * i) % 2 ^ 64
/-- Whether an NSTORE of the program names a stream (12 R269). -/
def NbRun.stores (r : NbRun) (k : Nat) : Bool := r.ops.any fun w => bits w.toNat 31 26 = 2 && bits w.toNat 1 0 = k

/-! ## Translating rows (12 R269) -/

/-- What the translations of a row come to. -/
inductive RowAt where
  | at (places : List (Option Nat))
  /-- It waits: the stream, and what it waits for. -/
  | waits (k : Nat) (m : Miss)
  | refused (k code : Nat)
deriving DecidableEq, Repr

/-- The place of a whole row: near-bank rows are never forwarded, so a page that is not in this module waits. -/
def rowPlace (s : State) (fn va k : Nat) (wr : Bool) : RowAt :=
  let acc := if wr then Acc.write else Acc.read
  match ((List.range 8).map fun i => (va + 128 * i, translate s fn (va + 128 * i) acc)).find? fun x => match x.2 with
    | .dram _ _ => false
    | _ => true with
  | none => match translate s fn va acc with
    | .dram d _ => .at [some d]
    | x => .waits k ⟨va, x⟩
  | some (_, .final code) => .refused k code
  | some (_, .fabric _ _ pva) => .waits k ⟨va, .dealer 0x10 pva⟩
  | some (_, .host _ pva) => .waits k ⟨va, .dealer 0x10 pva⟩
  | some (a, x) => .waits k ⟨a, x⟩

/-- The translations of row i, stream by stream. -/
def rowAt (s : State) (r : NbRun) (i : Nat) : RowAt :=
  (List.range 4).foldl (fun a k =>
    match a with
    | .at ls =>
      if r.base k = 0 then .at (ls ++ [none])
      else match rowPlace s r.func (r.rowVa k i) k (r.stores k) with
        | .at l => .at (ls ++ l)
        | o => o
    | o => o) (.at [])

/-- The unit of row i, once its stream-0 page is mapped. -/
def rowUnit (s : State) (r : NbRun) (i : Nat) : Option Nat :=
  match rowPlace s r.func (r.rowVa 0 i) 0 (r.stores 0) with
  | .at [some d] => some (pchOf d)
  | _ => none

/-! ## Accepting a run (12 R252, R269, R270) -/

/-- Every unit has ended a run, and no row waits. -/
def NbRun.finished (r : NbRun) : Bool := r.ops ≠ [] && r.waiting = [] && r.units.all fun u => u.2.ended

/-- A run that owes no more writes is over. -/
def closeRun (s : State) (n : Nat) : State :=
  match aget n s.runs with
  | some r =>
    if r.bag.isNone && r.finished && (!r.sten || r.status) && r.heldN = 0 && !r.heldSt then { s with runs := adel n s.runs }
    else s
  | none => s

/-- A row that no unit runs is skipped (12 R269). -/
def skipRow (s : State) (n : Nat) : State := rowLanded (s.modRun n fun r => { r with skip := r.skip + 1 }) n

/-- What a fault record says of row i in stream k. -/
def rowFault (r : NbRun) (i k code : Nat) : FaultInfo :=
  { code := code, felem := i, faddr := BitVec.ofNat 64 (r.rowVa k i), acc := if r.stores k then 2 else 1 }

/-- What a row that waits leaves: a record where the dealer must answer, once while that record is unresolved. -/
def rowWaits (s : State) (n : Nat) (r : NbRun) (i k : Nat) (m : Miss) : State :=
  match m.xl with
  | .dealer code page =>
    if aget i r.asked = some (page, code) && faultOpen s r.func page code 4 then s
    else runFault (s.modRun n fun r => { r with asked := aset i (page, code) r.asked }) r (rowFault r i k code) true page
  | _ => m.note s r.func

/-- What becomes of row i at the acceptance of its run. -/
def acceptRow (n : Nat) (s : State) (i : Nat) : State :=
  match aget n s.runs with
  | none => s
  | some r =>
    match rowAt s r i with
    | .at ls =>
      let p := pchOf ((ls.headD none).getD 0)
      modUnit s n p fun u => { u with rows := u.rows ++ [⟨i, ls⟩] }
    | .waits k m =>
      let late := if (rowUnit s r i).isSome then [] else [i]
      rowWaits (s.modRun n fun r => { r with waiting := r.waiting ++ [i], late := r.late ++ late }) n r i k m
    | .refused k code => skipRow (runFault s r (rowFault r i k code) false 0) n

/-- The units that a run takes at acceptance: of every row whose stream-0 page is mapped and that is not refused. -/
def runUnits (s : State) (r : NbRun) : List Nat :=
  (((List.range r.rows).filterMap fun i => match rowAt s r i with
    | .refused _ _ => none
    | _ => rowUnit s r i).mergeSort (· ≤ ·)).dedup

/-- The hand's request is accepted: it counts no more as pending (13 R279). -/
def runAccepted (s : State) (r : NbRun) : State :=
  s.modHand (handOf r.thread) fun hd => { hd with pend := hd.pend.filter (· ≠ r.seq) }

/-- The thread of an NBRUN is answered. -/
def answerRun (s : State) (n : Nat) (a : Answer) : State := { s with answers := s.answers ++ [(n, a)] }

/-- NB_RUN_ACCEPT (12 R252, R269): the descriptor and the program are read, and the run takes a place in every unit that
runs a row of it, once each has one free. -/
def execNbRunAccept (n : Nat) (s : State) : Out :=
  match aget n s.runs with
  | none => .next s
  | some r0 =>
    if r0.ops ≠ [] then .next s
    else match aget r0.team s.teams with
      | none => .next { s with runs := adel n s.runs }
      | some tm =>
        if descHeld s r0.team tm r0.dom.spoff then .next s
        else match readDesc s r0.team tm r0.dom.spoff false with
        | .error f => .next (answerRun (runAccepted { s with runs := adel n s.runs } r0) n (faultReply f))
        | .ok (w, ops) =>
          let fresh := newRun s r0.thread r0.func r0.iaddr r0.dom.spoff w ops
          let r := { r0 with word := w, ops := ops, rsize := fresh.rsize }
          let ps := runUnits s r
          if !placesFree s ps then .next s
          else
            let r1 := { r with units := ps.map fun p => (p, UnitRun.fresh) }
            let s1 := takePlaces (s.modRun n fun _ => r1) n ps
            let s2 := (List.range r1.rows).foldl (acceptRow n) s1
            .next (closeRun (answerRun (runAccepted s2 r0) n (valueReply 0)) n)

/-- NBRUN (12 R268, R269): the thread waits until its run is accepted. -/
def execNbrun (g : Guard) (a : Src) (off : Word) (s : State) : Out :=
  .next (runLanes s ⟨g, srcOp a false, noOp, noOp, []⟩ fun k v s => inTeam s k fun tm =>
    let d := memAddr v.a off
    let send := fun (s : State) =>
      let n := s.nextId
      let q := nextSeqNo s (handOf k)
      let r := { newRun s k tm.func (pcOf s k) d 0 [] with seq := q }
      let s1 := { s with nextId := n + 1, runs := s.runs ++ [(n, r)] }
      (s1.modHand (handOf k) fun hd => { hd with seq := hd.seq + 1, pend := hd.pend ++ [q] }, n)
    if asked s k then askAndWait s k send fun _ s => .done s
    else if tm.detMode then .fault { code := 0x0D }
    else if d % 32 ≠ 0 then .fault { code := 0x09, faddr := BitVec.ofNat 64 d, acc := 1 }
    else if tm.scratch < d + 96 then .fault { code := 0x08, faddr := BitVec.ofNat 64 d, acc := 1 }
    else if acqPending s k true then .wait s
    else askAndWait s k send fun _ s => .done s)

/-- A row joins those that its unit has still to start: in ascending order before the rows whose stream-0 page was not
mapped at acceptance, which come in the order of their mappings (12 R259, R269). -/
def insertRow (late : List Nat) (w : RowRef) : List RowRef → List RowRef
  | [] => [w]
  | x :: rest => if !late.contains w.i && (late.contains x.i || w.i < x.i) then w :: x :: rest else x :: insertRow late w rest

/-- A mapped row goes to its unit, which takes a queue place if it holds none for the run; on a unit that starts no more
rows it is skipped. -/
def placeRow (s : State) (n i : Nat) (r : NbRun) (ls : List (Option Nat)) : State :=
  let p := pchOf ((ls.headD none).getD 0)
  let s1 := s.modRun n fun r => { r with waiting := r.waiting.filter (· ≠ i) }
  match r.unit p with
  | some x => if x.noMore then skipRow s1 n else modUnit s1 n p fun u => { u with rows := insertRow r.late ⟨i, ls⟩ u.rows }
  | none =>
    if !placesFree s [p] then s
    else takePlaces (s1.modRun n fun r => { r with units := r.units ++ [(p, { UnitRun.fresh with rows := [⟨i, ls⟩] })] }) n [p]

/-- NB_ROW_MAPPED (12 R269): the dealer has mapped the page of a waiting row, which is translated again; or it has refused,
and the row is skipped. -/
def execNbRowMapped (n : Nat) (i : Nat) (mapped : Bool) (s : State) : Out :=
  match aget n s.runs with
  | none => .next s
  | some r =>
    if !r.waiting.contains i then .next s
    else
      let drop := fun (s : State) => s.modRun n fun r => { r with waiting := r.waiting.filter (· ≠ i) }
      if !mapped then .next (closeRun (skipRow (drop s) n) n)
      else match rowAt s r i with
        | .at ls => .next (placeRow s n i r ls)
        | .waits k m => .next (rowWaits s n r i k m)
        | .refused k code => .next (closeRun (skipRow (runFault (drop s) r (rowFault r i k code) false 0) n) n)

/-! ## Starting runs and rows (12 R251, R252, R260, R271) -/

/-- Whether a run may start on the unit it is first at: an iteration only once its bag runs it. -/
def NbRun.due (s : State) (r : NbRun) (n : Nat) : Bool :=
  match r.bag with
  | none => true
  | some b => match (aget b s.bags).bind (·.iter) with
    | some (_, _, m) => m = n
    | none => false

/-- NB_RUN_START (12 R251): n0 to n7 and M are zero, and the program is loaded. -/
def execNbRunStart (p : Nat) (s : State) : Out :=
  let u := s.pch p
  match u.runq with
  | [] => .next s
  | n :: _ =>
    match aget n s.runs with
    | none => .next s
    | some r =>
      if u.active || u.qreq || !r.due s n then .next s
      else .next (s.modPch p fun u => { u with
        active := true, store := r.ops, pc := 0, n := List.replicate 8 0, l := r.linit, m := 0, susp := none, fresh := false,
        wait := none })

/-- The run that a unit performs. -/
def activeRun (s : State) (p : Nat) : Option (Nat × NbRun × UnitRun) :=
  let u := s.pch p
  match u.runq with
  | [] => none
  | n :: _ =>
    match aget n s.runs with
    | some r => match r.unit p with
      | some x => if u.active then some (n, r, x) else none
      | none => none
    | none => none

/-- Whether a unit may go on: it is neither suspended nor quiesced, and waits for no remote row. -/
def unitGoes (u : Pch) : Bool := !u.qreq && u.susp.isNone

/-- A row starts: its loop counters and its mask. -/
def beginRow (s : State) (p m : Nat) (r : NbRun) : State := s.modPch p fun u => { u with l := r.linit, m := m }

/-- The next row of an iteration. -/
def startIterRow (s : State) (n p : Nat) (r : NbRun) : State :=
  match iterRow s r p with
  | none => modUnit s n p fun x => { x with noMore := true }
  | some (row, recs) =>
    if recs.any fun x => !x.written then s
    else
      let mark := fun (s : State) => match r.bag with
        | some b => s.modBag b fun y => { y with recs := y.recs.map fun x =>
            if x.row = row.num && x.seq ≤ r.cut then { x with seen := true } else x }
        | none => s
      if recs = [] then mark s
      else
        let s1 := (mark s).modRun n fun r => { r with visited := r.visited + recs.length }
        let s2 := modUnit s1 n p fun x => { x with bagRow := some row.num, begun := true }
        beginRow s2 p ((recs.map (·.slot)).foldl (fun m i => m ||| 2 ^ i) 0) r

/-- NB_ROW_START (12 R260, R271). -/
def execNbRowStart (p : Nat) (s : State) : Out :=
  match activeRun s p with
  | none => .next s
  | some (n, r, x) =>
    if x.cur.isSome || x.bagRow.isSome || x.noMore || !unitGoes (s.pch p) then .next s
    else if r.bag.isSome then .next (startIterRow s n p r)
    else match x.rows with
      | [] => .next s
      | w :: rest =>
        let s1 := modUnit s n p fun x => { x with cur := some w, rows := rest, begun := true }
        .next (beginRow s1 p (if r.rsize = 0 then 0 else 2 ^ (1024 / r.rsize) - 1) r)

/-! ## Ends of rows and runs (12 R266, R270 to R272) -/

/-- Rows of a unit are over: completed or skipped, they call landed(1) once the unit's puts are answered. -/
def rowsOver (s : State) (n p done skip : Nat) : State :=
  let s1 := s.modRun n fun r => { r with done := r.done + done, skip := r.skip + skip }
  payOwed (modUnit s1 n p fun x => { x with cur := none, bagRow := none, owed := x.owed + done + skip }) n p

/-- The run stops on a unit (12 R272): its row and its remaining rows are skipped. -/
def stopUnit (s : State) (p : Nat) (code : Nat) : State :=
  match activeRun s p with
  | none => s
  | some (n, r, x) =>
    let u := s.pch p
    let va := match x.cur with
      | some w => r.rowVa 0 w.i
      | none => 0
    let s1 := runFault s r { code := code, felem := u.pc % 256 + 256 * p, faddr := BitVec.ofNat 64 va } false 0
    let s2 := s1.modRun n fun r => { r with stops := r.stops ++ [(p, code)] }
    let s3 := modUnit s2 n p fun x => { x with rows := [], noMore := true }
    rowsOver (s3.modPch p fun u => { u with wait := none }) n p 0 (1 + x.rows.length)

/-- Since when the requests of a pseudo-channel have waited: those that it holds, and those that engines make in one step. -/
def Pch.waits (u : Pch) : List Nat := u.reqs.map (·.since) ++ u.direct.map (·.1)

/-- Whether the oldest request of a unit that has performed a row operation has waited NBARB (12 R254). -/
def arbDue (s : State) (p : Nat) : Bool :=
  let u := s.pch p
  !u.fresh && u.waits.any fun t => u.nbarb * 5 ≤ (s.cycle - t) * 4

/-- Whether a unit is at an operation of a row. -/
def unitReady (s : State) (p : Nat) : Bool :=
  match activeRun s p with
  | some (_, _, x) => (x.cur.isSome || x.bagRow.isSome) && unitGoes (s.pch p) && ((s.pch p).wait.isSome || !arbDue s p)
  | none => false

/-- NB_RUN_STOP (12 R261, R272): the operation that a unit has reached is none, or lies past the program's end. -/
def execNbRunStop (p : Nat) (s : State) : Out :=
  let u := s.pch p
  let s0 := { s with focus := .none }
  if unitReady s p && (u.store.length ≤ u.pc || (decodeRow u.nextOp).toOption = none) then .next (stopUnit s0 p 0x1D)
  else .next s0

/-- NB_RUN_END (12 R266, R269): the unit has no row left, none of the run waits for the dealer, and its puts are answered. -/
def execNbRunEnd (p : Nat) (s : State) : Out :=
  match activeRun s p with
  | none => .next s
  | some (n, r, x) =>
    if x.cur.isSome || x.bagRow.isSome || x.emits ≠ 0 || r.waiting ≠ [] || (if r.bag.isSome then !x.noMore else x.rows ≠ []) then
      .next s
    else
      let s1 := modUnit s n p fun x => { x with ended := true, noMore := true }
      .next (closeRun (s1.modPch p fun u => { u with
        runq := u.runq.drop 1, active := false, susp := none, fresh := false, wait := none }) n)

/-- The status block (12 R270). -/
def NbRun.statusBlock (r : NbRun) : Nat :=
  let code := ((r.stops.mergeSort fun a b => a.1 ≤ b.1).headD (0, 0)).2
  r.done % 2 ^ 22 + r.skip % 2 ^ 22 * 2 ^ 22 + code % 256 * 2 ^ 56 + r.emitRef % 2 ^ 32 * 2 ^ 64 + r.emitOk % 2 ^ 32 * 2 ^ 96

/-- Writes the status block, and makes the landed(1) call that was held for it (22 R397). -/
def writeStatus (s : State) (n : Nat) (r : NbRun) : State :=
  match aget r.team s.teams with
  | none => { s with runs := adel n s.runs }
  | some tm =>
    let s1 := s.spWrite r.team tm r.st (bytesOfNat 16 r.statusBlock)
    let s2 := if r.last then runLanded s1 r 1 else s1
    closeRun (s2.modRun n fun r => { r with status := true, last := false, heldSt := false }) n

/-- The calls that a matrix instruction's hold of the barrier kept back are made (10 R214). -/
def payCalls (s : State) (n : Nat) (r : NbRun) : State :=
  closeRun (iter (fun s => runLanded s r 1) r.heldN (s.modRun n fun r => { r with heldN := 0 })) n

/-- NB_STATUS_WRITE (12 R270, 22 R397): held while the team is suspended (12 R273). Calls of landed that wait are made
first. -/
def execNbStatusWrite (n : Nat) (s : State) : Out :=
  match aget n s.runs with
  | none => .next s
  | some r =>
    if r.heldN ≠ 0 && !r.callsHeld s then .next (payCalls s n r)
    else if !r.sten || r.status || r.bag.isSome || !r.finished then .next s
    else if r.away then .next (s.modRun n fun r => { r with heldSt := true })
    else if heldRange s r.team r.st 16 false || (r.last && r.callsHeld s) then .next s
    else .next (writeStatus s n r)

/-! ## Arbitration and service (11 R229, 12 R254, R256) -/

/-- NB_ARBITRATION_SUSPEND (12 R254). -/
def execNbArbitrationSuspend (p : Nat) (s : State) : Out :=
  if (s.pch p).active && (s.pch p).susp.isNone && !unitAway s p && arbDue s p then
    .next (s.modPch p fun u => { u with susp := some 0 })
  else .next s

/-- NB_RESUME (12 R254): QUOTA requests have been served, or none is left. A request that an engine makes in one step
counts as left until it has had its turn (notes/assumptions/117.md). -/
def execNbResume (p : Nat) (s : State) : Out :=
  let u := s.pch p
  match u.susp with
  | some n =>
    if u.qreq then .next s
    else if u.quota ≤ n || u.waits = [] then .next (s.modPch p fun u => { u with susp := none, fresh := true })
    else if u.reqs = [] then .next (s.modPch p fun u => match u.direct with
      | d :: _ => u.turned d
      | [] => u)
    else .next s
  | none => .next s

/-- The function whose segment 0 holds a location: its dirty bitmap counts a write there (14 R326). -/
def dirtyOf (s : State) (fn loc : Nat) : Option Nat :=
  let r := ((s.func fn).segs.getD 0 0).toNat
  if bit r 63 && bits r 19 0 * 2097152 ≤ loc && loc < (bits r 19 0 + bits r 39 20) * 2097152 then some fn else none

/-- The first poisoned line of a range of locations. -/
def firstPoison (s : State) (loc n : Nat) : Option Nat := (dramLines loc n).find? s.mem.dramPoison.contains

/-- What a request reads. -/
def Req.bytes (s : State) (q : Req) : List Byte := q.parts.flatMap fun p => dramRead s p.2.1 p.2.2

/-- The virtual address of the first poisoned line that a request reads. -/
def Req.poison (s : State) (q : Req) : Option Nat :=
  q.parts.findSome? fun p => (firstPoison s (locOf p.2.1) p.2.2).map fun l => p.1 + (64 * l - locOf p.2.1)

/-- Writes bytes at the parts of a request, in order. -/
def Req.put (q : Req) (s : State) (bs : List Byte) : State :=
  (q.parts.foldl (fun (r : State × List Byte) p =>
    (placeWrite r.1 (.dram p.2.1 q.dirty) (r.2.take p.2.2), r.2.drop p.2.2)) (s, bs)).1

/-- Performs a request whole (12 R256): a poisoned line reaches its reader as POISON (11 R230), and the elements of a
reducing copy combine with what is there (09 R190; together, notes/assumptions/47.md). -/
def performReq (s : State) (q : Req) : State :=
  let answer (s : State) (a : Answer) : State := { s with answers := s.answers ++ [(q.id, a)] }
  let bad := if q.write.isSome && q.rop.isNone then none else q.poison s
  match bad, q.write with
  | some va, _ =>
    answer (q.parts.foldl (fun s p => notePoisonAt s q.who.1 (locOf p.2.1) p.2.2) s)
      (faultReply { code := 0x15, acc := if q.rop.isSome then 8 else 1, faddr := BitVec.ofNat 64 va })
  | none, some bs => answer (q.put s (writtenBytes q.rop (q.bytes s) bs)) (valueReply 0)
  | none, none => answer s ⟨none, 0, q.bytes s⟩

/-- What a controller may choose from: while it quiesces, the requests that QREQ found (11 R229). -/
def Pch.holds (u : Pch) : Pch := if u.qreq then { u with reqs := u.reqs.take u.held, direct := [] } else u

/-- The controller performs the n-th request that it holds, if that may come next (11 R230); while it quiesces, those that
QREQ found (R229). An engine's request that comes before it has its turn first (notes/assumptions/117.md). -/
def serveNth (p n : Nat) (s : State) : State :=
  let u := s.pch p
  match u.holds.reqs[n]? with
  | none => s
  | some q =>
    if u.qack || (!u.qreq && !unitAway s p) || !servesNext u.holds n then s
    else match directFirst u.holds n with
      | some d => s.modPch p fun u => u.turned d
      | none => countServed ((performReq s q).modPch p fun u => { u.without n with held := u.held - 1 }) p q.lane

/-- ORDINARY_REQUEST_SERVE (12 R256). -/
def execOrdinaryRequestServe (r : HeldRef) (s : State) : Out := .next (serveNth r.pch r.place s)

/-- LANE_RATIO_QUIESCE (11 R229): QREQ := 1. -/
def execLaneRatioQuiesce (p : Nat) (s : State) : Out :=
  .next (s.modPch p fun u => if u.qreq then u else { u with qreq := true, held := u.reqs.length })

/-- PSEUDO_CHANNEL_QUIESCED (11 R229): what the controller held is complete and the unit is at a row boundary. -/
def execPseudoChannelQuiesced (p : Nat) (s : State) : Out :=
  .next (s.modPch p fun u => if u.qreq && u.held = 0 then { u with qack := true } else u)

/-- LANE_RATIO_RESUME (11 R229): QREQ := 0. -/
def execLaneRatioResume (p : Nat) (s : State) : Out :=
  .next (s.modPch p fun u => { u with qreq := false, qack := false, held := 0 })

/-- LANE_RATIO_SET (11 R229): ignored unless the pseudo-channel is quiesced. -/
def execLaneRatioSet (p : Nat) (ratio : BitVec 2) (s : State) : Out :=
  .next (s.modPch p fun u => if u.qack then { u with ratio := ratio.toNat } else u)

end Sys2Proof.Machine
end

