-- ==== Sys2Proof/Machine/Trees.lean ====
section
/-! DEFINITION. Launch queues and work trees (02 R20 to R26, 04 R54, R55, R60): a home dispatcher takes a root, validates
its tree, keeps the nodes' states, and writes each change back. -/

namespace Sys2Proof.Machine

/-- The number of MSI-X vectors of a function (16 R373). -/
def vectors (fn : Nat) : Nat := if fn = 0 then 2048 else 256

/-- Whether a function's queues, mailbox and MSI-X are usable (23 R403). -/
def funcReady (s : State) (fn : Nat) : Bool := s.health.ready.contains (.func fn)

/-- The entry of a vector in the MSI-X table: address, data and vector control. PRESUMED (notes/assumptions/104.md): bit 96
masks the vector, and every vector is masked at reset, as PCI Express has it. -/
def Func.vector (f : Func) (vec : Nat) : BitVec 128 := agetD vec (BitVec.twoPow 128 96) f.msixTable

/-- Signals an MSI-X vector of a function (16 R372, R373): a masked one sets its pending bit. A vector beyond the table
signals nothing, and the dealer is told; nor does one of a function that is not ready (23 R403). -/
def signal (s : State) (fn vec : Nat) : State :=
  if vectors fn ≤ vec then tellDealer s (.vector fn vec)
  else if !funcReady s fn then s
  else s.modFunc fn fun f =>
    if (f.vector vec).getLsbD 96 then
      { f with msixPending := if f.msixPending.contains vec then f.msixPending else f.msixPending ++ [vec] }
    else { f with msix := aset vec (agetD vec 0 f.msix + 1) f.msix }

/-- The dealer answers a mailbox request with a status, and signals vector 1 (16 R372). -/
def reply (s : State) (fn status : Nat) : State := signal (s.modFunc fn fun f => { f with reply := bytesOfNat 4 status }) fn 1

/-- The dealer answers a mailbox request whose answer the spec does not lay down (DESIGN CHOICE, notes/assumptions/110.md). -/
def replyOpen (s : State) (fn : Nat) : State :=
  reply { s with tick := s.tick + 1 } fn (Config.freeValue 18 s.tick % 2 ^ 32)

/-! ## Fields of a node (02 R21) -/

/-- Bits [hi:lo] of a node. -/
def nodeField (w : BitVec 5120) (hi lo : Nat) : Nat := bits w.toNat hi lo

def Node.f (n : Node) (hi lo : Nat) : Nat := nodeField n.fields hi lo
def Node.kind (n : Node) : Nat := n.f 3 0
def Node.chain (n : Node) : Bool := n.f 10 10 = 1
def Node.child (n : Node) : Nat := n.f 191 128
def Node.next (n : Node) : Nat := n.f 255 192
def Node.succAt (n : Node) : Nat := n.f 319 256
def Node.succN (n : Node) : Nat := n.f 335 320
def Node.entry (n : Node) : Nat := n.f 831 768
def Node.tx (n : Node) : Nat := n.f 863 832
def Node.ty (n : Node) : Nat := n.f 879 864
def Node.tz (n : Node) : Nat := n.f 895 880
/-- Threads per hand. -/
def Node.w (n : Node) : Nat := match n.f 897 896 with
  | 0 => 32
  | 1 => 16
  | _ => 64
def Node.regs (n : Node) : Nat := 8 * n.f 903 898
def Node.hands (n : Node) : Nat := n.f 910 904
def Node.ntiles (n : Node) : Nat := n.f 918 912
def Node.nreg (n : Node) : Nat := n.f 924 920
def Node.scratch (n : Node) : Nat := n.f 959 928
/-- Its teams: TEAMX·TEAMY·TEAMZ. -/
def Node.count (n : Node) : Nat := n.tx * n.ty * n.tz
/-- The region entries in use. -/
def Node.region (n : Node) : List (BitVec 128) :=
  (List.range n.nreg).map fun i => n.fields.extractLsb' (1024 + 128 * i) 128
/-- The launch constants k0 to k63. -/
def Node.kconst (n : Node) : List Word := (List.range 64).map fun j => n.fields.extractLsb' (3072 + 32 * j) 32

/-- The effective values of a node (02 R22): its own field where its bit of INH is 1, else its parent's value. -/
def effOf (w : BitVec 5120) (p : Eff) : Eff :=
  let own (b hi lo v : Nat) : Nat := if w.getLsbD b then nodeField w hi lo else v
  { wissue := own 16 351 336 p.wissue
    wdram := own 17 367 352 p.wdram
    wfab := own 18 383 368 p.wfab
    maxq := own 19 395 384 p.maxq
    slice := own 20 431 400 p.slice
    prio := own 21 6 4 p.prio
    fq := own 22 511 448 p.fq
    msix := own 22 522 512 p.msix
    det := own 23 9 8 p.det
    deadline := own 24 447 432 p.deadline }

/-- The effective values that a root inherits: the template's own fields (04 R54). -/
def tmplEff (w : BitVec 5120) : Eff := effOf (w ||| BitVec.ofNat 5120 (511 * 2 ^ 16)) ⟨0, 0, 0, 0, 0, 0, 0, 0, 0, 0⟩

/-! ## Checks (02 R19, R23; 04 R55, R65) -/

/-- The quadrants that a team takes (02 R19), if any number up to 4 will do. -/
def quadsFor (w regs hands : Nat) : Option Nat :=
  [1, 2, 3, 4].find? fun q => (hands + q - 1) / q * w ≤ 1024 && (hands + q - 1) / q * w * regs ≤ 32768

/-- The most quadrants that a function owns on any one core. -/
def maxQuads (s : State) (fn : Nat) : Nat :=
  s.quadOwner.foldl (fun m e =>
    max m (s.quadOwner.countP fun x => x.2 = fn && x.1.die = e.1.die && x.1.core = e.1.core)) 0

/-- The banks that a function holds on a core, ascending (07 R138). -/
def ownBanks (c : Core) (fn : Nat) : List Nat := (List.range 64).filter fun b => aget (b / 4) c.bankOwner = some fn
/-- The tile entries that a function holds on a core, ascending (07 R150). -/
def ownTiles (c : Core) (fn : Nat) : List Nat := (List.range 64).filter fun t => aget (t / 4) c.tileOwner = some fn

/-- Whether some core's share covers SCRATCH, and some core's TILES. -/
def shareCovers (s : State) (fn scratch ntiles : Nat) : Bool :=
  (scratch = 0 || s.cores.any fun c => scratch ≤ (ownBanks c.2 fn).length * 32768)
    && (ntiles = 0 || s.cores.any fun c => ntiles ≤ (ownTiles c.2 fn).length)

/-- The scratchpad range that a region entry fills. -/
def regionRange (e : BitVec 128) : Nat × Nat := (regionSpoff e, regionLen e)

def rangesMeet (a b : Nat × Nat) : Bool := a.1 < b.1 + b.2 && b.1 < a.1 + a.2

/-- A region entry in use is malformed by itself (04 R65, 09 R200). -/
def entryBad (scratch : Nat) (e : BitVec 128) : Bool :=
  let k := regionKind e
  let off := regionSpoff e
  let len := regionLen e
  k = 0 || 5 < k || len = 0 || len % 4 ≠ 0 || off % 4 ≠ 0 || regionVbase e % 4 ≠ 0
    || !canonical (BitVec.ofNat 64 (regionVbase e))
    || ((k = 1 || k = 2) && scratch < off + len) || (k = 5 && (len ≠ 4 || scratch < off + 4)) || (k = 3 && off ≠ 0)
    || (k = 4 && (len ≠ 32 || regionVbase e % 32 ≠ 0 || off % 32 ≠ 0 || scratch < off + 32))

/-- Two entries of which the ranges must not overlap: copies and bags with one another and with windows. -/
def entriesClash (a b : BitVec 128) : Bool :=
  let data (k : Nat) : Bool := k = 1 || k = 2 || k = 5
  let ka := regionKind a
  let kb := regionKind b
  ((data ka && (data kb || kb = 4)) || (ka = 4 && data kb)) && rangesMeet (regionRange a) (regionRange b)

/-- Whether any two elements of a list are related. -/
def anyPair {α : Type} (p : α → α → Bool) : List α → Bool
  | [] => false
  | a :: t => t.any (p a) || anyPair p t

/-- The region entries of a node are malformed. -/
def regionsBad (n : Node) : Bool :=
  16 < n.nreg || n.region.any (entryBad n.scratch) || anyPair entriesClash n.region
    || 1 < n.region.countP fun e => regionKind e = 3

/-- A reserved field of a node is not zero. -/
def reservedBad (n : Node) : Bool :=
  n.f 31 25 ≠ 0 || n.f 15 11 ≠ 0 || n.f 7 7 ≠ 0 || n.f 55 53 ≠ 0 || n.f 399 396 ≠ 0 || n.f 575 523 ≠ 0
    || n.f 703 674 ≠ 0 || n.f 767 738 ≠ 0
    || (n.kind = 2 && (n.f 911 911 ≠ 0 || n.f 919 919 ≠ 0 || n.f 927 925 ≠ 0 || n.f 1023 960 ≠ 0
      || n.region.any fun e => bits e.toNat 123 117 ≠ 0))

/-- Reason 4. -/
def weightsBad (e : Eff) : Bool := e.wissue = 0 || e.wdram = 0 || e.wfab = 0

/-- Reason 8. -/
def placeBad (s : State) (fn : Nat) (n : Node) : Bool :=
  match quadsFor n.w n.regs n.hands with
  | none => true
  | some q => (n.eff.maxq ≠ 0 && n.eff.maxq < q) || maxQuads s fn < q

/-- The lowest-numbered of the reasons 1 to 11 that a node fails. Reason 3 meets a DET of 3 in the node itself, and one
that it inherits (DESIGN CHOICE where INH bit 23 is 0: R21 refuses the value 3, notes/assumptions/98.md). -/
def earlyReason (s : State) (fn : Nat) (n : Node) : Option Nat :=
  let launch := n.kind = 2
  ([(1, (n.kind ≠ 1 && n.kind ≠ 2) || n.addr % 128 ≠ 0),
    (2, 7 < n.level),
    (3, n.f 9 8 = 3 || n.eff.det = 3 || (n.chain && n.eff.det ≠ 0)),
    (4, weightsBad n.eff),
    (5, launch && n.f 897 896 = 3),
    (6, launch && (n.regs = 0 || 256 < n.regs)),
    (7, launch && (n.hands = 0 || 64 < n.hands)),
    (8, launch && placeBad s fn n),
    (9, launch && !shareCovers s fn n.scratch n.ntiles),
    (10, launch && regionsBad n),
    (11, launch && (n.tx = 0 || n.ty = 0 || n.tz = 0 || 2 ^ 32 < n.count))].find? (·.2)).map (·.1)

/-- The lowest-numbered of the reasons 13 and 14 that a node fails. -/
def lateReason (n : Node) : Option Nat :=
  if (n.kind = 1 && (n.chain || n.child = 0)) || (n.kind = 2 && n.child ≠ 0) then some 13
  else if reservedBad n then some 14
  else none

/-- The lowest-numbered reason that a template fails (04 R55). "Reason 3: DET" is taken as a DET of 3 alone: CHAIN is no field
that a root inherits (DESIGN CHOICE, notes/assumptions/115.md). -/
def tmplReason (addr : Nat) (w : BitVec 5120) : Option Nat :=
  if nodeField w 3 0 ≠ 1 || addr % 128 ≠ 0 then some 1
  else if nodeField w 9 8 = 3 then some 3
  else if weightsBad (tmplEff w) then some 4
  else if nodeField w 31 25 ≠ 0 || nodeField w 15 11 ≠ 0 || nodeField w 7 7 ≠ 0 || nodeField w 55 53 ≠ 0
    || nodeField w 399 396 ≠ 0 || nodeField w 575 523 ≠ 0 || nodeField w 703 674 ≠ 0 || nodeField w 767 738 ≠ 0 then some 14
  else none

/-! ## Write-backs (02 R25) -/

/-- The RW fields of a node, in their places. -/
def Node.rw (n : Node) : BitVec 1024 :=
  BitVec.ofNat 1024 (n.depc * 2 ^ 32 + n.state * 2 ^ 48 + (if n.under then 2 ^ 52 else 0) + n.reason * 2 ^ 56
    + n.cycles % 2 ^ 64 * 2 ^ 576 + n.nextTeam * 2 ^ 640 + (if n.allDisp then 2 ^ 673 else 0) + n.retired * 2 ^ 704
    + (if n.abrt then 2 ^ 737 else 0))

/-- The places of the RW fields. -/
def rwMask : BitVec 1024 :=
  BitVec.ofNat 1024 (0xFFFF * 2 ^ 32 + 0x1F * 2 ^ 48 + 0xFF * 2 ^ 56 + (2 ^ 64 - 1) * 2 ^ 576 + (2 ^ 34 - 1) * 2 ^ 640
    + (2 ^ 34 - 1) * 2 ^ 704)

/-- Writes the RW fields of a node to memory, and leaves every other bit. -/
def writeRw (s : State) (fn addr : Nat) (data : BitVec 1024) : Except Miss State :=
  let part (r : Except Miss State) (off n : Nat) : Except Miss State :=
    match r with
    | .error x => .error x
    | .ok s =>
      let old := BitVec.ofNat (8 * n) (natOfBytes ((pieces 128 2 (addr + off) n).flatMap fun p =>
        placeRead s (translate s fn p.1 .write) p.2))
      let m := rwMask.extractLsb' (8 * off) (8 * n)
      virtWrite s fn (addr + off) (bytesOfNat n ((old &&& ~~~ m) ||| (data.extractLsb' (8 * off) (8 * n) &&& m)).toNat)
  let stay := nodeFolded s fn addr
  match (pieces 128 3 addr 128).find? fun p => !(reach s fn p.1 .write stay).isPlace with
  | some p => .error ⟨p.1, reach s fn p.1 .write stay⟩
  | none => part (part (.ok s) 4 4) 72 21

/-- A fault record of a team dispatcher. -/
def dispRec (code fn homeDie fq msix wcb addr acc : Nat) (wait : Bool) (page : Nat) : FaultRec :=
  ⟨code, wait, 8, acc, if wait then 1 else 0, 127, 127, 0, 0, homeDie, 0, 0, 0, 0xFFFFFFFF, wcb, 0, BitVec.ofNat 64 addr,
    fn, page, homeDie, fq, msix, false⟩

/-- Takes the waiting write-backs of a node away. -/
def dropSweep (s : State) (die fn addr : Nat) : State :=
  s.modDisp die fun d => { d with sweeps := d.sweeps.filter fun w => !(w.func = fn && w.addr = addr) }

/-- A write-back that cannot be made has been refused: it is dropped, with a final record (02 R25). -/
def refuseSweep (s : State) (die : Nat) (w : Sweep) (code va : Nat) : State :=
  sendFault (dropSweep s die w.func w.addr) (dispRec code w.func die w.fq w.msix w.wcb va 2 false 0)

/-- A write-back meets no place: it waits, and the dealer is asked once while that record is unresolved, or it is dropped. -/
def sweepMiss (s : State) (die : Nat) (w : Sweep) (m : Miss) : State :=
  match m.xl with
  | .final c => refuseSweep (m.note s w.func) die w c m.va
  | .dealer c page =>
    let a : Asked := ⟨m.va, page, c⟩
    if stillAsked s w.func 8 w.asked a then s
    else
      let s1 := s.modDisp die fun d => { d with sweeps := d.sweeps.map fun x => if x = w then { x with asked := some a } else x }
      sendFault s1 (dispRec c w.func die w.fq w.msix w.wcb m.va 2 true page)
  | _ => m.note s w.func

/-- Writes a node's RW fields back, or lets the write wait: the latest values of a node take the place of older ones. -/
def writeBack (s : State) (fn die : Nat) (n : Node) (by_ : Node) : State :=
  let asked := match (s.disp die).sweeps.find? fun w => w.func = fn && w.addr = n.addr with
    | some w => w.asked
    | none => none
  match writeRw s fn n.addr n.rw with
  | .ok s1 => dropSweep s1 die fn n.addr
  | .error m =>
    let w : Sweep := ⟨fn, n.addr, n.rw, by_.addr, by_.eff.fq, by_.eff.msix, asked⟩
    sweepMiss ((dropSweep s die fn n.addr).modDisp die fun d => { d with sweeps := d.sweeps ++ [w] }) die w m

/-- WCB_WRITEBACK: a waiting write-back of a die is made, or the dealer has refused its page. -/
def execWcbWriteback (at_ : SweepRef) (refused : Bool) (s : State) : Out :=
  let die := at_.die
  match (s.disp die).sweeps[at_.place]? with
  | none => .next s
  | some w =>
    match writeRw s w.func w.addr w.data with
    | .ok s1 => .next (dropSweep s1 die w.func w.addr)
    | .error m =>
      match m.xl with
      | .dealer c _ => .next (if refused then refuseSweep s die w c m.va else sweepMiss s die w m)
      | _ => .next (sweepMiss s die w m)

/-! ## The home dispatcher's copy (02 R24 to R26) -/

def Tree.node (t : Tree) (a : Nat) : Option Node := t.nodes.find? fun n => n.addr = a

/-- The node of a queue's tree. -/
def nodeAt (s : State) (q a : Nat) : Option Node :=
  match aget q s.trees with
  | some t => t.node a
  | none => none

/-- Changes a node in its home dispatcher's copy alone. -/
def touchNode (s : State) (q a : Nat) (f : Node → Node) : State :=
  { s with trees := amod q (fun t => { t with nodes := t.nodes.map fun n => if n.addr = a then f n else n }) s.trees }

/-- Changes a node and writes the change back; by_: the node whose fault domain is told of a failure. -/
def setNode (s : State) (q a by_ : Nat) (f : Node → Node) : State :=
  let s1 := touchNode s q a f
  match aget q s1.trees with
  | some t =>
    match t.node a, t.node by_ with
    | some n, some b => writeBack s1 t.func t.home n b
    | _, _ => s1
  | none => s1

/-- The order in which nodes of a tree become READY (04 R56). -/
def nextReady (s : State) (q : Nat) : Nat :=
  match aget q s.trees with
  | some t => t.nodes.foldl (fun m n => max m n.readyAt) 0 + 1
  | none => 1

/-- A node becomes READY: a GROUP runs at once, and its children without dependences become READY in turn. Of several that
become READY at one moment the first in child-list order counts as the first, a GROUP's descendants before its later
siblings (DESIGN CHOICE, notes/assumptions/114.md). -/
def readyNode : Nat → Nat → Nat → Nat → State → State
  | 0, _, _, _, s => s
  | fuel + 1, q, by_, a, s =>
    match aget q s.trees with
    | none => s
    | some t =>
      match t.node a with
      | none => s
      | some n =>
        let s1 := setNode s q a by_ fun n => { n with state := if n.kind = 1 then 2 else 1, readyAt := nextReady s q }
        if n.kind = 1 then
          (t.nodes.filter fun c => c.parent = a && c.addr ≠ a && c.depc = 0).foldl
            (fun s c => readyNode fuel q by_ c.addr s) s1
        else s1

/-- One decrement of a successor's DEPC. -/
def decrement (s : State) (q by_ a : Nat) : State :=
  match aget q s.trees with
  | none => s
  | some t =>
    match t.node a with
    | none => s
    | some n =>
      if n.depc = 0 then setNode s q a by_ fun n => { n with under := true }
      else
        let s1 := setNode s q a by_ fun n => { n with depc := n.depc - 1 }
        let parentRuns := match t.node n.parent with
          | some p => p.state = 2 && p.readyAt ≠ 0
          | none => false
        if n.depc = 1 && parentRuns then readyNode 9 q by_ a s1 else s1

/-- The tree of a queue is over: BUSY returns to 0. -/
def endTree (s : State) (q : Nat) : State :=
  { s.modQueue q fun u => { u with busy := false } with trees := adel q s.trees }

/-- A node completes (02 R24): DONE, its successors, and its parent when it was the last child. -/
def completeNode : Nat → Nat → Nat → State → State
  | 0, _, _, s => s
  | fuel + 1, q, a, s =>
    match aget q s.trees with
    | none => s
    | some t =>
      match t.node a with
      | none => s
      | some n =>
        let s1 := setNode s q a a fun n => { n with state := 4 }
        let s2 := n.succ.foldl (fun s b => decrement s q a b) s1
        if a = t.root then endTree (signal s2 t.func n.eff.msix) q
        else match aget q s2.trees with
          | none => s2
          | some t2 =>
            if t2.nodes.all fun c => c.parent ≠ n.parent || c.addr = t.root || c.state = 4 then completeNode fuel q n.parent s2
            else s2

/-- Whether a LAUNCH has retired every team (04 R60). -/
def Node.retiredAll (n : Node) : Bool := n.allDisp && n.retired = n.count

/-- RETIREMENT_NOTICE: the home dispatcher of a die accepts the oldest notice on its way to it. -/
def execRetirementNotice (die : Nat) (s : State) : Out :=
  match (s.disp die).notices with
  | [] => .next s
  | (q, a) :: rest =>
    let s1 := s.modDisp die fun d => { d with notices := rest }
    let s2 := setNode s1 q a a fun n => { n with retired := n.retired + 1 }
    .next (match nodeAt s2 q a with
      | some n => if n.retiredAll then completeNode 9 q a s2 else s2
      | none => s2)

/-! ## Validation (02 R23) -/

/-- A node as it has just been read: its RW fields as they stand in memory. -/
def newNode (a level parent : Nat) (w : BitVec 5120) (p : Eff) : Node where
  addr := a
  fields := w
  level := level
  parent := parent
  succ := []
  checked := false
  reason := nodeField w 63 56
  eff := effOf w p
  state := nodeField w 51 48
  depc := nodeField w 47 32
  under := nodeField w 52 52 = 1
  retired := nodeField w 736 704
  nextTeam := nodeField w 672 640
  allDisp := nodeField w 673 673 = 1
  abrt := nodeField w 737 737 = 1
  cycles := nodeField w 639 576
  readyAt := 0
  runAt := 0
  pending := false
  pendAt := 0
  why := 0
  held := []

/-- A node still to be visited, and the node whose field names it. -/
structure Visit where
  addr : Nat
  level : Nat
  parent : Nat
  blame : Option Nat
  eff : Eff
deriving DecidableEq, Repr

/-- What a visit or a check comes to. -/
inductive Checked where
  | ok (nodes : List Node) (s : State)
  /-- A read meets no place. -/
  | miss (nodes : List Node) (blame : Option Nat) (m : Miss) (s : State)
  | refused (nodes : List Node) (blame : Option Nat) (reason : Nat) (s : State)

/-- Reads a node: 128 bytes, and the rest of a LAUNCH. -/
def readNode (s : State) (fn a : Nat) : Except Miss (State × BitVec 5120) :=
  match virtRead s fn a 128 .read with
  | .error x => .error x
  | .ok (s1, bs) =>
    if (bs.headD 0).toNat % 16 = 2 then
      match virtRead s1 fn (a + 128) 512 .read with
      | .error x => .error x
      | .ok (s2, cs) => .ok (s2, BitVec.ofNat 5120 (natOfBytes (bs ++ cs)))
    else .ok (s1, BitVec.ofNat 5120 (natOfBytes bs))

/-- The nodes to visit after a node: its children, then its siblings; none follow a root's NEXT or a node below level 7. -/
def following (v : Visit) (n : Node) : List Visit :=
  (if n.kind = 1 && v.level ≤ 7 && n.child ≠ 0 then [⟨n.child, v.level + 1, v.addr, some v.addr, n.eff⟩] else [])
    ++ (if v.level ≠ 0 && n.next ≠ 0 then [⟨n.next, v.level, v.parent, some v.addr, v.eff⟩] else [])

/-- The visit, depth-first in child-list order; known: the nodes already read. A node reached a second time enters the
list again, at the level where it was reached. -/
def visit (fn : Nat) (known : List Node) : Nat → State → List Visit → List Node → Checked
  | 0, s, _, out => .ok out s
  | _, s, [], out => .ok out s
  | fuel + 1, s, v :: rest, out =>
    match out.find? fun n => n.addr = v.addr with
    | some n => visit fn known fuel s rest (out ++ [{ n with level := v.level }])
    | none =>
      match known.find? fun n => n.addr = v.addr with
      | some n => visit fn known fuel s (following v n ++ rest) (out ++ [n])
      | none =>
        match readNode s fn v.addr with
        | .error m => .miss out v.blame m s
        | .ok (s1, w) =>
          let n := newNode v.addr v.level v.parent w v.eff
          visit fn known fuel s1 (following v n ++ rest) (out ++ [n])

/-- Whether the TGT bit of ENTRY's slot is set in its line (reason 12). -/
def entryReads (s : State) (fn : Nat) (n : Node) : Except Miss (State × Bool) :=
  if 4 < n.entry % 64 then .ok (s, false)
  else match virtRead s fn (n.entry / 64 * 64 + 60) 4 .read with
    | .error x => .error x
    | .ok (s1, bs) => .ok (s1, bit (natOfBytes bs) (n.entry % 64))

/-- The successors of a node. -/
def succReads (s : State) (fn : Nat) (n : Node) : Except Miss (State × List Nat) :=
  match virtRead s fn n.succAt (8 * n.succN) .read with
  | .error x => .error x
  | .ok (s1, bs) => .ok (s1, (List.range n.succN).map fun i => natOfBytes ((bs.drop (8 * i)).take 8))

/-- The checks of one node that need no more reading of nodes: 1 to 14. -/
def checkEntry (s : State) (fn : Nat) (n : Node) : Except Miss (State × Option Nat) :=
  match earlyReason s fn n with
  | some r => .ok (s, some r)
  | none =>
    if n.kind = 2 then
      match entryReads s fn n with
      | .error x => .error x
      | .ok (s1, good) => .ok (s1, if good then lateReason n else some 12)
    else .ok (s, lateReason n)

/-- The checks of the visited nodes, in the order of the visit; all: the whole visit. A node that has been checked is
reached a second time. -/
def checkNodes (fn : Nat) (all : List Node) : State → List Node → List Node → Checked
  | s, out, [] => .ok out s
  | s, out, n :: rest =>
    if out.any fun m => m.addr = n.addr then .refused all (some n.addr) (if 7 < n.level then 2 else 13) s
    else if n.checked then checkNodes fn all s (out ++ [n]) rest
    else match checkEntry s fn n with
      | .error m => .miss (out ++ n :: rest) (some n.addr) m s
      | .ok (s1, some r) => .refused all (some n.addr) r s1
      | .ok (s1, none) =>
        match succReads s1 fn n with
        | .error m => .miss (out ++ n :: rest) (some n.addr) m s1
        | .ok (s2, ss) =>
          if ss.all fun a => all.any fun m => m.addr = a then
            checkNodes fn all s2 (out ++ [{ n with succ := ss, checked := true }]) rest
          else .refused all (some n.addr) 15 s2

/-- The tree of a queue is refused (02 R23): REASON in the failing node, REFUSED in it and in the root, and the signal. -/
def refuseTree (s : State) (q : Nat) (nodes : List Node) (blame : Option Nat) (reason : Nat) : State :=
  match aget q s.trees with
  | none => s
  | some t =>
    let ns := nodes.map fun n =>
      if some n.addr = blame then { n with reason := reason, state := 5 }
      else if n.addr = t.root && blame.isSome then { n with state := 5 }
      else n
    let eff := match nodes with
      | n :: _ => n.eff
      | [] => t.tmpl
    let wr (s : State) (a : Nat) : State := match ns.find? fun n => n.addr = a with
      | some n => writeBack s t.func t.home n { n with eff := eff }
      | none => s
    let s1 := match blame with
      | some a => if a = t.root then wr s a else wr (wr s a) t.root
      | none => s
    endTree (signal s1 t.func eff.msix) q

/-- The record of a validation read that waits for the dealer, or that is refused for good (14 R306, R313). -/
def validationRec (t : Tree) (nodes : List Node) (blame : Option Nat) (va code : Nat) (wait : Bool) (page : Nat) : FaultRec :=
  let eff := match nodes with
    | n :: _ => n.eff
    | [] => t.tmpl
  dispRec code t.func t.home eff.fq eff.msix (blame.getD 0) va 1 wait page

/-- A validation read meets no place: it waits, and the dealer is asked once while that record is unresolved; or it is refused for good,
which refuses the tree with reason 16 and leaves a record (DEDUCED, notes/assumptions/105.md). -/
def validationMiss (s : State) (q : Nat) (t : Tree) (nodes : List Node) (blame : Option Nat) (m : Miss) : State :=
  let w (a : Option Asked) : Option Validation := some ⟨t.root, m.va, blame, a⟩
  let keep (w : Option Validation) : State := { s with trees := aset q { t with nodes := nodes, waiting := w } s.trees }
  match m.xl with
  | .final c => refuseTree (sendFault (m.note (keep none) t.func) (validationRec t nodes blame m.va c false 0)) q nodes blame 16
  | .dealer c page =>
    let a : Asked := ⟨m.va, page, c⟩
    if stillAsked s t.func 8 (t.waiting.bind (·.asked)) a then keep (w (some a))
    else sendFault (keep (w (some a))) (validationRec t nodes blame m.va c true page)
  | _ => m.note (keep (w none)) t.func

/-- What a validation comes to: the visit and the checks, or the template's reason once the root has been read. -/
def checkTree (s : State) (t : Tree) : Checked :=
  match t.bad with
  | some r => match readNode s t.func t.root with
    | .ok (s1, w) => .refused [newNode t.root 0 0 w t.tmpl] (some t.root) r s1
    | .error m => .miss [] none m s
  | none => match visit t.func t.nodes (2 ^ 64) s [⟨t.root, 0, 0, none, t.tmpl⟩] [] with
    | .ok nodes s1 => checkNodes t.func nodes s1 [] nodes
    | r => r

/-- Validation goes on; it waits, refuses the tree, or lets the root become READY. That of a folded job stands still
(15 R347). -/
def validate (s : State) (q : Nat) : State :=
  match aget q s.trees with
  | none => s
  | some t =>
    if folded s t then s else match checkTree s t with
    | .ok nodes s1 => readyNode 9 q t.root t.root { s1 with trees := aset q { t with nodes := nodes, waiting := none } s1.trees }
    | .refused nodes blame reason s1 => refuseTree s1 q nodes blame reason
    | .miss nodes blame m s1 => validationMiss s1 q t nodes blame m

/-- The dealer has refused the page of a validation read. -/
def refuseRead (s : State) (q : Nat) : State :=
  match aget q s.trees with
  | some t =>
    match t.waiting with
    | some w => refuseTree s q t.nodes w.blame 16
    | none => s
  | none => s

/-- VALIDATION_READ_ANSWER: the page of the read that a validation waits for is mapped, or the dealer has refused it. -/
def execValidationReadAnswer (q : Nat) (mapped : Bool) (s : State) : Out :=
  match aget q s.trees with
  | some t => .next (if t.waiting.isNone then s else if mapped then validate s q else refuseRead s q)
  | none => .next s

/-! ## Launch queues (04 R54, R55) -/

/-- LAUNCH_QUEUE_DOORBELL: the owning function writes TAIL; another function's write is ignored, and so is one of a function
whose queues are not usable yet (23 R403). -/
def execLaunchQueueDoorbell (q : Nat) (func : Nat) (tail : Word) (s : State) : Out :=
  .next (if q < 64 && (s.queue q).func = func && funcReady s func then s.modQueue q fun u => { u with tail := tail } else s)

/-- A root is taken: HEAD goes on, BUSY is 1, and its tree is validated. -/
def takeRoot (s : State) (q root : Nat) (u : Queue) (tw : BitVec 5120) : State :=
  let s1 := s.modQueue q fun u => { u with head := u.head + 1, busy := true, asked := none }
  let t : Tree := ⟨root, u.home, u.func, tmplEff tw, [], none, false, tmplReason u.tmpl tw⟩
  validate { s1 with trees := aset q t s1.trees } q

/-- A dispatcher's read of a queue's ring or template meets no place, and the queue waits. The record goes, once while
it is unresolved, to the template's fault domain; while that cannot be read, there is none (DEDUCED, notes/assumptions/105.md). -/
def queueMiss (s : State) (q : Nat) (u : Queue) (m : Miss) : State :=
  let a : Asked := match m.xl with
    | .dealer c page => ⟨m.va, page, c⟩
    | .final c => ⟨m.va, 0, c⟩
    | _ => ⟨m.va, 0, 0⟩
  let s1 := (m.note s u.func).modQueue q fun u => { u with asked := some a }
  match m.xl, virtRead s u.func u.tmpl 128 .read with
  | x, .ok (_, tb) =>
    let e := tmplEff (BitVec.ofNat 5120 (natOfBytes tb))
    match x with
    | .final c => if u.asked = some a then s1 else sendFault s1 (dispRec c u.func u.home e.fq e.msix 0 m.va 1 false 0)
    | .dealer c page =>
      if stillAsked s u.func 8 u.asked a then s1 else sendFault s1 (dispRec c u.func u.home e.fq e.msix 0 m.va 1 true page)
    | _ => m.note s u.func
  | _, .error _ => m.note s u.func

/-- The vector named in a queue's template is signalled, once the template can be read; one refused for good names none
(DEDUCED, notes/assumptions/15.md). -/
def signalOwed (s : State) (q : Nat) : State :=
  let u := s.queue q
  let s1 := s.modQueue q fun u => { u with owed := false }
  match virtRead s1 u.func (u.tmpl + 64) 2 .read with
  | .ok (s2, bs) => signal s2 u.func (natOfBytes bs % 2048)
  | .error ⟨va, .final c⟩ => (Miss.mk va (.final c)).note s1 u.func
  | .error m => m.note s u.func

/-- TAIL − HEAD exceeds the ring: EN becomes 0, and the template's vector is signalled. -/
def overfullQueue (s : State) (q : Nat) : State :=
  signalOwed (s.modQueue q fun u => { u with en := false, asked := none, owed := true }) q

/-- TAKE_ROOT: the home dispatcher serves a launch queue, one of a function whose queues are usable (23 R403). -/
def execTakeRoot (q : Nat) (s : State) : Out :=
  let u := s.queue q
  if !funcReady s u.func then .next s
  else if u.owed then .next (signalOwed s q)
  else if !u.en || (s.func u.func).resetting then .next s
  else if 2 ^ u.log2n < (u.tail - u.head).toNat then .next (overfullQueue s q)
  else if u.busy || u.head = u.tail then .next s
  else match virtRead s u.func (u.base + 8 * (u.head.toNat % 2 ^ u.log2n)) 8 .read with
    | .error m => .next (queueMiss s q u m)
    | .ok (s1, bs) =>
      if natOfBytes bs = 0 then .next (s1.modQueue q fun u => { u with head := u.head + 1, asked := none })
      else match virtRead s1 u.func u.tmpl 128 .read with
        | .error m => .next (queueMiss s q u m)
        | .ok (s2, tb) => .next (takeRoot s2 q (natOfBytes bs) u (BitVec.ofNat 5120 (natOfBytes tb)))

end Sys2Proof.Machine
end

