-- ==== Sys2Proof/Machine/Images.lean ====
section
/-! DEFINITION. Context images (15 R341 to R345): when a team may leave its core, what its image holds, and how it comes
back. While a team is away, what still names it uses a name on die 8, which no team on a core has. -/

namespace Sys2Proof.Machine

/-! ## Names -/

def renameThread (old new : TeamId) (k : ThreadKey) : ThreadKey := if k.team = old then { k with team := new } else k

def Job.rename (new : TeamId) : Job → Job
  | .chain x => .chain { x with team := new }
  | .take t => .take { t with team := new }

/-- What outlives a team's stay on a core, and names it, names it anew. -/
def renameRefs (s : State) (old new : TeamId) (away : Bool) : State :=
  let one (t : TeamId) : TeamId := if t = old then new else t
  { s with
    fills := s.fills.map fun f => { f with thread := renameThread old new f.thread }
    bagReqs := s.bagReqs.map fun r => { r with thread := renameThread old new r.thread }
    runs := s.runs.map fun e => (e.1, if e.2.team = old then
      { e.2 with team := new, thread := renameThread old new e.2.thread, away := away } else e.2)
    ranks := s.ranks.map fun r => { r with team := r.team.map one }
    collSlots := s.collSlots.map fun e => (e.1, { e.2 with team := e.2.team.map one })
    groups := s.groups.map fun e => (e.1, { e.2 with teams := e.2.teams.map one }) }

/-! ## Quadrant-clocks (15 R335) -/

/-- Adds quadrant-clocks to a node and to its ancestors. -/
def addCycles : Nat → Nat → Nat → Nat → Nat → State → State
  | 0, _, _, _, _, s => s
  | fuel + 1, q, by_, a, n, s =>
    match nodeAt s q a with
    | none => s
    | some nd =>
      let s1 := setNode s q a by_ fun x => { x with cycles := (x.cycles + n) % 2 ^ 64 }
      if nd.parent = 0 then s1 else addCycles fuel q by_ nd.parent n s1

/-- A team's stay is counted: for its node and ancestors since its placement, for its function's period since the period
last counted it. -/
def countStay (s : State) (tm : Team) : State :=
  let s1 := addCycles 9 tm.queue tm.node tm.node (tm.quads.length * (s.cycle - tm.placedAt)) s
  s1.modFunc tm.func fun f => { f with used := f.used + tm.quads.length * (s.cycle - tm.countedAt) }

/-! ## Leaving a core -/

/-- Everything of a team goes from its core: its slot, registers, accumulators, tile entries and channels' jobs. -/
def freeTeam (s : State) (id : TeamId) (tm : Team) : State :=
  let s1 := { s with
    teams := adel id s.teams
    threads := s.threads.filter fun e => e.1.team ≠ id
    hands := s.hands.filter fun e => e.1.team ≠ id
    fills := s.fills.filter fun f => f.thread.team ≠ id
    current := s.current.filter fun e => e.2.team ≠ id
    chans := s.chans.map fun e => (e.1,
      { run := match e.2.run with
          | some j => if j.team = id then none else some j
          | none => none
        back := e.2.back.filter fun j => j.team ≠ id
        queue := e.2.queue.filter fun j => j.team ≠ id
        frozen := e.2.frozen.filter (· ≠ id)
        incomp := e.2.incomp.filter fun x => x.1 ≠ id }) }
  (freeMats s1 id).modCore (coreOf id) fun c => { c with tiles := c.tiles.filter fun e => !tm.tiles.contains e.1 }

/-! ## When an image may be written -/

/-- Whether an issued unit has settled, or waits for what cannot come before the halt: for the dealer, for a packet that a
fold holds (15 R347), or for storage that a later unit brings (09 R191). -/
def Rec.unitRests (r : Rec) (s : State) (u : Nat) : Bool :=
  bit r.mask u || r.waiting.contains u ||
    (r.kind = 1 && !r.out && (aget u r.bufs).isSome && !(r.unitPeers u).all r.unitIn) ||
    ((agetD u [] r.reqs).any fun i => (aget i s.answers).isNone &&
      s.forwards.any fun f => f.id = i && nodeFolded s f.func f.wcb)

/-- A record's issued units rest, and it issues no more before the halt (15 R343). -/
def Rec.rests (r : Rec) (s : State) (x : Chain) (n : Nat) : Bool :=
  !mayIssue s x n r && (List.range r.issued).all (r.unitRests s)

/-- A job of a team that is under way may be saved: at a yield point, nothing that has started is left. -/
def Job.rests (s : State) (id : TeamId) (esc : Bool) : Job → Bool
  | .chain x => x.team ≠ id || ((List.range x.recs.length).zip x.recs).all fun e =>
      !e.2.started || (esc && e.2.rests s x e.1)
  | .take t => t.team ≠ id || (esc && (match t.limit with
      | some l => l ≤ t.landed
      | none => false))

/-- What a channel has under way for a team may be saved. -/
def chanRests (s : State) (id : TeamId) (esc : Bool) (c : Chan) : Bool :=
  (c.run.toList ++ c.back.filter Job.started).all (Job.rests s id esc)

/-- Whether nothing of a hand's store queue may be accepted: what is left is a release that waits, or what it holds back
(13 R288). -/
def queueRests (s : State) (h : HandKey) (hd : Hand) : Bool :=
  ((List.range hd.storeQ.length).zip hd.storeQ).all fun e => !mayAccept s h hd.storeQ e.1 e.2

/-- Whether a bag request of a team, the n-th on its way, cannot be accepted now: its own hand's order, a release or a clear
keeps it back, or it is a take that finds four heads (11 R235, R246). -/
def reqRests (s : State) (n : Nat) (r : BagReq) : Bool :=
  r.after.isSome || !mayTake s n r || (match r.ask with
    | .take c _ _ _ => 4 ≤ (s.chan c).heads.length
    | _ => false)

/-- Whether a team that is to be suspended has come to rest: what it issued before is performed or waits for what is saved
as not performed (07 R164, 08 R180, 10 R216, 11 R250, 13 R288), and its channels rest. A function's reset writes no image
(15 R337). -/
def teamRests (s : State) (id : TeamId) (tm : Team) : Bool :=
  match tm.suspendAt with
  | none => false
  | some esc =>
    tm.st = .running && tm.commit = 0 && (!esc || tm.halted) && !(s.func tm.func).resetting
      && (teamHands s id).all (fun h => match aget h s.hands with
        | some hd => queueRests s h hd
        | none => true)
      && (((List.range s.bagReqs.length).zip s.bagReqs).all fun e => e.2.thread.team ≠ id || reqRests s e.1 e.2)
      && (s.runs.all fun e => e.2.team ≠ id || e.2.ops ≠ [])
      && (s.holds.all fun h => h.2.team ≠ id)
      && (s.mats.all fun m => m.2.jobs.all fun j => j.thread.team ≠ id)
      && ((teamChans id tm).all fun c => chanRests s id esc (s.chan c))
      && s.focus = .none

/-! ## What an image holds -/

/-- The limit of a record goes: it issues as it may on resume. -/
def Job.unlimit : Job → Job
  | .chain x => .chain { x with recs := x.recs.map fun r => { r with limit := none } }
  | .take t => .take { t with limit := none }

/-- The jobs of a team on its channels, by place of the quadrant and number of the channel. -/
def savedJobs (s : State) (id : TeamId) (tm : Team) (new : TeamId) : List (Nat × Nat × List Job) :=
  ((List.range tm.quads.length).zip tm.quads).flatMap fun q => (List.range 4).map fun i =>
    let c := s.chan ⟨⟨id.die, id.core, q.2⟩, i⟩
    (q.1, i, (c.jobs.filter fun j => j.team = id).map fun j => (j.rename new).unlimit)

/-- The accumulators of the quadrants whose matrix unit a team owns, and those of an earlier image that it has not become
owner of since (10 R207). -/
def savedAccs (s : State) (id : TeamId) (tm : Team) : List (Nat × List (Nat × AccTile)) :=
  ((List.range tm.quads.length).zip tm.quads).filterMap fun q =>
    let m := s.mat ⟨id.die, id.core, q.2⟩
    if m.owner = some id then some (q.1, m.accs) else (aget q.1 tm.accs).map fun a => (q.1, a)

/-- A thread as it is saved: one that waits for a tile waits again on resume (15 R345). -/
def Thread.saved (t : Thread) : Thread :=
  match t.run with
  | .blocked (.tile _ _ _) => { t with run := .stalled }
  | _ => t

/-- A team's image. -/
def saveTeam (s : State) (id : TeamId) (tm : Team) (new : TeamId) (next : Nat) : Saved where
  team := { tm with st := .suspended, debug := tm.debug || (s.core (coreOf id)).halt }
  id := new
  threads := (s.threads.filter fun e => e.1.team = id).map fun e => (renameThread id new e.1, e.2.saved)
  hands := (s.hands.filter fun e => e.1.team = id).map fun e => ({ e.1 with team := new }, e.2)
  jobs := savedJobs s id tm new
  frozen := ((List.range tm.quads.length).zip tm.quads).flatMap fun q => ((List.range 4).filter fun i =>
    (s.chan ⟨⟨id.die, id.core, q.2⟩, i⟩).frozen.contains id).map fun i => (q.1, i)
  incomp := ((List.range tm.quads.length).zip tm.quads).flatMap fun q => (List.range 4).flatMap fun i =>
    ((s.chan ⟨⟨id.die, id.core, q.2⟩, i⟩).incomp.filter fun x => x.1 = id).map fun x => (q.1, i, x.2)
  accs := savedAccs s id tm
  tiles := tm.tiles.map fun t => agetD t 0 (s.core (coreOf id)).tiles
  scratch := s.spBytes id tm 0 tm.scratch
  poison := (List.range (tm.scratch / 8)).filter fun w => s.mem.spPoison.contains (tm.spKey id (8 * w) / 8)
  next := next
  held := []
  later := []
  abort := false
  image := []
  left := []
  asked := none
  refused := false
  dom := teamRec s id { code := 0, acc := 2 } false 0 8
  msg := none

/-! ## The bytes of an image (15 R344) -/

/-- Bytes of the B8's own, whose layout the spec does not give (DESIGN CHOICE, notes/assumptions/108.md). -/
def openBytes (s : State) (i n : Nat) : List Byte := bytesOfNat n (Config.freeValue (64 + i) s.tick)

/-- A section starts on a 64-byte boundary: what fills the one before it up is the B8's own. -/
def fillUp (s : State) (i : Nat) (bs : List Byte) : List Byte := bs ++ openBytes s i ((64 - bs.length % 64) % 64)

/-- An entry of the deterministic store buffer as an image holds it (13 R289). -/
def DetEntry.image (e : DetEntry) : Nat :=
  e.addr % 2 ^ 29 + e.bmask.toNat * 2 ^ 42 + e.opx % 2 ^ 4 * 2 ^ 50 + e.kind % 2 ^ 4 * 2 ^ 54 + e.lane % 2 ^ 6 * 2 ^ 58
    + e.data.toNat * 2 ^ 64

/-- The section of a hand: its threads' states, the registers, lane-major, the full/empty bits, and its stack cache and
deterministic store buffer. -/
def handSection (s : State) (id : TeamId) (tm : Team) (h : Nat) : List Byte :=
  let ts := (List.range tm.w).filterMap fun l => aget ⟨id, h, l⟩ s.threads
  let regs := ts.flatMap fun t => t.regs.flatMap fun r => bytesOfNat 4 r.toNat
  let full := ts.flatMap fun t => bytesOfNat (tm.regs / 8) (t.full.foldr (fun b m => 2 * m + b.toNat) 0)
  let buf := ((aget ⟨id, h⟩ s.hands).elim [] Hand.detBuf).flatMap fun e => bytesOfNat 16 e.image
  fillUp s (4 + 4 * h) (openBytes s (5 + 4 * h) (64 * tm.w) ++ regs ++ full ++ openBytes s (6 + 4 * h) 16384 ++ buf
    ++ openBytes s (7 + 4 * h) (16384 - buf.length))

/-- The accumulator section of a quadrant: its tags, and ac0 to ac3. -/
def accSection (accs : List (Nat × AccTile)) : List Byte :=
  let as := (List.range 4).map fun n => agetD n AccTile.reset accs
  (List.range 64).map (fun n => BitVec.ofNat 8 ((as[n]?).elim 0 (·.tag))) ++ as.flatMap AccTile.raw

/-- The sections of an image. -/
def imageBody (s : State) (id : TeamId) (tm : Team) (sv : Saved) : List Byte :=
  openBytes s 0 512 ++ (List.range tm.hands).flatMap (handSection s id tm) ++ openBytes s 1 (4 * tm.quads.length * 8192)
    ++ fillUp s 2 (sv.tiles.flatMap fun e => bytesOfNat 8 e.toNat)
    ++ (if sv.accs = [] then [] else (List.range tm.quads.length).flatMap fun q => accSection (agetD q [] sv.accs))
    ++ fillUp s 3 sv.scratch

/-- The header of an image of n bytes. -/
def imageHeader (s : State) (tm : Team) (acc esc : Bool) (next n : Nat) : Nat :=
  s.fab.time % 2 ^ 64 + next * 2 ^ 64 + tm.tiles.length * 2 ^ 313 + tm.scratch * 2 ^ 320
    + (if esc then 2 ^ 362 else 0) + (if acc then 2 ^ 363 else 0) + tm.quads.length * 2 ^ 364
    + (match tm.w with
      | 32 => 0
      | 16 => 1
      | _ => 2) * 2 ^ 367 + tm.regs / 8 * 2 ^ 369 + tm.hands * 2 ^ 377 + n % 2 ^ 32 * 2 ^ 384
    + tm.index % 2 ^ 32 * 2 ^ 416 + tm.node * 2 ^ 448

/-- The image of a team. -/
def imageBytes (s : State) (id : TeamId) (tm : Team) (sv : Saved) : List Byte :=
  let body := imageBody s id tm sv
  bytesOfNat 64 (imageHeader s tm (sv.accs ≠ []) (tm.suspendAt = some true) sv.next (64 + body.length)) ++ body

/-- The pieces in which an image at an address is written: those of one DRAM row each. -/
def imagePieces (addr : Nat) (bs : List Byte) : List (Nat × List Byte) :=
  (pieces 1024 (bs.length / 1024 + 2) addr bs.length).map fun p => (p.1, (bs.drop (p.1 - addr)).take p.2)

/-- A team is saved, and leaves its core; its image is still to be written at an address of its context pool. -/
def suspendTeam (s : State) (id : TeamId) (tm : Team) (addr next : Nat) : State :=
  let new : TeamId := ⟨8, 0, s.nextId⟩
  let sv := saveTeam s id tm new next
  let bs := imageBytes s id tm sv
  let s2 := renameRefs (countStay { s with nextId := s.nextId + 1, tick := s.tick + 1 } tm) id new true
  let s3 := freeTeam s2 id tm
  { s3 with saved := s3.saved ++ [(addr, { sv with image := bs, left := imagePieces addr bs })] }

/-! ## Coming back -/

/-- The jobs of a channel go to that channel of the team's new place. Where it serves other teams, the spec does not say
where they go: they come after what it runs and what other teams have brought back, and before its kick queue (DESIGN CHOICE,
notes/assumptions/116.md). -/
def giveJobs (s : State) (id : TeamId) (tm : Team) (e : Nat × Nat × List Job) : State :=
  s.modChan ⟨⟨id.die, id.core, tm.quads.getD e.1 0⟩, e.2.1⟩ fun c => { c with back := c.back ++ e.2.2.map (Job.rename id) }

/-- The calls and writes that were held for a team are made, once (12 R273, 15 R345). -/
def applyHeld (s : State) (id : TeamId) (sv : Saved) : State :=
  let s1 := sv.held.foldl (fun s h => landed s id h.1 h.2) s
  s1.runs.foldl (fun s e =>
    if e.2.team = id then
      let s2 := iter (fun s => runLanded s e.2 1) e.2.heldN (s.modRun e.1 fun r => { r with heldN := 0 })
      match aget e.1 s2.runs with
      | some r => if r.heldSt then writeStatus s2 e.1 r else closeRun s2 e.1
      | none => s2
    else s) s1

/-- A RESUME or RESUME.NEXT for lanes of a hand (14 R325). -/
def resumeLanes (s : State) (id : TeamId) (hand : Nat) (m : BitVec 64) (next : Bool) : State :=
  (lanesOf m 64).foldl (fun s l => resumeThread s ⟨id, hand, l⟩ next) s

/-- Every thread of a team that has not exited ends, as EXIT ends it, and the team drains under 04 R59: its chains run on,
and what a halt has limited goes on (14 R325, 09 R183). -/
def abortTeam (s : State) (id : TeamId) : State :=
  match aget id s.teams with
  | none => s
  | some tm =>
    let s1 := (teamThreads s id).foldl exitThread s
    let s2 := (teamChans id tm).foldl (fun s c => s.modChan c fun ch =>
      let go := fun (j : Job) => if j.team = id then j.unlimit else j
      { ch with run := ch.run.map go, back := ch.back.map go }) s1
    let s3 := s2.modTeam id fun tm => { tm with halted := false, suspendAt := none, commit := 0, live := 0 }
    let s4 := match tm.st with
      | .staging => startDrain (s3.modTeam id fun tm => { tm with ranNever := true }) id
      | .running => openChecks s3 id
      | _ => s
    setNode s4 tm.queue tm.node tm.node fun n => { n with abrt := true }

/-- The takes of a team that wait for a place go to the channels of its new quadrants. -/
def moveTakes (s : State) (id : TeamId) : State :=
  { s with bagReqs := s.bagReqs.map fun r =>
      if r.thread.team = id then
        match r.ask with
        | .take c b off d => { r with ask := .take (ownChan s r.thread c.ch) b off d }
        | _ => r
      else r }

/-- A team whose image has been changed resumes with register and scratchpad contents that the spec leaves undefined. -/
def Saved.scrambled (sv : Saved) (s : State) : Saved :=
  let word (i : Nat) : Word := BitVec.ofNat 32 (Config.freeValue (1024 + i) s.tick)
  { sv with
    threads := ((List.range sv.threads.length).zip sv.threads).map fun e => (e.2.1, { e.2.2 with
      regs := (List.range e.2.2.regs.length).map fun i => word (256 * e.1 + i) })
    scratch := openBytes s 3 sv.scratch.length }

/-- A team comes back from its image to a place on a core (15 R345); a debugger's halt comes back with it (R351). -/
def restoreTeam (s : State) (sv : Saved) (id : TeamId) (quads banks : List Nat) (start : Nat) (tiles : List Nat) : State :=
  let tm := { sv.team with
    quads := quads, banks := banks, start := start, tiles := tiles, st := .running, halted := false, suspendAt := none,
    accs := sv.accs, resumed := true, placedAt := s.cycle, countedAt := s.cycle }
  let quad (h : Nat) : Nat := quads.getD (h % max quads.length 1) 0
  let s1 := { s with
    teams := aset id tm s.teams
    threads := s.threads ++ sv.threads.map fun (e : ThreadKey × Thread) => ({ e.1 with team := id }, e.2)
    hands := s.hands ++ sv.hands.map fun (e : HandKey × Hand) => ({ e.1 with team := id }, { e.2 with quad := quad e.1.hand })
    saved := s.saved.filter fun e => e.2.id ≠ sv.id }
  let s2 := s1.spWrite id tm 0 sv.scratch
  let s3 := { s2 with mem := { s2.mem with
    spPoison := s2.mem.spPoison ++ sv.poison.map fun w => tm.spKey id (8 * w) / 8 } }
  let s4 := s3.modCore (coreOf id) fun c =>
    { c with tiles := (tiles.zip sv.tiles).foldl (fun m (e : Nat × BitVec 64) => if e.2 = 0 then adel e.1 m else aset e.1 e.2 m) c.tiles }
  let s6 := sv.frozen.foldl (fun s f => s.modChan ⟨⟨id.die, id.core, quads.getD f.1 0⟩, f.2⟩ fun c =>
    { c with frozen := c.frozen ++ [id] }) s4
  let s7 := sv.incomp.foldl (fun s f => s.modChan ⟨⟨id.die, id.core, quads.getD f.1 0⟩, f.2.1⟩ fun c =>
    { c with incomp := c.incomp ++ [(id, f.2.2)] }) s6
  let s8 := sv.jobs.foldl (fun s e => giveJobs s id tm e) s7
  let s9 := applyHeld (moveTakes (renameRefs s8 sv.id id false) id) id sv
  let s10 := sv.later.foldl (fun s e => resumeLanes s id e.2.1 e.2.2 e.1) s9
  openChecks (if sv.abort then abortTeam s10 id else s10) id

end Sys2Proof.Machine
end

