-- ==== Sys2Proof/Machine/Sha256.lean ====
section
/-! DEFINITION. SHA-256 over bytes, for the hash of a collective's tree (16 R363). -/

namespace Sys2Proof.Machine

/-- The round constants: the first 32 fraction bits of the cube roots of the first 64 primes. -/
def shaK : List Word :=
  [0x428A2F98, 0x71374491, 0xB5C0FBCF, 0xE9B5DBA5, 0x3956C25B, 0x59F111F1, 0x923F82A4, 0xAB1C5ED5] ++
  [0xD807AA98, 0x12835B01, 0x243185BE, 0x550C7DC3, 0x72BE5D74, 0x80DEB1FE, 0x9BDC06A7, 0xC19BF174] ++
  [0xE49B69C1, 0xEFBE4786, 0x0FC19DC6, 0x240CA1CC, 0x2DE92C6F, 0x4A7484AA, 0x5CB0A9DC, 0x76F988DA] ++
  [0x983E5152, 0xA831C66D, 0xB00327C8, 0xBF597FC7, 0xC6E00BF3, 0xD5A79147, 0x06CA6351, 0x14292967] ++
  [0x27B70A85, 0x2E1B2138, 0x4D2C6DFC, 0x53380D13, 0x650A7354, 0x766A0ABB, 0x81C2C92E, 0x92722C85] ++
  [0xA2BFE8A1, 0xA81A664B, 0xC24B8B70, 0xC76C51A3, 0xD192E819, 0xD6990624, 0xF40E3585, 0x106AA070] ++
  [0x19A4C116, 0x1E376C08, 0x2748774C, 0x34B0BCB5, 0x391C0CB3, 0x4ED8AA4A, 0x5B9CCA4F, 0x682E6FF3] ++
  [0x748F82EE, 0x78A5636F, 0x84C87814, 0x8CC70208, 0x90BEFFFA, 0xA4506CEB, 0xBEF9A3F7, 0xC67178F2]

/-- The initial state: the first 32 fraction bits of the square roots of the first 8 primes. -/
def shaInit : List Word :=
  [0x6A09E667, 0xBB67AE85, 0x3C6EF372, 0xA54FF53A, 0x510E527F, 0x9B05688C, 0x1F83D9AB, 0x5BE0CD19]

def shaRotr (x : Word) (n : Nat) : Word := x.rotateRight n

/-- The message schedule, newest word first, extended by n words. -/
def shaExtend : Nat → List Word → List Word
  | 0, ws => ws
  | n + 1, ws =>
    let a := ws.getD 14 0
    let b := ws.getD 1 0
    let s0 := shaRotr a 7 ^^^ shaRotr a 18 ^^^ (a >>> 3)
    let s1 := shaRotr b 17 ^^^ shaRotr b 19 ^^^ (b >>> 10)
    shaExtend n ((ws.getD 15 0 + s0 + ws.getD 6 0 + s1) :: ws)

/-- One round. -/
def shaRound (h : List Word) (kw : Word × Word) : List Word :=
  let a := h.getD 0 0
  let e := h.getD 4 0
  let s1 := shaRotr e 6 ^^^ shaRotr e 11 ^^^ shaRotr e 25
  let ch := (e &&& h.getD 5 0) ^^^ (~~~ e &&& h.getD 6 0)
  let t1 := h.getD 7 0 + s1 + ch + kw.1 + kw.2
  let s0 := shaRotr a 2 ^^^ shaRotr a 13 ^^^ shaRotr a 22
  let maj := (a &&& h.getD 1 0) ^^^ (a &&& h.getD 2 0) ^^^ (h.getD 1 0 &&& h.getD 2 0)
  [t1 + s0 + maj, a, h.getD 1 0, h.getD 2 0, h.getD 3 0 + t1, e, h.getD 5 0, h.getD 6 0]

/-- Big-endian words of bytes. -/
def shaWords : List Byte → List Word
  | a :: b :: c :: d :: t => (a ++ b ++ c ++ d) :: shaWords t
  | _ => []

/-- Takes in one block of 16 words. -/
def shaBlock (h : List Word) (ws : List Word) : List Word :=
  let w := (shaExtend 48 ws.reverse).reverse
  (h.zip ((shaK.zip w).foldl shaRound h)).map fun x => x.1 + x.2

/-- Takes in n blocks. -/
def shaBlocks : Nat → List Word → List Word → List Word
  | 0, h, _ => h
  | n + 1, h, ws => shaBlocks n (shaBlock h (ws.take 16)) (ws.drop 16)

/-- SHA-256; the first byte of the digest is the most significant. -/
def sha256 (bs : List Byte) : BitVec 256 :=
  let zeros := (119 - bs.length % 64) % 64
  let len := bytesOfNat 8 (8 * bs.length)
  let ws := shaWords (bs ++ [0x80#8] ++ List.replicate zeros 0 ++ len.reverse)
  BitVec.ofNat 256 ((shaBlocks (ws.length / 16) shaInit ws).foldl (fun n w => n * 2 ^ 32 + w.toNat) 0)

end Sys2Proof.Machine
end

