-- ==== Sys2Proof/Machine/Collectives.lean ====
section
/-! DEFINITION. Collectives (16 R358 to R368): blocks, trees, the combination of contributions in listed order, and the end
of a rank. -/

namespace Sys2Proof.Machine

/-! ## The block (16 R358) -/

def Rank.f (r : Rank) (hi lo : Nat) : Nat := bits r.blk.toNat hi lo
def Rank.treeVa (r : Rank) : Nat := r.f 511 448
def Rank.sbuf (r : Rank) : Nat := r.f 447 384
def Rank.rbuf (r : Rank) : Nat := r.f 383 320
def Rank.opid (r : Rank) : Nat := r.f 319 256
def Rank.count (r : Rank) : Nat := r.f 255 224
def Rank.nrank (r : Rank) : Nat := r.f 223 200
def Rank.me (r : Rank) : Nat := r.f 199 176
def Rank.bb (r : Rank) : Nat := r.f 175 155
def Rank.bben (r : Rank) : Bool := r.f 154 154 = 1
def Rank.opc (r : Rank) : Nat := r.f 147 144

/-- Bytes of an element. -/
def Rank.esz (r : Rank) : Nat := if r.opc = 1 then 2 else 4
/-- Chunks of 4,096 bytes of elements (16 R362). -/
def Rank.chunks (r : Rank) : Nat := (r.count * r.esz + 4095) / 4096
/-- Bytes of a chunk. -/
def Rank.chunkLen (r : Rank) (k : Nat) : Nat := min 4096 (r.count * r.esz - 4096 * k)

/-- Whether a block is malformed in a team with a scratchpad of so many bytes. -/
def Rank.malformed (r : Rank) (scratch : Nat) : Bool :=
  r.f 153 148 ≠ 0 || r.f 143 0 ≠ 0 || 6 < r.opc || r.count = 0 || 2 ^ 28 < r.count || r.nrank = 0 || 4194304 < r.nrank
    || r.nrank ≤ r.me || r.treeVa % 16 ≠ 0 || r.sbuf % r.esz ≠ 0 || r.rbuf % r.esz ≠ 0 || r.bb % 16 ≠ 0
    || !canonical (BitVec.ofNat 64 r.treeVa) || !canonical (BitVec.ofNat 64 r.sbuf) || !canonical (BitVec.ofNat 64 r.rbuf)
    || (r.bben && scratch < r.bb + 16)

/-! ## Combining (16 R361) -/

/-- combine of an operation. -/
def joinElem (opc : Nat) (x y : Word) : Word :=
  match opc with
  | 0 => BitVec.ofNat 32 (fpAdd fp32 .rn x.toNat y.toNat)
  | 1 => BitVec.ofNat 32 (fpAdd bf16 .rn (x.toNat % 65536) (y.toNat % 65536))
  | 2 => x + y
  | 3 => BitVec.ofNat 32 (fpMin fp32 x.toNat y.toNat)
  | 4 => BitVec.ofNat 32 (fpMax fp32 x.toNat y.toNat)
  | 5 => if x.slt y then x else y
  | _ => if x.slt y then y else x

/-- The elements that bytes hold. -/
def elemsOf (esz n : Nat) (bs : List Byte) : List Word :=
  (List.range n).map fun i => BitVec.ofNat 32 (natOfBytes ((bs.drop (esz * i)).take esz))

/-- The bytes of elements. -/
def bytesOfElems (esz : Nat) (ws : List Word) : List Byte := ws.flatMap fun w => bytesOfNat esz w.toNat

/-! ## The tree (16 R359, R360) -/

/-- An entry of the tree array. -/
structure TreeEntry where
  node : Nat
  func : Nat
  parent : Nat
  nchild : Nat
  chidx : Nat
  bad : Bool
deriving DecidableEq, Repr

def treeEntryOf (v : Nat) : TreeEntry :=
  ⟨bits v 127 106, bits v 105 99, bits v 95 72, bits v 71 64, bits v 63 32, bits v 98 96 ≠ 0 || bits v 31 0 ≠ 0⟩

/-- The entries of the tree array's bytes. -/
def treeEntries (n : Nat) (bs : List Byte) : List TreeEntry :=
  (List.range n).map fun i => treeEntryOf (natOfBytes ((bs.drop (16 * i)).take 16))

/-- Words of the child array: up to the last that an entry names. -/
def childCount (es : List TreeEntry) : Nat := es.foldl (fun m e => if e.nchild = 0 then m else max m (e.chidx + e.nchild)) 0

/-- The children that an entry lists. -/
def childrenOf (cs : List Word) (e : TreeEntry) : List Nat :=
  ((cs.drop e.chidx).take e.nchild).map fun c => c.toNat % 2 ^ 24

/-- The ranks reached in n levels from a set. -/
def treeReach (es : List TreeEntry) (cs : List Word) : Nat → List Nat → List Nat
  | 0, rs => rs
  | n + 1, rs =>
    let new := (rs.flatMap fun r => match es[r]? with
      | some e => childrenOf cs e
      | none => []).filter fun c => !rs.contains c
    if new = [] then rs else treeReach es cs n (rs ++ new.dedup)

/-- Whether a tree is refused. -/
def treeBad (r : Rank) (node : Nat) (es : List TreeEntry) (cs : List Word) : Bool :=
  let n := es.length
  let ranks := List.range n
  let roots := ranks.filter fun i => match es[i]? with
    | some e => e.parent = 2 ^ 24 - 1
    | none => false
  let listed := es.flatMap (childrenOf cs)
  es.any (·.bad) || (cs.any fun c => 2 ^ 24 ≤ c.toNat) || roots.length ≠ 1 || !listed.Nodup
    || (ranks.zip es).any (fun (e : Nat × TreeEntry) => (childrenOf cs e.2).any fun c => match es[c]? with
      | some x => x.parent ≠ e.1
      | none => true)
    || ranks.any (fun i => !(treeReach es cs n roots).contains i)
    || (match es[r.me]? with
      | some e => e.node ≠ node || e.func ≠ r.func
      | none => true)

/-! ## A rank's progress -/

/-- The core and slot of a rank name it. -/
def Rank.key (r : Rank) : CoreId × Nat := (r.core, r.slot)

def setRank (s : State) (r : Rank) : State := { s with ranks := s.ranks.map fun x => if x.key = r.key then r else x }

/-- The fault record of a rank's engine. -/
def rankRec (s : State) (r : Rank) (f : FaultInfo) (wait : Bool) (page : Nat) : FaultRec :=
  let base := match r.team with
    | some t => match s.saved.find? fun (e : Nat × Saved) => e.2.id = t with
      | some e => { teamRec s t f wait page 6 with
        team := e.2.team.index, wcb := e.2.team.node, func := e.2.team.func, homeDie := e.2.team.homeDie
        fq := e.2.team.eff.fq, msix := e.2.team.eff.msix }
      | none => teamRec s t f wait page 6
    | none => teamRec s ⟨r.core.die, r.core.core, 0⟩ f wait page 6
  { base with die := r.core.die, core := r.core.core }

/-- A rank fails (16 R364): it will end with the code. -/
def failRank (s : State) (r : Rank) (code : Nat) : State := setRank s { r with code := code }

/-- A rank fails with a final record. -/
def failTold (s : State) (r : Rank) (code va acc : Nat) : State :=
  failRank (sendFault s (rankRec s r { code := code, faddr := BitVec.ofNat 64 va, acc := acc } false 0)) r code

/-- An access of a rank has no place: it waits, and the dealer is told once where it must answer; or the rank fails. -/
def rankStuck (s : State) (r : Rank) (m : Miss) (acc : Nat) : State :=
  match m.xl with
  | .dealer code page =>
    if r.asked.contains (page, code) && faultOpen s r.func page code 6 then s
    else sendFault (setRank s { r with asked := r.asked ++ [(page, code)] })
      (rankRec s r { code := code, faddr := BitVec.ofNat 64 m.va, acc := acc } true page)
  | .final code => failTold (m.note s r.func) r code m.va acc
  | _ => m.note s r.func

/-- Whether a module of the tree is lost or unreachable, with the code. -/
def lostPeer (s : State) (nodes : List (Nat × Nat)) : Option Nat :=
  if nodes.any fun n => s.fab.lost.contains n.2 then some 0x14 else none

/-- Whether a rank's job is folded: its packets then stay at the link (15 R350, 16 R365). -/
def rankFolded (s : State) (r : Rank) : Bool :=
  match aget r.queue s.trees with
  | some t => folded s t
  | none => false

/-- Reads more of the tree and child arrays, one DRAM row after the other, up to n bytes in all. -/
def readMore (s : State) (r : Rank) (n : Nat) : State × Rank × Option Miss :=
  let at_ := r.raw.length
  (pieces 1024 ((n - at_) / 1024 + 2) (r.treeVa + at_) (n - at_)).foldl (fun x p =>
    match x with
    | (s, r, none) =>
      (match virtRead s r.func p.1 p.2 .read (rankFolded s r) with
      | .ok (s1, bs) => (s1, { r with raw := r.raw ++ bs }, none)
      | .error m => (s, r, some m))
    | y => y) (s, r, none)

/-- The tree as it has been read. -/
def Rank.entries (r : Rank) : List TreeEntry := treeEntries r.nrank (r.raw.take (16 * r.nrank))
/-- Bytes of the tree and child arrays, once the tree array has been read. -/
def Rank.treeLen (r : Rank) : Nat := 16 * r.nrank + 4 * childCount r.entries

/-- The engine validates the tree that it has read (16 R360). -/
def takeTree (s : State) (r0 : Rank) : State :=
  let es := r0.entries
  let cs := elemsOf 4 (childCount es) (r0.raw.drop (16 * r0.nrank))
  let r := { r0 with hash := sha256 r0.raw }
  if treeBad r s.fab.node es cs then failTold s r 0x21 r.treeVa 1
  else
    let e := es.getD r.me ⟨0, 0, 0, 0, 0, false⟩
    let r1 := { r with
      parent := if e.parent = 2 ^ 24 - 1 then none else some e.parent
      children := childrenOf cs e
      nodes := (List.range es.length).zip (es.map (·.node))
      funcs := (List.range es.length).zip (es.map (·.func))
      tree := true }
    match lostPeer s r1.nodes with
    | some c => failTold s r1 c 0 1
    | none => setRank s r1

/-- The engine reads the tree and its child array, and validates. -/
def readTree (s : State) (r : Rank) : State :=
  match readMore s r (16 * r.nrank) with
  | (s1, r1, some m) => rankStuck (setRank s1 r1) r1 m 1
  | (s1, r1, none) =>
    match readMore s1 r1 r1.treeLen with
    | (s2, r2, some m) => rankStuck (setRank s2 r2) r2 m 1
    | (s2, r2, none) => takeTree (setRank s2 r2) r2

/-- The engine reads the rank's own contribution to a chunk from SBUF. -/
def readChunk (key : CoreId × Nat) (s : State) (k : Nat) : State :=
  match s.ranks.find? fun r => r.key = key with
  | none => s
  | some r =>
    if r.code ≠ 0 || (aget k r.acc).isSome then s
    else match virtRead s r.func (r.sbuf + 4096 * k) (r.chunkLen k) .read (rankFolded s r) with
      | .error m => rankStuck s r m 1
      | .ok (s1, bs) => setRank s1 { r with acc := aset k (elemsOf r.esz (r.chunkLen k / r.esz) bs) r.acc }

/-- A rank of this module by its function, operation and number. -/
def localRank (s : State) (fn opid me : Nat) : Option Rank :=
  s.ranks.find? fun r => r.func = fn && r.opid = opid && r.me = me

/-- A child of a rank that this module runs. -/
def Rank.localChild (r : Rank) (s : State) (c : Nat) : Option Rank :=
  if agetD c (s.fab.node + 1) r.nodes ≠ s.fab.node then none else localRank s (agetD c r.func r.funcs) r.opid c

/-- Whether two ranks, or a rank and a message, name one collective. -/
def sameColl (r : Rank) (opid opc count nrank : Nat) (hash : BitVec 256) : Bool :=
  r.opid = opid && r.opc = opc && r.count = count && r.nrank = nrank && r.hash = hash

/-- What a child has sent of a chunk: from a rank of this module, or from a message that is held. -/
def fromChild (s : State) (r : Rank) (c k : Nat) : Option (List Word) :=
  match r.held.find? fun m => m.sender = c && m.chunk = k with
  | some m => some (elemsOf r.esz (r.chunkLen k / r.esz) m.data)
  | none =>
    match r.localChild s c with
    | some x => if x.sent.contains k && x.code = 0 && sameColl x r.opid r.opc r.count r.nrank r.hash then aget k x.acc else none
    | none => none

/-- Combines a chunk with the children that come next, as far as their contributions are there; fuel: the children. -/
def combineChunk : Nat → State → Rank → Nat → Rank
  | 0, _, r, _ => r
  | fuel + 1, s, r, k =>
    let i := agetD k 0 r.next
    match if (aget k r.acc).isSome then r.children[i]? else none with
    | none => r
    | some c =>
      match fromChild s r c k with
      | none => r
      | some ws =>
        combineChunk fuel s { r with
          acc := aset k (((agetD k [] r.acc).zip ws).map fun p => joinElem r.opc p.1 p.2) r.acc
          next := aset k (i + 1) r.next
          held := r.held.filter fun m => !(m.sender = c && m.chunk = k) } k

/-- A chunk that every child has joined goes up; at the root it is final. -/
def passUp (r : Rank) (k : Nat) : Rank :=
  if (aget k r.acc).isSome && agetD k 0 r.next = r.children.length && !r.sent.contains k then
    { r with sent := r.sent ++ [k], fin := if r.parent.isNone then r.fin ++ [k] else r.fin }
  else r

/-- The final values of a chunk go to a child of this module. -/
def giveFinal (r : Rank) (k : Nat) (s : State) (c : Nat) : State :=
  match r.localChild s c with
  | some x =>
    if x.tree && x.code = 0 && x.sent.contains k && !x.fin.contains k then
      setRank s { x with acc := aset k (agetD k [] r.acc) x.acc, fin := x.fin ++ [k] }
    else s
  | none => s

/-- A chunk of the result is written to RBUF. -/
def writeResult (s : State) (key : CoreId × Nat) (k : Nat) : State :=
  match s.ranks.find? fun r => r.key = key with
  | none => s
  | some r =>
    if r.code ≠ 0 || r.wrote.contains k then s
    else match virtWrite s r.func (r.rbuf + 4096 * k) (bytesOfElems r.esz (agetD k [] r.acc)) (rankFolded s r) with
      | .error m => rankStuck s r m 2
      | .ok s1 => setRank s1 { r with wrote := r.wrote ++ [k] }

/-- Whether a rank of this module has sent a contribution to another, which it takes for its parent. -/
def Rank.sendsTo (x : Rank) (s : State) (r : Rank) : Bool :=
  x.key ≠ r.key && x.opid = r.opid && x.sent ≠ [] && x.parent = some r.me && aget r.me x.nodes = some s.fab.node &&
    aget r.me x.funcs = some r.func

/-- A rank of this module that names the operation and differs in it, a child or one that takes this rank for its parent: both
sides are refused (16 R360). -/
def clash (s : State) (r : Rank) : Option Rank :=
  let differs (x : Rank) : Bool := x.tree && x.code = 0 && !sameColl x r.opid r.opc r.count r.nrank r.hash
  match r.children.findSome? fun c => (r.localChild s c).filter differs with
  | some x => some x
  | none => s.ranks.find? fun x => x.sendsTo s r && differs x

/-- A rank goes on as far as it can. -/
def advanceRank (s : State) (key : CoreId × Nat) : State :=
  match s.ranks.find? fun r => r.key = key with
  | none => s
  | some r0 =>
    let s1 := if r0.code = 0 && !r0.tree then readTree s r0 else s
    let s0 := match s1.ranks.find? fun r => r.key = key with
      | some r => if r.code = 0 && r.tree then (List.range r.chunks).foldl (readChunk key) s1 else s1
      | none => s1
    match s0.ranks.find? fun r => r.key = key with
    | none => s0
    | some r =>
      if r.code ≠ 0 || !r.tree then s0
      else match clash s0 r with
        | some x => failTold (failTold s0 x 0x21 0 1) r 0x21 0 1
        | none =>
          let r1 := (List.range r.chunks).foldl (fun r k => passUp (combineChunk r.children.length s0 r k) k) r
          let s1 := setRank s0 r1
          let s2 := r1.fin.foldl (fun s k => r1.children.foldl (giveFinal r1 k) s) s1
          r1.fin.foldl (fun s k => writeResult s key k) s2

/-! ## COLL, COLLQ and COLLQ.WAIT (16 R367, R368) -/

/-- A slot of a core. -/
def collSlot (s : State) (c : CoreId) (i : Nat) : CollSlot := agetD (c, i) ⟨0, 0, 0, none⟩ s.collSlots

/-- A rank that has just been accepted. -/
def newRank (c : CoreId) (slot : Nat) (id : TeamId) (tm : Team) (blk : BitVec 512) : Rank where
  core := c
  slot := slot
  team := some id
  func := tm.func
  queue := tm.queue
  blk := blk
  parent := none
  children := []
  nodes := []
  funcs := []
  raw := []
  asked := []
  hash := 0
  acc := []
  got := []
  next := []
  held := []
  tree := false
  sent := []
  fin := []
  wrote := []
  code := 0

/-- COLL (16 R367). -/
def execColl (g : Guard) (d : BitVec 8) (a : Src) (off : Word) (s : State) : Out :=
  .next (runLanes s ⟨g, srcOp a false, noOp, noOp, [(d, false)]⟩ fun k v s => inTeam s k fun tm =>
    let b := memAddr v.a off
    let c := coreOf k.team
    if b % 64 ≠ 0 then .fault { code := 0x09, faddr := BitVec.ofNat 64 b, acc := 1 }
    else if tm.scratch < b + 64 then .fault { code := 0x08, faddr := BitVec.ofNat 64 b, acc := 1 }
    else match (List.range 16).find? fun i => (collSlot s c i).state = 0 with
      | none => .wait s
      | some i =>
        let gen := ((collSlot s c i).gen + 1) % 2 ^ 28
        let r := newRank c i k.team tm (BitVec.ofNat 512 (s.spNat k.team tm b 64))
        if s.spPoisoned k.team tm b 64 then .fault { code := 0x15, faddr := BitVec.ofNat 64 b, acc := 1 }
        else if r.malformed tm.scratch then .fault { code := 0x1B, faddr := BitVec.ofNat 64 b, spoff := b }
        else
          let s1 := { s with
            collSlots := aset (c, i) ⟨gen, 1, 0, some k.team⟩ s.collSlots
            ranks := s.ranks ++ [r] }
          putReg d false (BitVec.ofNat 64 (gen * 16 + i)) k (advanceRank s1 (c, i)))

/-- The slot that a team holds by a ticket. -/
def ticketSlot (s : State) (id : TeamId) (t : Nat) : Option ((CoreId × Nat) × CollSlot) :=
  s.collSlots.find? fun e => e.1.2 = t % 16 && e.2.gen = t / 16 && e.2.state ≠ 0 && e.2.team = some id

/-- The status word of a ticket. -/
def CollSlot.status (x : CollSlot) : Nat := x.state * 2 ^ 30 + x.code % 256

/-- COLLQ (16 R368): the status at once; a ticket that has ended gives its slot back. -/
def execCollq (g : Guard) (d : BitVec 8) (a : Src) (s : State) : Out :=
  .next (runLanes s ⟨g, srcOp a false, noOp, noOp, [(d, false)]⟩ fun k v s => inTeam s k fun tm =>
    if tm.detMode then .fault { code := 0x0D }
    else match ticketSlot s k.team (v.a.toNat % 2 ^ 32) with
      | none => .done (produce s k d false (.value 0))
      | some (key, x) => .done (freeColl (produce s k d false (.value (BitVec.ofNat 64 x.status))) key.1 key.2 x.gen))

/-- COLLQ.WAIT (16 R368): the status once the rank has ended. -/
def execCollqWait (g : Guard) (d : BitVec 8) (a : Src) (s : State) : Out :=
  .next (runLanes s ⟨g, srcOp a false, noOp, noOp, [(d, false)]⟩ fun k v s => inTeam s k fun _ =>
    match ticketSlot s k.team (v.a.toNat % 2 ^ 32) with
    | none => .done (produce s k d false (.value 0))
    | some (key, x) => .done (produce s k d false (.coll key.1 key.2 x.gen)))

/-! ## Messages and ends (16 R361 to R364) -/

/-- The rank that a message reaches. -/
def targetRank (s : State) (m : CollMsg) : Option Rank := localRank s m.func m.reached m.target

/-- Takes in a contribution or a result of another module, once per tag (16 R362). -/
def takeChunk (s : State) (r : Rank) (m : CollMsg) : State :=
  if r.got.contains (m.sender, m.chunk) then s
  else
    let r1 := { r with got := r.got ++ [(m.sender, m.chunk)] }
    if m.up then setRank s { r1 with held := r.held ++ [m] }
    else if r.fin.contains m.chunk then setRank s r1
    else setRank s { r1 with
      acc := aset m.chunk (elemsOf r.esz (r.chunkLen m.chunk / r.esz) m.data) r.acc, fin := r.fin ++ [m.chunk] }

/-- Whether a message may come from outside: from a child or the parent, on another module, with the bytes of a chunk; a
result only after the contribution. -/
def fits (s : State) (r : Rank) (m : CollMsg) : Bool :=
  agetD m.sender s.fab.node r.nodes ≠ s.fab.node && m.chunk < r.chunks && m.data.length = r.chunkLen m.chunk
    && (if m.up then r.children.contains m.sender else r.parent = some m.sender && r.sent.contains m.chunk)

/-- Whether a message of another rank can come: over a trained port, on virtual channel 6, which nothing blocks (16 R354). -/
def chunkComes (s : State) (r : Rank) (sender : Nat) : Bool :=
  match aget sender r.nodes with
  | some n => (portTo s n).any fun p => !vcBlocked s p 6
  | none => true

/-- A message takes its packets out of the queue of virtual channel 6 from the sender's module: how many they are is open
(notes/assumptions/124.md). -/
def takeChunkPackets (s : State) (r : Rank) (sender : Nat) : State :=
  let mine := s.fab.packets.filter fun p => p.vc = 6 && p.dst = s.fab.node && aget sender r.nodes = some p.src
  if mine = [] then s
  else
    let gone := mine.take (1 + Config.freeValue 19 s.tick % mine.length)
    { s with tick := s.tick + 1, fab := { s.fab with packets := gone.foldl (fun l p => l.erase p) s.fab.packets } }

/-- COLL_CHUNK_RECEIVE (16 R362): a chunk arrives from another module. One that differs from the rank's own collective is
refused, and a rank whose contribution the peer has refused fails, too (R360). -/
def execCollChunkReceive (m : CollMsg) (s : State) : Out :=
  match targetRank s m with
  | none => .next s
  | some r =>
    if !r.tree || r.code ≠ 0 || rankFolded s r || !chunkComes s r m.sender then .next s
    else
      let s1 := takeChunkPackets s r m.sender
      if m.refusal then
        .next (if r.parent = some m.sender || r.children.contains m.sender then failTold s1 r 0x21 0 1 else s1)
      else if !sameColl r m.opid m.opc m.count m.nrank m.hash then .next (failTold s1 r 0x21 0 1)
      else if !fits s1 r m then .next s1
      else .next (advanceRank (takeChunk s1 r m) r.key)

/-- The log entry of a rank (16 R363). -/
def Rank.logEntry (r : Rank) (time : Nat) : Nat :=
  r.code % 256 * 2 ^ 36 + r.opc * 2 ^ 44 + r.count * 2 ^ 48 + r.nrank * 2 ^ 80 + r.me * 2 ^ 104 + time % 2 ^ 64 * 2 ^ 128
    + r.opid * 2 ^ 192 + r.hash.toNat * 2 ^ 256

/-- The rest of a rank's end, after its log entry: the barrier and the ticket's state. -/
def closeRank (s : State) (r : Rank) : State :=
  let s1 := match r.team with
    | some t => if r.bben then landed s t r.bb (r.count * r.esz) 6 else s
    | none => s
  { s1 with
    collSlots := amod r.key (fun x => { x with state := if r.code = 0 then 2 else 3, code := r.code }) s1.collSlots
    ranks := s1.ranks.filter fun x => x.key ≠ r.key }

/-- An access to the collective log has no place: the rank waits, or where the access is refused for good a record says so,
and the rank ends without its entry (14 R306, R313; notes/assumptions/123.md). -/
def logStuck (s : State) (r : Rank) (m : Miss) : State :=
  match m.xl with
  | .final code => closeRank (sendFault (m.note s r.func)
      (rankRec s r { code := code, faddr := BitVec.ofNat 64 m.va, acc := 2 } false 0)) r
  | _ => rankStuck s r m 2

/-- COLL_RANK_END (16 R364): a rank goes on; once its result is written, or it has failed, it ends. -/
def execCollRankEnd (c : CoreId) (slot : Nat) (s : State) : Out :=
  let away := s.ranks.any fun r => r.key = (c, slot) && (s.func r.func).resetting
  let s1 := if away then s else advanceRank s (c, slot)
  match s1.ranks.find? fun r => r.key = (c, slot) && !(s1.func r.func).resetting with
  | none => .next s1
  | some r =>
    let waits := r.bben && (r.team.any fun t => barrierHeld s1 t r.bb)
    let over_ := !waits && (r.code ≠ 0 || (r.tree && r.wrote.length = r.chunks))
    let log := (s1.func r.func).collLog
    if !over_ then .next s1
    else if log = 0 then .next (closeRank s1 r)
    else match ringAppend s1 r.func log 64 fun _ => r.logEntry s1.fab.time with
      | .done s2 _ => .next (closeRank s2 r)
      | .full => .next s1
      | .malformed => .next (tellOnce s1 (.queue r.func log))
      | .stuck m => .next (logStuck s1 r m)

/-- The ranks of which a module is lost fail (16 R364). -/
def loseRanks (s : State) (node code : Nat) : State :=
  s.ranks.foldl (fun s r => if r.code = 0 && r.nodes.any (fun n => n.2 = node) then failTold s r code 0 1 else s) s

/-- Whether an access to a range waits for the dealer's answer for a page: the first that it has to ask for. -/
def rangeOn (s : State) (fn page va n : Nat) (acc : Acc) : Bool :=
  ((pieces 65536 (n / 65536 + 2) va n).findSome? fun p => match translate s fn p.1 acc with
    | .dealer _ q => some q
    | _ => none) = some page

/-- Whether a rank waits on a page: with the tree and child arrays, its part of SBUF, or the result. -/
def rankOn (s : State) (r : Rank) (page : Nat) : Bool :=
  let at_ := r.raw.length
  let len := if at_ < 16 * r.nrank then 16 * r.nrank else r.treeLen
  if r.code ≠ 0 then false
  else if !r.tree then rangeOn s r.func page (r.treeVa + at_) (len - at_) .read
  else ((List.range r.chunks).any fun k =>
      (aget k r.acc).isNone && rangeOn s r.func page (r.sbuf + 4096 * k) (r.chunkLen k) .read)
    || r.fin.any fun k => !r.wrote.contains k && rangeOn s r.func page (r.rbuf + 4096 * k) (r.chunkLen k) .write

/-- The ranks that wait on a page which the dealer refuses fail. -/
def refuseRanks (s : State) (fn page code : Nat) : State :=
  s.ranks.foldl (fun s r => if r.func = fn && rankOn s r page then failRank s r code else s) s

end Sys2Proof.Machine
end

