-- ==== Sys2Proof/Machine/CrossLane.lean ====
section
/-! DEFINITION. The cross-lane instructions (05 R107 to R116) and CONFL (08 R178). -/

namespace Sys2Proof.Machine

/-- Each lane reads its own source A. -/
def ownLane : List Nat → Nat → Dword → Option Nat := fun _ l _ => some l

/-- The value of a performing lane. -/
def laneVal (p : List (Nat × Vals)) (i : Nat) : Option Dword := (p.find? fun e => e.1 = i).map fun e => e.2.a

/-- The low word of a value, as a lane number. -/
def index32 (v : Dword) : Nat := v.toNat % 2 ^ 32

/-! ## The neighbour chain (05 R109, R110) -/

/-- A lane's neighbour in another hand or team. -/
inductive Far where
  | lane (k : ThreadKey)
  /-- The first or the last lane of the team at a place of the chain group, which has retired: its lanes have exited. -/
  | past (place : Nat) (first : Bool)
deriving DecidableEq, Repr

/-- The neighbour in the team at a place of a chain group. -/
def Group.far (g : Group) (place : Nat) (first : Bool) : Option Far :=
  (g.teams[place]?).map fun id =>
    if g.past.any fun e => e.1 = place then .past place first
    else if first then .lane ⟨id, 0, 0⟩ else .lane ⟨id, g.shape.1 - 1, g.shape.2 - 1⟩

/-- A lane's neighbour in another hand or team: left is the lane before it in the chain (05 R109). -/
def chainNeighbour (s : State) (tm : Team) (k : ThreadKey) (left : Bool) : Option Far :=
  if !tm.chain then none
  else
    let beside := fun (j : Nat) (first : Bool) => match aget (groupOf tm) s.groups with
      | some g => g.far j first
      | none => none
    if left then
      if 0 < k.hand then some (.lane ⟨k.team, k.hand - 1, tm.w - 1⟩)
      else if tm.index % 8 = 0 then none
      else beside (tm.index % 8 - 1) false
    else if k.hand + 1 < tm.hands then some (.lane ⟨k.team, k.hand + 1, 0⟩)
    else beside (tm.index % 8 + 1) true

/-- The neighbour values that a retired team of a chain group has left behind, of its first lane or of its last. -/
def Group.pastOf (g : Group) (place : Nat) (first : Bool) : List (Dword × Seen) :=
  match aget place g.past with
  | some p => if first then p.1 else p.2
  | none => []

/-- The neighbour of a lane within its hand. -/
def handNeighbour (w l : Nat) (left : Bool) : Option Nat :=
  if left then (if 0 < l then some (l - 1) else none) else if l + 1 < w then some (l + 1) else none

/-- What a lane at the end of its hand finds at its neighbour in another hand: none while that lane has yet to arrive. -/
def farValue (s : State) (tm : Team) (n : Far) (pc : Dword) : Option Seen :=
  match n with
  | .lane k => match aget k s.threads with
    | some t => match aget pc t.arrivals with
      | some v => some v
      | none => if t.run = .exited then some .inactive else none
    | none => none
  | .past j first => match aget (groupOf tm) s.groups with
    | some g => some ((aget pc (g.pastOf j first)).getD .inactive)
    | none => some .inactive

/-- Takes out the oldest value that was left at an address. -/
def dropArrival (pc : Dword) (l : List (Dword × Seen)) : List (Dword × Seen) :=
  match l.findIdx? fun e => e.1 = pc with
  | some i => delAt i l
  | none => l

/-- A lane has read its neighbour in another hand. -/
def takeArrival (s : State) (tm : Team) (n : Far) (pc : Dword) : State :=
  match n with
  | .lane k => s.modThread k fun t => { t with arrivals := dropArrival pc t.arrivals }
  | .past j first => { s with groups := amod (groupOf tm) (fun g => { g with past := amod j (fun p =>
      if first then (dropArrival pc p.1, p.2) else (p.1, dropArrival pc p.2)) g.past }) s.groups }

/-- Whether a lane is read by a lane of another hand under LANEL (left) or LANER. -/
def readFromAfar (s : State) (tm : Team) (k : ThreadKey) (left : Bool) : Bool :=
  (handNeighbour tm.w k.lane (!left)).isNone && (match chainNeighbour s tm k (!left) with
    | some (.lane _) => true
    | _ => false)

/-- Arrival at LANEL or LANER. A lane that another hand reads leaves the value it arrived with; it arrives once that
register is full. -/
def arriveNeighbours (s : State) (h : HandKey) (tm : Team) (ls : List Nat) (g : Guard) (w left : Bool) (a : CSrc) : State :=
  let due := ls.filter fun l => match s.lane h l with
    | some t => !(readFromAfar s tm (threadOf h l) left && guardHolds t g && !isFull t a.reg w && !a.fe)
    | none => false
  let s0 := (ls.filter fun l => !due.contains l).foldl (fun s l => waitRegs s (threadOf h l) l ⟨g, csrcOp a w, noOp, noOp, []⟩) s
  let s1 := due.foldl (fun s l =>
    let k := threadOf h l
    if readFromAfar s tm k left then
      s.modThread k fun t =>
        let v := if !guardHolds t g then Seen.inactive
          else if isFull t a.reg w then .value (readReg t a.reg w) else .empty
        { t with arrivals := t.arrivals ++ [(t.pc, v)] }
    else s) s0
  arriveAll s1 h due

/-- LANEL and LANER (05 R110). -/
def runNeighbour (s : State) (g : Guard) (w left : Bool) (d : BitVec 8) (a : CSrc) : State :=
  match inFocus s with
  | none => { s with focus := .none }
  | some (h, tm, ls) =>
    if !allArrived s h ls then endIssue (arriveNeighbours s h tm ls g w left a) h ls
    else
      let sh : Shape := ⟨g, csrcOp a w, noOp, noOp, [(d, w)]⟩
      let act := performing s h g ls
      let far := fun (l : Nat) => if (handNeighbour tm.w l left).isSome then none
        else chainNeighbour s tm (threadOf h l) left
      let near := fun (p : List Nat) (l : Nat) => match handNeighbour tm.w l left with
        | some n => if p.contains n then some n else none
        | none => none
      let ready := fun (p : List Nat) (l : Nat) =>
        match far l with
        | some n => (match farValue s tm n (pcOf' s h l) with
          | some .empty => Ready.trap 0x05
          | some _ => crossReady s h tm.w sh none l
          | none => .wait)
        | none => crossReady s h tm.w sh (near p l) l
      let faults := trapLanes (ready act) act
      let bad := faults.map (·.1)
      let p := act.filter fun l => !bad.contains l
      let s1 := faults.foldl (fun s e => takeFault s (threadOf h e.1) { code := e.2 }) s
      if p.any fun l => ready p l = .wait then waitFormed s1 h (ls.filter fun l => !bad.contains l)
      else
        let s2 := p.foldl (fun s1 l =>
          let k := threadOf h l
          let put := fun (v : Dword) => s1.modThread k fun t => writeReg t d w v
          match handNeighbour tm.w l left with
          | some n =>
            if p.contains n then
              match s.lane h n with
              | some t => put (readReg t a.reg w)
              | none => s1
            else s1
          | none =>
            match far l with
            | some n => (match farValue s tm n (pcOf' s h l) with
              | some (.value v) => put v
              | _ => s1)
            | none => (match s.lane h l with
              | some t => put (t.edge.setWidth 64)
              | none => s1)) s1
        let s3 := ls.foldl (fun s1 l => match far l with
          | some n => takeArrival s1 tm n (pcOf' s h l)
          | none => s1) s2
        endIssue ((ls.filter fun l => !bad.contains l).foldl (fun s l => goOn s (threadOf h l)) s3) h ls
where
  /-- The pc of a lane. -/
  pcOf' (s : State) (h : HandKey) (l : Nat) : Dword :=
    match s.lane h l with
    | some t => t.pc
    | none => 0

/-- LANEL (05 R110). -/
def execLanel (g : Guard) (w : Bool) (d : BitVec 8) (a : CSrc) (s : State) : Out := .next (runNeighbour s g w true d a)

/-- LANER (05 R110). -/
def execLaner (g : Guard) (w : Bool) (d : BitVec 8) (a : CSrc) (s : State) : Out := .next (runNeighbour s g w false d a)

/-! ## Gather, put, broadcast and vote (05 R111 to R113) -/

/-- XLGET (05 R111). -/
def execXlget (g : Guard) (w : Bool) (d : BitVec 8) (a b : CSrc) (s : State) : Out :=
  .next (runCross s ⟨g, csrcOp a w, csrcOp b w, noOp, [(d, w)]⟩
    (fun p _ b => if p.contains (index32 b) then some (index32 b) else none)
    fun _ _ p => p.filterMap fun e => (laneVal p (index32 e.2.b)).map fun v => (e.1, fun t => writeReg t d w v))

/-- XLPUT (05 R111): sources in ascending lane order, so the highest stands. -/
def execXlput (g : Guard) (w : Bool) (d : BitVec 8) (a b : CSrc) (s : State) : Out :=
  .next (runCross s ⟨g, csrcOp a w, csrcOp b w, noOp, [(d, w)]⟩ ownLane
    fun _ _ p => p.filterMap fun e =>
      if (laneVal p (index32 e.2.b)).isSome then some (index32 e.2.b, fun t => writeReg t d w e.2.a) else none)

/-- XLBCAST of a numbered lane (05 R112). -/
def execXlbcast (g : Guard) (w : Bool) (d : BitVec 8) (a : CSrc) (lane : BitVec 16) (s : State) : Out :=
  .next (runCross s ⟨g, csrcOp a w, noOp, noOp, [(d, w)]⟩
    (fun p _ _ => if p.contains lane.toNat then some lane.toNat else none)
    fun _ _ p => match laneVal p lane.toNat with
      | some v => p.map fun e => (e.1, fun t => writeReg t d w v)
      | none => [])

/-- XLBCAST.LOW (05 R112): the lowest performing lane is the source. -/
def execXlbcastLow (g : Guard) (w : Bool) (d : BitVec 8) (a : CSrc) (s : State) : Out :=
  .next (runCross s ⟨g, csrcOp a w, noOp, noOp, [(d, w)]⟩ (fun p _ _ => p.head?)
    fun _ _ p => match p with
      | [] => []
      | e0 :: _ => p.map fun e => (e.1, fun t => writeReg t d w e0.2.a))

/-- The lanes of P in which a predicate is true. -/
def votes (s : State) (h : HandKey) (a : BitVec 3) (p : List (Nat × Vals)) : List Nat :=
  (p.map (·.1)).filter fun l => match s.lane h l with
    | some t => readPred t a
    | none => false

/-- A vote (05 R113): the lanes of P whose predicate is true, and those of P, give each lane of P its change. -/
def runVote (s : State) (g : Guard) (a : BitVec 3) (dsts : List (BitVec 8 × Bool))
    (f : List Nat → List Nat → Thread → Thread) : State :=
  runCross s ⟨g, noOp, noOp, noOp, dsts⟩ ownLane fun h _ p =>
    let yes := votes s h a p
    p.map fun e => (e.1, f yes (p.map (·.1)))

/-- XLVOTE.ANY (05 R113). -/
def execXlvoteAny (g : Guard) (d : BitVec 3) (a : BitVec 3) (s : State) : Out :=
  .next (runVote s g a [] fun yes _ t => writePred t d (0 < yes.length))

/-- XLVOTE.ALL (05 R113). -/
def execXlvoteAll (g : Guard) (d : BitVec 3) (a : BitVec 3) (s : State) : Out :=
  .next (runVote s g a [] fun yes all t => writePred t d (yes.length = all.length))

/-- XLVOTE.BALLOT (05 R113). -/
def execXlvoteBallot (g : Guard) (w : Bool) (d : BitVec 8) (a : BitVec 3) (s : State) : Out :=
  .next (runVote s g a [(d, w)] fun yes _ t => writeReg t d w (maskOf yes))

/-- XLVOTE.COUNT (05 R113). -/
def execXlvoteCount (g : Guard) (d : BitVec 8) (a : BitVec 3) (s : State) : Out :=
  .next (runVote s g a [(d, false)] fun yes _ t => writeReg t d false (BitVec.ofNat 64 yes.length))

/-! ## Reductions and scans (05 R108, R114 to R116) -/

/-- The combination of two values (05 R108). -/
def combine (op : XOp) (w : Bool) (x y : Dword) : Dword :=
  let fp := fun (f : Nat → Nat → Nat) => BitVec.ofNat 64 (f (x.toNat % 2 ^ 32) (y.toNat % 2 ^ 32))
  match op with
  | .fadd => fp (fpAdd fp32 .rn)
  | .fmin => fp (fpMin fp32)
  | .fmax => fp (fpMax fp32)
  | .iadd => wide2 w (fun _ x y => x + y) x y
  | .and => x &&& y
  | .or => x ||| y
  | .xor => x ^^^ y

/-- The identity of an operation (05 R108). -/
def identityOf (op : XOp) (w : Bool) : Dword :=
  match op with
  | .fadd => 0x80000000
  | .fmin => 0x7F800000
  | .fmax => 0xFF800000
  | .iadd => 0
  | .and => if w then BitVec.allOnes 64 else 0xFFFFFFFF
  | .or => 0
  | .xor => 0

/-- One level of the fixed tree (05 R114). -/
def pairUp (f : Dword → Dword → Dword) : List Dword → List Dword
  | x :: y :: t => f x y :: pairUp f t
  | l => l

/-- The fixed pairwise tree over a hand of at most 64 lanes (05 R114). -/
def treeReduce (op : XOp) (w : Bool) (width : Nat) (p : List (Nat × Vals)) : Dword :=
  let xs := (List.range width).map fun i => (laneVal p i).getD (identityOf op w)
  (iter (pairUp (combine op w)) 6 xs).headD (identityOf op w)

/-- XLRED (05 R114). -/
def execXlred (g : Guard) (w : Bool) (d : BitVec 8) (a : CSrc) (op : XOp) (s : State) : Out :=
  .next (runCross s ⟨g, csrcOp a w, noOp, noOp, [(d, w)]⟩ ownLane
    fun _ width p => p.map fun e => (e.1, fun t => writeReg t d w (treeReduce op w width p)))

/-- The combination of the lanes of one key, in ascending order from its leader on (05 R115). -/
def keyReduce (op : XOp) (w : Bool) (p : List (Nat × Vals)) (key : Dword) : Dword :=
  match p.filter fun e => e.2.b = key with
  | [] => identityOf op w
  | e :: t => t.foldl (fun acc x => combine op w acc x.2.a) e.2.a

/-- Whether a lane is the lowest one of P with its key. -/
def isLeader (p : List (Nat × Vals)) (key : Vals → Dword) (l : Nat) (v : Vals) : Bool :=
  p.all fun e => !(e.1 < l && key e.2 = key v)

/-- XLRED.KEY (05 R115). -/
def execXlredKey (g : Guard) (w : Bool) (d : BitVec 8) (a b : CSrc) (op : XOp) (s : State) : Out :=
  .next (runCross s ⟨g, csrcOp a w, csrcOp b w, noOp, [(d, w)]⟩ ownLane
    fun _ _ p => p.map fun e => (e.1, fun t => writeReg t d w
      (if isLeader p (·.b) e.1 e.2 then keyReduce op w p e.2.b else identityOf op w)))

/-- The prefixes of XLSCAN in ascending lane order (05 R116). -/
def scanVals (op : XOp) (w ex : Bool) : Dword → List (Nat × Vals) → List (Nat × Dword)
  | _, [] => []
  | acc, e :: t =>
    let acc' := combine op w acc e.2.a
    (e.1, if ex then acc else acc') :: scanVals op w ex acc' t

/-- XLSCAN (05 R116). -/
def execXlscan (g : Guard) (w : Bool) (d : BitVec 8) (a : CSrc) (op : XOp) (ex : Bool) (s : State) : Out :=
  .next (runCross s ⟨g, csrcOp a w, noOp, noOp, [(d, w)]⟩ ownLane
    fun _ _ p => (scanVals op w ex (identityOf op w) p).map fun e => (e.1, fun t => writeReg t d w e.2))

/-- CONFL (08 R178): the leader of each lane's key, the lane's rank among its equals, and whether it leads. A lane whose
modified source A is inactive leaves P (DESIGN CHOICE, notes/assumptions/97.md). -/
def execConfl (g : Guard) (w : Bool) (d : BitVec 8) (a : Src) (c : BitVec 3) (e : BitVec 8) (s : State) : Out :=
  .next (runCross s ⟨g, srcOp a w, noOp, noOp, [(d, w), (e, w)]⟩ (fun _ l _ => some l)
    fun _ _ p => p.map fun x =>
      let same := p.filter fun y => y.2.a = x.2.a
      let ldr := match same with
        | y :: _ => y.1
        | [] => x.1
      let rk := (same.filter fun y => y.1 < x.1).length
      (x.1, fun t => writePred (writeReg (writeReg t d w (BitVec.ofNat 64 ldr)) e w (BitVec.ofNat 64 rk)) c (ldr = x.1)))

end Sys2Proof.Machine
end

