-- ==== Sys2Proof/Machine/Issue.lean ====
section
/-! DEFINITION. Fetch, bundles and the issue policy of a quadrant (03 R36; 04 R68 to R74). -/

namespace Sys2Proof.Machine

/-! ## FETCH_LINE (03 R36) -/

/-- Whether a thread's fetch of the line of an address still waits. -/
def fetchWaits (s : State) (k : ThreadKey) (va : Dword) : Bool :=
  match reach s (funcOf s k) (lineAddr va).toNat .fetch (fetchStays s k) with
  | .final _ => false
  | x => !x.isPlace

/-- Threads of a hand whose fetch need wait no longer. -/
def fetchedLanes (s : State) (h : HandKey) (ls : List Nat) : List Nat :=
  ls.filter fun l => match s.lane h l with
    | some t =>
      match t.run with
      | .fetch va _ => !fetchWaits s (threadOf h l) va
      | .pull va => !fetchWaits s (threadOf h l) va
      | _ => false
    | none => false

/-- A waiting fetch that the dealer's answer has not served, or whose page is no longer there, asks again (14 R319). -/
def askAgain (s : State) (k : ThreadKey) (va : Dword) : State :=
  match translate s (funcOf s k) (lineAddr va).toNat .fetch with
  | .dealer code page =>
    if faultOpen s (funcOf s k) page code 0 then s
    else waitDealer s k { code := code, faddr := va, acc := 4 } page (.fetch va code)
  | _ => s

/-- The fetches of a hand's threads that still wait. -/
def askLanes (s : State) (h : HandKey) (ls : List Nat) : State :=
  ls.foldl (fun s l => match s.lane h l with
    | some t =>
      match t.run with
      | .fetch va _ => askAgain s (threadOf h l) va
      | .pull va => askAgain s (threadOf h l) va
      | _ => s
    | none => s) s

/-- FETCH_LINE (03 R36): threads enter the line of their next slot; those whose fetch waited make it again once it need
wait no longer. -/
def execFetchLine (h : HandKey) (lanes : BitVec 64) (s : State) : Out :=
  let ls := lanesOf lanes 64
  let due := ls.filter fun l => match s.lane h l with
    | some t => t.run.issuable && t.go.isNone && (heldLine t).isNone
    | none => false
  let s1 := wakeLanes s h (fetchedLanes s h ls)
  .next (askLanes (due.foldl (fun s l => enterLine s (threadOf h l)) s1) h ls)

/-! ## REGROUP_BUNDLES (04 R68) -/

/-- The hands that run on a quadrant, by team slot and logical index. -/
def quadHands (s : State) (q : QuadId) : List HandKey :=
  (s.hands.filter fun e => coreOf e.1.team = ⟨q.die, q.core⟩ && e.2.quad = q.quad).map (·.1)

/-- Whether a bundle waits for its turn in a JTAB (04 R79). -/
def servedLater (s : State) (h : HandKey) (hd : Hand) (b : Bundle) : Bool :=
  ((liveServe s h hd).drop 1).any fun g => g &&& b.lanes ≠ 0

/-- The lanes of a bundle whose threads are ready. -/
def readyLanes (s : State) (h : HandKey) (b : Bundle) : BitVec 64 := maskOf (lanesWhere s h b.lanes (· = .ready))

/-- One bundle for each program counter of the threads that are ready; its age is that of its earliest thread. Threads
that wait stay in bundles of their own. -/
def mergeBundles (s : State) (h : HandKey) (hd : Hand) : List Bundle :=
  let due := hd.bundles.filter fun b => !servedLater s h hd b
  let waits := (due.map fun b => { b with lanes := b.lanes &&& ~~~ readyLanes s h b }).filter fun b => b.lanes ≠ 0
  let ready := (due.map fun b => { b with lanes := readyLanes s h b }).filter fun b => b.lanes ≠ 0
  hd.bundles.filter (servedLater s h hd) ++ waits ++ ready.foldl (fun acc b =>
    if acc.any fun x => x.pc = b.pc then
      acc.map fun x => if x.pc = b.pc then { x with lanes := x.lanes ||| b.lanes, age := min x.age b.age } else x
    else acc ++ [b]) []

/-- REGROUP_BUNDLES (04 R68). -/
def execRegroupBundles (q : QuadId) (s : State) : Out :=
  .next ((quadHands s q).foldl (fun s h => s.modHand h fun hd => { hd with bundles := mergeBundles s h hd }) s)

/-! ## ISSUE_SELECT (04 R70 to R72) -/

/-- Whether the hands of a team may issue: it runs, and neither an escalation nor a debugger halts it. -/
def teamIssues (s : State) (id : TeamId) : Bool :=
  match aget id s.teams with
  | some tm => tm.st = .running && !tm.halted && !tm.debug && !(s.core (coreOf id)).halt
  | none => false

/-- Whether a thread of the bundle is ready. -/
def bundleReady (s : State) (h : HandKey) (b : Bundle) : Bool := readyLanes s h b ≠ 0

/-- Whether a hand's team runs in DET-SCHED. -/
def detSched (s : State) (h : HandKey) : Bool :=
  match aget h.team s.teams with
  | some tm => tm.eff.det = 2
  | none => false

/-- The linear index of a hand's team. -/
def teamIndex (s : State) (h : HandKey) : Nat :=
  match aget h.team s.teams with
  | some tm => tm.index
  | none => 0

/-- The current hand of a quadrant (04 R71): it stays until it rests; then the lowest that does not. -/
def currentHand (s : State) (q : QuadId) : Option HandKey :=
  let cands := (quadHands s q).filter fun h => detSched s h && teamIssues s h.team && !handRests s h
  match aget q s.current with
  | some h => if cands.contains h then some h
    else (cands.mergeSort fun a b => (teamIndex s a, a.hand) ≤ (teamIndex s b, b.hand)).head?
  | none => (cands.mergeSort fun a b => (teamIndex s a, a.hand) ≤ (teamIndex s b, b.hand)).head?

/-- The lowest lane of a bundle. -/
def lowestLane (b : Bundle) : Nat := ((List.range 64).find? fun l => b.lanes.getLsbD l).getD 64

/-- The bundle that each hand of a quadrant offers: the oldest ready one, or the current hand's that holds the lowest lane.
Hands of other teams that a quadrant holds beside DET-SCHED ones offer theirs too, and R70's order decides among all (DESIGN
CHOICE, notes/assumptions/96.md). -/
def offers (s : State) (q : QuadId) (cur : Option HandKey) : List (HandKey × Bundle) :=
  (quadHands s q).filterMap fun h =>
    if !teamIssues s h.team || (detSched s h && cur ≠ some h) then none
    else match aget h s.hands with
      | none => none
      | some hd =>
        let rs := hd.bundles.filter fun b => !servedLater s h hd b && bundleReady s h b
        let best := if detSched s h then rs.mergeSort fun a b => lowestLane a ≤ lowestLane b
          else rs.mergeSort fun a b => a.age ≤ b.age
        best.head?.map fun b => (h, b)

/-- The node of a hand's team. -/
def nodeOf (s : State) (h : HandKey) : Nat × Nat :=
  match aget h.team s.teams with
  | some tm => (tm.queue, tm.node)
  | none => (0, 0)

/-- The issue weight of a hand's node. -/
def issueWeight (s : State) (h : HandKey) : Nat :=
  match aget h.team s.teams with
  | some tm => max tm.eff.wissue 1
  | none => 1

/-- The order of two offers (04 R70): a hand that has waited 64 clocks goes first, the longer wait first; then the node
that has used the least issue time for its weight; then age; then hand index, and between hands of one index in different
teams the order of the list (DESIGN CHOICE, notes/assumptions/95.md). -/
def goesFirst (s : State) (u : QuadIssue) (a b : HandKey × Bundle) : Bool :=
  let wait := fun (x : HandKey × Bundle) => let w := s.cycle - x.2.age; if 64 ≤ w then w else 0
  let used := fun (x : HandKey × Bundle) => agetD (nodeOf s x.1) 0 u.used
  let ua := used a * issueWeight s b.1
  let ub := used b * issueWeight s a.1
  if wait a ≠ wait b then wait b < wait a
  else if nodeOf s a.1 ≠ nodeOf s b.1 && ua ≠ ub then ua < ub
  else if a.2.age ≠ b.2.age then a.2.age < b.2.age
  else a.1.hand ≤ b.1.hand

/-- A quadrant's issue unit. -/
def State.issueOf (s : State) (q : QuadId) : QuadIssue := agetD q ⟨0, []⟩ s.issue

/-- A bundle is selected: its ready threads are in focus. -/
def selectBundle (s : State) (h : HandKey) (b : Bundle) : State := { s with focus := .bundle h (readyLanes s h b) }

/-- The bundles of a quadrant with a thread that waits for its turn. -/
def waitingBundles (s : State) (q : QuadId) : List (HandKey × Bundle) :=
  (quadHands s q).flatMap fun h =>
    match aget h s.hands with
    | some hd => if teamIssues s h.team then (hd.bundles.filter fun b => lanesWhere s h b.lanes (· = .stalled) ≠ []).map fun b => (h, b) else []
    | none => []

/-- The threads of a bundle that waited for their turn look again. -/
def rearm (s : State) (h : HandKey) (b : Bundle) : State := wakeLanes s h (lanesWhere s h b.lanes (· = .stalled))

/-- Whether a function is throttled and the quadrant has issued within 4 clocks (15 R335). -/
def throttledNow (s : State) (q : QuadId) : Bool :=
  match aget q s.quadOwner with
  | some fn => (s.func fn).throttled && (s.issueOf q).used ≠ [] && s.cycle < (s.issueOf q).last + 4
  | none => false

/-- ISSUE_SELECT (04 R70, R71): the quadrant chooses a bundle to issue. Threads that wait for registers or for a condition of
R71 become ready as soon as it is met (wakeDue); when those that wait for their turn at an arbiter or a queue look again is
open, and a choice of the model's free order (notes/assumptions/2.md). -/
def execIssueSelect (q : QuadId) (s : State) : Out :=
  let v := Config.freeValue 1 s.tick
  let ws := waitingBundles s q
  if v % 2 = 1 && ws ≠ [] then
    match ws[v / 2 % ws.length]? with
    | some (h, b) => .next (rearm s h b)
    | none => .next s
  else if throttledNow s q then .next s
  else
    let cur := currentHand s q
    let s1 := match cur with
      | some h => { s with current := aset q h s.current }
      | none => s
    match ((offers s1 q cur).mergeSort (goesFirst s1 (s1.issueOf q))).head? with
    | some (h, b) => .next (selectBundle s1 h b)
    | none => .next s1

/-- RENDEZVOUS_FORM (04 R73): the rendezvous of a waiting thread is complete, and its members perform together. -/
def execRendezvousForm (k : ThreadKey) (s : State) : Out :=
  let h := handOf k
  match formedSet s h k.lane with
  | none => .next s
  | some set =>
    match aget h s.hands with
    | none => .next s
    | some hd =>
      let q : QuadId := ⟨k.team.die, k.team.core, hd.quad⟩
      if !teamIssues s k.team || (detSched s h && currentHand s q ≠ some h) then .next s
      else .next { s with focus := .bundle h (maskOf set) }

end Sys2Proof.Machine
end

