-- ==== Sys2Proof/Machine/Placement.lean ====
section
/-! DEFINITION. The team dispatchers (04 R56 to R67): which team is placed next and where, migration between dies,
staging, and the drain to retirement. -/

namespace Sys2Proof.Machine

/-! ## Room on a core (04 R58) -/

/-- What a team needs of a core. -/
structure Need where
  func : Nat
  q : Nat
  hands : Nat
  w : Nat
  regs : Nat
  scratch : Nat
  ntiles : Nat
deriving DecidableEq, Repr

/-- Where a team goes. -/
structure Place where
  id : TeamId
  quads : List Nat
  banks : List Nat
  start : Nat
  tiles : List Nat
deriving DecidableEq, Repr

/-- Hands of a team on its j-th quadrant of q. -/
def handsOn (hands q j : Nat) : Nat := (hands + q - 1 - j) / q

/-- The teams that hold a slot of a core. -/
def coreTeams (s : State) (c : CoreId) : List (TeamId × Team) := s.teams.filter fun e => coreOf e.1 = c

/-- Threads and registers in use on a quadrant. -/
def quadLoad (s : State) (c : CoreId) (quad : Nat) : Nat × Nat :=
  (coreTeams s c).foldl (fun l e =>
    match e.2.quads.idxOf? quad with
    | some j =>
      let n := handsOn e.2.hands (max e.2.quads.length 1) j * e.2.w
      (l.1 + n, l.2 + n * e.2.regs)
    | none => l) (0, 0)

/-- A quadrant whose register file slice has a lasting fault is retired once it holds no team (23 R405). -/
def quadRetired (s : State) (c : CoreId) (quad : Nat) : Bool :=
  s.health.lasting.contains (.regSlice ⟨c.die, c.core, quad⟩) && !(coreTeams s c).any fun e => e.2.quads.contains quad

/-- The lowest-numbered quadrants that have room. -/
def fitQuads (s : State) (c : CoreId) (n : Need) : Option (List Nat) :=
  let qs := [0, 1, 2, 3].foldl (fun acc quad =>
    let k := handsOn n.hands n.q acc.length * n.w
    let l := quadLoad s c quad
    if acc.length < n.q && aget ⟨c.die, c.core, quad⟩ s.quadOwner = some n.func && !quadRetired s c quad && l.1 + k ≤ 1024
        && l.2 + k * n.regs ≤ 32768 then acc ++ [quad]
    else acc) []
  if qs.length = n.q then some qs else none

/-- A team's range is rounded up to 4 KiB (07 R139). -/
def up4k (n : Nat) : Nat := (n + 4095) / 4096 * 4096

/-- The lowest free range of a share. -/
def fitRange (s : State) (c : CoreId) (n : Need) : Option Nat :=
  let used := ((coreTeams s c).filter fun e => e.2.func = n.func).map fun e => (e.2.start, up4k e.2.scratch)
  let size := up4k n.scratch
  let share := (ownBanks (s.core c) n.func).length * 32768
  ((0 :: used.map fun r => r.1 + r.2).filter fun a => a + size ≤ share && used.all fun r => !rangesMeet r (a, size)).min?

/-- The lowest free tile entries. -/
def fitTiles (s : State) (c : CoreId) (n : Need) : Option (List Nat) :=
  let ts := ((ownTiles (s.core c) n.func).filter fun t => (coreTeams s c).all fun e => !e.2.tiles.contains t).take n.ntiles
  if ts.length = n.ntiles then some ts else none

/-- The place that a core has for a team. -/
def fitCore (s : State) (c : CoreId) (n : Need) : Option Place :=
  if (s.core c).idle then none
  else match (List.range 16).find? fun i => (aget ⟨c.die, c.core, i⟩ s.teams).isNone, fitQuads s c n, fitRange s c n,
      fitTiles s c n with
  | some i, some qs, some a, some ts => some ⟨⟨c.die, c.core, i⟩, qs, ownBanks (s.core c) n.func, a, ts⟩
  | _, _, _, _ => none

/-! ## What is placed (04 R56, 05 R109, 15 R340) -/

/-- A team to place: a suspended one, or a fresh one by its linear index. -/
inductive Item where
  | image (addr : Nat) (sv : Saved)
  | fresh (index : Nat)
deriving DecidableEq, Repr

def Item.index : Item → Nat
  | .image _ sv => sv.team.index
  | .fresh i => i

/-- What a die may place next for a node: the teams, the message that carries them, if any, and whether fresh ones come
from the held list. -/
structure Offer where
  node : Node
  items : List Item
  msg : Option TeamMsg
  held : Bool
deriving DecidableEq, Repr

/-- A node's held list on a die. -/
def Node.heldAt (n : Node) (d : Nat) : List Nat := agetD d [] n.held

/-- The image at an address of a function. -/
def imageAt (s : State) (fn a : Nat) : Option Saved := (s.saved.find? fun e => e.1 = a && e.2.team.func = fn).map (·.2)

/-- The images that a message carries. -/
def imagesOf (s : State) (fn : Nat) : Nat → Nat → List Item
  | 0, _ => []
  | fuel + 1, a =>
    if a = 0 then []
    else match imageAt s fn a with
      | some sv => .image a sv :: imagesOf s fn fuel sv.next
      | none => []

/-- The indices of a chain group that a list of indices holds. -/
def groupPart (is : List Nat) (g : Nat) : List Nat := is.filter fun i => i / 8 = g

/-- The offer that a message of suspended teams makes; with a suspended chain group go its teams on the held list. -/
def offerMsg (s : State) (fn d : Nat) (n : Node) (m : TeamMsg) : Offer :=
  let im := if m.kind = 2 then (imagesOf s fn 1 m.ctx) else imagesOf s fn 8 m.ctx
  let more := if m.kind = 3 then
      match im with
      | i :: _ => groupPart (n.heldAt d) (i.index / 8)
      | [] => []
    else []
  ⟨n, im ++ more.map Item.fresh, some m, true⟩

/-- What a node's next team at a die is: suspended teams first, then the held list, then NEXTTEAM at the home die. -/
def nextOffer (s : State) (t : Tree) (q d : Nat) (n : Node) : Option Offer :=
  match (s.disp d).fresh.find? fun m => m.queue = q && m.wcb = n.addr with
  | some m => some (offerMsg s t.func d n m)
  | none =>
    match n.heldAt d with
    | i :: _ =>
      some ⟨n, if n.chain then (groupPart (n.heldAt d) (i / 8)).map .fresh else [.fresh i], none, true⟩
    | [] =>
      if d = t.home && n.nextTeam < n.count then
        some ⟨n, if n.chain then (List.range (min 8 (n.count - n.nextTeam))).map fun j => .fresh (n.nextTeam + j)
          else [.fresh n.nextTeam], none, false⟩
      else none

/-- What one team needs. -/
def itemNeed (t : Tree) (n : Node) : Item → Need
  | .fresh _ => ⟨t.func, (quadsFor n.w n.regs n.hands).getD 1, n.hands, n.w, n.regs, n.scratch, n.ntiles⟩
  | .image _ sv =>
    ⟨t.func, sv.team.quads.length, sv.team.hands, sv.team.w, sv.team.regs, sv.team.scratch,
      sv.team.tiles.length⟩

/-- Quadrants held by the teams of a node, on every die. -/
def nodeQuads (s : State) (q a : Nat) : Nat :=
  (s.teams.filter fun e => e.2.queue = q && e.2.node = a).foldl (fun m e => m + e.2.quads.length) 0

/-- Places for all of a list, or none. -/
def allSome {α β : Type} (f : α → Option β) : List α → Option (List β)
  | [] => some []
  | a :: t => match f a, allSome f t with
    | some b, some bs => some (b :: bs)
    | _, _ => none

/-- Where the teams of an offer can be placed on a die: a team on the lowest core that takes it, the teams of a chain
group on the cores of the lowest cluster that takes them all. -/
def fitOffer (s : State) (t : Tree) (q d : Nat) (o : Offer) : Option (List (Item × Place)) :=
  let n := o.node
  let needs := o.items.map (itemNeed t n)
  if o.items = [] || (n.eff.maxq ≠ 0 && n.eff.maxq < nodeQuads s q n.addr + needs.foldl (fun m x => m + x.q) 0) then none
  else if n.chain then
    (List.range 8).findSome? fun c =>
      allSome (fun i => (fitCore s ⟨d, 8 * c + i.index % 8⟩ (itemNeed t n i)).map fun p => (i, p)) o.items
  else match o.items with
    | [i] => (List.range 64).findSome? fun c => (fitCore s ⟨d, c⟩ (itemNeed t n i)).map fun p => [(i, p)]
    | _ => none

/-- The nodes of a tree whose teams may be placed, the best candidate first (04 R56). None before the tree has passed its
validation, and none that has not become READY since, whatever STATE it brought from memory (02 R23, R24; DEDUCED,
notes/assumptions/113.md). -/
def mayPlace (s : State) (t : Tree) : List Node :=
  if folded s t || (s.func t.func).throttled || t.waiting.isSome then []
  else (t.nodes.filter fun n => n.kind = 2 && (n.state = 1 || n.state = 2) && n.readyAt ≠ 0 && !n.pending).mergeSort fun a b =>
    b.eff.prio < a.eff.prio || (a.eff.prio = b.eff.prio && a.readyAt ≤ b.readyAt)

/-- What a queue can place at a die: its candidate's next team, or a team that the die has received for it. -/
def queueOffer (s : State) (q d : Nat) (t : Tree) : Option (Nat × Offer × List (Item × Place)) :=
  let offers := (mayPlace s t).filterMap fun n => nextOffer s t q d n
  match offers with
  | [] => none
  | c :: rest =>
    let others := rest.filter (·.held) ++ (s.disp d).fresh.filterMap fun m =>
      if m.queue = q then ((mayPlace s t).find? fun n => n.addr = m.wcb).map fun n => offerMsg s t.func d n m else none
    (c :: others).findSome? fun o => (fitOffer s t q d o).map fun ps => (c.node.eff.prio, o, ps)

/-! ## Placing -/

/-- A fresh team, as it is placed. -/
def freshTeam (s : State) (t : Tree) (q : Nat) (n : Node) (i : Nat) (p : Place) : Team where
  func := t.func
  queue := q
  node := n.addr
  homeDie := t.home
  index := i
  tx := n.tx
  ty := n.ty
  w := n.w
  regs := n.regs
  hands := n.hands
  scratch := n.scratch
  ntiles := n.ntiles
  chain := n.chain
  entry := BitVec.ofNat 64 n.entry
  kconst := n.kconst
  region := n.region
  eff := n.eff
  st := .staging
  ranNever := false
  staged := 0
  stageAt := []
  stageWait := 0
  stagePhase := 0
  banks := p.banks
  start := p.start
  quads := p.quads
  tiles := p.tiles
  fmts := List.replicate 16 0
  windows := List.replicate 8 none
  yarr := 0
  phase := false
  arr := 0
  live := n.hands * n.w
  commit := 0
  commitYield := false
  commitExit := false
  tileEvents := []
  trickTiles := []
  accs := []
  resumed := false
  halted := false
  debug := false
  suspendAt := none
  placedAt := s.cycle
  countedAt := s.cycle
  bpLog := []

/-- The name of a team of a chain group that holds no slot and is not suspended. -/
def noTeam : TeamId := ⟨9, 0, 0⟩

/-- A team joins its chain group; the group's record is made with the first of them. -/
def joinGroup (s : State) (t : Tree) (n : Node) (tm : Team) (id : TeamId) : State :=
  if !tm.chain then s
  else
    let g := groupOf tm
    let size := min 8 (n.count - tm.index / 8 * 8)
    let gr := agetD g ⟨0, false, false, 0, size * n.hands * n.w, false, 0, List.replicate size noTeam, none, (n.hands, n.w), []⟩ s.groups
    if t.func = tm.func then { s with groups := aset g { gr with teams := gr.teams.set (tm.index % 8) id } s.groups } else s

/-- The read of an image that is refused for good, and has not been refused by the dealer, sends a record (14 R306, R319). -/
def imageLost (s : State) (a : Nat) (sv : Saved) : State :=
  match virtRead s sv.team.func a sv.image.length .read (nodeFolded s sv.team.func sv.team.node) with
  | .ok _ => s
  | .error m => match m.xl with
    | .final code => if sv.refused then s
      else sendFault (m.note s sv.team.func) { sv.dom with code := code, faddr := BitVec.ofNat 64 m.va, acc := 1 }
    | _ => s

/-- One team is placed: a fresh one with its scratchpad range and tile entries zero, a suspended one with its image. A
read of its image that ends in a refusal leaves it what an image that has been changed leaves (notes/assumptions/122.md). -/
def placeItem (t : Tree) (q : Nat) (n : Node) (s : State) (e : Item × Place) : State :=
  let p := e.2
  match e.1 with
  | .fresh i =>
    let tm := freshTeam s t q n i p
    let s1 := joinGroup { s with teams := aset p.id tm s.teams } t n tm p.id
    let s2 := s1.spWrite p.id tm 0 (List.replicate (up4k n.scratch) 0)
    s2.modCore (coreOf p.id) fun c => { c with tiles := c.tiles.filter fun x => !p.tiles.contains x.1 }
  | .image a sv =>
    let same : Bool := match virtRead s t.func a sv.image.length .read (folded s t) with
      | .ok (_, bs) => !sv.refused && decide (bs = sv.image)
      | .error _ => false
    let s1 := imageLost { s with tick := s.tick + 1 } a sv
    restoreTeam s1 (if same then sv else sv.scrambled s1) p.id p.quads p.banks p.start p.tiles

/-- Why an image cannot be read yet: the first line whose access waits. -/
def imageMiss (s : State) (fn : Nat) (is : List Item) : Option (Saved × Miss) :=
  is.findSome? fun i => match i with
    | .fresh _ => none
    | .image a sv => if sv.refused then none else match virtRead s fn a sv.image.length .read (nodeFolded s fn sv.team.node) with
      | .error m => (match m.xl with
        | .final _ => none
        | _ => some (sv, m))
      | .ok _ => none

/-- An access to an image waits; the dealer is told where it must answer, once while that record is unresolved. -/
def imageWaits (s : State) (sv : Saved) (m : Miss) (acc : Nat) : State :=
  match m.xl with
  | .dealer code page =>
    if sv.asked = some (page, code) && faultOpen s sv.team.func page code 8 then s
    else
      let s1 := { s with saved := s.saved.map fun e => if e.2.id = sv.id then (e.1, { e.2 with asked := some (page, code) }) else e }
      sendFault s1 { sv.dom with
        code := code, faddr := BitVec.ofNat 64 m.va, acc := acc, wait := true, waiters := 1, page := page }
  | _ => m.note s sv.team.func

/-- The bookkeeping of a placement: its message is used up, its indices leave the held list or NEXTTEAM passes them, and
the node runs. -/
def placedNode (s : State) (q d : Nat) (o : Offer) : State :=
  let fresh := o.items.filterMap fun i => match i with
    | .fresh x => some x
    | .image _ _ => none
  let s1 := match o.msg with
    | some m => s.modDisp d fun x => { x with fresh := x.fresh.erase m }
    | none => s
  setNode s1 q o.node.addr o.node.addr fun n =>
    let n1 := if o.held then { n with held := aset d ((n.heldAt d).filter fun i => !fresh.contains i) n.held }
      else { n with nextTeam := n.nextTeam + fresh.length, allDisp := n.nextTeam + fresh.length = n.count }
    if n1.state = 1 then { n1 with state := 2, runAt := s.fab.time } else n1

/-- The ready queue that a die serves (04 R57): the highest PRIO, then the first at or after the pointer. -/
def chooseQueue (s : State) (d : Nat) : Option (Nat × Tree × Offer × List (Item × Place)) :=
  let rank (prio q : Nat) : Nat := (7 - prio) * 64 + (q + 64 - (s.disp d).pointer) % 64
  (s.trees.foldl (fun best e =>
    match queueOffer s e.1 d e.2 with
    | none => best
    | some (prio, o, ps) =>
      match best with
      | some (r, _) => if rank prio e.1 < r then some (rank prio e.1, e.1, e.2, o, ps) else best
      | none => some (rank prio e.1, e.1, e.2, o, ps)) (none : Option (Nat × Nat × Tree × Offer × List (Item × Place)))).map (·.2)

/-- PLACE_TEAM (04 R57, R58): a die's dispatcher places a team, or a chain group. -/
def execPlaceTeam (die : Nat) (s : State) : Out :=
  if !s.health.ready.contains (.die die) then .next s
  else match chooseQueue s die with
    | none => .next s
    | some (q, t, o, ps) =>
      match imageMiss s t.func o.items with
      | some (sv, m) => .next (imageWaits s sv m 1)
      | none =>
      let s1 := placedNode s q die o
      let s2 := ps.foldl (fun s e => placeItem t q o.node s e) s1
      .next (s2.modDisp die fun d => { d with pointer := (q + 1) % 64 })

/-! ## Migration between dies (04 R61 to R63) -/

/-- Whether a team that a message of fresh teams brought to a die is still to be placed there. -/
def TeamMsg.open_ (s : State) (d : Nat) (m : TeamMsg) : Bool :=
  match nodeAt s m.queue m.wcb with
  | some n => (n.heldAt d).any fun i => m.first ≤ i && i < m.first + m.count
  | none => false

/-- What a die advertises for a function: nothing while it holds 256 received messages, its held lists counted with them
(04 R63, 15 R340). -/
def freeSlots (s : State) (d fn : Nat) : Nat :=
  let held := s.trees.foldl (fun m e => m + e.2.nodes.countP fun n => n.heldAt d ≠ []) 0
  if 256 ≤ (s.disp d).fresh.length + (s.disp d).got.countP (TeamMsg.open_ s d) + held then 0
  else ((List.range 64).filter fun c => s.quadOwner.any fun e => e.1.die = d && e.1.core = c && e.2 = fn).foldl
    (fun m c => m + (16 - (coreTeams s ⟨d, c⟩).length)) 0

/-- Teams of a function that a die has to place. -/
def unplaced (s : State) (d fn : Nat) : Nat :=
  s.trees.foldl (fun m e =>
    if e.2.func ≠ fn then m
    else (mayPlace s e.2).foldl (fun m n =>
      m + (n.heldAt d).length + (if d = e.2.home then n.count - n.nextTeam else 0)
        + ((s.disp d).fresh.filter fun x => x.queue = e.1 && x.wcb = n.addr).foldl (fun m x => m + x.count) 0) m) 0

/-- The length of the run of successive indices at the start of a list. -/
def runLen : List Nat → Nat
  | a :: b :: t => if b = a + 1 then runLen (b :: t) + 1 else 1
  | l => l.length

/-- A message of suspended teams may travel: with a chain group, none of its teams is on the die's held list. -/
def mayTravel (s : State) (d fn : Nat) (n : Node) (m : TeamMsg) : Bool := (offerMsg s fn d n m).items.all fun i => match i with
  | .image _ _ => true
  | .fresh _ => false

/-- The next message that a die sends to another for a function, of at most k teams, and the state without them; teams that
may travel apart go only as far as they exceed the bound. -/
def nextMessage (s : State) (d fn k excess : Nat) : Option (State × TeamMsg) :=
  let nodes := s.trees.flatMap fun e => if e.2.func = fn then (mayPlace s e.2).map fun n => (e.1, e.2, n) else []
  let sus := (s.disp d).fresh.find? fun m => m.count ≤ k && nodes.any fun x =>
    x.1 = m.queue && x.2.2.addr = m.wcb && mayTravel s d fn x.2.2 m
  match sus with
  | some m => some (s.modDisp d fun x => { x with fresh := x.fresh.erase m }, { m with srcDie := d })
  | none =>
    (nodes.mergeSort fun a b => b.2.2.eff.prio ≤ a.2.2.eff.prio).findSome? fun x =>
      let n := x.2.2
      let msg (first count : Nat) : TeamMsg := ⟨0, n.addr, first, count, x.1, x.2.1.home, d, n.eff.prio, 1⟩
      match n.heldAt d with
      | i :: _ =>
        let c := if n.chain then (groupPart (n.heldAt d) (i / 8)).length else min (min (min k excess) 65535) (runLen (n.heldAt d))
        if c = 0 || k < c || (n.chain && (i % 8 ≠ 0 || c ≠ min 8 (n.count - i))) then none
        else some (touchNode s x.1 n.addr fun n => { n with held := aset d ((n.heldAt d).drop c) n.held }, msg i c)
      | [] =>
        let left := n.count - n.nextTeam
        let c := if n.chain then min 8 left else min (min (min k excess) 65535) left
        if d ≠ x.2.1.home || c = 0 || k < c then none
        else some (setNode s x.1 n.addr n.addr fun n =>
          { n with nextTeam := n.nextTeam + c, allDisp := n.nextTeam + c = n.count }, msg n.nextTeam c)

/-- Sends teams of a function to a die, at most k, while the sender's unplaced teams exceed the bound. -/
def sendTeams : Nat → State → Nat → Nat → Nat → Nat → Nat → State
  | 0, s, _, _, _, _, _ => s
  | fuel + 1, s, d, to_, fn, k, bound =>
    let excess := unplaced s d fn - bound
    if excess = 0 || k = 0 then s
    else match nextMessage s d fn k excess with
      | none => s
      | some (s1, m) =>
        sendTeams fuel (s1.modDisp to_ fun x => { x with incoming := x.incoming ++ [m] }) d to_ fn (k - m.count) bound

/-- ADVERTISE_FREE_SLOTS (04 R61): a die tells the others its free slots for each function, and sends on what exceeds four
times its own. -/
def execAdvertiseFreeSlots (die : Nat) (s : State) : Out :=
  let s1 := (List.range 65).foldl (fun s fn =>
    (List.range 8).foldl (fun s d => if d = die then s else s.modDisp d fun x =>
      { x with adverts := aset (die, fn) (freeSlots s die fn) x.adverts }) s) s
  .next ((List.range 65).foldl (fun s fn =>
    (List.range 7).foldl (fun s j =>
      let d := (die + 1 + j) % 8
      sendTeams 65536 s die d fn (agetD (d, fn) 0 (s.disp die).adverts) (4 * freeSlots s die fn)) s) s1)

/-- Puts indices into an ascending list. -/
def mergeIdx (a b : List Nat) : List Nat := (a ++ b).mergeSort (· ≤ ·)

/-- TEAM_MESSAGE_RECEIVE (04 R63, 15 R340): fresh teams go to the node's held list. -/
def execTeamMessageReceive (die : Nat) (s : State) : Out :=
  match (s.disp die).incoming with
  | [] => .next s
  | m :: rest =>
    let s1 := s.modDisp die fun d => { d with
      incoming := rest
      got := d.got.filter (TeamMsg.open_ s die) ++ (if m.kind = 1 then [m] else []) }
    .next (if m.kind = 1 then touchNode s1 m.queue m.wcb fun n =>
        { n with held := aset die (mergeIdx (n.heldAt die) ((List.range m.count).map (· + m.first))) n.held }
      else s1.modDisp die fun d => { d with fresh := d.fresh ++ [m] })

/-! ## Staging (04 R66, R67) -/

/-- A fault record of the staging engine. -/
def stageFault (s : State) (id : TeamId) (code va spoff acc : Nat) (wait : Bool) (page : Nat) : State :=
  sendFault s (teamRec s id { code := code, faddr := BitVec.ofNat 64 va, acc := acc, spoff := spoff } wait page 1)

/-- The team drains without having run a thread. -/
def neverRun (s : State) (id : TeamId) : State := startDrain (s.modTeam id fun tm => { tm with ranNever := true }) id

def entryDone (s : State) (id : TeamId) (i : Nat) : State := s.modTeam id fun tm => { tm with staged := tm.staged ||| 2 ^ i }

/-- A staging read that found no place. -/
def stageStuck (s : State) (id : TeamId) (tm : Team) (i spoff : Nat) (m : Miss) : State :=
  let s1 := m.note s tm.func
  match m.xl with
  | .dealer code page =>
    stageFault (s1.modTeam id fun tm => { tm with stageWait := tm.stageWait ||| 2 ^ i }) id code m.va spoff 1 true page
  | .final code => neverRun (stageFault s1 id code m.va spoff 1 false 0) id
  | _ => s1

/-- Reads for an entry and writes what was read to its place. -/
def stageCopy (s : State) (id : TeamId) (tm : Team) (i va n spoff : Nat) (k : State → List Byte → State) : State :=
  match virtRead s tm.func va n .read (nodeFolded s tm.func tm.node) with
  | .error m => stageStuck s id tm i spoff m
  | .ok (s1, bs) => k s1 bs

/-- Copies the pieces of an entry that are left, one DRAM row after the other, as far as they go. -/
def stageRows (id : TeamId) (tm : Team) (i va spoff : Nat) (s : State) : List (Nat × Nat) → State
  | [] => entryDone (s.modTeam id fun tm => { tm with stageAt := adel i tm.stageAt }) id i
  | p :: rest =>
    match virtRead s tm.func p.1 p.2 .read (nodeFolded s tm.func tm.node) with
    | .error m => stageStuck s id tm i spoff m
    | .ok (s1, bs) =>
      let s2 := s1.spWrite id tm (spoff + (p.1 - va)) bs
      stageRows id tm i va spoff (s2.modTeam id fun tm => { tm with stageAt := aset i (p.1 - va + p.2) tm.stageAt }) rest

/-- Performs one region entry. -/
def stageEntry (id : TeamId) (s : State) (x : Nat × BitVec 128) : State :=
  match aget id s.teams with
  | none => s
  | some tm =>
    let e := x.2
    let va := regionBase e tm.index
    let off := regionSpoff e
    if tm.st ≠ .staging || bit tm.staged x.1 || bit tm.stageWait x.1 then s
    else match regionKind e with
      | 3 => entryDone s id x.1
      | 4 => stageCopy s id tm x.1 va 32 off fun s1 bs =>
        let s2 := s1.spWrite id tm off bs
        let w := BitVec.ofNat 256 (natOfBytes bs)
        if windowBad s2 id tm w then neverRun (stageFault s2 id 0x1B va off 0 false 0) id
        else entryDone (s2.modTeam id fun tm => { tm with windows := tm.windows.set (wSlot w) (some w) }) id x.1
      | 5 =>
        match aget va (s.func tm.func).bagTable with
        | some h => entryDone (s.spWrite id tm off (bytesOfNat 4 h.toNat)) id x.1
        | none =>
          match createBag s tm.func va (chooseRow s tm.func va) with
          | .ok (some (s1, h)) => entryDone (s1.spWrite id tm off (bytesOfNat 4 h.toNat)) id x.1
          | .ok none => neverRun (stageFault s id 0x19 va off 0 false 0) id
          | .error m => stageStuck s id tm x.1 off m
      | _ =>
        let at_ := agetD x.1 0 tm.stageAt
        stageRows id tm x.1 va off s (pieces 1024 (regionLen e / 1024 + 2) (va + at_) (regionLen e - at_))

/-- A thread as a team starts (05 R86, R87). -/
def newThread (tm : Team) : Thread where
  regs := List.replicate tm.regs 0
  full := List.replicate tm.regs true
  preds := 0
  pc := tm.entry
  line := none
  pmask := BitVec.ofNat 64 (2 ^ tm.w - 1)
  edge := 0
  depth := 0
  token := none
  run := .ready
  go := none
  ask := none
  bwait := none
  fenceAt := none
  need := none
  arrivals := []
  poison := []

/-- A team becomes RUNNING: every hand has all its lanes at the entry. -/
def runTeam (s : State) (id : TeamId) (tm : Team) : State :=
  let s1 := s.modTeam id fun tm => { tm with st := .running }
  let s2 := (List.range tm.hands).foldl (fun s h => s.setHand ⟨id, h⟩
    ⟨tm.quads.getD (h % max tm.quads.length 1) 0, [⟨tm.entry, BitVec.ofNat 64 (2 ^ tm.w - 1), s.cycle⟩], [], [], 0, [], [], [], [], false⟩) s1
  (List.range (tm.hands * tm.w)).foldl (fun s i => s.setThread ⟨id, i / tm.w, i % tm.w⟩ (newThread tm)) s2

/-- STAGING_DONE (04 R59, R66): the staging engine performs what it can, and the team runs once every entry is done. -/
def execStagingDone (t : TeamId) (s : State) : Out :=
  match aget t s.teams with
  | none => .next s
  | some tm =>
    if tm.st ≠ .staging then .next s
    else
      let s1 := ((List.range tm.region.length).zip tm.region).foldl (stageEntry t) s
      .next (match aget t s1.teams with
        | some tm1 => if tm1.st = .staging && tm1.staged = 2 ^ tm.region.length - 1 then runTeam s1 t tm1 else s1
        | none => s1)

/-- The pieces of a team's write-back, in ascending entry order: virtual address, length and scratchpad offset. -/
def backPieces (tm : Team) : List (Nat × Nat × Nat) :=
  if tm.ranNever then []
  else tm.region.flatMap fun e =>
    if regionKind e = 2 then
      let base := regionBase e tm.index
      (pieces 1024 (regionLen e / 1024 + 2) base (regionLen e)).map fun p => (p.1, p.2, regionSpoff e + (p.1 - base))
    else []

/-- The pieces of a write-back at its front that a refusal of their page leaves unwritten. -/
def refusedPieces : List (Nat × Nat × Nat) → Nat
  | [] => 0
  | p :: rest => 1 + (rest.takeWhile fun x => x.1 / 65536 = p.1 / 65536 && p.1 ≤ x.1).length

/-- STAGING_PAGE_ANSWER (04 R67): the dealer has mapped the page that the staging engine waits for, or refused it. -/
def execStagingPageAnswer (t : TeamId) (mapped : Bool) (s : State) : Out :=
  match aget t s.teams with
  | none => .next s
  | some tm =>
    if tm.stageWait = 0 then .next s
    else
      let s1 := s.modTeam t fun tm => { tm with stageWait := 0 }
      .next (if mapped then s1
        else if tm.st = .staging then neverRun s1 t
        else
          let n := refusedPieces ((backPieces tm).drop tm.stagePhase)
          s1.modTeam t fun tm => { tm with stagePhase := tm.stagePhase + n })

/-! ## Draining and retirement (04 R59, R60, R67) -/

/-- Whether the engines of a draining team are done. -/
def drained (s : State) (id : TeamId) (tm : Team) : Bool :=
  ((teamChans id tm).all fun c => (s.chan c).jobs.all fun j => j.team ≠ id)
    && (teamHands s id).all (fun h => match aget h s.hands with
      | some hd => hd.storeQ = [] && hd.pend = []
      | none => true)
    && (s.holds.all fun h => h.2.team ≠ id)
    && (s.mats.all fun m => m.2.jobs.all fun j => j.thread.team ≠ id)
    && (s.runs.all fun r => r.2.team ≠ id)
    && s.ranks.all fun r => r.team ≠ some id

/-- The write-back goes on from a piece: it waits, or ends. A refused piece keeps what memory holds; skip: how many pieces a
final refusal has still to leave unwritten. -/
def backFrom (id : TeamId) (tm : Team) : Nat → State → List (Nat × Nat × Nat) → State × Bool
  | _, s, [] => (s, true)
  | skip, s, p :: rest =>
    let next (s : State) : State := s.modTeam id fun tm => { tm with stagePhase := tm.stagePhase + 1 }
    if skip ≠ 0 then backFrom id tm (skip - 1) (next s) rest
    else if s.spPoisoned id tm p.2.2 p.2.1 then
      backFrom id tm 0 (next (stageFault s id 0x15 p.1 p.2.2 1 false 0)) rest
    else match virtWrite s tm.func p.1 (s.spBytes id tm p.2.2 p.2.1) (nodeFolded s tm.func tm.node) with
      | .ok s1 => backFrom id tm 0 (next s1) rest
      | .error m =>
        match m.xl with
        | .final c => backFrom id tm (refusedPieces (p :: rest) - 1) (next (stageFault s id c m.va p.2.2 2 false 0)) rest
        | .dealer c page =>
          (stageFault (s.modTeam id fun tm => { tm with stageWait := 1 }) id c m.va p.2.2 2 true page, false)
        | _ => (m.note s tm.func, false)

/-- The neighbour values that a lane has left and no lane has read (05 R110). -/
def arrivalsOf (s : State) (k : ThreadKey) : List (Dword × Seen) :=
  match aget k s.threads with
  | some t => t.arrivals
  | none => []

/-- A team's place in its chain group holds no team on a core, and its record goes with the last of its threads. -/
def vacate (s : State) (tm : Team) (id : TeamId) (f : Group → Group) : State :=
  if !tm.chain then s
  else
    let g := groupOf tm
    match aget g s.groups with
    | none => s
    | some gr =>
      let ts := gr.teams.map fun t => if t = id then noTeam else t
      { s with groups := if gr.live = 0 && ts.all (· = noTeam) then adel g s.groups else aset g (f { gr with teams := ts }) s.groups }

/-- A retired team leaves its chain group: in the chain, its lanes have exited (05 R110). -/
def leaveGroup (s : State) (tm : Team) (id : TeamId) : State :=
  vacate s tm id fun gr => { gr with
    past := aset (tm.index % 8) (arrivalsOf s ⟨id, 0, 0⟩, arrivalsOf s ⟨id, tm.hands - 1, tm.w - 1⟩) gr.past }

/-- A team retires: what it held is free, its stay is counted, and its home dispatcher is told. -/
def retireTeam (s : State) (id : TeamId) (tm : Team) : State :=
  let s1 := freeTeam (leaveGroup (countStay s tm) tm id) id tm
  let s2 := { s1 with collSlots := s1.collSlots.map fun (e : (CoreId × Nat) × CollSlot) =>
    (e.1, if e.2.team = some id then { e.2 with state := 0, code := 0, team := none } else e.2) }
  (renameRefs s2 id noTeam false).modDisp tm.homeDie fun d => { d with notices := d.notices ++ [(tm.queue, tm.node)] }

/-- TEAM_DRAIN_DONE (04 R59, R67): the engines of a draining team are done, its write-back is made, and it retires. -/
def execTeamDrainDone (t : TeamId) (s : State) : Out :=
  match aget t s.teams with
  | none => .next s
  | some tm =>
    if tm.st ≠ .draining || tm.stageWait ≠ 0 || !drained s t tm then .next s
    else
      let r := backFrom t tm 0 s ((backPieces tm).drop tm.stagePhase)
      .next (if r.2 then retireTeam r.1 t tm else r.1)

end Sys2Proof.Machine
end

