-- ==== Sys2Proof/Machine/Partitions.lean ====
section
/-! DEFINITION. Budgets, pre-emption, resets and grants (15 R331 to R345). -/

namespace Sys2Proof.Machine

/-! ## Budgets (15 R335) -/

/-- Quadrant-clocks that a function has used in its period. -/
def usedNow (s : State) (fn : Nat) : Nat :=
  s.teams.foldl (fun m e => if e.2.func = fn then m + e.2.quads.length * (s.cycle - e.2.countedAt) else m) (s.func fn).used

/-- BUDGET_THROTTLE: the count has reached BUDGET × 1,250. -/
def execBudgetThrottle (func : Nat) (s : State) : Out :=
  let f := s.func func
  if f.budget = 0 || f.throttled || usedNow s func < f.budget * 1250 then .next s
  else
    let s1 := s.modFunc func fun f => { f with throttled := true }
    .next (s.trees.foldl (fun s e =>
      if e.2.func = func && e.2.nodes.any fun n => n.state = 2 then
        match e.2.node e.2.root with
        | some n => signal s func n.eff.msix
        | none => s
      else s) s1)

/-- BUDGET_PERIOD_END: fabric time has passed the end of the period, and the count starts afresh. -/
def execBudgetPeriodEnd (func : Nat) (s : State) : Out :=
  let p := max (s.func func).period 1 * 1000000
  if s.fab.time / p = (s.func func).periodAt / p then .next s
  else
    let s1 := s.modFunc func fun f => { f with used := 0, throttled := false, periodAt := s.fab.time }
    .next { s1 with teams := s1.teams.map fun e => (e.1, if e.2.func = func then { e.2 with countedAt := s.cycle } else e.2) }

/-! ## Pre-emption (15 R339 to R345) -/

/-- A team in STAGING is returned unplaced: its index goes to the held list of its die. In its chain it has not run: a lane
beside it waits until it is placed again and arrives (05 R109, R110). -/
def returnStaging (s : State) (id : TeamId) (tm : Team) : State :=
  let s1 := freeTeam (vacate s tm id fun g => g) id tm
  touchNode s1 tm.queue tm.node fun n => { n with held := aset id.die (mergeIdx (n.heldAt id.die) [tm.index]) n.held }

/-- The teams of a node in a state. -/
def nodeTeams (s : State) (q a : Nat) (p : TeamSt → Bool) : List (TeamId × Team) :=
  s.teams.filter fun e => e.2.queue = q && e.2.node = a && p e.2.st

/-- A slice end becomes pending for a node, for a reason: 1 its own slice end, 2 the dealer's request, 4 a fold. -/
def setPending (s : State) (q a why : Nat) : State :=
  let s1 := touchNode s q a fun n =>
    { n with
      pending := true
      pendAt := if n.pending && (n.why ≠ 4 || why = 4) then n.pendAt
        else if why = 1 then n.runAt + n.eff.slice * 1000 else s.fab.time
      why := n.why ||| why }
  (nodeTeams s1 q a (· = .staging)).foldl (fun s e => returnStaging s e.1 e.2) s1

/-- SLICE_END: SLICE µs of fabric time have passed since the node last entered RUNNING. -/
def execSliceEnd (q node : Nat) (s : State) : Out :=
  match nodeAt s q node with
  | some n =>
    if n.kind = 2 && n.state = 2 && !n.pending && n.eff.slice ≠ 0 && n.runAt + n.eff.slice * 1000 ≤ s.fab.time then
      .next (setPending s q node 1)
    else .next s
  | none => .next s

/-- DEALER_PREEMPT_REQUEST: for a node that is already PREEMPTED, the request keeps it there. -/
def execDealerPreemptRequest (q node : Nat) (s : State) : Out :=
  match nodeAt s q node with
  | some n =>
    if n.kind = 2 && (n.state = 1 || n.state = 2) then .next (setPending s q node 2)
    else if n.kind = 2 && n.state = 3 then .next (touchNode s q node fun n => { n with why := n.why ||| 2 })
    else .next s
  | none => .next s

/-- A node that is PREEMPTED and that nothing keeps so re-enters READY. -/
def reReady (s : State) (q a : Nat) : State :=
  match nodeAt s q a with
  | some n => if n.state = 3 && n.why / 2 = 0 then setNode s q a a fun n => { n with state := 1, readyAt := nextReady s q } else s
  | none => s

/-- Takes a reason away from a node's mask. -/
def clearWhy (s : State) (q a b : Nat) : State := touchNode s q a fun n => { n with why := n.why - n.why / b % 2 * b }

/-- DEALER_LIFT_PREEMPT: the dealer lifts its request. -/
def execDealerLiftPreempt (q node : Nat) (s : State) : Out := .next (reReady (clearWhy s q node 2) q node)

/-- The number of units that a record may issue before the halt (15 R343). -/
def Rec.haltAt (r : Rec) : Nat :=
  let edge := (r.va + (r.span r.issued).off + 4095) / 4096 * 4096
  ((List.range r.units).find? fun u => r.issued ≤ u && edge ≤ r.va + (r.span u).off).getD r.units

/-- The number of records that a take may land before the halt: until those landed reach the next 4 KiB boundary of its
range, or its end (15 R343). -/
def TakeJob.haltAt (t : TakeJob) : Nat :=
  let edge := (t.dest + t.landed * t.rsize + 4095) / 4096 * 4096
  ((List.range t.claims.length).find? fun j => t.landed ≤ j && edge ≤ t.dest + j * t.rsize).getD t.claims.length

/-- A job of a team goes on to the halt's boundary and no further. -/
def Job.halted (t : TeamId) : Job → Job
  | .chain y =>
    if y.team = t then .chain { y with recs := y.recs.map fun r => if r.started then { r with limit := some r.haltAt } else r }
    else .chain y
  | .take y => .take (if y.team = t then { y with limit := some y.haltAt } else y)

/-- What a channel has under way for a team issues no more than to the halt's boundary. -/
def haltJob (t : TeamId) (c : Chan) : Chan :=
  { c with run := c.run.map (Job.halted t), back := c.back.map fun j => if j.started then j.halted t else j }

/-- ESCALATE: the deadline has passed without a yield point, and every hand of the team is halted. -/
def execEscalate (t : TeamId) (s : State) : Out :=
  match aget t s.teams with
  | none => .next s
  | some tm =>
    match escalateAt s tm with
    | none => .next s
    | some x =>
      if tm.st ≠ .running || tm.suspendAt.isSome || !slicePending s tm || s.fab.time < x then .next s
      else
        let s1 := s.modTeam t fun tm => { tm with halted := true, suspendAt := some true }
        .next ((teamChans t tm).foldl (fun s c => s.modChan c (haltJob t)) s1)

/-- The teams whose images are written together: a chain group's running teams, or the one team. -/
def imageGroup (s : State) (id : TeamId) (tm : Team) : List TeamId :=
  if tm.chain then
    match aget (groupOf tm) s.groups with
    | some g => g.teams.filter fun t => match aget t s.teams with
      | some x => x.st = .running
      | none => false
    | none => [id]
  else [id]

/-- Suspends teams whose images go to addresses, the last first, so that each names the next; and the first address. -/
def suspendTeams (s : State) : List (TeamId × Nat) → State × Nat
  | [] => (s, 0)
  | (id, a) :: rest =>
    let r := suspendTeams s rest
    match aget id r.1.teams with
    | none => r
    | some tm => (suspendTeam r.1 id tm a r.2, a)

/-- Changes the saved team of a name. -/
def modSaved (s : State) (id : TeamId) (f : Saved → Saved) : State :=
  { s with saved := s.saved.map fun e => if e.2.id = id then (e.1, f e.2) else e }

/-- Writes the pieces of an image that are left, as far as they go; a piece with a final refusal is given up with a record. -/
def writePieces (sv : Saved) (s : State) : List (Nat × List Byte) → State
  | [] => modSaved s sv.id fun v => { v with left := [] }
  | p :: rest =>
    match virtWrite s sv.team.func p.1 p.2 (nodeFolded s sv.team.func sv.team.node) with
    | .ok s1 => writePieces sv s1 rest
    | .error m =>
      match m.xl with
      | .final code => writePieces sv (sendFault s { sv.dom with code := code, faddr := BitVec.ofNat 64 m.va }) rest
      | _ => imageWaits (modSaved s sv.id fun v => { v with left := p :: rest }) sv m 2

/-- The messages of saved teams whose images are written go to the dispatchers of their dies (04 R61, R62). -/
def sendSaved (s : State) : State :=
  s.saved.foldl (fun s e => match e.2.msg with
    | some (d, m) =>
      let done := (imagesOf s e.2.team.func 8 m.ctx).all fun i => match i with
        | .image _ sv => sv.left = []
        | .fresh _ => true
      if done then
        (modSaved s e.2.id fun v => { v with msg := none }).modDisp d fun x => { x with fresh := x.fresh ++ [m] }
      else s
    | none => s) s

/-- The images of a function's teams are written as far as they go. -/
def writeImages (s : State) (fn : Nat) : State :=
  sendSaved (s.saved.foldl (fun s e => if e.2.team.func = fn then writePieces e.2 s e.2.left else s) s)

/-- A group of teams at rest is suspended: each is saved, and one message will carry them. -/
def suspendGroup (s : State) (t : TeamId) (tm : Team) (ids : List TeamId) (pool : List Nat) : State :=
  let r := suspendTeams s (ids.zip pool)
  let first := ((ids.head?.bind fun i => aget i s.teams).map (·.index)).getD tm.index
  let m : TeamMsg := ⟨r.2, tm.node, first, ids.length, tm.queue, tm.homeDie, t.die, tm.eff.prio, if tm.chain then 3 else 2⟩
  let s1 := r.1.modFunc tm.func fun f => { f with ctxPool := f.ctxPool.drop ids.length }
  { s1 with saved := s1.saved.map fun e =>
      if e.1 = r.2 && e.2.team.func = tm.func then (e.1, { e.2 with msg := some (t.die, m) }) else e }

/-- CONTEXT_IMAGE_WRITE (15 R344): once a team rests and its context pool has an address, the team is suspended and its
image is written; a chain group's teams are suspended together. With a saved team's name, what is left of the images of its
function is written. -/
def execContextImageWrite (t : TeamId) (s : State) : Out :=
  match aget t s.teams with
  | none =>
    match s.saved.find? fun e => e.2.id = t with
    | some e => .next (writeImages s e.2.team.func)
    | none => .next s
  | some tm =>
    let ids := imageGroup s t tm
    let rests := ids.all fun i => match aget i s.teams with
      | some x => teamRests s i x
      | none => false
    let pool := (s.func tm.func).ctxPool
    if !rests || ids = [] || pool.length < ids.length then .next s
    else .next (writeImages (suspendGroup s t tm ids pool) tm.func)

/-- Whether a node has teams that are neither retired nor on a core. -/
def teamsRemain (s : State) (q : Nat) (n : Node) : Bool :=
  n.nextTeam < n.count || (n.held.any fun h => h.2 ≠ [])
    || (s.saved.any fun e => e.2.team.queue = q && e.2.team.node = n.addr)
    || s.dispatchers.any fun d => d.2.incoming.any fun m => m.queue = q && m.wcb = n.addr

/-- NODE_PREEMPTED (15 R345). -/
def execNodePreempted (q node : Nat) (s : State) : Out :=
  match nodeAt s q node with
  | some n =>
    if !n.pending || nodeTeams s q node (fun _ => true) ≠ [] || (s.saved.any fun e => e.2.team.queue = q &&
        e.2.team.node = node && (e.2.left ≠ [] || e.2.msg.isSome)) then .next s
    else if teamsRemain s q n then
      let s1 := setNode s q node node fun n => { n with state := 3, pending := false, why := n.why / 2 * 2 }
      .next (reReady s1 q node)
    else .next (touchNode s q node fun n => { n with pending := false, why := 0 })
  | none => .next s

/-! ## Resets (15 R337, R338) -/

/-- The bytes of scratchpad banks go to zero. -/
def zeroBanks (s : State) (c : CoreId) (banks : List Nat) : State :=
  let hit (k : Nat) : Bool := k / 2097152 = coreNo c && banks.contains (k % 2097152 / 32768)
  { s with mem := { s.mem with
    sp := s.mem.sp.filter fun b => !hit b.1
    spPoison := s.mem.spPoison.filter fun w => !hit (8 * w) } }

/-- The bytes of Commons banks go to zero. -/
def zeroCommons (s : State) (die : Nat) (banks : List Nat) : State :=
  let hit (k : Nat) : Bool := k / 67108864 = die && banks.contains (k % 67108864 / 262144)
  { s with mem := { s.mem with
    cm := s.mem.cm.filter fun b => !hit b.1
    cmPoison := s.mem.cmPoison.filter fun w => !hit (8 * w) } }

/-- Locations go to zero, under whatever key they are read next. -/
def zeroDram (s : State) (a n : Nat) : State :=
  { s with mem := { s.mem with
    dram := memClear s.mem.dram a n
    dramKey := s.mem.dramKey.filter fun e => !(a ≤ e.1 * 64 && e.1 * 64 < a + n)
    dramPoison := s.mem.dramPoison.filter fun l => !(a ≤ l * 64 && l * 64 < a + n) } }

/-- The first location and the length of a segment. -/
def segRange (r : Dword) : Nat × Nat := (bits r.toNat 19 0 * 2097152, bits r.toNat 39 20 * 2097152)

/-- The launch queues of a function. -/
def funcQueues (s : State) (fn : Nat) : List Nat := (s.queues.filter fun e => e.2.func = fn).map (·.1)

/-- Units of a record that wait are abandoned without a record (15 R337). -/
def abandonWaiting (s : State) (c : ChanId) (x : Chain) : State :=
  (List.range x.recs.length).foldl (fun s n =>
    match x.recs[n]? with
    | some r => r.waiting.foldl (fun s u => match (s.chan c).chain with
      | some y => (match y.recs[n]? with
        | some r' => settleUnit s c y n r' u true
        | none => s)
      | none => s) s
    | none => s) s

/-- The runs of a list leave a unit's run queue; the unit is at rest if it was on one of them. -/
def dropRuns (rs : List Nat) (u : Pch) : Pch :=
  let v := { u with runq := u.runq.filter fun r => !rs.contains r }
  match u.runq with
  | r :: _ => if rs.contains r then { v with active := false, susp := none, fresh := false, wait := none } else v
  | [] => v

/-- A function's near-bank runs stop: every unit stands at a row boundary between its operations (12 R254, R273). -/
def stopRuns (s : State) (fn : Nat) : State :=
  let rs := (s.runs.filter fun e => e.2.func = fn).map (·.1)
  { s with runs := s.runs.filter fun e => e.2.func ≠ fn, pchs := s.pchs.map fun e => (e.1, dropRuns rs e.2) }

/-- Steps 1 and 2 of a function's reset begin: nothing more is placed, its teams are halted, its channels start no record,
and its near-bank runs stop. -/
def beginReset (s : State) (fn : Nat) : State :=
  let qs := funcQueues s fn
  let s0 := s.modFunc fn fun f => { f with resetting := true }
  let s1 : State := { s0 with
    trees := s.trees.filter fun e => e.2.func ≠ fn
    queues := s.queues.map fun e => (e.1, if e.2.func = fn then { e.2 with head := e.2.tail, busy := false, owed := false } else e.2)
    dispatchers := s.dispatchers.map fun e => (e.1, { e.2 with
      incoming := e.2.incoming.filter fun m => !qs.contains m.queue
      fresh := e.2.fresh.filter fun m => !qs.contains m.queue
      got := e.2.got.filter fun m => !qs.contains m.queue
      notices := e.2.notices.filter fun n => !qs.contains n.1
      sweeps := e.2.sweeps.filter fun w => w.func ≠ fn })
    saved := s.saved.filter fun e => e.2.team.func ≠ fn
    teams := s.teams.map fun e => (e.1, if e.2.func = fn then { e.2 with halted := true } else e.2) }
  (stopRuns s1 fn).teams.foldl (fun s e =>
    if e.2.func ≠ fn then s
    else (teamChans e.1 e.2).foldl (fun s c =>
      onJobs (stopChan s c e.1) c fun s => match (s.chan c).chain with
        | some x => if x.team = e.1 then abandonWaiting s c x else s
        | none => s) s) (stopRuns s1 fn)

/-- Whether a function's records in flight have run to their end actions; one that waits for room in its ring has. -/
def atRest (s : State) (fn : Nat) : Bool :=
  s.teams.all fun e => e.2.func ≠ fn || (teamChans e.1 e.2).all fun c => (s.chan c).chains.all fun x =>
    x.team ≠ e.1 || !x.recs.any fun r => r.started && !r.ring

/-- Whether a fold of one of a function's jobs is sweeping (15 R338). -/
def foldSweeps (s : State) (fn : Nat) : Bool := s.folds.any fun f => f.2.cmd.func = fn && f.2.kstate = 1

/-- A controller drops the requests made for a function. -/
def dropReqs (fn : Nat) (u : Pch) : Pch :=
  let mine (q : Req) : Bool := q.who.1 ≠ fn
  { u with reqs := u.reqs.filter mine, held := ((u.reqs.take u.held).filter mine).length }

/-- A function's runs and bags go, with everything that waits on them. -/
def dropBags (s : State) (fn : Nat) : State :=
  let s1 := stopRuns s fn
  let s2 : State := { s1 with
    bagReqs := s1.bagReqs.filter fun r => r.func ≠ fn
    pchs := s1.pchs.map fun e => (e.1, dropReqs fn e.2) }
  s2.bags.foldl (fun s b => if b.2.func = fn then removeBag s b.1 b.2 else s) s2

/-- A collective slot of a team that is neither on a core nor suspended is free. -/
def freeLost (s : State) (x : CollSlot) : CollSlot :=
  match x.team with
  | some t =>
    if (aget t s.teams).isSome || s.saved.any fun e => e.2.id = t then x else { x with state := 0, code := 0, team := none }
  | none => x

/-- Steps 1 to 6 of a function's reset, once it is at rest. -/
def finishReset (s : State) (fn : Nat) : State :=
  let qs := funcQueues s fn
  let s1 := s.teams.foldl (fun s e =>
    if e.2.func = fn then
      freeTeam (s.modFunc fn fun f => { f with used := f.used + e.2.quads.length * (s.cycle - e.2.countedAt) }) e.1 e.2
    else s) s
  let s2 := { dropBags s1 fn with
    groups := s1.groups.filter fun g => !qs.contains (g.1.1 / 2 ^ 64)
    ranks := s1.ranks.filter fun r => r.func ≠ fn
    collSlots := s1.collSlots.map fun (e : (CoreId × Nat) × CollSlot) => (e.1, freeLost s1 e.2)
    folds := s1.folds.filter fun f => f.2.cmd.func ≠ fn
    forwards := s1.forwards.filter fun f => f.func ≠ fn
    heldWrites := s1.heldWrites.filter fun f => f.func ≠ fn
    faults := ⟨s1.faults.raw.filter fun r => r.func ≠ fn, s1.faults.merged.filter fun r => r.func ≠ fn⟩ }
  let s3 := s2.cores.foldl (fun s c =>
    (zeroBanks s c.1 (ownBanks c.2 fn)).modCore c.1 fun x => { x with tiles := x.tiles.filter fun t => !(ownTiles c.2 fn).contains t.1 }) s2
  let s4 := (List.range 8).foldl (fun s d => zeroCommons s d ((s.func fn).cmBanks d)) s3
  let r := (s4.func fn).segs.getD 0 0
  let carve := if bit r.toNat 63 then segRange r else (0, 0)
  let s5 := (zeroDram s4 carve.1 carve.2).modFunc fn fun f => { f with pages := [], resetting := false }
  signal s5 fn 0

/-- A reset of a function waits for the sweep of its jobs' folds: these are never unfolded. -/
def markFolds (s : State) (fn : Nat) : State :=
  { s with folds := s.folds.map fun f => (f.1, if f.2.cmd.func = fn then { f.2 with dead := true } else f.2) }

/-- Another module resets the VF of a job: this module frees its transit kitty once it is sealed, and never unfolds it. -/
def freeKitty (s : State) (job : Nat) : State :=
  match aget job s.folds with
  | some f =>
    if f.cmd.root ≠ 0 then s
    else if f.kstate = 1 then { s with folds := amod job (fun f => { f with dead := true }) s.folds }
    else { s with folds := adel job s.folds }
  | none => s

/-- A reset of a VF begins, and finishes once the VF is at rest and no fold of its jobs sweeps; by: the function whose mailbox
asked for it, which gets the dealer's answer (16 R372). -/
def resetVf (s : State) (func : Nat) (by_ : Option Nat) : State :=
  if func = 0 || 64 < func then s
  else if foldSweeps s func then markFolds s func
  else
    let s1 := beginReset s func
    if atRest s1 func then by_.elim (finishReset s1 func) (replyOpen (finishReset s1 func)) else s1

/-- VF_RESET (15 R337, R338): by a function level reset, or by a mailbox request of the PF or the VF itself. Of a VF of another
module, the dealer frees a transit kitty here. -/
def execVfReset (r : VfReset) (s : State) : Out :=
  .next (match r.why with
    | .level => resetVf s r.func none
    | .mailbox f => if (f = 0 || f = r.func) && funcReady s f then resetVf s r.func (some f) else s
    | .elsewhere job => freeKitty s job)

/-- Resets functions one after the other, as far as it goes: each begins once the one before it has finished. -/
def resetInTurn (s : State) : List Nat → State
  | [] => { s with health := { s.health with pfReset := none } }
  | f :: rest =>
    let s0 := { s with health := { s.health with pfReset := some f } }
    if foldSweeps s0 f then markFolds s0 f
    else
      let s1 := beginReset s0 f
      if atRest s1 f then resetInTurn (finishReset s1 f) rest else s1

/-- The functions in the order of a reset of the PF. -/
def resetOrder : List Nat := (List.range 64).map (· + 1) ++ [0]

/-- PF_RESET (15 R338): every VF in ascending number, and then the PF; it goes on from the function that it has reached. -/
def execPfReset (s : State) : Out :=
  .next (resetInTurn s (match s.health.pfReset with
    | some f => resetOrder.dropWhile (· ≠ f)
    | none => resetOrder))

/-! ## Grants (15 R331, R332) -/

/-- Whether a function has a team that holds a slot of a core, or of any core. -/
def onCore (s : State) (c : CoreId) (fn : Nat) : Bool := (coreTeams s c).any fun e => e.2.func = fn
def onAny (s : State) (fn : Nat) : Bool := s.teams.any fun e => e.2.func = fn

/-- A map with a key given to an owner, or to none. -/
def own {κ : Type} [DecidableEq κ] (k : κ) (o : Option Nat) (m : List (κ × Nat)) : List (κ × Nat) :=
  match o with
  | some f => aset k f m
  | none => adel k m

/-- Whether old and new owner have no team on a core. -/
def coreFree (s : State) (c : CoreId) (old new : Option Nat) : Bool := (old.toList ++ new.toList).all fun f => !onCore s c f

/-- A quadrant changes its owner: it holds no team, and its accumulators and channels come back clear. -/
def grantQuad (s : State) (q : QuadId) (o : Option Nat) : State :=
  if (coreTeams s ⟨q.die, q.core⟩).any (fun e => e.2.quads.contains q.quad) || (o.isSome && s.health.lasting.contains (.regSlice q))
  then s
  else { s with
    quadOwner := own q o s.quadOwner
    mats := adel q s.mats
    issue := adel q s.issue
    chans := s.chans.filter fun e => e.1.quad ≠ q }

/-- A group of scratchpad banks changes its owner; one with a retired bank goes to nobody. -/
def grantBanks (s : State) (c : CoreId) (g : Nat) (o : Option Nat) : State :=
  if (s.core c).idle || !coreFree s c (aget g (s.core c).bankOwner) o then s
  else
    let o' := if (s.core c).stuck.any fun b => b / 4 = g then none else o
    (zeroBanks s c ((List.range 4).map (· + 4 * g))).modCore c fun x => { x with bankOwner := own g o' x.bankOwner }

/-- A group of tile entries changes its owner. -/
def grantTiles (s : State) (c : CoreId) (g : Nat) (o : Option Nat) : State :=
  if !coreFree s c (aget g (s.core c).tileOwner) o then s
  else s.modCore c fun x => { x with tileOwner := own g o x.tileOwner, tiles := x.tiles.filter fun t => t.1 / 4 ≠ g }

/-- A group of Commons banks changes its owner (08 R168): the shares of both on that die read as zero. -/
def grantCommons (s : State) (die g : Nat) (o : Option Nat) : State :=
  let old := (s.funcs.find? fun f => f.2.cmGroups.contains (die, g)).map (·.1)
  let bad := s.health.lasting.any fun u => match u with
    | .cmBank d b _ => d = die && b / 8 = g
    | _ => false
  let both := old.toList ++ o.toList
  if both.any (onAny s) then s
  else
    let s1 := both.foldl (fun s f => zeroCommons s die ((s.func f).cmBanks die)) s
    let s2 := match old with
      | some f => s1.modFunc f fun f => { f with cmGroups := f.cmGroups.filter (· ≠ (die, g)) }
      | none => s1
    zeroCommons (match o with
      | some f => if bad then s2 else s2.modFunc f fun f => { f with cmGroups := f.cmGroups ++ [(die, g)] }
      | none => s2) die ((List.range 8).map (· + 8 * g))

/-- A carve-out or a shared segment is given or taken back (14 R312): the carve-out's blocks read as zero. -/
def grantCarve (s : State) (fn seg base size key : Nat) (ro give : Bool) : State :=
  let meets := s.funcs.any fun f => (f.1 ≠ fn || seg ≠ 0) && bit ((f.2.segs.getD 0 0).toNat) 63 &&
    rangesMeet (segRange (f.2.segs.getD 0 0)) (base * 2097152, size * 2097152)
  if onAny s fn || 2 < seg then s
  else if !give then s.modFunc fn fun f => { f with segs := f.segs.set seg 0 }
  else if size = 0 || 2 ^ 19 < size || 2 ^ 20 < base + size || 63 < key || (key ≠ 0 && (aget key s.keySlots).isNone) || (seg ≠ 0 && !ro)
    || (seg = 0 && meets) || !(List.range 32).all (fun i => s.health.ready.contains (.stack i)) then s
  else
    let r := 2 ^ 63 + (if ro then 2 ^ 62 else 0) + key * 2 ^ 56 + size * 2 ^ 20 + base
    let s1 := if seg = 0 then zeroDram s (base * 2097152) (size * 2097152) else s
    s1.modFunc fn fun f => { f with segs := f.segs.set seg (BitVec.ofNat 64 r) }

/-- The blocks of a range that an old range does not hold go to zero. -/
def zeroNew (s : State) (old new : Nat × Nat) : State :=
  let s1 := zeroDram s new.1 (min (new.1 + new.2) old.1 - new.1)
  let a := max new.1 (old.1 + old.2)
  zeroDram s1 a (new.1 + new.2 - a)

/-- The dealer writes a segment register (14 R312), while no team of the function holds a slot. No block may belong to two
carve-outs, and what a carve-out gains reads as zero (15 R331), and none is given while a stack is not ready (23 R404); a
register that breaks R312's ranges, or a carve-out that meets another's, leaves it as it is (DESIGN CHOICE,
notes/assumptions/109.md). -/
def segmentWrite (s : State) (fn i : Nat) (w : Dword) : State :=
  let x := w.toNat
  let old := (s.func fn).segs.getD i 0
  let meets := s.funcs.any fun f => f.1 ≠ fn && bit ((f.2.segs.getD 0 0).toNat) 63 &&
    rangesMeet (segRange (f.2.segs.getD 0 0)) (segRange w)
  let allStacks := (List.range 32).all fun j => s.health.ready.contains (.stack j)
  if onAny s fn || 2 < i then s
  else if i = 0 && bit x 63 && !allStacks then s
  else if bit x 63 && (bits x 39 20 = 0 || 2 ^ 19 < bits x 39 20 || 2 ^ 20 < bits x 39 20 + bits x 19 0 || (i = 0 && meets)) then s
  else
    let s1 := if i = 0 && bit x 63 then zeroNew s (if bit old.toNat 63 then segRange old else (0, 0)) (segRange w) else s
    s1.modFunc fn fun f => { f with segs := f.segs.set i w }

/-- A key slot is loaded for a function, or erased once no segment uses it (14 R308). -/
def grantKey (s : State) (k : Nat) (o : Option Nat) (key : BitVec 512) : State :=
  let used := s.funcs.any fun f => f.2.segs.any fun r => bit r.toNat 63 && bits r.toNat 61 56 = k
  if k = 0 || 63 < k || used then s else { s with keySlots := match o with
    | some f => aset k (f, key) s.keySlots
    | none => adel k s.keySlots }

/-- A launch queue changes its owner: TAIL, HEAD and EN are 0. -/
def grantQueue (s : State) (q : Nat) (o : Option Nat) : State :=
  if 63 < q || (s.queue q).busy then s
  else s.modQueue q fun u => { u with func := o.getD 0, tail := 0, head := 0, en := false, owed := false }

/-- RESOURCE_GRANT (15 R331): the dealer gives a resource to a function or takes it back. -/
def execResourceGrant (g : Grant) (s : State) : Out :=
  .next (match g with
    | .quad q o => grantQuad s q o
    | .spBanks c g o => grantBanks s c g o
    | .tiles c g o => grantTiles s c g o
    | .commons d g o => grantCommons s d g o
    | .carveOut f seg base size key ro give => grantCarve s f seg base size key ro give
    | .keySlot k o key => grantKey s k o key
    | .queue q o => grantQueue s q o)

end Sys2Proof.Machine
end

