-- ==== Sys2Proof/Machine/Dealer.lean ====
section
/-! DEFINITION. The fault path, the dealer's answers and changes of translation, forwarded lines, the recovery of stopped
threads, the dirty bitmap and the dealer's registers (14 R309 to R327, 16 R372). -/

namespace Sys2Proof.Machine

/-- The state that an outcome gives, if it gives one. -/
def nextOf (o : Out) (s : State) : State :=
  match o with
  | .next s' => s'
  | _ => s

/-! ## Fault records (14 R320 to R323) -/

/-- The page of a record whose fault has been answered: no later fault shares it. -/
def answered : Nat := 2 ^ 65

/-- Two waiting records name the same page, code, domain and source kind, on one die. -/
def sameFault (a b : FaultRec) : Bool :=
  a.wait && b.wait && a.page = b.page && a.code = b.code && a.func = b.func && a.fq = b.fq && a.msix = b.msix
    && a.src = b.src && a.die = b.die && a.page ≠ answered

/-- A waiting fault joins a record; one already written is not rewritten. -/
def joinFault (x r : FaultRec) : FaultRec :=
  if sameFault x r && !x.written then { x with waiters := min 65535 (x.waiters + r.waiters), acc := x.acc ||| r.acc } else x

/-- FAULT_FILTER_MERGE: the n-th fault on its way, the first of its die, merges into an unresolved record, or is one of its
own. -/
def execFaultFilterMerge (n : Nat) (s : State) : Out :=
  match s.faults.raw[n]? with
  | none => .next s
  | some r =>
    if (s.faults.raw.take n).any fun x => x.die = r.die then .next s
    else
      let m := if s.faults.merged.any (sameFault · r) then s.faults.merged.map (joinFault · r) else s.faults.merged ++ [r]
      .next { s with faults := ⟨delAt n s.faults.raw, m⟩ }

/-- The 64 bytes of a record; seq: TAIL at the write. -/
def FaultRec.word (r : FaultRec) (seq : Nat) : Nat :=
  r.code % 256 + (if r.wait then 2 ^ 8 else 0) + r.src % 16 * 2 ^ 16 + r.acc % 16 * 2 ^ 20 + seq % 2 ^ 32 * 2 ^ 32
    + (if r.wait then r.waiters % 2 ^ 16 else 0) * 2 ^ 64 + r.hand % 128 * 2 ^ 80 + r.lane % 128 * 2 ^ 87
    + r.quad % 4 * 2 ^ 94 + r.core % 64 * 2 ^ 96 + r.die % 8 * 2 ^ 102 + r.chan % 4 * 2 ^ 105 + r.spoff % 2 ^ 21 * 2 ^ 107
    + r.team % 2 ^ 32 * 2 ^ 128 + r.felem % 2 ^ 32 * 2 ^ 160 + r.wcb % 2 ^ 64 * 2 ^ 192 + r.iaddr.toNat * 2 ^ 256
    + r.faddr.toNat * 2 ^ 320

/-- The dealer is told once that a fault queue is unwritable (14 R322). -/
def tellQueue (s : State) (fn fq : Nat) : State :=
  tellOnce s (.queue fn fq)

/-- What a fault queue leaves that has not taken a record: where it does not translate, or its header is malformed, the
dealer is told. -/
def queueHolds (s : State) (r : FaultRec) (a : Appended) : State :=
  match a with
  | .malformed => tellQueue s r.func r.fq
  | .stuck m => (match m.xl with
    | .dealer _ _ => tellQueue s r.func r.fq
    | .final _ => tellQueue (m.note s r.func) r.func r.fq
    | _ => m.note s r.func)
  | _ => s

/-- The first record of a home die that its queue takes, and whether the queue was empty; and the state after the write, or
after what the queues that hold their records leave. No record goes before an earlier one of its queue. -/
def firstTaken (die : Nat) (s : State) : List FaultRec → List FaultRec → State × Option (FaultRec × Bool)
  | _, [] => (s, none)
  | seen, r :: rest =>
    if r.written || r.homeDie ≠ die || seen.any (fun x => x.func = r.func && x.fq = r.fq) then
      firstTaken die s (if r.written then seen else r :: seen) rest
    else match ringAppend s r.func r.fq 64 r.word with
      | .done s1 empty => (s1, some (r, empty))
      | a => firstTaken die (queueHolds s r a) (r :: seen) rest

/-- The records once one has been written: a final or an answered one goes, a waiting one is kept while it is unresolved. -/
def writtenOne (r : FaultRec) : List FaultRec → List FaultRec
  | [] => []
  | x :: t => if x = r then (if r.wait && r.page ≠ answered then { r with written := true } :: t else t) else x :: writtenOne r t

/-- FAULT_QUEUE_APPEND: the home merger of a die writes its next record. -/
def execFaultQueueAppend (die : Nat) (s : State) : Out :=
  match firstTaken die s [] s.faults.merged with
  | (s1, none) => .next s1
  | (s1, some (r, empty)) =>
    let s2 := { s1 with faults := { s1.faults with merged := writtenOne r s1.faults.merged } }
    .next (if empty then signal s2 r.func r.msix else s2)

/-- The faults on their way that an answer reaches merge first: one with a record of its kind into that record, and else
into the first of its kind on its way (14 R320). -/
def gatherRaw (hit : FaultRec → Bool) (merged raw : List FaultRec) : List FaultRec :=
  raw.foldl (fun l r =>
    if hit r && merged.any (sameFault · r) then l
    else if hit r && l.any (sameFault · r) then l.map (joinFault · r) else l ++ [r]) []

/-- The faults of a function on pages within a range are answered. -/
def resolveFaults (s : State) (fn lo size : Nat) : State :=
  let hit (r : FaultRec) : Bool := r.wait && r.func = fn && lo ≤ r.page && r.page < lo + size
  let mark (r : FaultRec) : FaultRec := if hit r then { r with page := answered } else r
  let m := (s.faults.raw.filter hit).foldl (fun m r => m.map (joinFault · r)) s.faults.merged
  { s with faults := ⟨(gatherRaw hit s.faults.merged s.faults.raw).map mark, (m.filter fun r => !(hit r && r.written)).map mark⟩ }

/-! ## The dealer's answers (14 R319) -/

/-- A page as R310 allows it. -/
def pageOk (p : Page) : Bool :=
  (p.size = 65536 || p.size = 2097152 || p.size = 536870912) && p.va % p.size = 0 && p.va < 2 ^ 64
    && (match p.state with
      | .resident => p.fa % p.size = 0
      | .pulling => p.fa % p.size = 0
      | _ => true)

/-- Whether a page overlaps a translation at another address. -/
def pageMeets (f : Func) (p : Page) : Bool := f.pages.any fun x => x.va ≠ p.va && rangesMeet (x.va, x.size) (p.va, p.size)

/-- Puts a translation in place of the one at its address. -/
def putPage (s : State) (fn : Nat) (p : Page) : State :=
  s.modFunc fn fun f => { f with pages := f.pages.filter (fun x => x.va ≠ p.va) ++ [p] }

/-- Whether a run on a unit has still to access a row that it has placed on a page. -/
def rowOn (r : NbRun) (u : UnitRun) (p : Page) : Bool :=
  (u.rows ++ u.cur.toList).any fun w => (List.range 4).any fun k =>
    r.base k ≠ 0 && rangesMeet (r.rowVa k w.i, 1024) (p.va, p.size)

/-- Whether an access that looked up a translation is still outstanding (14 R311): a forwarded line, a request at a
controller, or a row of a run. -/
def pageBusy (s : State) (fn : Nat) (p : Page) : Bool :=
  (s.forwards.any fun f => f.func = fn && rangesMeet (f.va, f.len) (p.va, p.size))
    || (s.pchs.any fun e => e.2.reqs.any fun q => q.who.1 = fn && q.parts.any fun w => rangesMeet (w.1, w.2.2) (p.va, p.size))
    || (s.runs.any fun e => e.2.func = fn && e.2.units.any fun u => rowOn e.2 u.2 p)

/-- The translation of a function at a virtual address is still in use. -/
def oldBusy (s : State) (fn va : Nat) : Bool := ((s.func fn).pages.filter fun p => p.va = va).any (pageBusy s fn)

/-- The rows that a fill of n bytes writes, from a device physical address on: their controllers take requests. -/
def fillFree (s : State) (fn d n : Nat) : Bool :=
  (pieces 1024 (n / 1024 + 2) (locOf d) n).all fun p => mayServe s (pchOf p.1) (engineLane fn true)

/-- The channel, record and unit that wait for an access. -/
def unitOfReq (s : State) (id : Nat) : Option (ChanId × Nat × Nat) :=
  s.chans.findSome? fun e => match e.2.chain with
    | some x => ((List.range x.recs.length).zip x.recs).findSome? fun n =>
        (n.2.reqs.find? fun q => q.2.contains id).map fun q => (e.1, n.1, q.1)
    | none => none

/-- The held accesses of a unit are over: what the unit waits for is changed. -/
def reunit (s : State) (id : Nat) (f : ChanId → Chain → Nat → Nat → Rec → State → State) : State :=
  match unitOfReq s id with
  | none => s
  | some (c, n, u) => match (s.chan c).chain with
    | none => s
    | some x => match x.recs[n]? with
      | some r => f c x n u r s
      | none => s

/-- The accesses of a unit that were held go to where their pages now lie, together; while one of them meets a migrating page
they stay held, and where one has no place none is made: the unit waits, to be replayed, or is abandoned. -/
def releaseGroup (s : State) (g : Nat) : State :=
  match s.heldWrites.filter (·.group = g) with
  | [] => s
  | h :: t =>
    if (h :: t).any fun e => translate s e.func e.va .write = .held then s
    else
      let s1 := { s with heldWrites := s.heldWrites.filter (·.group ≠ g) }
      match sendRanges s1 ⟨h.func, h.who.2, h.src⟩ h.rop ((h :: t).map fun e => ⟨e.va, e.data.length, some e.data⟩) with
      | .ok (s2, ids) => reunit s2 h.id fun c _ n u _ s => modRec s c n fun r => { r with reqs := aset u ids r.reqs }
      | .error m => reunit s1 h.id fun c x n u r s => match m.xl with
        | .final code =>
          let s2 := { s with answers := s.answers ++ [(h.id, ⟨some
            { code := code, faddr := BitVec.ofNat 64 m.va, acc := if h.rop.isSome then 8 else 2 }, 0, []⟩)] }
          modRec s2 c n fun r => { r with reqs := aset u [h.id] r.reqs }
        | _ => unitWaits (modRec s c n fun r => { r with reqs := adel u r.reqs }) c x n r u h.func m

/-- The held writes of a function go on where they may, in the order in which they were issued (14 R316). -/
def releaseHeld (s : State) (fn : Nat) : State :=
  (((s.heldWrites.filter (·.func = fn)).map (·.group)).dedup).foldl releaseGroup s

/-- DEALER_MAP (14 R319): the dealer maps a page, with the bytes it puts there, or grants a permission; what waits on it
may try again. A translation that it takes the place of is replaced once no access uses it (R311). -/
def execDealerMap (func : Nat) (page : Page) (fill : List Byte) (s : State) : Out :=
  if !pageOk page || pageMeets (s.func func) page || page.state = .invalid || page.size < fill.length ||
      oldBusy s func page.va then .next s
  else
    let s1 := putPage s func page
    let maps (s : State) : Out := .next (releaseHeld (resolveFaults s func page.va page.size) func)
    if fill = [] || page.state ≠ .resident || pastSegment s1 func (page.fa + fill.length - 1) then maps s1
    else match secondStage s1 func page.fa false with
      | .dram d w => if fillFree s func d fill.length then maps (placeWrite s1 (.dram d w) fill) else .next s
      | _ => maps s1

/-- The dealer has refused a page: whether an access meets that page. -/
def onPage (x : Xl) (page : Nat) : Bool :=
  match x with
  | .dealer _ p => p = page
  | _ => false

/-- Fetching threads raise the code. -/
def refuseFetch (s : State) (fn page code : Nat) : State :=
  s.threads.foldl (fun s e =>
    match e.2.run with
    | .fetch va _ =>
      if funcOf s e.1 = fn && onPage (translate s fn (lineAddr va).toNat .fetch) page then
        takeFault s e.1 { code := code, faddr := va, acc := 4 }
      else s
    | _ => s) s

/-- What is left of the read of an entry under way: address and length. -/
def entryLeft (tm : Team) (i : Nat) (e : BitVec 128) : Nat × Nat :=
  let at_ := agetD i 0 tm.stageAt
  (regionBase e tm.index + at_, (if regionKind e = 5 then 24 else regionLen e) - at_)

/-- Staging reads and write-backs. -/
def refuseStaging (s : State) (fn page : Nat) : State :=
  s.teams.foldl (fun s e =>
    let tm := e.2
    let reads := ((List.range tm.region.length).zip tm.region).any fun x =>
      bit tm.stageWait x.1 && rangeOn s fn page (entryLeft tm x.1 x.2).1 (entryLeft tm x.1 x.2).2 .read
    let writes := match (backPieces tm).drop tm.stagePhase with
      | p :: _ => rangeOn s fn page p.1 p.2.1 .write
      | [] => false
    if tm.func ≠ fn || tm.stageWait = 0 then s
    else if (tm.st = .staging && reads) || (tm.st = .draining && writes) then nextOf (execStagingPageAnswer e.1 false s) s
    else s) s

/-- Stack lines: one that is in the cache waits with its write-back. -/
def refuseStack (s : State) (fn page code : Nat) : State :=
  s.threads.foldl (fun s e =>
    match e.2.need, aget e.1.team s.teams with
    | some (a, true), some tm =>
      let va := (stackBase tm e.1 + a / 64 * 64) % 2 ^ 64
      let held := match aget (handOf e.1) s.hands with
        | some h => (cachedLine h e.1.lane (a / 64)).isSome
        | none => false
      if tm.func = fn && rangeOn s fn page va 64 (if held then .write else .read) then
        nextOf (execStackPageAnswer e.1 false (code = 0x11) s) s
      else s
    | _, _ => s) s

/-- Rows of near-bank runs. -/
def refuseRows (s : State) (fn page : Nat) : State :=
  s.runs.foldl (fun s e =>
    if e.2.func ≠ fn then s
    else e.2.waiting.foldl (fun s i => match rowAt s e.2 i with
      | .waits _ m => if onPage m.xl page then nextOf (execNbRowMapped e.1 i false s) s else s
      | _ => s) s) s

/-- Validation reads and write-backs of the dispatchers. -/
def refuseTrees (s : State) (fn page code : Nat) : State :=
  let s1 := s.trees.foldl (fun s e => match e.2.waiting with
    | some w => if e.2.func = fn && onPage (translate s fn w.addr .read) page then refuseRead s e.1 else s
    | none => s) s
  s1.dispatchers.foldl (fun s d => d.2.sweeps.foldl (fun s w =>
    match w.asked with
    | some a => if w.func = fn && onPage (translate s fn a.va .write) page then refuseSweep s d.1 w code a.va else s
    | none => s) s) s1

/-- A unit of a suspended team is abandoned: its barrier's call is held until the team is back (15 R345). -/
def dropSavedUnit (sv : Saved) (r : Rec) (u : Nat) : Saved × Rec :=
  ({ sv with held := if r.rel || r.cpl ≠ 0 then sv.held else sv.held ++ [(r.cploff, (r.span u).len)] },
    { r with
      mask := r.mask ||| 2 ^ u
      gone := r.gone ||| 2 ^ u
      waiting := r.waiting.filter (· ≠ u)
      asked := adel u r.asked
      reqs := adel u r.reqs })

/-- The units of a suspended team's record that wait on a page. -/
def dropSavedRec (s : State) (page : Nat) (sv : Saved) (r : Rec) : Saved × Rec :=
  r.waiting.foldl (fun x u =>
    if unitOnPage s sv.id sv.team r page u && !bit x.2.mask u then dropSavedUnit x.1 x.2 u else x) (sv, r)

/-- Goes through a list, with a state. -/
def through {σ α : Type} (f : σ → α → σ × α) : σ → List α → σ × List α
  | x, [] => (x, [])
  | x, a :: rest => let y := f x a; let z := through f y.1 rest; (z.1, y.2 :: z.2)

/-- The jobs of a suspended team with the units that wait on a page abandoned. -/
def dropSavedJob (s : State) (page : Nat) (sv : Saved) (j : Job) : Saved × Job :=
  match j with
  | .chain x => let y := through (dropSavedRec s page) sv x.recs; (y.1, .chain { x with recs := y.2 })
  | .take t => (sv, .take t)

/-- A suspended team, after the refusal of a page: its waiting units, and the pieces of its image. -/
def refuseOne (s : State) (page : Nat) (sv : Saved) : Saved :=
  let y := through (fun sv (e : Nat × Nat × List Job) =>
    let z := through (dropSavedJob s page) sv e.2.2
    (z.1, (e.1, e.2.1, z.2))) sv sv.jobs
  { y.1 with
    jobs := y.2
    left := sv.left.filter fun p => !rangeOn s sv.team.func page p.1 p.2.length .write }

/-- Whether the read of a suspended team's image waits on a page. -/
def imageOn (s : State) (a page : Nat) (sv : Saved) : Bool :=
  sv.left = [] && sv.asked.any (·.1 = page) && rangeOn s sv.team.func page a sv.image.length .read

/-- Suspended teams: what they wait for there, and the read of their image. -/
def refuseSaved (s : State) (fn page : Nat) : State :=
  { s with saved := s.saved.map fun e => (e.1, if e.2.team.func = fn then
      { refuseOne s page e.2 with refused := e.2.refused || imageOn s e.1 page e.2 } else e.2) }

/-- Folds: the fold engine gives up what it has to write or read there. -/
def refuseFolds (s : State) (fn page : Nat) : State :=
  { s with folds := s.folds.map fun e => (e.1,
      if e.2.cmd.func = fn && e.2.asked.any (·.1 = page) then { e.2 with refused := e.2.refused ++ [page] } else e.2) }

/-- DEALER_REFUSE (14 R319): the dealer refuses a page: fetching threads raise the code, engine units are abandoned, and
every other waiter ends as its chapter says. -/
def execDealerRefuse (func va : Nat) (code : Byte) (s : State) : Out :=
  let page := match (s.func func).page va with
    | some p => p.va
    | none => va / 65536 * 65536
  let c := code.toNat
  if c ≠ 0x10 && c ≠ 0x11 then .next s
  else
    let s1 := resolveFaults s func page 1
    let s2 := refuseUnits (refuseFetch s1 func page c) func page
    let s3 := refuseRows (refuseStack (refuseStaging s2 func page) func page c) func page
    .next (refuseFolds (refuseSaved (refuseRanks (refuseTrees s3 func page c) func page c) func page) func page)

/-! ## Changes of translation (14 R311, R315 to R318; 13 R283) -/

/-- TRANSLATION_CHANGE (14 R311): complete only once every access under the old translation has been performed. -/
def execTranslationChange (func va : Nat) (page : Option Page) (s : State) : Out :=
  if oldBusy s func va then .next s
  else match page with
    | none => .next (releaseHeld (s.modFunc func fun f => { f with pages := f.pages.filter fun x => x.va ≠ va }) func)
    | some p => .next (if p.va = va && pageOk p && !pageMeets (s.func func) p then releaseHeld (putPage s func p) func else s)

/-- MIGRATION_SWITCH (14 R316): a MIGRATING page moves to its new copy, and the writes held at the engines go there. -/
def execMigrationSwitch (func va : Nat) (page : Page) (s : State) : Out :=
  match (s.func func).pages.find? fun p => p.va = va with
  | some p =>
    (match p.state with
    | .migrating _ =>
      .next (if pageBusy s func p || page.va ≠ va || page.size ≠ p.size || !pageOk page then s
        else releaseHeld (putPage s func page) func)
    | _ => .next s)
  | none => .next s

/-- Threads whose fetch waits for a lost page raise PAGE_LOST. -/
def losePulls (s : State) (fn : Nat) (p : Page) : State :=
  s.threads.foldl (fun s e =>
    match e.2.run with
    | .pull va =>
      if funcOf s e.1 = fn && p.va ≤ va.toNat && va.toNat < p.va + p.size then
        takeFault s e.1 { code := 0x12, faddr := va, acc := 4 }
      else s
    | _ => s) s

/-- Whether a line of a PULLING page may be pulled: one that an access waits for goes ahead of the others. -/
def pullsNext (p : Page) (line : Nat) : Bool :=
  !p.pulled.contains line && (match p.wanted.filter fun w => !p.pulled.contains w with
    | [] => true
    | w :: _ => w = line)

/-- LINE_PULL (14 R317): a line of a PULLING page is pulled from the old home; a failure marks the page LOST. -/
def execLinePull (func va : Nat) (failed : Bool) (s : State) : Out :=
  match (s.func func).page va with
  | none => .next s
  | some p =>
    if p.state ≠ .pulling then .next s
    else if failed then
      .next (losePulls (putPage s func { p with state := .lost, key := segKey s func p }) func p)
    else if !pullsNext p (va / 128) then .next s
    else
      let a := va / 128 * 128
      let bs := memRead s.mem.fabric (p.node * 4398046511104 + (p.addr + (a - p.va)) % 4398046511104) 128
      match secondStage s func (p.fa + (a - p.va)) true with
      | .dram d w =>
        let k := engineLane func true
        if mayServe s (pchOf d) k then
          .next (countServed (placeWrite (putPage s func { p with pulled := p.pulled ++ [va / 128] }) (.dram d w) bs) (pchOf d) k)
        else .next (noteBusy s (pchOf d) k)
      | _ => .next s

/-- The duplicated pages that a node holds copies of, by function. -/
def dupPages (s : State) (node : Nat) : List (Nat × Page) :=
  s.funcs.flatMap fun f => (f.2.pages.filter fun p => p.dup && p.holders.contains node).map fun p => (f.1, p)

/-- DUP_INVALIDATE_ACK (13 R283): a holder acknowledges that its copy of a duplicated page, the n-th it holds, is invalid. -/
def execDupInvalidateAck (n node : Nat) (s : State) : Out :=
  match (dupPages s node)[n]? with
  | some (fn, p) => .next (putPage s fn { p with holders := p.holders.filter (· ≠ node) })
  | none => .next s

/-! ## Forwarded lines (14 R309, R314, R318) -/

/-- The virtual channel of a function's lines on the link (16 R354). -/
def lineVc (fn : Nat) : Nat := fn % 6

/-- Whether a line may travel to its owner and back: its job is not folded (15 R347), the owner is this module's host or has
a route, and nothing blocks the line's virtual channel. -/
def lineTravels (s : State) (f : Forward) : Bool :=
  !nodeFolded s f.func f.wcb && (match f.node with
    | none => true
    | some n => match portTo s n with
      | some p => !vcBlocked s p (lineVc f.func)
      | none => false)

/-- Whether an earlier line of the same channel has still to be performed at a place that a line meets: the lines of one
channel keep their order at each address (09 R199). -/
def lineOvertakes (s : State) (f : Forward) : Bool :=
  f.src.isSome && (s.forwards.takeWhile (·.id ≠ f.id)).any fun g => g.src = f.src && g.node = f.node && g.dram = f.dram &&
    g.group ≠ f.group && (g.write.isSome || f.write.isSome) && rangesMeet (g.addr, g.len) (f.addr, f.len)

/-- Whether a part of a unit that lies in this module's DRAM may be performed: its controller takes it, and none of its
channel's requests is queued there before it (22 R398). -/
def dramTurn (s : State) (f : Forward) : Bool :=
  mayServe s (pchOf f.addr) (engineLane f.func true) && (s.pch (pchOf f.addr)).reqs.all fun q => q.src ≠ f.src

/-- Whether a line may be performed now. -/
def lineReady (s : State) (f : Forward) : Bool :=
  (if f.dram.isSome then dramTurn s f else lineTravels s f) && !lineOvertakes s f

/-- The place of a line. -/
def Forward.place (f : Forward) : Xl :=
  match f.dram, f.node with
  | some d, _ => .dram f.addr d
  | none, some n => .fabric n f.addr f.va
  | none, none => .host f.addr f.va

/-- The answer to a line that ends with a code. -/
def Forward.ends (f : Forward) (code : Nat) : Answer :=
  ⟨some { code := code, faddr := BitVec.ofNat 64 f.va, acc := if f.rop.isSome then 8 else if f.write.isSome then 2 else 1 }, 0, []⟩

/-- The code with which a forwarded line ends without being performed. -/
def forwardFails (s : State) (f : Forward) : Option Nat :=
  match f.node with
  | none => if f.rop.isSome && placePoisoned s f.place f.len then some 0x15 else none
  | some n =>
    if s.fab.lost.contains n then some 0x14
    else if agetD n f.inc s.fab.peers ≠ f.inc then some 0x13
    else if Config.exported s.tick n f.func f.addr then none else some 0x11

/-- The lines that are performed together with one. -/
def lineGroup (s : State) (f : Forward) : List Forward := s.forwards.filter (·.group = f.group)

/-- Lines are answered: each with its answer. -/
def answerLines (s : State) (g : Nat) (a : Forward → Answer) : State :=
  { s with
    forwards := s.forwards.filter (·.group ≠ g)
    answers := s.answers ++ (s.forwards.filter (·.group = g)).map fun f => (f.id, a f) }

/-- A line counts: at its page's counter (14 R315), or at its controller. -/
def countForward (s : State) (f : Forward) : State :=
  countLine (if f.dram.isSome then countServed s (pchOf f.addr) (engineLane f.func true) else s) f.func f.va f.write.isSome

/-- The lines of a group are performed at their owners, in one step: what they read, or what they write, which a reducing
copy combines with what is there (09 R190). -/
def performLines (s : State) (fs : List Forward) (f : Forward) : State :=
  let s1 := fs.foldl countForward s
  let old := fs.flatMap fun e => placeRead s e.place e.len
  match f.write with
  | none => answerLines s1 f.group fun e => ⟨none, 0, placeRead s e.place e.len⟩
  | some _ =>
    let new := writtenBytes f.rop old (fs.flatMap fun e => e.write.getD [])
    let s2 := (fs.foldl (fun (r : State × List Byte) e => (placeWrite r.1 e.place (r.2.take e.len), r.2.drop e.len)) (s1, new)).1
    answerLines s2 f.group fun _ => ⟨none, 0, []⟩

/-- A part of a unit whose controller is taken waits there. -/
def noteTaken (s : State) (f : Forward) : State :=
  if f.dram.isSome && !mayServe s (pchOf f.addr) (engineLane f.func true) then
    noteBusy s (pchOf f.addr) (engineLane f.func true)
  else s

/-- The n-th line on its way is performed at its owner, with its group, or ends there, or with the owner lost. -/
def sentLine (n : Nat) (s : State) : State :=
  match s.forwards[n]? with
  | none => s
  | some f =>
    let fs := lineGroup s f
    match fs.findSome? fun e => (forwardFails s e).map fun c => (e, c) with
    | some (e, c) => if c = 0x11 && !lineTravels s e then s else answerLines s f.group (·.ends c)
    | none => if fs.all (lineReady s) then performLines s fs f else fs.foldl noteTaken s

/-- Answers another module's line. -/
def replyLine (s : State) (node : Nat) (code : Option Nat) (bs : List Byte) : State :=
  { s with fab := { s.fab with replies := s.fab.replies ++ [(node, code, bs)] } }

/-- The direction and the asker of another module's line, for this module's controllers. -/
def farLane (node fn : Nat) (wr : Bool) : Bool × Nat × Nat := (wr, fn + 128 * (node + 1), 2 ^ 64)

/-- A line of another module's function, of n bytes, reaches this module's location (14 R309): it is performed where the
dealer has exported the location to them, under the export's key; it waits for its controller and for the holders of a
duplicated page, and never for the dealer (R314). -/
def atLocation (node fn loc n : Nat) (wr : Bool) (s : State) (f : Xl → State) : State :=
  if node = s.fab.node || n = 0 || 128 < n || 128 < loc % 128 + n || 2 ^ 41 < loc + n then s
  else match portTo s node with
    | none => s
    | some p =>
      if vcBlocked s p (lineVc fn) then s
      else match ownExport s node fn loc wr with
        | .dram d w =>
          let k := farLane node fn wr
          if !mayServe s (pchOf d) k then noteBusy s (pchOf d) k else countServed (f (.dram d w)) (pchOf d) k
        | .final c => replyLine s node (some c) []
        | _ => s

/-- A read or a write of another module. -/
def cameLine (node fn loc : Nat) (write : Option (List Byte)) (len : Nat) (s : State) : State :=
  match write with
  | some bs => atLocation node fn loc bs.length true s fun x => replyLine (placeWrite s x bs) node none []
  | none => atLocation node fn loc len false s fun x =>
    if placePoisoned s x len then replyLine s node (some 0x15) [] else replyLine s node none (placeRead s x len)

/-- A reduction of another module's copy, under the tag of its channel, record and unit (09 R197): one whose tag has been
applied is dropped. -/
def cameReduction (node fn loc rop : Nat) (bs : List Byte) (tag : Nat) (s : State) : State :=
  if s.fab.tags.contains (node, tag) then replyLine s node none []
  else atLocation node fn loc bs.length true s fun x =>
    if placePoisoned s x bs.length then replyLine s node (some 0x15) []
    else
      let s1 := placeWrite s x (combineBytes rop (placeRead s x bs.length) bs)
      replyLine { s1 with fab := { s1.fab with tags := s1.fab.tags ++ [(node, tag)] } } node none []

/-- FORWARDED_LINE (14 R309, R314). -/
def execForwardedLine (l : LineStep) (s : State) : Out :=
  .next (match l with
    | .sent n => sentLine n s
    | .came node fn loc write len => cameLine node fn loc write len s
    | .reduces node fn loc rop data tag => cameReduction node fn loc rop data tag s)

/-- REDUCING_ELEMENT_APPLY (09 R190): unit u of a reducing record is combined, at the controller where it waits or with its
lines' owners. -/
def execReducingElementApply (c : ChanId) (r : Nat) (u : Nat) (s : State) : Out :=
  match ((s.chan c).chain.bind fun x => x.recs[r]?).bind fun rc =>
      if rc.kind = 3 then (aget u rc.reqs).bind (·.find? fun i => (aget i s.answers).isNone) else none with
  | none => .next s
  | some id =>
    match s.forwards.findIdx? (·.id = id) with
    | some n => .next (sentLine n s)
    | none => match s.pchs.findSome? fun p => (p.2.reqs.findIdx? (·.id = id)).map fun n => (p.1, n) with
      | some (p, n) => .next (serveNth p n s)
      | none => .next s

/-- Every forwarded line to a peer ends with a code, and with it the rest of its group. -/
def endForwards (s : State) (node code : Nat) : State :=
  (((s.forwards.filter fun f => f.node = some node).map (·.group)).dedup).foldl (fun s g => answerLines s g (·.ends code)) s

/-- PEER_RESET (14 R318): a known peer has a new incarnation. -/
def execPeerReset (node : Nat) (inc : Word) (s : State) : Out :=
  match aget node s.fab.peers with
  | some i =>
    if i = inc then .next s
    else
      let s1 := { s with fab := { s.fab with peers := aset node inc s.fab.peers, tags := s.fab.tags.filter (·.1 ≠ node) } }
      .next (loseRanks (endForwards s1 node 0x13) node 0x13)
  | none => .next { s with fab := { s.fab with peers := aset node inc s.fab.peers } }

/-- The other modules that this one may have to reach. -/
def farNodes (s : State) : List Nat :=
  ((s.fab.peers.map (·.1) ++ s.fab.routes.map (·.1) ++ s.fab.ports.map (·.2.peer) ++ s.forwards.filterMap (·.node)
    ++ (s.ranks.flatMap fun r => r.nodes.map (·.2))
    ++ s.funcs.flatMap fun f => (f.2.pages.filter fun p => pageForwards p && p.state ≠ .host).map (·.node)).filter
      (· ≠ s.fab.node)).dedup

/-- The time since when each node has had no route goes on; one that has a route again is no longer unreachable (16 R355). -/
def noteRoutes (s : State) : State :=
  let gone := (farNodes s ++ s.fab.noRoute.map (·.1)).dedup.filter fun n => !hasRoute s n
  { s with fab := { s.fab with
      noRoute := gone.map fun n => (n, agetD n s.fab.time s.fab.noRoute)
      lost := s.fab.lost.filter fun n => !hasRoute s n } }

/-- PEER_UNREACHABLE (14 R318, 16 R355): a node has had no route for 200 µs. -/
def execPeerUnreachable (node : Nat) (s : State) : Out :=
  match aget node s.fab.noRoute with
  | some since =>
    if s.fab.time < since + 200000 || s.fab.lost.contains node || hasRoute s node then .next s
    else
      let s1 := { s with fab := { s.fab with lost := s.fab.lost ++ [node] } }
      .next (loseRanks (endForwards s1 node 0x14) node 0x14)
  | none => .next s

/-! ## The dirty bitmap (14 R326, R327) -/

/-- A scheduled swap whose instant has come has flipped CUR. -/
def Func.swapDone (f : Func) (time : Nat) : Func :=
  if f.dirtyPend && f.swapt ≤ time then { f with dirtyCur := !f.dirtyCur, dirtyPend := false } else f

/-- DIRTY_SWAP_SCHEDULE: a write to SWAPT. -/
def execDirtySwapSchedule (func t : Nat) (s : State) : Out :=
  .next (s.modFunc func fun f => { f.swapDone s.fab.time with swapt := max t (s.fab.time + 1000), dirtyPend := true })

/-- DIRTY_SWAP: the scheduled instant has come; from that instant on the writes have set bits in the new buffer. -/
def execDirtySwap (func : Nat) (s : State) : Out := .next (s.modFunc func fun f => f.swapDone s.fab.time)

/-! ## Recovery of stopped threads (14 R325): mailbox requests, of a function whose mailbox is usable (23 R403) -/

/-- Whether a node is one of a function's own. -/
def ownsNode (s : State) (fn node : Nat) : Bool := s.trees.any fun e => e.2.func = fn && (e.2.node node).isSome

/-- A function's team on a core. -/
def findTeam (s : State) (fn node team : Nat) : Option TeamId :=
  (s.teams.find? fun e => e.2.func = fn && e.2.node = node && e.2.index = team).map (·.1)

/-- A function's suspended team. -/
def findSaved (s : State) (fn node team : Nat) : Option Saved :=
  (s.saved.find? fun e => e.2.team.func = fn && e.2.team.node = node && e.2.team.index = team).map (·.2)

def isStopped (t : Option Thread) : Bool :=
  match t with
  | some x => (match x.run with
    | .stopped _ => true
    | _ => false)
  | none => false

/-- A RESUME or RESUME.NEXT request; one for a suspended team is performed when the team resumes. -/
def resumeRequest (next : Bool) (func node team hand : Nat) (mask : BitVec 64) (s : State) : State :=
  if !ownsNode s func node then reply s func 2
  else match findTeam s func node team with
    | some id =>
      if (lanesOf mask 64).any fun l => isStopped (s.lane ⟨id, hand⟩ l) then reply (resumeLanes s id hand mask next) func 0
      else reply s func 1
    | none =>
      match findSaved s func node team with
      | some sv =>
        if (lanesOf mask 64).any fun l => isStopped (aget ⟨sv.id, hand, l⟩ sv.threads) then
          reply { s with saved := s.saved.map fun e =>
            (e.1, if e.2.id = sv.id then { e.2 with later := e.2.later ++ [(next, hand, mask)] } else e.2) } func 0
        else reply s func 1
      | none => reply s func 1

/-- RESUME: stopped threads restart at the instruction they stopped on. -/
def execResume (func node team hand : Nat) (mask : BitVec 64) (s : State) : Out :=
  .next (if !funcReady s func then s else resumeRequest false func node team hand mask s)

/-- RESUME.NEXT: stopped threads restart after the instruction they stopped on. -/
def execResumeNext (func node team hand : Nat) (mask : BitVec 64) (s : State) : Out :=
  .next (if !funcReady s func then s else resumeRequest true func node team hand mask s)

/-- An ABORT request. -/
def abortRequest (func node team : Nat) (s : State) : State :=
  if !ownsNode s func node then reply s func 2
  else match findTeam s func node team with
    | some id => reply (abortTeam s id) func 0
    | none =>
      match findSaved s func node team with
      | some sv => reply { s with saved := s.saved.map fun e =>
          (e.1, if e.2.id = sv.id then { e.2 with abort := true } else e.2) } func 0
      | none => reply s func 1

/-- ABORT: every thread of the team ends, and the team drains and retires. -/
def execAbort (func node team : Nat) (s : State) : Out := .next (if !funcReady s func then s else abortRequest func node team s)

/-- MAILBOX_DOORBELL (16 R372): the dealer performs the request in the request area, if it is one of R325; the mailbox is
usable once its function is ready (23 R403). -/
def execMailboxDoorbell (func : Nat) (s : State) : Out :=
  let r := natOfBytes (s.func func).mailbox
  let node := bits r 127 64
  let team := bits r 159 128
  let hand := bits r 191 160
  let mask := BitVec.ofNat 64 (bits r 255 192)
  .next (if !funcReady s func then s
    else match bits r 31 0 with
    | 0x21 => resumeRequest false func node team hand mask s
    | 0x22 => resumeRequest true func node team hand mask s
    | 0x23 => abortRequest func node team s
    | _ => s)

/-- BAG_CREATE_REQUEST (11 R234, 16 R372): the runtime asks for a bag, and the dealer chooses its rows and answers. -/
def execBagCreateRequest (func : Nat) (desc : Nat) (row : Nat) (s : State) : Out :=
  if !funcReady s func then .next s
  else if (aget desc (s.func func).bagTable).isSome then .next (replyOpen s func)
  else match createBag s func desc row with
    | .ok (some (s1, _)) => .next (replyOpen s1 func)
    | .ok none => .next (replyOpen s func)
    | .error m => .next (m.note s func)

/-- BAG_REMOVE_REQUEST (11 R234): once its iterations and the takes already claimed have finished. -/
def execBagRemoveRequest (func : Nat) (desc : Nat) (s : State) : Out :=
  if !funcReady s func then .next s
  else match aget desc (s.func func).bagTable with
  | none => .next s
  | some h =>
    match liveBag s func h with
    | some (b, bg) =>
      if bg.iter.isSome || bg.iterQ ≠ [] || bg.recs.any (·.claimed) then .next s
      else .next (replyOpen (removeBag s b bg) func)
    | none => .next s

/-! ## The halt register (23 R407, R408) -/

/-- The partitions on a core. -/
def coreFuncs (s : State) (c : CoreId) : List Nat :=
  ((s.quadOwner.filter fun e => e.1.die = c.die && e.1.core = c.core).map (·.2))
    ++ (s.core c).bankOwner.map (·.2) ++ (s.core c).tileOwner.map (·.2)

/-- Whether a debug agent may halt a core. -/
def mayHalt (s : State) (c : CoreId) : Bool := (coreFuncs s c).all fun f => (s.func f).debugEn

/-- Clearing HALT lets the core's hands go on, and thaws its channels: a halt that came back with a team ends with it
(15 R351). -/
def releaseCore (s : State) (c : CoreId) (freeze : Bool) : State :=
  { s.modCore c fun x => { x with halt := false, freeze := freeze, idle := false } with
    teams := s.teams.map fun e => (e.1, if coreOf e.1 = c then { e.2 with debug := false } else e.2) }

/-- HALT and FREEZE are written: setting HALT needs the debug enable of every partition on the core. -/
def haltWrite (s : State) (c : CoreId) (halt freeze : Bool) : State :=
  if !halt then releaseCore s c freeze
  else if mayHalt s c then s.modCore c fun x => { x with halt := true, freeze := freeze }
  else s

/-- A debugger writes a register of a thread whose partition it may debug: the register is full (03 R51). -/
def debugWrite (s : State) (k : ThreadKey) (r : BitVec 8) (v : Dword) : State :=
  match aget k.team s.teams with
  | some tm =>
    if (s.func tm.func).debugEn && r.toNat < tm.regs then s.modThread k fun t => setFull (writeReg t r false v) r false true
    else s
  | none => s

/-! ## Registers without a behaviour of their own (00 R6) -/

/-- The segment register that a write leaves; its RO bit is 1 in segments 1 and 2. -/
def segWrite (i v : Nat) : Dword :=
  let w := v % 2 ^ 40 + bits v 63 56 * 2 ^ 56
  BitVec.ofNat 64 (if i ≠ 0 && !bit w 62 then w + 2 ^ 62 else w)

/-- The partition QoS register that a write leaves: 0 in PERIOD or a weight leaves that field (15 R333). -/
def qosWrite (f : Func) (v : Nat) : Func :=
  let keep (new old : Nat) : Nat := if new = 0 then old else new
  { f with
    budget := bits v 127 96
    period := keep (bits v 95 80) f.period
    wfab := keep (bits v 47 32) f.wfab
    wcomm := keep (bits v 31 16) f.wcomm
    wdram := keep (bits v 15 0) f.wdram }

/-- The near-bank arbitration register that a write leaves: a field out of its range stays (12 R253). -/
def arbWrite (u : Pch) (v : Nat) : Pch :=
  let q := bits v 23 16
  let n := bits v 9 0
  { u with quota := if q = 0 then u.quota else q, nbarb := if 16 ≤ n && n ≤ 1000 then n else u.nbarb }

/-- Clears the counters of a forwarded page (14 R315). -/
def clearCounts (f : Func) (va : Nat) : Func :=
  { f with pages := f.pages.map fun p => if p.va ≤ va && va < p.va + p.size then { p with reads := 0, writes := 0 } else p }

/-- Bytes with some of them replaced from a place on. -/
def putBytes (l : List Byte) (off : Nat) (bs : List Byte) : List Byte :=
  let l1 := l ++ List.replicate (off - l.length) 0
  l1.take off ++ bs ++ l1.drop (off + bs.length)

/-- The host writes a function's request area, of 2,048 bytes (16 R372). -/
def mailboxWrite (s : State) (fn off n v : Nat) : State :=
  if !funcReady s fn || 2048 < off + n then s
  else s.modFunc fn fun f => { f with mailbox := putBytes f.mailbox off (bytesOfNat n v) }

/-- The host writes an entry of a function's MSI-X table; a message that was pending goes once it is unmasked
(PRESUMED, notes/assumptions/104.md). -/
def msixWrite (s : State) (fn vec v : Nat) : State :=
  if vectors fn ≤ vec then s
  else
    let e := BitVec.ofNat 128 v
    let due := !e.getLsbD 96 && (s.func fn).msixPending.contains vec
    let s1 := s.modFunc fn fun f => { f with
      msixTable := aset vec e f.msixTable
      msixPending := if due then f.msixPending.filter (· ≠ vec) else f.msixPending }
    if due then signal s1 fn vec else s1

/-- The host writes the flash through the recovery window, while the PF is held in recovery (23 R401). -/
def flashWrite (s : State) (off n v : Nat) : State :=
  if !s.health.recovery || 2 ^ 30 < off + n then s
  else { s with health := { s.health with flash := memWrite s.health.flash off (bytesOfNat n v) } }

/-- The dealer writes FUNC: the queue changes its owner as a grant does (15 R331). A value above 64 names no function and is
ignored (DESIGN CHOICE, notes/assumptions/99.md). -/
def queueFuncWrite (s : State) (q v : Nat) : State :=
  if 64 < v % 128 || v % 128 = (s.queue q).func then s else grantQueue s q (some (v % 128))

/-- REGISTER_WRITE (00 R6): the dealer, the host or a debug agent writes a register; its RW fields take the value. The low
bits of an unaligned BASE, ADDR0 or ADDR1 are dropped (DESIGN CHOICE, notes/assumptions/100.md). -/
def execRegisterWrite (r : RegName) (v : Nat) (s : State) : Out :=
  .next (match r with
    | .queueTmpl q => s.modQueue q fun u => { u with tmpl := v % 2 ^ 64 }
    | .queueBase q => s.modQueue q fun u => { u with base := v % 2 ^ 64 / 8 * 8 }
    | .queueEn q => s.modQueue q fun u => { u with en := bit v 0 }
    | .queueHome q => s.modQueue q fun u => { u with home := v % 8 }
    | .queueLog2n q => s.modQueue q fun u => { u with log2n := v % 16 }
    | .queueFunc q => queueFuncWrite s q v
    | .nbArb p => s.modPch p fun u => arbWrite u v
    | .segment fn i => segmentWrite s fn i (segWrite i v)
    | .qos fn => s.modFunc fn fun f => qosWrite f v
    | .dirtyAddr0 fn => s.modFunc fn fun f => { f with dirtyAddr0 := v % 2 ^ 64 / 64 * 64 }
    | .dirtyAddr1 fn => s.modFunc fn fun f => { f with dirtyAddr1 := v % 2 ^ 64 / 64 * 64 }
    | .dirtyEn fn => s.modFunc fn fun f => { f with dirtyEn := bit v 0 }
    | .ctxPool fn => s.modFunc fn fun f => { f with ctxPool := f.ctxPool ++ [v % 2 ^ 64] }
    | .collLog fn => if !funcReady s fn then s else replyOpen (s.modFunc fn fun f => { f with collLog := v % 2 ^ 64 }) fn
    | .clearCounters fn va => s.modFunc fn fun f => clearCounts f va
    | .exportRange node fn lo hi key =>
      { s with fab := { s.fab with exports := (s.fab.exports.filter (· ≠ ⟨node, fn, lo, hi, key⟩))
        ++ (if bit v 0 then [⟨node, fn, lo, hi, key⟩] else []) } }
    | .route node => { s with fab := { s.fab with routes := if v < 36 then aset node v s.fab.routes else adel node s.fab.routes } }
    | .healthLog => { s with health := { s.health with log := v % 2 ^ 64 } }
    | .errorLog => { s with health := { s.health with errLog := v % 2 ^ 64 } }
    | .mailbox fn off n => mailboxWrite s fn off n v
    | .msixEntry fn vec => msixWrite s fn vec v
    | .coreHalt c => haltWrite s c (bit v 31) (bit v 30)
    | .threadReg k x => debugWrite s k x (BitVec.ofNat 64 v)
    | .flash off n => flashWrite s off n v)

end Sys2Proof.Machine
end

