-- ==== Sys2Proof/Machine/Fabric.lean ====
section
/-! DEFINITION. The fold (15 R346 to R351), and links, fabric time and poison as software meets them (16 R354 to R357,
R369, R370). -/

namespace Sys2Proof.Machine

/-! ## Packets in the kitty (15 R348) -/

def stageNo : Stage → Nat
  | .ingress => 0
  | .xbar => 1
  | .egress => 2

/-- The 16-byte header of a packet. -/
def packetHead (p : Packet) (late : Bool) (seq : Nat) : Nat :=
  seq % 2 ^ 32 + p.job % 2 ^ 16 * 2 ^ 32 + p.vc % 8 * 2 ^ 63 + p.port % 64 * 2 ^ 66 + p.flits.length % 32 * 2 ^ 72
    + (if late then 2 ^ 81 else 0) + stageNo p.stage * 2 ^ 82 + p.dst % 2 ^ 22 * 2 ^ 84 + p.src % 2 ^ 22 * 2 ^ 106

/-- A packet as the kitty holds it. -/
def packetBytes (p : Packet) (late : Bool) (seq : Nat) : List Byte :=
  bytesOfNat 16 (packetHead p late seq) ++ p.flits.flatMap fun f => bytesOfNat 64 f.toNat

/-- The kitty's header. -/
def kittyHead (f : Fold) : Nat :=
  f.kstate % 4 + (if f.lossy then 4 else 0) + f.cmd.job % 2 ^ 16 * 2 ^ 144 + f.dropN % 2 ^ 32 * 2 ^ 160
    + f.lateB % 2 ^ 64 * 2 ^ 192 + f.mainB % 2 ^ 64 * 2 ^ 256 + f.lateN % 2 ^ 32 * 2 ^ 320 + f.mainN % 2 ^ 32 * 2 ^ 352
    + f.sealT % 2 ^ 64 * 2 ^ 384 + f.cmd.t % 2 ^ 64 * 2 ^ 448

def Fold.lateBase (f : Fold) : Nat := f.cmd.kva + 64 + f.cmd.mainLen

def setFold (s : State) (f : Fold) : State := { s with folds := aset f.cmd.job f s.folds }

/-- The queue of the job that runs here, with its tree. -/
def jobTree (s : State) (c : FoldCmd) : Option (Nat × Tree) := s.trees.find? fun e => c.root ≠ 0 && e.2.root = c.root && e.2.func = c.func

/-- A record of the fold engine, to the job's fault domain. -/
def foldRec (s : State) (c : FoldCmd) (code faddr felem acc : Nat) (wait : Bool) (page : Nat) : FaultRec :=
  let r : FaultRec := { dispRec code c.func 0 0 0 c.root faddr acc wait page with src := 7, team := 0xFFFFFFFF, felem := felem }
  match jobTree s c with
  | some (_, t) =>
    match t.node t.root with
    | some n => { r with homeDie := t.home, die := t.home, fq := n.eff.fq, msix := n.eff.msix }
    | none => { r with homeDie := t.home, die := t.home, fq := t.tmpl.fq, msix := t.tmpl.msix }
  | none => r

/-- The fold engine reports: to the job's fault domain, or on a transit module to its dealer, for the dealer that owns the
root (15 R349). -/
def foldTell (s : State) (c : FoldCmd) (r : FaultRec) : State :=
  if (jobTree s c).isSome then sendFault s r
  else tellDealer s (if r.code = 0x20 then .late c.job r.faddr.toNat else .kitty c.job r.faddr.toNat r.code)

/-- An access of the fold engine meets no place. -/
inductive KittyMiss where
  /-- It waits. -/
  | waits (s : State)
  /-- It is refused for good, or by the dealer, and is given up. -/
  | over (s : State)

/-- The access waits, and the dealer is told where it must answer, once while that record is unresolved; or it is over. -/
def kittyMiss (s : State) (f : Fold) (m : Miss) (acc : Nat) : KittyMiss :=
  match m.xl with
  | .dealer c page =>
    if f.refused.contains page then
      .over (setFold s { f with refused := f.refused.filter (· ≠ page), asked := f.asked.filter (·.1 ≠ page) })
    else if f.asked.contains (page, c) && ((jobTree s f.cmd).isNone || faultOpen s f.cmd.func page c 7) then .waits s
    else .waits (foldTell (setFold s { f with asked := f.asked ++ [(page, c)] }) f.cmd
      (foldRec s f.cmd c m.va f.cmd.job acc true page))
  | .final c => .over (foldTell (m.note s f.cmd.func) f.cmd (foldRec s f.cmd c m.va f.cmd.job acc false 0))
  | _ => .waits (m.note s f.cmd.func)

/-- Changes a fold. -/
def modFold (s : State) (job : Nat) (g : Fold → Fold) : State := { s with folds := amod job g s.folds }

/-- A packet of the job is discarded (15 R349). -/
def discard (s : State) (f : Fold) (p : Packet) : State :=
  foldTell (modFold s f.cmd.job fun f => { f with dropN := f.dropN + 1, lossy := true, stale := true }) f.cmd
    (foldRec s f.cmd 0x20 (packetHead p false 0 / 2 ^ 64) f.cmd.job 0 false 0)

/-- Writes the kitty's header, if what it says has changed; false while the write waits. -/
def writeHead (s : State) (job : Nat) : State × Bool :=
  match aget job s.folds with
  | none => (s, true)
  | some f =>
    if !f.stale then (s, true)
    else match virtWrite s f.cmd.func f.cmd.kva (bytesOfNat 64 (kittyHead f)) with
      | .ok s1 => (modFold s1 job fun f => { f with stale := false }, true)
      | .error m => match kittyMiss s f m 2 with
        | .waits s1 => (s1, false)
        | .over s1 => (modFold s1 job fun f => { f with stale := false }, true)

/-! ## Folding (15 R346, R347) -/

/-- FOLD_COMMAND: the fold engine takes a command that the dealer does not refuse. -/
def execFoldCommand (cmd : FoldCmd) (s : State) : Out :=
  if cmd.mainLen < 26214400 || cmd.kva % 64 ≠ 0 || cmd.t < s.fab.time + 200000 || 64 < cmd.func || (aget cmd.job s.folds).isSome
  then .next s
  else .next { s with folds := s.folds ++
    [(cmd.job, ⟨cmd, 0, 0, 0, 0, 0, 0, 0, 0, false, false, [], [], none, [], [], false⟩)] }

/-- The order of the sweep: by stage, port and virtual channel. -/
def sweepKey (p : Packet) : Nat := stageNo p.stage * 512 + p.port * 8 + p.vc

/-- The job's next packet in the order of the sweep, the oldest of its queue. -/
def nextSwept (s : State) (job : Nat) : Option Packet :=
  s.fab.packets.foldl (fun best p =>
    if p.job ≠ job then best
    else match best with
      | some b => if sweepKey p < sweepKey b then some p else best
      | none => some p) none

/-- Takes a packet out of its queue. -/
def takePacket (s : State) (p : Packet) : State := { s with fab := { s.fab with packets := s.fab.packets.erase p } }

/-- Every queue has been swept: the kitty is sealed as its header is written, and the dealer is told. -/
def sealKitty (s : State) (f : Fold) : State :=
  let f1 := { f with kstate := 2, sealT := s.fab.time, swept := 1536, stale := false }
  match virtWrite s f.cmd.func f.cmd.kva (bytesOfNat 64 (kittyHead f1)) with
  | .ok s1 => tellDealer (setFold s1 f1) (.folded f.cmd.job)
  | .error m => match kittyMiss (setFold s { f with swept := 1536 }) { f with swept := 1536 } m 2 with
    | .waits s1 => s1
    | .over s1 => tellDealer (modFold s1 f.cmd.job fun f => { f with kstate := 2, sealT := s.fab.time, stale := false })
        (.folded f.cmd.job)

/-- A packet that is swept goes to the main segment; the queues before its own are closed. What the dealer refuses is
discarded. -/
def sweepOne (s : State) (f : Fold) (p : Packet) : KittyMiss :=
  let f1 := { f with swept := sweepKey p }
  let bs := packetBytes p false f.mainN
  match virtWrite s f.cmd.func (f.cmd.kva + 64 + f.mainB) bs with
  | .ok s1 => .over (setFold (takePacket s1 p) { f1 with mainN := f.mainN + 1, mainB := f.mainB + bs.length })
  | .error m => match kittyMiss (setFold s f1) f1 m 2 with
    | .waits s1 => .waits s1
    | .over s1 => .over (discard (takePacket s1 p) f1 p)

/-- The sweep goes on as far as the kitty's pages are mapped; fuel: the packets. -/
def sweep : Nat → State → Nat → State
  | 0, s, _ => s
  | fuel + 1, s, job =>
    match aget job s.folds with
    | none => s
    | some f =>
      match nextSwept s job with
      | none => sealKitty s f
      | some p => match sweepOne s f p with
        | .waits s1 => s1
        | .over s1 => sweep fuel s1 job

/-- Every node of the job that runs here is pre-empted (15 R347). -/
def preemptJob (s : State) (c : FoldCmd) : State :=
  match jobTree s c with
  | none => s
  | some (q, t) => t.nodes.foldl (fun s n =>
      if n.kind = 2 && (n.state = 1 || n.state = 2) then setPending s q n.addr 4
      else if n.kind = 2 && n.state = 3 then touchNode s q n.addr fun n => { n with why := n.why ||| 4 }
      else s) s

/-- Writes late packets that wait to the late segment, as far as the kitty's pages are mapped. -/
def flushLate : List Packet → State → Nat → State
  | [], s, _ => s
  | p :: rest, s, job =>
    match aget job s.folds with
    | none => s
    | some f =>
      let bs := packetBytes p true f.lateN
      match virtWrite s f.cmd.func (f.lateBase + f.lateB) bs with
      | .ok s1 => flushLate rest (modFold s1 job fun f =>
          { f with late := rest, lateN := f.lateN + 1, lateB := f.lateB + bs.length, stale := true }) job
      | .error m => match kittyMiss s f m 2 with
        | .waits s1 => s1
        | .over s1 => flushLate rest (discard (modFold s1 job fun f => { f with late := rest }) f p) job

/-- The fold engine goes on with the late packets that wait. -/
def goOnLate (s : State) (job : Nat) : State :=
  match aget job s.folds with
  | some f => if f.late = [] then s else (writeHead (flushLate f.late s job) job).1
  | none => s

/-- FOLD_INSTANT: at T the module pre-empts the job, writes the kitty's header, sweeps its packets and seals the kitty; what
waits of the kitty's accesses goes on. -/
def execFoldInstant (job : Nat) (s : State) : Out :=
  match aget job s.folds with
  | none => .next s
  | some f =>
    if s.fab.time < f.cmd.t then .next s
    else
      let s1 := if f.kstate = 0 then preemptJob (setFold s { f with kstate := 1, stale := true }) f.cmd else s
      match writeHead s1 job with
      | (s2, false) => .next s2
      | (s2, true) => .next (goOnLate (if f.kstate ≤ 1 then sweep (s2.fab.packets.length + 1) s2 job else s2) job)

/-- A packet may come over the link: its port, virtual channel and length are such as the link carries (16 R354). -/
def packetCarried (p : Packet) : Bool := p.port ≤ 35 && p.vc < 8 && 1 ≤ p.flits.length && p.flits.length ≤ 16

/-- A packet enters its ingress queue. -/
def enterIngress (s : State) (p : Packet) : State :=
  { s with fab := { s.fab with packets := s.fab.packets ++ [{ p with stage := .ingress }] } }

/-- The bytes of the late packets that wait. -/
def Fold.waitB (f : Fold) : Nat := (f.late.map fun p => 16 + 64 * p.flits.length).sum

/-- Whether a packet comes within the late window, with room in the late segment (15 R349). -/
def lateFits (s : State) (f : Fold) (n : Nat) : Bool :=
  let late := if f.cmd.latew = 0 then 50 else f.cmd.latew
  (f.kstate = 1 || s.fab.time < f.sealT + late * 1000) && f.lateB + f.waitB + n ≤ f.cmd.lateLen

/-- A packet comes to a closed queue: it goes to the late segment, where it may wait for a page, or is discarded (15 R349). -/
def latePacket (s : State) (f : Fold) (p : Packet) : State :=
  let job := f.cmd.job
  let bs := packetBytes p true f.lateN
  if !lateFits s f bs.length then (writeHead (discard s f p) job).1
  else if f.late ≠ [] then goOnLate (modFold s job fun f => { f with late := f.late ++ [p] }) job
  else match virtWrite s f.cmd.func (f.lateBase + f.lateB) bs with
    | .ok s1 => (writeHead (modFold s1 job fun f =>
        { f with lateN := f.lateN + 1, lateB := f.lateB + bs.length, stale := true }) job).1
    | .error m => match kittyMiss s f m 2 with
      | .waits s1 => modFold s1 job fun f => { f with late := [p] }
      | .over s1 => (writeHead (discard s1 f p) job).1

/-- Whether the unfold time of a job has come (15 R350). -/
def Fold.unfolds (f : Fold) (time : Nat) : Bool := f.t2.any fun t => t ≤ time

/-- Another module's dealer tells of a packet that it has discarded: where the job's root is, its fault domain gets the
record (15 R349). -/
def toldLate (s : State) (p : Packet) : State :=
  match aget p.job s.folds with
  | some f => if (jobTree s f.cmd).isSome && !vcBlocked s p.port 7 then
      sendFault s (foldRec s f.cmd 0x20 (packetHead { p with stage := .ingress } false 0 / 2 ^ 64) p.job 0 false 0)
    else s
  | none => s

/-- LATE_PACKET_ARRIVAL (15 R349): a packet of a folded job arrives at a closed queue; from the unfold time on it is held at
the link (R350). A packet of a job that is not folded, or that comes to a queue still to be swept, enters its ingress
queue. Or another module's dealer tells of a packet. -/
def execLatePacketArrival (a : Arrival) (s : State) : Out :=
  let p := a.packet
  if a.told then .next (toldLate s p)
  else if !packetCarried p || vcBlocked s p.port p.vc then .next s
  else match aget p.job s.folds with
    | none => .next (enterIngress s p)
    | some f =>
      if f.unfolds s.fab.time && f.kstate = 2 then
        .next (modFold s f.cmd.job fun f => { f with link := f.link ++ [{ p with stage := .ingress }] })
      else if f.swept ≤ p.port * 8 + p.vc then .next (enterIngress s p)
      else .next (latePacket s f { p with stage := .ingress })

/-! ## Unfolding (15 R350) -/

/-- A packet as its header and flits give it. -/
def packetOf (h : Nat) (flits : List Byte) : Packet where
  src := bits h 127 106
  dst := bits h 105 84
  stage := match bits h 83 82 with
    | 0 => .ingress
    | 1 => .xbar
    | _ => .egress
  port := bits h 71 66
  vc := bits h 65 63
  job := bits h 47 32
  flits := (List.range (flits.length / 64)).map fun i => BitVec.ofNat 512 (natOfBytes ((flits.drop (64 * i)).take 64))

/-- Reads n packets of a segment. -/
def readPackets (fn : Nat) : Nat → State → Nat → Except Miss (State × List Packet)
  | 0, s, _ => .ok (s, [])
  | n + 1, s, a =>
    match virtRead s fn a 16 .read with
    | .error x => .error x
    | .ok (s1, hb) =>
      let h := natOfBytes hb
      let k := 64 * bits h 76 72
      match virtRead s1 fn (a + 16) k .read with
      | .error x => .error x
      | .ok (s2, fb) =>
        match readPackets fn n s2 (a + 16 + k) with
        | .error x => .error x
        | .ok (s3, ps) => .ok (s3, packetOf h fb :: ps)

/-- Whether some node of the job is still to be pre-empted for its fold. -/
def stillFolding (s : State) (c : FoldCmd) : Bool :=
  match jobTree s c with
  | some (_, t) => t.nodes.any fun n => n.pending && 4 ≤ n.why
  | none => false

/-- The job's nodes may run again; the fold was lossy if it was so on any module (15 R349). -/
def liftFold (s : State) (f : Fold) (lossy : Bool) : State :=
  match jobTree s f.cmd with
  | none => s
  | some (q, t) =>
    let s1 := { s with trees := amod q (fun t => { t with lossy := f.lossy || lossy }) s.trees }
    t.nodes.foldl (fun s n => if 4 ≤ n.why then reReady (clearWhy s q n.addr 4) q n.addr else s) s1

/-- The packets of a kitty: of its main segment, then of its late segment. -/
def kittyPackets (s : State) (f : Fold) : Except Miss (State × List Packet) :=
  match readPackets f.cmd.func f.mainN s (f.cmd.kva + 64) with
  | .error m => .error m
  | .ok (s1, main) => match readPackets f.cmd.func f.lateN s1 f.lateBase with
    | .error m => .error m
    | .ok (s2, late) => .ok (s2, main ++ late)

/-- The kitty's packets go back to their queues and its header says so, or still waits to be written; the packets held at the
link follow, and the job goes on. -/
def unfolded (s : State) (f : Fold) (ps : List Packet) (lossy : Bool) : State :=
  let job := f.cmd.job
  match writeHead (modFold s job fun f => { f with kstate := 3, stale := true }) job with
  | (s1, false) => modFold s1 job fun f => { f with kstate := 2, stale := false }
  | (s1, true) =>
    let s2 := { s1 with fab := { s1.fab with packets := s1.fab.packets ++ ps ++ f.link } }
    liftFold { s2 with folds := adel job s2.folds } f lossy

/-- UNFOLD: the dealer gives an unfold time, and whether another module's kitty is lossy; from that time on the kitty's
packets go back to their queues, the late ones behind the others, before the job goes on. A function that is being reset
gets none of its packets back (15 R338). -/
def execUnfoldJob (cmd : UnfoldCmd) (s : State) : Out :=
  let job := cmd.job
  match aget job s.folds with
  | none => .next s
  | some f =>
    if f.kstate ≠ 2 || (s.func f.cmd.func).resetting || f.dead || f.late ≠ [] then .next s
    else match f.t2 with
      | none => .next (modFold s job fun f => { f with t2 := some (max cmd.t2 s.fab.time) })
      | some t =>
        let lossy := cmd.lossy
        if s.fab.time < t || stillFolding s f.cmd || f.stale then .next s
        else match kittyPackets s f with
          | .error m => match kittyMiss s f m 1 with
            | .waits s1 => .next s1
            | .over s1 => .next (unfolded (modFold s1 job fun f => { f with lossy := true }) { f with lossy := true } [] lossy)
          | .ok (s1, ps) => .next (unfolded s1 f ps lossy)

/-! ## Links (16 R354 to R357) -/

/-- The flits that the next hop newly takes on a virtual channel: the spec leaves this to the next hop
(notes/assumptions/2.md). -/
def newCredits (s : State) (vc : Nat) : Nat := Config.freeValue (2 + vc) s.tick

/-- LINK_TRAIN (16 R355, 23 R402): both ends exchange node identifier and incarnation; a known node with a new incarnation
is a peer reset. A port whose readiness bit has fallen, or whose lanes are all retired, has a lasting fault and trains no
more (23 R404). -/
def execLinkTrain (port node : Nat) (inc : Word) (s : State) : Out :=
  if s.fab.node = 0 || 35 < port || !bit s.fab.linkEn port || s.health.fallen.contains (.link port)
    || (agetD port Port.reset s.fab.ports).lanes = 0 then .next s
  else
    let s1 := nextOf (execPeerReset node inc s) s
    let old := agetD port Port.reset s1.fab.ports
    let p := { old with trained := true, peer := node, credits := (List.range 8).map fun i => newCredits s i }
    let s2 := { s1 with tick := s1.tick + 1, fab := { s1.fab with
      ports := aset port p s1.fab.ports, lost := s1.fab.lost.filter (· ≠ node), joined := s1.fab.joined && s1.fab.ports.any (·.2.trained) } }
    .next { s2 with health := { s2.health with
      ready := if s2.health.ready.contains (.link port) then s2.health.ready else s2.health.ready ++ [.link port] } }

/-- Whether a packet belongs to a job whose fold has passed its instant: it stands still until the unfold (15 R347). -/
def packetFolded (s : State) (p : Packet) : Bool :=
  match aget p.job s.folds with
  | some f => f.kstate ≠ 0 || f.cmd.t ≤ s.fab.time
  | none => false

/-- The packets that wait at a port for a virtual channel: those at its crossbar output, and then those at an ingress that
are routed there. Packets of a folded job let those of other jobs by. -/
def portWaits (s : State) (port vc : Nat) : List Packet :=
  let free := s.fab.packets.filter fun p => !packetFolded s p
  (free.filter fun p => p.stage = .xbar && p.port = port && p.vc = vc) ++
    free.filter fun p => p.stage = .ingress && p.vc = vc && p.dst ≠ s.fab.node && portTo s p.dst = some port

/-- The first of some packets for each value that key gives of them. -/
def firstOf (key : Packet → Nat × Nat) (ps : List Packet) : List Packet :=
  ps.foldl (fun l p => if l.any fun x => key x = key p then l else l ++ [p]) []

/-- The flits that a port has sent on a virtual channel while a job waited. -/
def Port.flits (o : Port) (vc job : Nat) : Nat := agetD (vc, job) 0 o.passed

/-- Whether every other job whose first packet waits can still be served once in every 64 flits if p is sent now
(15 R334). -/
def Port.shares (o : Port) (vc : Nat) (ps : List Packet) (p : Packet) : Bool :=
  (List.range 65).all fun k => ((ps.filter fun x => x.job ≠ p.job && 64 ≤ k + p.flits.length + o.flits vc x.job).map
    (·.flits.length)).sum ≤ k

/-- The packet that a port sends next on a virtual channel: the link keeps the order of each source and destination (16
R357), and of those that may go it sends the oldest that leaves every job its share, or else one that a job waits for which
has been passed most. -/
def nextSent (s : State) (port vc : Nat) : Option Packet :=
  let o := agetD port Port.reset s.fab.ports
  let ps := portWaits s port vc
  let heads := firstOf (fun p => (p.src, p.dst)) ps
  match heads.find? (o.shares vc (firstOf (fun p => (p.job, 0)) ps)) with
  | some p => some p
  | none =>
    let late := fun (p : Packet) =>
      (ps.filter fun x => x.src = p.src && x.dst = p.dst).foldl (fun m x => max m (o.flits vc x.job)) 0
    heads.find? fun p => heads.all fun x => late x ≤ late p

/-- A port that has sent a packet while others waited: their jobs have been passed by its flits. -/
def Port.sentPast (o : Port) (vc : Nat) (ps : List Packet) (p : Packet) : Port :=
  let others := (firstOf (fun p => (p.job, 0)) ps).filter fun x => x.job ≠ p.job
  let past := others.foldl (fun l x => aset (vc, x.job) (agetD (vc, x.job) 0 l + p.flits.length) l) (adel (vc, p.job) o.passed)
  { o with passed := past }

/-- PACKET_SEND (16 R354): a packet is sent when the next hop takes its whole length on its virtual channel. -/
def execPacketSend (port vc : Nat) (s : State) : Out :=
  match nextSent s port vc with
  | none => .next s
  | some p =>
    let o := agetD port Port.reset s.fab.ports
    let have_ := o.credits.getD vc 0 + newCredits s vc
    let n := p.flits.length
    let s1 := { s with tick := s.tick + 1 }
    if !o.trained then .next s
    else if have_ < n then
      .next { s1 with fab := { s1.fab with ports := aset port { o with credits := o.credits.set vc have_ } s1.fab.ports } }
    else
      let s2 := takePacket s1 p
      .next { s2 with fab := { s2.fab with
        ports := aset port { o.sentPast vc (portWaits s port vc) p with credits := o.credits.set vc (have_ - n) } s2.fab.ports, sent := s2.fab.sent ++ [(port, p)] } }

/-- FLIT_RETRY (16 R357): a retry is counted, and changes only timing. -/
def execFlitRetry (port lane : Nat) (s : State) : Out :=
  .next (if (agetD port Port.reset s.fab.ports).trained && lane < 8 then countError s (.linkLane port lane) else s)

/-! ## Fabric time (16 R356) -/

/-- Whether a node is reachable over trained links. -/
def reachable (s : State) (node : Nat) : Bool := node = s.fab.node || (!s.fab.lost.contains node && hasRoute s node)

/-- Whether the master's time can have reached this module: it travels on virtual channel 7 (16 R354). -/
def timeComes (s : State) (master : Nat) : Bool := (portTo s master).any fun p => !vcBlocked s p 7

/-- Whether a module that has joined agrees with a time to 100 ns, but for what it still has to slew. -/
def agrees (s : State) (t : Nat) : Bool := t ≤ s.fab.time + 100 && s.fab.time ≤ t + 100 + s.fab.ahead

/-- TIME_SYNC: the master's time arrives, corrected for the delay of the links. A module that joins, or meets a new master of
a lower identifier, and is behind steps forward once; one that is ahead slews. Once it agrees, its time stays within 100 ns of
the master's. -/
def execTimeSync (master t : Nat) (s : State) : Out :=
  let known := match s.fab.master with
    | some m => m < master && reachable s m
    | none => false
  if !timeComes s master || s.fab.node ≤ master || known || (s.fab.joined && s.fab.master = some master && !agrees s t) then .next s
  else .next { s with fab := { s.fab with
    time := max s.fab.time (t % 2 ^ 64)
    timeFrac := if s.fab.time < t then 0 else s.fab.timeFrac
    ahead := s.fab.time - t
    master := some master
    joined := true } }

/-- Whether this module is the time master: no reachable module has a lower identifier. -/
def isMaster (s : State) : Bool :=
  match s.fab.master with
  | some m => m = s.fab.node
  | none => s.fab.ports.any (·.2.trained) && (farNodes s).all fun n => s.fab.node < n || !reachable s n

/-- The master's dealer sends its fabric time every 10 µs. -/
def sendTime (s : State) : State :=
  if isMaster s && s.fab.beat + 10000 ≤ s.fab.time then
    { s with fab := { s.fab with beat := s.fab.time / 10000 * 10000 } }
  else s

/-- TIME_MASTER_TAKEOVER: the master is lost, and the reachable module with the lowest identifier takes over. -/
def execTimeMasterTakeover (s : State) : Out :=
  match s.fab.master with
  | none => .next s
  | some m =>
    if reachable s m then .next s
    else
      let cands := s.fab.node :: (s.fab.peers.map (·.1)).filter (reachable s)
      .next { s with fab := { s.fab with master := cands.min? } }

/-! ## Poison across tenants (16 R369, R370) -/

/-- The line record of a poisoned line with the requesters in the order in which they were served, and the time of the first
poisoned read. -/
def lineRecord (time loc : Nat) (reqs : List Nat) : BitVec 512 :=
  let r := ((List.range reqs.length).zip reqs).foldl (fun m e => m + e.2 % 128 * 2 ^ (288 + 7 * e.1)) 0
  BitVec.ofNat 512 (0x15 + r + reqs.length * 2 ^ 344 + loc / 64 * 64 % 2 ^ 42 * 2 ^ 348 + time % 2 ^ 64 * 2 ^ 448)

/-- Requesters eight at a time. -/
def eights (fuel : Nat) (l : List Nat) : List (List Nat) :=
  match fuel with
  | 0 => []
  | n + 1 => if l = [] then [] else l.take 8 :: eights n (l.drop 8)

/-- Appends the line records that wait, oldest first, as far as the PF's error log takes them. -/
def flushErrors : List (BitVec 512) → State → State
  | [], s => { s with health := { s.health with pendingErr := [] } }
  | r :: rest, s =>
    if s.health.errLog = 0 then { s with health := { s.health with pendingErr := r :: rest } }
    else match ringAppend s 0 s.health.errLog 64 fun _ => r.toNat with
      | .done s1 _ => flushErrors rest s1
      | _ => { s with health := { s.health with pendingErr := r :: rest } }

/-- The next n line records of a poisoned line: each names eight requesters, but for the last, which names those there are
(DEDUCED, notes/assumptions/111.md). A record's time is that of the first read that it names. -/
def lineRecords (e : PoisonRead) (n : Nat) : List (BitVec 512) :=
  let new := (e.reqs.drop e.logged).take (8 * n)
  (eights new.length (List.range new.length)).map fun is =>
    lineRecord ((is.head?.bind (new[·]?)).elim 0 (·.2)) (e.line * 64) (is.filterMap fun i => (new[i]?).map (·.1))

/-- POISON_SHARED_READ: functions have read a poisoned line, and each read has ended with POISON for its own requester; the
PF's error log receives the next n records of the line. A record is not rewritten: the requesters up to the eighth that come
after it are named by none, and the ninth begins a further one (16 R370). -/
def execPoisonSharedRead (loc n : Nat) (s : State) : Out :=
  match s.health.poisonReads.find? fun e => e.line = loc / 64 with
  | none => .next s
  | some e =>
    let s1 := { s with health := { s.health with poisonReads := s.health.poisonReads.map fun x =>
      if x.line = e.line then { x with logged := x.logged + 8 * (lineRecords e n).length } else x } }
    .next (flushErrors (s.health.pendingErr ++ lineRecords e n) s1)

end Sys2Proof.Machine
end

