-- ==== Sys2Proof/Machine/Floating.lean ====
section
/-! DEFINITION. The floating-point instructions (05 R99 to R106). -/

namespace Sys2Proof.Machine

/-- An FP32 operation on the low 32 bits of a value. -/
def fp1 (f : Nat → Nat) (x : Dword) : Dword := BitVec.ofNat 64 (f (x.toNat % 2 ^ 32))
/-- An FP32 operation on two values. -/
def fp2 (f : Nat → Nat → Nat) (x y : Dword) : Dword := BitVec.ofNat 64 (f (x.toNat % 2 ^ 32) (y.toNat % 2 ^ 32))
/-- An FP32 operation on three values. -/
def fp3 (f : Nat → Nat → Nat → Nat) (x y z : Dword) : Dword :=
  BitVec.ofNat 64 (f (x.toNat % 2 ^ 32) (y.toNat % 2 ^ 32) (z.toNat % 2 ^ 32))

/-- round_fp32 of the exact result, in mode rm (05 R101). -/
def execFadd (g : Guard) (d : BitVec 8) (a : Src) (b : SrcB) (rm : Rm) (s : State) : Out :=
  .next (alu2 s g false d (srcOp a false) (srcbFp b) (fp2 (fpAdd fp32 rm)))

/-- round_fp32 of the exact result, in mode rm (05 R101). -/
def execFsub (g : Guard) (d : BitVec 8) (a : Src) (b : SrcB) (rm : Rm) (s : State) : Out :=
  .next (alu2 s g false d (srcOp a false) (srcbFp b) (fp2 (fpSub fp32 rm)))

/-- round_fp32 of the exact result, in mode rm (05 R101). -/
def execFmul (g : Guard) (d : BitVec 8) (a : Src) (b : SrcB) (rm : Rm) (s : State) : Out :=
  .next (alu2 s g false d (srcOp a false) (srcbFp b) (fp2 (fpMul fp32 rm)))

/-- round_fp32(vA · b + vC), with one rounding (05 R101). -/
def execFfma (g : Guard) (d : BitVec 8) (a : Src) (b : SrcB) (c : CSrc) (rm : Rm) (s : State) : Out :=
  .next (alu3 s g false d (srcOp a false) (srcbFp b) (csrcOp c false) (fp3 (fpFma fp32 rm)))

/-- FMIN (05 R102). -/
def execFmin (g : Guard) (d : BitVec 8) (a : Src) (b : SrcB) (s : State) : Out :=
  .next (alu2 s g false d (srcOp a false) (srcbFp b) (fp2 (fpMin fp32)))

/-- FMAX (05 R102). -/
def execFmax (g : Guard) (d : BitVec 8) (a : Src) (b : SrcB) (s : State) : Out :=
  .next (alu2 s g false d (srcOp a false) (srcbFp b) (fp2 (fpMax fp32)))

/-- FABS clears bit 31 (05 R102). -/
def execFabs (g : Guard) (d : BitVec 8) (a : Src) (s : State) : Out :=
  .next (alu1 s g false d (srcOp a false) fun x => x &&& 0x7FFFFFFF)

/-- FNEG flips bit 31 (05 R102). -/
def execFneg (g : Guard) (d : BitVec 8) (a : Src) (s : State) : Out :=
  .next (alu1 s g false d (srcOp a false) fun x => x ^^^ 0x80000000)

/-- p[D] := the floating-point comparison (05 R102). -/
def execFcmp (g : Guard) (d : BitVec 3) (a : Src) (b : SrcB) (cc : FCond) (s : State) : Out :=
  .next (cmp2 s g d (srcOp a false) (srcbFp b) fun x y => fcmp cc (x.toNat % 2 ^ 32) (y.toNat % 2 ^ 32))

/-- round_fp32(vA / b) (05 R101). -/
def execFdiv (g : Guard) (d : BitVec 8) (a : Src) (b : SrcB) (rm : Rm) (s : State) : Out :=
  .next (alu2 s g false d (srcOp a false) (srcbFp b) (fp2 fun x y => divRound fp32 rm (unpack fp32 x) (unpack fp32 y)))

/-- 1/x (05 R103). -/
def execFrcp (g : Guard) (d : BitVec 8) (a : Src) (rm : Rm) (s : State) : Out :=
  .next (alu1 s g false d (srcOp a false) (fp1 fun x => divRound fp32 rm (.fin false 1 0) (unpack fp32 x)))

/-- 1/√x (05 R103). -/
def execFrsq (g : Guard) (d : BitVec 8) (a : Src) (s : State) : Out :=
  .next (alu1 s g false d (srcOp a false) (fp1 fun x => rsqrtRound fp32 .rn (unpack fp32 x)))

/-- √x (05 R103). -/
def execFsqrt (g : Guard) (d : BitVec 8) (a : Src) (rm : Rm) (s : State) : Out :=
  .next (alu1 s g false d (srcOp a false) (fp1 fun x => sqrtRound fp32 rm (unpack fp32 x)))

/-- 2^x, correctly rounded (05 R103). -/
def execFexp2 (g : Guard) (d : BitVec 8) (a : Src) (s : State) : Out :=
  .next (alu1 s g false d (srcOp a false) (fp1 fun x => exp2Round (unpack fp32 x)))

/-- log₂ x, correctly rounded (05 R103). -/
def execFlog2 (g : Guard) (d : BitVec 8) (a : Src) (s : State) : Out :=
  .next (alu1 s g false d (srcOp a false) (fp1 fun x => log2Round (unpack fp32 x)))

/-- sin x, correctly rounded (05 R103). -/
def execFsin (g : Guard) (d : BitVec 8) (a : Src) (s : State) : Out :=
  .next (alu1 s g false d (srcOp a false) (fp1 fun x => sinCosRound false (unpack fp32 x)))

/-- cos x, correctly rounded (05 R103). -/
def execFcos (g : Guard) (d : BitVec 8) (a : Src) (s : State) : Out :=
  .next (alu1 s g false d (srcOp a false) (fp1 fun x => sinCosRound true (unpack fp32 x)))

/-- tanh x, correctly rounded (05 R103). -/
def execFtanh (g : Guard) (d : BitVec 8) (a : Src) (s : State) : Out :=
  .next (alu1 s g false d (srcOp a false) (fp1 fun x => tanhRound (unpack fp32 x)))

/-- The integral value vA rounds to (05 R104). -/
def execFrnd (g : Guard) (d : BitVec 8) (a : Src) (rm : Rm) (s : State) : Out :=
  .next (alu1 s g false d (srcOp a false) (fp1 (fpRound rm)))

/-- FCLASS (05 R102). -/
def execFclass (g : Guard) (d : BitVec 8) (a : Src) (s : State) : Out :=
  .next (alu1 s g false d (srcOp a false) (fp1 fpClass))

/-- F2I (05 R104). -/
def execF2i (g : Guard) (d : BitVec 8) (a : Src) (rm : Rm) (u : Bool) (s : State) : Out :=
  .next (alu1 s g false d (srcOp a false) (fp1 fun x => (fpToInt rm u x).toNat))

/-- I2F (05 R104). -/
def execI2f (g : Guard) (d : BitVec 8) (a : Src) (rm : Rm) (u : Bool) (s : State) : Out :=
  .next (alu1 s g false d (srcOp a false) (fp1 fun x => intToFp rm u (BitVec.ofNat 32 x)))

/-- The 16-bit format of a packed instruction (05 R105). -/
def packedFmt (bf : Bool) : FpFmt := if bf then bf16 else fp16

/-- An operation on both halves of registers, each half apart (05 R105). -/
def halves2 (f : Nat → Nat → Nat) (x y : Nat) : Nat :=
  f (x % 65536) (y % 65536) + 65536 * f (x / 65536 % 65536) (y / 65536 % 65536)

/-- HADD2 (05 R105). -/
def execHadd2 (g : Guard) (d : BitVec 8) (a : Src) (b : Src) (rm : Rm) (bf : Bool) (s : State) : Out :=
  .next (alu2 s g false d (srcOp a false) (srcOp b false) (fp2 (halves2 (fpAdd (packedFmt bf) rm))))

/-- HMUL2 (05 R105). -/
def execHmul2 (g : Guard) (d : BitVec 8) (a : Src) (b : Src) (rm : Rm) (bf : Bool) (s : State) : Out :=
  .next (alu2 s g false d (srcOp a false) (srcOp b false) (fp2 (halves2 (fpMul (packedFmt bf) rm))))

/-- HFMA2 (05 R105). -/
def execHfma2 (g : Guard) (d : BitVec 8) (a : Src) (b : Src) (c : CSrc) (rm : Rm) (bf : Bool) (s : State) : Out :=
  let f := fpFma (packedFmt bf) rm
  .next (alu3 s g false d (srcOp a false) (srcOp b false) (csrcOp c false) (fp3 fun x y z =>
    f (x % 65536) (y % 65536) (z % 65536) + 65536 * f (x / 65536 % 65536) (y / 65536 % 65536) (z / 65536 % 65536)))

end Sys2Proof.Machine
end

