-- ==== Sys2Proof/Machine/Formats.lean ====
section
/-! DEFINITION. The format instructions (06 R133 to R136) and FDOT4 (05 R106). -/

namespace Sys2Proof.Machine

/-- The value of a format register as a thread sees it: its own buffered write, or the committed value (06 R120 to
R122). -/
def fmtView (s : State) (k : ThreadKey) (n : Nat) : Word :=
  let own := match aget (handOf k) s.hands with
    | some h => h.detBuf.reverse.find? fun (e : DetEntry) => e.lane = k.lane && e.kind = 4 && e.opx = n
    | none => none
  match own with
  | some e => e.data.setWidth 32
  | none => match aget k.team s.teams with
    | some tm => tm.fmts.getD n 0
    | none => 0

/-- The low word of a value. -/
def low32 (x : Dword) : Nat := x.toNat % 2 ^ 32

/-- The code field of a word (06 R134). -/
def codeField (f : Word) (slot v : Nat) : Nat := v / 2 ^ (slot * fmtField f) % 2 ^ fmtField f

/-- The result of CVT.N (06 R134). -/
def cvtN (f : Word) (a b c : Nat) (rm : Rm) (satm : SatSel) (slot : Nat) : Nat :=
  if fmtUnset f then c
  else
    let x := unpack fp32 a
    let x := if fmtScale f = 0 then x else unscale x (b % 256)
    let sat := match satm with
      | .reg => fmtSat f
      | .sat => true
      | .wrap => false
    let code := (encodeFmt f x rm sat).1
    let p := 2 ^ (slot * fmtField f)
    c - codeField f slot c * p + code * p

/-- The result of CVT.W (06 R134). -/
def cvtW (f : Word) (a b : Nat) (rm : Rm) (slot : Nat) : Nat :=
  if fmtUnset f then 0x7FC00000
  else
    let y := decodeFmt f (codeField f slot a)
    roundTo fp32 rm (if fmtScale f = 0 then y else y.mul (scaleVal (b % 256)))

/-- A conversion through a slot that the register's field width puts outside the word is ILLEGAL (06 R134). -/
def slotOut (f : Word) (slot : Nat) : Bool := 32 ≤ slot * fmtField f

/-- CVT.N (06 R134). -/
def execCvtN (g : Guard) (d : BitVec 8) (a : Src) (b : Src) (c : CSrc) (rm : Rm) (satm : SatSel) (f : BitVec 4)
    (slot : BitVec 3) (s : State) : Out :=
  .next (runLanes s ⟨g, srcOp a false, srcOp b false, csrcOp c false, [(d, false)]⟩ fun k v s =>
    let fmt := fmtView s k f.toNat
    if slotOut fmt slot.toNat then .fault { code := 0x01 }
    else putReg d false (BitVec.ofNat 64 (cvtN fmt (low32 v.a) (low32 v.b) (low32 v.c) rm satm slot.toNat)) k s)

/-- CVT.W (06 R134). -/
def execCvtW (g : Guard) (d : BitVec 8) (a : Src) (b : Src) (rm : Rm) (f : BitVec 4) (slot : BitVec 3) (s : State) : Out :=
  .next (runLanes s ⟨g, srcOp a false, srcOp b false, noOp, [(d, false)]⟩ fun k v s =>
    let fmt := fmtView s k f.toNat
    if slotOut fmt slot.toNat then .fault { code := 0x01 }
    else putReg d false (BitVec.ofNat 64 (cvtW fmt (low32 v.a) (low32 v.b) rm slot.toNat)) k s)

/-- CVT.B, narrowing (06 R135). -/
def execCvtB (g : Guard) (d : BitVec 8) (a : Src) (b : Src) (rm : Rm) (bf : Bool) (s : State) : Out :=
  let half := fun x => roundTo (packedFmt bf) rm (unpack fp32 x)
  .next (alu2 s g false d (srcOp a false) (srcOp b false) (fp2 fun x y => half x + 65536 * half y))

/-- CVT.B.W, widening (06 R135). -/
def execCvtBW (g : Guard) (d : BitVec 8) (a : Src) (bf : Bool) (half : Bool) (s : State) : Out :=
  .next (alu1 s g false d (srcOp a false) (fp1 fun x =>
    roundTo fp32 .rn (unpack (packedFmt bf) (if half then x / 65536 % 65536 else x % 65536))))

/-- One thread's FMTSET (06 R120, R121, R136). -/
def setFmt (s : State) (k : ThreadKey) (n : Nat) (v : Word) : LaneOut :=
  if !fmtAccepted v then .fault { code := 0x01, faddr := v.setWidth 64 }
  else match aget k.team s.teams with
    | none => .wait s
    | some tm =>
      if tm.detMode then buffered s k tm.w ⟨v.setWidth 64, k.lane, 4, n, 0, 0, pcOf s k⟩
      else .done (s.modTeam k.team fun tm => { tm with fmts := tm.fmts.set n v })

/-- FMTSET fmtN, vA (06 R136). -/
def execFmtset (g : Guard) (d : BitVec 4) (a : Src) (s : State) : Out :=
  .next (runLanes s ⟨g, srcOp a false, noOp, noOp, []⟩ fun k v s => setFmt s k d.toNat (v.a.setWidth 32))

/-- FMTSET fmtN, imm32 (06 R136). -/
def execFmtsetImm (g : Guard) (d : BitVec 4) (imm : Word) (s : State) : Out :=
  .next (runLanes s ⟨g, noOp, noOp, noOp, []⟩ fun k _ s => setFmt s k d.toNat imm)

/-- FMTGET (06 R136). -/
def execFmtget (g : Guard) (d : BitVec 8) (a : BitVec 4) (s : State) : Out :=
  .next (runLanes s ⟨g, noOp, noOp, noOp, [(d, false)]⟩ fun k _ s =>
    putReg d false ((fmtView s k a.toNat).setWidth 64) k s)

/-- The exact dot product of four codes added to a value, rounded once (05 R106). -/
def fdot4 (f : Word) (a b c : Nat) (rm : Rm) : Nat :=
  let term := fun (j : Nat) => (decodeFmt f (a / 256 ^ j % 256)).mul (decodeFmt f (b / 256 ^ j % 256))
  roundTo fp32 rm ((List.range 4).foldl (fun x j => x.add rm (term j)) (unpack fp32 c))

/-- FDOT4 (05 R106). -/
def execFdot4 (g : Guard) (d : BitVec 8) (a : Src) (b : Src) (c : CSrc) (rm : Rm) (f : BitVec 4) (s : State) : Out :=
  .next (runLanes s ⟨g, srcOp a false, srcOp b false, csrcOp c false, [(d, false)]⟩ fun k v s =>
    putReg d false (BitVec.ofNat 64 (fdot4 (fmtView s k f.toNat) (low32 v.a) (low32 v.b) (low32 v.c) rm)) k s)

end Sys2Proof.Machine
end

