-- ==== Sys2Proof/Machine/Health.lean ====
section
/-! DEFINITION. Boot, readiness, errors, heat and debug (23 R400 to R408). -/

namespace Sys2Proof.Machine

/-! ## Boot and readiness (23 R401 to R404) -/

/-- The configuration record that counts: of those whose signature is good, the one with the highest version, the first
listed of several (DESIGN CHOICE, notes/assumptions/112.md); all zeros with none (23 R402). -/
def bootRecord (records : List (Bool × BitVec 128)) : Nat :=
  ((records.filter (·.1)).map (·.2.toNat)).foldl (fun b w => if b % 2 ^ 32 < w % 2 ^ 32 then w else b)
    (((records.find? (·.1)).map (·.2.toNat)).getD 0)

/-- POWER_ON_BOOT: the image is checked, and only then does the dealer run; an image that fails holds the PF in recovery,
until the host has written the flash and the module powers on again. The configuration record gives the module's identity,
and the incarnation number advances (14 R318). -/
def execPowerOnBoot (imageOk : Bool) (records : List (Bool × BitVec 128)) (s : State) : Out :=
  let c := bootRecord records
  if s.health.booted then .next s
  else .next { s with
    health := { s.health with booted := imageOk, recovery := !imageOk }
    fab := { s.fab with
      node := bits c 127 106, linkEn := bits c 105 74 + bits c 73 70 * 2 ^ 32, stackEn := bits c 69 38, version := bits c 31 0
      inc := s.fab.inc + 1 } }

/-- Whether a readiness bit may be set: a function, a die, or a stack that is used. -/
def mayReady (s : State) : ReadyBit → Bool
  | .func f => f ≤ 64
  | .die d => d < 10
  | .stack i => i < 32 && bit s.fab.stackEn i
  | .link _ => false

/-- UNIT_READY: a unit becomes usable the moment its bit is set; a link's bit is set as it trains. A unit whose bit has
fallen has a lasting fault and stays out of use (23 R404; DEDUCED, notes/assumptions/85.md). -/
def execUnitReady (u : ReadyBit) (s : State) : Out :=
  .next (if mayReady s u && s.health.booted && !s.health.ready.contains u && !s.health.fallen.contains u then
      { s with health := { s.health with ready := s.health.ready ++ [u] } }
    else s)

/-- A field of the readiness register: the bits of its units. -/
def readyField (s : State) (lo n : Nat) (u : Nat → ReadyBit) : Nat :=
  (List.range n).foldl (fun m i => if s.health.ready.contains (u i) then m + 2 ^ (lo + i) else m) 0

/-- The readiness register, as a function reads it at offset 0x0040 of its BAR0 (23 R403). -/
def readinessReg (s : State) (fn : Nat) : BitVec 128 :=
  BitVec.ofNat 128 (readyField s 92 36 .link + readyField s 60 32 .stack + readyField s 50 10 .die
    + (if funcReady s fn then 1 else 0))

/-- The dealer acts on the lasting fault of a unit whose readiness bit has fallen: every lane of a port is retired, and for a
stack or a die a lasting record names it (notes/assumptions/85.md). -/
def fallenUnit (s : State) : ReadyBit → State
  | .link p => (List.range 8).foldl (fun s l => makeLasting s (.linkLane p l)) s
  | .stack i => logHealth s 2 (0, 64 * i, 0)
  | .die d => logHealth s 2 (1, 64 * d * 64, 0)
  | .func _ => s

/-- READINESS_BIT_FALLS: a lasting fault of that unit (23 R404), which is out of use from then on. -/
def execReadinessBitFalls (u : ReadyBit) (s : State) : Out :=
  let s1 := { s with health := { s.health with
    ready := s.health.ready.filter (· ≠ u)
    fallen := if s.health.fallen.contains u then s.health.fallen else s.health.fallen ++ [u] } }
  .next (if s.health.fallen.contains u then s1 else fallenUnit s1 u)

/-! ## Errors (23 R405) -/

/-- CORRECTED_ERROR. -/
def execCorrectedError (u : ErrUnit) (s : State) : Out := .next (countError s u)

/-- The registers of the threads that run on a quadrant: its slice of the register file. -/
def sliceRegs (s : State) (q : QuadId) : List (ThreadKey × Nat) :=
  s.threads.flatMap fun e =>
    if coreOf e.1.team = ⟨q.die, q.core⟩ && (match aget (handOf e.1) s.hands with
      | some h => h.quad = q.quad
      | none => false)
    then (List.range (e.2.regs.length - 1)).map fun r => (e.1, r + 1) else []

/-- An uncorrectable error of a register file slice lies in one of its registers, or in none that is in use; which one is open
(notes/assumptions/87.md). -/
def poisonReg (s : State) (q : QuadId) : State :=
  let rs := sliceRegs s q
  match rs[Config.freeValue 10 s.tick % (rs.length + 1)]? with
  | none => { s with tick := s.tick + 1 }
  | some (k, r) => { s with tick := s.tick + 1 }.modThread k fun t =>
      { t with poison := if t.poison.contains r then t.poison else t.poison ++ [r] }

/-- What an uncorrectable error poisons. -/
def poisonUnit (s : State) (u : ErrUnit) : State :=
  let add (l : List Nat) (x : Nat) : List Nat := if l.contains x then l else l ++ [x]
  match u with
  | .dramRow loc => { s with mem := { s.mem with dramPoison := add s.mem.dramPoison (loc / 64) } }
  | .codeLine loc => { s with mem := { s.mem with dramPoison := add s.mem.dramPoison (loc / 64) } }
  | .spBank c b off => { s with mem := { s.mem with spPoison := add s.mem.spPoison ((coreNo c * 2097152 + b * 32768 + off) / 8) } }
  | .cmBank d b off => { s with mem := { s.mem with cmPoison := add s.mem.cmPoison ((d * 67108864 + b * 262144 + off) / 8) } }
  | .regSlice q => poisonReg s q
  | .farLine _ _ => s
  | .linkLane _ _ => s

/-- UNCORRECTABLE_ERROR: lasting at once, and it reaches readers as POISON. -/
def execUncorrectableError (u : ErrUnit) (s : State) : Out :=
  .next (makeLasting (logHealth (poisonUnit s u) 1 (errPlace u)) u)

/-! ## Heat (23 R400) -/

/-- THERMAL_CLOCK_LOWER: a die's clock goes down by a step of 31.25 MHz; only timing changes. -/
def execThermalClockLower (die : Nat) (s : State) : Out :=
  .next { s with health := { s.health with slowed := aset die (agetD die 0 s.health.slowed + 1) s.health.slowed } }

/-- THERMAL_POWER_OFF: the module logs a health record of class 2 and powers off. -/
def execThermalPowerOff (die : Nat) (s : State) : Out :=
  let s1 := logHealth s 2 (6, die, 0)
  .next { s1 with health := { s1.health with powered := false } }

/-! ## Debug (23 R407, R408) -/

/-- DEBUG_ENABLE_REQUEST: a PF mailbox request sets a partition's debug enable. -/
def execDebugEnableRequest (func : Nat) (en : Bool) (s : State) : Out :=
  .next (if funcReady s 0 then reply (s.modFunc func fun f => { f with debugEn := en }) 0 0 else s)

/-- DEBUG_HALT: HALT is set and FREEZE clear: every hand of the core is halted at an instruction boundary. -/
def execDebugHalt (c : CoreId) (s : State) : Out := .next (haltWrite s c true false)

/-- DEBUG_FREEZE: HALT and FREEZE are set: every channel of the core stops at a record boundary, too. -/
def execDebugFreeze (c : CoreId) (s : State) : Out := .next (haltWrite s c true true)

/-- DEBUG_RELEASE: HALT is cleared, and the channels thaw. -/
def execDebugRelease (c : CoreId) (s : State) : Out := .next (haltWrite s c false false)

/-- Whether nothing of a channel is in flight, and nothing that waits there may start. -/
def chanIdle (s : State) (c : ChanId) : Bool :=
  let ch := s.chan c
  ch.jobs.all (fun j => !j.started && !mayStart s c j.team) && ch.run.all Job.isChain

/-- Whether what a team on a core has issued leaves its scratchpad alone: its hands' queues rest, nothing of a matrix
instruction or a run is under way, and it neither is being staged nor commits. -/
def teamIdle (s : State) (id : TeamId) (tm : Team) : Bool :=
  tm.commit = 0 && tm.st ≠ .staging
    && (teamHands s id).all (fun h => match aget h s.hands with
      | some hd => queueRests s h hd
      | none => true)
    && (s.holds.all fun h => h.2.team ≠ id)
    && (s.mats.all fun m => m.2.jobs.all fun j => j.thread.team ≠ id)
    && (s.runs.all fun e => e.2.team ≠ id)
    && s.ranks.all fun r => r.team ≠ some id || !r.bben

/-- Whether no record of a core is in flight, and its scratchpad is stable: nothing that is under way changes it (23 R407,
R408; DEDUCED, notes/assumptions/118.md). -/
def coreIdle (s : State) (c : CoreId) : Bool :=
  (s.chans.all fun e => e.1.quad.die ≠ c.die || e.1.quad.core ≠ c.core || chanIdle s e.1)
    && s.teams.all fun e => coreOf e.1 ≠ c || teamIdle s e.1 e.2

/-- DEBUG_IDLE: IDLE reads 1 once a halted core's channels rest. -/
def execDebugIdle (c : CoreId) (s : State) : Out :=
  .next (if (s.core c).halt && coreIdle s c then s.modCore c fun x => { x with idle := true } else s)

end Sys2Proof.Machine
end

