-- ==== Sys2Proof/Machine/Loads.lean ====
section
/-! DEFINITION. The instructions that read a scratchpad lane by lane: LD (07 R144, R148), TGET (07 R155) and JTAB (04 R79),
and what the banks do between their reads (00 R10, 07 R141). -/

namespace Sys2Proof.Machine

/-! ## What banks do between the reads of an instruction (00 R10, 07 R141) -/

/-- A step that a team's banks may take between two reads of one instruction (notes/assumptions/120.md). -/
inductive BankStep where
  /-- The oldest store or read-modify-write of another hand of the team. -/
  | store (h : HandKey)
  /-- A unit of a channel's record whose replies are there. -/
  | unit (c : ChanId) (r u : Nat)
  /-- The next record of a take. -/
  | take (c : ChanId)
deriving DecidableEq, Repr

/-- The steps of a channel that may write to a team's scratchpad. -/
def chanSteps (s : State) (id : TeamId) (c : ChanId) : List BankStep :=
  match (s.chan c).run with
  | some (.chain x) =>
    if x.team ≠ id then []
    else (List.range x.recs.length).flatMap fun n => match x.recs[n]? with
      | some r => ((List.range r.issued).filter fun u => !bit r.mask u && !r.waiting.contains u &&
          ((aget u r.reqs).bind (repliesOf s)).isSome).map (.unit c n)
      | none => []
  | some (.take t) => if t.team = id && t.landed < t.claims.length then [.take c] else []
  | none => []

/-- The steps that the banks of a hand's team may take. -/
def bankSteps (s : State) (h : HandKey) : List BankStep :=
  (s.hands.filterMap fun e =>
    if e.1.team = h.team && e.1 ≠ h && (oldestStore e.2.storeQ).isSome then some (.store e.1) else none) ++
  s.chans.flatMap fun e => chanSteps s h.team e.1

/-- The state that an outcome leads to. -/
def stateAfter (s : State) : Out → State
  | .next t => t
  | _ => s

/-- The state after a step of the banks. -/
def bankStep (s : State) : BankStep → State
  | .store h => stateAfter s (execScratchpadBankAccept h s)
  | .unit c r u => stateAfter s (execCopyUnitSettle c r u 0 s)
  | .take c => stateAfter s (execBagTakeLand c s)

/-- The state after n steps of the banks, the first of them numbered i: each is any of those that may come. -/
def bankRun (h : HandKey) (tick : Nat) : Nat → Nat → State → State
  | _, 0, s => s
  | i, n + 1, s =>
    let ss := bankSteps s h
    match ss[Config.freeValue (256 + i) tick % ss.length]? with
    | some b => bankRun h tick (i + 1) n (bankStep s b)
    | none => s

/-- A lane's read: its word's place in the scratchpads, and the steps of the banks that have come before it. -/
structure LaneRead where
  lane : Nat
  key : Nat
  time : Nat
deriving DecidableEq, Repr

/-- The latest of some reads. -/
def latest (ts : List LaneRead) : Nat := ts.foldl (fun m x => max m x.time) 0

/-- The times of reads of lanes at places, in ascending lane order: a bank accepts them in this order, any number of steps
between them, and lanes that read one word are served by one access (07 R141). -/
def bankTimes (s : State) (i base : Nat) (rs : List (Nat × Nat)) : List LaneRead :=
  rs.foldl (fun ts r =>
    let t := match ts.find? fun x => x.key / 8 = r.2 / 8 with
      | some x => x.time
      | none => max base (latest (ts.filter fun x => x.key / 32768 = r.2 / 32768)) + Config.freeValue (i + r.1) s.tick
    ts ++ [⟨r.1, r.2, t⟩]) []

/-- The performing lanes whose operands are there, and these. -/
def lanesRead (s : State) (sh : Shape) : List (Nat × Vals) :=
  match inFocus s with
  | none => []
  | some (h, tm, ls) => (performing s h sh.g ls).filterMap fun l => match readOpnds s h tm.w sh l with
    | .ok v => some (l, v)
    | _ => none

/-- The reads of an instruction whose lanes each read at one address; none: nothing can come between them. -/
def readTimes (s : State) (sh : Shape) (addr : ThreadKey → Team → Vals → Nat) : List LaneRead :=
  match inFocus s with
  | none => []
  | some (h, tm, _) =>
    let rs := lanesRead s sh
    if rs.length ≤ 1 || bankSteps s h = [] then []
    else bankTimes s 64 0 (rs.map fun r => (r.1, tm.spKey h.team (addr (threadOf h r.1) tm r.2)))

/-- The state as it is when a lane's read is accepted. -/
def viewOf (s : State) (h : HandKey) (ts : List LaneRead) (l : Nat) : State :=
  match ts.find? fun x => x.lane = l with
  | some x => bankRun h s.tick 0 x.time s
  | none => s

/-- The state t after the reads of an instruction that was issued in s: what the banks did before the last of them has been
done. -/
def banksWent (s : State) (h : HandKey) (ts : List LaneRead) (t : State) : State :=
  match ts with
  | [] => t
  | _ => bankRun h s.tick 0 (latest ts) t

/-- A lane-by-lane instruction whose lanes each read a scratchpad at one address: body gets the state as the lane's bank
then is. -/
def runReads (s : State) (sh : Shape) (addr : ThreadKey → Team → Vals → Nat)
    (body : State → ThreadKey → Vals → State → LaneOut) : State :=
  let ts := readTimes s sh addr
  let s1 := runLanes s sh fun k v s' => body (viewOf s (handOf k) ts k.lane) k v s'
  match inFocus s with
  | some (h, _, _) => banksWent s h ts s1
  | none => s1

/-! ## LD (07 R144, R148) -/

/-- LD of the scratchpad, as the banks are in v when they accept it. -/
def loadSp (s v : State) (k : ThreadKey) (tm : Team) (d : BitVec 8) (n : Nat) (sgn : Bool) (a : Nat) : LaneOut :=
  match spLoad v k tm a n n with
  | .ok x => putReg d (n = 8) (extendLoad n sgn x) k s
  | .wait => .wait s
  | .fault f => .fault f

/-- LD of the lane stack. -/
def loadStk (s : State) (k : ThreadKey) (tm : Team) (d : BitVec 8) (n : Nat) (sgn : Bool) (a : Nat) : LaneOut :=
  match stackCheck tm k a n 1 with
  | some f => .fault f
  | none => match stackGet s k a n with
    | (s1, some v) => putReg d (n = 8) (extendLoad n sgn v) k s1
    | (s1, none) => .wait s1

/-- LD (07 R144). The value is read at issue, so an acquire holds nothing back that is not behind it already. -/
def execLd (g : Guard) (d : BitVec 8) (a : Src) (sz : Size) (sgn : Bool) (_acq : Option Scope) (off : Word)
    (space : LdSpace) (s : State) : Out :=
  let sh : Shape := ⟨g, srcOp a false, noOp, noOp, [(d, sizeBytes sz = 8)]⟩
  match space with
  | .sp => .next (runReads s sh (fun _ _ v => memAddr v.a off) fun b k v s => inTeam s k fun tm =>
      loadSp s b k tm d (sizeBytes sz) sgn (memAddr v.a off))
  | .stk => .next (runLanes s sh fun k v s => inTeam s k fun tm => loadStk s k tm d (sizeBytes sz) sgn (memAddr v.a off))

/-! ## TGET (07 R155) -/

/-- TGET of a tile's data (07 R155): at once under a local name, as a long-latency producer under a remote one. The
footprint is that of the format value, and of the row pointers, as the thread sees them, at their bank, in b (06 R121, R122). -/
def tgetData (s b : State) (k : ThreadKey) (tm : Team) (w : Bool) (d : BitVec 8) (t : TileName) (off : Nat) : LaneOut :=
  let n := if w then 8 else 4
  match tileRef s k.team tm t with
  | none => .fault { code := 0x0B, acc := 1 }
  | some r =>
    match meetReader s k.team r with
    | .fault => .fault { code := 0x0B, acc := 1 }
    | .wait => .wait (blockOn s k (.tile r.team r.entry 3))
    | .go =>
      match aget r.team s.teams with
      | none => .fault { code := 0x0B, acc := 1 }
      | some ptm =>
        let tl := r.tile s
        let v := if r.team = k.team then threadView b k else b
        let f := tileFmt v r
        let nnz := sparseCount v r.team ptm tl
        let a := tl.base * 64 + off
        if off % n ≠ 0 then .fault { code := 0x09, faddr := BitVec.ofNat 64 a, acc := 1 }
        else match sparsePoison v r.team ptm tl with
        | some f => .fault f
        | none =>
        if tl.footprint f nnz < off + n || !tl.inBounds f nnz ptm.scratch then
          .fault { code := 0x08, faddr := BitVec.ofNat 64 a, acc := 1 }
        else if r.team = k.team then loadSp s b k tm d n false a
        else if heldRange s r.team a n true || acqPending s k false then .wait s
        else
          let keys := (List.range n).map fun i => ptm.spKey r.team (a + i)
          let q := nextSeqNo s (handOf k)
          let s1 := sendFill (markEmpty s k d w) k d w (.scratch keys) (pcOf s k) (some q)
          .done (s1.modHand (handOf k) fun h => { h with seq := h.seq + 1 })

/-- TGET (07 R155). -/
def execTget (g : Guard) (w : Bool) (d : BitVec 8) (a : Src) (t : TileName) (s : State) : Out :=
  .next (runReads s ⟨g, srcOp a false, noOp, noOp, [(d, w)]⟩
    (fun k tm v => match tileRef s k.team tm t with
      | some r => (r.tile s).base * 64 + v.a.toNat % 2 ^ 32
      | none => 0)
    fun b k v s => inTeam s k fun tm => tgetData s b k tm w d t (v.a.toNat % 2 ^ 32))

/-! ## JTAB (04 R79) -/

/-- The address of the entry that a table's header names for an index; none: no entry. -/
def tableEntry (header h i : Nat) : Option Nat :=
  if i < header % 2 ^ 32 then some ((h + 16 + 8 * i) % 2 ^ 32)
  else if bit header 32 then some ((h + 8) % 2 ^ 32)
  else none

/-- The target that a thread reads from the table whose header is at h, or the reason it does not go on: the banks are as in
b when they accept the read of the header, and as in e when they accept that of the entry. -/
def tableTarget (b e : State) (k : ThreadKey) (tm : Team) (h : Nat) (i : Nat) : SpRead :=
  match spLoad b k tm h 8 8 with
  | .wait => .wait
  | .fault f => .fault f
  | .ok v => match tableEntry v h i with
    | some a => spLoad e k tm a 8 8
    | none => .fault { code := 0x0C, felem := i, acc := 1 }

/-- Where a thread goes: the target of a transfer whose fetch waits, or its pc. -/
def Thread.goesTo (t : Thread) : Dword := t.go.getD t.pc

/-- The groups of lanes that a JTAB serves one after another: by target, in ascending order of lowest lane. -/
def jtabGroups (s : State) (h : HandKey) (ls : List Nat) : List (BitVec 64) :=
  (ls.foldl (fun (gs : List (Dword × BitVec 64)) l =>
    match s.lane h l with
    | none => gs
    | some t => if gs.any fun g => g.1 = t.goesTo
      then gs.map fun g => if g.1 = t.goesTo then (g.1, g.2 ||| BitVec.twoPow 64 l) else g
      else gs ++ [(t.goesTo, BitVec.twoPow 64 l)]) []).map (·.2)

/-- The times at which the banks accept the reads of a table's entries: each thread's after the headers' (notes/assumptions/120.md). -/
def entryTimes (s : State) (sh : Shape) (off : Word) (ts : List LaneRead) : List LaneRead :=
  match inFocus s with
  | none => []
  | some (h, tm, _) => if bankSteps s h = [] then []
    else bankTimes s 128 (latest ts) ((lanesRead s sh).filterMap fun r =>
      let x := memAddr r.2.a off
      match spLoad (viewOf s h ts r.1) (threadOf h r.1) tm x 8 8 with
      | .ok v => (tableEntry v x (r.2.b.toNat % 2 ^ 32)).map fun a => (r.1, tm.spKey h.team a)
      | _ => none)

/-- Whether a performing thread's read of the table has to wait: no group is formed before every thread has its target. -/
def tableWaits (s : State) (sh : Shape) (off : Word) (ts es : List LaneRead) : Bool :=
  match inFocus s with
  | none => false
  | some (h, tm, _) => (lanesRead s sh).any fun r =>
      match tableTarget (viewOf s h ts r.1) (viewOf s h es r.1) (threadOf h r.1) tm (memAddr r.2.a off) (r.2.b.toNat % 2 ^ 32) with
      | .wait => true
      | _ => false

/-- JTAB (04 R79). While a thread's read of the table waits, all wait. A thread whose fetch waits keeps its target, and its
place in its group; a thread that stops is in no group. -/
def execJtab (g : Guard) (a : CSrc) (b : CSrc) (off : Word) (s : State) : Out :=
  let sh : Shape := ⟨g, csrcOp a false, csrcOp b false, noOp, []⟩
  let ts := readTimes s sh fun _ _ v => memAddr v.a off
  let es := entryTimes s sh off ts
  let stuck := tableWaits s sh off ts es
  let s1 := runLanes s sh fun k v s' => inTeam s' k fun tm =>
    if stuck then .wait s'
    else match tableTarget (viewOf s (handOf k) ts k.lane) (viewOf s (handOf k) es k.lane) k tm (memAddr v.a off)
        (v.b.toNat % 2 ^ 32) with
    | .ok t => .left (branchThread s' k (BitVec.ofNat 64 t))
    | .wait => .wait s'
    | .fault f => .fault f
  match inFocus s with
  | some (h, _, ls) =>
    let went := (performing s h g ls).filter fun l => match s.lane h l, s1.lane h l with
      | some _, some t1 => t1.run = .ready || t1.go.isSome
      | _, _ => false
    let gs := jtabGroups s1 h went
    let s2 := if gs.length ≤ 1 then s1 else s1.modHand h fun hd => { hd with serve := hd.serve ++ gs }
    .next (if stuck then s2 else banksWent s h (ts ++ es) s2)
  | none => .next s1

end Sys2Proof.Machine
end

