-- ==== Sys2Proof/Machine/Matrix.lean ====
section
/-! DEFINITION. Matrix units (10 R206 to R227): ownership, the checks at issue and after it, the layouts, the products and
the moves of accumulators. What an instruction computes takes effect when it issues; until it is done it holds its bytes
(R214), and a fault found after issue is raised when it is done (R213). -/

namespace Sys2Proof.Machine

/-! ## Ownership and order (10 R207, R215) -/

/-- The quadrant of a thread's hand. -/
def quadOf (s : State) (k : ThreadKey) : QuadId :=
  ⟨k.team.die, k.team.core, match aget (handOf k) s.hands with
    | some h => h.quad
    | none => 0⟩

/-- A thread counts as arrived at the quantum boundary (10 R215). -/
def atBoundary (t : Thread) : Bool :=
  match t.run with
  | .exited => true
  | .stopped _ => true
  | .tbar => true
  | .yield => true
  | _ => false

/-- Whether every lower hand of the team on the quadrant has arrived at the quantum boundary. -/
def lowerArrived (s : State) (k : ThreadKey) (q : QuadId) : Bool :=
  s.hands.all fun e => !(e.1.team = k.team && e.1.hand < k.hand && e.2.quad = q.quad) ||
    (List.range 64).all fun l => match s.lane e.1 l with
      | some t => atBoundary t
      | none => true

/-- A team becomes owner: every accumulator is zero and UNSET, or as its context image has them. -/
def grantMat (s : State) (q : QuadId) (id : TeamId) : State :=
  let accs := match aget id s.teams with
    | some tm => agetD (tm.quads.idxOf q.quad) [] tm.accs
    | none => []
  (s.modMat q fun m => { m with owner := some id, accs := accs, wait := m.wait.filter (· ≠ id) }).modTeam id fun tm =>
    { tm with accs := adel (tm.quads.idxOf q.quad) tm.accs }

/-- The team asks for its quadrant's accumulators: whether it has them now. -/
def claimMat (s : State) (q : QuadId) (id : TeamId) : State × Bool :=
  let m := s.mat q
  match m.owner with
  | some o => if o = id then (s, true)
    else (s.modMat q fun m => { m with wait := if m.wait.contains id then m.wait else m.wait ++ [id] }, false)
  | none =>
    if m.wait.head?.getD id = id then (grantMat s q id, true)
    else (s.modMat q fun m => { m with wait := if m.wait.contains id then m.wait else m.wait ++ [id] }, false)

/-- MATRIX_OWNERSHIP_GRANT (10 R207): ownership that fell free goes to the oldest request. -/
def execMatrixOwnershipGrant (q : QuadId) (s : State) : Out :=
  match (s.mat q).owner, (s.mat q).wait with
  | none, id :: _ => .next (grantMat s q id)
  | _, _ => .next s

/-! ## Bytes that an instruction names -/

/-- Bytes of a scratchpad that an instruction names. -/
structure MRange where
  team : TeamId
  tm : Team
  lo : Nat
  len : Nat
  dst : Bool
  tile : Option Nat
deriving DecidableEq, Repr

/-- The footprint and the side array of an operand. -/
def MOp.ranges (o : MOp) (s : State) (dst : Bool) : List MRange :=
  ⟨o.ref.team, o.tm, o.base, o.tile.footprint o.fmt (o.nnz s), dst, some o.ref.entry⟩ ::
    (if o.scaled then [⟨o.ref.team, o.tm, o.tile.scbase * 16, o.tile.sideLen o.fmt, dst, some o.ref.entry⟩] else [])

/-- Whether an operand passes its team's scratchpad (07 R151); at issue, as far as that does not depend on what a sparse-rows
tile holds (10 R213). -/
def MOp.outside (o : MOp) (nnz : Nat) : Bool := !o.tile.inBounds o.fmt nnz o.tm.scratch

/-! ## Issue (10 R213, R214) -/

/-- What a matrix instruction names and does. -/
structure MSpec where
  reads : List MOp                  -- tiles read
  inPlace : Option MOp              -- a tile updated in place
  whole : Option MOp                -- a tile written whole
  shape : Bool                      -- a check of shape, layout, format or tag fails
  bounds : List MOp                 -- tiles whose footprints are checked at issue
  raw : Option FaultInfo            -- the fault of a raw address
  ranges : List MRange
  late : Option FaultInfo           -- a fault found after issue
  eff : State → State

/-- How an instruction uses a tile that it names: it reads it, writes it, or updates it in place (07 R165). -/
def MSpec.accType (m : MSpec) (o : MOp) : Nat :=
  if m.whole.any (·.ref = o.ref) then 2 else if m.inPlace.any (·.ref = o.ref) then 8 else 1

/-- The first tile that does not let the instruction go on. -/
def firstMeet (s : State) (id : TeamId) (m : MSpec) : Option (TileRef × TileMeet) :=
  let rs := (m.reads ++ m.inPlace.toList).map fun o => (o.ref, meetReader s id o.ref)
  let ws := m.whole.toList.map fun o => (o.ref, meetWriter s o.ref)
  (rs ++ ws).find? fun e => e.2 ≠ .go

/-- Whether a poisoned word lies in the bytes that an instruction reads. -/
def rangesPoisoned (s : State) (rs : List MRange) : Bool := rs.any fun r => s.spPoisoned r.team r.tm r.lo r.len

/-- Whether an instruction must wait for held bytes, or for its hand's own earlier stores to the bytes it names. -/
def rangesBusy (s : State) (h : HandKey) (rs : List MRange) : Bool :=
  rs.any fun r => heldRange s r.team r.lo r.len (!r.dst) ||
    (r.team = h.team && (match aget h s.hands with
      | some hd => writePending hd r.lo r.len
      | none => false))

/-- The instruction is issued: its holds begin, and its effect stands unless a fault follows. -/
def issueJob (s : State) (k : ThreadKey) (q : QuadId) (tm : Team) (m : MSpec) : State :=
  let num := s.nextId
  let job : MatJob := ⟨num, k, pcOf s k, m.late, m.whole.map fun o => (o.ref.team, o.ref.entry)⟩
  let hold : MRange → Nat × Hold := fun r => (num, ⟨r.team, r.lo, r.len, r.dst, r.tile⟩)
  let s1 := { s with nextId := num + 1, holds := s.holds ++ m.ranges.map hold }
  let s2 := s1.modMat q fun x => { x with jobs := x.jobs ++ [job] }
  let written := if tm.detMode && m.late.isNone then m.whole.toList ++ m.inPlace.toList else []
  let filling := if written = [] then m.whole.toList else written
  let s3 := filling.foldl (fun s o => setTileState s (coreOf o.ref.team) o.ref.entry 1) s2
  let s4 := s3.modTeam k.team fun tm =>
    { tm with trickTiles := tm.trickTiles ++ written.map fun o => tm.tiles.idxOf o.ref.entry }
  if m.late.isSome then s4 else m.eff s4

/-- In deterministic mode a hand's first matrix instruction in a trick waits until the lower hands have arrived (10 R215):
whether this one need not wait, and the state in which the hand has had its first. -/
def enterTrick (s : State) (k : ThreadKey) (tm : Team) (q : QuadId) : Option State :=
  if !tm.detMode then some s
  else match aget (handOf k) s.hands with
    | some h => if h.trick then some s
      else if lowerArrived s k q then some (s.modHand (handOf k) fun h => { h with trick := true })
      else none
    | none => none

/-- The common course of the instructions that act once per bundle: order, ownership, tile states, shape, footprints. The
instruction is described for the state in which the team owns the unit. -/
def matrixOp (s : State) (k : ThreadKey) (tm : Team) (f : State → QuadId → Option MSpec) : LaneOut :=
  let q := quadOf s k
  match enterTrick s k tm q with
  | none => .wait (blockOn s k .matrix)
  | some s0 =>
    match claimMat s0 q k.team with
    | (s1, false) => .wait (blockOn s1 k .matrix)
    | (s1, true) =>
      match f s1 q with
      | none => .faultIn s1 { code := 0x0B, acc := 1 }
      | some m =>
        match firstMeet s1 k.team m with
        | some (r, .wait) => .wait (blockOn s1 k (.tile r.team r.entry (if m.whole.any (·.ref = r) then 4 else 3)))
        | some _ => .faultIn s1 { code := 0x0B }
        | none =>
          if m.shape then .faultIn s1 { code := 0x1C }
          else match m.raw with
            | some x => .faultIn s1 x
            | none =>
              match m.bounds.find? (·.outside 0) with
              | some o => .faultIn s1 { code := 0x08, faddr := BitVec.ofNat 64 o.base, acc := m.accType o }
              | none =>
                if rangesBusy s1 (handOf k) m.ranges then .wait s1 else .done (issueJob s1 k q tm m)

/-- A matrix instruction of a bundle. -/
def runMatrix (s : State) (g : Guard) (a c : Opnd) (f : ThreadKey → Team → Vals → State → QuadId → Option MSpec) : State :=
  runBundle s ⟨g, a, noOp, c, []⟩ fun k v s => inTeam s k fun tm => matrixOp s k tm (f k tm v)

/-- A destination tile that an instruction was writing. -/
def settleTile (s : State) (d : Option (TeamId × Nat)) (st : Nat) : State :=
  match d with
  | some (id, e) => setTileState s (coreOf id) e st
  | none => s

/-- MATRIX_INSTRUCTION_DONE (10 R214): the oldest instruction of the unit is done, and its holds end. The tile it wrote is
READY, in deterministic mode only at the quantum boundary (R215). -/
def execMatrixInstructionDone (q : QuadId) (n : Nat) (s : State) : Out :=
  if n ≠ 0 then .next s
  else
    match (s.mat q).jobs with
    | [] => .next s
    | j :: rest =>
      let s1 := { s.modMat q fun m => { m with jobs := rest } with holds := s.holds.filter fun h => h.1 ≠ j.num }
      match j.fault with
      | none => .next (if j.dst.any fun d => trickTile s ⟨d.1, d.2⟩ then s1 else settleTile s1 j.dst 2)
      | some f => .next (openChecks (producerFault (settleTile s1 j.dst 0) j.thread j.iaddr f) j.thread.team)

/-! ## Accumulators -/

def accOf (s : State) (q : QuadId) (n : Nat) : AccTile := agetD n AccTile.reset (s.mat q).accs
def setAcc (s : State) (q : QuadId) (n : Nat) (a : AccTile) : State := s.modMat q fun m => { m with accs := aset n a m.accs }
/-- Element (i, j). -/
def AccTile.get (a : AccTile) (i j : Nat) : BitVec 36 := agetD (64 * i + j) 0 a.elems

/-- An accumulator with the elements that a function gives. -/
def AccTile.build (tag : Nat) (f : Nat → Nat → BitVec 36) : AccTile :=
  ⟨tag, (List.range 4096).filterMap fun n => let v := f (n / 64) (n % 64); if v = 0 then none else some (n, v)⟩

/-- The value that an element stands for under its tag. -/
def accNum (tag : Nat) (v : BitVec 36) : Num :=
  if tag = 2 then .fin (v.toInt < 0) v.toInt.natAbs 0 else unpack f36 v.toNat

/-- sat36 (06 R129). -/
def sat36 (x : Int) : BitVec 36 := BitVec.ofInt 36 (max (-(2 ^ 35)) (min (2 ^ 35 - 1) x))

/-! ## MMA (10 R217 to R220) -/

/-- The five forms. -/
inductive MmaForm where
  | ip | op | rw | opSk | rwSp
deriving DecidableEq, Repr

/-- The layouts of A and B (10 R217). -/
def MmaForm.layouts : MmaForm → Nat × Nat
  | .ip => (0, 0)
  | .op => (0, 0)
  | .opSk => (0, 2)
  | .rw => (1, 0)
  | .rwSp => (1, 1)

/-- The k indices of group g below K. -/
def groupKs (g K : Nat) : List Nat := (List.range (min 32 (K - 32 * g))).map (· + 32 * g)

/-- Whether a value is a number. -/
def Num.isFinite : Num → Bool
  | .fin _ _ _ => true
  | _ => false

/-- A product of two elements: that of an absent or skipped one is +0, exactly as a stored +0's is (10 R219; of an infinity or a
NaN it is open, DEDUCED, notes/assumptions/102.md). -/
def elemMul (x y : Option Num) : Num :=
  let a := x.getD (.fin false 0 0)
  let b := y.getD (.fin false 0 0)
  if isPlusZero a || isPlusZero b then
    if a.isFinite && b.isFinite then .fin false 0 0 else if Config.zeroTimesNaN then .nan else .fin false 0 0
  else a.mul b

/-- exact_group_sum (06 R130): −0 only when every product is −0. -/
def groupSum (a b : Nat → Nat → Option Num) (i j g K : Nat) : Num :=
  match (groupKs g K).map fun k => elemMul (a i k) (b k j) with
  | [] => .fin false 0 0
  | p :: ps => ps.foldl (fun x y => x.add .rn y) p

/-- The new F36 value of an element (10 R218). -/
def mmaFloat (a b : Nat → Nat → Option Num) (K i j : Nat) (old : BitVec 36) : BitVec 36 :=
  (List.range ((K + 31) / 32)).foldl (fun acc g =>
    BitVec.ofNat 36 (roundTo f36 .rn ((unpack f36 acc.toNat).add .rn (groupSum a b i j g K)))) old

/-- The new INT36 value of an element. -/
def mmaInt (a b : Nat → Nat → Int) (K i j : Nat) (old : BitVec 36) : BitVec 36 :=
  (List.range ((K + 31) / 32)).foldl (fun acc g =>
    sat36 (acc.toInt + ((groupKs g K).map fun k => a i k * b k j).sum)) old

/-- The accumulator after an MMA. -/
def mmaAcc (s : State) (a b : MOp) (old : AccTile) : AccTile :=
  let K := a.cols
  let int := a.isInt && b.isInt
  AccTile.build (if int then 2 else 1) fun i j =>
    if a.rows ≤ i || b.cols ≤ j then old.get i j
    else if int then mmaInt (a.int s) (b.int s) K i j (old.get i j)
    else mmaFloat (a.elem s) (b.elem s) K i j (old.get i j)

/-- What raises MATRIX_SHAPE (10 R217). -/
def mmaShape (f : MmaForm) (a b : MOp) (tag : Nat) : Bool :=
  b.rows ≠ a.cols || a.tile.layout ≠ f.layouts.1 || b.tile.layout ≠ f.layouts.2 || a.noFormat || b.noFormat ||
    ((a.scaled || b.scaled) && a.cols % 32 ≠ 0) || (if a.isInt && b.isInt then tag = 1 else tag = 2)

/-- The fault that an operand's contents give after issue: of the bytes that are needed of it, and of what they say
(10 R213). -/
def MOp.late (o : MOp) (s : State) : Option FaultInfo :=
  if o.poisoned s o.headNeeds then some { code := 0x15, acc := 1 }
  else if !o.headOk s then some { code := 0x1C }
  else if o.outside (o.nnz s) then some { code := 0x08, faddr := BitVec.ofNat 64 o.base, acc := 1 }
  else if o.poisoned s (o.dataNeeds s ++ o.scaleNeeds s) then some { code := 0x15, acc := 1 }
  else if o.contentOk s then none else some { code := 0x1C }

/-- The fault that the operands' contents give after issue. -/
def lateOf (s : State) (os : List MOp) : Option FaultInfo := os.findSome? (·.late s)

/-- An MMA of any form. -/
def mmaSpec (f : MmaForm) (d : Nat) (na nb : TileName) (k : ThreadKey) (tm : Team) (_ : Vals) (s : State) (q : QuadId) :
    Option MSpec :=
  match mop s k.team tm na, mop s k.team tm nb with
  | some a, some b =>
    let acc := accOf s q d
    let rs := a.ranges s false ++ b.ranges s false
    some ⟨[a, b], none, none, mmaShape f a b acc.tag, [a, b], none, rs, lateOf s [a, b],
      fun s' => setAcc s' q d (mmaAcc s a b acc)⟩
  | _, _ => none

/-- MMA.IP (10 R218). -/
def execMmaIp (g : Guard) (d : BitVec 2) (a : TileName) (b : TileName) (s : State) : Out :=
  .next (runMatrix s g noOp noOp (mmaSpec .ip d.toNat a b))

/-- MMA.OP (10 R218). -/
def execMmaOp (g : Guard) (d : BitVec 2) (a : TileName) (b : TileName) (s : State) : Out :=
  .next (runMatrix s g noOp noOp (mmaSpec .op d.toNat a b))

/-- MMA.RW (10 R218). -/
def execMmaRw (g : Guard) (d : BitVec 2) (a : TileName) (b : TileName) (s : State) : Out :=
  .next (runMatrix s g noOp noOp (mmaSpec .rw d.toNat a b))

/-- MMA.OP.SK (10 R218). -/
def execMmaOpSk (g : Guard) (d : BitVec 2) (a : TileName) (b : TileName) (s : State) : Out :=
  .next (runMatrix s g noOp noOp (mmaSpec .opSk d.toNat a b))

/-- MMA.RW.SP (10 R218). -/
def execMmaRwSp (g : Guard) (d : BitVec 2) (a : TileName) (b : TileName) (s : State) : Out :=
  .next (runMatrix s g noOp noOp (mmaSpec .rwSp d.toNat a b))

/-! ## Accumulator moves (10 R221 to R224) -/

/-- ACZERO (10 R221). -/
def execAczero (g : Guard) (d : BitVec 2) (s : State) : Out :=
  .next (runMatrix s g noOp noOp fun _ _ _ _ q =>
    some ⟨[], none, none, false, [], none, [], none, fun s' => setAcc s' q d.toNat AccTile.reset⟩)

/-- The accumulator that ACLOAD makes. -/
def loadAcc (s : State) (a : MOp) : AccTile :=
  AccTile.build (if a.isInt then 2 else 1) fun i j =>
    if a.rows ≤ i || a.cols ≤ j then 0
    else if a.isInt then BitVec.ofInt 36 (a.int s i j)
    else BitVec.ofNat 36 (roundTo f36 .rn (a.value s i j))

/-- ACLOAD (10 R222). -/
def execAcload (g : Guard) (d : BitVec 2) (a : BitVec 6) (s : State) : Out :=
  .next (runMatrix s g noOp noOp fun k tm _ s q =>
    match mop s k.team tm (.loc a) with
    | some o =>
      let rs := o.ranges s false
      some ⟨[o], none, none, o.tile.layout ≠ 0 || o.noFormat, [o], none, rs, lateOf s [o],
        fun s' => setAcc s' q d.toNat (loadAcc s o)⟩
    | none => none)

/-- The fault of a raw range of 32,768 bytes (10 R222), or DET_VIOLATION (R215). -/
def rawFault (tm : Team) (x : Nat) (acc : Nat) : Option FaultInfo :=
  if x % 64 ≠ 0 then some { code := 0x09, faddr := BitVec.ofNat 64 x, acc := acc }
  else if tm.scratch < x + 32768 then some { code := 0x08, faddr := BitVec.ofNat 64 x, acc := acc }
  else none

/-- ACLOAD.RAW with the tag it sets. -/
def loadRaw (s : State) (g : Guard) (d : BitVec 2) (a : CSrc) (tag : Nat) : State :=
  runBundle s ⟨g, csrcOp a false, noOp, noOp, []⟩ fun k v s => inTeam s k fun tm =>
    if tm.detMode then .fault { code := 0x0D }
    else
      let x := v.a.toNat % 2 ^ 32
      matrixOp s k tm fun s q =>
        let rs : List MRange := [⟨k.team, tm, x, 32768, false, none⟩]
        some ⟨[], none, none, false, [], rawFault tm x 1, rs,
          if rangesPoisoned s rs then some { code := 0x15, acc := 1 } else none, fun s' => setAcc s' q d.toNat
          (AccTile.build tag fun i j => BitVec.ofNat 36 (s.spNat k.team tm (x + 8 * (64 * i + j)) 8))⟩

/-- ACLOAD.RAW.F (10 R222). -/
def execAcloadRawF (g : Guard) (d : BitVec 2) (a : CSrc) (s : State) : Out := .next (loadRaw s g d a 1)

/-- ACLOAD.RAW.I (10 R222). -/
def execAcloadRawI (g : Guard) (d : BitVec 2) (a : CSrc) (s : State) : Out := .next (loadRaw s g d a 2)

/-- The bytes of a dense row of codes: bits beyond the last element are zero (10 R209). -/
def rowBytes (o : MOp) (cs : List Nat) : List Byte :=
  let fw := o.tile.field o.fmt
  bytesOfNat o.stride ((((List.range cs.length).zip cs).map fun e => e.2 % 2 ^ fw * 2 ^ (e.1 * fw)).sum)

/-- Writes the rows of a dense tile, or of a row-skip tile below its mask. -/
def writeRows (s : State) (o : MOp) (f : Nat → Nat → Nat) : State :=
  (List.range o.rows).foldl (fun s i =>
    s.spWrite o.ref.team o.tm (o.base + (if o.tile.layout = 2 then 64 else 0) + i * o.stride)
      (rowBytes o ((List.range o.cols).map (f i)))) s

/-- The codes and the scale byte of a block of values that ACSTORE writes (10 R223). -/
def storeBlock (o : MOp) (rm : Rm) (sat : Bool) (vs : List Num) : List Nat × Nat :=
  if o.tile.elem ≠ 0 then (vs.map fun v => roundTo (if o.tile.elem = 1 then fp16 else bf16) rm v, 0)
  else if !o.scaled then (vs.map fun v => (encodeFmt o.fmt v rm sat).1, 0)
  else
    let sc := computedScale o.fmt vs
    let xs := vs.map fun v => encodeFmt o.fmt (unscale v sc) rm sat
    (xs.map (·.1), if !sat && xs.any (·.2) then 255 else sc)

/-- The blocks of a row of an accumulator in the format of a tile. -/
def storeRow (o : MOp) (rm : Rm) (sat : Bool) (a : AccTile) (i : Nat) : List (List Nat × Nat) :=
  let n := if o.scaled then o.tile.block o.fmt else o.cols
  (List.range ((o.cols + n - 1) / n)).map fun b =>
    storeBlock o rm sat ((List.range (min n (o.cols - b * n))).map fun j => accNum a.tag (a.get i (b * n + j)))

/-- Writes an accumulator into a dense tile. -/
def storeAcc (s : State) (o : MOp) (rm : Rm) (sat : Bool) (a : AccTile) : State :=
  (List.range o.rows).foldl (fun s i =>
    let bs := storeRow o rm sat a i
    let s1 := s.spWrite o.ref.team o.tm (o.base + i * o.stride) (rowBytes o (bs.flatMap (·.1)))
    if o.scaled then
      s1.spWrite o.ref.team o.tm (o.tile.scbase * 16 + i * o.tile.blocks o.fmt) (bs.map fun b => BitVec.ofNat 8 b.2)
    else s1) s

/-- ACSTORE (10 R223). -/
def execAcstore (g : Guard) (d : BitVec 6) (a : BitVec 2) (rm : Rm) (satm : SatSel) (s : State) : Out :=
  .next (runMatrix s g noOp noOp fun k tm _ s q =>
    match mop s k.team tm (.loc d) with
    | some o =>
      let sat := match satm with
        | .reg => fmtSat o.fmt
        | .sat => true
        | .wrap => false
      some ⟨[], none, some o, o.tile.layout ≠ 0 || o.noFormat, [o], none, o.ranges s true, none,
        fun s' => storeAcc s' o rm sat (accOf s q a.toNat)⟩
    | none => none)

/-- ACSTORE.RAW (10 R223). -/
def execAcstoreRaw (g : Guard) (a : CSrc) (n : BitVec 2) (s : State) : Out :=
  .next (runBundle s ⟨g, csrcOp a false, noOp, noOp, []⟩ fun k v s => inTeam s k fun tm =>
    if tm.detMode then .fault { code := 0x0D }
    else
      let x := v.a.toNat % 2 ^ 32
      matrixOp s k tm fun s q =>
        let acc := accOf s q n.toNat
        some ⟨[], none, none, false, [], rawFault tm x 2, [⟨k.team, tm, x, 32768, true, none⟩], none, fun s' =>
          s'.spWrite k.team tm x acc.raw⟩)

/-- ACGET of a thread: a long-latency producer, served in issue order (10 R214, R224). -/
def getAcc (s : State) (k : ThreadKey) (tm : Team) (d : BitVec 8) (pair : Bool) (i j n : Nat)
    (f : Nat → BitVec 36 → Nat) : LaneOut :=
  let q := quadOf s k
  match enterTrick s k tm q with
  | none => .wait (blockOn s k .matrix)
  | some s0 =>
    match claimMat s0 q k.team with
    | (s1, false) => .wait (blockOn s1 k .matrix)
    | (s1, true) =>
      if 64 ≤ i || 64 ≤ j then .faultIn s1 { code := 0x1C }
      else
        let a := accOf s1 q n
        .done (produce s1 k d pair (.value (BitVec.ofNat 64 (f a.tag (a.get i j)))))

/-- The FP32 or INT32 value of an element (10 R224). -/
def acgetValue (tag : Nat) (v : BitVec 36) : Nat :=
  match tag with
  | 0 => 0
  | 1 => roundTo fp32 .rn (unpack f36 v.toNat)
  | _ => (BitVec.ofInt 32 (max (-(2 ^ 31)) (min (2 ^ 31 - 1) v.toInt))).toNat

/-- ACGET (10 R224). -/
def execAcget (g : Guard) (d : BitVec 8) (a : Src) (b : Src) (n : BitVec 2) (s : State) : Out :=
  .next (runLanes s ⟨g, srcOp a false, srcOp b false, noOp, [(d, false)]⟩ fun k v s => inTeam s k fun tm =>
    getAcc s k tm d false (v.a.toNat % 2 ^ 32) (v.b.toNat % 2 ^ 32) n.toNat acgetValue)

/-- ACGET.RAW (10 R224). -/
def execAcgetRaw (g : Guard) (d : BitVec 8) (a : Src) (b : Src) (n : BitVec 2) (s : State) : Out :=
  .next (runLanes s ⟨g, srcOp a false, srcOp b false, noOp, [(d, true)]⟩ fun k v s => inTeam s k fun tm =>
    getAcc s k tm d true (v.a.toNat % 2 ^ 32) (v.b.toNat % 2 ^ 32) n.toNat fun tag x => tag * 2 ^ 40 + x.toNat)

/-! ## DELTA, SPCOMP and TXPOSE (10 R225 to R227) -/

/-- Two tiles of one shape. -/
def sameShape (x y : MOp) : Bool := x.tile.nrow = y.tile.nrow && x.tile.ncol = y.tile.ncol
/-- Two tiles of one element type, and of one format register when narrow. -/
def sameElem (x y : MOp) : Bool := x.tile.elem = y.tile.elem && (x.tile.elem ≠ 0 || x.tile.fmt = y.tile.fmt)

/-- What raises MATRIX_SHAPE in DELTA. -/
def deltaShape (a b d : MOp) : Bool :=
  !sameShape a b || !sameElem a b || a.tile.layout ≠ 0 || b.tile.layout ≠ 0 || !sameShape a d || d.tile.layout ≠ 2 ||
    a.scaled || b.scaled || d.scaled || a.noFormat || b.noFormat || d.noFormat ||
    a.ref = b.ref || a.ref = d.ref || b.ref = d.ref

/-- Whether the magnitude of a difference is above the threshold; neither is NaN. -/
def aboveTheta (d t : Num) : Bool :=
  let mag := match d with
    | .fin _ m e => Num.fin false m e
    | .inf _ => .inf false
    | .nan => .nan
  !d.isNan && !t.isNan && mag.cmp t = .gt

/-- The code of a difference in the destination's format. -/
def encDelta (o : MOp) (x : Num) : Nat :=
  match o.tile.elem with
  | 0 => (encodeFmt o.fmt x .rn true).1
  | 1 => roundTo fp16 .rn x
  | _ => roundTo bf16 .rn x

/-- The effect of DELTA. -/
def runDelta (s s' : State) (a b d : MOp) (theta : Num) : State :=
  let diff := fun (i j : Nat) => (a.value s i j).add .rn (b.value s i j).neg
  let moves := fun (i j : Nat) => aboveTheta (diff i j) theta
  let dcode := fun (i j : Nat) => if moves i j then encDelta d (diff i j) else 0
  let live := (List.range d.rows).foldl (fun m i =>
    if (List.range d.cols).any fun j => !isPlusZero (d.decode (d.mask (dcode i j))) then m + 2 ^ i else m) 0
  let s1 := writeRows s' b fun i j => if moves i j then a.dense s i j else b.dense s i j
  let s2 := s1.spWrite d.ref.team d.tm d.base (bytesOfNat 64 live)
  writeRows s2 d dcode

/-- DELTA (10 R225). -/
def execDelta (g : Guard) (d : BitVec 6) (a : BitVec 6) (b : BitVec 6) (c : CSrc) (s : State) : Out :=
  .next (runMatrix s g noOp (csrcOp c false) fun k tm v s _ =>
    match mop s k.team tm (.loc a), mop s k.team tm (.loc b), mop s k.team tm (.loc d) with
    | some x, some y, some z =>
      let rs := x.ranges s false ++ y.ranges s true ++ z.ranges s true
      some ⟨[x], some y, some z, deltaShape x y z, [x, y, z], none, rs, lateOf s [x, y],
        fun s' => runDelta s s' x y z (unpack fp32 (v.c.toNat % 2 ^ 32))⟩
    | _, _, _ => none)

/-- The elements that SPCOMP keeps of row i: their columns and codes. -/
def keptOf (s : State) (a : MOp) (i : Nat) : List (Nat × Nat) :=
  (List.range a.cols).filterMap fun j => if isPlusZero (a.value s i j) then none else some (j, a.dense s i j)

/-- The data of the sparse-rows tile that stands for a dense one. -/
def sparseBytes (s : State) (a : MOp) : List Byte := sparseData ((List.range a.rows).map (keptOf s a))

/-- The fault of an SPCOMP after issue. -/
def spcompLate (s : State) (a d : MOp) : Option FaultInfo :=
  match a.late s with
  | some f => some f
  | none =>
    if d.tm.scratch < d.base + (sparseBytes s a).length ||
        (d.scaled && d.tm.scratch < d.tile.scbase * 16 + d.tile.sideLen d.fmt) then
      some { code := 0x08, faddr := BitVec.ofNat 64 d.base, acc := 2 }
    else none

/-- SPCOMP (10 R226). -/
def execSpcomp (g : Guard) (d : BitVec 6) (a : BitVec 6) (s : State) : Out :=
  .next (runMatrix s g noOp noOp fun k tm _ s _ =>
    match mop s k.team tm (.loc a), mop s k.team tm (.loc d) with
    | some x, some z =>
      let src := x.ranges s false
      let bs := sparseBytes s x
      let dst : List MRange := ⟨z.ref.team, z.tm, z.base, bs.length, true, some z.ref.entry⟩ ::
        (if z.scaled then [⟨z.ref.team, z.tm, z.tile.scbase * 16, z.tile.sideLen z.fmt, true, some z.ref.entry⟩] else [])
      let bad := x.tile.layout ≠ 0 || z.tile.layout ≠ 1 || !sameShape x z || !sameElem x z || x.noFormat || z.noFormat
      some ⟨[x], none, some z, bad, [x], none, src ++ dst, spcompLate s x z, fun s' =>
        let s1 := s'.spWrite z.ref.team z.tm z.base bs
        if z.scaled then
          s1.spWrite z.ref.team z.tm (z.tile.scbase * 16)
            (s.spBytes x.ref.team x.tm (x.tile.scbase * 16) (x.tile.sideLen x.fmt))
        else s1⟩
    | _, _ => none)

/-- TXPOSE (10 R227). -/
def execTxpose (g : Guard) (d : BitVec 6) (a : BitVec 6) (s : State) : Out :=
  .next (runMatrix s g noOp noOp fun k tm _ s _ =>
    match mop s k.team tm (.loc a), mop s k.team tm (.loc d) with
    | some x, some z =>
      let src := x.ranges s false
      let bad := x.tile.layout ≠ 0 || z.tile.layout ≠ 0 || z.tile.nrow ≠ x.tile.ncol || z.tile.ncol ≠ x.tile.nrow ||
        !sameElem x z || x.noFormat || z.noFormat || x.scaled || z.scaled
      some ⟨[x], none, some z, bad, [x, z], none, src ++ z.ranges s true, lateOf s [x],
        fun s' => writeRows s' z fun i j => x.dense s j i⟩
    | _, _ => none)

end Sys2Proof.Machine
end

