-- ==== Sys2Proof/Machine/RowOps.lean ====
section
/-! DEFINITION. The row operations of a near-bank unit (12 R261 to R266). -/

namespace Sys2Proof.Machine

/-- A row accumulator, or the image of a row. -/
abbrev RowVec := BitVec 8192

/-! ## Elements (12 R251, R262) -/

/-- The 32-bit elements of a row accumulator, in ascending order. -/
def rowWords (v : RowVec) : List Nat := (List.range 256).map fun e => bits v.toNat (32 * e + 31) (32 * e)
/-- The 16-bit elements. -/
def rowHalves (v : RowVec) : List Nat := (List.range 512).map fun e => bits v.toNat (16 * e + 15) (16 * e)
/-- A row accumulator of elements of w bits. -/
def rowOf (w : Nat) (es : List Nat) : RowVec := BitVec.ofNat 8192 (es.foldr (fun e a => e % 2 ^ w + 2 ^ w * a) 0)

/-- Applies an operation to each element apart: FP32 or BF16 codes by a format, INT32 words. -/
def eachElem (t : ElemT) (fp : FpFmt → Nat → Nat → Nat → Nat) (int : Word → Word → Word → Word) (x y z : RowVec) : RowVec :=
  let zip3 := fun (as bs cs : List Nat) (f : Nat → Nat → Nat → Nat) => (as.zip (bs.zip cs)).map fun e => f e.1 e.2.1 e.2.2
  let i32 := fun (a b c : Nat) => (int (BitVec.ofNat 32 a) (BitVec.ofNat 32 b) (BitVec.ofNat 32 c)).toNat
  match t with
  | .f32 => rowOf 32 (zip3 (rowWords x) (rowWords y) (rowWords z) (fp fp32))
  | .i32 => rowOf 32 (zip3 (rowWords x) (rowWords y) (rowWords z) i32)
  | .bf => rowOf 16 (zip3 (rowHalves x) (rowHalves y) (rowHalves z) (fp bf16))

/-- The smaller and the larger word as signed numbers. -/
def minWord (x y : Word) : Word := if x.toInt ≤ y.toInt then x else y
def maxWord (x y : Word) : Word := if y.toInt ≤ x.toInt then x else y

/-- acc + x for each element in ascending order (12 R264). -/
def rowSum (t : ElemT) (acc : Nat) (x : RowVec) : Nat :=
  match t with
  | .f32 => (rowWords x).foldl (fun a e => fpAdd fp32 .rn a e) acc
  | .i32 => (rowWords x).foldl (fun a e => (a + e) % 2 ^ 32) acc
  | .bf => (rowHalves x).foldl (fun a e => fpAdd fp32 .rn a (roundTo fp32 .rn (unpack bf16 e))) acc

/-- The FCMP code of a comparison. -/
def NCond.fp : NCond → FCond
  | .eq => .eq
  | .ne => .ne
  | .lt => .lt
  | .le => .le
  | .gt => .gt
  | .ge => .ge

/-- The signed comparison of words. -/
def NCond.int : NCond → ICond
  | .eq => .eq
  | .ne => .ne
  | .lt => .slt
  | .le => .sle
  | .gt => .sgt
  | .ge => .sge

/-- NCMP: all ones in each element for which the comparison holds. -/
def rowCmp (t : ElemT) (cc : NCond) (x y : RowVec) : RowVec :=
  let ones := fun (w : Nat) (b : Bool) => if b then 2 ^ w - 1 else 0
  match t with
  | .f32 => rowOf 32 (((rowWords x).zip (rowWords y)).map fun e => ones 32 (fcmp (NCond.fp cc) e.1 e.2))
  | .i32 => rowOf 32 (((rowWords x).zip (rowWords y)).map fun e =>
      ones 32 (icmp (NCond.int cc) 32 (BitVec.ofNat 32 e.1) (BitVec.ofNat 32 e.2)))
  | .bf => rowOf 16 (((rowHalves x).zip (rowHalves y)).map fun e =>
      ones 16 (fcmp (NCond.fp cc) (e.1 * 65536) (e.2 * 65536)))

/-- NCVT. -/
def rowCvt (kind : NCvt) (rm : Rm) (x : RowVec) : RowVec :=
  match kind with
  | .f2i => rowOf 32 ((rowWords x).map fun e => (fpToInt rm false e).toNat)
  | .i2f => rowOf 32 ((rowWords x).map fun e => intToFp rm false (BitVec.ofNat 32 e))
  | .toBf => rowOf 16 ((rowWords x).map fun e => roundTo bf16 rm (unpack fp32 e))
  | .fromBf => rowOf 32 (((rowHalves x).take 256).map fun e => roundTo fp32 .rn (unpack bf16 e))

/-! ## Performing a row operation -/

/-- What a row operation comes to. -/
inductive RowOut where
  /-- Performed: the unit goes on to the next operation. -/
  | done (s : State)
  /-- Performed, and the counter stands where the state says. -/
  | left (s : State)
  /-- Its condition is not met. -/
  | wait (s : State)
  | stop (code : Nat)
  /-- The row holds an uncorrectable error (12 R272). -/
  | poison (s : State)

/-- The unit in focus performs a row operation: p its pseudo-channel, n and r its run, u its state. -/
def runRow (s : State) (body : Nat → Nat → NbRun → Pch → State → RowOut) : Out :=
  match s.focus with
  | .unit p =>
    let s0 := { s with focus := .none }
    match activeRun s p with
    | some (n, r, _) =>
      if !unitReady s p then .next s0
      else
        let over_ := fun (s : State) (k : Nat) => s.modPch p fun u => { u with pc := u.pc + k, fresh := false }
        match body p n r (s.pch p) s0 with
        | .done s1 => .next (over_ s1 1)
        | .left s1 => .next (over_ s1 0)
        | .wait s1 => .next s1
        | .stop code => .next (stopUnit s0 p code)
        | .poison s1 => .next (stopUnit s1 p 0x15)
    | none => .next s0
  | _ => .next { s with focus := .none }

/-- A row accumulator. -/
def Pch.reg (u : Pch) (i : BitVec 3) : RowVec := u.n.getD i.toNat 0

/-- Writes a row accumulator. -/
def setRow (s : State) (p : Nat) (d : BitVec 3) (v : RowVec) : State := s.modPch p fun u => { u with n := u.n.set d.toNat v }

/-- nD := f(nA, nB, nD). -/
def rowAlu (s : State) (d a b : BitVec 3) (f : RowVec → RowVec → RowVec → RowVec) : Out :=
  runRow s fun p _ _ u s => .done (setRow s p d (f (u.reg a) (u.reg b) (u.reg d)))

/-- The bytes of a row accumulator. -/
def nBytes (v : RowVec) : List Byte := bytesOfNat 1024 v.toNat

/-- The slots of a mask. -/
def maskSlots (m : Nat) : List Nat := (List.range 32).filter fun i => bit m i

/-- The device physical address of the unit's row of a stream; none: the stream cannot be used here (12 R263, R271). -/
def rowDpa (s : State) (n p : Nat) (r : NbRun) (k : Nat) : Option Nat :=
  match (aget n s.runs).bind (·.unit p) with
  | none => none
  | some x =>
    match r.bag with
    | some b => if k = 0 then (aget b s.bags).bind fun bg => x.bagRow.map fun w => bg.dpa s (bg.locOf w) else none
    | none => x.cur.bind fun w => (w.locs.getD k none)

/-- A remote row is reached through its controller by one request for the whole KiB (12 R259). -/
def askRow (s : State) (p n : Nat) (r : NbRun) (k dpa : Nat) (wr : Option (List Byte)) : State :=
  let i := (((aget n s.runs).bind (·.unit p)).bind (·.cur)).elim 0 (·.i)
  let q : Req := ⟨s.nextId, dpa, 1024, wr, dirtyOf s r.func (locOf dpa), s.cycle, (r.func, r.dom.wcb), none, r.rowVa k i, none, []⟩
  let s1 := { s with nextId := s.nextId + 1 }
  (s1.modPch (pchOf dpa) fun u => { u with reqs := u.reqs ++ [q] }).modPch p fun u => { u with wait := some q.id }

/-- Takes the reply for a remote row. -/
def rowReply (s : State) (p id : Nat) (f : List Byte → State → State) : RowOut :=
  match aget id s.answers with
  | none => .wait s
  | some a =>
    match a.fault with
    | some _ => .poison (dropAnswers s [id])
    | none => .done (f a.data ((dropAnswers s [id]).modPch p fun u => { u with wait := none }))

/-- The bytes that an NLOAD of an iteration gives: zeros outside the slots of M (12 R271). -/
def maskLoad (bs : List Byte) (m rsize : Nat) : List Byte :=
  ((List.range bs.length).zip bs).map fun e => if bit m (e.1 / rsize) then e.2 else 0

/-- NLOAD (12 R263, R271). -/
def execNload (d : BitVec 3) (k : BitVec 2) (s : State) : Out :=
  runRow s fun p n r u s =>
    let put := fun (bs : List Byte) (s : State) => setRow s p d (BitVec.ofNat 8192 (natOfBytes bs))
    match u.wait with
    | some id => rowReply s p id put
    | none =>
      match rowDpa s n p r k.toNat with
      | none => .stop 0x1D
      | some d =>
        if r.bag.isNone && pchOf d ≠ p then .wait (askRow s p n r k.toNat d none)
        else if dramPoisoned s (locOf d) 1024 then .poison (notePoisonAt s r.func (locOf d) 1024)
        else
          let bs := dramRead s d 1024
          .done (put (if r.bag.isSome then maskLoad bs u.m r.rsize else bs) s)

/-- Writes the slots of M, but never a key (12 R271). -/
def maskStore (s : State) (dpa m rsize : Nat) (dirty : Option Nat) (bs : List Byte) : State :=
  (maskSlots m).foldl (fun s i =>
    placeWrite s (.dram (dpa + i * rsize + 4) dirty) ((bs.drop (i * rsize + 4)).take (rsize - 4))) s

/-- NSTORE (12 R263, R271). -/
def execNstore (a : BitVec 3) (k : BitVec 2) (s : State) : Out :=
  runRow s fun p n r u s =>
    let bs := nBytes (u.reg a)
    match u.wait with
    | some id => rowReply s p id fun _ s => s
    | none =>
      match rowDpa s n p r k.toNat with
      | none => .stop 0x1D
      | some d =>
        let dirty := dirtyOf s r.func (locOf d)
        if r.bag.isSome then .done (maskStore s d u.m r.rsize dirty bs)
        else if pchOf d ≠ p then .wait (askRow s p n r k.toNat d (some bs))
        else .done (placeWrite s (.dram d dirty) bs)

/-- NSET with a parameter (12 R263). -/
def execNset (d : BitVec 3) (k : BitVec 3) (s : State) : Out :=
  runRow s fun p _ r _ s => .done (setRow s p d (rowOf 32 (List.replicate 256 (r.param k.toNat).toNat)))

/-- NSET with an immediate (12 R263). -/
def execNsetImm (d : BitVec 3) (imm : BitVec 16) (s : State) : Out :=
  runRow s fun p _ _ _ s => .done (setRow s p d (rowOf 32 (List.replicate 256 (imm.signExtend 32).toNat)))

/-- NADD (12 R262). -/
def execNadd (d : BitVec 3) (a : BitVec 3) (b : BitVec 3) (t : ElemT) (s : State) : Out :=
  rowAlu s d a b (eachElem t (fun f x y _ => fpAdd f .rn x y) fun x y _ => x + y)

/-- NSUB (12 R262). -/
def execNsub (d : BitVec 3) (a : BitVec 3) (b : BitVec 3) (t : ElemT) (s : State) : Out :=
  rowAlu s d a b (eachElem t (fun f x y _ => fpSub f .rn x y) fun x y _ => x - y)

/-- NMUL (12 R262). -/
def execNmul (d : BitVec 3) (a : BitVec 3) (b : BitVec 3) (t : ElemT) (s : State) : Out :=
  rowAlu s d a b (eachElem t (fun f x y _ => fpMul f .rn x y) fun x y _ => x * y)

/-- NFMA (12 R262): one rounding. -/
def execNfma (d : BitVec 3) (a : BitVec 3) (b : BitVec 3) (t : ElemT) (s : State) : Out :=
  rowAlu s d a b (eachElem t (fun f x y z => fpFma f .rn x y z) fun x y z => x * y + z)

/-- NMAX (12 R262). -/
def execNmax (d : BitVec 3) (a : BitVec 3) (b : BitVec 3) (t : ElemT) (s : State) : Out :=
  rowAlu s d a b (eachElem t (fun f x y _ => fpMax f x y) fun x y _ => maxWord x y)

/-- NMIN (12 R262). -/
def execNmin (d : BitVec 3) (a : BitVec 3) (b : BitVec 3) (t : ElemT) (s : State) : Out :=
  rowAlu s d a b (eachElem t (fun f x y _ => fpMin f x y) fun x y _ => minWord x y)

/-- NSUM (12 R264): word 0 of nD, and words 1 to 255 stay. -/
def execNsum (d : BitVec 3) (a : BitVec 3) (t : ElemT) (s : State) : Out :=
  rowAlu s d a a fun x _ z =>
    rowOf 32 (rowSum t (bits z.toNat 31 0) x :: (rowWords z).drop 1)

/-- NCMP (12 R264). -/
def execNcmp (d : BitVec 3) (a : BitVec 3) (b : BitVec 3) (t : ElemT) (cc : NCond) (s : State) : Out :=
  rowAlu s d a b fun x y _ => rowCmp t cc x y

/-- NSEL (12 R264): bit by bit. -/
def execNsel (d : BitVec 3) (a : BitVec 3) (b : BitVec 3) (s : State) : Out :=
  rowAlu s d a b fun x y z => (z &&& x) ||| (~~~ z &&& y)

/-- NCVT (12 R264). -/
def execNcvt (d : BitVec 3) (a : BitVec 3) (kind : NCvt) (rm : Rm) (s : State) : Out :=
  rowAlu s d a a fun x _ _ => rowCvt kind rm x

/-! ## Records (12 R265) -/

/-- The key of slot j. -/
def rowKey (v : RowVec) (rsize j : Nat) : Nat := bits v.toNat (8 * rsize * j + 31) (8 * rsize * j)

/-- NKEY (12 R265). -/
def execNkey (a : BitVec 3) (lo : BitVec 3) (hi : BitVec 3) (inv : Bool) (s : State) : Out :=
  runRow s fun p _ r u s =>
    if r.rsize = 0 then .stop 0x1D
    else
      let keep := fun (j : Nat) =>
        let key := rowKey (u.reg a) r.rsize j
        decide ((r.param lo.toNat).toNat ≤ key ∧ key ≤ (r.param hi.toNat).toNat) != inv
      .done (s.modPch p fun u => { u with m := ((maskSlots u.m).filter keep).foldl (fun m i => m + 2 ^ i) 0 })

/-- NEMIT (12 R265): one put for each bit of M, in ascending slot order. -/
def execNemit (a : BitVec 3) (k : BitVec 3) (s : State) : Out :=
  runRow s fun p n r u s =>
    if r.rsize = 0 then .stop 0x1D
    else
      let h := r.param k.toNat
      match liveBag s r.func h with
      | none => .stop 0x19
      | some (_, bg) =>
        if bg.rsize ≠ r.rsize then .stop 0x19
        else
          let bs := nBytes (u.reg a)
          let slots := maskSlots u.m
          let reqs : List BagReq := ((List.range slots.length).zip slots).map fun e =>
            ⟨s.nextId + e.1, h, r.func, r.thread, r.iaddr, 0, .emit n p ((bs.drop (e.2 * r.rsize)).take r.rsize), none⟩
          let s1 := { s with bagReqs := s.bagReqs ++ reqs, nextId := s.nextId + slots.length }
          .done (modUnit s1 n p fun x => { x with emits := x.emits + slots.length })

/-! ## Control (12 R266) -/

/-- Whether a jump target lies beyond the program (12 R261). -/
def badTarget (u : Pch) (t : BitVec 8) : Bool := u.store.length ≤ t.toNat

/-- NNEXT (12 R266): the row is completed; a next row starts at the target. -/
def execNnext (target : BitVec 8) (s : State) : Out :=
  runRow s fun p n _ u s =>
    if badTarget u target then .stop 0x1D
    else .left (rowsOver (s.modPch p fun u => { u with pc := target.toNat }) n p 1 0)

/-- NLOOP (12 R266). -/
def execNloop (k : BitVec 2) (target : BitVec 8) (s : State) : Out :=
  runRow s fun p _ r u s =>
    if badTarget u target then .stop 0x1D
    else
      let c := u.l.getD k.toNat 0
      if c ≠ 0 then .left (s.modPch p fun u => { u with l := u.l.set k.toNat (c - 1), pc := target.toNat })
      else .done (s.modPch p fun u => { u with l := u.l.set k.toNat (r.linit.getD k.toNat 0) })

/-- NJMP (12 R266). -/
def execNjmp (m0 : Bool) (target : BitVec 8) (s : State) : Out :=
  runRow s fun p _ _ u s =>
    if badTarget u target then .stop 0x1D
    else if !m0 || u.m = 0 then .left (s.modPch p fun u => { u with pc := target.toNat })
    else .done s

/-- NHALT (12 R266): the row is completed, and the rows not started are skipped. -/
def execNhalt (s : State) : Out :=
  runRow s fun p n _ _ s =>
    let left_ := match (aget n s.runs).bind (·.unit p) with
      | some x => x.rows.length
      | none => 0
    .done (rowsOver (modUnit s n p fun x => { x with rows := [], noMore := true }) n p 1 left_)

/-- NSYNC (12 R266). -/
def execNsync (s : State) : Out :=
  runRow s fun p n _ _ s =>
    match (aget n s.runs).bind (·.unit p) with
    | some x => if x.emits = 0 then .done s else .wait s
    | none => .done s

end Sys2Proof.Machine
end

