-- ==== Sys2Proof/Machine/Dispatch.lean ====
section
/-! DEFINITION. One arm per instruction, row operation and step: a direct call of its meaning. -/

namespace Sys2Proof.Machine

/-- The meaning of an instruction. -/
def exec (i : Instr) (s : State) : Host.Outcome State Fault Refusal :=
  match i with
  | .nop g => Sys2Proof.Machine.execNop g s
  | .bra g tslot disp => Sys2Proof.Machine.execBra g tslot disp s
  | .brpAny g a tslot disp => Sys2Proof.Machine.execBrpAny g a tslot disp s
  | .brpAll g a tslot disp => Sys2Proof.Machine.execBrpAll g a tslot disp s
  | .brpNone g a tslot disp => Sys2Proof.Machine.execBrpNone g a tslot disp s
  | .jmp g a => Sys2Proof.Machine.execJmp g a s
  | .call g tslot disp => Sys2Proof.Machine.execCall g tslot disp s
  | .callr g a => Sys2Proof.Machine.execCallr g a s
  | .ret g => Sys2Proof.Machine.execRet g s
  | .jtab g a b off => Sys2Proof.Machine.execJtab g a b off s
  | .joinImm g imm => Sys2Proof.Machine.execJoinImm g imm s
  | .joinReg g w a => Sys2Proof.Machine.execJoinReg g w a s
  | .exit g => Sys2Proof.Machine.execExit g s
  | .yield g => Sys2Proof.Machine.execYield g s
  | .waitf g w a b c => Sys2Proof.Machine.execWaitf g w a b c s
  | .brk g imm => Sys2Proof.Machine.execBrk g imm s
  | .trap g imm => Sys2Proof.Machine.execTrap g imm s
  | .add g w d a b => Sys2Proof.Machine.execAdd g w d a b s
  | .addi g w d a imm => Sys2Proof.Machine.execAddi g w d a imm s
  | .sub g w d a b => Sys2Proof.Machine.execSub g w d a b s
  | .mul g w d a b => Sys2Proof.Machine.execMul g w d a b s
  | .mulhi g w d a b => Sys2Proof.Machine.execMulhi g w d a b s
  | .mulhs g w d a b => Sys2Proof.Machine.execMulhs g w d a b s
  | .mad g w d a b c => Sys2Proof.Machine.execMad g w d a b c s
  | .div g d a b => Sys2Proof.Machine.execDiv g d a b s
  | .divs g d a b => Sys2Proof.Machine.execDivs g d a b s
  | .rem g d a b => Sys2Proof.Machine.execRem g d a b s
  | .rems g d a b => Sys2Proof.Machine.execRems g d a b s
  | .min g w d a b => Sys2Proof.Machine.execMin g w d a b s
  | .max g w d a b => Sys2Proof.Machine.execMax g w d a b s
  | .mins g w d a b => Sys2Proof.Machine.execMins g w d a b s
  | .maxs g w d a b => Sys2Proof.Machine.execMaxs g w d a b s
  | .abs g w d a => Sys2Proof.Machine.execAbs g w d a s
  | .neg g w d a => Sys2Proof.Machine.execNeg g w d a s
  | .and g w d a b => Sys2Proof.Machine.execAnd g w d a b s
  | .or g w d a b => Sys2Proof.Machine.execOr g w d a b s
  | .xor g w d a b => Sys2Proof.Machine.execXor g w d a b s
  | .andn g w d a b => Sys2Proof.Machine.execAndn g w d a b s
  | .not g w d a => Sys2Proof.Machine.execNot g w d a s
  | .shl g w d a b => Sys2Proof.Machine.execShl g w d a b s
  | .shr g w d a b => Sys2Proof.Machine.execShr g w d a b s
  | .sar g w d a b => Sys2Proof.Machine.execSar g w d a b s
  | .rot g w d a b => Sys2Proof.Machine.execRot g w d a b s
  | .clz g w d a => Sys2Proof.Machine.execClz g w d a s
  | .popc g w d a => Sys2Proof.Machine.execPopc g w d a s
  | .brev g w d a => Sys2Proof.Machine.execBrev g w d a s
  | .bfx g w d a b => Sys2Proof.Machine.execBfx g w d a b s
  | .bfxs g w d a b => Sys2Proof.Machine.execBfxs g w d a b s
  | .bfi g w d a b c => Sys2Proof.Machine.execBfi g w d a b c s
  | .sel g w d a b c => Sys2Proof.Machine.execSel g w d a b c s
  | .mov g w d a => Sys2Proof.Machine.execMov g w d a s
  | .movK g w d a => Sys2Proof.Machine.execMovK g w d a s
  | .movi g w d imm => Sys2Proof.Machine.execMovi g w d imm s
  | .lea g w d a b sh => Sys2Proof.Machine.execLea g w d a b sh s
  | .icmp g w d a b cc => Sys2Proof.Machine.execIcmp g w d a b cc s
  | .pand g d a b => Sys2Proof.Machine.execPand g d a b s
  | .por g d a b => Sys2Proof.Machine.execPor g d a b s
  | .pxor g d a b => Sys2Proof.Machine.execPxor g d a b s
  | .pnot g d a => Sys2Proof.Machine.execPnot g d a s
  | .pmov g d a => Sys2Proof.Machine.execPmov g d a s
  | .pmovImm g d imm => Sys2Proof.Machine.execPmovImm g d imm s
  | .fadd g d a b rm => Sys2Proof.Machine.execFadd g d a b rm s
  | .fsub g d a b rm => Sys2Proof.Machine.execFsub g d a b rm s
  | .fmul g d a b rm => Sys2Proof.Machine.execFmul g d a b rm s
  | .ffma g d a b c rm => Sys2Proof.Machine.execFfma g d a b c rm s
  | .fmin g d a b => Sys2Proof.Machine.execFmin g d a b s
  | .fmax g d a b => Sys2Proof.Machine.execFmax g d a b s
  | .fabs g d a => Sys2Proof.Machine.execFabs g d a s
  | .fneg g d a => Sys2Proof.Machine.execFneg g d a s
  | .fcmp g d a b cc => Sys2Proof.Machine.execFcmp g d a b cc s
  | .fdiv g d a b rm => Sys2Proof.Machine.execFdiv g d a b rm s
  | .frcp g d a rm => Sys2Proof.Machine.execFrcp g d a rm s
  | .frsq g d a => Sys2Proof.Machine.execFrsq g d a s
  | .fsqrt g d a rm => Sys2Proof.Machine.execFsqrt g d a rm s
  | .fexp2 g d a => Sys2Proof.Machine.execFexp2 g d a s
  | .flog2 g d a => Sys2Proof.Machine.execFlog2 g d a s
  | .fsin g d a => Sys2Proof.Machine.execFsin g d a s
  | .fcos g d a => Sys2Proof.Machine.execFcos g d a s
  | .ftanh g d a => Sys2Proof.Machine.execFtanh g d a s
  | .frnd g d a rm => Sys2Proof.Machine.execFrnd g d a rm s
  | .fclass g d a => Sys2Proof.Machine.execFclass g d a s
  | .f2i g d a rm u => Sys2Proof.Machine.execF2i g d a rm u s
  | .i2f g d a rm u => Sys2Proof.Machine.execI2f g d a rm u s
  | .hadd2 g d a b rm bf => Sys2Proof.Machine.execHadd2 g d a b rm bf s
  | .hmul2 g d a b rm bf => Sys2Proof.Machine.execHmul2 g d a b rm bf s
  | .hfma2 g d a b c rm bf => Sys2Proof.Machine.execHfma2 g d a b c rm bf s
  | .fdot4 g d a b c rm f => Sys2Proof.Machine.execFdot4 g d a b c rm f s
  | .cvtN g d a b c rm satm f slot => Sys2Proof.Machine.execCvtN g d a b c rm satm f slot s
  | .cvtW g d a b rm f slot => Sys2Proof.Machine.execCvtW g d a b rm f slot s
  | .cvtB g d a b rm bf => Sys2Proof.Machine.execCvtB g d a b rm bf s
  | .cvtBW g d a bf half => Sys2Proof.Machine.execCvtBW g d a bf half s
  | .fmtset g d a => Sys2Proof.Machine.execFmtset g d a s
  | .fmtsetImm g d imm => Sys2Proof.Machine.execFmtsetImm g d imm s
  | .fmtget g d a => Sys2Proof.Machine.execFmtget g d a s
  | .lanel g w d a => Sys2Proof.Machine.execLanel g w d a s
  | .laner g w d a => Sys2Proof.Machine.execLaner g w d a s
  | .xlget g w d a b => Sys2Proof.Machine.execXlget g w d a b s
  | .xlput g w d a b => Sys2Proof.Machine.execXlput g w d a b s
  | .xlred g w d a op => Sys2Proof.Machine.execXlred g w d a op s
  | .xlredKey g w d a b op => Sys2Proof.Machine.execXlredKey g w d a b op s
  | .xlscan g w d a op ex => Sys2Proof.Machine.execXlscan g w d a op ex s
  | .xlvoteAny g d a => Sys2Proof.Machine.execXlvoteAny g d a s
  | .xlvoteAll g d a => Sys2Proof.Machine.execXlvoteAll g d a s
  | .xlvoteBallot g w d a => Sys2Proof.Machine.execXlvoteBallot g w d a s
  | .xlvoteCount g d a => Sys2Proof.Machine.execXlvoteCount g d a s
  | .xlbcast g w d a lane => Sys2Proof.Machine.execXlbcast g w d a lane s
  | .xlbcastLow g w d a => Sys2Proof.Machine.execXlbcastLow g w d a s
  | .ld g d a sz sgn acq off space => Sys2Proof.Machine.execLd g d a sz sgn acq off space s
  | .st g a b sz rel off space => Sys2Proof.Machine.execSt g a b sz rel off space s
  | .satom g w d a b op off => Sys2Proof.Machine.execSatom g w d a b op off s
  | .tset g d a b lay el rows cols f => Sys2Proof.Machine.execTset g d a b lay el rows cols f s
  | .tgetE g w d t => Sys2Proof.Machine.execTgetE g w d t s
  | .tget g w d a t => Sys2Proof.Machine.execTget g w d a t s
  | .tready g d => Sys2Proof.Machine.execTready g d s
  | .trel g d => Sys2Proof.Machine.execTrel g d s
  | .bbinit g a b c off => Sys2Proof.Machine.execBbinit g a b c off s
  | .bbinitImm g a off bytes arrivals => Sys2Proof.Machine.execBbinitImm g a off bytes arrivals s
  | .bbarr g a off => Sys2Proof.Machine.execBbarr g a off s
  | .bbwait g a off => Sys2Proof.Machine.execBbwait g a off s
  | .tbar g => Sys2Proof.Machine.execTbar g s
  | .lbar g => Sys2Proof.Machine.execLbar g s
  | .cld g d a sz sgn acq off => Sys2Proof.Machine.execCld g d a sz sgn acq off s
  | .cst g a b sz rel off => Sys2Proof.Machine.execCst g a b sz rel off s
  | .catom g w d a b op ord off => Sys2Proof.Machine.execCatom g w d a b op ord off s
  | .cred g w a b op off => Sys2Proof.Machine.execCred g w a b op off s
  | .caxpy g d a b ty off => Sys2Proof.Machine.execCaxpy g d a b ty off s
  | .confl g w d a c e => Sys2Proof.Machine.execConfl g w d a c e s
  | .fence g sc => Sys2Proof.Machine.execFence g sc s
  | .fenceAcq g sc => Sys2Proof.Machine.execFenceAcq g sc s
  | .fenceRel g sc => Sys2Proof.Machine.execFenceRel g sc s
  | .fenceEng g => Sys2Proof.Machine.execFenceEng g s
  | .kick g d a off => Sys2Proof.Machine.execKick g d a off s
  | .chwait g d ch => Sys2Proof.Machine.execChwait g d ch s
  | .chstat g d ch => Sys2Proof.Machine.execChstat g d ch s
  | .chstop g ch => Sys2Proof.Machine.execChstop g ch s
  | .chstopFreeze g ch => Sys2Proof.Machine.execChstopFreeze g ch s
  | .chstopThaw g ch => Sys2Proof.Machine.execChstopThaw g ch s
  | .wbind g a off => Sys2Proof.Machine.execWbind g a off s
  | .wunbind g n => Sys2Proof.Machine.execWunbind g n s
  | .wstat g d n => Sys2Proof.Machine.execWstat g d n s
  | .mmaIp g d a b => Sys2Proof.Machine.execMmaIp g d a b s
  | .mmaOp g d a b => Sys2Proof.Machine.execMmaOp g d a b s
  | .mmaRw g d a b => Sys2Proof.Machine.execMmaRw g d a b s
  | .mmaOpSk g d a b => Sys2Proof.Machine.execMmaOpSk g d a b s
  | .mmaRwSp g d a b => Sys2Proof.Machine.execMmaRwSp g d a b s
  | .aczero g d => Sys2Proof.Machine.execAczero g d s
  | .acload g d a => Sys2Proof.Machine.execAcload g d a s
  | .acloadRawF g d a => Sys2Proof.Machine.execAcloadRawF g d a s
  | .acloadRawI g d a => Sys2Proof.Machine.execAcloadRawI g d a s
  | .acstore g d a rm satm => Sys2Proof.Machine.execAcstore g d a rm satm s
  | .acstoreRaw g a n => Sys2Proof.Machine.execAcstoreRaw g a n s
  | .acget g d a b n => Sys2Proof.Machine.execAcget g d a b n s
  | .acgetRaw g d a b n => Sys2Proof.Machine.execAcgetRaw g d a b n s
  | .delta g d a b c => Sys2Proof.Machine.execDelta g d a b c s
  | .spcomp g d a => Sys2Proof.Machine.execSpcomp g d a s
  | .txpose g d a => Sys2Proof.Machine.execTxpose g d a s
  | .bagput g d a b off => Sys2Proof.Machine.execBagput g d a b off s
  | .bagtake g d a b ch off => Sys2Proof.Machine.execBagtake g d a b ch off s
  | .bagcnt g d a => Sys2Proof.Machine.execBagcnt g d a s
  | .baghistRes g d a b => Sys2Proof.Machine.execBaghistRes g d a b s
  | .baghistPuts g d a b => Sys2Proof.Machine.execBaghistPuts g d a b s
  | .bagcut g d a => Sys2Proof.Machine.execBagcut g d a s
  | .bagiter g a b c => Sys2Proof.Machine.execBagiter g a b c s
  | .bagwait g d a => Sys2Proof.Machine.execBagwait g d a s
  | .bagclr g a => Sys2Proof.Machine.execBagclr g a s
  | .baginfo g d a sel => Sys2Proof.Machine.execBaginfo g d a sel s
  | .nbrun g a off => Sys2Proof.Machine.execNbrun g a off s
  | .foldq g d => Sys2Proof.Machine.execFoldq g d s
  | .foldqP g d => Sys2Proof.Machine.execFoldqP g d s
  | .coll g d a off => Sys2Proof.Machine.execColl g d a off s
  | .collq g d a => Sys2Proof.Machine.execCollq g d a s
  | .collqWait g d a => Sys2Proof.Machine.execCollqWait g d a s
  | .srd g w d sr => Sys2Proof.Machine.execSrd g w d sr s
  | .swr g a => Sys2Proof.Machine.execSwr g a s
  | .probe g d a => Sys2Proof.Machine.execProbe g d a s
  | .nload d k => Sys2Proof.Machine.execNload d k s
  | .nstore a k => Sys2Proof.Machine.execNstore a k s
  | .nset d k => Sys2Proof.Machine.execNset d k s
  | .nsetImm d imm => Sys2Proof.Machine.execNsetImm d imm s
  | .nadd d a b t => Sys2Proof.Machine.execNadd d a b t s
  | .nsub d a b t => Sys2Proof.Machine.execNsub d a b t s
  | .nmul d a b t => Sys2Proof.Machine.execNmul d a b t s
  | .nfma d a b t => Sys2Proof.Machine.execNfma d a b t s
  | .nmax d a b t => Sys2Proof.Machine.execNmax d a b t s
  | .nmin d a b t => Sys2Proof.Machine.execNmin d a b t s
  | .nsum d a t => Sys2Proof.Machine.execNsum d a t s
  | .ncmp d a b t cc => Sys2Proof.Machine.execNcmp d a b t cc s
  | .nsel d a b => Sys2Proof.Machine.execNsel d a b s
  | .ncvt d a kind rm => Sys2Proof.Machine.execNcvt d a kind rm s
  | .nkey a lo hi inv => Sys2Proof.Machine.execNkey a lo hi inv s
  | .nemit a k => Sys2Proof.Machine.execNemit a k s
  | .nnext target => Sys2Proof.Machine.execNnext target s
  | .nloop k target => Sys2Proof.Machine.execNloop k target s
  | .njmp m0 target => Sys2Proof.Machine.execNjmp m0 target s
  | .nhalt => Sys2Proof.Machine.execNhalt s
  | .nsync => Sys2Proof.Machine.execNsync s
  | .fetchLine h lanes => Sys2Proof.Machine.execFetchLine h lanes s
  | .regroupBundles q => Sys2Proof.Machine.execRegroupBundles q s
  | .issueSelect q => Sys2Proof.Machine.execIssueSelect q s
  | .rendezvousForm t => Sys2Proof.Machine.execRendezvousForm t s
  | .producerFill t n => Sys2Proof.Machine.execProducerFill t n s
  | .launchQueueDoorbell q func tail => Sys2Proof.Machine.execLaunchQueueDoorbell q func tail s
  | .takeRoot q => Sys2Proof.Machine.execTakeRoot q s
  | .validationReadAnswer q mapped => Sys2Proof.Machine.execValidationReadAnswer q mapped s
  | .retirementNotice die => Sys2Proof.Machine.execRetirementNotice die s
  | .wcbWriteback w refused => Sys2Proof.Machine.execWcbWriteback w refused s
  | .placeTeam die => Sys2Proof.Machine.execPlaceTeam die s
  | .advertiseFreeSlots die => Sys2Proof.Machine.execAdvertiseFreeSlots die s
  | .teamMessageReceive die => Sys2Proof.Machine.execTeamMessageReceive die s
  | .stagingDone t => Sys2Proof.Machine.execStagingDone t s
  | .stagingPageAnswer t mapped => Sys2Proof.Machine.execStagingPageAnswer t mapped s
  | .teamDrainDone t => Sys2Proof.Machine.execTeamDrainDone t s
  | .scratchpadBankAccept h => Sys2Proof.Machine.execScratchpadBankAccept h s
  | .commonsBankAccept h n => Sys2Proof.Machine.execCommonsBankAccept h n s
  | .detCommit t => Sys2Proof.Machine.execDetCommit t s
  | .stackFill t => Sys2Proof.Machine.execStackFill t s
  | .stackSpill h => Sys2Proof.Machine.execStackSpill h s
  | .stackPageAnswer t mapped perm => Sys2Proof.Machine.execStackPageAnswer t mapped perm s
  | .copyRecordAccept c => Sys2Proof.Machine.execCopyRecordAccept c s
  | .copyRecordStart c n => Sys2Proof.Machine.execCopyRecordStart c n s
  | .copyUnitSettle c r u more => Sys2Proof.Machine.execCopyUnitSettle c r u more s
  | .copyUnitReplay c r => Sys2Proof.Machine.execCopyUnitReplay c r s
  | .copyEndActions c => Sys2Proof.Machine.execCopyEndActions c s
  | .completionRingWrite c => Sys2Proof.Machine.execCompletionRingWrite c s
  | .reducingElementApply c r u => Sys2Proof.Machine.execReducingElementApply c r u s
  | .matrixOwnershipGrant q => Sys2Proof.Machine.execMatrixOwnershipGrant q s
  | .matrixInstructionDone q n => Sys2Proof.Machine.execMatrixInstructionDone q n s
  | .bagPutArbitrate n => Sys2Proof.Machine.execBagPutArbitrate n s
  | .bagTakeClaim n => Sys2Proof.Machine.execBagTakeClaim n s
  | .bagTakeLand c => Sys2Proof.Machine.execBagTakeLand c s
  | .bagQueryAccept n => Sys2Proof.Machine.execBagQueryAccept n s
  | .bagClearPerform b => Sys2Proof.Machine.execBagClearPerform b s
  | .bagIterationStart b => Sys2Proof.Machine.execBagIterationStart b s
  | .bagIterationEnd b => Sys2Proof.Machine.execBagIterationEnd b s
  | .bagCreateRequest func desc row => Sys2Proof.Machine.execBagCreateRequest func desc row s
  | .bagRemoveRequest func desc => Sys2Proof.Machine.execBagRemoveRequest func desc s
  | .nbRunAccept n => Sys2Proof.Machine.execNbRunAccept n s
  | .nbRunStart p => Sys2Proof.Machine.execNbRunStart p s
  | .nbRowStart p => Sys2Proof.Machine.execNbRowStart p s
  | .nbArbitrationSuspend p => Sys2Proof.Machine.execNbArbitrationSuspend p s
  | .nbResume p => Sys2Proof.Machine.execNbResume p s
  | .nbRowMapped r idx mapped => Sys2Proof.Machine.execNbRowMapped r idx mapped s
  | .nbRunStop p => Sys2Proof.Machine.execNbRunStop p s
  | .nbRunEnd p => Sys2Proof.Machine.execNbRunEnd p s
  | .nbStatusWrite r => Sys2Proof.Machine.execNbStatusWrite r s
  | .ordinaryRequestServe r => Sys2Proof.Machine.execOrdinaryRequestServe r s
  | .laneRatioQuiesce p => Sys2Proof.Machine.execLaneRatioQuiesce p s
  | .pseudoChannelQuiesced p => Sys2Proof.Machine.execPseudoChannelQuiesced p s
  | .laneRatioResume p => Sys2Proof.Machine.execLaneRatioResume p s
  | .laneRatioSet p ratio => Sys2Proof.Machine.execLaneRatioSet p ratio s
  | .registerWrite r v => Sys2Proof.Machine.execRegisterWrite r v s
  | .faultFilterMerge n => Sys2Proof.Machine.execFaultFilterMerge n s
  | .faultQueueAppend die => Sys2Proof.Machine.execFaultQueueAppend die s
  | .dealerMap func page fill => Sys2Proof.Machine.execDealerMap func page fill s
  | .dealerRefuse func va code => Sys2Proof.Machine.execDealerRefuse func va code s
  | .translationChange func va page => Sys2Proof.Machine.execTranslationChange func va page s
  | .forwardedLine l => Sys2Proof.Machine.execForwardedLine l s
  | .migrationSwitch func va page => Sys2Proof.Machine.execMigrationSwitch func va page s
  | .linePull func va failed => Sys2Proof.Machine.execLinePull func va failed s
  | .dupInvalidateAck n node => Sys2Proof.Machine.execDupInvalidateAck n node s
  | .peerReset node inc => Sys2Proof.Machine.execPeerReset node inc s
  | .peerUnreachable node => Sys2Proof.Machine.execPeerUnreachable node s
  | .dirtySwapSchedule func t => Sys2Proof.Machine.execDirtySwapSchedule func t s
  | .dirtySwap func => Sys2Proof.Machine.execDirtySwap func s
  | .mailboxDoorbell func => Sys2Proof.Machine.execMailboxDoorbell func s
  | .resume func node team hand mask => Sys2Proof.Machine.execResume func node team hand mask s
  | .resumeNext func node team hand mask => Sys2Proof.Machine.execResumeNext func node team hand mask s
  | .abort func node team => Sys2Proof.Machine.execAbort func node team s
  | .debugEnableRequest func en => Sys2Proof.Machine.execDebugEnableRequest func en s
  | .budgetThrottle func => Sys2Proof.Machine.execBudgetThrottle func s
  | .budgetPeriodEnd func => Sys2Proof.Machine.execBudgetPeriodEnd func s
  | .sliceEnd q node => Sys2Proof.Machine.execSliceEnd q node s
  | .dealerPreemptRequest q node => Sys2Proof.Machine.execDealerPreemptRequest q node s
  | .dealerLiftPreempt q node => Sys2Proof.Machine.execDealerLiftPreempt q node s
  | .escalate t => Sys2Proof.Machine.execEscalate t s
  | .contextImageWrite t => Sys2Proof.Machine.execContextImageWrite t s
  | .nodePreempted q node => Sys2Proof.Machine.execNodePreempted q node s
  | .vfReset r => Sys2Proof.Machine.execVfReset r s
  | .pfReset => Sys2Proof.Machine.execPfReset s
  | .foldCommand cmd => Sys2Proof.Machine.execFoldCommand cmd s
  | .foldInstant job => Sys2Proof.Machine.execFoldInstant job s
  | .latePacketArrival a => Sys2Proof.Machine.execLatePacketArrival a s
  | .unfoldJob cmd => Sys2Proof.Machine.execUnfoldJob cmd s
  | .linkTrain port node inc => Sys2Proof.Machine.execLinkTrain port node inc s
  | .timeSync master t => Sys2Proof.Machine.execTimeSync master t s
  | .timeMasterTakeover => Sys2Proof.Machine.execTimeMasterTakeover s
  | .flitRetry port lane => Sys2Proof.Machine.execFlitRetry port lane s
  | .packetSend port vc => Sys2Proof.Machine.execPacketSend port vc s
  | .collChunkReceive m => Sys2Proof.Machine.execCollChunkReceive m s
  | .collRankEnd c slot => Sys2Proof.Machine.execCollRankEnd c slot s
  | .poisonSharedRead loc n => Sys2Proof.Machine.execPoisonSharedRead loc n s
  | .powerOnBoot imageOk records => Sys2Proof.Machine.execPowerOnBoot imageOk records s
  | .unitReady u => Sys2Proof.Machine.execUnitReady u s
  | .correctedError u => Sys2Proof.Machine.execCorrectedError u s
  | .uncorrectableError u => Sys2Proof.Machine.execUncorrectableError u s
  | .thermalClockLower die => Sys2Proof.Machine.execThermalClockLower die s
  | .thermalPowerOff die => Sys2Proof.Machine.execThermalPowerOff die s
  | .debugHalt c => Sys2Proof.Machine.execDebugHalt c s
  | .debugFreeze c => Sys2Proof.Machine.execDebugFreeze c s
  | .debugRelease c => Sys2Proof.Machine.execDebugRelease c s
  | .debugIdle c => Sys2Proof.Machine.execDebugIdle c s
  | .breakpointResume t => Sys2Proof.Machine.execBreakpointResume t s
  | .readinessBitFalls u => Sys2Proof.Machine.execReadinessBitFalls u s
  | .resourceGrant g => Sys2Proof.Machine.execResourceGrant g s
  | .bagRecordWrite b seq => Sys2Proof.Machine.execBagRecordWrite b seq s

end Sys2Proof.Machine
end

