-- ==== Sys2Proof/Machine/Wake.lean ====
section
/-! DEFINITION. Threads that become ready as soon as what they wait for has come (03 R50; 04 R68, R71): their registers are
full, or the condition on which they parked is met. -/

namespace Sys2Proof.Machine

/-- Whether a tile event or access would not wait now (07 R153). -/
def tileOpen (s : State) (id : TeamId) (r : TileRef) (what : Nat) : Bool :=
  (match what with
    | 3 => meetReader s id r
    | 4 => meetWriter s r
    | _ => meetEvent s r what) ≠ .wait

/-- Whether a barrier's phase has flipped, or a word of it is poisoned, so that its waiter need not wait (07 R141, R160). -/
def flipSeen (s : State) (k : ThreadKey) (t : Thread) (a : Nat) (ph : Bool) : Bool :=
  match aget k.team s.teams with
  | none => false
  | some tm =>
    (match t.bwait with
      | some (_, none) => true
      | _ => false) ||
    s.spPoisoned k.team tm a 16 || (barrierOf (s.spNat k.team tm a 16)).phase ≠ ph

/-- Whether a matrix unit would take a thread's instruction now (10 R207, R215). -/
def matrixOpen (s : State) (k : ThreadKey) : Bool :=
  let q := quadOf s k
  match aget k.team s.teams with
  | none => false
  | some tm => (enterTrick s k tm q).isSome && (claimMat s q k.team).2

/-- Whether the condition on which a thread parked is met (04 R71). -/
def parkOver (s : State) (k : ThreadKey) (t : Thread) : Park → Bool
  | .bbwait a ph => flipSeen s k t a ph
  | .tile id e what => tileOpen s k.team ⟨id, e⟩ what
  | .matrix => matrixOpen s k
  | .chwait ch => chanStatus s (ownChan s k ch) k.team < 2 ^ 31
  | .kick ch => (s.chan (ownChan s k ch)).heads.length < 4

/-- Whether lane l of a hand keeps a thread waiting for registers: it stands at the same wait, and one is empty. -/
def regsEmpty (s : State) (h : HandKey) (l : Nat) (rs : List (BitVec 8 × Bool)) : Bool :=
  match s.lane h l with
  | some t => t.run = .regs l rs && rs.any fun x => !isFull t x.1 x.2
  | none => false

/-- The lanes of a hand whose threads need wait no longer. -/
def dueLanes (s : State) (h : HandKey) : List Nat :=
  (List.range 64).filter fun l => match s.lane h l with
    | some t =>
      match t.run with
      | .regs x rs => !regsEmpty s h x rs
      | .blocked p => parkOver s (threadOf h l) t p
      | _ => false
    | none => false

/-- Every thread whose registers are full or whose condition is met is ready again. -/
def wakeDue (s : State) : State :=
  (s.hands.map (·.1)).foldl (fun s h => match dueLanes s h with
    | [] => s
    | ls => wakeLanes s h ls) s

end Sys2Proof.Machine
end

