-- ==== Sys2Proof/Machine/Turn.lean ====
section
/-! DEFINITION. What acts next when no bundle and no unit is in focus (notes/assumptions/2.md): the clock goes on, and
either a near-bank unit performs its next row operation, or a step of an engine, the dealer, the fabric or the outside
comes. -/

namespace Sys2Proof.Machine

/-- The module's clock goes on by c clocks of 0.8 ns: %cycle counts them, and fabric time counts ns; a copy that is ahead
of the master's runs slower until it agrees, by 1 to 100 ppm (16 R356). -/
def advanceTime (s : State) (c : Nat) : State :=
  let fifths := 4 * c + s.fab.timeFrac
  let ns := fifths / 5
  let parts := if s.fab.ahead = 0 then 0 else s.fab.slewed + ns * (Config.freeValue 0 s.tick % 100 + 1)
  let slow := min s.fab.ahead (parts / 1000000)
  { s with
    cycle := (s.cycle + c) % 2 ^ 64
    fab := { s.fab with
      time := (s.fab.time + ns - slow) % 2 ^ 64
      timeFrac := fifths % 5
      ahead := s.fab.ahead - slow
      slewed := parts % 1000000 } }

/-- What acts next. -/
inductive Turn where
  /-- A unit has been chosen, which is in focus; or nothing acts. -/
  | unit (s : State)
  | event (i : Instr) (s : State)

/-- What acts on a module whose dealer does not run: the boot ROM, the host at the recovery window, and the heat
(23 R400, R401). -/
def actsUnbooted : Instr → Bool
  | .powerOnBoot _ _ => true
  | .registerWrite (.flash _ _) _ => true
  | .thermalPowerOff _ => true
  | _ => false

/-- The records that the health log and the error log have not taken go there, as far as they can (16 R370, 23 R406). -/
def flushLogs (s : State) : State :=
  let s1 := flushHealth s.health.pendingLog s
  flushErrors s1.health.pendingErr s1

/-- What the host and other modules write to memory of their own, at a moment (00 R10): free. -/
def outside (s : State) (now : Nat) : State :=
  let host := match Config.hostWrite now with
    | some (a, bs) => memWrite s.mem.host (a % 2 ^ 64) bs
    | none => s.mem.host
  let far := match Config.farWrite now with
    | some (node, a, bs) => memWrite s.mem.fabric (node * 4398046511104 + a % 4398046511104) bs
    | none => s.mem.fabric
  { s with mem := { s.mem with host := host, fabric := far } }

/-- Time goes on to the moment of the next step: what has come true since then has its effect. A hand that rests is current
no more, though what it waits for has come (04 R71). -/
def passTime (s : State) : State :=
  let s1 := { advanceTime (wakeDue (dropCurrent s)) (Config.elapsed s.tick) with
    tick := s.tick + 1, glitch := Config.disturbance s.tick }
  sendTime (noteRoutes (flushLogs (outside s1 s.tick)))

/-- The next to act: a unit, or a step that the spec leaves free. -/
def nextTurn (s : State) : Turn :=
  let s1 := passTime s
  match Config.unitTurn s.tick with
  | some p => .unit { s1 with focus := .unit p }
  | none =>
    if s.health.booted || actsUnbooted (Config.nextStep s.tick) then .event (Config.nextStep s.tick) s1 else .unit s1

/-- The row operation that the unit in focus has reached; with none, or with no instruction there, it stops (12 R261). -/
def unitFetch (s : State) (p : Nat) : Instr :=
  match (s.pch p).store[(s.pch p).pc]? with
  | some w => match decodeRow w with
    | .ok i => i
    | .error _ => .nbRunStop p
  | none => .nbRunStop p

/-! ## Placing an instruction where the next step fetches it -/

/-- A line with a slot at its start: that slot may be entered, LV is 1 and the parity bits agree (03 R27 to R29). -/
def lineOf (w : Nat) : Line :=
  let slot := w % 2 ^ 96
  let par := if oddOnes 96 slot then 2 ^ 24 else 0
  let low := 1 + par
  let parw := if oddOnes 29 low then 2 ^ 29 else 0
  BitVec.ofNat 512 (slot + (low + parw + 2 ^ 30) * 2 ^ 480)

/-- The team that runs a placed slot: 16 lanes of one hand, every register and tile, a chain of one. -/
def hostTeam : Team where
  func := 0
  queue := 0
  node := 0
  homeDie := 0
  index := 0
  tx := 0
  ty := 0
  w := 16
  regs := 256
  hands := 1
  scratch := 16384
  ntiles := 64
  chain := true
  entry := 0
  kconst := List.replicate 64 0
  region := []
  eff := ⟨1, 1, 1, 0, 0, 0, 0, 0, 0, 0⟩
  st := .running
  ranNever := false
  staged := 0
  stageAt := []
  stageWait := 0
  stagePhase := 0
  banks := [0, 1, 2, 3]
  start := 0
  quads := [0]
  tiles := List.range 64
  fmts := List.replicate 16 0
  windows := List.replicate 8 none
  yarr := 0
  phase := false
  arr := 0
  live := 16
  commit := 0
  commitYield := false
  commitExit := false
  tileEvents := []
  trickTiles := []
  accs := []
  resumed := false
  halted := false
  debug := false
  suspendAt := none
  placedAt := 0
  countedAt := 0
  bpLog := []

/-- A thread at slot 0 of a line that it holds. -/
def hostThread (l : Line) : Thread where
  regs := List.replicate 256 0
  full := List.replicate 256 true
  preds := 0
  pc := 0
  line := some (0, l)
  pmask := 0xFFFF
  edge := 0
  depth := 0
  token := none
  run := .ready
  go := none
  ask := none
  bwait := none
  fenceAt := none
  need := none
  arrivals := []
  poison := []

/-- The team that a placed slot runs in. -/
def hostTeamId : TeamId := ⟨0, 0, 0⟩

/-- A state in which a bundle at a slot is in focus. -/
def placeSlot (s : State) (w : Nat) : State :=
  let h : HandKey := ⟨hostTeamId, 0⟩
  { s with
    teams := aset hostTeamId hostTeam s.teams
    groups := aset (0, 0) ⟨0, false, false, 0, 16, false, 0, [hostTeamId], none, (1, 16), []⟩ s.groups
    hands := aset h ⟨0, [⟨0, 0xFFFF, 0⟩], [], [], 0, [], [], [], [], false⟩ s.hands
    threads := (List.range 16).foldl (fun ts l => aset (threadOf h l) (hostThread (lineOf w)) ts) s.threads
    focus := .bundle h 0xFFFF }

/-- A run whose first unit stands at its first operation. -/
def hostRun (ops : List Word) : NbRun where
  team := hostTeamId
  thread := ⟨hostTeamId, 0, 0⟩
  func := 0
  dom := ⟨0, false, 4, 0, 0, 127, 127, 0, 0, 0, 0, 0, 0, 0, 0, 0, 0, 0, 0, 0, 0, 0, false⟩
  iaddr := 0
  word := 0
  ops := ops
  bag := none
  cut := 0
  claims := 0
  seq := 0
  rsize := 32
  waiting := []
  late := []
  asked := []
  units := [(0, ⟨[], some ⟨0, [some 0, some 0, some 0, some 0]⟩, none, 0, true, false, false, 0⟩)]
  done := 0
  skip := 0
  emitOk := 0
  emitRef := 0
  stops := []
  visited := 0
  landedN := 0
  last := false
  status := false
  away := false
  heldN := 0
  heldSt := false

/-- A state in which a unit that stands at a row operation is in focus. -/
def placeRowOp (s : State) (w : Nat) : State :=
  let ops := [BitVec.ofNat 32 w]
  let s1 := { s with runs := aset 0 (hostRun ops) s.runs, focus := .unit 0 }
  s1.modPch 0 fun _ => { Pch.reset with store := ops, runq := [0], active := true }

end Sys2Proof.Machine
end

