-- ==== Sys2Proof/Machine/Step.lean ====
section
/-! DEFINITION. One step of the machine, and where it fetches its next instruction. -/

namespace Sys2Proof.Machine

/-- One step: the bundle in focus fetches, decodes and performs its instruction; the unit in focus performs its row
operation; with neither, the clock goes on and whatever acts next is chosen and acts. -/
def step (s : State) : Host.Outcome State Fault Refusal :=
  if !s.health.powered then .fault .poweredOff
  else match s.focus with
    | .bundle h m =>
      match fetchBundle s h m with
      | .run i s' => exec i s'
      | .stay s' => .next s'
    | .unit p => exec (unitFetch s p) s
    | .none =>
      match nextTurn s with
      | .unit s' => .next s'
      | .event i s' => exec i s'

/-- The state with an instruction where the next step fetches it: a slot in the line that a bundle in focus holds, a row
operation in the store of a unit in focus (notes/assumptions/12.md). -/
def State.withFetchWord (s : State) (nbits w : Nat) : State :=
  if nbits ≤ 32 then placeRowOp s (w % 2 ^ nbits) else placeSlot s (w % 2 ^ nbits)

end Sys2Proof.Machine
end

