-- ==== Sys2Proof/Machine/Bar0.lean ====
section
/-! DEFINITION. What the host reads of a function's BAR0 (16 R372). -/

namespace Sys2Proof.Machine

/-- The 32 bytes of a launch queue block (04 R54). -/
def Queue.block (u : Queue) : Nat :=
  u.func % 2 ^ 7 + u.log2n % 2 ^ 4 * 2 ^ 20 + u.home % 2 ^ 3 * 2 ^ 24 + (if u.en then 2 ^ 31 else 0) + (if u.busy then 2 ^ 32 else 0)
    + u.head.toNat * 2 ^ 64 + u.tail.toNat * 2 ^ 96 + u.base % 2 ^ 64 * 2 ^ 128 + u.tmpl % 2 ^ 64 * 2 ^ 192

/-- Byte i of a number. -/
def byteAt (v i : Nat) : Byte := BitVec.ofNat 8 (v / 2 ^ (8 * i))

/-- A byte of the pending-bit array: eight vectors. -/
def Func.pendingByte (f : Func) (i : Nat) : Byte :=
  (List.range 8).foldl (fun b j => if f.msixPending.contains (8 * i + j) then b ||| BitVec.twoPow 8 j else b) 0

/-- The byte at an offset of a function's BAR0: its readiness register (23 R403); its own launch queue blocks, those of others
as 0; its request and reply areas; its pending bits and its MSI-X table. The rest of the first page, the doorbell and what lies
between read as bytes that the spec does not lay down. -/
def barByte (s : State) (fn off : Nat) : Byte :=
  let f := s.func fn
  if 0x40 ≤ off && off < 0x50 then byteAt (readinessReg s fn).toNat (off - 0x40)
  else if 0x1000 ≤ off && off < 0x1800 then
    let u := s.queue ((off - 0x1000) / 32)
    if u.func = fn then byteAt u.block (off % 32) else 0
  else if 0x2000 ≤ off && off < 0x2800 then f.mailbox.getD (off - 0x2000) 0
  else if 0x2800 ≤ off && off < 0x3000 then f.reply.getD (off - 0x2800) 0
  else if 0x4000 ≤ off && off < 0x4100 then
    if off - 0x4000 < vectors fn / 8 then f.pendingByte (off - 0x4000) else 0
  else if 0x8000 ≤ off && off < 0x10000 then
    if (off - 0x8000) / 16 < vectors fn then byteAt (f.vector ((off - 0x8000) / 16)).toNat (off % 16) else 0
  else Config.barOpen fn s.fab.node s.fab.inc off

end Sys2Proof.Machine
end

