-- ==== Sys2Proof/Safety.lean ====
section
/-! DEFINITION. The terms in which claims are made: the memories' canonical form, when a bundle can perform an
instruction, what its lanes get, and what else may change. -/

namespace Sys2Proof.Machine

/-! ## Invariants -/

/-- Every memory is in canonical form (notes/assumptions/5.md). -/
def Memory.wf (m : Memory) : Bool := memWf m.sp && memWf m.cm && memWf m.dram && memWf m.fabric && memWf m.host

/-- The module's memories are in canonical form. -/
abbrev State.memOk (s : State) : Prop := s.mem.wf = true

/-! ## Completion -/

/-- An instruction answers a next state, and of that state a property holds. -/
def Completes (i : Instr) (s : State) (p : State → Prop) : Prop := ∃ t, exec i s = .next t ∧ p t

/-! ## Instructions that bundles perform (03 R41 to R50; 04 R68, R73) -/

/-- The lanes that perform an instruction of a shape: their guard holds and, where a source has a modifier, the lane it
reads performs too (03 R41, R49). -/
def performers (s : State) (sh : Shape) (h : HandKey) (w : Nat) (ls : List Nat) : List Nat :=
  activeLanes sh w (performing s h sh.g ls) (performing s h sh.g ls)

/-- A bundle can perform an instruction of a shape: it is in focus, its threads have arrived where a source has a modifier
(03 R49), and every performing lane's sources and destinations are full (03 R50). -/
structure CanPerform (s : State) (sh : Shape) (h : HandKey) (tm : Team) (ls : List Nat) : Prop where
  focus : inFocus s = some (h, tm, ls)
  arrived : sh.modified = true → allArrived s h ls = true
  ready : ∀ l ∈ performers s sh h tm.w ls, ∃ v, readOpnds s h tm.w sh l = .ok v

/-- Of two states the later differs from the earlier in threads, hands and issue units alone; of the threads only those of a
hand's lanes, of the hands only that hand's bundles, and of the issue units only its quadrant's, which counts the issue; and
nothing is in focus any more. -/
structure OnlyLanes (s t : State) (h : HandKey) (ls : List Nat) : Prop where
  rest : t = { s with threads := t.threads, hands := t.hands, issue := t.issue, focus := .none }
  threads : ∀ k, (∀ l ∈ ls, k ≠ threadOf h l) → aget k t.threads = aget k s.threads
  hands : ∀ k, k ≠ h → aget k t.hands = aget k s.hands
  hand : ∀ hd, aget h s.hands = some hd → ∃ bs sv, aget h t.hands = some { hd with bundles := bs, serve := sv }
  issue : ∀ q, (∀ hd, aget h s.hands = some hd → q ≠ ⟨h.team.die, h.team.core, hd.quad⟩) → aget q t.issue = aget q s.issue

/-- A thread that has performed its instruction: at its next sequential address, ready (03 R30, 04 R68). -/
def Thread.past (u : Thread) : Thread := { u.advance with run := .ready }

/-- Every performing lane's thread has become what f gives, of its lane and operands, and every other lane of the bundle has
gone on; nothing else has changed. -/
structure LanesBecome (s t : State) (sh : Shape) (h : HandKey) (tm : Team) (ls : List Nat)
    (f : Nat → Vals → Thread → Thread) : Prop where
  frame : OnlyLanes s t h ls
  performed : ∀ l ∈ performers s sh h tm.w ls, ∀ u v, s.lane h l = some u → readOpnds s h tm.w sh l = .ok v →
    t.lane h l = some (f l v u)
  passed : ∀ l ∈ ls, l ∉ performers s sh h tm.w ls → ∀ u, s.lane h l = some u → t.lane h l = some u.past

/-- Every performing lane's thread has been changed by f and has gone on, as every lane of the bundle has; nothing else has
changed. -/
def LanesGet (s t : State) (sh : Shape) (h : HandKey) (tm : Team) (ls : List Nat) (f : Nat → Vals → Thread → Thread) : Prop :=
  LanesBecome s t sh h tm ls fun l v u => (f l v u).past

/-- An instruction of a shape changes the thread of each performing lane by f, of the state, the team, the lane and its
operands, and changes nothing else. -/
def PerformsAt (i : Instr) (sh : Shape) (f : State → HandKey → Team → Nat → Vals → Thread → Thread) : Prop :=
  ∀ s h tm ls, CanPerform s sh h tm ls → Completes i s fun t => LanesGet s t sh h tm ls (f s h tm)

/-- An instruction of a shape changes the thread of each performing lane by f, of its operands, and nothing else. -/
def Performs (i : Instr) (sh : Shape) (f : Vals → Thread → Thread) : Prop := PerformsAt i sh fun _ _ _ _ => f

/-- A bundle of one thread can perform an instruction of a shape, and v are its operands. -/
structure OneLane (s : State) (sh : Shape) (h : HandKey) (tm : Team) (l : Nat) (v : Vals) : Prop where
  focus : inFocus s = some (h, tm, [l])
  arrived : sh.modified = true → allArrived s h [l] = true
  performs : performers s sh h tm.w [l] = [l]
  ready : readOpnds s h tm.w sh l = .ok v

/-- A bundle of one thread has performed its instruction, which has made of the state s: the thread goes on. -/
def goesOn (s : State) (h : HandKey) (l : Nat) : State := endIssue (goOn s (threadOf h l)) h [l]

/-- A bundle can perform an X-format instruction of a shape (03 R42): it acts once, from the lowest performing lane l, whose
operands are v. -/
structure Leads (s : State) (sh : Shape) (h : HandKey) (tm : Team) (ls : List Nat) (l : Nat) (v : Vals) : Prop where
  focus : inFocus s = some (h, tm, ls)
  lowest : (performing s h sh.g ls).head? = some l
  ready : readOpnds s h tm.w sh l = .ok v

/-- Every thread of a bundle goes on after an X-format instruction that has made of the state s. -/
def allGoOn (s : State) (h : HandKey) (ls : List Nat) (l : Nat) : State :=
  endIssue ((ls.filter (· ≠ l)).foldl (fun s x => goOn s (threadOf h x)) (goOn s (threadOf h l))) h ls

/-! ## Transfers (03 R31, R36; 04 R77) -/

/-- A function's thread can enter the line L at a target: the address is canonical, its page is not forwarded, it translates
for fetch to a place of the module's DRAM without poison whose controller takes the request and has nothing to count it
against (11 R230, 12 R254), the line there passes its checks, and its slot is a branch target. -/
structure Enters (s : State) (fn : Nat) (target : Dword) (L : Line) : Prop where
  canonical : canonical target = true
  place : ∃ d w, translate s fn (lineAddr target).toNat .fetch = .dram d w ∧ mayServe s (pchOf d) (engineLane fn false) = true ∧
    (s.pch (pchOf d)).served (engineLane fn false) = s.pch (pchOf d) ∧ dramPoisoned s (locOf d) 64 = false ∧
    L = BitVec.ofNat 512 (natOfBytes (dramRead s d 64))
  own : ∀ p, (s.func fn).page (lineAddr target).toNat = some p → pageForwards p = false
  steady : s.glitch = 0
  parity : parityOk L = true
  format : formatOk L = true
  aligned : target.extractLsb' 3 3 = 0#3
  legal : tgtBit L (slotOf target) = true

/-- A thread that has arrived at a target, in the line L. -/
def Thread.at (u : Thread) (target : Dword) (L : Line) : Thread :=
  { u with pc := target, line := some (lineAddr target, L), run := .ready }

/-! ## Cross-lane instructions (05 R107) -/

/-- A bundle can perform a cross-lane instruction of a shape: its threads have all arrived, and every performing lane's
registers are full, source A of the lane that src names among them. -/
structure CanCross (s : State) (sh : Shape) (src : List Nat → Nat → Dword → Option Nat) (h : HandKey) (tm : Team)
    (ls : List Nat) : Prop where
  focus : inFocus s = some (h, tm, ls)
  arrived : allArrived s h ls = true
  ready : ∀ l ∈ performers s sh h tm.w ls, ∃ v,
    crossReady s h tm.w sh (src (performers s sh h tm.w ls) l (indexSeen s h tm.w sh l)) l = .ok v

/-- Every performing lane's thread has been changed by f, of its lane; every lane of the bundle has gone on; nothing else
has changed. -/
structure CrossGet (s t : State) (sh : Shape) (h : HandKey) (tm : Team) (ls : List Nat) (f : Nat → Thread → Thread) :
    Prop where
  frame : OnlyLanes s t h ls
  performed : ∀ l ∈ performers s sh h tm.w ls, ∀ u, s.lane h l = some u → t.lane h l = some (f l u).past
  passed : ∀ l ∈ ls, l ∉ performers s sh h tm.w ls → ∀ u, s.lane h l = some u → t.lane h l = some u.past

/-- A cross-lane instruction of a shape changes the thread of each performing lane by f, of the state, the hand, the
performing lanes and the lane, and changes nothing else. -/
def Crosses (i : Instr) (sh : Shape) (src : List Nat → Nat → Dword → Option Nat)
    (f : State → HandKey → Team → List Nat → Nat → Thread → Thread) : Prop :=
  ∀ s h tm ls, CanCross s sh src h tm ls →
    Completes i s fun t => CrossGet s t sh h tm ls (f s h tm (performers s sh h tm.w ls))

/-- Source A of a lane. -/
def laneA (s : State) (h : HandKey) (sh : Shape) (w l : Nat) : Dword := sh.a.value s h w l
/-- Source B of a lane. -/
def laneB (s : State) (h : HandKey) (sh : Shape) (w l : Nat) : Dword := sh.b.value s h w l

/-- A predicate of a lane. -/
def lanePred (s : State) (h : HandKey) (a : BitVec 3) (l : Nat) : Bool :=
  match s.lane h l with
  | some t => readPred t a
  | none => false

/-! ## Memory accesses (07 R144; 13 R275) -/

/-- A hand's record, with no access on its way and nothing buffered; and no matrix instruction holds scratchpad. -/
structure Calm (s : State) (h : HandKey) (hd : Hand) : Prop where
  hand : aget h s.hands = some hd
  queue : hd.storeQ = []
  buffer : hd.detBuf = []
  holds : s.holds = []

/-- What a load of n bytes gives: the number read, or, sign-extended, that number with copies of its top bit above it, to
32 bits (07 R144). -/
def loaded (n : Nat) (sgn : Bool) (x : Nat) : Dword :=
  BitVec.ofNat 64 (if sgn ∧ 2 ^ (8 * n - 1) ≤ x then x + 2 ^ 32 - 2 ^ (8 * n) else x)

/-- An access joins its hand's store queue, with the hand's next number (13 R274, R275). -/
def queued (s : State) (h : HandKey) (l : Nat) (op : AccOp) (rel acq : Option Scope) : State :=
  s.modHand h fun hd =>
    { hd with storeQ := hd.storeQ ++ [⟨hd.seq, l, pcOf s (threadOf h l), op, rel, acq, s.tick⟩], seq := hd.seq + 1 }

/-- A queue's only access is at its bank: its hand's queue is empty then. -/
def taken (s : State) (h : HandKey) (hd : Hand) : State := s.setHand h { hd with storeQ := [] }

/-- Of two memories the later holds the n bytes of v, low byte first, at the places that key gives of 0, 1, …, and is as
the earlier everywhere else. -/
def Wrote (m m' : List Host.Cell) (key : Nat → Nat) (n v : Nat) : Prop :=
  (∀ i, i < n → memGet m' (key i) = BitVec.ofNat 8 (v / 2 ^ (8 * i))) ∧
  ∀ x, (∀ i, i < n → x ≠ key i) → memGet m' x = memGet m x

/-- An address for n bytes, a power of two up to 16, is aligned and lies below a bound. -/
def Fits (x n bound : Nat) : Prop := x + n ≤ bound ∧ x % n = 0

/-! ## Matrix instructions (10 R207, R213, R214) -/

/-- A bundle can perform a matrix instruction: it leads (03 R42), its team owns its quadrant's accumulators, no instruction
holds scratchpad, its hand has no store queued, no scratchpad word is poisoned, and the team is not in deterministic mode
(R215). -/
structure MatrixReady (s : State) (sh : Shape) (h : HandKey) (tm : Team) (ls : List Nat) (l : Nat) (v : Vals) (q : QuadId) :
    Prop where
  leads : Leads s sh h tm ls l v
  quad : q = quadOf s (threadOf h l)
  owner : (s.mat q).owner = some h.team
  free : s.holds = []
  idle : ∃ hd, aget h s.hands = some hd ∧ hd.storeQ = []
  sound : s.mem.spPoison = []
  plain : tm.detMode = false

/-- A tile that a matrix instruction may read: READY, within its team's scratchpad, and found sound by the checks that follow
the issue (07 R151, R153; 10 R213). -/
def MayRead (s : State) (o : MOp) : Prop :=
  (o.ref.tile s).state = 2 ∧ trickTile s o.ref = false ∧ o.outside 0 = false ∧ o.late s = none

/-- A tile that a matrix instruction may write whole: EMPTY, and within its team's scratchpad. -/
def MayFill (s : State) (o : MOp) : Prop := (o.ref.tile s).state = 0 ∧ trickTile s o.ref = false ∧ o.outside 0 = false

/-- A matrix instruction has issued: its unit has one more job, and of its state only accumulator n may have changed; a
tile that it writes whole is FILLING; threads, hands, teams and other units are as they were. -/
structure MatrixIssued (s t : State) (h : HandKey) (l : Nat) (q : QuadId) (dst : Option MOp) (n : Option Nat) : Prop where
  job : (t.mat q).jobs = (s.mat q).jobs ++
    [⟨s.nextId, threadOf h l, pcOf s (threadOf h l), none, dst.map fun o => (o.ref.team, o.ref.entry)⟩]
  owner : (t.mat q).owner = (s.mat q).owner
  accs : ∀ k, some k ≠ n → accOf t q k = accOf s q k
  others : ∀ p, p ≠ q → t.mat p = s.mat p
  rest : t = { s with nextId := s.nextId + 1, holds := t.holds, mats := t.mats, cores := t.cores, mem := t.mem }
  tiles : (∀ o, dst = some o → (o.ref.tile t).state = 1) ∧ (dst = none → t.cores = s.cores)

/-! ## Bag requests (11 R235, 13 R279) -/

/-- A thread's request has gone to an arbiter: it has the next number, and its hand counts it as not yet accepted. -/
def asking (s : State) (h : HandKey) (hd : Hand) (l fn : Nat) (handle : Word) (ask : BagAsk) : State :=
  ({ s with nextId := s.nextId + 1, bagReqs := s.bagReqs ++
      [⟨s.nextId, handle, fn, threadOf h l, pcOf s (threadOf h l), hd.seq, ask, none⟩] } : State).modHand h fun hd =>
    { hd with seq := hd.seq + 1, pend := hd.pend ++ [hd.seq] }

/-- A request is accepted and over. -/
def served (s : State) (r : BagReq) : State :=
  ({ s with bagReqs := s.bagReqs.filter fun x => x.id ≠ r.id } : State).modHand (handOf r.thread) fun hd =>
    { hd with pend := hd.pend.filter (· ≠ r.seq) }

/-- A request is over, and its value is on its way to its thread's destination. -/
def given (s : State) (r : BagReq) (d : BitVec 8) (pair : Bool) (v : Dword) : State :=
  { served s r with fills := s.fills ++ [⟨r.thread, d, pair, .value v, r.iaddr, none⟩] }

/-- A request is over, and its thread finds the value in the answers. -/
def replied (s : State) (r : BagReq) (v : Nat) : State :=
  { served s r with answers := s.answers ++ [(r.id, ⟨none, v, []⟩)] }

/-! ## Row operations (12 R251, R254, R261) -/

/-- The unit of pseudo-channel p is in focus, stands at a row operation of its run n, and may perform it. -/
structure AtRow (s : State) (p n : Nat) (r : NbRun) (x : UnitRun) : Prop where
  focus : s.focus = .unit p
  run : activeRun s p = some (n, r, x)
  ready : unitReady s p = true
  idle : (s.pch p).wait = none

/-- The unit of pseudo-channel p has performed a row operation that changes it by f, and stands at the next; nothing else
has changed, and no unit is in focus. -/
def rowDone (s : State) (p : Nat) (f : Pch → Pch) : State :=
  { s with focus := .none, pchs := aset p { f (s.pch p) with pc := (s.pch p).pc + 1, fresh := false } s.pchs }

/-- Row accumulator d has become v. -/
def rowGets (s : State) (p : Nat) (d : BitVec 3) (v : BitVec 8192) : State :=
  rowDone s p fun u => { u with n := u.n.set d.toNat v }

/-- Element e, of w bits, of a row accumulator (12 R262). -/
def elem (w : Nat) (v : BitVec 8192) (e : Nat) : Nat := v.toNat / 2 ^ (w * e) % 2 ^ w

/-- A 32-bit element as a signed number. -/
def elemInt (v : BitVec 8192) (e : Nat) : Int := (BitVec.ofNat 32 (elem 32 v e)).toInt

/-! ## Integer results (05 R93, R94) -/

/-- N: 32, or 64 under W64 = 1. -/
def widthN (w : Bool) : Nat := if w then 64 else 32

/-- An operand read unsigned in N bits. -/
def uns (w : Bool) (v : Dword) : Nat := v.toNat % 2 ^ widthN w

/-- An operand read as two's complement in N bits. -/
def sgn (w : Bool) (v : Dword) : Int :=
  if uns w v < 2 ^ (widthN w - 1) then uns w v else (uns w v : Int) - 2 ^ widthN w

/-- vD := x modulo 2^N. -/
def gives (w : Bool) (d : BitVec 8) (x : Int) (u : Thread) : Thread :=
  writeReg u d w (BitVec.ofInt 64 (x % 2 ^ widthN w))

/-- The shape of a form with sources A and B. -/
def shapeAB (g : Guard) (w : Bool) (d : BitVec 8) (a : Src) (b : SrcB) : Shape := ⟨g, srcOp a w, srcbOp b w, noOp, [(d, w)]⟩
/-- The shape of a form with source A. -/
def shapeA (g : Guard) (w : Bool) (d : BitVec 8) (a : Src) : Shape := ⟨g, srcOp a w, noOp, noOp, [(d, w)]⟩

end Sys2Proof.Machine
end

