-- ==== Sys2Proof/Certificates/Slice0/Obligations.lean ====
section
/-! DEFINITION. The statements for the provers: what the instructions and the machine do, in the terms of Safety.lean. -/

open Sys2Proof Sys2Proof.Machine

/-- 05 R94: the integer and address instructions. -/
def Obligations.IntegerResults : Prop :=
  ∀ (g : Guard) (w : Bool) (d : BitVec 8) (a : Src) (b : SrcB),
    Performs (.add g w d a b) (shapeAB g w d a b) (fun v => gives w d (uns w v.a + uns w v.b)) ∧
    (∀ imm, Performs (.addi g w d a imm) (shapeA g w d a) fun v => gives w d (uns w v.a + imm.toInt)) ∧
    Performs (.sub g w d a b) (shapeAB g w d a b) (fun v => gives w d ((uns w v.a : Int) - uns w v.b)) ∧
    Performs (.mul g w d a b) (shapeAB g w d a b) (fun v => gives w d (uns w v.a * uns w v.b)) ∧
    Performs (.mulhi g w d a b) (shapeAB g w d a b) (fun v => gives w d (uns w v.a * uns w v.b / 2 ^ widthN w)) ∧
    Performs (.mulhs g w d a b) (shapeAB g w d a b) (fun v => gives w d (sgn w v.a * sgn w v.b / 2 ^ widthN w)) ∧
    (∀ c, Performs (.mad g w d a b c) ⟨g, srcOp a w, srcbOp b w, csrcOp c w, [(d, w)]⟩
      fun v => gives w d (uns w v.a * uns w v.b + uns w v.c)) ∧
    Performs (.min g w d a b) (shapeAB g w d a b) (fun v => gives w d (min (uns w v.a) (uns w v.b))) ∧
    Performs (.max g w d a b) (shapeAB g w d a b) (fun v => gives w d (max (uns w v.a) (uns w v.b))) ∧
    Performs (.mins g w d a b) (shapeAB g w d a b) (fun v => gives w d (min (sgn w v.a) (sgn w v.b))) ∧
    Performs (.maxs g w d a b) (shapeAB g w d a b) (fun v => gives w d (max (sgn w v.a) (sgn w v.b))) ∧
    Performs (.abs g w d a) (shapeA g w d a) (fun v => gives w d |sgn w v.a|) ∧
    Performs (.neg g w d a) (shapeA g w d a) (fun v => gives w d (-(uns w v.a : Int))) ∧
    Performs (.and g w d a b) (shapeAB g w d a b) (fun v => gives w d ((uns w v.a &&& uns w v.b : Nat) : Int)) ∧
    Performs (.or g w d a b) (shapeAB g w d a b) (fun v => gives w d ((uns w v.a ||| uns w v.b : Nat) : Int)) ∧
    Performs (.xor g w d a b) (shapeAB g w d a b) (fun v => gives w d ((uns w v.a ^^^ uns w v.b : Nat) : Int)) ∧
    Performs (.andn g w d a b) (shapeAB g w d a b)
      (fun v => gives w d ((uns w v.a &&& (2 ^ widthN w - 1 - uns w v.b) : Nat) : Int)) ∧
    Performs (.not g w d a) (shapeA g w d a) (fun v => gives w d (-1 - (uns w v.a : Int))) ∧
    Performs (.clz g w d a) (shapeA g w d a) (fun v => gives w d
      (if uns w v.a = 0 then (widthN w : Int) else widthN w - 1 - Nat.log2 (uns w v.a))) ∧
    Performs (.popc g w d a) (shapeA g w d a) (fun v => gives w d
      ((List.range (widthN w)).filter fun i => (uns w v.a).testBit i).length) ∧
    Performs (.brev g w d a) (shapeA g w d a) (fun v => gives w d
      (((List.range (widthN w)).map fun i => if (uns w v.a).testBit i then 2 ^ (widthN w - 1 - i) else 0).sum : Nat)) ∧
    (∀ p, Performs (.sel g w d a b p) (shapeAB g w d a b) fun v u =>
      gives w d (if readPred u p then uns w v.a else uns w v.b) u) ∧
    Performs (.mov g w d a) (shapeA g w d a) (fun v => gives w d (uns w v.a)) ∧
    (∀ j, PerformsAt (.movK g w d j) ⟨g, noOp, noOp, noOp, [(d, w)]⟩ fun _ _ tm _ _ =>
      gives w d (if w then (tm.kconst.getD j.toNat 0).toNat + 2 ^ 32 * (tm.kconst.getD (j.toNat + 1) 0).toNat
        else (tm.kconst.getD j.toNat 0).toNat)) ∧
    (∀ imm, Performs (.movi g w d imm) ⟨g, noOp, noOp, noOp, [(d, w)]⟩ fun _ => gives w d imm.toNat) ∧
    (∀ sh, Performs (.lea g w d a b sh) (shapeAB g w d a b) fun v => gives w d (uns w v.a + uns w v.b * 2 ^ sh.toNat))

/-- 05 R95: division. -/
def Obligations.DivisionResults : Prop :=
  ∀ (g : Guard) (d : BitVec 8) (a : Src) (b : SrcB),
    Performs (.div g d a b) (shapeAB g false d a b) (fun v => gives false d
      (if uns false v.b = 0 then 0xFFFFFFFF else (uns false v.a / uns false v.b : Nat))) ∧
    Performs (.rem g d a b) (shapeAB g false d a b) (fun v => gives false d
      (if uns false v.b = 0 then (uns false v.a : Int)
        else uns false v.a - (uns false v.a / uns false v.b : Nat) * uns false v.b)) ∧
    Performs (.divs g d a b) (shapeAB g false d a b) (fun v => gives false d
      (if uns false v.b = 0 then 0xFFFFFFFF
        else if uns false v.a = 0x80000000 ∧ uns false v.b = 0xFFFFFFFF then 0x80000000
        else (sgn false v.a).tdiv (sgn false v.b))) ∧
    Performs (.rems g d a b) (shapeAB g false d a b) (fun v => gives false d
      (if uns false v.b = 0 then (uns false v.a : Int)
        else if uns false v.a = 0x80000000 ∧ uns false v.b = 0xFFFFFFFF then 0
        else sgn false v.a - (sgn false v.a).tdiv (sgn false v.b) * sgn false v.b))

/-- 05 R96: shifts, rotates and bit fields. -/
def Obligations.ShiftResults : Prop :=
  ∀ (g : Guard) (w : Bool) (d : BitVec 8) (a : Src) (b : SrcB),
    let n := widthN w
    let amt := fun (v : Vals) => uns w v.b % 256
    let len := fun (v : Vals) => if amt v < n then min (uns w v.b / 256 % 256) (n - amt v) else 0
    let field := fun (v : Vals) => uns w v.a / 2 ^ amt v % 2 ^ len v
    Performs (.shl g w d a b) (shapeAB g w d a b) (fun v => gives w d (if amt v < n then uns w v.a * 2 ^ amt v else 0)) ∧
    Performs (.shr g w d a b) (shapeAB g w d a b) (fun v => gives w d (if amt v < n then uns w v.a / 2 ^ amt v else 0)) ∧
    Performs (.sar g w d a b) (shapeAB g w d a b) (fun v => gives w d
      (if amt v < n then sgn w v.a / 2 ^ amt v else if sgn w v.a < 0 then -1 else 0)) ∧
    Performs (.rot g w d a b) (shapeAB g w d a b) (fun v => gives w d
      (uns w v.a * 2 ^ (amt v % n) + uns w v.a / 2 ^ (n - amt v % n))) ∧
    Performs (.bfx g w d a b) (shapeAB g w d a b) (fun v => gives w d (field v)) ∧
    Performs (.bfxs g w d a b) (shapeAB g w d a b) (fun v => gives w d
      (if 0 < len v ∧ 2 ^ (len v - 1) ≤ field v then (field v : Int) - 2 ^ len v else field v)) ∧
    (∀ c, Performs (.bfi g w d a b c) ⟨g, srcOp a w, srcbOp b w, csrcOp c w, [(d, w)]⟩ fun v => gives w d
      ((uns w v.c : Int) - (uns w v.c / 2 ^ amt v % 2 ^ len v * 2 ^ amt v : Nat) + (uns w v.a % 2 ^ len v * 2 ^ amt v : Nat)))

/-- 05 R97, R98: comparisons and predicates. 03 R40, R50: v0, and the pair that 0 names, read as zero, are full, and
discard writes; p0 discards writes; so an instruction whose destination is v0 or p0 changes no register; a pair with
an odd number is not well formed. -/
def Obligations.PredicatesAndZero : Prop :=
  (∀ (g : Guard) (d p q : BitVec 3),
     (∀ w a b cc, Performs (.icmp g w d a b cc) ⟨g, srcOp a w, srcbOp b w, noOp, []⟩ fun v u => writePred u d (match cc with
       | .eq => decide (uns w v.a = uns w v.b)
       | .ne => decide (uns w v.a ≠ uns w v.b)
       | .ult => decide (uns w v.a < uns w v.b)
       | .ule => decide (uns w v.a ≤ uns w v.b)
       | .ugt => decide (uns w v.b < uns w v.a)
       | .uge => decide (uns w v.b ≤ uns w v.a)
       | .slt => decide (sgn w v.a < sgn w v.b)
       | .sle => decide (sgn w v.a ≤ sgn w v.b)
       | .sgt => decide (sgn w v.b < sgn w v.a)
       | .sge => decide (sgn w v.b ≤ sgn w v.a))) ∧
     Performs (.pand g d p q) (bare g) (fun _ u => writePred u d (readPred u p && readPred u q)) ∧
     Performs (.por g d p q) (bare g) (fun _ u => writePred u d (readPred u p || readPred u q)) ∧
     Performs (.pxor g d p q) (bare g) (fun _ u => writePred u d (readPred u p != readPred u q)) ∧
     Performs (.pnot g d p) (bare g) (fun _ u => writePred u d (!readPred u p)) ∧
     Performs (.pmov g d p) (bare g) (fun _ u => writePred u d (readPred u p)) ∧
     (∀ imm, Performs (.pmovImm g d imm) (bare g) fun _ u => writePred u d imm)) ∧
  ((∀ (u : Thread) w v, readReg u 0 w = 0 ∧ isFull u 0 w = true ∧ writeReg u 0 w v = u) ∧
   (∀ (u : Thread) v, readPred u 0 = true ∧ writePred u 0 v = u) ∧
   (∀ g w a b, Performs (.add g w 0 a b) (shapeAB g w 0 a b) fun _ u => u) ∧
   (∀ g w a b c, Performs (.icmp g w 0 a b c) ⟨g, srcOp a w, srcbOp b w, noOp, []⟩ fun _ u => u) ∧
   ∀ g d a b, d.getLsbD 0 = true → (Instr.add g true d a b).wf = false)

/-- 05 R101: FADD, FSUB, FMUL, FDIV and FFMA round the exact result once. 05 R102: the floating-point instructions
that make no rounding (the NaN that FCLASS calls signalling is notes/assumptions/32.md). 05 R103, R104: functions
(their precision before the rounding is notes/assumptions/11.md), roundings to integral values and conversions. 05
R99: the canonical NaN 0x7FC00000 is the result of FADD, FSUB, FMUL, FDIV, FFMA and of the functions for a NaN
operand, of FMIN and FMAX for two, and of Inf - Inf, 0 * Inf, 0 / 0 and Inf / Inf. -/
def Obligations.FloatResults : Prop :=
  (∀ (g : Guard) (d : BitVec 8) (a : Src) (b : SrcB) (rm : Rm),
     let sh : Shape := ⟨g, srcOp a false, srcbFp b, noOp, [(d, false)]⟩
     let num := fun (v : Dword) => unpack fp32 (uns false v)
     Performs (.fadd g d a b rm) sh (fun v => gives false d (roundTo fp32 rm ((num v.a).add rm (num v.b)))) ∧
     Performs (.fsub g d a b rm) sh (fun v => gives false d (roundTo fp32 rm ((num v.a).add rm (num v.b).neg))) ∧
     Performs (.fmul g d a b rm) sh (fun v => gives false d (roundTo fp32 rm ((num v.a).mul (num v.b)))) ∧
     Performs (.fdiv g d a b rm) sh (fun v => gives false d (divRound fp32 rm (num v.a) (num v.b))) ∧
     (∀ c, Performs (.ffma g d a b c rm) ⟨g, srcOp a false, srcbFp b, csrcOp c false, [(d, false)]⟩ fun v =>
       gives false d (roundTo fp32 rm (((num v.a).mul (num v.b)).add rm (num v.c))))) ∧
  (∀ (g : Guard) (d : BitVec 8) (a : Src) (b : SrcB),
     let sh : Shape := ⟨g, srcOp a false, srcbFp b, noOp, [(d, false)]⟩
     Performs (.fmin g d a b) sh (fun v => gives false d (fpMin fp32 (uns false v.a) (uns false v.b))) ∧
     Performs (.fmax g d a b) sh (fun v => gives false d (fpMax fp32 (uns false v.a) (uns false v.b))) ∧
     Performs (.fabs g d a) (shapeA g false d a) (fun v => gives false d ((uns false v.a % 2 ^ 31 : Nat) : Int)) ∧
     Performs (.fneg g d a) (shapeA g false d a) (fun v => gives false d ((uns false v.a + 2 ^ 31 : Nat) : Int)) ∧
     Performs (.fclass g d a) (shapeA g false d a) (fun v => gives false d (fpClass (uns false v.a))) ∧
     (∀ p cc, Performs (.fcmp g p a b cc) ⟨g, srcOp a false, srcbFp b, noOp, []⟩ fun v u =>
       let x := unpack fp32 (uns false v.a)
       let y := unpack fp32 (uns false v.b)
       let ordered := !x.isNan && !y.isNan
       writePred u p (match cc with
         | .eq => ordered && x.cmp y == .eq
         | .ne => !(ordered && x.cmp y == .eq)
         | .lt => ordered && x.cmp y == .lt
         | .le => ordered && x.cmp y != .gt
         | .gt => ordered && x.cmp y == .gt
         | .ge => ordered && x.cmp y != .lt
         | .un => !ordered
         | .ord => ordered))) ∧
  (∀ (g : Guard) (d : BitVec 8) (a : Src) (rm : Rm) (u : Bool),
     let sh := shapeA g false d a
     let num := fun (v : Dword) => unpack fp32 (uns false v)
     Performs (.frcp g d a rm) sh (fun v => gives false d (divRound fp32 rm (.fin false 1 0) (num v.a))) ∧
     Performs (.frsq g d a) sh (fun v => gives false d (rsqrtRound fp32 .rn (num v.a))) ∧
     Performs (.fsqrt g d a rm) sh (fun v => gives false d (sqrtRound fp32 rm (num v.a))) ∧
     Performs (.fexp2 g d a) sh (fun v => gives false d (exp2Round (num v.a))) ∧
     Performs (.flog2 g d a) sh (fun v => gives false d (log2Round (num v.a))) ∧
     Performs (.fsin g d a) sh (fun v => gives false d (sinCosRound false (num v.a))) ∧
     Performs (.fcos g d a) sh (fun v => gives false d (sinCosRound true (num v.a))) ∧
     Performs (.ftanh g d a) sh (fun v => gives false d (tanhRound (num v.a))) ∧
     Performs (.frnd g d a rm) sh (fun v => gives false d (fpRound rm (uns false v.a))) ∧
     Performs (.f2i g d a rm u) sh (fun v => gives false d (fpToInt rm u (uns false v.a)).toNat) ∧
     Performs (.i2f g d a rm u) sh (fun v => gives false d (intToFp rm u (BitVec.ofNat 32 (uns false v.a))))) ∧
  (∀ (g : Guard) (d : BitVec 8) (a : Src) (b : SrcB) (rm : Rm),
     let sh : Shape := ⟨g, srcOp a false, srcbFp b, noOp, [(d, false)]⟩
     let num := fun (v : Dword) => unpack fp32 (uns false v)
     let canon := fun (sh : Shape) (i : Instr) (bad : Vals → Prop) => ∀ s h tm ls, CanPerform s sh h tm ls →
       Completes i s fun t => ∀ l ∈ performers s sh h tm.w ls, ∀ u v, s.lane h l = some u →
         readOpnds s h tm.w sh l = .ok v → bad v → t.lane h l = some (gives false d 0x7FC00000 u).past
     let nan := fun (v : Vals) => (num v.a).isNan = true ∨ (num v.b).isNan = true
     let zero := fun (x : Machine.Num) => ∃ σ e, x = .fin σ 0 e
     let inf := fun (x : Machine.Num) => ∃ σ, x = .inf σ
     canon sh (.fadd g d a b rm) (fun v => nan v ∨ ∃ σ, num v.a = .inf σ ∧ num v.b = .inf (!σ)) ∧
     canon sh (.fsub g d a b rm) (fun v => nan v ∨ ∃ σ, num v.a = .inf σ ∧ num v.b = .inf σ) ∧
     canon sh (.fmul g d a b rm) (fun v => nan v ∨ (zero (num v.a) ∧ inf (num v.b)) ∨ (inf (num v.a) ∧ zero (num v.b))) ∧
     canon sh (.fdiv g d a b rm) (fun v => nan v ∨ (zero (num v.a) ∧ zero (num v.b)) ∨ (inf (num v.a) ∧ inf (num v.b))) ∧
     canon sh (.fmin g d a b) (fun v => (num v.a).isNan = true ∧ (num v.b).isNan = true) ∧
     canon sh (.fmax g d a b) (fun v => (num v.a).isNan = true ∧ (num v.b).isNan = true) ∧
     (∀ c, canon ⟨g, srcOp a false, srcbFp b, csrcOp c false, [(d, false)]⟩ (.ffma g d a b c rm) fun v =>
       nan v ∨ (num v.c).isNan = true) ∧
     (∀ i ∈ [Instr.frcp g d a rm, .frsq g d a, .fsqrt g d a rm, .fexp2 g d a, .flog2 g d a, .fsin g d a, .fcos g d a,
       .ftanh g d a, .frnd g d a rm], canon (shapeA g false d a) i fun v => (num v.a).isNan = true))

/-- 05 R105, R106; 06 R134, R135: packed arithmetic, dot products and conversions of codes. The register fmtN of a
conversion is the one that the thread sees (06 R120). -/
def Obligations.PackedResults : Prop :=
  ∀ (g : Guard) (d : BitVec 8) (a b : Src) (c : CSrc) (rm : Rm) (bf : Bool) (f : BitVec 4),
    let f16 := if bf then bf16 else fp16
    let num := fun (i : Nat) (v : Dword) => unpack f16 (uns false v / 65536 ^ i % 65536)
    let two := fun (r : Nat → Nat) => gives false d ((r 0 + 65536 * r 1 : Nat) : Int)
    let shAB : Shape := ⟨g, srcOp a false, srcOp b false, noOp, [(d, false)]⟩
    let shABC : Shape := ⟨g, srcOp a false, srcOp b false, csrcOp c false, [(d, false)]⟩
    Performs (.hadd2 g d a b rm bf) shAB (fun v => two fun i => roundTo f16 rm ((num i v.a).add rm (num i v.b))) ∧
    Performs (.hmul2 g d a b rm bf) shAB (fun v => two fun i => roundTo f16 rm ((num i v.a).mul (num i v.b))) ∧
    Performs (.hfma2 g d a b c rm bf) shABC (fun v => two fun i =>
      roundTo f16 rm (((num i v.a).mul (num i v.b)).add rm (num i v.c))) ∧
    Performs (.cvtB g d a b rm bf) shAB (fun v => two fun i =>
      roundTo f16 rm (unpack fp32 (uns false (if i = 0 then v.a else v.b)))) ∧
    (∀ half, Performs (.cvtBW g d a bf half) (shapeA g false d a) fun v =>
      gives false d (roundTo fp32 .rn (num (if half then 1 else 0) v.a))) ∧
    PerformsAt (.fdot4 g d a b c rm f) shABC (fun s h _ l v =>
      let code := fun (x : Dword) (j : Nat) => decodeFmt (fmtView s (threadOf h l) f.toNat) (uns false x / 256 ^ j % 256)
      gives false d (roundTo fp32 rm ((List.range 4).foldl (fun x j => x.add rm ((code v.a j).mul (code v.b j)))
        (unpack fp32 (uns false v.c))))) ∧
    (∀ satm slot, (∀ s : State, ∀ h tm ls, CanPerform s shABC h tm ls →
      (∀ l ∈ ls, slot.toNat * fmtField (fmtView s (threadOf h l) f.toNat) < 32) →
      Completes (.cvtN g d a b c rm satm f slot) s fun t => LanesGet s t shABC h tm ls fun l v =>
        gives false d (cvtN (fmtView s (threadOf h l) f.toNat) (uns false v.a) (uns false v.b) (uns false v.c) rm satm slot.toNat))) ∧
    (∀ slot, (∀ s : State, ∀ h tm ls, CanPerform s shAB h tm ls →
      (∀ l ∈ ls, slot.toNat * fmtField (fmtView s (threadOf h l) f.toNat) < 32) →
      Completes (.cvtW g d a b rm f slot) s fun t => LanesGet s t shAB h tm ls fun l v =>
        gives false d (cvtW (fmtView s (threadOf h l) f.toNat) (uns false v.a) (uns false v.b) rm slot.toNat)))

/-- 06 R120, R136: FMTSET writes the team's register outside deterministic mode, an unacceptable value is ILLEGAL with
the value as its address, and FMTGET reads the register as the thread sees it. -/
def Obligations.FormatRegisters : Prop :=
  (∀ s g (n : BitVec 4) (imm : Word) h tm l v, OneLane s (bare g) h tm l v → fmtAccepted imm = true → tm.detMode = false →
    exec (.fmtsetImm g n imm) s = .next (goesOn (s.modTeam h.team fun tm => { tm with fmts := tm.fmts.set n.toNat imm }) h l)) ∧
  (∀ s g (n : BitVec 4) (a : Src) h tm l v, OneLane s ⟨g, srcOp a false, noOp, noOp, []⟩ h tm l v →
    fmtAccepted (v.a.setWidth 32) = true → tm.detMode = false →
    exec (.fmtset g n a) s =
      .next (goesOn (s.modTeam h.team fun tm => { tm with fmts := tm.fmts.set n.toNat (v.a.setWidth 32) }) h l)) ∧
  (∀ s g (n : BitVec 4) (a : Src) h tm l v, OneLane s ⟨g, srcOp a false, noOp, noOp, []⟩ h tm l v →
    a.mod = .none → fmtAccepted (v.a.setWidth 32) = false →
    exec (.fmtset g n a) s = .next (endIssue (takeFault s (threadOf h l)
      { code := 0x01, faddr := (v.a.setWidth 32 : Word).setWidth 64 }) h [l])) ∧
  (∀ g d n, PerformsAt (.fmtget g d n) ⟨g, noOp, noOp, noOp, [(d, false)]⟩ fun s h _ l _ =>
    gives false d (fmtView s (threadOf h l) n.toNat).toNat)

/-- 05 R113: votes. c lanes of P have a true predicate, and P has n lanes. -/
def Obligations.Votes : Prop :=
  ∀ (g : Guard) (a : BitVec 3),
    let yes := fun (s : State) (h : HandKey) (p : List Nat) => p.filter (lanePred s h a)
    (∀ d, Crosses (.xlvoteAny g d a) ⟨g, noOp, noOp, noOp, []⟩ ownLane fun s h _ p _ u => writePred u d (0 < (yes s h p).length)) ∧
    (∀ d, Crosses (.xlvoteAll g d a) ⟨g, noOp, noOp, noOp, []⟩ ownLane fun s h _ p _ u =>
      writePred u d ((yes s h p).length = p.length)) ∧
    (∀ w d, Crosses (.xlvoteBallot g w d a) ⟨g, noOp, noOp, noOp, [(d, w)]⟩ ownLane fun s h _ p _ u =>
      gives w d (((yes s h p).map fun l => 2 ^ l).sum : Nat) u) ∧
    (∀ d, Crosses (.xlvoteCount g d a) ⟨g, noOp, noOp, noOp, [(d, false)]⟩ ownLane fun s h _ p _ u =>
      gives false d (yes s h p).length u)

/-- 05 R111, R112: gather, put and broadcast. 05 R109, R110: LANEL and LANER. Within a hand that is its own chain a
lane reads its neighbour, and at the end of the chain %edge; a neighbour that does not perform changes nothing. At the
end of a hand of a chained launch a lane reads the value that its neighbour in the next hand, or in the next team,
arrived with: of a team that has retired too, and each value once (both the model's reading, notes/assumptions/31.md).
-/
def Obligations.CrossLane : Prop :=
  (∀ (g : Guard) (w : Bool) (d : BitVec 8) (a b : CSrc),
     let sh2 : Shape := ⟨g, csrcOp a w, csrcOp b w, noOp, [(d, w)]⟩
     let sh1 : Shape := ⟨g, csrcOp a w, noOp, noOp, [(d, w)]⟩
     Crosses (.xlget g w d a b) sh2 (fun p _ y => if p.contains (index32 y) then some (index32 y) else none)
       (fun s h tm p l u =>
         let j := (laneB s h sh2 tm.w l).toNat % 2 ^ 32
         if j ∈ p then writeReg u d w (laneA s h sh2 tm.w j) else u) ∧
     Crosses (.xlput g w d a b) sh2 ownLane (fun s h tm p l u =>
       match (p.filter fun i => (laneB s h sh2 tm.w i).toNat % 2 ^ 32 = l).getLast? with
       | some i => writeReg u d w (laneA s h sh2 tm.w i)
       | none => u) ∧
     (∀ lane : BitVec 16, Crosses (.xlbcast g w d a lane) sh1
       (fun p _ _ => if p.contains lane.toNat then some lane.toNat else none)
       fun s h tm p _ u => if lane.toNat ∈ p then writeReg u d w (laneA s h sh1 tm.w lane.toNat) else u) ∧
     Crosses (.xlbcastLow g w d a) sh1 (fun p _ _ => p.head?) (fun s h tm p _ u =>
       match p.head? with
       | some i => writeReg u d w (laneA s h sh1 tm.w i)
       | none => u)) ∧
  (∀ (g : Guard) (w left : Bool) (d : BitVec 8) (a : CSrc),
     let i : Instr := if left then .lanel g w d a else .laner g w d a
     let sh : Shape := ⟨g, csrcOp a w, noOp, noOp, [(d, w)]⟩
     (∀ s h tm ls, CanCross s sh (fun p l _ => match handNeighbour tm.w l left with
         | some n => if p.contains n then some n else none
         | none => none) h tm ls → tm.chain = false →
       Completes i s fun t => CrossGet s t sh h tm ls fun l u =>
         if left ∧ l = 0 ∨ !left ∧ tm.w ≤ l + 1 then writeReg u d w (u.edge.setWidth 64)
         else if (if left then l - 1 else l + 1) ∈ performers s sh h tm.w ls then
           writeReg u d w (laneA s h sh tm.w (if left then l - 1 else l + 1))
         else u) ∧
     (∀ s h tm l n u x, CanCross s sh (fun _ _ _ => none) h tm [l] → performers s sh h tm.w [l] = [l] →
       (left ∧ l = 0 ∨ !left ∧ tm.w ≤ l + 1) → chainNeighbour s tm (threadOf h l) left = some n → s.lane h l = some u →
       farValue s tm n u.pc = some (.value x) →
       exec i s = .next (goesOn (takeArrival (s.modThread (threadOf h l) fun t => writeReg t d w x) tm n u.pc) h l)))

/-- 05 R114 to R116, 08 R178: reductions over the fixed tree, reductions by key, scans, and the grouping of equal
keys. -/
def Obligations.Reductions : Prop :=
  ∀ (g : Guard) (w : Bool) (d : BitVec 8) (a b : CSrc) (op : XOp),
    let sh2 : Shape := ⟨g, csrcOp a w, csrcOp b w, noOp, [(d, w)]⟩
    let sh1 : Shape := ⟨g, csrcOp a w, noOp, noOp, [(d, w)]⟩
    Crosses (.xlred g w d a op) sh1 ownLane (fun s h tm p _ u =>
      let xs := (List.range tm.w).map fun i => if i ∈ p then laneA s h sh1 tm.w i else identityOf op w
      writeReg u d w ((iter (pairUp (combine op w)) 6 xs).headD (identityOf op w))) ∧
    Crosses (.xlredKey g w d a b op) sh2 ownLane (fun s h tm p l u =>
      let same := p.filter fun i => laneB s h sh2 tm.w i = laneB s h sh2 tm.w l
      writeReg u d w (if same.head? = some l then
        (same.drop 1).foldl (fun acc i => combine op w acc (laneA s h sh2 tm.w i)) (laneA s h sh2 tm.w l)
        else identityOf op w)) ∧
    (∀ ex, Crosses (.xlscan g w d a op ex) sh1 ownLane fun s h tm p l u =>
      writeReg u d w ((p.filter fun i => if ex then decide (i < l) else decide (i ≤ l)).foldl
        (fun acc i => combine op w acc (laneA s h sh1 tm.w i)) (identityOf op w))) ∧
    (∀ (k : Src) (c : BitVec 3) (e : BitVec 8),
      let shK : Shape := ⟨g, srcOp k w, noOp, noOp, [(d, w), (e, w)]⟩
      Crosses (.confl g w d k c e) shK ownLane fun s h tm p l u =>
        let same := p.filter fun i => laneA s h shK tm.w i = laneA s h shK tm.w l
        writePred (writeReg (writeReg u d w (BitVec.ofNat 64 (same.headD l))) e w
          (BitVec.ofNat 64 (same.filter (· < l)).length)) c (same.headD l = l))

/-- 03 R49: MOV under a modifier gives each performing lane the register of its source lane; a source lane lies in its
lane's segment; a butterfly goes both ways; a rotate by a multiple of the segment's size, and a butterfly with mask 0,
read the thread's own lane. -/
def Obligations.SourceLanes : Prop :=
  (∀ g w d a, PerformsAt (.mov g w d a) (shapeA g w d a) fun s h tm l _ u => writeReg u d w
    (match s.lane h (srcLane a.mod tm.w l) with
      | some x => readReg x a.reg w
      | none => 0)) ∧
  (∀ (seg : BitVec 3) (k : BitVec 7) w l, let n := segSize seg w
    0 < n →
    srcLane (.rot seg k) w l / n = l / n ∧
    (((srcLane (.rot seg k) w l : Nat) : Int) - l - k.toInt) % n = 0 ∧
    (k.toNat < n → srcLane (.bcst seg k) w l / n = l / n ∧ srcLane (.bcst seg k) w l % n = k.toNat) ∧
    (k.toInt % n = 0 → srcLane (.rot seg k) w l = l) ∧ srcLane (.bfly seg 0) w l = l ∧
    ((∃ j, n = 2 ^ j) → k.toNat < n → srcLane (.bfly seg k) w (srcLane (.bfly seg k) w l) = l ∧
      srcLane (.bfly seg k) w l / n = l / n))

/-- 04 R76, R77: NOP does nothing but go on; BRA and JMP take each performing thread to its target. 04 R78: a BRP
whose rendezvous has formed takes all performing threads to its target, or none, by their votes. -/
def Obligations.Branches : Prop :=
  (∀ (g : Guard),
     Performs (.nop g) (bare g) (fun _ u => u) ∧ decodeTableWord 96 0 = some (.nop ⟨0, false⟩) ∧
     (∀ tslot disp s h tm ls (L : Nat → Line), CanPerform s (bare g) h tm ls →
       (∀ l ∈ performers s (bare g) h tm.w ls, Enters s tm.func (relTarget (pcOf s (threadOf h l)) tslot disp) (L l)) →
       Completes (.bra g tslot disp) s fun t => LanesBecome s t (bare g) h tm ls fun l _ u =>
         u.at (relTarget u.pc tslot disp) (L l)) ∧
     (∀ a s h tm ls (L : Nat → Line), CanPerform s ⟨g, csrcOp a true, noOp, noOp, []⟩ h tm ls →
       (∀ l ∈ performers s ⟨g, csrcOp a true, noOp, noOp, []⟩ h tm.w ls,
         Enters s tm.func ((csrcOp a true).value s h tm.w l) (L l)) →
       Completes (.jmp g a) s fun t => LanesBecome s t ⟨g, csrcOp a true, noOp, noOp, []⟩ h tm ls fun l v u =>
         u.at v.a (L l))) ∧
  (∀ (g : Guard) (a : BitVec 3) (tslot : BitVec 3) (disp : Word) (s : State) (h : HandKey) (tm : Team) (ls : List Nat)
     (pc : Dword) (L : Line),
     inFocus s = some (h, tm, ls) → allArrived s h ls = true → (∀ l ∈ ls, pcOf s (threadOf h l) = pc) →
     Enters s tm.func (relTarget pc tslot disp) L →
     let act := performing s h g ls
     let yes := (act.filter (lanePred s h a)).length
     let result := fun (take : Prop) (t : State) => OnlyLanes s t h ls ∧ ∀ l ∈ ls, ∀ u, s.lane h l = some u →
       (l ∈ act ∧ take → t.lane h l = some (u.at (relTarget pc tslot disp) L)) ∧
       (¬ (l ∈ act ∧ take) → t.lane h l = some u.past)
     Completes (.brpAny g a tslot disp) s (result (0 < yes)) ∧
     Completes (.brpAll g a tslot disp) s (result (yes = act.length)) ∧
     Completes (.brpNone g a tslot disp) s (result (yes = 0)))

/-- 04 R77, 07 R148: CALL and CALLR push the next sequential address and add 1 to the call depth; RET takes the thread
to the address that it pops and takes 1 off. -/
def Obligations.CallsAndReturns : Prop :=
  ∀ (g : Guard) (s : State) (h : HandKey) (tm : Team) (l : Nat) (u : Thread) (v : Vals) (L : Line),
    s.lane h l = some u →
    (∀ tslot disp, OneLane s (bare g) h tm l v → Enters s tm.func (relTarget u.pc tslot disp) L →
      8 * (u.depth + 1) ≤ stackSize tm → (stackPut s (threadOf h l) (frameAt tm u.depth) 8 (nextSeq u.pc).toNat).2 = true →
      exec (.call g tslot disp) s = .next (endIssue ((stackPut (s.modThread (threadOf h l) fun t =>
        t.at (relTarget u.pc tslot disp) L) (threadOf h l) (frameAt tm u.depth) 8 (nextSeq u.pc).toNat).1.modThread
        (threadOf h l) fun t => { t with depth := t.depth + 1 }) h [l])) ∧
    (∀ a, OneLane s ⟨g, csrcOp a true, noOp, noOp, []⟩ h tm l v → Enters s tm.func v.a L →
      8 * (u.depth + 1) ≤ stackSize tm → (stackPut s (threadOf h l) (frameAt tm u.depth) 8 (nextSeq u.pc).toNat).2 = true →
      exec (.callr g a) s = .next (endIssue ((stackPut (s.modThread (threadOf h l) fun t => t.at v.a L) (threadOf h l)
        (frameAt tm u.depth) 8 (nextSeq u.pc).toNat).1.modThread (threadOf h l) fun t => { t with depth := t.depth + 1 })
        h [l])) ∧
    (∀ s1 r, OneLane s (bare g) h tm l v → 0 < u.depth →
      stackGet s (threadOf h l) (frameAt tm (u.depth - 1)) 8 = (s1, some r) → Enters s1 tm.func (BitVec.ofNat 64 r) L →
      exec (.ret g) s = .next (endIssue ((s1.modThread (threadOf h l) fun t => t.at (BitVec.ofNat 64 r) L).modThread
        (threadOf h l) fun t => { t with depth := t.depth - 1 }) h [l]))

/-- 04 R79, R80: JTAB takes a thread to the address its table holds for its index, or to the default, with no other
access of its team on the way (notes/assumptions/120.md); JOIN makes threads arrive over a mask, which becomes their
%pmask once all have arrived. -/
def Obligations.TablesAndJoins : Prop :=
  (∀ g a b off s h tm l v n e L, OneLane s ⟨g, csrcOp a false, csrcOp b false, noOp, []⟩ h tm l v →
    bankSteps s h = [] → spLoad s (threadOf h l) tm (memAddr v.a off) 8 8 = .ok n →
    (v.b.toNat % 2 ^ 32 < n % 2 ^ 32 →
      spLoad s (threadOf h l) tm ((memAddr v.a off + 16 + 8 * (v.b.toNat % 2 ^ 32)) % 2 ^ 32) 8 8 = .ok e) →
    (n % 2 ^ 32 ≤ v.b.toNat % 2 ^ 32 → n.testBit 32 ∧
      spLoad s (threadOf h l) tm ((memAddr v.a off + 8) % 2 ^ 32) 8 8 = .ok e) →
    Enters s tm.func (BitVec.ofNat 64 e) L →
    exec (.jtab g a b off) s =
      .next (endIssue (s.modThread (threadOf h l) fun t => t.at (BitVec.ofNat 64 e) L) h [l])) ∧
  (∀ i sh g, (∃ imm, i = Instr.joinImm g imm ∧ sh = bare g) ∨
      (∃ w a, i = .joinReg g w a ∧ sh = ⟨g, csrcOp a w, noOp, noOp, []⟩) →
    ∀ s h tm ls, inFocus s = some (h, tm, ls) → allArrived s h ls = true →
    Completes i s fun t => OnlyLanes s t h ls ∧ ∀ l ∈ ls, ∀ u m, s.lane h l = some u → u.run = .rendezvous m →
      t.lane h l = some (Thread.past { u with pmask := m })) ∧
  (∀ g imm s h tm l v, OneLane s (bare g) h tm l v → allArrived s h [l] = false →
    exec (.joinImm g imm) s = .next (endIssue (checkMismatch
      (arriveLane s h (imm.signExtend 64 &&& BitVec.ofNat 64 (2 ^ tm.w - 1)) l) h) h [l])) ∧
  (∀ g w a s h tm l v, OneLane s ⟨g, csrcOp a w, noOp, noOp, []⟩ h tm l v → allArrived s h [l] = false →
    exec (.joinReg g w a) s = .next (endIssue (checkMismatch
      (arriveLane s h (v.a &&& BitVec.ofNat 64 (2 ^ tm.w - 1)) l) h) h [l]))

/-- 04 R71, R81, R82; 07 R162, R163: EXIT ends a thread, and TBAR, LBAR and YIELD make it wait and count it; a current
hand that rests then is current no more, and the checks of an opening follow. 07 R162: a team barrier opens once every
live thread has arrived and what the team has stored has settled: the phase changes, no thread counts as arrived, and
the threads that waited go on; nothing else of the team changes. -/
def Obligations.BarriersAndExits : Prop :=
  (∀ (g : Guard) (s : State) (h : HandKey) (tm : Team) (l : Nat) (u : Thread) (v : Vals),
     OneLane s (bare g) h tm l v → s.lane h l = some u → u.run = .ready →
     let k := threadOf h l
     let waits := fun (r : Run) (s' : State) =>
       openChecks (dropCurrent (checkMismatch (endIssue (s'.modThread k fun t => { t with run := r }) h [l]) h)) h.team
     exec (.tbar g) s = .next (waits .tbar (s.modTeam h.team fun tm => { tm with arr := tm.arr + 1 })) ∧
     exec (.yield g) s = .next (waits .yield (s.modTeam h.team fun tm => { tm with yarr := tm.yarr + 1 })) ∧
     exec (.lbar g) s = .next (waits .lbar
       { s with groups := amod (groupOf tm) (fun gr => { gr with arr := gr.arr + 1, lastArr := h.team.core % 8 }) s.groups }) ∧
     (tm.chain = false → exec (.exit g) s = .next (openChecks (endIssue
       (((s.modThread k fun t => { t with run := .exited, need := none, go := none, fenceAt := none, bwait := none, ask := none }).modTeam
         h.team fun tm => { tm with live := tm.live - 1 }).modHand h fun hd =>
         { hd with bundles := dropLanes hd.bundles (BitVec.twoPow 64 l) }) h [l]) h.team))) ∧
  (∀ (s : State) (id : TeamId) (tm : Team), aget id s.teams = some tm → tm.st = .running → tm.halted = false →
     tm.commit = 0 → tm.suspendAt = none → tm.live ≠ 0 → tm.detMode = false →
     (tm.arr = tm.live ∧ teamSettled s id = true →
       aget id (openTeam s id).teams = some { tm with arr := 0, phase := !tm.phase } ∧ (openTeam s id).mem = s.mem ∧
       ∀ k t, k.team = id → k.hand < tm.hands → k.lane < 64 → aget k s.threads = some t →
         (t.run = .tbar → ∃ t', aget k (openTeam s id).threads = some t' ∧ t'.run = .ready ∧ t'.pc = nextSeq t.pc ∧
           t'.regs = t.regs) ∧
         (t.run ≠ .tbar → aget k (openTeam s id).threads = some t)) ∧
     (tm.arr < tm.live → tm.yarr < tm.live → openTeam s id = s))

/-- 04 R83 to R85: WAITF goes on once its registers are full; BRK goes on where debugging is not enabled, and else
stops its thread with a breakpoint, from which a resume takes it to its next sequential address; TRAP raises TRAP with
its immediate as the address. 14 R323, R325; 20 R392: a fault stops its thread on the instruction at its pc; its
record goes to the fault domain of the thread's node with the thread's place; registers, predicates and full bits, and
all memory, stay. -/
def Obligations.TrapsAndFaults : Prop :=
  ((∀ g w a b c, Performs (.waitf g w a b c) ⟨g, .reg a w .none false, .reg b w .none false, .reg c w .none false, []⟩
     fun _ u => u) ∧
   (∀ g imm s h tm ls, CanPerform s (bare g) h tm ls → (s.func tm.func).debugEn = false →
     Completes (.brk g imm) s fun t => LanesGet s t (bare g) h tm ls fun _ _ u => u) ∧
   (∀ g imm s h tm l v, OneLane s (bare g) h tm l v → (s.func tm.func).debugEn = true →
     exec (.brk g imm) s = .next (endIssue ((s.modThread (threadOf h l) fun t => { t with run := .broken imm }).modTeam h.team
       fun tm => { tm with bpLog := tm.bpLog ++ [(h.hand, l, pcOf s (threadOf h l), imm)] }) h [l])) ∧
   (∀ k t imm s, aget k s.threads = some t → t.run = .broken imm →
     exec (.breakpointResume k) s = .next (wakeLanes (s.modThread k Thread.advance) (handOf k) [k.lane])) ∧
   (∀ g imm s h tm l v, OneLane s (bare g) h tm l v →
     exec (.trap g imm) s = .next (endIssue (takeFault s (threadOf h l) { code := 0x3F, faddr := imm.setWidth 64 }) h [l]))) ∧
  (∀ (s : State) (k : ThreadKey) (f : FaultInfo) (u : Thread) (tm : Team), aget k s.threads = some u →
     aget k.team s.teams = some tm →
     (∃ u', aget k (takeFault s k f).threads = some u' ∧ u'.run = .stopped f.code ∧ u'.pc = u.pc ∧ u'.regs = u.regs ∧
       u'.full = u.full ∧ u'.preds = u.preds ∧ u'.pmask = u.pmask ∧ u'.edge = u.edge ∧ u'.depth = u.depth) ∧
     (∀ j, j ≠ k → aget j (takeFault s k f).threads = aget j s.threads) ∧
     (takeFault s k f).mem = s.mem ∧
     (∃ r, (takeFault s k f).faults = { s.faults with raw := s.faults.raw ++ [r] } ∧ r.code = f.code ∧ r.wait = false ∧
       r.iaddr = u.pc ∧ r.faddr = f.faddr ∧ r.felem = f.felem ∧ r.acc = f.acc ∧ r.hand = k.hand ∧ r.lane = k.lane ∧
       r.core = k.team.core ∧ r.die = k.team.die ∧ r.team = tm.index ∧ r.wcb = tm.node ∧ r.func = tm.func ∧
       r.fq = tm.eff.fq ∧ r.msix = tm.eff.msix))

/-- 03 R50, R51; 04 R81; 05 R91: a value on its way to a thread arrives, whichever of those on their way it is, where
the thread's team is neither suspended nor halted (%time and %foldst as they are then, notes/assumptions/33.md): it is
written to its destination, which is full from then on; a producer that ended in a fault stops its thread at its own
instruction, with the destination left empty; an exited thread's is dropped. 03 R50, of ADD with two register sources
that no modifier moves: a thread whose source is empty and has its FE bit raises EMPTY_READ (0x05) and writes nothing;
without it, or with an empty destination, the thread waits at its instruction. -/
def Obligations.EmptyAndFull : Prop :=
  (∀ (s : State) (k : ThreadKey) (fl : Fill) (pre rest : List Fill) (t : Thread), s.fills = pre ++ fl :: rest → fl.thread = k →
     k.team.die ≠ 8 → (s.core (coreOf k.team)).halt = false →
     (∀ tm, aget k.team s.teams = some tm → tm.halted = false ∧ tm.debug = false) → aget k s.threads = some t →
     let n := (pre.filter fun f => f.thread = k).length
     let gone : State := { s with fills := pre ++ rest }
     (∀ v, t.run ≠ .exited → (fl.what = .value v ∨ (fl.what = .time ∧ v = BitVec.ofNat 64 s.fab.time) ∨
         (fl.what = .foldst ∧ v = foldStatus s k.team) ∨ (∃ keys, fl.what = .scratch keys ∧ s.mem.spPoison = [] ∧ s.holds = [] ∧
           (∀ x ∈ pre, handOf x.thread = handOf k → ∀ ks, x.what = .scratch ks → ∀ y ∈ ks, y ∉ keys) ∧
           v = BitVec.ofNat 64 (natOfBytes (keys.map fun x => memGet s.mem.sp x)))) →
       exec (.producerFill k n) s = .next (openChecks (gone.modThread k fun u =>
         setFull (writeReg u fl.dest fl.pair v) fl.dest fl.pair true) k.team)) ∧
     (∀ f, fl.what = .fault f → t.run = .ready ∨ t.run = .stalled ∨ (∃ l rs, t.run = .regs l rs) →
       exec (.producerFill k n) s = .next (openChecks (takeFault (gone.modThread k fun u =>
         { u with pc := fl.iaddr, line := none, run := .ready }) k f) k.team)) ∧
     (∀ v, fl.what = .value v → t.run = .exited → exec (.producerFill k n) s = .next (openChecks gone k.team))) ∧
  (∀ g w d (a b : Src) (s : State) (h : HandKey) (tm : Team) (l : Nat) (u : Thread), inFocus s = some (h, tm, [l]) →
     s.lane h l = some u → guardHolds u g = true → a.mod = .none → b.mod = .none →
     let ea := isFull u a.reg w = false
     let eb := isFull u b.reg w = false
     (ea ∧ a.fe = true ∨ eb ∧ b.fe = true → exec (.add g w d a (.reg b)) s =
       .next (endIssue (takeFault s (threadOf h l) { code := 0x05 }) h [l])) ∧
     (¬ (ea ∧ a.fe = true ∨ eb ∧ b.fe = true) → ea ∨ eb ∨ isFull u d w = false →
       exec (.add g w d a (.reg b)) s = .next (endIssue (stallThread s (threadOf h l)) h [l])))

/-- 05 R90, 14 R329: SRD reads each special register, %time and %foldst later, with the destination empty until then
(read at arrival, the model's reading: notes/assumptions/33.md); SWR writes %edge alone. -/
def Obligations.SpecialRegisters : Prop :=
  (∀ g w d sr s h tm ls hd, CanPerform s ⟨g, noOp, noOp, noOp, [(d, w)]⟩ h tm ls → aget h s.hands = some hd →
    tm.tx ≠ 0 → tm.ty ≠ 0 → sr ≠ .time → sr ≠ .foldst →
    Completes (.srd g w d sr) s fun t => LanesGet s t ⟨g, noOp, noOp, noOp, [(d, w)]⟩ h tm ls fun l _ u =>
      writeReg u d w (match sr with
        | .tid => BitVec.ofNat 64 (tm.w * h.hand + l)
        | .lane => BitVec.ofNat 64 l
        | .hand => BitVec.ofNat 64 h.hand
        | .teamX => BitVec.ofNat 64 (tm.index % tm.tx)
        | .teamY => BitVec.ofNat 64 (tm.index / tm.tx % tm.ty)
        | .teamZ => BitVec.ofNat 64 (tm.index / (tm.tx * tm.ty))
        | .width => BitVec.ofNat 64 tm.w
        | .core => BitVec.ofNat 64 h.team.core
        | .die => BitVec.ofNat 64 h.team.die
        | .quad => BitVec.ofNat 64 hd.quad
        | .pmask => u.pmask &&& BitVec.ofNat 64 (2 ^ tm.w - 1)
        | .edge => u.edge.setWidth 64
        | .stkbase => BitVec.ofNat 64 (stackBase tm ⟨h.team, h.hand, l⟩)
        | .stklim => BitVec.ofNat 64 (stackSize tm)
        | .detmode => BitVec.ofNat 64 tm.eff.det
        | .cycle => BitVec.ofNat 64 s.cycle
        | .time => 0
        | .foldst => 0)) ∧
  (∀ g w d s h tm l v, OneLane s ⟨g, noOp, noOp, noOp, [(d, w)]⟩ h tm l v →
    let later := fun what => goesOn (sendFill (s.modThread (threadOf h l) fun u => setFull u d w false) (threadOf h l) d w
      what (pcOf s (threadOf h l)) none) h l
    exec (.srd g w d .time) s = .next (later .time) ∧ exec (.srd g w d .foldst) s = .next (later .foldst)) ∧
  (∀ g a, Performs (.swr g a) ⟨g, srcOp a false, noOp, noOp, []⟩ fun v u => { u with edge := v.a.setWidth 32 })

/-- 07 R140, R144: LD gives each performing lane the bytes at its address, zero- or sign-extended, where its hand has
nothing on its way and no other access of its team can come between the lanes' reads (notes/assumptions/120.md). 13
R275: a load of the scratchpad gives what the latest store of its hand to the same bytes gives, though that store is
still queued. -/
def Obligations.ScratchpadLoads : Prop :=
  (∀ g d a sz sgn acq off s h tm ls hd, (sgn = true → sz ≠ .d) →
     let n := sizeBytes sz
     let sh : Shape := ⟨g, srcOp a false, noOp, noOp, [(d, n = 8)]⟩
     CanPerform s sh h tm ls → Calm s h hd → bankSteps s h = [] →
     (∀ l ∈ performers s sh h tm.w ls, let x := memAddr (laneA s h sh tm.w l) off
       Fits x n tm.scratch ∧ s.spPoisoned h.team tm x n = false) →
     Completes (.ld g d a sz sgn acq off .sp) s fun t => LanesGet s t sh h tm ls fun _ v u =>
       writeReg u d (n = 8) (loaded n sgn (s.spNat h.team tm (memAddr v.a off) n))) ∧
  (∀ (s : State) (k : ThreadKey) (tm : Team) (hd : Hand) (q : List Access) (e : Access) (x n v : Nat), s.memOk →
     aget (handOf k) s.hands = some hd → aget k.team s.teams = some tm → hd.storeQ = q ++ [e] → e.op = .spStore x n v →
     (∀ y ∈ hd.storeQ, y.acq = none ∧ ∃ a m z, y.op = .spStore a m z) → hd.detBuf = [] → s.holds = [] →
     (n = 1 ∨ n = 2 ∨ n = 4 ∨ n = 8) → Fits x n tm.scratch → tm.start % 64 = 0 → s.mem.spPoison = [] →
     spLoad s k tm x n n = .ok (v % 2 ^ (8 * n)))

/-- 07 R144, R146; 13 R274: ST puts its store into its hand's store queue with its release, and in deterministic mode
into the hand's store buffer; memory does not change yet. 07 R141, R144, R145: a bank performs the oldest access of a
hand: a store writes its bytes and no other, and an atomic writes its new value and gives the old one; a thread that
waits for it goes on. -/
def Obligations.ScratchpadStores : Prop :=
  (∀ g a b sz rel off s h tm l v hd, let n := sizeBytes sz
     let x := memAddr v.a off
     OneLane s ⟨g, srcOp a false, csrcOp b (n = 8), noOp, []⟩ h tm l v → aget h s.hands = some hd →
     Fits x n tm.scratch →
     (tm.detMode = false → acqPending s (threadOf h l) false = false →
       exec (.st g a b sz rel off .sp) s =
         .next (goesOn (queued s h l (.spStore x n (v.b.toNat % 2 ^ (8 * n))) rel none) h l)) ∧
     (tm.detMode = true → (hd.detBuf.filter fun e => e.lane = l).length + 1 ≤ 1024 / tm.w →
       exec (.st g a b sz rel off .sp) s = .next (goesOn (s.setHand h { hd with detBuf := hd.detBuf ++
         [⟨BitVec.ofNat 64 (v.b.toNat % 2 ^ (8 * n)), l, 0, 0, BitVec.ofNat 8 (2 ^ n - 1), x, pcOf s (threadOf h l)⟩] })
         h l))) ∧
  (∀ (s : State) (h : HandKey) (hd : Hand) (tm : Team) (e : Access), s.memOk → aget h s.hands = some hd →
     aget h.team s.teams = some tm → hd.storeQ = [e] → hd.fences = [] → e.rel = none → s.holds = [] → s.mem.spPoison = [] →
     tm.start % 64 = 0 → (s.core (coreOf h.team)).idle = false →
     let k := threadOf h e.lane
     (∀ x n v, e.op = .spStore x n v → n ≤ 64 → 0 < n → 64 % n = 0 → x % n = 0 →
       ∃ m, exec (.scratchpadBankAccept h) s = .next (openChecks { taken s h hd with mem := { s.mem with sp := m } } h.team) ∧
         Wrote s.mem.sp m (fun i => tm.spKey h.team (x + i)) n v ∧ memWf m = true) ∧
     (∀ x op w b c d u, e.op = .spAtom x op w b c d → x % (if w then 8 else 4) = 0 → aget k s.threads = some u →
       let n := if w then 8 else 4
       let old := BitVec.ofNat 64 (s.spNat h.team tm x n)
       ∃ m, Wrote s.mem.sp m (fun i => tm.spKey h.team (x + i)) n (atomWide op w old b c).toNat ∧ memWf m = true ∧
         let t := ({ taken s h hd with mem := { s.mem with sp := m } }).modThread k fun u => writeReg u d w old
         exec (.scratchpadBankAccept h) s = .next (openChecks
           (if d ≠ 0 ∧ u.run = .bank then wakeLanes (t.modThread k Thread.advance) h [e.lane] else t) h.team)))

/-- 07 R145, R146: SATOM queues its operation, with the value of vD for a CAS, and with a destination the thread waits
for its bank (the model's reading, notes/assumptions/38.md); in deterministic mode it gives the value its thread sees,
and buffers the operation. 07 R145, 08 R172: the new values of the atomic operations, on 32 bits or, under W64, on 64.
-/
def Obligations.ScratchpadAtomics : Prop :=
  (∀ g w d a b op off s h tm l v hd u, let n := if w then 8 else 4
     let x := memAddr v.a off
     let k := threadOf h l
     OneLane s ⟨g, srcOp a false, csrcOp b w, noOp, [(d, w)]⟩ h tm l v → aget h s.hands = some hd → s.lane h l = some u →
     Fits x n tm.scratch →
     (tm.detMode = false → acqPending s k false = false →
       let s1 := queued s h l (.spAtom x op w v.b (readReg u d w) d) none none
       exec (.satom g w d a b op off) s = .next (if d = 0 then goesOn s1 h l
         else endIssue (s1.modThread k fun u => { u with run := .bank }) h [l])) ∧
     (∀ old, tm.detMode = true → spLoad s k tm x n n = .ok old →
       let cas64 := w = true ∧ op = .cas
       let es : List DetEntry := (if cas64 then [⟨readReg u d w, l, 6, 0, 0xFF, x, u.pc⟩] else []) ++
         [⟨if w then v.b else (v.b.setWidth 32).setWidth 64 ||| (readReg u d w <<< 32), l, 2, op.code.toNat,
           if w then 0xFF else 0x0F, x, u.pc⟩]
       (hd.detBuf.filter fun e => e.lane = l).length + es.length ≤ 1024 / tm.w →
       exec (.satom g w d a b op off) s = .next (goesOn ((s.setHand h { hd with detBuf := hd.detBuf ++ es }).modThread k
         fun u => writeReg u d w (BitVec.ofNat 64 old)) h l))) ∧
  (∀ (w : Bool) (x y c : Dword),
     (uns w (atomWide .add w x y c) = (uns w x + uns w y) % 2 ^ widthN w) ∧
     (uns w (atomWide .min w x y c) = min (uns w x) (uns w y)) ∧
     (uns w (atomWide .max w x y c) = max (uns w x) (uns w y)) ∧
     (sgn w (atomWide .mins w x y c) = min (sgn w x) (sgn w y)) ∧
     (sgn w (atomWide .maxs w x y c) = max (sgn w x) (sgn w y)) ∧
     (uns w (atomWide .and w x y c) = uns w x &&& uns w y) ∧
     (uns w (atomWide .or w x y c) = uns w x ||| uns w y) ∧
     (uns w (atomWide .xor w x y c) = uns w x ^^^ uns w y) ∧
     (uns w (atomWide .xchg w x y c) = uns w y) ∧
     (uns w (atomWide .cas w x y c) = if uns w x = uns w c then uns w y else uns w x) ∧
     (uns w (atomWide .inc w x y c) = if uns w y ≤ uns w x then 0 else uns w x + 1) ∧
     (atomWide .fadd false x y c = BitVec.ofNat 64 (fpAdd fp32 .rn (uns false x) (uns false y) % 2 ^ 32)) ∧
     (atomWide .fmin false x y c = BitVec.ofNat 64 (fpMin fp32 (uns false x) (uns false y) % 2 ^ 32)) ∧
     (atomWide .fmax false x y c = BitVec.ofNat 64 (fpMax fp32 (uns false x) (uns false y) % 2 ^ 32)))

/-- 07 R148, R149: LD and ST of the lane stack act on the thread's area, through the hand's cache, where it holds the
lines; a load gives what was stored there. 07 R149: the stack engine fills a line that a thread has missed and, when
it needs room, writes dirty lines back, keeping what they hold; where a translation does not serve, the thread waits
for the dealer's answer, and a refusal faults it. -/
def Obligations.LaneStack : Prop :=
  ((∀ g d a sz sgn acq off s h tm l v s1 r, (sgn = true → sz ≠ .d) → let n := sizeBytes sz
     OneLane s ⟨g, srcOp a false, noOp, noOp, [(d, n = 8)]⟩ h tm l v → memAddr v.a off + n ≤ stackSize tm →
     stackGet s (threadOf h l) (memAddr v.a off) n = (s1, some r) →
     exec (.ld g d a sz sgn acq off .stk) s =
       .next (goesOn (s1.modThread (threadOf h l) fun u => writeReg u d (n = 8) (loaded n sgn r)) h l)) ∧
   (∀ g a b sz rel off s h tm l v s1, let n := sizeBytes sz
     OneLane s ⟨g, srcOp a false, csrcOp b (n = 8), noOp, []⟩ h tm l v → memAddr v.a off + n ≤ stackSize tm →
     stackPut s (threadOf h l) (memAddr v.a off) n (v.b.toNat % 2 ^ (8 * n)) = (s1, true) →
     exec (.st g a b sz rel off .stk) s = .next (goesOn s1 h l)) ∧
   (∀ (s : State) (k : ThreadKey) (a n v : Nat) (s1 : State), stackPut s k a n v = (s1, true) → (stackGet s1 k a n).2 = some (v % 2 ^ (8 * n)) ∧ s1.mem = s.mem) ∧
   (∀ (k : ThreadKey) (tm : Team) (a n acc : Nat), stackSize tm < a + n → stackCheck tm k a n acc =
     some { code := 0x0A, faddr := BitVec.ofNat 64 (stackBase tm k + a), acc := acc })) ∧
  ((∀ (s s1 : State) (k : ThreadKey) (t : Thread) (tm : Team) (h : Hand) a bs, aget k s.threads = some t →
     aget k.team s.teams = some tm → aget (handOf k) s.hands = some h → t.need = some (a, false) → h.stack.length < 256 →
     virtRead s tm.func ((stackBase tm k + 64 * (a / 64)) % 2 ^ 64) 64 .read (nodeFolded s tm.func tm.node) = .ok (s1, bs) →
     exec (.stackFill k) s = .next ((s1.modHand (handOf k) fun h => { h with
       stack := ⟨k.lane, a / 64, BitVec.ofNat 512 (natOfBytes bs), false⟩ :: h.stack }).modThread k fun t => { t with need := none })) ∧
   (∀ (s s1 : State) (h : HandKey) (hd : Hand) (tm : Team) l, aget h s.hands = some hd → aget h.team s.teams = some tm →
     needsRoom s h hd = true → hd.stack.reverse.find? (fun l => l.dirty) = some l →
     virtWrite s tm.func ((stackBase tm (threadOf h l.lane) + 64 * l.line) % 2 ^ 64) (bytesOfNat 64 l.data.toNat)
       (nodeFolded s tm.func tm.node) = .ok s1 →
     exec (.stackSpill h) s = .next (s1.modHand h fun hd => { hd with stack := hd.stack.map fun x =>
       if x.lane = l.lane && x.line = l.line then { x with dirty := false } else x })) ∧
   (∀ (s : State) (k : ThreadKey) (t : Thread) (tm : Team) a perm, aget k s.threads = some t →
     aget k.team s.teams = some tm → t.need = some (a, true) →
     (aget (handOf k) s.hands = none ∨ ∃ h, aget (handOf k) s.hands = some h ∧ cachedLine h k.lane (a / 64) = none) →
     (t.run = .stack →
       exec (.stackPageAnswer k true perm) s =
         .next (wakeLanes (s.modThread k fun t => { t with need := some (a, false) }) (handOf k) [k.lane])) ∧
     (t.run ≠ .exited → exec (.stackPageAnswer k false perm) s = .next (takeFault s k
       { code := if perm then 0x11 else 0x10, faddr := BitVec.ofNat 64 (stackBase tm k + a), acc := 1 }))))

/-- 07 R153, R154: TSET writes an EMPTY tile's entry and leaves its Q and STATE; TREADY makes a tile READY; TREL makes
a READY one EMPTY. In deterministic mode each, a TSET with its new entry, goes into the hand's store buffer (R156). 07
R155: TGET.E gives a tile's entry, whatever its state; TGET gives a word of a READY tile, of its own team at once, and
of a peer later, with the destination empty until then. -/
def Obligations.Tiles : Prop :=
  (∀ (g : Guard) (d : BitVec 6) (s : State) (h : HandKey) (tm : Team) (ls : List Nat) (l : Nat) (v : Vals),
     let c := coreOf h.team
     let e := tm.tiles.getD d.toNat 0
     let t := tileAt s c e
     (tm.detMode = false →
       (∀ a b lay el rows cols f, Leads s ⟨g, csrcOp a false, csrcOp b false, noOp, []⟩ h tm ls l v →
         let x := v.a.toNat % 2 ^ 32
         let y := v.b.toNat % 2 ^ 32
         x % 64 = 0 → y % 16 = 0 → x < tm.scratch → y < tm.scratch → tm.scratch ≤ 2097152 → t.state = 0 →
         tileHeld s ⟨h.team, e⟩ = false →
         exec (.tset g d a b lay el rows cols f) s = .next (allGoOn (setTile s c e
           ⟨y / 16, x / 64, cols.toNat, rows.toNat, f.toNat, el.toNat, lay.toNat, t.q, t.state⟩) h ls l)) ∧
       (Leads s (bare g) h tm ls l v → t.state = 0 ∨ t.state = 2 →
         exec (.tready g d) s = .next (allGoOn (setTile s c e { t with state := 2 }) h ls l)) ∧
       (Leads s (bare g) h tm ls l v → tileHeld s ⟨h.team, e⟩ = false →
         (t.state = 2 → exec (.trel g d) s = .next (allGoOn (setTile s c e { t with state := 0 }) h ls l)) ∧
         (t.state = 0 → t.q = false → exec (.trel g d) s = .next (allGoOn s h ls l)))) ∧
     (∀ hd, tm.detMode = true → aget h s.hands = some hd → (hd.detBuf.filter fun e => e.lane = l).length < 1024 / tm.w →
       let with_ := fun (op : Nat) (data : Dword) => s.setHand h
         { hd with detBuf := hd.detBuf ++ [⟨data, l, 7, op, 0, d.toNat, pcOf s (threadOf h l)⟩] }
       (Leads s (bare g) h tm ls l v → exec (.tready g d) s = .next (allGoOn (with_ 1 0) h ls l) ∧
         exec (.trel g d) s = .next (allGoOn (with_ 2 0) h ls l)) ∧
       (∀ a b lay el rows cols f, Leads s ⟨g, csrcOp a false, csrcOp b false, noOp, []⟩ h tm ls l v →
         let x := v.a.toNat % 2 ^ 32
         let y := v.b.toNat % 2 ^ 32
         x % 64 = 0 → y % 16 = 0 → x < tm.scratch → y < tm.scratch →
         exec (.tset g d a b lay el rows cols f) s = .next (allGoOn (with_ 0
           (Tile.toWord ⟨y / 16, x / 64, cols.toNat, rows.toNat, f.toNat, el.toNat, lay.toNat, false, 0⟩)) h ls l)))) ∧
  ((∀ g w d t, PerformsAt (.tgetE g w d t) ⟨g, noOp, noOp, noOp, [(d, w)]⟩ fun s h tm _ _ u =>
     writeReg u d w (tileWord s (coreOf h.team) (tm.tiles.getD t.toNat 0))) ∧
   (∀ g w d a t s h tm l v r ptm hd, OneLane s ⟨g, srcOp a false, noOp, noOp, [(d, w)]⟩ h tm l v →
     let n := if w then 8 else 4
     let off := v.a.toNat % 2 ^ 32
     tileRef s h.team tm t = some r → aget r.team s.teams = some ptm → trickTile s r = false → (r.tile s).state = 2 →
     off % n = 0 → off + n ≤ (r.tile s).footprint (tileFmt s r) (sparseCount s r.team ptm (r.tile s)) →
     (r.tile s).inBounds (tileFmt s r) (sparseCount s r.team ptm (r.tile s)) ptm.scratch = true → Calm s h hd →
     s.mem.spPoison = [] →
     let x := (r.tile s).base * 64 + off
     (r.team = h.team → x + n ≤ tm.scratch → exec (.tget g w d a t) s = .next (goesOn
       (s.modThread (threadOf h l) fun u => writeReg u d w (BitVec.ofNat 64 (s.spNat h.team tm x n))) h l)) ∧
     (r.team ≠ h.team → exec (.tget g w d a t) s = .next (goesOn ((sendFill (s.modThread (threadOf h l) fun u =>
       setFull u d w false) (threadOf h l) d w (.scratch ((List.range n).map fun i => ptm.spKey r.team (x + i)))
       (pcOf s (threadOf h l)) (some hd.seq)).modHand h fun hd => { hd with seq := hd.seq + 1 }) h l))))

/-- 07 R157, R159: BBINIT stores a barrier's 16 bytes: RELOAD and REM are its bytes, EXP its arrivals, and the rest 0.
07 R158: what arrivals and landed bytes make of a barrier: it opens when REM is 0 and ARR is EXP, flips PHASE, reloads
REM and clears ARR; too many set OVR. No other byte of memory changes, and, the model's choice
(notes/assumptions/37.md), none where the barrier is poisoned. -/
def Obligations.ByteBarriers : Prop :=
  (∀ (g : Guard) (off : BitVec 16) (s : State) (h : HandKey) (tm : Team) (l : Nat) (v : Vals),
     tm.detMode = false → acqPending s (threadOf h l) false = false →
     let x := memAddr v.a (off.setWidth 32 * 16)
     let init := fun bytes arrivals => goesOn (queued s h l (.spStore x 16 (bytes * 2 ^ 96 + bytes * 2 ^ 64 + arrivals)) none none) h l
     Fits x 16 tm.scratch →
     (∀ a b c hd, OneLane s ⟨g, srcOp a false, srcOp b false, csrcOp c false, []⟩ h tm l v → aget h s.hands = some hd →
       let bytes := v.b.toNat % 2 ^ 32
       let arrivals := v.c.toNat % 2 ^ 32
       arrivals ≤ 4096 → ¬ (bytes = 0 ∧ arrivals = 0) → exec (.bbinit g a b c off) s = .next (init bytes arrivals)) ∧
     (∀ a hd (bytes : BitVec 20) (arrivals : BitVec 12), OneLane s ⟨g, csrcOp a false, noOp, noOp, []⟩ h tm l v →
       aget h s.hands = some hd → ¬ (bytes = 0 ∧ arrivals = 0) →
       exec (.bbinitImm g a off bytes arrivals) s = .next (init bytes.toNat arrivals.toNat))) ∧
  (let check := fun b : Barrier =>
     if b.rem = 0 ∧ b.arr = b.exp then { b with phase := !b.phase, rem := b.reload, arr := 0 } else b
   (∀ b : Barrier, b.arrive = check (if b.arr = b.exp then { b with ovr := true } else { b with arr := b.arr + 1 })) ∧
   (∀ (b : Barrier) n, b.landed n = check (if b.rem < n then { b with ovr := true, rem := 0 } else { b with rem := b.rem - n })) ∧
   (∀ (s : State) (id : TeamId) (tm : Team) x n, s.memOk → aget id s.teams = some tm → id.die ≠ 8 → x % 16 = 0 → tm.start % 64 = 0 →
     let b := barrierOf (s.spNat id tm x 16)
     let t := landed s id x n
     (s.spPoisoned id tm x 16 = false → barrierOf (t.spNat id tm x 16) = b.landed n ∧
       ∀ y, (∀ i, i < 16 → y ≠ tm.spKey id (x + i)) → memGet t.mem.sp y = memGet s.mem.sp y) ∧
     (s.spPoisoned id tm x 16 = true → t.mem = s.mem)))

/-- 07 R160: BBARR makes its thread wait for its bank (the model's reading, notes/assumptions/38.md), which counts the
arrival and gives the thread a token of the phase before it; BBWAIT goes on once the phase is not its token's, or a
flip has come though a second one has put it back (notes/assumptions/39.md), and waits while it is. -/
def Obligations.BarrierWaits : Prop :=
  (∀ g a off s h tm l v hd, OneLane s ⟨g, srcOp a false, noOp, noOp, []⟩ h tm l v → aget h s.hands = some hd →
    Fits (memAddr v.a off) 16 tm.scratch → acqPending s (threadOf h l) false = false →
    exec (.bbarr g a off) s = .next (endIssue ((queued s h l (.spArrive (memAddr v.a off)) none none).modThread
      (threadOf h l) fun u => { u with run := .bank }) h [l])) ∧
  (∀ (s : State) (h : HandKey) (hd : Hand) (tm : Team) (e : Access) (x : Nat) (u : Thread), aget h s.hands = some hd →
    aget h.team s.teams = some tm → hd.storeQ = [e] → hd.fences = [] → e.op = .spArrive x → e.rel = none → s.holds = [] →
    (s.core (coreOf h.team)).idle = false →
    s.spPoisoned h.team tm x 16 = false → aget (threadOf h e.lane) s.threads = some u → u.run = .bank →
    exec (.scratchpadBankAccept h) s = .next (openChecks (wakeLanes (((updateBarrier (taken s h hd) h.team x
      Barrier.arrive).modThread (threadOf h e.lane) fun u => { u with token := some (x, (barrierOf (s.spNat h.team tm x
      16)).phase) }).modThread (threadOf h e.lane) Thread.advance) h [e.lane]) h.team)) ∧
  (∀ g a off s h tm l v hd u, OneLane s ⟨g, srcOp a false, noOp, noOp, []⟩ h tm l v → s.lane h l = some u →
    let x := memAddr v.a off
    Fits x 16 tm.scratch → Calm s h hd → s.mem.spPoison = [] →
    let ph := (barrierOf (s.spNat h.team tm x 16)).phase
    (u.bwait = some (x, none) ∨ u.bwait = some (x, some (!ph)) ∨ (u.bwait = none ∧ u.token = some (x, !ph)) →
      exec (.bbwait g a off) s = .next (goesOn (s.modThread (threadOf h l) fun u =>
        { u with bwait := none, token := u.token.filter fun y => y.1 ≠ x }) h l)) ∧
    ((srcOp a false).mod = .none → u.bwait = none → (∀ p, u.token = some (x, p) → p = ph) →
      exec (.bbwait g a off) s = .next (endIssue (s.modThread (threadOf h l) fun u =>
        { u with bwait := some (x, some ph), run := .blocked (.bbwait x ph) }) h [l])))

/-- 08 R166, R167, R173 to R177; 13 R274: the Commons instructions put their accesses into their hand's store queue;
the destinations of a CLD and of a CATOM with a result are empty from then on, and in deterministic mode a CST is
buffered. 08 R169, R171, R174 to R177: a bank of the Commons that its functions' shares allow to accept an access
performs it whole and counts it (which access comes first is open, notes/assumptions/121.md): a load's value goes to
its thread, a store writes its bytes and no other, and an atomic writes its new value, the old one going to its thread
if it has a destination. -/
def Obligations.Commons : Prop :=
  (∀ (g : Guard) (off : Word) (s : State) (h : HandKey) (tm : Team) (l : Nat) (v : Vals) (hd : Hand) (u : Thread),
     aget h s.hands = some hd → s.lane h l = some u →
     let x := memAddr v.a off
     let k := threadOf h l
     let inShare := fun n => bits x 31 29 = 0 ∧ bits x 25 0 + n ≤ cmLen (s.func tm.func) (bits x 28 26) ∧ x % n = 0
     let empty := fun (d : BitVec 8) pair (s : State) => s.modThread k fun u => setFull u d pair false
     (∀ d a sz sgn acq, let n := sizeBytes sz
       OneLane s ⟨g, srcOp a false, noOp, noOp, [(d, n = 8)]⟩ h tm l v → inShare n → acqPending s k false = false →
       exec (.cld g d a sz sgn acq off) s = .next (goesOn (empty d (n = 8) (queued s h l (.cmLoad x n sgn (n = 8) d
         (ownBytes s k x n) (ownClears s k x)) none (if tm.detMode then none else acq))) h l)) ∧
     (∀ a b sz rel, let n := sizeBytes sz
       OneLane s ⟨g, srcOp a false, csrcOp b (n = 8), noOp, []⟩ h tm l v → inShare n →
       (tm.detMode = false → acqPending s k false = false → exec (.cst g a b sz rel off) s =
         .next (goesOn (queued s h l (.cmStore x n (v.b.toNat % 2 ^ (8 * n))) rel none) h l)) ∧
       (tm.detMode = true → (hd.detBuf.filter fun e => e.lane = l).length + 1 ≤ 1024 / tm.w →
         exec (.cst g a b sz rel off) s = .next (goesOn (s.setHand h { hd with detBuf := hd.detBuf ++
           [⟨BitVec.ofNat 64 (v.b.toNat % 2 ^ (8 * n)), l, 1, 0, BitVec.ofNat 8 (2 ^ n - 1), x, u.pc⟩] }) h l))) ∧
     (tm.detMode = false → acqPending s k false = false →
       (∀ w d a b op ord, OneLane s ⟨g, srcOp a false, csrcOp b w, noOp, [(d, w)]⟩ h tm l v → inShare (if w then 8 else 4) →
         exec (.catom g w d a b op ord off) s = .next (goesOn (empty d w (queued s h l (.cmAtom x op w v.b (readReg u d w) d)
           (ordParts ord).1 (ordParts ord).2)) h l)) ∧
       (∀ w a b op, OneLane s ⟨g, srcOp a false, csrcOp b w, noOp, []⟩ h tm l v → inShare (if w then 8 else 4) →
         exec (.cred g w a b op off) s = .next (goesOn (queued s h l (.cmAtom x op w v.b 0 0) none none) h l)) ∧
       (∀ d a b ty, OneLane s ⟨g, srcOp a false, csrcOp b false, noOp, [(d, false)]⟩ h tm l v → inShare 4 →
         exec (.caxpy g d a b ty off) s = .next (goesOn (queued s h l (.cmAxpy x ty ((readReg u d false).setWidth 32)
           (v.b.setWidth 32)) none none) h l)))) ∧
  (∀ (s : State) (h : HandKey) (hd : Hand) (tm : Team) (e : Access), s.memOk → aget h s.hands = some hd →
     aget h.team s.teams = some tm → hd.storeQ = [e] → hd.fences = [] → e.rel = none → s.mem.cmPoison = [] →
     let k := threadOf h e.lane
     let f := s.func tm.func
     ∀ lane, cmLane s h 0 = some lane → cmFair s lane = true →
     let base := taken (cmCounted s lane) h hd
     let sent := fun (s : State) d w x => sendFill s k d w (.value x) e.iaddr (some e.seq)
     let writes := fun a n v (after : State → State) =>
       ∃ m, Wrote s.mem.cm m (fun i => cmKey f (a + i)) n v ∧ memWf m = true ∧
         exec (.commonsBankAccept h 0) s = .next (openChecks (after { base with mem := { s.mem with cm := m } }) h.team)
     (∀ a n sgn w d own cl, e.op = .cmLoad a n sgn w d own cl → (n = 1 ∨ n = 2 ∨ n = 4 ∨ (n = 8 ∧ sgn = false)) →
       own = List.replicate n none → exec (.commonsBankAccept h 0) s =
         .next (openChecks (sent base d w (loaded n sgn (natOfBytes (cmBytes s f a n)))) h.team)) ∧
     (∀ a n v, e.op = .cmStore a n v → (n = 1 ∨ n = 2 ∨ n = 4 ∨ n = 8) → a % n = 0 → writes a n v id) ∧
     (∀ a op w b c d, e.op = .cmAtom a op w b c d → a % (if w then 8 else 4) = 0 →
       let n := if w then 8 else 4
       let old := BitVec.ofNat 64 (natOfBytes (cmBytes s f a n))
       writes a n (atomWide op w old b c).toNat fun s => if d = 0 then s else sent s d w old) ∧
     (∀ a ty sc b, e.op = .cmAxpy a ty sc b → a % 4 = 0 →
       writes a 4 (axpyNew ty (BitVec.ofNat 32 (natOfBytes (cmBytes s f a 4))) sc b).toNat id))

/-- 13 R278, R279, R286, R287, R291: a fence goes on once what its hand issued before it is over: for FENCE and
FENCE.REL every access and request and, at PKG and SYS, every unit of the records it kicked; for FENCE.ACQ every load;
for FENCE.ENG every store. Until then its thread waits, and a FENCE.REL holds the later stores of its hand back. In
deterministic mode it goes on at once. -/
def Obligations.Fences : Prop :=
  ∀ (i : Instr) (g : Guard) (rel : Option Scope) (need : Access → Prop),
      (∃ sc, (i = .fence g sc ∧ rel = none ∨ i = .fenceRel g sc ∧ rel = some sc) ∧ need = fun _ => True) ∨
      (∃ sc, i = .fenceAcq g sc ∧ rel = none ∧ need = fun e => (∃ a n x w d o k, e.op = .cmLoad a n x w d o k) ∨
        ∃ a op w b c d, e.op = .cmAtom a op w b c d ∧ d ≠ 0) ∨
      (i = .fenceEng g ∧ rel = none ∧ need = fun e => ¬ ∃ a n x w d o k, e.op = .cmLoad a n x w d o k) →
    ∀ (s : State) (h : HandKey) (tm : Team) (l : Nat) (v : Vals) (hd : Hand) (u : Thread), OneLane s (bare g) h tm l v →
      aget h s.hands = some hd → s.lane h l = some u →
      (tm.detMode = true → exec i s = .next (goesOn s h l)) ∧
      (tm.detMode = false → let n := u.fenceAt.getD hd.seq
        ((∀ e ∈ hd.storeQ, need e → n ≤ e.seq) → hd.pend = [] →
          (∀ sc, i = .fence g sc ∨ i = .fenceRel g sc → sc = .pkg ∨ sc = .sys → kicksSettled s h n = true) →
          (∀ f ∈ s.fills, f.before h n = false) →
          exec i s = .next (goesOn ((dropFence s h n rel).modThread (threadOf h l) fun u => { u with fenceAt := none }) h l)) ∧
        ((∃ e ∈ hd.storeQ, need e ∧ e.seq < n) → u.run = .ready →
          exec i s = .next (endIssue ((noteFence s h n rel).modThread (threadOf h l)
            fun u => { u with fenceAt := some n, run := .stalled }) h [l])))

/-- 14 R330; 15 R353: PROBE gives what the translations say of a page, and 0 where they hold nothing; FOLDQ gives the
fold status, and FOLDQ.P whether a fold or a slice end is pending. In deterministic mode they raise DET_VIOLATION. -/
def Obligations.ProbesAndFoldQueries : Prop :=
  (∀ g d a s h tm ls, tm.detMode = false → CanPerform s ⟨g, srcOp a true, noOp, noOp, [(d, true)]⟩ h tm ls →
    Completes (.probe g d a) s fun t => LanesGet s t ⟨g, srcOp a true, noOp, noOp, [(d, true)]⟩ h tm ls fun _ v u =>
      writeReg u d true (BitVec.ofNat 64 (if canonical v.a then ((s.func tm.func).page v.a.toNat).elim 0
        (probeWord s tm.func) else 0))) ∧
  (∀ g d s h tm ls, tm.detMode = false → CanPerform s ⟨g, noOp, noOp, noOp, [(d, false)]⟩ h tm ls →
    Completes (.foldq g d) s fun t => LanesGet s t ⟨g, noOp, noOp, noOp, [(d, false)]⟩ h tm ls fun _ _ u =>
      writeReg u d false (foldStatus s h.team)) ∧
  (∀ g d s h tm ls, tm.detMode = false → CanPerform s (bare g) h tm ls →
    Completes (.foldqP g d) s fun t => LanesGet s t (bare g) h tm ls fun _ _ u =>
      writePred u d ((foldStatus s h.team).getLsbD 31 || (foldStatus s h.team).getLsbD 30)) ∧
  (∀ g d a i sh, (i = .probe g d a ∧ sh = ⟨g, srcOp a true, noOp, noOp, [(d, true)]⟩ ∧ (srcOp a true).mod = .none) ∨
      (i = .foldq g d ∧ sh = ⟨g, noOp, noOp, noOp, [(d, false)]⟩) ∨ (∃ p, i = .foldqP g p ∧ sh = bare g) →
    ∀ s h tm l v, tm.detMode = true → OneLane s sh h tm l v →
      exec i s = .next (endIssue (takeFault s (threadOf h l) { code := 0x0D }) h [l]))

/-- 09 R184, R193, R201, R202: KICK reads the head record and puts its chain into the queue of a channel of its own
quadrant, as long as fewer than four heads wait there; a record that the channel does not own makes an empty chain. 09
R203, R204: CHSTAT and CHWAIT read the status of a channel of the thread's quadrant, CHWAIT once none of its team's
chains is there; an idle channel's status says only how many records of the team ended incomplete. CHSTOP drops what
has not started, and CHSTOP.FREEZE and CHSTOP.THAW stop and resume starting records. 09 R205: WBIND binds the
descriptor at its address to the slot that it names, WUNBIND unbinds a slot, and WSTAT reads a slot's state. -/
def Obligations.Channels : Prop :=
  (∀ g d a off s h tm l v hd, OneLane s ⟨g, srcOp a false, noOp, noOp, []⟩ h tm l v → aget h s.hands = some hd →
     let x := memAddr v.a off
     let c : ChanId := ⟨⟨h.team.die, h.team.core, hd.quad⟩, d.toNat⟩
     Fits x 32 tm.scratch → s.spPoisoned h.team tm x 32 = false → recHeld s h.team tm x = false →
     ((s.chan c).heads.length < 4 →
       let r0 := Rec.read x (BitVec.ofNat 256 (s.spNat h.team tm x 32))
       let r := { r0 with bad := r0.malformed s h.team tm }
       let own := r0.own
       let s1 := (s.modChan c fun ch => { ch with queue := ch.queue ++ [.chain ⟨h.team, h.hand, hd.seq,
         wideAcquires s (threadOf h l), if own then [r] else [], if own then followOf r tm.scratch else none, false⟩] }).modHand h
         fun hd => { hd with seq := hd.seq + 1 }
       exec (.kick g d a off) s =
         .next (goesOn (if own ∧ r.fills ∧ r.bad = false then updateQ s1 h.team r.tileNo else s1) h l)) ∧
     (4 ≤ (s.chan c).heads.length → (srcOp a false).mod = .none → exec (.kick g d a off) s = .next (endIssue
       (s.modThread (threadOf h l) fun u => { u with run := .blocked (.kick d.toNat) }) h [l]))) ∧
  ((∀ (g : Guard) (d : BitVec 8) (ch : BitVec 2) (s : State) (h : HandKey) (tm : Team) (ls : List Nat) (hd : Hand),
     let sh : Shape := ⟨g, noOp, noOp, noOp, [(d, false)]⟩
     let c : ChanId := ⟨⟨h.team.die, h.team.core, hd.quad⟩, ch.toNat⟩
     CanPerform s sh h tm ls → aget h s.hands = some hd →
     let reads := fun t => LanesGet s t sh h tm ls fun _ _ u => writeReg u d false (BitVec.ofNat 64 (chanStatus s c h.team))
     (tm.detMode = false → Completes (.chstat g d ch) s reads) ∧
     ((s.chan c).jobs = [] →
       chanStatus s c h.team = (if h.team ∈ (s.chan c).frozen then 2 ^ 30 else 0) +
         min 1023 (agetD h.team 0 (s.chan c).incomp) * 2 ^ 16 ∧ Completes (.chwait g d ch) s reads)) ∧
   (∀ (g : Guard) (ch : BitVec 2) (s : State) (h : HandKey) (tm : Team) (l : Nat) (v : Vals) (hd : Hand),
     let c : ChanId := ⟨⟨h.team.die, h.team.core, hd.quad⟩, ch.toNat⟩
     OneLane s (bare g) h tm l v → aget h s.hands = some hd →
     (∃ t, exec (.chstop g ch) s = .next (goesOn t h l) ∧ t.threads = s.threads ∧ t.mem = s.mem ∧
       (∀ b, b ≠ c → t.chan b = s.chan b) ∧
       (t.chan c).queue = (s.chan c).queue.filter (fun j => !(j.isChain && j.team = h.team)) ∧
       (t.chan c).frozen = (s.chan c).frozen ∧
       (∀ x, (s.chan c).run = some (.chain x) → x.team = h.team → (t.chan c).run =
         if x.recs.filter (·.started) = [] then none
         else some (.chain { x with stopped := true, recs := x.recs.filter (·.started) }))) ∧
     exec (.chstopFreeze g ch) s = .next (goesOn (s.modChan c fun ch =>
       { ch with frozen := if h.team ∈ ch.frozen then ch.frozen else ch.frozen ++ [h.team] }) h l) ∧
     exec (.chstopThaw g ch) s = .next (goesOn (s.modChan c fun ch =>
       { ch with frozen := ch.frozen.filter fun x => x ≠ h.team }) h l))) ∧
  ((∀ g a off s h tm l v, OneLane s ⟨g, srcOp a false, noOp, noOp, []⟩ h tm l v →
     let x := memAddr v.a off
     let w := BitVec.ofNat 256 (s.spNat h.team tm x 32)
     Fits x 32 tm.scratch → heldRange s h.team x 32 true = false → s.spPoisoned h.team tm x 32 = false →
     windowPoison s h.team tm w = none → windowBad s h.team tm w = false → slotBusy s h.team (wSlot w) = false →
     exec (.wbind g a off) s = .next (goesOn (s.modTeam h.team fun tm =>
       { tm with windows := tm.windows.set (wSlot w) (some w) }) h l)) ∧
   (∀ g (n : BitVec 3) s h tm l v, OneLane s (bare g) h tm l v → slotBusy s h.team n.toNat = false →
     exec (.wunbind g n) s = .next (goesOn (s.modTeam h.team fun tm =>
       { tm with windows := tm.windows.set n.toNat none }) h l)) ∧
   (∀ g d (n : BitVec 3) s h tm ls, CanPerform s ⟨g, noOp, noOp, noOp, [(d, false)]⟩ h tm ls → tm.detMode = false →
     Completes (.wstat g d n) s fun t => LanesGet s t ⟨g, noOp, noOp, noOp, [(d, false)]⟩ h tm ls fun _ _ u =>
       writeReg u d false (BitVec.ofNat 64 (match tm.windows.getD n.toNat none with
         | some w => 2 ^ 31 + (if slotBusy s h.team n.toNat then 2 ^ 30 else 0) + wCount w % 2 ^ 15
         | none => 0))))

/-- 09 R184, R185, R187, R190 to R196; 10 R207, R214: a free channel takes the next chain of its queue; a bulk record
starts with one unit for each aligned piece of 64 bytes, and a malformed one reports COPY_FORMAT; units of a copy in
are issued in order, and settle once with their bytes written and counted; waiting units are replayed; the elements of
a reducing unit are combined with what is there, together, as one access of its controller (the model's reading,
notes/assumptions/47.md); the word 0 of a record whose units are complete is rewritten without OWN and with STATUS 0;
a ring receives its entry before its TAIL. -/
def Obligations.CopyEngine : Prop :=
  (∀ (s : State) (c : ChanId) (x : Chain) rest, (s.chan c).run = none → (s.chan c).back = [] →
    (s.chan c).queue = .chain x :: rest → x.recs ≠ [] →
    mayStart s c x.team = true →
    exec (.copyRecordAccept c) s = .next (s.modChan c fun ch => { ch with run := some (.chain x), queue := rest })) ∧
  (∀ (s : State) (c : ChanId) (x : Chain) (tm : Team) (off : Nat) (w : BitVec 256) rest,
    (s.chan c).run = some (.chain x) → aget x.team s.teams = some tm → mayStart s c x.team = true →
    x.recs = Rec.read off w :: rest → (Rec.read off w).kind = 0 → (Rec.read off w).tdst = false →
    (Rec.read off w).trel = false → windowFor tm (Rec.read off w).va (Rec.read off w).len = none →
    (Rec.read off w).spoff + (Rec.read off w).len ≤ tm.scratch → (Rec.read off w).len ≤ 1048512 →
    exec (.copyRecordStart c 0) s = .next (s.modChan c fun ch => { ch with run := some (.chain { x with
      recs := { Rec.read off w with started := true, units := pieceCount (Rec.read off w).va (Rec.read off w).len } :: rest }) })) ∧
  (∀ (s : State) (c : ChanId) (x : Chain) (tm : Team) (r : Rec) rest, (s.chan c).run = some (.chain x) →
    aget x.team s.teams = some tm → mayStart s c x.team = true → x.recs = r :: rest → r.started = false → r.bad = true →
    r.fills = false →
    exec (.copyRecordStart c 0) s = .next (chanFault (s.modChan c fun ch => { ch with run := some (.chain { x with
      recs := { r with started := true, units := 0 } :: rest }) }) c x.team r.off { code := 0x1B } false 0)) ∧
  (∀ (s : State) (c : ChanId) (x : Chain) (tm : Team) (r : Rec) rest loc d, (s.chan c).run = some (.chain x) →
    aget x.team s.teams = some tm → x.recs = r :: rest → r.kind = 0 → r.out = false → r.slot = none →
    translate s tm.func (r.unitVa r.issued) .read = .dram loc d → (r.span r.issued).len ≠ 0 →
    (r.unitVa r.issued) % 64 + (r.span r.issued).len ≤ 64 →
    let len := (r.span r.issued).len
    let sent := countLines (({ s with nextId := s.nextId + 1 } : State).modPch (pchOf loc) fun p => { p with reqs := p.reqs ++
      [⟨s.nextId, loc, len, none, d, s.cycle, (tm.func, tm.node), some c, r.unitVa r.issued, none, []⟩] }) tm.func (r.unitVa r.issued) len false
    let sets := fun (r' : Rec) => setChain sent c { x with recs := { r' with asked := adel r.issued r.asked } :: rest }
    (mayIssue s x 0 r = true → r.waiting = [] → r.mask = 0 → aget s.nextId s.answers = none →
      exec (.copyUnitSettle c 0 r.issued 1) s =
        .next (sets { r with issued := r.issued + 1, reqs := aset r.issued [s.nextId] r.reqs })) ∧
    (r.waiting = [r.issued] →
      exec (.copyUnitReplay c 0) s = .next (sets { r with reqs := aset r.issued [s.nextId] r.reqs, waiting := [] }))) ∧
  (∀ (s : State) (c : ChanId) (x : Chain) (tm : Team) (r : Rec) rest u ids as, (s.chan c).run = some (.chain x) →
    aget x.team s.teams = some tm → x.recs = r :: rest → r.kind = 0 → r.out = false → r.rel = false → u < r.issued →
    bit r.mask u = false → bit r.gone u = false → u ∉ r.waiting → aget u r.reqs = some ids → repliesOf s ids = some as →
    as.findSome? (·.fault) = none → s.holds = [] → s.mem.spPoison = [] →
    let r1 := { r with
      mask := r.mask ||| 2 ^ u, waiting := r.waiting.filter (· ≠ u), asked := adel u r.asked, reqs := adel u r.reqs }
    let done := setChain ((dropAnswers s ids).spWrite x.team tm (r.spBase + (r.span u).off) (as.flatMap (·.data))) c
      { x with recs := r1 :: rest }
    exec (.copyUnitSettle c 0 u 0) s = .next (if r.cpl = 0 then landed done x.team r.cploff (r.span u).len else done)) ∧
  (∀ (s : State) (c : ChanId) (x : Chain) (r : Rec) rest u id p n, (s.chan c).run = some (.chain x) → x.recs = r :: rest →
    r.kind = 3 → aget u r.reqs = some [id] → aget id s.answers = none → (∀ f ∈ s.forwards, f.id ≠ id) →
    s.pchs.findSome? (fun e => (e.2.reqs.findIdx? (·.id = id)).map fun n => (e.1, n)) = some (p, n) →
    exec (.reducingElementApply c 0 u) s = exec (.ordinaryRequestServe ⟨p, n⟩) s) ∧
  (∀ rop (old val : List Byte) k, old.length = 4 * k → val.length = 4 * k →
    let new := combineBytes rop old val
    let word := fun (bs : List Byte) j => BitVec.ofNat 32 (natOfBytes ((bs.drop (4 * j)).take 4))
    new.length = 4 * k ∧ ∀ j, j < k → let o := word old j; let v := word val j; let w := word new j
      (rop = 0 → w = BitVec.ofNat 32 (fpAdd fp32 .rn o.toNat v.toNat)) ∧
      (rop = 1 → ∀ i, i < 2 → w.extractLsb' (16 * i) 16 =
        BitVec.ofNat 16 (fpAdd bf16 .rn (o.extractLsb' (16 * i) 16).toNat (v.extractLsb' (16 * i) 16).toNat)) ∧
      (rop = 2 → w = o + v) ∧ (rop = 3 → w = BitVec.ofNat 32 (fpMin fp32 o.toNat v.toNat)) ∧
      (rop = 4 → w = BitVec.ofNat 32 (fpMax fp32 o.toNat v.toNat)) ∧
      (rop = 5 → w.toInt = min o.toInt v.toInt) ∧ (rop = 6 → w.toInt = max o.toInt v.toInt)) ∧
  (∀ (s : State) (c : ChanId) (x : Chain) (tm : Team) (r : Rec) rest, (s.chan c).run = some (.chain x) →
    aget x.team s.teams = some tm → x.recs = r :: rest →
    let left := { x with recs := rest }
    let ends := fun (t : State) => if rest = [] ∧ (x.next = none ∨ x.stopped = true) then
      (setChain t c left).modChan c (fun ch => { ch with run := none }) else setChain t c left
    (r.allSettled = true → r.ring = false → s.holds = [] → r.bad = false → r.tdst = false → r.rel = false → r.gone = 0 →
      let done := s.spWrite x.team tm r.off (bytesOfNat 4 (r.field 31 22 * 2 ^ 22 + r.field 19 9 * 2 ^ 9 + r.field 7 0))
      (r.cpl ≠ 2 → exec (.copyEndActions c) s = .next (ends done)) ∧
      (r.cpl = 2 → ringOk done x.team tm r = true →
        exec (.copyEndActions c) s = .next (setChain done c { x with recs := { r with ring := true } :: rest }))) ∧
    (r.ring = true →
      let g := ringOf s x.team tm r.cploff
      let a := g.base + 16 * (g.tail % g.n)
      s.holds = [] → s.mem.spPoison = [] → g.n ≠ 0 → a + 16 ≤ tm.scratch → (g.tail + 2 ^ 32 - g.head) % 2 ^ 32 ≠ g.n →
      exec (.completionRingWrite c) s = .next (ends ((s.spWrite x.team tm a (bytesOfNat 16 (ringEntry c r))).spWrite x.team tm
        (r.cploff + 8) (bytesOfNat 4 ((g.tail + 1) % 2 ^ 32)))))) ∧
  (∀ (s : State) (q : QuadId) id rest, (s.mat q).owner = none → (s.mat q).wait = id :: rest →
    ∃ t, exec (.matrixOwnershipGrant q) s = .next t ∧ t.mem = s.mem ∧ t.threads = s.threads ∧ (t.mat q).owner = some id ∧
      (t.mat q).wait = rest.filter (· ≠ id) ∧ (t.mat q).jobs = (s.mat q).jobs ∧
      (t.mat q).accs = (match aget id s.teams with
        | some tm => agetD (tm.quads.idxOf q.quad) [] tm.accs
        | none => [])) ∧
  (∀ (s : State) (q : QuadId) (j : MatJob) rest, (s.mat q).jobs = j :: rest → j.fault = none →
    let s1 := { s.modMat q fun m => { m with jobs := rest } with holds := s.holds.filter fun h => h.1 ≠ j.num }
    exec (.matrixInstructionDone q 0) s = .next (match j.dst with
      | some (id, e) => if trickTile s ⟨id, e⟩ then s1 else setTileState s1 (coreOf id) e 2
      | none => s1))

/-- 10 R217, R218: an MMA of any form whose operands have its shapes, layouts and formats makes its accumulator's
elements the old ones plus the products, in groups of 32, rounded or saturated after each; the others stay. -/
def Obligations.MatrixProducts : Prop :=
  ∀ (i : Instr) (g : Guard) (d : BitVec 2) (na nb : TileName) (la lb : Nat),
    (i = .mmaIp g d na nb ∧ la = 0 ∧ lb = 0) ∨ (i = .mmaOp g d na nb ∧ la = 0 ∧ lb = 0) ∨
      (i = .mmaRw g d na nb ∧ la = 1 ∧ lb = 0) ∨ (i = .mmaOpSk g d na nb ∧ la = 0 ∧ lb = 2) ∨
      (i = .mmaRwSp g d na nb ∧ la = 1 ∧ lb = 1) →
    ∀ (s : State) (h : HandKey) (tm : Team) (ls : List Nat) (l : Nat) (v : Vals) (q : QuadId) (a b : MOp),
      MatrixReady s (bare g) h tm ls l v q → mop s h.team tm na = some a → mop s h.team tm nb = some b →
      MayRead s a → MayRead s b →
      b.rows = a.cols → a.tile.layout = la → b.tile.layout = lb → a.noFormat = false → b.noFormat = false →
      (a.scaled = true ∨ b.scaled = true → a.cols % 32 = 0) →
      let int := a.isInt = true ∧ b.isInt = true
      let old := accOf s q d.toNat
      (int → old.tag ≠ 1) → (¬ int → old.tag ≠ 2) →
      ∃ t, exec i s = .next (allGoOn t h ls l) ∧ MatrixIssued s t h l q none (some d.toNat) ∧ t.mem = s.mem ∧
        let new := accOf t q d.toNat
        (new.tag = if int then 2 else 1) ∧
        ∀ r c, r < 64 → c < 64 →
          (¬ (r < a.rows ∧ c < b.cols) → new.get r c = old.get r c) ∧
          (r < a.rows → c < b.cols →
            (int → a.cols ≤ 32 → new.get r c = sat36 ((old.get r c).toInt +
              ((List.range a.cols).map fun k => a.int s r k * b.int s k c).sum)) ∧
            (int → new.get r c = mmaInt (a.int s) (b.int s) a.cols r c (old.get r c)) ∧
            (¬ int → new.get r c = mmaFloat (a.elem s) (b.elem s) a.cols r c (old.get r c)))

/-- 10 R221, R222, R224: ACZERO clears an accumulator and its tag, ACLOAD takes a dense tile's values, and ACLOAD.RAW
the low 36 bits of 4,096 words; ACGET sends an element's value to its thread, and ACGET.RAW its bits with the tag. -/
def Obligations.AccumulatorReadsAndLoads : Prop :=
  (∀ (g : Guard) (d : BitVec 2) (s : State) (h : HandKey) (tm : Team) (ls : List Nat) (l : Nat) (v : Vals) (q : QuadId),
    let n := d.toNat
    let loads := fun i (tag : Nat) (e : Nat → Nat → BitVec 36) => ∃ t, exec i s = .next (allGoOn t h ls l) ∧
      MatrixIssued s t h l q none (some n) ∧ t.mem = s.mem ∧ (accOf t q n).tag = tag ∧
      ∀ r c, r < 64 → c < 64 → (accOf t q n).get r c = e r c
    (MatrixReady s (bare g) h tm ls l v q → loads (.aczero g d) 0 fun _ _ => 0) ∧
    (∀ a o, MatrixReady s (bare g) h tm ls l v q → mop s h.team tm (.loc a) = some o → MayRead s o → o.tile.layout = 0 →
      o.noFormat = false → loads (.acload g d a) (if o.isInt then 2 else 1) fun r c =>
        if r < o.rows ∧ c < o.cols then
          if o.isInt then BitVec.ofInt 36 (o.int s r c) else BitVec.ofNat 36 (roundTo f36 .rn (o.value s r c))
        else 0) ∧
    (∀ a, MatrixReady s ⟨g, csrcOp a false, noOp, noOp, []⟩ h tm ls l v q → let x := v.a.toNat % 2 ^ 32
      x % 64 = 0 → x + 32768 ≤ tm.scratch →
      let e := fun r c => BitVec.ofNat 36 (s.spNat h.team tm (x + 8 * (64 * r + c)) 8)
      loads (.acloadRawF g d a) 1 e ∧ loads (.acloadRawI g d a) 2 e)) ∧
  (∀ (g : Guard) (d : BitVec 8) (a b : Src) (n : BitVec 2) (s : State) (h : HandKey) (tm : Team) (l : Nat) (v : Vals),
    let k := threadOf h l
    let acc := accOf s (quadOf s k) n.toNat
    let x := acc.get (v.a.toNat % 2 ^ 32) (v.b.toNat % 2 ^ 32)
    v.a.toNat % 2 ^ 32 < 64 → v.b.toNat % 2 ^ 32 < 64 → tm.detMode = false → (s.mat (quadOf s k)).owner = some h.team →
    let sends := fun pair (y : Nat) => goesOn (sendFill (s.modThread k fun u => setFull u d pair false) k d pair
      (.value (BitVec.ofNat 64 y)) (pcOf s k) none) h l
    (OneLane s ⟨g, srcOp a false, srcOp b false, noOp, [(d, false)]⟩ h tm l v →
      exec (.acget g d a b n) s = .next (sends false (acgetValue acc.tag x))) ∧
    (OneLane s ⟨g, srcOp a false, srcOp b false, noOp, [(d, true)]⟩ h tm l v →
      exec (.acgetRaw g d a b n) s = .next (sends true (acc.tag * 2 ^ 40 + x.toNat))))

/-- 10 R223, R225 to R227: ACSTORE writes an accumulator into an EMPTY dense tile, ACSTORE.RAW into 4,096 words; DELTA
writes the differences above its threshold and moves those elements of its B; SPCOMP compresses a tile; TXPOSE
transposes one. -/
def Obligations.MatrixStores : Prop :=
  ∀ (g : Guard) (s : State) (h : HandKey) (tm : Team) (ls : List Nat) (l : Nat) (v : Vals) (q : QuadId),
    let stores := fun i (dst : Option MOp) (m : State) => ∃ t, exec i s = .next (allGoOn t h ls l) ∧
      MatrixIssued s t h l q dst none ∧ t.mem = m.mem
    (∀ d a rm satm o, MatrixReady s (bare g) h tm ls l v q → mop s h.team tm (.loc d) = some o → MayFill s o →
      o.tile.layout = 0 → o.noFormat = false → stores (.acstore g d a rm satm) (some o)
        (storeAcc s o rm (match satm with
          | .reg => fmtSat o.fmt
          | .sat => true
          | .wrap => false) (accOf s q a.toNat))) ∧
    (∀ a n, MatrixReady s ⟨g, csrcOp a false, noOp, noOp, []⟩ h tm ls l v q → let x := v.a.toNat % 2 ^ 32
      x % 64 = 0 → x + 32768 ≤ tm.scratch → stores (.acstoreRaw g a n) none (s.spWrite h.team tm x
        ((List.range 4096).flatMap fun e => bytesOfNat 8 ((accOf s q n.toNat).get (e / 64) (e % 64)).toNat))) ∧
    (∀ d a b c x y z, MatrixReady s ⟨g, noOp, noOp, csrcOp c false, []⟩ h tm ls l v q → mop s h.team tm (.loc a) = some x →
      mop s h.team tm (.loc b) = some y → mop s h.team tm (.loc d) = some z → MayRead s x → MayRead s y → MayFill s z →
      deltaShape x y z = false →
      let diff := fun i j => (x.value s i j).add .rn (y.value s i j).neg
      let moves := fun i j => aboveTheta (diff i j) (unpack fp32 (v.c.toNat % 2 ^ 32))
      let code := fun i j => if moves i j then encDelta z (diff i j) else 0
      let live := (List.range z.rows).foldl (fun m i =>
        if (List.range z.cols).any fun j => !isPlusZero (z.decode (z.mask (code i j))) then m + 2 ^ i else m) 0
      stores (.delta g d a b c) (some z) (writeRows ((writeRows s y fun i j =>
        if moves i j then x.dense s i j else y.dense s i j).spWrite z.ref.team z.tm z.base (bytesOfNat 64 live)) z code)) ∧
    (∀ d a x z, MatrixReady s (bare g) h tm ls l v q → mop s h.team tm (.loc a) = some x → mop s h.team tm (.loc d) = some z →
      MayRead s x → (z.ref.tile s).state = 0 → trickTile s z.ref = false →
      (x.tile.layout = 0 → z.tile.layout = 1 → sameShape x z = true → sameElem x z = true → x.noFormat = false →
        z.noFormat = false → z.scaled = false → z.base + (sparseBytes s x).length ≤ z.tm.scratch →
        stores (.spcomp g d a) (some z) (s.spWrite z.ref.team z.tm z.base (sparseBytes s x))) ∧
      (x.tile.layout = 0 → z.tile.layout = 0 → z.tile.nrow = x.tile.ncol → z.tile.ncol = x.tile.nrow →
        sameElem x z = true → x.noFormat = false → z.noFormat = false → x.scaled = false → z.scaled = false →
        z.outside 0 = false →
        stores (.txpose g d a) (some z) (writeRows s z fun i j => x.dense s j i)))

/-- 11 R235, R244 to R248: the bag instructions send their requests to the bag's arbiter; a put, a take and a count
leave their destination empty; the others' threads wait, and go on with the reply. -/
def Obligations.BagRequests : Prop :=
  ∀ (g : Guard) (d : BitVec 8) (a : Src) (s : State) (h : HandKey) (tm : Team) (l : Nat) (v : Vals) (hd : Hand) (u : Thread),
    aget h s.hands = some hd → s.lane h l = some u → acqPending s (threadOf h l) true = false →
    let handle : Word := v.a.setWidth 32
    let k := threadOf h l
    let sent := fun ask pair => goesOn ((asking s h hd l tm.func handle ask).modThread k fun u => setFull u d pair false) h l
    (∀ b (off : BitVec 16), OneLane s ⟨g, srcOp a false, srcOp b false, noOp, [(d, false)]⟩ h tm l v →
      let x := (v.b.toNat + off.toNat) % 2 ^ 32
      x % 32 = 0 → x < tm.scratch →
      (tm.detMode = false → exec (.bagput g d a b off) s = .next (sent (.put x d none) false)) ∧
      (tm.detMode = true → (hd.detBuf.filter fun e => e.lane = l).length + 1 ≤ 1024 / tm.w →
        exec (.bagput g d a b off) s = .next (goesOn ((s.setHand h { hd with detBuf := hd.detBuf ++
          [⟨handle.setWidth 64, l, 5, 0, 0, x, u.pc⟩] }).modThread k fun u => writeReg u d false 0) h l))) ∧
    (∀ b (ch : BitVec 2) (off : BitVec 16) bg w, tm.detMode = false →
      OneLane s ⟨g, srcOp a false, srcOp b false, noOp, [(d, false)]⟩ h tm l v →
      liveBag s tm.func handle = some (handleBag handle, bg) →
      let x := (v.b.toNat + off.toNat) % 2 ^ 32
      let c : ChanId := ⟨⟨h.team.die, h.team.core, hd.quad⟩, ch.toNat⟩
      x % 16 = 0 → x + 16 ≤ tm.scratch → spLoad s k tm x 16 16 = .ok w →
      exec (.bagtake g d a b ch off) s = .next (sent (.take c (BitVec.ofNat 128 w) x d) false)) ∧
    (tm.detMode = false → (liveBag s tm.func handle).isSome = true →
      (OneLane s ⟨g, srcOp a false, noOp, noOp, [(d, false)]⟩ h tm l v →
        exec (.bagcnt g d a) s = .next (sent (.count d) false)) ∧
      (∀ b, OneLane s ⟨g, srcOp a false, srcOp b false, noOp, [(d, false)]⟩ h tm l v →
        exec (.baghistRes g d a b) s = .next (sent (.hist false (v.b.toNat % 1024) d) false)) ∧
      (∀ b, OneLane s ⟨g, srcOp a false, srcOp b false, noOp, [(d, true)]⟩ h tm l v →
        exec (.baghistPuts g d a b) s = .next (sent (.hist true (v.b.toNat % 1024) d) true))) ∧
    (∀ b c (sel : BitVec 3) i sh ask (result : Nat → Thread → Thread),
      (i = .bagcut g d a ∧ sh = ⟨g, srcOp a false, noOp, noOp, [(d, true)]⟩ ∧ ask = .cut ∧
        result = fun n u => writeReg u d true (BitVec.ofNat 64 n)) ∨
      (i = .bagwait g d a ∧ sh = ⟨g, srcOp a false, noOp, noOp, [(d, false)]⟩ ∧ ask = .wait ∧
        result = fun n u => writeReg u d false (BitVec.ofNat 64 n)) ∨
      (i = .baginfo g d a sel ∧ sh = ⟨g, srcOp a false, noOp, noOp, [(d, false)]⟩ ∧ ask = .info sel.toNat ∧
        result = fun n u => writeReg u d false (BitVec.ofNat 64 n)) ∨
      (i = .bagclr g a ∧ sh = ⟨g, srcOp a false, noOp, noOp, []⟩ ∧ ask = .clear ∧ result = fun _ u => u) ∨
      (i = .bagiter g a b c ∧ sh = ⟨g, srcOp a false, srcOp b true, .reg c false .none false, []⟩ ∧
        ask = .iter v.b.toNat (v.c.toNat % 2 ^ 32) ∧ v.b.toNat < 2 ^ 48 ∧ Fits (v.c.toNat % 2 ^ 32) 32 tm.scratch ∧
        v.c.toNat % 2 ^ 32 + 96 ≤ tm.scratch ∧ result = fun _ u => u) →
      OneLane s sh h tm l v →
      (∀ n x, u.ask = some n → aget n s.answers = some x → x.fault = none → exec i s = .next (goesOn
        ((dropAnswers s [n]).modThread k fun u => result x.val { u with ask := none }) h l)) ∧
      (u.ask = none → u.run = .ready → tm.detMode = false → (liveBag s tm.func handle).isSome = true → sh.modified = false →
        exec i s = .next (endIssue ((asking s h hd l tm.func handle ask).modThread k fun u =>
          { u with ask := some s.nextId, run := .stalled }) h [l])))

/-- 11 R236, R237, R240, R246: an arbiter accepts a put, which gets the next sequence number and a share, and a take,
which claims records and a place of its channel; a claimed record lands in the take's scratchpad and leaves the bag.
-/
def Obligations.BagPutsAndTakes : Prop :=
  ∀ (s : State) (b : BagId) (bg : Bag) (tm : Team),
    (∀ (r : BagReq) x d, s.bagReqs = [r] → r.after = none → liveBag s r.func r.handle = some (b, bg) → bg.clear = none →
      aget r.thread.team s.teams = some tm → r.ask = .put x d none → s.holds = [] →
      (∀ hd, aget (handOf r.thread) s.hands = some hd → (∀ e ∈ hd.storeQ, e.seq < r.seq → e.rel = none) ∧ hd.fences = []) →
      x + bg.rsize ≤ tm.scratch → s.spPoisoned r.thread.team tm x bg.rsize = false →
      (bg.full = false → exec (.bagPutArbitrate 0) s = .next (openChecks (given (s.modBag b fun y =>
        y.place (s.spBytes r.thread.team tm x bg.rsize)) r d false 0) r.thread.team)) ∧
      (bg.full = true → bg.fmode = 1 → exec (.bagPutArbitrate 0) s =
        .next (openChecks (given s r d false 2) r.thread.team))) ∧
    (∀ data, let n := bg.place data
      let key := natOfBytes (data.take 4)
      n.seq = bg.seq + 1 ∧ n.resident = bg.resident + 1 ∧ n.claims = bg.claims ∧
      agetD (key % 1024) 0 n.puts = agetD (key % 1024) 0 bg.puts + 1 ∧
      agetD (key % 1024) 0 n.res = agetD (key % 1024) 0 bg.res + 1 ∧
      ∃ x, n.recs = bg.recs ++ [x] ∧ x.seq = bg.seq + 1 ∧ x.key = key ∧ x.share = bg.shareFor key ∧ x.data = data ∧
        x.written = false ∧ x.claimed = false) ∧
    (∀ key, bg.policy = 0 → bg.shareFor key = key * 0x9E3779B1 % 2 ^ 32 / 2 ^ 16 % max bg.shares 1) ∧
    (∀ (r : BagReq) c block off d, s.bagReqs = [r] → r.after = none → liveBag s r.func r.handle = some (b, bg) →
      bg.clear = none → aget r.thread.team s.teams = some tm → r.ask = .take c block off d →
      takeFaultOf tm block.toNat bg.rsize off = none →
      let n := bits block.toNat 12 0
      let got := bg.claim n
      (n = 0 → exec (.bagTakeClaim 0) s = .next (given s r d false 0)) ∧
      let bb := bits block.toNat 116 96
      (n ≠ 0 → (s.chan c).heads.length < 4 → s.holds = [] → s.spPoisoned r.thread.team tm bb 16 = false →
        exec (.bagTakeClaim 0) s = .next (landed (given ((s.modBag b fun _ => got.1).modChan c fun q => { q with queue :=
          q.queue ++ [.take ⟨r.id, r.thread.team, r.thread.hand, r.thread.lane, r.iaddr, b, off, bits block.toNat 84 64, bb,
            bg.rsize, got.2, 0, none⟩] }) r d false (BitVec.ofNat 64 got.2.length)) r.thread.team bb
          ((n - got.2.length) * bg.rsize)))) ∧
    (∀ n, (bg.claim n).2.length ≤ n) ∧
    (∀ (c : ChanId) (t : TakeJob) x (r : BagRec), (s.chan c).run = some (.take t) → t.limit = none →
      t.claims[t.landed]? = some x → t.bag = b → aget b s.bags = some bg → aget t.team s.teams = some tm →
      bg.recs.find? (fun r => r.seq = x.seq) = some r → r.written = true → mayServe s (bg.pch x.share) (false, tm.func, tm.node) = true →
      s.holds = [] → s.mem.dramPoison = [] → s.mem.spPoison = [] →
      ∃ t', exec (.bagTakeLand c) s = .next t' ∧ aget b t'.bags = some (bg.leave x.seq) ∧
        (t'.chan c).run = (if t.landed + 1 = t.claims.length then none else some (.take { t with landed := t.landed + 1 })) ∧
        t'.mem = (landed (s.spWrite t.team tm (t.dest + t.landed * t.rsize)
          (dramRead s (bg.dpa s (bg.locOf x.row + x.slot * bg.rsize)) bg.rsize)) t.team t.bb t.rsize).mem)

/-- 11 R231 to R234: a bag that the runtime asks for is live under its handle, empty, with its descriptor's
parameters; one that is removed is live no longer. The dealer's answer is a value that the spec does not lay down
(notes/assumptions/110.md). 11 R236, R241 to R248; 12 R271: accepted records are written to their slots; queries are
answered from the bag's counts, a cut is its highest sequence number, and a clear empties it; iterations start in
order, and end once every unit has ended the run. -/
def Obligations.BagLives : Prop :=
  ((∀ (s s0 : State) (fn desc row low slot gen : Nat) (rest : List (Nat × Nat)) (bs : List Byte), fn < 128 →
     aget desc (s.func fn).bagTable = none → funcReady s fn = true → virtRead s fn desc 24 .read = .ok (s0, bs) → desc % 4 = 0 →
     let v := natOfBytes bs
     let rsize := bits v 31 0
     let cap := bits v 63 32
     let spread := bits v 95 64
     let bound := bits v 159 128
     (rsize = 32 ∨ rsize = 64 ∨ rsize = 128) → 0 < cap → cap ≤ 2 ^ 28 → bits v 97 96 ≠ 3 → 1024 / rsize ≤ bound →
     bits v 127 98 = 0 → bits v 191 161 = 0 → low < 32 → bit spread low = true → (∀ i, i < low → bit spread i = false) →
     freeOf s (low / 4) = (slot, gen) :: rest → slot < 256 → gen < 16384 → aget ⟨low / 4, slot⟩ s.bags = none →
     rowsFree s fn row ((cap + 1024 / rsize - 1) / (1024 / rsize)) spread = true →
     ∃ t handle bg, exec (.bagCreateRequest fn desc row) s = .next t ∧ aget desc (t.func fn).bagTable = some handle ∧
       liveBag t fn handle = some (⟨low / 4, slot⟩, bg) ∧ bg.rsize = rsize ∧ bg.cap = cap ∧ bg.spread = spread ∧
       bg.policy = bits v 97 96 ∧ bg.bound = bound ∧ bg.fmode = bits v 160 160 ∧ bg.rowBase = row ∧ bg.recs = [] ∧
       bg.seq = 0 ∧ bg.resident = 0 ∧ t.mem = s.mem) ∧
   (∀ (s : State) (fn desc : Nat) (handle : Word) (b : BagId) (bg : Bag), aget desc (s.func fn).bagTable = some handle → funcReady s fn = true →
     liveBag s fn handle = some (b, bg) → bg.iter = none → bg.iterQ = [] → (∀ r ∈ bg.recs, r.claimed = false) →
     exec (.bagRemoveRequest fn desc) s = .next (replyOpen (removeBag s b bg) fn) ∧
     (aget b (removeBag s b bg).bags = none) ∧ (removeBag s b bg).mem = s.mem ∧
     (liveBag (removeBag s b bg) fn handle) = none)) ∧
  (∀ (s : State) (b : BagId) (bg : Bag),
     (∀ (r : BagReq), s.bagReqs = [r] → r.after = none → liveBag s r.func r.handle = some (b, bg) → bg.clear = none →
       (∀ d, r.ask = .count d → exec (.bagQueryAccept 0) s = .next (given s r d false (BitVec.ofNat 64 bg.resident))) ∧
       (∀ n d, r.ask = .hist false n d →
         exec (.bagQueryAccept 0) s = .next (given s r d false (BitVec.ofNat 64 (agetD n 0 bg.res)))) ∧
       (∀ n d, r.ask = .hist true n d →
         exec (.bagQueryAccept 0) s = .next (given s r d true (BitVec.ofNat 64 (agetD n 0 bg.puts)))) ∧
       (r.ask = .cut → ∃ cuts, exec (.bagQueryAccept 0) s =
         .next (replied (s.modBag b fun y => { y with cuts := cuts }) r bg.seq)) ∧
       (∀ sel, r.ask = .info sel → exec (.bagQueryAccept 0) s = .next (replied s r (bg.info b sel))) ∧
       (r.ask = .wait → bg.iters ≤ bg.ended → exec (.bagQueryAccept 0) s = .next (replied s r bg.waitWord))) ∧
     (∀ seq r, aget b s.bags = some bg → bg.recs.find? (fun r => r.seq = seq) = some r → r.written = false →
       (s.func bg.func).dirtyEn = false →
       let d := bg.dpa s (bg.locOf r.row + r.slot * bg.rsize)
       let k := engineLane bg.func true
       mayServe s (pchOf d) k = true → (s.pch (pchOf d)).served k = s.pch (pchOf d) →
       exec (.bagRecordWrite b seq) s = .next ((dramWrite s d r.data).modBag b fun y =>
         { y with recs := y.recs.map fun x => if x.seq = seq then { x with written := true, data := [] } else x })) ∧
     (∀ n, aget b s.bags = some bg → bg.clear = some n → bg.iter = none → (∀ r ∈ bg.recs, r.claimed = false) →
       exec (.bagClearPerform b) s = .next { s.modBag b fun y =>
           { y with recs := [], rows := [], resident := 0, res := [], ptr := 0, clear := none } with
         answers := s.answers ++ [(n, ⟨none, 0, []⟩)], bagReqs := s.bagReqs.filter fun x => x.id ≠ n }) ∧
     (∀ q rest, aget b s.bags = some bg → bg.iter = none → bg.iterQ = q :: rest → bg.clear = none →
       exec (.bagIterationStart b) s = .next (s.modBag b fun y => { y with
         iter := some (q.no, q.cut, q.run), iterQ := rest, recs := y.recs.map fun r => { r with seen := false } })) ∧
     (∀ m cut n r, aget b s.bags = some bg → bg.iter = some (m, cut, n) → aget n s.runs = some r →
       (∀ u ∈ r.units, u.2.ended = true) → exec (.bagIterationEnd b) s = .next { s.modBag b fun y =>
         { y with iter := none, ended := y.ended + 1, last := some (decide (r.stops ≠ []), r.visited) } with
         runs := adel n s.runs }))

/-- 13 R290: at a quantum boundary the buffered stores of a team are performed in ascending %tid, then its tile
events, then its puts; tiles that matrix instructions wrote are READY from then on (10 R215); then its buffers are
empty and what waited for the boundary goes on. -/
def Obligations.QuantumBoundary : Prop :=
  ∀ (s : State) (id : TeamId) (tm : Team), aget id s.teams = some tm →
    (s.core (coreOf id)).idle = false →
    (tm.commit = 1 → s.holds = [] → loadsQueued s id = false → ∃ t, exec (.detCommit id) s = .next t ∧
      t.mem = ((teamThreads s id).foldl (fun s' k => applyEntries s' (handOf k) (match aget (handOf k) s.hands with
        | some h => h.detBuf.filter fun e => e.lane = k.lane && e.isStore
        | none => [])) s).mem ∧ t.threads = s.threads ∧ ∃ tm', aget id t.teams = some tm' ∧ tm'.commit = 2) ∧
    (tm.commit = 2 → tm.tileEvents = [] → matrixWrites s id = false → ∃ t, exec (.detCommit id) s = .next t ∧
      t.mem = s.mem ∧ t.threads = s.threads ∧ aget id t.teams = some { tm with trickTiles := [], tileEvents := [], commit := 3 } ∧
      ∀ e, let x := tileAt s (coreOf id) e
        tileAt t (coreOf id) e = if (∃ m ∈ tm.trickTiles, tm.tiles[m]? = some e) ∧ x.state = 1 then { x with state := 2 } else x) ∧
    (tm.commit = 3 → ∃ t, exec (.detCommit id) s = .next t ∧ t.mem = s.mem ∧ t.threads = s.threads ∧
      t.bags = s.bags ∧ aget id t.teams = some { tm with commit := 4 }) ∧
    (tm.commit = 4 → tm.commitExit = false → tm.commitYield = false → exec (.detCommit id) s =
      .next (openChecks (leaveTbar (((teamHands s id).foldl (fun s h => s.modHand h fun hd =>
        { hd with detBuf := [], trick := false }) s).modTeam id fun tm => { tm with commit := 0 }) id) id))

/-- 12 R262: NADD, NSUB, NMUL, NFMA, NMAX and NMIN combine each element apart, as FP32, as INT32 modulo 2^32, or as
BF16. -/
def Obligations.RowArithmetic : Prop :=
  ∀ (i : Instr) (d a b : BitVec 3) (t : ElemT) (fp : FpFmt → Nat → Nat → Nat → Nat) (int : Int → Int → Int → Int),
    (i = .nadd d a b t ∧ fp = (fun f x y _ => fpAdd f .rn x y) ∧ int = fun x y _ => x + y) ∨
      (i = .nsub d a b t ∧ fp = (fun f x y _ => fpSub f .rn x y) ∧ int = fun x y _ => x - y) ∨
      (i = .nmul d a b t ∧ fp = (fun f x y _ => fpMul f .rn x y) ∧ int = fun x y _ => x * y) ∨
      (i = .nfma d a b t ∧ fp = (fun f x y z => fpFma f .rn x y z) ∧ int = fun x y z => x * y + z) ∨
      (i = .nmax d a b t ∧ fp = (fun f x y _ => fpMax f x y) ∧ int = fun x y _ => max x y) ∨
      (i = .nmin d a b t ∧ fp = (fun f x y _ => fpMin f x y) ∧ int = fun x y _ => min x y) →
    ∀ s p n r x, AtRow s p n r x → ∃ v, exec i s = .next (rowGets s p d v) ∧
      let reg := fun k : BitVec 3 => (s.pch p).reg k
      (t = .f32 → ∀ e, e < 256 → elem 32 v e = fp fp32 (elem 32 (reg a) e) (elem 32 (reg b) e) (elem 32 (reg d) e) % 2 ^ 32) ∧
      (t = .i32 → ∀ e, e < 256 → (elem 32 v e : Int) = int (elemInt (reg a) e) (elemInt (reg b) e) (elemInt (reg d) e) % 2 ^ 32) ∧
      (t = .bf → ∀ e, e < 512 → elem 16 v e = fp bf16 (elem 16 (reg a) e) (elem 16 (reg b) e) (elem 16 (reg d) e) % 2 ^ 16)

/-- 12 R264: NSUM adds every element to word 0 in ascending order, NCMP gives all ones where its comparison holds,
NSEL selects bit by bit, and NCVT converts each element. -/
def Obligations.RowReductionsAndSelections : Prop :=
  ∀ (d a b : BitVec 3) s p n r x, AtRow s p n r x →
    let reg := fun k : BitVec 3 => (s.pch p).reg k
    let w := fun k e => elem 32 (reg k) e
    let hw := fun k e => elem 16 (reg k) e
    let gets := fun i (q : BitVec 8192 → Prop) => ∃ v, exec i s = .next (rowGets s p d v) ∧ q v
    (∀ t, gets (.nsum d a t) fun v => (∀ e, 1 ≤ e → e < 256 → elem 32 v e = w d e) ∧ elem 32 v 0 = (match t with
      | .f32 => (List.range 256).foldl (fun c e => fpAdd fp32 .rn c (w a e)) (w d 0)
      | .i32 => (List.range 256).foldl (fun c e => c + w a e) (w d 0)
      | .bf => (List.range 512).foldl (fun c e => fpAdd fp32 .rn c (roundTo fp32 .rn (unpack bf16 (hw a e)))) (w d 0)) %
        2 ^ 32) ∧
    (∀ t cc, gets (.ncmp d a b t cc) fun v =>
      (t = .f32 → ∀ e, e < 256 → elem 32 v e = if fcmp (NCond.fp cc) (w a e) (w b e) then 2 ^ 32 - 1 else 0) ∧
      (t = .i32 → ∀ e, e < 256 → elem 32 v e = if (match cc with
        | .eq => elemInt (reg a) e = elemInt (reg b) e
        | .ne => elemInt (reg a) e ≠ elemInt (reg b) e
        | .lt => elemInt (reg a) e < elemInt (reg b) e
        | .le => elemInt (reg a) e ≤ elemInt (reg b) e
        | .gt => elemInt (reg b) e < elemInt (reg a) e
        | .ge => elemInt (reg b) e ≤ elemInt (reg a) e : Bool) then 2 ^ 32 - 1 else 0) ∧
      (t = .bf → ∀ e, e < 512 → elem 16 v e =
        if fcmp (NCond.fp cc) (hw a e * 65536) (hw b e * 65536) then 2 ^ 16 - 1 else 0)) ∧
    (exec (.nsel d a b) s = .next (rowGets s p d ((reg d &&& reg a) ||| (~~~ reg d &&& reg b)))) ∧
    (∀ kind rm, gets (.ncvt d a kind rm) fun v =>
      (kind = .f2i → ∀ e, e < 256 → elem 32 v e = (fpToInt rm false (w a e)).toNat) ∧
      (kind = .i2f → ∀ e, e < 256 → elem 32 v e = intToFp rm false (BitVec.ofNat 32 (w a e)) % 2 ^ 32) ∧
      (kind = .toBf → ∀ e, e < 512 → elem 16 v e = if e < 256 then roundTo bf16 rm (unpack fp32 (w a e)) % 2 ^ 16 else 0) ∧
      (kind = .fromBf → ∀ e, e < 256 → elem 32 v e = roundTo fp32 .rn (unpack bf16 (hw a e)) % 2 ^ 32))

/-- 12 R259, R263, R271: NSET fills a row accumulator with a parameter or an immediate; NLOAD and NSTORE move a row's
1,024 bytes, of an iteration's row only the slots of M and never a key; a remote row is asked of its controller. 14
R308: bytes of DRAM that are written under an address read back under it, and a write changes no byte of a line that
it does not meet; where the lines that it meets already stand under the address's key, it changes no other byte. -/
def Obligations.RowData : Prop :=
  (∀ s p n r x, AtRow s p n r x →
     (∀ d k, ∃ v, exec (.nset d k) s = .next (rowGets s p d v) ∧ ∀ e, e < 256 → elem 32 v e = (r.param k.toNat).toNat) ∧
     (∀ d (imm : BitVec 16), ∃ v, exec (.nsetImm d imm) s = .next (rowGets s p d v) ∧
       ∀ e, e < 256 → elem 32 v e = (imm.signExtend 32).toNat) ∧
     (∀ d k x, rowDpa s n p r k.toNat = some x → s.mem.dramPoison = [] →
       (r.bag = none → pchOf x = p → ∃ v, exec (.nload d k) s = .next (rowGets s p d v) ∧
         ∀ e, e < 1024 → elem 8 v e = ((dramRead s x 1024).getD e 0).toNat) ∧
       (r.bag ≠ none → ∃ v, exec (.nload d k) s = .next (rowGets s p d v) ∧ ∀ e, e < 1024 →
         elem 8 v e = if bit (s.pch p).m (e / r.rsize) then ((dramRead s x 1024).getD e 0).toNat else 0) ∧
       (r.bag = none → pchOf x ≠ p → exec (.nload d k) s =
         .next (askRow { s with focus := .none } p n r k.toNat x none))) ∧
     (∀ a k x, rowDpa s n p r k.toNat = some x → s.mem.dramPoison = [] → (s.func r.func).dirtyEn = false → s.memOk →
       (r.bag = none → pchOf x = p → exec (.nstore a k) s =
         .next ((rowDone s p id).setMem (dramWrite s x (bytesOfNat 1024 ((s.pch p).reg a).toNat)).mem)) ∧
       (r.bag = none → pchOf x ≠ p → exec (.nstore a k) s = .next
         (askRow { s with focus := .none } p n r k.toNat x (some (bytesOfNat 1024 ((s.pch p).reg a).toNat)))) ∧
       (r.bag ≠ none → (r.rsize = 32 ∨ r.rsize = 64 ∨ r.rsize = 128) → locOf x + 1024 ≤ 2 ^ 42 → (s.pch p).m < 2 ^ (1024 / r.rsize) →
         (∀ l ∈ dramLines (locOf x) 1024, ∀ old, aget l s.mem.dramKey = some old → old = keyAt s x) →
         ∃ t, exec (.nstore a k) s = .next t ∧ t = (rowDone s p id).setMem t.mem ∧
           ∀ y, memGet t.mem.dram y = if locOf x ≤ y ∧ y < locOf x + 1024 ∧ bit (s.pch p).m ((y - locOf x) / r.rsize) ∧
               4 ≤ (y - locOf x) % r.rsize
             then BitVec.ofNat 8 (elem 8 ((s.pch p).reg a) (y - locOf x)) else memGet s.mem.dram y))) ∧
  (∀ (s : State) (x : Nat) (bs : List Byte), s.memOk →
     let t := dramWrite s x bs
     let met := dramLines (locOf x) bs.length
     dramRead t x bs.length = bs ∧ t.keySlots = s.keySlots ∧
     (∀ y, y / 64 ∉ met → memGet t.mem.dram y = memGet s.mem.dram y) ∧
     (∀ l, aget l t.mem.dramKey = if l ∈ met then some (keyAt s x) else aget l s.mem.dramKey) ∧
     ((∀ l ∈ met, ∀ old, aget l s.mem.dramKey = some old → old = keyAt s x) →
       ∀ y, (y < locOf x ∨ locOf x + bs.length ≤ y) → memGet t.mem.dram y = memGet s.mem.dram y))

/-- 12 R261, R265, R266: NKEY clears the bits of M whose keys lie outside a range; NEMIT sends a put for each bit of
M; NNEXT and NHALT complete the row, NLOOP and NJMP jump, NSYNC waits for the puts; a target beyond the program stops
the unit. -/
def Obligations.RowControl : Prop :=
  ∀ s p n r x, AtRow s p n r x →
    let u := s.pch p
    (∀ a lo hi inv, r.rsize ≠ 0 → ∃ m, exec (.nkey a lo hi inv) s = .next (rowDone s p fun u => { u with m := m }) ∧
      m < 2 ^ 32 ∧ ∀ j, j < 32 → (bit m j = (bit u.m j && (decide ((r.param lo.toNat).toNat ≤ rowKey (u.reg a) r.rsize j ∧
        rowKey (u.reg a) r.rsize j ≤ (r.param hi.toNat).toNat) != inv)))) ∧
    (∀ a k b bg, r.rsize ≠ 0 → liveBag s r.func (r.param k.toNat) = some (b, bg) → bg.rsize = r.rsize →
      ∃ t, exec (.nemit a k) s = .next t ∧ t.mem = s.mem ∧ t.pchs = (rowDone s p id).pchs ∧
        (∃ qs, t.bagReqs = s.bagReqs ++ qs ∧ qs.map (·.ask) = (maskSlots u.m).map fun j => .emit n p
          (((bytesOfNat 1024 (u.reg a).toNat).drop (j * r.rsize)).take r.rsize)) ∧
        ∃ r', aget n t.runs = some r' ∧ r'.unit p = some { x with emits := x.emits + (maskSlots u.m).length }) ∧
    (∀ target, target.toNat < u.store.length → r.bben = false → ∃ t r', exec (.nnext target) s = .next t ∧ t.mem = s.mem ∧
      (t.pch p).pc = target.toNat ∧ aget n t.runs = some r' ∧ r'.done = r.done + 1 ∧ r'.skip = r.skip ∧
      ∃ y, r'.unit p = some y ∧ y.cur = none ∧ y.bagRow = none ∧ y.rows = x.rows) ∧
    (∀ k target, target.toNat < u.store.length →
      let jump := { u with l := u.l.set k.toNat (u.l.getD k.toNat 0 - 1), pc := target.toNat, fresh := false }
      (u.l.getD k.toNat 0 ≠ 0 → exec (.nloop k target) s = .next { s with focus := .none, pchs := aset p jump s.pchs }) ∧
      (u.l.getD k.toNat 0 = 0 → exec (.nloop k target) s =
        .next (rowDone s p fun u => { u with l := u.l.set k.toNat (r.linit.getD k.toNat 0) }))) ∧
    (∀ m0 target, target.toNat < u.store.length →
      let jump := { u with pc := target.toNat, fresh := false }
      (m0 = false ∨ u.m = 0 → exec (.njmp m0 target) s = .next { s with focus := .none, pchs := aset p jump s.pchs }) ∧
      (m0 = true → u.m ≠ 0 → exec (.njmp m0 target) s = .next (rowDone s p id))) ∧
    (r.bben = false → ∃ t r', exec .nhalt s = .next t ∧ t.mem = s.mem ∧ aget n t.runs = some r' ∧ r'.done = r.done + 1 ∧
      r'.skip = r.skip + x.rows.length ∧ ∃ y, r'.unit p = some y ∧ y.cur = none ∧ y.rows = [] ∧ y.noMore = true) ∧
    (x.emits = 0 → exec .nsync s = .next (rowDone s p id)) ∧
    (x.emits ≠ 0 → exec .nsync s = .next { s with focus := .none }) ∧
    (∀ i target k m0, i = .nnext target ∨ i = .nloop k target ∨ i = .njmp m0 target → u.store.length ≤ target.toNat →
      exec i s = .next (stopUnit { s with focus := .none } p 0x1D))

/-- 12 R252, R268 to R270: NBRUN sends its run, and its thread waits until the units have accepted it; a run is
accepted once each unit that holds a row of it has a place free, and the unit gets those rows in ascending order. -/
def Obligations.RunsAreAccepted : Prop :=
  (∀ g a off s h tm l v hd u, OneLane s ⟨g, srcOp a false, noOp, noOp, []⟩ h tm l v → aget h s.hands = some hd →
    s.lane h l = some u →
    let k := threadOf h l
    let x := memAddr v.a off
    (∀ n y, u.ask = some n → aget n s.answers = some y → y.fault = none → exec (.nbrun g a off) s =
      .next (goesOn ((dropAnswers s [n]).modThread k fun u => { u with ask := none }) h l)) ∧
    (u.ask = none → u.run = .ready → tm.detMode = false → (srcOp a false).mod = .none → Fits x 32 tm.scratch →
      x + 96 ≤ tm.scratch → acqPending s k true = false →
      ∃ r : NbRun, r.team = h.team ∧ r.thread = k ∧ r.func = tm.func ∧ r.iaddr = u.pc ∧ r.dom.spoff = x ∧ r.ops = [] ∧
        r.bag = none ∧ exec (.nbrun g a off) s = .next (endIssue ((State.modHand
          { s with nextId := s.nextId + 1, runs := s.runs ++ [(s.nextId, r)] } h fun hd =>
          { hd with seq := hd.seq + 1, pend := hd.pend ++ [hd.seq] }).modThread k fun u =>
          { u with ask := some s.nextId, run := .stalled }) h [l]))) ∧
  (∀ (s : State) (n : Nat) (r0 : NbRun) (tm : Team) (w : BitVec 768) (ops : List Word), aget n s.runs = some r0 →
    r0.ops = [] → r0.bag = none → r0.units = [] → aget r0.team s.teams = some tm →
    descHeld s r0.team tm r0.dom.spoff = false → readDesc s r0.team tm r0.dom.spoff false = .ok (w, ops) →
    let r := { r0 with word := w, ops := ops }
    (∀ i, i < r.rows → ∃ ls, rowAt s r i = .at ls) → placesFree s (runUnits s r) = true →
    ∃ t r', exec (.nbRunAccept n) s = .next t ∧ aget n t.runs = some r' ∧ r'.word = w ∧ r'.ops = ops ∧
      t.answers = s.answers ++ [(n, ⟨none, 0, []⟩)] ∧ t.mem = s.mem ∧ t.threads = s.threads ∧
      ∀ p ∈ runUnits s r, (t.pch p).runq = (s.pch p).runq ++ [n] ∧ r'.unit p = some { UnitRun.fresh with
        rows := (List.range r.rows).filterMap fun i => match rowAt s r i with
          | .at ls => if pchOf ((ls.headD none).getD 0) = p then some ⟨i, ls⟩ else none
          | _ => none })

/-- 12 R251, R254, R260, R269 to R272; 22 R397: a unit starts its first run with every register zero, and each row
with its initial counts and a full mask; it suspends for a request that has waited, and resumes once its quota is
served; a stop skips what is left, an end frees the unit's place, and the status block is written at the end of the
run. 12 R259, R269: a row that joins its unit's list comes before the rows of higher numbers, unless its stream-0 page
was not mapped at acceptance: such rows come after all others, in the order of their mappings. 11 R229, R230; 12 R254,
R256; 15 R334; 22 R398: a controller performs a request whole; the requests of one channel keep their order, and no
waiting node lets 64 requests of its direction pass, those of other engines that go in one step counted (their turns:
notes/assumptions/117.md); QREQ holds back what has not begun, and the lane ratio changes only while its pseudo-
channel is quiesced. -/
def Obligations.UnitsAndControllers : Prop :=
  (∀ (s : State) (p : Nat), let u := s.pch p
     (∀ n rest r, u.runq = n :: rest → aget n s.runs = some r → r.bag = none → u.active = false → u.qreq = false →
       exec (.nbRunStart p) s = .next (s.modPch p fun u => { u with
         active := true, store := r.ops, pc := 0, n := List.replicate 8 0, l := r.linit, m := 0, susp := none, fresh := false,
         wait := none })) ∧
     (∀ n r x w rest, activeRun s p = some (n, r, x) → x.cur = none → x.bagRow = none → x.noMore = false → u.qreq = false →
       u.susp = none → r.bag = none → x.rows = w :: rest → exec (.nbRowStart p) s = .next ((modUnit s n p fun x =>
         { x with cur := some w, rows := rest, begun := true }).modPch p fun u =>
         { u with l := r.linit, m := if r.rsize = 0 then 0 else 2 ^ (1024 / r.rsize) - 1 })) ∧
     (u.active = true → u.susp = none → unitAway s p = false → arbDue s p = true → exec (.nbArbitrationSuspend p) s =
       .next (s.modPch p fun u => { u with susp := some 0 })) ∧
     (∀ n, u.susp = some n → u.qreq = false → u.quota ≤ n ∨ u.waits = [] → exec (.nbResume p) s =
       .next (s.modPch p fun u => { u with susp := none, fresh := true })) ∧
     (∀ n r x, activeRun s p = some (n, r, x) → unitReady s p = true → u.store.length ≤ u.pc → r.bben = false →
       ∃ t r' f, exec (.nbRunStop p) s = .next t ∧ t.mem = s.mem ∧ aget n t.runs = some r' ∧ r'.stops = r.stops ++ [(p, 0x1D)] ∧
         r'.done = r.done ∧ r'.skip = r.skip + 1 + x.rows.length ∧ t.faults.raw = s.faults.raw ++ [f] ∧ f.code = 0x1D ∧
         f.felem = u.pc % 256 + 256 * p) ∧
     (∀ n r x, activeRun s p = some (n, r, x) → x.cur = none → x.bagRow = none → x.emits = 0 → x.rows = [] → r.bag = none →
       r.waiting = [] → ∃ t, exec (.nbRunEnd p) s = .next t ∧ t.mem = s.mem ∧ (t.pch p).runq = u.runq.drop 1 ∧
         (t.pch p).active = false ∧ ∀ r', aget n t.runs = some r' → ∃ y, r'.unit p = some y ∧ y.ended = true) ∧
     (∀ n r tm, aget n s.runs = some r → r.sten = true → r.status = false → r.bag = none → r.finished = true → r.away = false →
       r.last = false → r.heldN = 0 → s.holds = [] → aget r.team s.teams = some tm → ∃ t, exec (.nbStatusWrite n) s = .next t ∧
         t.mem = (s.spWrite r.team tm r.st (bytesOfNat 16 r.statusBlock)).mem ∧
         ∀ r', aget n t.runs = some r' → r'.status = true) ∧
     (∀ n r i, aget n s.runs = some r → i ∈ r.waiting → (∀ x ls, rowAt s r i = .at ls →
         r.unit (pchOf ((ls.headD none).getD 0)) = some x → x.noMore = false → exec (.nbRowMapped n i true) s =
           .next (modUnit (s.modRun n fun r => { r with waiting := r.waiting.filter (· ≠ i) }) n
             (pchOf ((ls.headD none).getD 0)) fun x => { x with rows := insertRow r.late ⟨i, ls⟩ x.rows })) ∧
       (r.bben = false → ∃ t, exec (.nbRowMapped n i false) s = .next t ∧ t.mem = s.mem ∧
         ∀ r', aget n t.runs = some r' → r'.skip = r.skip + 1 ∧ r'.waiting = r.waiting.filter (· ≠ i)))) ∧
  (∀ (late : List Nat) (w : RowRef) (ws : List RowRef), ∃ before after, ws = before ++ after ∧
     insertRow late w ws = before ++ w :: after ∧
     (late.contains w.i → after = []) ∧
     (late.contains w.i = false → (∀ x ∈ before, late.contains x.i = false ∧ x.i ≤ w.i) ∧
       ∀ x, after.head? = some x → late.contains x.i ∨ w.i < x.i)) ∧
  (∀ (s : State) (p : Nat), let u := s.pch p
     (∀ n q, u.holds.reqs[n]? = some q → servesNext u.holds n = true → u.qack = false → (u.qreq = true ∨ unitAway s p = true) →
       s.mem.dramPoison = [] →
       (∀ d, directFirst u.holds n = some d → exec (.ordinaryRequestServe ⟨p, n⟩) s = .next (s.modPch p fun u => u.turned d)) ∧
       (directFirst u.holds n = none → ∃ t, exec (.ordinaryRequestServe ⟨p, n⟩) s = .next t ∧
         (t.pch p).reqs = delAt n u.reqs ∧ (t.pch p).susp = u.susp.map (· + 1) ∧
         (q.write = none → t.mem = s.mem ∧ t.answers = s.answers ++ [(q.id, ⟨none, 0, q.bytes s⟩)] ∧
           (q.more = [] → q.bytes s = dramRead s q.loc q.len)) ∧
         (∀ bs, q.write = some bs → t.mem = (q.put s (writtenBytes q.rop (q.bytes s) bs)).mem ∧
           t.answers = s.answers ++ [(q.id, ⟨none, 0, []⟩)] ∧
           (q.more = [] → q.rop = none → q.dirty = none → bs.length = q.len → t.mem = (dramWrite s q.loc bs).mem)) ∧
         (∀ m x, m < n → u.holds.reqs[m]? = some x → q.src = none ∨ x.src ≠ q.src) ∧
         (fairPlaces u.holds ≠ [] → ∀ k ∈ (u.holds.without n).lanes q.lane.1, agetD k 0 (t.pch p).passed ≤ 63))) ∧
     (∀ k, mayServe s p k = true → ∀ x ∈ u.lanes k.1, agetD x 0 ((countServed s p k).pch p).passed ≤ 63) ∧
     (u.holds.reqs ≠ [] → ∃ n, n < u.holds.reqs.length ∧ servesNext u.holds n = true) ∧
     (u.qreq = false → exec (.laneRatioQuiesce p) s =
       .next (s.modPch p fun u => { u with qreq := true, held := u.reqs.length })) ∧
     (u.qreq = true → u.held = 0 → exec (.pseudoChannelQuiesced p) s = .next (s.modPch p fun u => { u with qack := true })) ∧
     (exec (.laneRatioResume p) s = .next (s.modPch p fun u => { u with qreq := false, qack := false, held := 0 })) ∧
     (∀ ratio, (u.qack = true → exec (.laneRatioSet p ratio) s = .next (s.modPch p fun u => { u with ratio := ratio.toNat })) ∧
       (u.qack = false → ∃ t, exec (.laneRatioSet p ratio) s = .next t ∧ t.pch p = u ∧ t.mem = s.mem)))

/-- 16 R358, R361, R362, R364, R367, R368: COLL takes the lowest free slot of its core and gives its ticket; COLLQ
gives a ticket's status, and frees a slot that has ended; COLLQ.WAIT gives it once the rank has ended. A rank that
fails ends with its code; one that gets a chunk of another collective is refused; a chunk comes over a trained port
whose virtual channel 6 nothing blocks (its packets: notes/assumptions/124.md). -/
def Obligations.Collectives : Prop :=
  (∀ g d a off s h tm l v i, OneLane s ⟨g, srcOp a false, noOp, noOp, [(d, false)]⟩ h tm l v →
    let x := memAddr v.a off
    let c := coreOf h.team
    let gen := ((collSlot s c i).gen + 1) % 2 ^ 28
    let r := newRank c i h.team tm (BitVec.ofNat 512 (s.spNat h.team tm x 64))
    Fits x 64 tm.scratch → s.spPoisoned h.team tm x 64 = false → r.malformed tm.scratch = false → i < 16 →
    (collSlot s c i).state = 0 → (∀ j, j < i → (collSlot s c j).state ≠ 0) →
    let s1 := { s with collSlots := aset (c, i) ⟨gen, 1, 0, some h.team⟩ s.collSlots, ranks := s.ranks ++ [r] }
    exec (.coll g d a off) s = .next (goesOn ((advanceRank s1 (c, i)).modThread (threadOf h l) fun u =>
      writeReg u d false (BitVec.ofNat 64 (gen * 16 + i))) h l)) ∧
  (∀ g d a s h tm l v, OneLane s ⟨g, srcOp a false, noOp, noOp, [(d, false)]⟩ h tm l v →
    let k := threadOf h l
    let ticket := v.a.toNat % 2 ^ 32
    let later := fun what => sendFill (s.modThread k fun u => setFull u d false false) k d false what (pcOf s k) none
    (tm.detMode = false →
      (ticketSlot s h.team ticket = none → exec (.collq g d a) s = .next (goesOn (later (.value 0)) h l)) ∧
      (∀ e x, ticketSlot s h.team ticket = some (e, x) →
        (x.state = 1 → ∃ t, exec (.collq g d a) s = .next (goesOn t h l) ∧ t.fills =
          (later (.value (BitVec.ofNat 64 (2 ^ 30 + x.code % 256)))).fills) ∧
        (2 ≤ x.state → aget e s.collSlots = some x → ∃ t, exec (.collq g d a) s = .next (goesOn t h l) ∧
          t.fills = (later (.value (BitVec.ofNat 64 (x.state * 2 ^ 30 + x.code % 256)))).fills ∧
          aget e t.collSlots = some { x with state := 0, code := 0, team := none }))) ∧
    (ticketSlot s h.team ticket = none → exec (.collqWait g d a) s = .next (goesOn (later (.value 0)) h l)) ∧
    (∀ c n x, ticketSlot s h.team ticket = some ((c, n), x) →
      exec (.collqWait g d a) s = .next (goesOn (later (.coll c n x.gen)) h l))) ∧
  (∀ (s : State) c slot r, s.ranks.find? (fun r => r.key = (c, slot)) = some r → r.code ≠ 0 → (s.func r.func).collLog = 0 →
    (s.func r.func).resetting = false → s.holds = [] → ∃ t, exec (.collRankEnd c slot) s = .next t ∧ (∀ x ∈ t.ranks, x.key ≠ (c, slot)) ∧
      (∀ y, aget (c, slot) s.collSlots = some y → aget (c, slot) t.collSlots = some { y with state := 3, code := r.code })) ∧
  (∀ (s : State) c slot r, let s1 := advanceRank s (c, slot)
    s1.ranks.find? (fun r => r.key = (c, slot)) = some r → r.code = 0 → r.tree = true → r.wrote.length = r.chunks →
    (s1.func r.func).collLog = 0 → (∀ x ∈ s.ranks, x.key = (c, slot) → (s.func x.func).resetting = false) →
    (s1.func r.func).resetting = false → s1.holds = [] → ∃ t, exec (.collRankEnd c slot) s = .next t ∧ (∀ x ∈ t.ranks, x.key ≠ (c, slot)) ∧
      (∀ y, aget (c, slot) s1.collSlots = some y → aget (c, slot) t.collSlots = some { y with state := 2, code := 0 }) ∧
      t.mem = (match r.team with
        | some id => if r.bben then landed s1 id r.bb (r.count * r.esz) 6 else s1
        | none => s1).mem) ∧
  (∀ (s : State) (m : CollMsg) r, targetRank s m = some r →
    (rankFolded s r = true → exec (.collChunkReceive m) s = .next s) ∧
    (r.tree = true → r.code = 0 → rankFolded s r = false →
      (chunkComes s r m.sender = false → exec (.collChunkReceive m) s = .next s) ∧
      (chunkComes s r m.sender = true → let s1 := takeChunkPackets s r m.sender
        (m.refusal = true → r.parent = some m.sender ∨ m.sender ∈ r.children →
          exec (.collChunkReceive m) s = .next (failTold s1 r 0x21 0 1)) ∧
        (m.refusal = false →
          (sameColl r m.opid m.opc m.count m.nrank m.hash = false →
            exec (.collChunkReceive m) s = .next (failTold s1 r 0x21 0 1)) ∧
          (sameColl r m.opid m.opc m.count m.nrank m.hash = true → fits s1 r m = true → (m.sender, m.chunk) ∉ r.got →
            m.up = true → exec (.collChunkReceive m) s = .next (advanceRank (setRank s1
              { r with got := r.got ++ [(m.sender, m.chunk)], held := r.held ++ [m] }) r.key))))))

/-- 03 R35, R36; 04 R68, R70, R73: a thread enters the line of its slot; the bundles of a hand that stand at one
address become one; a quadrant selects the offer that goes first, one that has waited 64 clocks before one that has
not; and the members of a complete rendezvous come into focus together. -/
def Obligations.Issue : Prop :=
  (∀ (s : State) (h : HandKey) (l : Nat) (u : Thread) (tm : Team) (L : Line) d w, s.lane h l = some u → l < 64 →
    aget h.team s.teams = some tm → u.run = .ready → u.go = none → heldLine u = none →
    reach s tm.func (lineAddr u.pc).toNat .fetch (fetchStays s (threadOf h l)) = .dram d w → dramPoisoned s (locOf d) 64 = false → s.glitch = 0 →
    L = BitVec.ofNat 512 (natOfBytes (dramRead s d 64)) → parityOk L = true → formatOk L = true →
    ∃ t, exec (.fetchLine h (BitVec.twoPow 64 l)) s = .next t ∧
      t.lane h l = some { u with line := some (lineAddr u.pc, L) } ∧ t.mem = s.mem ∧
      ∀ k, k ≠ threadOf h l → aget k t.threads = aget k s.threads) ∧
  (∀ (s : State) (q : QuadId) (h : HandKey) (hd : Hand), quadHands s q = [h] → aget h s.hands = some hd → hd.serve = [] →
    ∃ bs, exec (.regroupBundles q) s = .next (s.modHand h fun hd => { hd with bundles := bs }) ∧
      (∀ pc l, (∃ b ∈ bs, b.pc = pc ∧ b.lanes.getLsbD l = true) ↔ ∃ b ∈ hd.bundles, b.pc = pc ∧ b.lanes.getLsbD l = true) ∧
      (∀ b ∈ bs, readyLanes s h b = b.lanes ∨ readyLanes s h b = 0) ∧
      (∀ b ∈ bs, ∀ c ∈ bs, readyLanes s h b ≠ 0 → readyLanes s h c ≠ 0 → b.pc = c.pc → b = c) ∧
      (∀ b ∈ bs, readyLanes s h b ≠ 0 → (∃ c ∈ hd.bundles, c.pc = b.pc ∧ readyLanes s h c ≠ 0 ∧ c.age = b.age) ∧
        ∀ c ∈ hd.bundles, c.pc = b.pc → readyLanes s h c ≠ 0 → b.age ≤ c.age)) ∧
  (∀ (s : State) (q : QuadId) (x y : HandKey × Bundle), waitingBundles s q = [] → throttledNow s q = false →
    currentHand s q = none →
    let picks := fun (x : HandKey × Bundle) => { s with focus := .bundle x.1 (readyLanes s x.1 x.2) }
    (offers s q none = [x] → exec (.issueSelect q) s = .next (picks x)) ∧
    (offers s q none = [x, y] → exec (.issueSelect q) s = .next (picks (if goesFirst s (s.issueOf q) x y then x else y))) ∧
    (offers s q none = [] → exec (.issueSelect q) s = .next s)) ∧
  (∀ (s : State) (u : QuadIssue) (x y : HandKey × Bundle), 64 ≤ s.cycle - x.2.age → s.cycle - y.2.age < 64 →
    goesFirst s u x y = true ∧ goesFirst s u y x = false) ∧
  (∀ (s : State) (k : ThreadKey) (hd : Hand) (set : List Nat), formedSet s (handOf k) k.lane = some set →
    aget (handOf k) s.hands = some hd → teamIssues s k.team = true → detSched s (handOf k) = false →
    exec (.rendezvousForm k) s = .next { s with focus := .bundle (handOf k) (maskOf set) })

/-- 02 R22, R23, R24; 04 R54, R55, R60: a doorbell writes TAIL, a root that is taken moves HEAD and starts its
validation, a refused tree frees its queue, a child takes its parent's values but where its INH says its own, a notice
counts a retirement, and the last one completes the node. -/
def Obligations.LaunchTrees : Prop :=
  (∀ (s : State) q fn tail, q < 64 → exec (.launchQueueDoorbell q fn tail) s =
    .next (if (s.queue q).func = fn ∧ funcReady s fn = true then s.modQueue q fun u => { u with tail := tail } else s)) ∧
  (∀ (s s1 s2 : State) q (bs tb : List Byte), let u := s.queue q
    funcReady s u.func = true → u.owed = false → u.en = true → (s.func u.func).resetting = false →
    (2 ^ u.log2n < (u.tail - u.head).toNat →
      (virtRead ((s.modQueue q fun u => { u with en := false, asked := none, owed := true }).modQueue q fun u =>
        { u with owed := false }) u.func (u.tmpl + 64) 2 .read = .ok (s1, bs) →
        exec (.takeRoot q) s = .next (signal s1 u.func (natOfBytes bs % 2048))) ∧
      ∃ t', exec (.takeRoot q) s = .next t' ∧ (t'.queue q).en = false) ∧
    ((u.tail - u.head).toNat ≤ 2 ^ u.log2n → u.busy = false → u.head ≠ u.tail →
      virtRead s u.func (u.base + 8 * (u.head.toNat % 2 ^ u.log2n)) 8 .read = .ok (s1, bs) →
      let root := natOfBytes bs
      (root = 0 → exec (.takeRoot q) s = .next (s1.modQueue q fun u => { u with head := u.head + 1, asked := none })) ∧
      (root ≠ 0 → virtRead s1 u.func u.tmpl 128 .read = .ok (s2, tb) →
        let tw := BitVec.ofNat 5120 (natOfBytes tb)
        let s3 := s2.modQueue q fun u => { u with head := u.head + 1, busy := true, asked := none }
        exec (.takeRoot q) s = .next (validate { s3 with
          trees := aset q ⟨root, u.home, u.func, tmplEff tw, [], none, false, tmplReason u.tmpl tw⟩ s3.trees } q)))) ∧
  (∀ (s s1 : State) q (t : Tree) r w, aget q s.trees = some t → folded s t = false → t.bad = some r →
    readNode s t.func t.root = .ok (s1, w) → validate s q = refuseTree s1 q [newNode t.root 0 0 w t.tmpl] (some t.root) r) ∧
  (∀ (w : BitVec 5120) (p : Eff), effOf w p = ⟨if w.getLsbD 16 then nodeField w 351 336 else p.wissue,
    if w.getLsbD 17 then nodeField w 367 352 else p.wdram, if w.getLsbD 18 then nodeField w 383 368 else p.wfab,
    if w.getLsbD 19 then nodeField w 395 384 else p.maxq, if w.getLsbD 20 then nodeField w 431 400 else p.slice,
    if w.getLsbD 21 then nodeField w 6 4 else p.prio, if w.getLsbD 22 then nodeField w 511 448 else p.fq,
    if w.getLsbD 22 then nodeField w 522 512 else p.msix, if w.getLsbD 23 then nodeField w 9 8 else p.det,
    if w.getLsbD 24 then nodeField w 447 432 else p.deadline⟩) ∧
  (∀ (s : State) fn (n : Node), (n.kind ≠ 1 ∧ n.kind ≠ 2 ∨ n.addr % 128 ≠ 0 → earlyReason s fn n = some 1) ∧
    (n.kind = 1 ∨ n.kind = 2 → n.addr % 128 = 0 → 7 < n.level → earlyReason s fn n = some 2)) ∧
  (∀ (s : State) q (t : Tree) w, aget q s.trees = some t → t.waiting = some w →
    exec (.validationReadAnswer q true) s = .next (validate s q) ∧
    ∃ t', exec (.validationReadAnswer q false) s = .next t' ∧ aget q t'.trees = none ∧ (t'.queue q).busy = false) ∧
  (∀ (s : State) die q a rest (t : Tree) (n : Node), (s.disp die).notices = (q, a) :: rest → aget q s.trees = some t →
    t.node a = some n →
    ∃ t', exec (.retirementNotice die) s = .next t' ∧ (t'.disp die).notices = rest ∧
      (¬ (n.allDisp = true ∧ n.retired + 1 = n.count) → nodeAt t' q a = some { n with retired := n.retired + 1 }) ∧
      (n.allDisp = true → n.retired + 1 = n.count → a = t.root → n.succ = [] →
        aget q t'.trees = none ∧ (t'.queue q).busy = false)) ∧
  (∀ (s s1 : State) die i refused w, (s.disp die).sweeps[i]? = some w → writeRw s w.func w.addr w.data = .ok s1 →
    ∃ t', exec (.wcbWriteback ⟨die, i⟩ refused) s = .next t' ∧ t'.mem = s1.mem ∧
      (t'.disp die).sweeps = (s1.disp die).sweeps.filter fun x => !(x.func = w.func && x.addr = w.addr))

/-- 04 R57 to R67; 05 R86, R87: a team that is placed stages in its slot with a scratchpad of zeros; it runs once its
entries are done, every hand with all its lanes at the entry, registers and predicates zero; dies advertise their free
slots, and take messages in; a drained team retires, and its home dispatcher is told. -/
def Obligations.TeamLives : Prop :=
  (∀ (s : State) die q t o i p, s.memOk → s.health.ready.contains (.die die) = true → chooseQueue s die = some (q, t, o, [(.fresh i, p)]) →
    ∃ t', exec (.placeTeam die) s = .next t' ∧ (t'.disp die).pointer = (q + 1) % 64 ∧
      ∃ tm, aget p.id t'.teams = some tm ∧ tm.st = .staging ∧ tm.index = i ∧ tm.func = t.func ∧ tm.node = o.node.addr ∧
        tm.queue = q ∧ tm.w = o.node.w ∧ tm.hands = o.node.hands ∧ tm.regs = o.node.regs ∧ tm.banks = p.banks ∧
        tm.start = p.start ∧ tm.quads = p.quads ∧ tm.tiles = p.tiles ∧ tm.entry = BitVec.ofNat 64 o.node.entry ∧
        tm.live = tm.hands * tm.w ∧ (∀ x, x < tm.scratch → t'.spByte p.id tm x = 0) ∧
        ∀ id, id ≠ p.id → aget id t'.teams = aget id s.teams) ∧
  (∀ (s : State) (id : TeamId) (tm : Team), aget id s.teams = some tm → tm.st = .staging → tm.staged = 0 →
    tm.stageWait = 0 → tm.w ≠ 0 →
    let runs := fun (t' : State) => (∃ tm', aget id t'.teams = some tm' ∧ tm'.st = .running) ∧
      (∀ i, i < tm.hands * tm.w → ∃ u, aget ⟨id, i / tm.w, i % tm.w⟩ t'.threads = some u ∧ u.pc = tm.entry ∧ u.run = .ready ∧
        u.regs = List.replicate tm.regs 0 ∧ u.full = List.replicate tm.regs true ∧ u.preds = 0 ∧ u.depth = 0 ∧
        u.pmask = BitVec.ofNat 64 (2 ^ tm.w - 1)) ∧
      ∀ j, j < tm.hands → ∃ hd, aget ⟨id, j⟩ t'.hands = some hd ∧ hd.storeQ = [] ∧
        hd.bundles = [⟨tm.entry, BitVec.ofNat 64 (2 ^ tm.w - 1), s.cycle⟩]
    (tm.region = [] → ∃ t', exec (.stagingDone id) s = .next t' ∧ runs t' ∧ t'.mem = s.mem) ∧
    (∀ e s1 bs, tm.region = [e] → regionKind e = 1 → (∀ p, (s.pch p).susp = none) → s.mem.spPoison = [] →
      virtRead s tm.func (regionBase e tm.index) (regionLen e) .read (nodeFolded s tm.func tm.node) = .ok (s1, bs) →
      ∃ t', exec (.stagingDone id) s = .next t' ∧ runs t' ∧ t'.mem = (s.spWrite id tm (regionSpoff e) bs).mem)) ∧
  (∀ (s : State) (id : TeamId) (tm : Team), aget id s.teams = some tm → tm.stageWait ≠ 0 →
    exec (.stagingPageAnswer id true) s = .next (s.modTeam id fun tm => { tm with stageWait := 0 }) ∧
    (tm.st = .staging → ∃ t' tm', exec (.stagingPageAnswer id false) s = .next t' ∧ aget id t'.teams = some tm' ∧
      tm'.st = .draining ∧ tm'.ranNever = true)) ∧
  (∀ (s : State) die, die < 8 → ∃ t', exec (.advertiseFreeSlots die) s = .next t' ∧ ∀ d fn, d < 8 → d ≠ die → fn < 65 →
    aget (die, fn) (t'.disp d).adverts = some (freeSlots s die fn)) ∧
  (∀ (s : State) die m rest, (s.disp die).incoming = m :: rest →
    let s1 := s.modDisp die fun d => { d with
      incoming := rest, got := d.got.filter (TeamMsg.open_ s die) ++ (if m.kind = 1 then [m] else []) }
    (m.kind = 1 → exec (.teamMessageReceive die) s = .next (touchNode s1 m.queue m.wcb fun n => { n with
      held := aset die (((n.heldAt die) ++ (List.range m.count).map (· + m.first)).mergeSort (· ≤ ·)) n.held })) ∧
    (m.kind ≠ 1 → exec (.teamMessageReceive die) s =
      .next (s1.modDisp die fun d => { d with fresh := d.fresh ++ [m] }))) ∧
  (∀ (s : State) (id : TeamId) (tm : Team), aget id s.teams = some tm → tm.st = .draining → tm.stageWait = 0 →
    drained s id tm = true → backPieces tm = [] →
    ∃ t', exec (.teamDrainDone id) s = .next t' ∧ aget id t'.teams = none ∧
      (∀ k, k.team = id → aget k t'.threads = none) ∧
      (t'.disp tm.homeDie).notices = (s.disp tm.homeDie).notices ++ [(tm.queue, tm.node)])

/-- 13 R283; 14 R310 to R319, R326, R327: the dealer maps a page, once no access uses the translation that it takes
the place of (the model's reading, notes/assumptions/65.md), or refuses it to a thread whose fetch waits on it; a
translation changes, and a MIGRATING page switches, once no access under it is outstanding; lines of a PULLING page
are pulled, or the page is LOST; holders of a duplicated page acknowledge; what a MIGRATING page has held goes on in
its order; the dirty bitmap swaps at its instant. 09 R192, R197; 14 R309, R314, R318: a line forwarded to a peer is
performed whole at its owner, in one step, on the memory that State.mem.fabric holds for other modules
(notes/assumptions/62.md), unless the peer is unreachable (PEER_UNREACHABLE), has another incarnation (PEER_LOST), or
has not exported the location (PAGE_PERMISSION; what another module exports is free, notes/assumptions/2.md); lines of
one unit that write are performed together, or end together (notes/assumptions/119.md); a line of another module is
performed here only where it is exported to it, under the export's key, and so is this module's own memory that is
reached by its node number; a reduction that comes again is applied once; a peer that resets, or that has had no route
for 200 µs, ends every line on its way. -/
def Obligations.Translations : Prop :=
  ((∀ (s : State) (fn : Nat) (p : Page) (fill : List Byte), pageOk p = true → pageMeets (s.func fn) p = false →
     p.state ≠ .invalid → fill.length ≤ p.size →
     let maps := s.modFunc fn fun f => { f with pages := f.pages.filter (fun x => x.va ≠ p.va) ++ [p] }
     (oldBusy s fn p.va = true → exec (.dealerMap fn p fill) s = .next s) ∧ (oldBusy s fn p.va = false →
     (fill = [] → exec (.dealerMap fn p fill) s = .next (releaseHeld (resolveFaults maps fn p.va p.size) fn)) ∧
     (∀ d w, p.state = .resident → pastSegment maps fn (p.fa + fill.length - 1) = false →
       secondStage maps fn p.fa false = .dram d w → fill ≠ [] → exec (.dealerMap fn p fill) s = .next (if fillFree s fn d fill.length then
         releaseHeld (resolveFaults (placeWrite maps (.dram d w) fill) fn p.va p.size) fn else s)))) ∧
   (∀ (s : State) (fn lo size : Nat) (r : FaultRec), r ∈ (resolveFaults s fn lo size).faults.raw → r.wait = true →
     r.func = fn → ¬ (lo ≤ r.page ∧ r.page < lo + size ∧ lo + size ≤ 2 ^ 64)) ∧
   (∀ (s : State) (k : ThreadKey) (u : Thread) va w fn page c (code : Byte), s.threads = [(k, u)] → u.run = .fetch va w →
     u.need = none → funcOf s k = fn → translate s fn (lineAddr va).toNat .fetch = .dealer c page →
     (match (s.func fn).page va.toNat with
       | some p => p.va
       | none => va.toNat / 65536 * 65536) = page →
     s.chans = [] → s.runs = [] → s.trees = [] → s.dispatchers = [] → s.ranks = [] → s.saved = [] → s.folds = [] →
     (∀ e ∈ s.teams, e.2.stageWait = 0) →
     code = 0x10 ∨ code = 0x11 →
     exec (.dealerRefuse fn va.toNat code) s =
       .next (takeFault (resolveFaults s fn page 1) k { code := code.toNat, faddr := va, acc := 4 })) ∧
   (∀ (s : State) (fn : Nat) (old new : Page), (s.func fn).pages.find? (fun p => p.va = old.va) = some old →
     (pageBusy s fn old = true → exec (.translationChange fn old.va none) s = .next s ∧
       ∀ to_, exec (.migrationSwitch fn old.va to_) s = .next s) ∧
     (oldBusy s fn old.va = false →
       exec (.translationChange fn old.va none) s =
         .next (releaseHeld (s.modFunc fn fun f => { f with pages := f.pages.filter fun x => x.va ≠ old.va }) fn) ∧
       (pageOk new = true → new.va = old.va →
         (pageMeets (s.func fn) new = false →
           exec (.translationChange fn old.va (some new)) s = .next (releaseHeld (putPage s fn new) fn)) ∧
         (∀ h, old.state = .migrating h → new.size = old.size →
           exec (.migrationSwitch fn old.va new) s = .next (releaseHeld (putPage s fn new) fn))))) ∧
   (∀ (s : State) (fn va : Nat) (p : Page), (s.func fn).page va = some p → p.state = .pulling →
     (∃ t, exec (.linePull fn va true) s = .next t ∧ t.funcs = (putPage s fn { p with state := .lost, key := segKey s fn p }).funcs ∧ t.mem = s.mem) ∧
     (pullsNext p (va / 128) = true →
       let a := va / 128 * 128
       let s1 := putPage s fn { p with pulled := p.pulled ++ [va / 128] }
       ∀ d w, secondStage s fn (p.fa + (a - p.va)) true = .dram d w → mayServe s (pchOf d) (engineLane fn true) = true →
         exec (.linePull fn va false) s = .next (countServed (placeWrite s1 (.dram d w)
           (memRead s.mem.fabric (p.node * 2 ^ 42 + (p.addr + (a - p.va)) % 2 ^ 42) 128)) (pchOf d) (engineLane fn true))) ∧
     (∀ w rest, p.wanted.filter (fun w => !p.pulled.contains w) = w :: rest → va / 128 ≠ w →
       exec (.linePull fn va false) s = .next s)) ∧
   (∀ (s : State) n node fn (p : Page), (dupPages s node)[n]? = some (fn, p) →
     exec (.dupInvalidateAck n node) s = .next (putPage s fn { p with holders := p.holders.filter (· ≠ node) })) ∧
   (∀ (s : State) fn t, let due := fun (f : Func) => f.dirtyPend && decide (f.swapt ≤ s.fab.time)
     exec (.dirtySwapSchedule fn t) s = .next (s.modFunc fn fun f => { f with
       swapt := max t (s.fab.time + 1000), dirtyPend := true, dirtyCur := if due f then !f.dirtyCur else f.dirtyCur }) ∧
     exec (.dirtySwap fn) s = .next (s.modFunc fn fun f =>
       if due f then { f with dirtyCur := !f.dirtyCur, dirtyPend := false } else f))) ∧
  ((∀ (s : State) n (f : Forward), s.forwards[n]? = some f →
     let runs := fun (t : State) => exec (.forwardedLine (.sent n)) s = .next t
     (s.forwards.filter (fun e => e.group = f.group) = [f] → f.dram = none →
       let ends := fun (t : State) (a : Answer) =>
         { t with forwards := s.forwards.filter (fun e => e.group ≠ f.group), answers := s.answers ++ [(f.id, a)] }
       let fails := fun (c : Nat) => (⟨some { code := c, faddr := BitVec.ofNat 64 f.va, acc :=
         if f.rop ≠ none then 8 else if f.write = none then 1 else 2 }, 0, []⟩ : Answer)
       (∀ nd, f.node = some nd →
         (nd ∈ s.fab.lost → runs (ends s (fails 0x14))) ∧
         (nd ∉ s.fab.lost → agetD nd f.inc s.fab.peers ≠ f.inc → runs (ends s (fails 0x13))) ∧
         (nd ∉ s.fab.lost → agetD nd f.inc s.fab.peers = f.inc →
           let place := nd * 2 ^ 42 + f.addr
           let writes := fun bs => runs (ends { countLine s f.func f.va true with
             mem := { s.mem with fabric := memWrite s.mem.fabric place bs } } ⟨none, 0, []⟩)
           (lineTravels s f = false → runs s) ∧
           (lineTravels s f = true → Config.exported s.tick nd f.func f.addr = false → runs (ends s (fails 0x11))) ∧
           (lineTravels s f = true → Config.exported s.tick nd f.func f.addr = true →
             (lineOvertakes s f = true → runs s) ∧
             (lineOvertakes s f = false → f.write = none →
               runs (ends (countLine s f.func f.va false) ⟨none, 0, memRead s.mem.fabric place f.len⟩)) ∧
             (∀ bs, lineOvertakes s f = false → f.write = some bs → bs.length = f.len →
               (f.rop = none → writes bs) ∧
               (∀ rop, f.rop = some rop → f.len % 4 = 0 →
                 writes (combineBytes rop (memRead s.mem.fabric place f.len) bs)))))) ∧
       (f.node = none → lineTravels s f = true → lineOvertakes s f = false → f.write = none → f.rop = none →
         runs (ends (countLine s f.func f.va false) ⟨none, 0, memRead s.mem.host f.addr f.len⟩))) ∧
     (let fs := s.forwards.filter fun e => e.group = f.group
       let failing := fs.findSome? fun e => (forwardFails s e).map fun c => (e, c)
       (∀ e c, failing = some (e, c) → c ≠ 0x11 ∨ lineTravels s e = true → runs { s with
         forwards := s.forwards.filter (fun e => e.group ≠ f.group)
         answers := s.answers ++ fs.map fun x => (x.id, x.ends c) }) ∧
       (failing = none → (∃ e ∈ fs, lineReady s e = false) →
         ∃ t, runs t ∧ t.mem = s.mem ∧ t.forwards = s.forwards ∧ t.answers = s.answers) ∧
       (failing = none → (∀ e ∈ fs, lineReady s e = true) → f.write ≠ none →
         ∃ t, runs t ∧ t.answers = s.answers ++ fs.map fun x => (x.id, ⟨none, 0, []⟩)))) ∧
   (∀ (s : State) fn (p : Page) va wr, p.node ∉ s.fab.lost → agetD p.node p.inc s.fab.peers = p.inc → p.node = s.fab.node →
     (∀ e ∈ s.fab.exports, ¬ (e.node = p.node ∧ e.func = fn ∧ e.lo ≤ (p.addr + (va - p.va)) % 2 ^ 42 ∧
       (p.addr + (va - p.va)) % 2 ^ 42 < e.hi)) → forwardTo s fn p va wr = .final 0x11) ∧
   (∀ (s : State) node fn loc (l : LineStep) n wr port, node ≠ s.fab.node → portTo s node = some port →
     vcBlocked s port (lineVc fn) = false → n ≠ 0 → loc % 128 + n ≤ 128 → loc + n ≤ 2 ^ 41 →
     (l = .came node fn loc none n ∧ wr = false ∨ (∃ bs, l = .came node fn loc (some bs) 0 ∧ bs.length = n ∧ wr = true) ∨
       ∃ rop bs tag, l = .reduces node fn loc rop bs tag ∧ bs.length = n ∧ (node, tag) ∉ s.fab.tags ∧ wr = true) →
     let runs := fun (t : State) => exec (.forwardedLine l) s = .next t
     ((∀ e ∈ s.fab.exports, ¬ (e.node = node ∧ e.func = fn ∧ e.lo ≤ loc ∧ loc < e.hi)) → runs (replyLine s node (some 0x11) [])) ∧
     (∀ d w, ownExport s node fn loc wr = .dram d w → let k := farLane node fn wr
       (mayServe s (pchOf d) k = false → runs (noteBusy s (pchOf d) k)) ∧
       (mayServe s (pchOf d) k = true → let runs := fun t => runs (countServed t (pchOf d) k)
         (∀ bs, l = .came node fn loc (some bs) 0 → runs (replyLine (placeWrite s (.dram d w) bs) node none [])) ∧
         (wr = false → dramPoisoned s (locOf d) n = false → runs (replyLine s node none (dramRead s d n))) ∧
         (wr = false → dramPoisoned s (locOf d) n = true → runs (replyLine s node (some 0x15) [])) ∧
         (∀ rop bs tag, l = .reduces node fn loc rop bs tag → dramPoisoned s (locOf d) n = false →
           let s1 := placeWrite s (.dram d w) (combineBytes rop (dramRead s d n) bs)
           runs (replyLine { s1 with fab := { s1.fab with tags := s1.fab.tags ++ [(node, tag)] } } node none []))))) ∧
   (∀ (s : State) node fn loc rop bs tag, (node, tag) ∈ s.fab.tags →
     exec (.forwardedLine (.reduces node fn loc rop bs tag)) s = .next (replyLine s node none [])) ∧
   (∀ (s : State) node, (s.forwards.map fun f => f.group).Nodup →
     let off := fun (t : State) (code : Nat) => t.forwards = s.forwards.filter (fun f => f.node ≠ some node) ∧
       t.answers = s.answers ++ (s.forwards.filter fun f => f.node = some node).map fun f => (f.id, f.ends code)
     (∀ inc old, aget node s.fab.peers = some old → old ≠ inc →
       ∃ t, exec (.peerReset node inc) s = .next t ∧ aget node t.fab.peers = some inc ∧ off t 0x13) ∧
     (∀ since, aget node s.fab.noRoute = some since → node ∉ s.fab.lost → hasRoute s node = false →
       (s.fab.time < since + 200000 → exec (.peerUnreachable node) s = .next s) ∧
       (since + 200000 ≤ s.fab.time →
         ∃ t, exec (.peerUnreachable node) s = .next t ∧ t.fab = { s.fab with lost := s.fab.lost ++ [node] } ∧ off t 0x14))))

/-- 14 R320 to R325; 16 R372; 23 R407; 00 R6: a waiting fault on a page that has an unresolved record joins it, and
any other is one of its own; a queue's TAIL moves past each record written, and a queue that was empty signals; RESUME
restarts a stopped thread at its instruction and RESUME.NEXT after it; ABORT ends a team; the dealer answers with a
status, and an unknown node with 2; a function reads the queue blocks of others as 0; registers take what is written
to their fields, the halt register as far as the partitions on the core allow it, and a thread's register is full when
a debugger writes it. -/
def Obligations.FaultsAndMailbox : Prop :=
  (∀ (s : State) (r : FaultRec) rest, s.faults.raw = r :: rest →
    (s.faults.merged.any (sameFault · r) = false → exec (.faultFilterMerge 0) s =
      .next { s with faults := ⟨rest, s.faults.merged ++ [r]⟩ }) ∧
    (∀ x, s.faults.merged = [x] → sameFault x r = true → x.written = false → exec (.faultFilterMerge 0) s =
      .next { s with faults := ⟨rest, [{ x with waiters := min 65535 (x.waiters + r.waiters), acc := x.acc ||| r.acc }]⟩ })) ∧
  (∀ (s s1 : State) (r : FaultRec) rest empty, s.faults.merged = r :: rest → r.written = false →
    ringAppend s r.func r.fq 64 r.word = .done s1 empty →
    let s2 := { s1 with faults := { s1.faults with merged := if r.wait ∧ r.page ≠ answered then { r with written := true } :: rest
      else rest } }
    s1.faults = s.faults → exec (.faultQueueAppend r.homeDie) s = .next (if empty then signal s2 r.func r.msix else s2)) ∧
  (∀ (s : State) fn, let w := natOfBytes (s.func fn).mailbox
    let node := bits w 127 64
    let team := bits w 159 128
    let hand := bits w 191 160
    let mask := BitVec.ofNat 64 (bits w 255 192)
    (funcReady s fn = false → exec (.mailboxDoorbell fn) s = .next s) ∧ (funcReady s fn = true →
    (bits w 31 0 = 0x21 → exec (.mailboxDoorbell fn) s = exec (.resume fn node team hand mask) s) ∧
    (bits w 31 0 = 0x22 → exec (.mailboxDoorbell fn) s = exec (.resumeNext fn node team hand mask) s) ∧
    (bits w 31 0 = 0x23 → exec (.mailboxDoorbell fn) s = exec (.abort fn node team) s))) ∧
  (∀ (s : State) fn node team hand (l : Nat) id (u : Thread) c, ownsNode s fn node = true →
    findTeam s fn node team = some id → l < 64 → aget ⟨id, hand, l⟩ s.threads = some u → u.run = .stopped c → fn ≤ 64 →
    funcReady s fn = true → ((s.func fn).vector 1).getLsbD 96 = false →
    let done := fun (t : State) (u' : Thread) => aget ⟨id, hand, l⟩ t.threads = some u' ∧
      (∀ k, k ≠ ⟨id, hand, l⟩ → aget k t.threads = aget k s.threads) ∧ (t.func fn).reply = [0, 0, 0, 0] ∧
      agetD 1 0 (t.func fn).msix = agetD 1 0 (s.func fn).msix + 1 ∧ t.mem = s.mem
    (∃ t, exec (.resume fn node team hand (BitVec.twoPow 64 l)) s = .next t ∧ done t { u with run := .ready }) ∧
    ∃ t, exec (.resumeNext fn node team hand (BitVec.twoPow 64 l)) s = .next t ∧ done t u.past) ∧
  (∀ (s : State) fn node team hand mask, funcReady s fn = true → ownsNode s fn node = false → exec (.resume fn node team hand mask) s = .next (reply s fn 2) ∧
    exec (.resumeNext fn node team hand mask) s = .next (reply s fn 2) ∧ exec (.abort fn node team) s = .next (reply s fn 2)) ∧
  (∀ (s : State) fn node team id (tm : Team) t0 n, funcReady s fn = true → ownsNode s fn node = true → findTeam s fn node team = some id →
    aget id s.teams = some tm → tm.st = .running → tm.chain = false → tm.detMode = false → tm.queue < 64 →
    aget tm.queue s.trees = some t0 → t0.node tm.node = some n →
    ∃ t tm' n', exec (.abort fn node team) s = .next t ∧ (∀ k ∈ teamThreads s id, ∀ u, aget k t.threads = some u → u.run = .exited) ∧
      aget id t.teams = some tm' ∧ tm'.st = .draining ∧ nodeAt t tm.queue tm.node = some n' ∧ n'.abrt = true ∧
      (t.func fn).reply = [0, 0, 0, 0]) ∧
  (∀ (s : State) fn en, exec (.debugEnableRequest fn en) s = .next (if funcReady s 0 then
    reply (s.modFunc fn fun f => { f with debugEn := en }) 0 0 else s)) ∧
  (∀ (s : State) q v, q < 64 → exec (.registerWrite (.queueTmpl q) v) s = .next (s.modQueue q fun u => { u with tmpl := v % 2 ^ 64 }) ∧
    exec (.registerWrite (.queueEn q) v) s = .next (s.modQueue q fun u => { u with en := decide (v % 2 = 1) }) ∧
    exec (.registerWrite (.queueHome q) v) s = .next (s.modQueue q fun u => { u with home := v % 8 })) ∧
  (∀ (s : State) fn i v, (i ≠ 0 → bit (segWrite i v).toNat 62 = true) ∧
    (onAny s fn = true → exec (.registerWrite (.segment fn i) v) s = .next s) ∧
    (onAny s fn = false → i = 1 ∨ i = 2 → bits v 39 20 ≠ 0 → bits v 39 20 ≤ 2 ^ 19 → bits v 39 20 + bits v 19 0 ≤ 2 ^ 20 →
      exec (.registerWrite (.segment fn i) v) s = .next (s.modFunc fn fun f => { f with segs := f.segs.set i (segWrite i v) }))) ∧
  (∀ (s : State) fn off n v, funcReady s fn = true → off + n ≤ 2048 → off ≤ (s.func fn).mailbox.length →
    ∃ f, exec (.registerWrite (.mailbox fn off n) v) s = .next (s.modFunc fn fun _ => f) ∧ f.pages = (s.func fn).pages ∧
      ∀ i, (i < n → f.mailbox[off + i]? = some (BitVec.ofNat 8 (v / 2 ^ (8 * i)))) ∧
        ((i < off ∨ off + n ≤ i) → f.mailbox[i]? = (s.func fn).mailbox[i]?)) ∧
  (∀ (s : State) fn q i, q < 64 → i < 32 → barByte s fn (0x1000 + 32 * q + i) =
    if (s.queue q).func = fn then BitVec.ofNat 8 ((s.queue q).block / 2 ^ (8 * i)) else 0) ∧
  (∀ (s : State) c v, (bit v 31 = false → ∃ t, exec (.registerWrite (.coreHalt c) v) s = .next t ∧
      (t.core c).halt = false ∧ (t.core c).freeze = bit v 30 ∧ t.mem = s.mem) ∧
    (bit v 31 = true → mayHalt s c = true → ∃ t, exec (.registerWrite (.coreHalt c) v) s = .next t ∧
      (t.core c).halt = true ∧ (t.core c).freeze = bit v 30 ∧ t.mem = s.mem) ∧
    (bit v 31 = true → mayHalt s c = false → exec (.registerWrite (.coreHalt c) v) s = .next s)) ∧
  (∀ (s : State) (k : ThreadKey) (tm : Team) (u : Thread) (x : BitVec 8) v, aget k.team s.teams = some tm →
    aget k s.threads = some u → (s.func tm.func).debugEn = true → x ≠ 0#8 → x.toNat < tm.regs → u.regs.length = tm.regs →
    u.full.length = tm.regs → ∃ u', exec (.registerWrite (.threadReg k x) v) s = .next (s.modThread k fun _ => u') ∧
      readReg u' x false = BitVec.ofNat 64 (v % 2 ^ 32) ∧ isFull u' x false = true ∧
      ∀ y, y ≠ x → readReg u' y false = readReg u y false ∧ isFull u' y false = isFull u y false) ∧
  (∀ (s : State) p v, 16 ≤ bits v 9 0 → bits v 9 0 ≤ 1000 → bits v 23 16 ≠ 0 →
    exec (.registerWrite (.nbArb p) v) s = .next (s.modPch p fun u => { u with quota := bits v 23 16, nbarb := bits v 9 0 })) ∧
  (∀ (s : State) node v, v < 36 → exec (.registerWrite (.route node) v) s =
    .next { s with fab := { s.fab with routes := aset node v s.fab.routes } })

/-- 15 R331, R332, R335, R337 to R345: a function whose quadrant-clocks reach its budget is throttled until its period
ends; a slice end and the dealer's request mark a node, and lifting the request makes it READY again; a team past its
deadline is halted; a team at rest leaves its core for its image; a node whose teams have all left is PREEMPTED; a
reset takes every team of the function off its cores, and its carve-out and translations go, and the PF's resets every
VF in ascending number before the PF; a mailbox request for a reset is answered (what with: notes/assumptions/110.md),
a reset that waits for a sweep leaves its folds dead, and another module's frees its transit kitty here; resources
change their owner cleared. -/
def Obligations.Partitions : Prop :=
  (∀ (s : State) fn, (s.func fn).budget ≠ 0 → (s.func fn).throttled = false →
    (usedNow s fn < (s.func fn).budget * 1250 → exec (.budgetThrottle fn) s = .next s) ∧
    ((s.func fn).budget * 1250 ≤ usedNow s fn → ∃ t, exec (.budgetThrottle fn) s = .next t ∧ t = { s with funcs := t.funcs, health := t.health } ∧
      (t.func fn).throttled = true ∧ ∀ f, f ≠ fn → t.func f = s.func f)) ∧
  (∀ (s : State) fn, let p := (s.func fn).period * 1000000
    p ≠ 0 → s.fab.time / p ≠ (s.func fn).periodAt / p → ∃ t, exec (.budgetPeriodEnd fn) s = .next t ∧
      t = { s with funcs := t.funcs, teams := t.teams } ∧
      t.func fn = { s.func fn with used := 0, throttled := false, periodAt := s.fab.time } ∧ usedNow t fn = 0) ∧
  (∀ (s : State) q a (n : Node), nodeAt s q a = some n → n.kind = 2 → n.pending = false → nodeTeams s q a (· = .staging) = [] →
    let marked := fun (t : State) b at_ => t = { s with trees := t.trees } ∧
      nodeAt t q a = some { n with pending := true, pendAt := at_, why := n.why ||| b }
    (n.state = 2 → n.eff.slice ≠ 0 → n.runAt + n.eff.slice * 1000 ≤ s.fab.time →
      ∃ t, exec (.sliceEnd q a) s = .next t ∧ marked t 1 (n.runAt + n.eff.slice * 1000)) ∧
    (s.fab.time < n.runAt + n.eff.slice * 1000 → exec (.sliceEnd q a) s = .next s) ∧
    (n.state = 1 ∨ n.state = 2 → ∃ t, exec (.dealerPreemptRequest q a) s = .next t ∧ marked t 2 s.fab.time) ∧
    (n.state = 3 → exec (.dealerPreemptRequest q a) s = .next (touchNode s q a fun n => { n with why := n.why ||| 2 }))) ∧
  (∀ (s : State) q a (n : Node), nodeAt s q a = some n → n.addr = a → n.state = 3 → n.why = 2 →
    ∃ t n', exec (.dealerLiftPreempt q a) s = .next t ∧ nodeAt t q a = some n' ∧ n'.state = 1 ∧ n'.why = 0) ∧
  (∀ (s : State) id (tm : Team) x, aget id s.teams = some tm → escalateAt s tm = some x → tm.st = .running → tm.suspendAt = none →
    slicePending s tm = true →
    (x ≤ s.fab.time → ∃ t, exec (.escalate id) s = .next t ∧ t = { s with teams := t.teams, chans := t.chans } ∧
      t.teams = (s.modTeam id fun tm => { tm with halted := true, suspendAt := some true }).teams ∧
      ∀ c, t.chan c = if c ∈ teamChans id tm then haltJob id (s.chan c) else s.chan c) ∧
    (s.fab.time < x → exec (.escalate id) s = .next s)) ∧
  (∀ (s : State) id (tm : Team) a rest esc, aget id s.teams = some tm → tm.chain = false → tm.suspendAt = some esc →
    teamRests s id tm = true → (s.func tm.func).ctxPool = a :: rest →
    let sv := saveTeam s id tm ⟨8, 0, s.nextId⟩ 0
    let bs := imageBytes s id tm sv
    ∃ t left asked msg, exec (.contextImageWrite id) s = .next t ∧ aget id t.teams = none ∧
      (∀ k, k.team = id → aget k t.threads = none) ∧ (t.func tm.func).ctxPool = rest ∧
      (a, { sv with image := bs, left := left, asked := asked, msg := msg }) ∈ t.saved ∧
      (s.saved = [] → left = [] → msg = none ∧ (t.disp id.die).fresh = (s.disp id.die).fresh ++
        [⟨a, tm.node, tm.index, 1, tm.queue, tm.homeDie, id.die, tm.eff.prio, 2⟩])) ∧
  (∀ (s : State) id (tm : Team) (sv : Saved), let bs := imageBytes s id tm sv
    bs.length % 64 = 0 ∧
      bs.take 64 = bytesOfNat 64 (imageHeader s tm (sv.accs ≠ []) (tm.suspendAt = some true) sv.next bs.length)) ∧
  (∀ (s : State) q a (n : Node), nodeAt s q a = some n → n.addr = a → n.pending = true →
    nodeTeams s q a (fun _ => true) = [] →
    (∀ e ∈ s.saved, e.2.team.queue = q → e.2.team.node = a → e.2.left = [] ∧ e.2.msg = none) →
    (teamsRemain s q n = true → ∃ t n', exec (.nodePreempted q a) s = .next t ∧ nodeAt t q a = some n' ∧ n'.pending = false ∧
      n'.state = (if n.why / 2 = 0 then 1 else 3)) ∧
    (teamsRemain s q n = false → exec (.nodePreempted q a) s =
      .next (touchNode s q a fun n => { n with pending := false, why := 0 }))) ∧
  (∀ (s : State), let wiped := fun (t : State) fn => (∀ e ∈ t.teams, e.2.func ≠ fn) ∧ (t.func fn).pages = [] ∧
      (t.func fn).resetting = false ∧ (bit ((t.func fn).segs.getD 0 0).toNat 63 = true →
        ∀ x, (segRange ((t.func fn).segs.getD 0 0)).1 ≤ x →
          x < (segRange ((t.func fn).segs.getD 0 0)).1 + (segRange ((t.func fn).segs.getD 0 0)).2 → memGet t.mem.dram x = 0)
    (∀ fn, 1 ≤ fn → fn ≤ 64 →
      (foldSweeps s fn = false → atRest (beginReset s fn) fn = true →
        (∃ t, exec (.vfReset ⟨fn, .level⟩) s = .next t ∧ wiped t fn) ∧
        ∀ f, f = 0 ∨ f = fn → funcReady s f = true →
          ∃ t, exec (.vfReset ⟨fn, .mailbox f⟩) s = .next (replyOpen t f) ∧ wiped t fn) ∧
      (foldSweeps s fn = true → ∃ t, exec (.vfReset ⟨fn, .level⟩) s = .next t ∧ t = { s with folds := t.folds } ∧
        ∀ e ∈ t.folds, e.2.cmd.func = fn → e.2.dead = true) ∧
      ∀ f, f ≠ 0 → f ≠ fn → exec (.vfReset ⟨fn, .mailbox f⟩) s = .next s) ∧
    (∀ fn, fn = 0 ∨ 64 < fn → exec (.vfReset ⟨fn, .level⟩) s = .next s) ∧
    (∀ fn job f, aget job s.folds = some f → f.cmd.root = 0 → f.kstate ≠ 1 →
      ∃ t, exec (.vfReset ⟨fn, .elsewhere job⟩) s = .next t ∧ aget job t.folds = none) ∧
    (s.health.pfReset = none → ∃ t, exec .pfReset s = .next t ∧
      (t.health.pfReset = none → wiped t 0 ∧ ∀ e ∈ t.teams, 65 ≤ e.2.func) ∧
      ∀ fn, t.health.pfReset = some fn → (foldSweeps t fn = true ∨ (t.func fn).resetting = true) ∧
        ∀ g ∈ resetOrder.takeWhile (· ≠ fn), ∀ e ∈ t.teams, e.2.func ≠ g)) ∧
  (∀ (s : State) (q : QuadId) fn, (∀ e ∈ coreTeams s ⟨q.die, q.core⟩, q.quad ∉ e.2.quads) →
    ErrUnit.regSlice q ∉ s.health.lasting →
    ∃ t, exec (.resourceGrant (.quad q (some fn))) s = .next t ∧ aget q t.quadOwner = some fn ∧ t.mat q = Mat.reset ∧
      (∀ i, t.chan ⟨q, i⟩ = Chan.reset) ∧ ∀ p, p ≠ q → aget p t.quadOwner = aget p s.quadOwner ∧ t.mat p = s.mat p) ∧
  (∀ (s : State) (c : CoreId) g fn, g < 16 → coreFree s c (aget g (s.core c).bankOwner) (some fn) = true →
    (∀ b ∈ (s.core c).stuck, b / 4 ≠ g) → (s.core c).idle = false →
    ∃ t, exec (.resourceGrant (.spBanks c g (some fn))) s = .next t ∧ aget g (t.core c).bankOwner = some fn ∧
      ∀ x, memGet t.mem.sp x = if coreNo c * 2097152 + g * 131072 ≤ x ∧ x < coreNo c * 2097152 + (g + 1) * 131072 then 0
        else memGet s.mem.sp x) ∧
  (∀ (s : State) q fn, q < 64 → (s.queue q).busy = false → exec (.resourceGrant (.queue q (some fn))) s =
    .next (s.modQueue q fun u => { u with func := fn, tail := 0, head := 0, en := false, owed := false }))

/-- 15 R346 to R350: a fold that is not refused is kept; at its instant a packet of the job goes to the kitty behind
those before it, and the kitty is sealed; a packet that comes to a closed queue goes to the late segment while it is
open, and is discarded, with LOSSY, after it; from the unfold time on packets are held at the link, and the kitty's
are given back, the late ones behind the others and those held at the link last. The model's choices: a command for a
KVA that is not aligned or a T less than 200 us ahead is refused and changes nothing (notes/assumptions/74.md); a
packet that comes to a queue still to be swept enters it (notes/assumptions/76.md). -/
def Obligations.Folds : Prop :=
  (∀ (s : State) (c : FoldCmd), c.func ≤ 64 → aget c.job s.folds = none →
    (26214400 ≤ c.mainLen → c.kva % 64 = 0 → s.fab.time + 200000 ≤ c.t → exec (.foldCommand c) s =
      .next { s with folds := s.folds ++ [(c.job, ⟨c, 0, 0, 0, 0, 0, 0, 0, 0, false, false, [], [], none, [], [], false⟩)] }) ∧
    (c.mainLen < 26214400 ∨ c.kva % 64 ≠ 0 ∨ c.t < s.fab.time + 200000 → exec (.foldCommand c) s = .next s)) ∧
  (∀ (s s1 s2 : State) job (f : Fold) (p : Packet), aget job s.folds = some f → f.cmd.job = job → f.cmd.t ≤ s.fab.time →
    f.kstate = 1 → f.stale = false → f.late = [] → s.fab.packets = [p] → p.job = job →
    let fn := f.cmd.func
    let bs := packetBytes p false f.mainN
    let f1 := { f with swept := sweepKey p, mainN := f.mainN + 1, mainB := f.mainB + bs.length }
    let f2 := { f1 with kstate := 2, sealT := s.fab.time, swept := 1536 }
    virtWrite s fn (f.cmd.kva + 64 + f.mainB) bs = .ok s1 →
    virtWrite (setFold { s1 with fab := { s1.fab with packets := [] } } f1) fn f.cmd.kva (bytesOfNat 64 (kittyHead f2)) = .ok s2 →
    exec (.foldInstant job) s = .next (tellDealer (setFold s2 f2) (.folded job))) ∧
  (∀ (s : State) job (f : Fold), aget job s.folds = some f → s.fab.time < f.cmd.t → exec (.foldInstant job) s = .next s) ∧
  (∀ (s : State) (p : Packet), packetCarried p = true → vcBlocked s p.port p.vc = false →
    let enters := { s with fab := { s.fab with packets := s.fab.packets ++ [{ p with stage := .ingress }] } }
    (aget p.job s.folds = none → exec (.latePacketArrival ⟨p, false⟩) s = .next enters) ∧
    ∀ f : Fold, aget p.job s.folds = some f → f.cmd.job = p.job →
      (f.t2 = none → f.swept ≤ p.port * 8 + p.vc → exec (.latePacketArrival ⟨p, false⟩) s = .next enters) ∧
      (∀ x, f.kstate = 2 → f.t2 = some x → x ≤ s.fab.time → exec (.latePacketArrival ⟨p, false⟩) s =
        .next (modFold s p.job fun f => { f with link := f.link ++ [{ p with stage := .ingress }] })) ∧
      (f.kstate = 2 → f.t2 = none → p.port * 8 + p.vc < f.swept →
        let bs := packetBytes { p with stage := .ingress } true f.lateN
        let f1 := { f with lateN := f.lateN + 1, lateB := f.lateB + bs.length, stale := false }
        let latest := f.sealT + (if f.cmd.latew = 0 then 50 else f.cmd.latew) * 1000
        (∀ s1 s2, s.fab.time < latest → f.late = [] → f.lateB + bs.length ≤ f.cmd.lateLen →
          virtWrite s f.cmd.func (f.cmd.kva + 64 + f.cmd.mainLen + f.lateB) bs = .ok s1 →
          virtWrite (modFold s1 p.job fun f => { f with lateN := f.lateN + 1, lateB := f.lateB + bs.length, stale := true })
            f.cmd.func f.cmd.kva (bytesOfNat 64 (kittyHead f1)) = .ok s2 →
          ∃ t, exec (.latePacketArrival ⟨p, false⟩) s = .next t ∧ t.mem = s2.mem ∧ t.fab = s2.fab ∧ aget p.job t.folds = some f1) ∧
        (latest ≤ s.fab.time ∨ f.cmd.lateLen < f.lateB + f.waitB + bs.length → ∃ t f', exec (.latePacketArrival ⟨p, false⟩) s = .next t ∧
          t.fab.packets = s.fab.packets ∧ aget p.job t.folds = some f' ∧ f'.dropN = f.dropN + 1 ∧ f'.lossy = true ∧
          f'.mainN = f.mainN ∧ f'.lateN = f.lateN))) ∧
  (∀ (s s1 s2 s3 : State) job (f : Fold) main late x y lossy, aget job s.folds = some f → f.cmd.job = job → f.kstate = 2 →
    (s.func f.cmd.func).resetting = false → f.late = [] → (f.dead = true → exec (.unfoldJob ⟨job, y, lossy⟩) s = .next s) ∧
    (f.dead = false →
    (f.t2 = none → exec (.unfoldJob ⟨job, y, lossy⟩) s = .next (modFold s job fun f => { f with t2 := some (max y s.fab.time) })) ∧
    (f.t2 = some x → s.fab.time < x → exec (.unfoldJob ⟨job, y, lossy⟩) s = .next s) ∧
    (f.t2 = some x → x ≤ s.fab.time → stillFolding s f.cmd = false → f.stale = false →
      readPackets f.cmd.func f.mainN s (f.cmd.kva + 64) = .ok (s1, main) →
      readPackets f.cmd.func f.lateN s1 (f.cmd.kva + 64 + f.cmd.mainLen) = .ok (s2, late) →
      virtWrite (modFold s2 job fun f => { f with kstate := 3, stale := true }) f.cmd.func f.cmd.kva
        (bytesOfNat 64 (kittyHead { f with kstate := 3 })) = .ok s3 →
      ∃ t, exec (.unfoldJob ⟨job, y, lossy⟩) s = .next t ∧ aget job t.folds = none ∧
        t.fab = { s.fab with packets := s.fab.packets ++ (main ++ late) ++ f.link })))

/-- 16 R354 to R357: a port that trains knows its neighbour and the neighbour's incarnation; a packet is sent whole
once the next hop takes it, whatever it takes (notes/assumptions/2.md); a retry counts as a corrected error of its
lane. A copy of fabric time that is behind its master's steps forward when it joins, and one that is ahead slews; the
lowest reachable identifier takes over from a lost master. The model's choice (notes/assumptions/78.md): to a module
that has joined, a time of its own master that is further off than 100 ns changes nothing, and another master's makes
it join anew. A port whose readiness bit has fallen trains no more (notes/assumptions/85.md). -/
def Obligations.Links : Prop :=
  (∀ (s : State) port node inc, s.fab.node ≠ 0 → port ≤ 35 → bit s.fab.linkEn port = true →
    .link port ∉ s.health.fallen → (agetD port Port.reset s.fab.ports).lanes ≠ 0 →
    ∃ t, exec (.linkTrain port node inc) s = .next t ∧ aget node t.fab.peers = some inc ∧ node ∉ t.fab.lost ∧
      .link port ∈ t.health.ready ∧ t.mem = s.mem ∧
      ∃ p, aget port t.fab.ports = some p ∧ p.trained = true ∧ p.peer = node ∧ p.credits.length = 8) ∧
  (∀ (s : State) port vc (p : Packet), nextSent s port vc = some p → (agetD port Port.reset s.fab.ports).trained = true →
    let o := agetD port Port.reset s.fab.ports
    let n := o.credits.getD vc 0 + newCredits s vc
    exec (.packetSend port vc) s = .next (if n < p.flits.length then
        { s with tick := s.tick + 1, fab := { s.fab with
          ports := aset port { o with credits := o.credits.set vc n } s.fab.ports } }
      else { s with tick := s.tick + 1, fab := { s.fab with
          packets := s.fab.packets.erase p
          sent := s.fab.sent ++ [(port, p)]
          ports := aset port { o.sentPast vc (portWaits s port vc) p with credits := o.credits.set vc (n - p.flits.length) } s.fab.ports } })) ∧
  (∀ (s : State) port lane, (agetD port Port.reset s.fab.ports).trained = true → lane < 8 →
    exec (.flitRetry port lane) s = .next (countError s (.linkLane port lane))) ∧
  (∀ (s : State) port lane, (agetD port Port.reset s.fab.ports).trained = false → exec (.flitRetry port lane) s = .next s) ∧
  (∀ (s : State) m t, timeComes s m = true → m < s.fab.node →
    (∀ k, s.fab.master = some k → k < m → reachable s k = false) → t < 2 ^ 64 →
    (s.fab.joined = false ∨ s.fab.master ≠ some m ∨ agrees s t = true → exec (.timeSync m t) s = .next { s with fab := { s.fab with
      time := max s.fab.time t, timeFrac := if s.fab.time < t then 0 else s.fab.timeFrac, ahead := s.fab.time - t
      master := some m, joined := true } }) ∧
    (s.fab.joined = true → s.fab.master = some m → agrees s t = false → exec (.timeSync m t) s = .next s)) ∧
  (∀ (s : State) m, s.fab.master = some m → reachable s m = false → ∃ t m', exec .timeMasterTakeover s = .next t ∧
    t = { s with fab := { s.fab with master := some m' } } ∧ (m' = s.fab.node ∨ (reachable s m' = true ∧ ∃ i, (m', i) ∈ s.fab.peers)) ∧
    m' ≤ s.fab.node ∧ ∀ e ∈ s.fab.peers, reachable s e.1 = true → m' ≤ e.1)

/-- 16 R370; 23 R400 to R407: boot gives the module the identity of the highest version; units become ready once it
has booted, and a readiness bit can fall; a corrected error counts within its window, and at the limit, as for an
uncorrectable one, the fault is lasting; poison marks what an uncorrectable error has touched, and who reads it gets
POISON; heat lowers clocks and switches the module off; a debug agent halts, freezes and releases a core whose every
partition has enabled debug. The model's choices: a unit whose bit has fallen is never ready again, and every lane of
such a port is lasting (notes/assumptions/85.md); the unit of which an error counts (86.md); the register of a slice
that holds an error is open (87.md); each record but the last names eight of the requesters (111.md). -/
def Obligations.Health : Prop :=
  (∀ (s : State) ok (records : List (Bool × BitVec 128)), let c := bootRecord records
    (s.health.booted = false → exec (.powerOnBoot ok records) s = .next { s with
      health := { s.health with booted := ok, recovery := !ok }
      fab := { s.fab with
        node := bits c 127 106, linkEn := bits c 105 74 + bits c 73 70 * 2 ^ 32
        stackEn := bits c 69 38, version := bits c 31 0, inc := s.fab.inc + 1 } }) ∧
    (s.health.booted = true → exec (.powerOnBoot ok records) s = .next s) ∧
    (∀ w, (true, w) ∈ records → w.toNat % 2 ^ 32 ≤ c % 2 ^ 32 ∧ ∃ v, (true, v) ∈ records ∧ c = v.toNat) ∧
    ((∀ w, (true, w) ∉ records) → c = 0)) ∧
  (∀ (s : State) (u : ReadyBit), u ∉ s.health.ready →
    (s.health.booted = false ∨ u ∈ s.health.fallen → exec (.unitReady u) s = .next s) ∧
    (s.health.booted = true → u ∉ s.health.fallen →
    (match u with
      | .func f => f ≤ 64
      | .die d => d < 10
      | .stack i => i < 32 ∧ bit s.fab.stackEn i = true
      | .link _ => False) →
    exec (.unitReady u) s = .next { s with health := { s.health with ready := s.health.ready ++ [u] } })) ∧
  (∀ (s : State) (u : ReadyBit), ∃ t, exec (.readinessBitFalls u) s = .next t ∧
    u ∉ t.health.ready ∧ u ∈ t.health.fallen ∧ (∀ x, x ≠ u → (x ∈ t.health.ready ↔ x ∈ s.health.ready)) ∧
    (s.health.log = 0 → t.mem = s.mem ∧ ((∀ p, u ≠ .link p) → t.fab = s.fab)) ∧
    ∀ p, u = .link p → u ∉ s.health.fallen → (agetD p Port.reset s.fab.ports).lanes = 8 →
      (∀ l, l < 8 → .linkLane p l ∉ s.health.lasting) →
      (agetD p Port.reset t.fab.ports).trained = false ∧ (agetD p Port.reset t.fab.ports).lanes = 0 ∧
        ∀ l, l < 8 → .linkLane p l ∈ t.health.lasting) ∧
  (∀ (s : State) (u : ErrUnit), s.health.log = 0 →
    let k := countedUnit u
    let e := agetD k (0, s.fab.time) s.health.counts
    let n : Nat × Nat := if (errLimit u).2 ≤ s.fab.time - e.2 then (1, s.fab.time) else (e.1 + 1, e.2)
    ∃ t, exec (.correctedError u) s = .next t ∧ aget k t.health.counts = some n ∧ t.mem = s.mem ∧
      (n.1 < (errLimit u).1 → t.health.lasting = s.health.lasting ∧ t.cores = s.cores ∧ t.fab = s.fab) ∧
      ((errLimit u).1 ≤ n.1 → k ∈ t.health.lasting)) ∧
  (∀ (s : State) (u : ErrUnit), s.health.log = 0 → ∃ t, exec (.uncorrectableError u) s = .next t ∧
    countedUnit u ∈ t.health.lasting ∧ (∀ loc, u = .dramRow loc ∨ u = .codeLine loc → loc / 64 ∈ t.mem.dramPoison) ∧
    (∀ c b off, u = .spBank c b off → (coreNo c * 2097152 + b * 32768 + off) / 8 ∈ t.mem.spPoison) ∧
    t.mem.dram = s.mem.dram ∧ t.mem.sp = s.mem.sp ∧ t.mem.cm = s.mem.cm ∧
    ∀ k x, aget k s.threads = some x → ∃ x', aget k t.threads = some x' ∧
      (x' = x ∨ ∃ q r, u = .regSlice q ∧ 1 ≤ r ∧ x' = { x with poison := x.poison ++ [r] })) ∧
  (∀ g w d (a b : Src) (s : State) (h : HandKey) (tm : Team) (l : Nat) (u : Thread), inFocus s = some (h, tm, [l]) →
    s.lane h l = some u → guardHolds u g = true → a.mod = .none → b.mod = .none → isFull u a.reg w = true →
    isFull u b.reg w = true → isFull u d w = true → isPoisoned u a.reg w = true ∨ isPoisoned u b.reg w = true →
    exec (.add g w d a (.reg b)) s = .next (endIssue (takeFault s (threadOf h l) { code := 0x15 }) h [l])) ∧
  (∀ (s : State) loc n, s.health.errLog = 0 →
    (∀ e, s.health.poisonReads.find? (fun e => e.line = loc / 64) = some e → exec (.poisonSharedRead loc n) s = .next { s with
      health := { s.health with
        pendingErr := s.health.pendingErr ++ lineRecords e n
        poisonReads := s.health.poisonReads.map fun x => if x.line = e.line then { x with logged := x.logged + 8 * (lineRecords e n).length } else x } }) ∧
    ((∀ e ∈ s.health.poisonReads, e.line ≠ loc / 64) → exec (.poisonSharedRead loc n) s = .next s)) ∧
  (∀ (e : PoisonRead) n f time rest, (e.reqs.drop e.logged).take (8 * n) = (f, time) :: rest → rest.length ≤ 7 →
    lineRecords e n = [lineRecord time (e.line * 64) (f :: rest.map (·.1))]) ∧
  (∀ time loc (reqs : List Nat), reqs.length ≤ 8 → let r := (lineRecord time loc reqs).toNat
    bits r 511 448 = time % 2 ^ 64 ∧ bits r 389 348 = loc / 64 * 64 % 2 ^ 42 ∧ bits r 347 344 = reqs.length ∧
      bits r 7 0 = 0x15 ∧ ∀ i f, reqs[i]? = some f → bits r (294 + 7 * i) (288 + 7 * i) = f % 128) ∧
  (∀ (s : State) die, exec (.thermalClockLower die) s =
    .next { s with health := { s.health with slowed := aset die (agetD die 0 s.health.slowed + 1) s.health.slowed } }) ∧
  (∀ (s : State) die, ∃ t, exec (.thermalPowerOff die) s = .next t ∧ t.health.powered = false ∧ step t = .fault .poweredOff) ∧
  (∀ (s : State) c, (mayHalt s c = true →
      exec (.debugHalt c) s = .next (s.modCore c fun x => { x with halt := true, freeze := false }) ∧
      exec (.debugFreeze c) s = .next (s.modCore c fun x => { x with halt := true, freeze := true })) ∧
    (mayHalt s c = false → exec (.debugHalt c) s = .next s ∧ exec (.debugFreeze c) s = .next s) ∧
    exec (.debugRelease c) s = .next { s.modCore c fun x => { x with halt := false, freeze := false, idle := false } with
      teams := s.teams.map fun e => (e.1, if coreOf e.1 = c then { e.2 with debug := false } else e.2) } ∧
    ((s.core c).halt = true → coreIdle s c = true → exec (.debugIdle c) s = .next (s.modCore c fun x => { x with idle := true })))

/-- 03 R37 to R53 and the encodings of 04 to 16: words written out from the spec's encodings decode to their
instructions. -/
def Obligations.DecodeWords : Prop :=
  decodeTableWord 96 0x00000040_10100001_00030001 =
    some (.add ⟨0, false⟩ false 3 ⟨1, .none, false⟩ (.reg ⟨1, .rot 0 1, false⟩)) ∧
  decodeTableWord 96 0xFFFFFFFF_20000000_0A000050 = some (.bra ⟨2, true⟩ 2 0xFFFFFFFF) ∧
  decodeTableWord 96 0x00210500_00300002_00050031 =
    some (.cvtN ⟨0, false⟩ 5 ⟨2, .none, false⟩ ⟨3, .none, false⟩ ⟨5, false⟩ .rn .reg 1 2) ∧
  decodeTableWord 96 0x00000100_10300002_00056072 =
    some (.catom ⟨0, false⟩ false 5 ⟨2, .none, false⟩ ⟨3, false⟩ .add (.rel .die) 0x100) ∧
  decodeTableWord 96 0x00B00000_00900004_00010590 = some (.mmaOpSk ⟨0, false⟩ 1 (.loc 4) (.remote 3 9)) ∧
  decodeTableWord 96 0x01000000_00200004_000500A0 =
    some (.bagput ⟨0, false⟩ 5 ⟨4, .none, false⟩ ⟨2, .none, false⟩ 0x100) ∧
  decodeTableWord 96 0x00010000_00000000_000100D0 = some (.srd ⟨0, false⟩ false 1 .lane) ∧
  decodeTableWord 32 0x1C840000 = some (.nfma 1 0 2 .f32) ∧ decodeTableWord 32 0x40000001 = some (.nnext 1) ∧
  decodeTableWord 96 0xE0 = none

/-- 03 R37 to R53, 12 R261: every well-formed instruction decodes from the words that encode it, and no two different
words decode to one instruction. -/
def Obligations.DecodeEncode : Prop :=
  (∀ (i : Instr) n w, i.wf = true → encode i = some (n, w) →
    decodeBytes (bytesOfNat (n / 8) w) = .ok i ∧ decodeTableWord n w = some i) ∧
  (∀ (v w : BitVec 96) i, decodeSlot v = .ok i → decodeSlot w = .ok i → v = w) ∧
  (∀ (v w : Word) i, decodeRow v = .ok i → decodeRow w = .ok i → v = w) ∧
  (∀ (w : BitVec 96) i, decodeSlot w = .ok i → i.wf = true) ∧ ∀ (w : Word) i, decodeRow w = .ok i → i.wf = true

/-- 03 R35, R36; 12 R261: where every thread of the bundle in focus holds one line and stands at one slot, whose bits
pass its parity bit and decode to an instruction that fits the launch, the step performs that instruction for that
bundle; a unit performs the row operation at its pc. -/
def Obligations.StepRunsDecoded : Prop :=
  (∀ (s : State) (h : HandKey) (m : BitVec 64) (tm : Team) (pc : Dword) (L : Line) (i : Instr), s.health.powered = true →
    s.focus = .bundle h m → aget h.team s.teams = some tm → lanesOf m tm.w ≠ [] →
    (∀ l ∈ lanesOf m tm.w, ∃ u, s.lane h l = some u ∧ u.pc = pc ∧ u.go = none ∧ heldLine u = some L ∧
      (u.run.issuable = true ∨ ∃ x, u.run = .rendezvous x)) →
    parSlotOk L (slotOf pc) = true → decodeSlot (lineSlot L (slotOf pc)) = .ok i → i.fits (launchParams tm) = true →
    step s = exec i { s with focus := .bundle h (maskOf (lanesOf m tm.w)) }) ∧
  ∀ (s : State) p w i, s.health.powered = true → s.focus = .unit p → (s.pch p).store[(s.pch p).pc]? = some w →
    decodeRow w = .ok i → step s = exec i s

/-- 03 R33, R36, R53: where the slot's bits do not agree with its parity bit, every thread of the bundle raises PARITY
(0x03) and stops; where they decode to no instruction, or to one that does not fit the launch, ILLEGAL (0x01). -/
def Obligations.IllegalSlots : Prop :=
  ∀ (s : State) (h : HandKey) (m : BitVec 64) (tm : Team) (pc : Dword) (L : Line), s.health.powered = true →
    s.focus = .bundle h m → aget h.team s.teams = some tm → lanesOf m tm.w ≠ [] →
    (∀ l ∈ lanesOf m tm.w, ∃ u, s.lane h l = some u ∧ u.pc = pc ∧ u.go = none ∧ heldLine u = some L ∧ u.run.issuable = true) →
    let stops := fun (code : Nat) => ∃ t, step s = .next t ∧ t.mem = s.mem ∧
      ∀ l ∈ lanesOf m tm.w, ∀ u, s.lane h l = some u → ∃ u', t.lane h l = some u' ∧ u'.run = .stopped code ∧ u'.pc = pc ∧
        u'.regs = u.regs ∧ u'.full = u.full ∧ u'.preds = u.preds
    (parSlotOk L (slotOf pc) = false → stops 3) ∧
    (parSlotOk L (slotOf pc) = true → (∀ i, decodeSlot (lineSlot L (slotOf pc)) = .ok i → i.fits (launchParams tm) = false) →
      stops 1)

/-- 00 R6; 04 R54; 11 R229; 12 R253; 14 R312, R326; 15 R333; 23 R403: after reset nothing runs and nothing is ready,
queues are off and empty, segments give nothing, periods and weights are 1. The model's choices: every byte of memory
reads as zero (notes/assumptions/5.md), page tables are empty (4.md), nothing is in focus and %cycle is 0 (7.md,
34.md), and the module has power (4.md). -/
def Obligations.ResetState : Prop :=
  State.reset.memOk ∧ State.reset.health.powered = true ∧ State.reset.health.ready = [] ∧ State.reset.focus = .none ∧
  State.reset.teams = [] ∧ State.reset.threads = [] ∧ State.reset.fab.time = 0 ∧ State.reset.cycle = 0 ∧
  (∀ q, (State.reset.queue q).en = false ∧ (State.reset.queue q).tail = (State.reset.queue q).head) ∧
  (∀ fn, (State.reset.func fn).segs = [0, 0, 0] ∧ (State.reset.func fn).pages = [] ∧ (State.reset.func fn).period = 1 ∧
    (State.reset.func fn).wdram = 1 ∧ (State.reset.func fn).dirtyEn = false) ∧
  (∀ p, (State.reset.pch p).ratio = 1 ∧ (State.reset.pch p).quota = 16 ∧ (State.reset.pch p).nbarb = 64) ∧
  (∀ fn va, translate State.reset fn va .read = if canonical (BitVec.ofNat 64 va) then .dealer 0x10 (va / 65536 * 65536) else .final 0x10) ∧
  ∀ x, memGet State.reset.mem.sp x = 0 ∧ memGet State.reset.mem.cm x = 0 ∧ memGet State.reset.mem.dram x = 0

/-- 07 R138, 08 R166, 14 R307: every step keeps the canonical form of every memory (notes/assumptions/5.md). -/
def Obligations.MemoryStaysCanonical : Prop :=
 ∀ s t : State, s.memOk → step s = .next t → t.memOk

/-- 00 R7, 20 R392: every instruction, row operation and event answers a next state in every state: an event or
instruction whose conditions do not hold leaves the state as it is, the model's choice (notes/assumptions/2.md); so
the machine stops only without power (23 R400), with the fault poweredOff (notes/assumptions/85.md). -/
def Obligations.EveryInstructionAnswers : Prop :=
  (∀ (i : Instr) (s : State), ∃ t, exec i s = .next t) ∧
  ∀ s : State, (s.health.powered = true → ∃ t, step s = .next t) ∧ (s.health.powered = false → step s = .fault .poweredOff)
end

