-- ==== Sys2Proof/Laws/Assoc.lean ====
section
/-! SUPPORT. The laws of finite maps. -/

namespace Sys2Proof.Machine

variable {κ α : Type} [DecidableEq κ]

@[simp] theorem aget_nil (k : κ) : aget k ([] : List (κ × α)) = none := rfl

@[simp] theorem aget_aset_self (k : κ) (v : α) : ∀ l : List (κ × α), aget k (aset k v l) = some v
  | [] => by simp [aset, aget]
  | (k', v') :: t => by
    by_cases h : k' = k
    · simp [aset, aget, h]
    · simp [aset, aget, h, aget_aset_self k v t]

@[simp] theorem aget_aset_ne {k j : κ} (v : α) (h : j ≠ k) : ∀ l : List (κ × α), aget j (aset k v l) = aget j l
  | [] => by simp [aset, aget, Ne.symm h]
  | (k', v') :: t => by
    by_cases hk : k' = k
    · subst hk; simp [aset, aget, Ne.symm h]
    · by_cases hj : k' = j
      · subst hj; simp [aset, aget, hk]
      · simp [aset, aget, hk, hj, aget_aset_ne v h t]

/-- Reading a map in which a key has been given a value. -/
theorem aget_aset (k j : κ) (v : α) (l : List (κ × α)) : aget j (aset k v l) = if j = k then some v else aget j l := by
  by_cases h : j = k
  · subst h; simp
  · simp [h]

@[simp] theorem aget_amod_self (k : κ) (f : α → α) : ∀ l : List (κ × α), aget k (amod k f l) = (aget k l).map f
  | [] => rfl
  | (k', v') :: t => by
    by_cases h : k' = k
    · simp [amod, aget, h]
    · simp [amod, aget, h, aget_amod_self k f t]

@[simp] theorem aget_amod_ne {k j : κ} (f : α → α) (h : j ≠ k) : ∀ l : List (κ × α), aget j (amod k f l) = aget j l
  | [] => rfl
  | (k', v') :: t => by
    by_cases hk : k' = k
    · subst hk; simp [amod, aget, Ne.symm h]
    · by_cases hj : k' = j
      · subst hj; simp [amod, aget, hk]
      · simp [amod, aget, hk, hj, aget_amod_ne f h t]

/-- Reading a map in which the value of a key has been changed. -/
theorem aget_amod (k j : κ) (f : α → α) (l : List (κ × α)) :
    aget j (amod k f l) = if j = k then (aget j l).map f else aget j l := by
  by_cases h : j = k
  · subst h; simp
  · simp [h]

/-- The keys of a map stay when a value is changed. -/
@[simp] theorem amod_keys (k : κ) (f : α → α) : ∀ l : List (κ × α), (amod k f l).map Prod.fst = l.map Prod.fst
  | [] => rfl
  | (k', v') :: t => by
    by_cases h : k' = k
    · simp [amod, h]
    · simp [amod, h, amod_keys k f t]

@[simp] theorem aget_adel_self (k : κ) : ∀ l : List (κ × α), aget k (adel k l) = none
  | [] => rfl
  | (k', v') :: t => by
    have ih := aget_adel_self k t
    unfold adel at ih ⊢
    by_cases h : k' = k
    · simpa [h] using ih
    · simpa [h, aget] using ih

@[simp] theorem aget_adel_ne {k j : κ} (h : j ≠ k) : ∀ l : List (κ × α), aget j (adel k l) = aget j l
  | [] => rfl
  | (k', v') :: t => by
    have ih := aget_adel_ne h t
    unfold adel at ih ⊢
    by_cases hk : k' = k
    · subst hk; simpa [aget, Ne.symm h] using ih
    · by_cases hj : k' = j
      · subst hj; simp [aget, hk]
      · simpa [aget, hk, hj] using ih

@[simp] theorem agetD_aset_self (k : κ) (d v : α) (l : List (κ × α)) : agetD k d (aset k v l) = v := by simp [agetD]

@[simp] theorem agetD_aset_ne {k j : κ} (d v : α) (h : j ≠ k) (l : List (κ × α)) :
    agetD j d (aset k v l) = agetD j d l := by simp [agetD, h]

end Sys2Proof.Machine
end

