-- ==== Sys2Proof/Laws/Memory.lean ====
section
/-! SUPPORT. The laws of a memory: reading after writing, and that every operation keeps the canonical form. -/

namespace Sys2Proof.Machine

/-! ## Reading after writing -/

@[simp] theorem memGet_nil (x : Nat) : memGet [] x = 0 := rfl

/-- Below the first address a memory reads as zero. -/
theorem memGet_of_lt {lo x : Nat} : ∀ {m : List Host.Cell}, memAbove lo m = true → x < lo → memGet m x = 0
  | [], _, _ => rfl
  | (a, b) :: t, h, hx => by
    simp only [memAbove, Bool.and_eq_true, decide_eq_true_eq] at h
    have hne : x ≠ a := by omega
    simp only [memGet, hne, if_false]
    exact memGet_of_lt h.2 (by omega)

/-- A byte that has been written reads back. -/
@[simp] theorem memGet_memSet_self {lo : Nat} (x : Nat) (v : Byte) :
    ∀ {m : List Host.Cell}, memAbove lo m = true → memGet (memSet m x v) x = v
  | [], _ => by by_cases hv : v = 0#8 <;> simp [memSet, memGet, hv]
  | (a, b) :: t, h => by
    simp only [memAbove, Bool.and_eq_true, decide_eq_true_eq] at h
    rcases Nat.lt_trichotomy x a with hlt | heq | hgt
    · have hne : x ≠ a := by omega
      by_cases hv : v = 0#8
      · subst hv
        have h0 : memGet t x = 0 := memGet_of_lt h.2 (by omega)
        simpa [memSet, hlt, memGet, hne] using h0
      · simp [memSet, hlt, hv, memGet]
    · subst heq
      by_cases hv : v = 0#8
      · subst hv
        have h0 : memGet t x = 0 := memGet_of_lt h.2 (by omega)
        simpa [memSet] using h0
      · simp [memSet, hv, memGet]
    · have h1 : ¬ x < a := by omega
      have h2 : x ≠ a := by omega
      simp only [memSet, h1, h2, if_false, memGet]
      exact memGet_memSet_self x v h.2

/-- A write leaves every other byte alone. -/
@[simp] theorem memGet_memSet_ne {x y : Nat} (v : Byte) (hne : y ≠ x) :
    ∀ m : List Host.Cell, memGet (memSet m x v) y = memGet m y
  | [] => by by_cases hv : v = 0#8 <;> simp [memSet, memGet, hv, hne]
  | (a, b) :: t => by
    by_cases h1 : x < a
    · by_cases hv : v = 0#8 <;> simp [memSet, h1, hv, memGet, hne]
    · by_cases h2 : x = a
      · subst h2
        by_cases hv : v = 0#8 <;> simp [memSet, hv, memGet, hne]
      · simp only [memSet, h1, h2, if_false, memGet]
        by_cases h3 : y = a
        · simp [h3]
        · simp only [h3, if_false]; exact memGet_memSet_ne v hne t

/-- A range that is written leaves the bytes outside it alone. -/
theorem memGet_memWrite_outside {y : Nat} : ∀ (bs : List Byte) (m : List Host.Cell) (a : Nat),
    (y < a ∨ a + bs.length ≤ y) → memGet (memWrite m a bs) y = memGet m y
  | [], _, _, _ => rfl
  | b :: bs, m, a, h => by
    simp only [List.length_cons] at h
    rw [memWrite, memGet_memWrite_outside bs _ _ (by omega), memGet_memSet_ne b (by omega)]

/-! ## The canonical form -/

/-- A lower bound may be weakened. -/
theorem memAbove_mono {lo lo' : Nat} (h : lo' ≤ lo) : ∀ {m : List Host.Cell}, memAbove lo m = true → memAbove lo' m = true
  | [], _ => rfl
  | (a, b) :: t, hm => by
    simp only [memAbove, Bool.and_eq_true, decide_eq_true_eq] at hm ⊢
    exact ⟨⟨by omega, hm.1.2⟩, hm.2⟩

/-- Writing a byte keeps the canonical form. -/
theorem memAbove_memSet {x : Nat} (v : Byte) : ∀ {m : List Host.Cell} {lo : Nat}, lo ≤ x → memAbove lo m = true →
    memAbove lo (memSet m x v) = true
  | [], lo, hx, _ => by by_cases hv : v = 0#8 <;> simp [memSet, memAbove, hv, hx]
  | (a, b) :: t, lo, hx, hm => by
    have hm' := hm
    simp only [memAbove, Bool.and_eq_true, decide_eq_true_eq] at hm
    by_cases h1 : x < a
    · by_cases hv : v = 0#8
      · simpa [memSet, h1, hv] using hm'
      · have hb := hm.1.2
        simp_all [memSet, memAbove]
    · by_cases h2 : x = a
      · subst h2
        by_cases hv : v = 0#8
        · simpa [memSet, hv] using memAbove_mono (by omega) hm.2
        · simp [memSet, hv, memAbove, hx, hm.2]
      · simp only [memSet, h1, h2, if_false, memAbove, Bool.and_eq_true, decide_eq_true_eq]
        exact ⟨hm.1, memAbove_memSet v (by omega) hm.2⟩

@[simp] theorem memWf_nil : memWf [] = true := rfl

@[simp] theorem memWf_memSet {m : List Host.Cell} (x : Nat) (v : Byte) (h : memWf m = true) : memWf (memSet m x v) = true :=
  memAbove_memSet v (Nat.zero_le x) h

@[simp] theorem memWf_memWrite : ∀ (bs : List Byte) {m : List Host.Cell} (a : Nat), memWf m = true →
    memWf (memWrite m a bs) = true
  | [], _, _, h => h
  | b :: bs, _, a, h => memWf_memWrite bs (a + 1) (memWf_memSet a b h)

/-- Taking cells out keeps the canonical form. -/
theorem memAbove_filter (p : Host.Cell → Bool) : ∀ {m : List Host.Cell} {lo : Nat}, memAbove lo m = true →
    memAbove lo (m.filter p) = true
  | [], _, _ => rfl
  | (a, b) :: t, lo, hm => by
    simp only [memAbove, Bool.and_eq_true, decide_eq_true_eq] at hm
    have ht := memAbove_filter p hm.2
    by_cases hp : p (a, b) = true
    · simp only [List.filter_cons, hp, if_true, memAbove, Bool.and_eq_true, decide_eq_true_eq]
      exact ⟨hm.1, ht⟩
    · simp only [List.filter_cons, hp, if_false, Bool.false_eq_true]
      exact memAbove_mono (by omega) ht

@[simp] theorem memWf_memClear {m : List Host.Cell} (a n : Nat) (h : memWf m = true) : memWf (memClear m a n) = true :=
  memAbove_filter _ h

/-- Writing bytes one after another, in any places, keeps the canonical form. -/
@[simp] theorem memWf_foldl_memSet {α : Type} (f : α → Nat) (g : α → Byte) : ∀ (l : List α) {m : List Host.Cell},
    memWf m = true → memWf (l.foldl (fun m e => memSet m (f e) (g e)) m) = true
  | [], _, h => h
  | e :: l, _, h => memWf_foldl_memSet f g l (memWf_memSet (f e) (g e) h)

/-- Reading after writing, in a memory in canonical form. -/
theorem memGet_memSet {m : List Host.Cell} (h : memWf m = true) (x y : Nat) (v : Byte) :
    memGet (memSet m x v) y = if y = x then v else memGet m y := by
  by_cases hxy : y = x
  · subst hxy; simp [memGet_memSet_self y v h]
  · simp [hxy]

/-- What has been written reads back. -/
theorem memRead_memWrite : ∀ (bs : List Byte) {m : List Host.Cell} (a : Nat), memWf m = true →
    memRead (memWrite m a bs) a bs.length = bs
  | [], _, _, _ => rfl
  | b :: bs, m, a, h => by
    have hs := memWf_memSet a b h
    simp only [memWrite, List.length_cons, memRead]
    rw [memGet_memWrite_outside bs _ _ (by omega), memGet_memSet h, if_pos rfl, memRead_memWrite bs (a + 1) hs]

/-- Of two memories in canonical form that read alike, both are the same list: equal memories are equal data. -/
theorem memAbove_ext : ∀ {m n : List Host.Cell} {lo : Nat}, memAbove lo m = true → memAbove lo n = true →
    (∀ x, memGet m x = memGet n x) → m = n
  | [], [], _, _, _, _ => rfl
  | [], (a, b) :: t, lo, _, hn, h => by
    simp only [memAbove, Bool.and_eq_true, decide_eq_true_eq, bne_iff_ne] at hn
    exact absurd (by simpa [memGet] using (h a).symm) hn.1.2
  | (a, b) :: t, [], lo, hm, _, h => by
    simp only [memAbove, Bool.and_eq_true, decide_eq_true_eq, bne_iff_ne] at hm
    exact absurd (by simpa [memGet] using h a) hm.1.2
  | (a, b) :: t, (a', b') :: t', lo, hm, hn, h => by
    have hm' := hm; have hn' := hn
    simp only [memAbove, Bool.and_eq_true, decide_eq_true_eq, bne_iff_ne] at hm hn
    have hab : a = a' := by
      rcases Nat.lt_trichotomy a a' with hl | he | hg
      · have h1 := h a
        have h2 : memGet ((a', b') :: t') a = 0 := by
          simp only [memGet, show a ≠ a' by omega, if_false]
          exact memGet_of_lt hn.2 (by omega)
        rw [h2] at h1
        exact absurd (by simpa [memGet] using h1) hm.1.2
      · exact he
      · have h1 := h a'
        have h2 : memGet ((a, b) :: t) a' = 0 := by
          simp only [memGet, show a' ≠ a by omega, if_false]
          exact memGet_of_lt hm.2 (by omega)
        rw [h2] at h1
        exact absurd (by simpa [memGet] using h1.symm) hn.1.2
    subst hab
    have hb : b = b' := by simpa [memGet] using h a
    subst hb
    have ht : t = t' := memAbove_ext hm.2 hn.2 fun x => by
      by_cases hx : x = a
      · subst hx; rw [memGet_of_lt hm.2 (by omega), memGet_of_lt hn.2 (by omega)]
      · simpa [memGet, hx] using h x
    rw [ht]

end Sys2Proof.Machine
end

