-- ==== Sys2Proof/Laws/State.lean ====
section
/-! SUPPORT. What each named change of the state does to each of its fields. -/

namespace Sys2Proof.Machine

variable (s : State)

/-! ## State.setThread -/

@[simp] theorem State.setThread_threads (k : ThreadKey) (t : Thread) : (s.setThread k t).threads = aset k t s.threads := rfl
@[simp] theorem State.setThread_hands (k : ThreadKey) (t : Thread) : (s.setThread k t).hands = s.hands := rfl
@[simp] theorem State.setThread_teams (k : ThreadKey) (t : Thread) : (s.setThread k t).teams = s.teams := rfl
@[simp] theorem State.setThread_groups (k : ThreadKey) (t : Thread) : (s.setThread k t).groups = s.groups := rfl
@[simp] theorem State.setThread_fills (k : ThreadKey) (t : Thread) : (s.setThread k t).fills = s.fills := rfl
@[simp] theorem State.setThread_cores (k : ThreadKey) (t : Thread) : (s.setThread k t).cores = s.cores := rfl
@[simp] theorem State.setThread_holds (k : ThreadKey) (t : Thread) : (s.setThread k t).holds = s.holds := rfl
@[simp] theorem State.setThread_current (k : ThreadKey) (t : Thread) : (s.setThread k t).current = s.current := rfl
@[simp] theorem State.setThread_issue (k : ThreadKey) (t : Thread) : (s.setThread k t).issue = s.issue := rfl
@[simp] theorem State.setThread_quadOwner (k : ThreadKey) (t : Thread) : (s.setThread k t).quadOwner = s.quadOwner := rfl
@[simp] theorem State.setThread_queues (k : ThreadKey) (t : Thread) : (s.setThread k t).queues = s.queues := rfl
@[simp] theorem State.setThread_trees (k : ThreadKey) (t : Thread) : (s.setThread k t).trees = s.trees := rfl
@[simp] theorem State.setThread_dispatchers (k : ThreadKey) (t : Thread) : (s.setThread k t).dispatchers = s.dispatchers := rfl
@[simp] theorem State.setThread_funcs (k : ThreadKey) (t : Thread) : (s.setThread k t).funcs = s.funcs := rfl
@[simp] theorem State.setThread_keySlots (k : ThreadKey) (t : Thread) : (s.setThread k t).keySlots = s.keySlots := rfl
@[simp] theorem State.setThread_faults (k : ThreadKey) (t : Thread) : (s.setThread k t).faults = s.faults := rfl
@[simp] theorem State.setThread_mem (k : ThreadKey) (t : Thread) : (s.setThread k t).mem = s.mem := rfl
@[simp] theorem State.setThread_fab (k : ThreadKey) (t : Thread) : (s.setThread k t).fab = s.fab := rfl
@[simp] theorem State.setThread_folds (k : ThreadKey) (t : Thread) : (s.setThread k t).folds = s.folds := rfl
@[simp] theorem State.setThread_ranks (k : ThreadKey) (t : Thread) : (s.setThread k t).ranks = s.ranks := rfl
@[simp] theorem State.setThread_collSlots (k : ThreadKey) (t : Thread) : (s.setThread k t).collSlots = s.collSlots := rfl
@[simp] theorem State.setThread_health (k : ThreadKey) (t : Thread) : (s.setThread k t).health = s.health := rfl
@[simp] theorem State.setThread_chans (k : ThreadKey) (t : Thread) : (s.setThread k t).chans = s.chans := rfl
@[simp] theorem State.setThread_mats (k : ThreadKey) (t : Thread) : (s.setThread k t).mats = s.mats := rfl
@[simp] theorem State.setThread_bags (k : ThreadKey) (t : Thread) : (s.setThread k t).bags = s.bags := rfl
@[simp] theorem State.setThread_freeBags (k : ThreadKey) (t : Thread) : (s.setThread k t).freeBags = s.freeBags := rfl
@[simp] theorem State.setThread_bagReqs (k : ThreadKey) (t : Thread) : (s.setThread k t).bagReqs = s.bagReqs := rfl
@[simp] theorem State.setThread_pchs (k : ThreadKey) (t : Thread) : (s.setThread k t).pchs = s.pchs := rfl
@[simp] theorem State.setThread_cmPassed (k : ThreadKey) (t : Thread) : (s.setThread k t).cmPassed = s.cmPassed := rfl
@[simp] theorem State.setThread_runs (k : ThreadKey) (t : Thread) : (s.setThread k t).runs = s.runs := rfl
@[simp] theorem State.setThread_forwards (k : ThreadKey) (t : Thread) : (s.setThread k t).forwards = s.forwards := rfl
@[simp] theorem State.setThread_heldWrites (k : ThreadKey) (t : Thread) : (s.setThread k t).heldWrites = s.heldWrites := rfl
@[simp] theorem State.setThread_answers (k : ThreadKey) (t : Thread) : (s.setThread k t).answers = s.answers := rfl
@[simp] theorem State.setThread_nextId (k : ThreadKey) (t : Thread) : (s.setThread k t).nextId = s.nextId := rfl
@[simp] theorem State.setThread_saved (k : ThreadKey) (t : Thread) : (s.setThread k t).saved = s.saved := rfl
@[simp] theorem State.setThread_cycle (k : ThreadKey) (t : Thread) : (s.setThread k t).cycle = s.cycle := rfl
@[simp] theorem State.setThread_focus (k : ThreadKey) (t : Thread) : (s.setThread k t).focus = s.focus := rfl
@[simp] theorem State.setThread_tick (k : ThreadKey) (t : Thread) : (s.setThread k t).tick = s.tick := rfl
@[simp] theorem State.setThread_glitch (k : ThreadKey) (t : Thread) : (s.setThread k t).glitch = s.glitch := rfl

/-! ## State.modThread -/

@[simp] theorem State.modThread_threads (k : ThreadKey) (f : Thread → Thread) : (s.modThread k f).threads = amod k f s.threads := rfl
@[simp] theorem State.modThread_hands (k : ThreadKey) (f : Thread → Thread) : (s.modThread k f).hands = s.hands := rfl
@[simp] theorem State.modThread_teams (k : ThreadKey) (f : Thread → Thread) : (s.modThread k f).teams = s.teams := rfl
@[simp] theorem State.modThread_groups (k : ThreadKey) (f : Thread → Thread) : (s.modThread k f).groups = s.groups := rfl
@[simp] theorem State.modThread_fills (k : ThreadKey) (f : Thread → Thread) : (s.modThread k f).fills = s.fills := rfl
@[simp] theorem State.modThread_cores (k : ThreadKey) (f : Thread → Thread) : (s.modThread k f).cores = s.cores := rfl
@[simp] theorem State.modThread_holds (k : ThreadKey) (f : Thread → Thread) : (s.modThread k f).holds = s.holds := rfl
@[simp] theorem State.modThread_current (k : ThreadKey) (f : Thread → Thread) : (s.modThread k f).current = s.current := rfl
@[simp] theorem State.modThread_issue (k : ThreadKey) (f : Thread → Thread) : (s.modThread k f).issue = s.issue := rfl
@[simp] theorem State.modThread_quadOwner (k : ThreadKey) (f : Thread → Thread) : (s.modThread k f).quadOwner = s.quadOwner := rfl
@[simp] theorem State.modThread_queues (k : ThreadKey) (f : Thread → Thread) : (s.modThread k f).queues = s.queues := rfl
@[simp] theorem State.modThread_trees (k : ThreadKey) (f : Thread → Thread) : (s.modThread k f).trees = s.trees := rfl
@[simp] theorem State.modThread_dispatchers (k : ThreadKey) (f : Thread → Thread) : (s.modThread k f).dispatchers = s.dispatchers := rfl
@[simp] theorem State.modThread_funcs (k : ThreadKey) (f : Thread → Thread) : (s.modThread k f).funcs = s.funcs := rfl
@[simp] theorem State.modThread_keySlots (k : ThreadKey) (f : Thread → Thread) : (s.modThread k f).keySlots = s.keySlots := rfl
@[simp] theorem State.modThread_faults (k : ThreadKey) (f : Thread → Thread) : (s.modThread k f).faults = s.faults := rfl
@[simp] theorem State.modThread_mem (k : ThreadKey) (f : Thread → Thread) : (s.modThread k f).mem = s.mem := rfl
@[simp] theorem State.modThread_fab (k : ThreadKey) (f : Thread → Thread) : (s.modThread k f).fab = s.fab := rfl
@[simp] theorem State.modThread_folds (k : ThreadKey) (f : Thread → Thread) : (s.modThread k f).folds = s.folds := rfl
@[simp] theorem State.modThread_ranks (k : ThreadKey) (f : Thread → Thread) : (s.modThread k f).ranks = s.ranks := rfl
@[simp] theorem State.modThread_collSlots (k : ThreadKey) (f : Thread → Thread) : (s.modThread k f).collSlots = s.collSlots := rfl
@[simp] theorem State.modThread_health (k : ThreadKey) (f : Thread → Thread) : (s.modThread k f).health = s.health := rfl
@[simp] theorem State.modThread_chans (k : ThreadKey) (f : Thread → Thread) : (s.modThread k f).chans = s.chans := rfl
@[simp] theorem State.modThread_mats (k : ThreadKey) (f : Thread → Thread) : (s.modThread k f).mats = s.mats := rfl
@[simp] theorem State.modThread_bags (k : ThreadKey) (f : Thread → Thread) : (s.modThread k f).bags = s.bags := rfl
@[simp] theorem State.modThread_freeBags (k : ThreadKey) (f : Thread → Thread) : (s.modThread k f).freeBags = s.freeBags := rfl
@[simp] theorem State.modThread_bagReqs (k : ThreadKey) (f : Thread → Thread) : (s.modThread k f).bagReqs = s.bagReqs := rfl
@[simp] theorem State.modThread_pchs (k : ThreadKey) (f : Thread → Thread) : (s.modThread k f).pchs = s.pchs := rfl
@[simp] theorem State.modThread_cmPassed (k : ThreadKey) (f : Thread → Thread) : (s.modThread k f).cmPassed = s.cmPassed := rfl
@[simp] theorem State.modThread_runs (k : ThreadKey) (f : Thread → Thread) : (s.modThread k f).runs = s.runs := rfl
@[simp] theorem State.modThread_forwards (k : ThreadKey) (f : Thread → Thread) : (s.modThread k f).forwards = s.forwards := rfl
@[simp] theorem State.modThread_heldWrites (k : ThreadKey) (f : Thread → Thread) : (s.modThread k f).heldWrites = s.heldWrites := rfl
@[simp] theorem State.modThread_answers (k : ThreadKey) (f : Thread → Thread) : (s.modThread k f).answers = s.answers := rfl
@[simp] theorem State.modThread_nextId (k : ThreadKey) (f : Thread → Thread) : (s.modThread k f).nextId = s.nextId := rfl
@[simp] theorem State.modThread_saved (k : ThreadKey) (f : Thread → Thread) : (s.modThread k f).saved = s.saved := rfl
@[simp] theorem State.modThread_cycle (k : ThreadKey) (f : Thread → Thread) : (s.modThread k f).cycle = s.cycle := rfl
@[simp] theorem State.modThread_focus (k : ThreadKey) (f : Thread → Thread) : (s.modThread k f).focus = s.focus := rfl
@[simp] theorem State.modThread_tick (k : ThreadKey) (f : Thread → Thread) : (s.modThread k f).tick = s.tick := rfl
@[simp] theorem State.modThread_glitch (k : ThreadKey) (f : Thread → Thread) : (s.modThread k f).glitch = s.glitch := rfl

/-! ## State.setHand -/

@[simp] theorem State.setHand_threads (k : HandKey) (h : Hand) : (s.setHand k h).threads = s.threads := rfl
@[simp] theorem State.setHand_hands (k : HandKey) (h : Hand) : (s.setHand k h).hands = aset k h s.hands := rfl
@[simp] theorem State.setHand_teams (k : HandKey) (h : Hand) : (s.setHand k h).teams = s.teams := rfl
@[simp] theorem State.setHand_groups (k : HandKey) (h : Hand) : (s.setHand k h).groups = s.groups := rfl
@[simp] theorem State.setHand_fills (k : HandKey) (h : Hand) : (s.setHand k h).fills = s.fills := rfl
@[simp] theorem State.setHand_cores (k : HandKey) (h : Hand) : (s.setHand k h).cores = s.cores := rfl
@[simp] theorem State.setHand_holds (k : HandKey) (h : Hand) : (s.setHand k h).holds = s.holds := rfl
@[simp] theorem State.setHand_current (k : HandKey) (h : Hand) : (s.setHand k h).current = s.current := rfl
@[simp] theorem State.setHand_issue (k : HandKey) (h : Hand) : (s.setHand k h).issue = s.issue := rfl
@[simp] theorem State.setHand_quadOwner (k : HandKey) (h : Hand) : (s.setHand k h).quadOwner = s.quadOwner := rfl
@[simp] theorem State.setHand_queues (k : HandKey) (h : Hand) : (s.setHand k h).queues = s.queues := rfl
@[simp] theorem State.setHand_trees (k : HandKey) (h : Hand) : (s.setHand k h).trees = s.trees := rfl
@[simp] theorem State.setHand_dispatchers (k : HandKey) (h : Hand) : (s.setHand k h).dispatchers = s.dispatchers := rfl
@[simp] theorem State.setHand_funcs (k : HandKey) (h : Hand) : (s.setHand k h).funcs = s.funcs := rfl
@[simp] theorem State.setHand_keySlots (k : HandKey) (h : Hand) : (s.setHand k h).keySlots = s.keySlots := rfl
@[simp] theorem State.setHand_faults (k : HandKey) (h : Hand) : (s.setHand k h).faults = s.faults := rfl
@[simp] theorem State.setHand_mem (k : HandKey) (h : Hand) : (s.setHand k h).mem = s.mem := rfl
@[simp] theorem State.setHand_fab (k : HandKey) (h : Hand) : (s.setHand k h).fab = s.fab := rfl
@[simp] theorem State.setHand_folds (k : HandKey) (h : Hand) : (s.setHand k h).folds = s.folds := rfl
@[simp] theorem State.setHand_ranks (k : HandKey) (h : Hand) : (s.setHand k h).ranks = s.ranks := rfl
@[simp] theorem State.setHand_collSlots (k : HandKey) (h : Hand) : (s.setHand k h).collSlots = s.collSlots := rfl
@[simp] theorem State.setHand_health (k : HandKey) (h : Hand) : (s.setHand k h).health = s.health := rfl
@[simp] theorem State.setHand_chans (k : HandKey) (h : Hand) : (s.setHand k h).chans = s.chans := rfl
@[simp] theorem State.setHand_mats (k : HandKey) (h : Hand) : (s.setHand k h).mats = s.mats := rfl
@[simp] theorem State.setHand_bags (k : HandKey) (h : Hand) : (s.setHand k h).bags = s.bags := rfl
@[simp] theorem State.setHand_freeBags (k : HandKey) (h : Hand) : (s.setHand k h).freeBags = s.freeBags := rfl
@[simp] theorem State.setHand_bagReqs (k : HandKey) (h : Hand) : (s.setHand k h).bagReqs = s.bagReqs := rfl
@[simp] theorem State.setHand_pchs (k : HandKey) (h : Hand) : (s.setHand k h).pchs = s.pchs := rfl
@[simp] theorem State.setHand_cmPassed (k : HandKey) (h : Hand) : (s.setHand k h).cmPassed = s.cmPassed := rfl
@[simp] theorem State.setHand_runs (k : HandKey) (h : Hand) : (s.setHand k h).runs = s.runs := rfl
@[simp] theorem State.setHand_forwards (k : HandKey) (h : Hand) : (s.setHand k h).forwards = s.forwards := rfl
@[simp] theorem State.setHand_heldWrites (k : HandKey) (h : Hand) : (s.setHand k h).heldWrites = s.heldWrites := rfl
@[simp] theorem State.setHand_answers (k : HandKey) (h : Hand) : (s.setHand k h).answers = s.answers := rfl
@[simp] theorem State.setHand_nextId (k : HandKey) (h : Hand) : (s.setHand k h).nextId = s.nextId := rfl
@[simp] theorem State.setHand_saved (k : HandKey) (h : Hand) : (s.setHand k h).saved = s.saved := rfl
@[simp] theorem State.setHand_cycle (k : HandKey) (h : Hand) : (s.setHand k h).cycle = s.cycle := rfl
@[simp] theorem State.setHand_focus (k : HandKey) (h : Hand) : (s.setHand k h).focus = s.focus := rfl
@[simp] theorem State.setHand_tick (k : HandKey) (h : Hand) : (s.setHand k h).tick = s.tick := rfl
@[simp] theorem State.setHand_glitch (k : HandKey) (h : Hand) : (s.setHand k h).glitch = s.glitch := rfl

/-! ## State.modHand -/

@[simp] theorem State.modHand_threads (k : HandKey) (f : Hand → Hand) : (s.modHand k f).threads = s.threads := rfl
@[simp] theorem State.modHand_hands (k : HandKey) (f : Hand → Hand) : (s.modHand k f).hands = amod k f s.hands := rfl
@[simp] theorem State.modHand_teams (k : HandKey) (f : Hand → Hand) : (s.modHand k f).teams = s.teams := rfl
@[simp] theorem State.modHand_groups (k : HandKey) (f : Hand → Hand) : (s.modHand k f).groups = s.groups := rfl
@[simp] theorem State.modHand_fills (k : HandKey) (f : Hand → Hand) : (s.modHand k f).fills = s.fills := rfl
@[simp] theorem State.modHand_cores (k : HandKey) (f : Hand → Hand) : (s.modHand k f).cores = s.cores := rfl
@[simp] theorem State.modHand_holds (k : HandKey) (f : Hand → Hand) : (s.modHand k f).holds = s.holds := rfl
@[simp] theorem State.modHand_current (k : HandKey) (f : Hand → Hand) : (s.modHand k f).current = s.current := rfl
@[simp] theorem State.modHand_issue (k : HandKey) (f : Hand → Hand) : (s.modHand k f).issue = s.issue := rfl
@[simp] theorem State.modHand_quadOwner (k : HandKey) (f : Hand → Hand) : (s.modHand k f).quadOwner = s.quadOwner := rfl
@[simp] theorem State.modHand_queues (k : HandKey) (f : Hand → Hand) : (s.modHand k f).queues = s.queues := rfl
@[simp] theorem State.modHand_trees (k : HandKey) (f : Hand → Hand) : (s.modHand k f).trees = s.trees := rfl
@[simp] theorem State.modHand_dispatchers (k : HandKey) (f : Hand → Hand) : (s.modHand k f).dispatchers = s.dispatchers := rfl
@[simp] theorem State.modHand_funcs (k : HandKey) (f : Hand → Hand) : (s.modHand k f).funcs = s.funcs := rfl
@[simp] theorem State.modHand_keySlots (k : HandKey) (f : Hand → Hand) : (s.modHand k f).keySlots = s.keySlots := rfl
@[simp] theorem State.modHand_faults (k : HandKey) (f : Hand → Hand) : (s.modHand k f).faults = s.faults := rfl
@[simp] theorem State.modHand_mem (k : HandKey) (f : Hand → Hand) : (s.modHand k f).mem = s.mem := rfl
@[simp] theorem State.modHand_fab (k : HandKey) (f : Hand → Hand) : (s.modHand k f).fab = s.fab := rfl
@[simp] theorem State.modHand_folds (k : HandKey) (f : Hand → Hand) : (s.modHand k f).folds = s.folds := rfl
@[simp] theorem State.modHand_ranks (k : HandKey) (f : Hand → Hand) : (s.modHand k f).ranks = s.ranks := rfl
@[simp] theorem State.modHand_collSlots (k : HandKey) (f : Hand → Hand) : (s.modHand k f).collSlots = s.collSlots := rfl
@[simp] theorem State.modHand_health (k : HandKey) (f : Hand → Hand) : (s.modHand k f).health = s.health := rfl
@[simp] theorem State.modHand_chans (k : HandKey) (f : Hand → Hand) : (s.modHand k f).chans = s.chans := rfl
@[simp] theorem State.modHand_mats (k : HandKey) (f : Hand → Hand) : (s.modHand k f).mats = s.mats := rfl
@[simp] theorem State.modHand_bags (k : HandKey) (f : Hand → Hand) : (s.modHand k f).bags = s.bags := rfl
@[simp] theorem State.modHand_freeBags (k : HandKey) (f : Hand → Hand) : (s.modHand k f).freeBags = s.freeBags := rfl
@[simp] theorem State.modHand_bagReqs (k : HandKey) (f : Hand → Hand) : (s.modHand k f).bagReqs = s.bagReqs := rfl
@[simp] theorem State.modHand_pchs (k : HandKey) (f : Hand → Hand) : (s.modHand k f).pchs = s.pchs := rfl
@[simp] theorem State.modHand_cmPassed (k : HandKey) (f : Hand → Hand) : (s.modHand k f).cmPassed = s.cmPassed := rfl
@[simp] theorem State.modHand_runs (k : HandKey) (f : Hand → Hand) : (s.modHand k f).runs = s.runs := rfl
@[simp] theorem State.modHand_forwards (k : HandKey) (f : Hand → Hand) : (s.modHand k f).forwards = s.forwards := rfl
@[simp] theorem State.modHand_heldWrites (k : HandKey) (f : Hand → Hand) : (s.modHand k f).heldWrites = s.heldWrites := rfl
@[simp] theorem State.modHand_answers (k : HandKey) (f : Hand → Hand) : (s.modHand k f).answers = s.answers := rfl
@[simp] theorem State.modHand_nextId (k : HandKey) (f : Hand → Hand) : (s.modHand k f).nextId = s.nextId := rfl
@[simp] theorem State.modHand_saved (k : HandKey) (f : Hand → Hand) : (s.modHand k f).saved = s.saved := rfl
@[simp] theorem State.modHand_cycle (k : HandKey) (f : Hand → Hand) : (s.modHand k f).cycle = s.cycle := rfl
@[simp] theorem State.modHand_focus (k : HandKey) (f : Hand → Hand) : (s.modHand k f).focus = s.focus := rfl
@[simp] theorem State.modHand_tick (k : HandKey) (f : Hand → Hand) : (s.modHand k f).tick = s.tick := rfl
@[simp] theorem State.modHand_glitch (k : HandKey) (f : Hand → Hand) : (s.modHand k f).glitch = s.glitch := rfl

/-! ## State.setTeam -/

@[simp] theorem State.setTeam_threads (k : TeamId) (t : Team) : (s.setTeam k t).threads = s.threads := rfl
@[simp] theorem State.setTeam_hands (k : TeamId) (t : Team) : (s.setTeam k t).hands = s.hands := rfl
@[simp] theorem State.setTeam_teams (k : TeamId) (t : Team) : (s.setTeam k t).teams = aset k t s.teams := rfl
@[simp] theorem State.setTeam_groups (k : TeamId) (t : Team) : (s.setTeam k t).groups = s.groups := rfl
@[simp] theorem State.setTeam_fills (k : TeamId) (t : Team) : (s.setTeam k t).fills = s.fills := rfl
@[simp] theorem State.setTeam_cores (k : TeamId) (t : Team) : (s.setTeam k t).cores = s.cores := rfl
@[simp] theorem State.setTeam_holds (k : TeamId) (t : Team) : (s.setTeam k t).holds = s.holds := rfl
@[simp] theorem State.setTeam_current (k : TeamId) (t : Team) : (s.setTeam k t).current = s.current := rfl
@[simp] theorem State.setTeam_issue (k : TeamId) (t : Team) : (s.setTeam k t).issue = s.issue := rfl
@[simp] theorem State.setTeam_quadOwner (k : TeamId) (t : Team) : (s.setTeam k t).quadOwner = s.quadOwner := rfl
@[simp] theorem State.setTeam_queues (k : TeamId) (t : Team) : (s.setTeam k t).queues = s.queues := rfl
@[simp] theorem State.setTeam_trees (k : TeamId) (t : Team) : (s.setTeam k t).trees = s.trees := rfl
@[simp] theorem State.setTeam_dispatchers (k : TeamId) (t : Team) : (s.setTeam k t).dispatchers = s.dispatchers := rfl
@[simp] theorem State.setTeam_funcs (k : TeamId) (t : Team) : (s.setTeam k t).funcs = s.funcs := rfl
@[simp] theorem State.setTeam_keySlots (k : TeamId) (t : Team) : (s.setTeam k t).keySlots = s.keySlots := rfl
@[simp] theorem State.setTeam_faults (k : TeamId) (t : Team) : (s.setTeam k t).faults = s.faults := rfl
@[simp] theorem State.setTeam_mem (k : TeamId) (t : Team) : (s.setTeam k t).mem = s.mem := rfl
@[simp] theorem State.setTeam_fab (k : TeamId) (t : Team) : (s.setTeam k t).fab = s.fab := rfl
@[simp] theorem State.setTeam_folds (k : TeamId) (t : Team) : (s.setTeam k t).folds = s.folds := rfl
@[simp] theorem State.setTeam_ranks (k : TeamId) (t : Team) : (s.setTeam k t).ranks = s.ranks := rfl
@[simp] theorem State.setTeam_collSlots (k : TeamId) (t : Team) : (s.setTeam k t).collSlots = s.collSlots := rfl
@[simp] theorem State.setTeam_health (k : TeamId) (t : Team) : (s.setTeam k t).health = s.health := rfl
@[simp] theorem State.setTeam_chans (k : TeamId) (t : Team) : (s.setTeam k t).chans = s.chans := rfl
@[simp] theorem State.setTeam_mats (k : TeamId) (t : Team) : (s.setTeam k t).mats = s.mats := rfl
@[simp] theorem State.setTeam_bags (k : TeamId) (t : Team) : (s.setTeam k t).bags = s.bags := rfl
@[simp] theorem State.setTeam_freeBags (k : TeamId) (t : Team) : (s.setTeam k t).freeBags = s.freeBags := rfl
@[simp] theorem State.setTeam_bagReqs (k : TeamId) (t : Team) : (s.setTeam k t).bagReqs = s.bagReqs := rfl
@[simp] theorem State.setTeam_pchs (k : TeamId) (t : Team) : (s.setTeam k t).pchs = s.pchs := rfl
@[simp] theorem State.setTeam_cmPassed (k : TeamId) (t : Team) : (s.setTeam k t).cmPassed = s.cmPassed := rfl
@[simp] theorem State.setTeam_runs (k : TeamId) (t : Team) : (s.setTeam k t).runs = s.runs := rfl
@[simp] theorem State.setTeam_forwards (k : TeamId) (t : Team) : (s.setTeam k t).forwards = s.forwards := rfl
@[simp] theorem State.setTeam_heldWrites (k : TeamId) (t : Team) : (s.setTeam k t).heldWrites = s.heldWrites := rfl
@[simp] theorem State.setTeam_answers (k : TeamId) (t : Team) : (s.setTeam k t).answers = s.answers := rfl
@[simp] theorem State.setTeam_nextId (k : TeamId) (t : Team) : (s.setTeam k t).nextId = s.nextId := rfl
@[simp] theorem State.setTeam_saved (k : TeamId) (t : Team) : (s.setTeam k t).saved = s.saved := rfl
@[simp] theorem State.setTeam_cycle (k : TeamId) (t : Team) : (s.setTeam k t).cycle = s.cycle := rfl
@[simp] theorem State.setTeam_focus (k : TeamId) (t : Team) : (s.setTeam k t).focus = s.focus := rfl
@[simp] theorem State.setTeam_tick (k : TeamId) (t : Team) : (s.setTeam k t).tick = s.tick := rfl
@[simp] theorem State.setTeam_glitch (k : TeamId) (t : Team) : (s.setTeam k t).glitch = s.glitch := rfl

/-! ## State.modTeam -/

@[simp] theorem State.modTeam_threads (k : TeamId) (f : Team → Team) : (s.modTeam k f).threads = s.threads := rfl
@[simp] theorem State.modTeam_hands (k : TeamId) (f : Team → Team) : (s.modTeam k f).hands = s.hands := rfl
@[simp] theorem State.modTeam_teams (k : TeamId) (f : Team → Team) : (s.modTeam k f).teams = amod k f s.teams := rfl
@[simp] theorem State.modTeam_groups (k : TeamId) (f : Team → Team) : (s.modTeam k f).groups = s.groups := rfl
@[simp] theorem State.modTeam_fills (k : TeamId) (f : Team → Team) : (s.modTeam k f).fills = s.fills := rfl
@[simp] theorem State.modTeam_cores (k : TeamId) (f : Team → Team) : (s.modTeam k f).cores = s.cores := rfl
@[simp] theorem State.modTeam_holds (k : TeamId) (f : Team → Team) : (s.modTeam k f).holds = s.holds := rfl
@[simp] theorem State.modTeam_current (k : TeamId) (f : Team → Team) : (s.modTeam k f).current = s.current := rfl
@[simp] theorem State.modTeam_issue (k : TeamId) (f : Team → Team) : (s.modTeam k f).issue = s.issue := rfl
@[simp] theorem State.modTeam_quadOwner (k : TeamId) (f : Team → Team) : (s.modTeam k f).quadOwner = s.quadOwner := rfl
@[simp] theorem State.modTeam_queues (k : TeamId) (f : Team → Team) : (s.modTeam k f).queues = s.queues := rfl
@[simp] theorem State.modTeam_trees (k : TeamId) (f : Team → Team) : (s.modTeam k f).trees = s.trees := rfl
@[simp] theorem State.modTeam_dispatchers (k : TeamId) (f : Team → Team) : (s.modTeam k f).dispatchers = s.dispatchers := rfl
@[simp] theorem State.modTeam_funcs (k : TeamId) (f : Team → Team) : (s.modTeam k f).funcs = s.funcs := rfl
@[simp] theorem State.modTeam_keySlots (k : TeamId) (f : Team → Team) : (s.modTeam k f).keySlots = s.keySlots := rfl
@[simp] theorem State.modTeam_faults (k : TeamId) (f : Team → Team) : (s.modTeam k f).faults = s.faults := rfl
@[simp] theorem State.modTeam_mem (k : TeamId) (f : Team → Team) : (s.modTeam k f).mem = s.mem := rfl
@[simp] theorem State.modTeam_fab (k : TeamId) (f : Team → Team) : (s.modTeam k f).fab = s.fab := rfl
@[simp] theorem State.modTeam_folds (k : TeamId) (f : Team → Team) : (s.modTeam k f).folds = s.folds := rfl
@[simp] theorem State.modTeam_ranks (k : TeamId) (f : Team → Team) : (s.modTeam k f).ranks = s.ranks := rfl
@[simp] theorem State.modTeam_collSlots (k : TeamId) (f : Team → Team) : (s.modTeam k f).collSlots = s.collSlots := rfl
@[simp] theorem State.modTeam_health (k : TeamId) (f : Team → Team) : (s.modTeam k f).health = s.health := rfl
@[simp] theorem State.modTeam_chans (k : TeamId) (f : Team → Team) : (s.modTeam k f).chans = s.chans := rfl
@[simp] theorem State.modTeam_mats (k : TeamId) (f : Team → Team) : (s.modTeam k f).mats = s.mats := rfl
@[simp] theorem State.modTeam_bags (k : TeamId) (f : Team → Team) : (s.modTeam k f).bags = s.bags := rfl
@[simp] theorem State.modTeam_freeBags (k : TeamId) (f : Team → Team) : (s.modTeam k f).freeBags = s.freeBags := rfl
@[simp] theorem State.modTeam_bagReqs (k : TeamId) (f : Team → Team) : (s.modTeam k f).bagReqs = s.bagReqs := rfl
@[simp] theorem State.modTeam_pchs (k : TeamId) (f : Team → Team) : (s.modTeam k f).pchs = s.pchs := rfl
@[simp] theorem State.modTeam_cmPassed (k : TeamId) (f : Team → Team) : (s.modTeam k f).cmPassed = s.cmPassed := rfl
@[simp] theorem State.modTeam_runs (k : TeamId) (f : Team → Team) : (s.modTeam k f).runs = s.runs := rfl
@[simp] theorem State.modTeam_forwards (k : TeamId) (f : Team → Team) : (s.modTeam k f).forwards = s.forwards := rfl
@[simp] theorem State.modTeam_heldWrites (k : TeamId) (f : Team → Team) : (s.modTeam k f).heldWrites = s.heldWrites := rfl
@[simp] theorem State.modTeam_answers (k : TeamId) (f : Team → Team) : (s.modTeam k f).answers = s.answers := rfl
@[simp] theorem State.modTeam_nextId (k : TeamId) (f : Team → Team) : (s.modTeam k f).nextId = s.nextId := rfl
@[simp] theorem State.modTeam_saved (k : TeamId) (f : Team → Team) : (s.modTeam k f).saved = s.saved := rfl
@[simp] theorem State.modTeam_cycle (k : TeamId) (f : Team → Team) : (s.modTeam k f).cycle = s.cycle := rfl
@[simp] theorem State.modTeam_focus (k : TeamId) (f : Team → Team) : (s.modTeam k f).focus = s.focus := rfl
@[simp] theorem State.modTeam_tick (k : TeamId) (f : Team → Team) : (s.modTeam k f).tick = s.tick := rfl
@[simp] theorem State.modTeam_glitch (k : TeamId) (f : Team → Team) : (s.modTeam k f).glitch = s.glitch := rfl

/-! ## State.modCore -/

@[simp] theorem State.modCore_threads (c : CoreId) (f : Core → Core) : (s.modCore c f).threads = s.threads := rfl
@[simp] theorem State.modCore_hands (c : CoreId) (f : Core → Core) : (s.modCore c f).hands = s.hands := rfl
@[simp] theorem State.modCore_teams (c : CoreId) (f : Core → Core) : (s.modCore c f).teams = s.teams := rfl
@[simp] theorem State.modCore_groups (c : CoreId) (f : Core → Core) : (s.modCore c f).groups = s.groups := rfl
@[simp] theorem State.modCore_fills (c : CoreId) (f : Core → Core) : (s.modCore c f).fills = s.fills := rfl
@[simp] theorem State.modCore_cores (c : CoreId) (f : Core → Core) : (s.modCore c f).cores = aset c (f (s.core c)) s.cores := rfl
@[simp] theorem State.modCore_holds (c : CoreId) (f : Core → Core) : (s.modCore c f).holds = s.holds := rfl
@[simp] theorem State.modCore_current (c : CoreId) (f : Core → Core) : (s.modCore c f).current = s.current := rfl
@[simp] theorem State.modCore_issue (c : CoreId) (f : Core → Core) : (s.modCore c f).issue = s.issue := rfl
@[simp] theorem State.modCore_quadOwner (c : CoreId) (f : Core → Core) : (s.modCore c f).quadOwner = s.quadOwner := rfl
@[simp] theorem State.modCore_queues (c : CoreId) (f : Core → Core) : (s.modCore c f).queues = s.queues := rfl
@[simp] theorem State.modCore_trees (c : CoreId) (f : Core → Core) : (s.modCore c f).trees = s.trees := rfl
@[simp] theorem State.modCore_dispatchers (c : CoreId) (f : Core → Core) : (s.modCore c f).dispatchers = s.dispatchers := rfl
@[simp] theorem State.modCore_funcs (c : CoreId) (f : Core → Core) : (s.modCore c f).funcs = s.funcs := rfl
@[simp] theorem State.modCore_keySlots (c : CoreId) (f : Core → Core) : (s.modCore c f).keySlots = s.keySlots := rfl
@[simp] theorem State.modCore_faults (c : CoreId) (f : Core → Core) : (s.modCore c f).faults = s.faults := rfl
@[simp] theorem State.modCore_mem (c : CoreId) (f : Core → Core) : (s.modCore c f).mem = s.mem := rfl
@[simp] theorem State.modCore_fab (c : CoreId) (f : Core → Core) : (s.modCore c f).fab = s.fab := rfl
@[simp] theorem State.modCore_folds (c : CoreId) (f : Core → Core) : (s.modCore c f).folds = s.folds := rfl
@[simp] theorem State.modCore_ranks (c : CoreId) (f : Core → Core) : (s.modCore c f).ranks = s.ranks := rfl
@[simp] theorem State.modCore_collSlots (c : CoreId) (f : Core → Core) : (s.modCore c f).collSlots = s.collSlots := rfl
@[simp] theorem State.modCore_health (c : CoreId) (f : Core → Core) : (s.modCore c f).health = s.health := rfl
@[simp] theorem State.modCore_chans (c : CoreId) (f : Core → Core) : (s.modCore c f).chans = s.chans := rfl
@[simp] theorem State.modCore_mats (c : CoreId) (f : Core → Core) : (s.modCore c f).mats = s.mats := rfl
@[simp] theorem State.modCore_bags (c : CoreId) (f : Core → Core) : (s.modCore c f).bags = s.bags := rfl
@[simp] theorem State.modCore_freeBags (c : CoreId) (f : Core → Core) : (s.modCore c f).freeBags = s.freeBags := rfl
@[simp] theorem State.modCore_bagReqs (c : CoreId) (f : Core → Core) : (s.modCore c f).bagReqs = s.bagReqs := rfl
@[simp] theorem State.modCore_pchs (c : CoreId) (f : Core → Core) : (s.modCore c f).pchs = s.pchs := rfl
@[simp] theorem State.modCore_cmPassed (c : CoreId) (f : Core → Core) : (s.modCore c f).cmPassed = s.cmPassed := rfl
@[simp] theorem State.modCore_runs (c : CoreId) (f : Core → Core) : (s.modCore c f).runs = s.runs := rfl
@[simp] theorem State.modCore_forwards (c : CoreId) (f : Core → Core) : (s.modCore c f).forwards = s.forwards := rfl
@[simp] theorem State.modCore_heldWrites (c : CoreId) (f : Core → Core) : (s.modCore c f).heldWrites = s.heldWrites := rfl
@[simp] theorem State.modCore_answers (c : CoreId) (f : Core → Core) : (s.modCore c f).answers = s.answers := rfl
@[simp] theorem State.modCore_nextId (c : CoreId) (f : Core → Core) : (s.modCore c f).nextId = s.nextId := rfl
@[simp] theorem State.modCore_saved (c : CoreId) (f : Core → Core) : (s.modCore c f).saved = s.saved := rfl
@[simp] theorem State.modCore_cycle (c : CoreId) (f : Core → Core) : (s.modCore c f).cycle = s.cycle := rfl
@[simp] theorem State.modCore_focus (c : CoreId) (f : Core → Core) : (s.modCore c f).focus = s.focus := rfl
@[simp] theorem State.modCore_tick (c : CoreId) (f : Core → Core) : (s.modCore c f).tick = s.tick := rfl
@[simp] theorem State.modCore_glitch (c : CoreId) (f : Core → Core) : (s.modCore c f).glitch = s.glitch := rfl

/-! ## State.modFunc -/

@[simp] theorem State.modFunc_threads (n : Nat) (f : Func → Func) : (s.modFunc n f).threads = s.threads := rfl
@[simp] theorem State.modFunc_hands (n : Nat) (f : Func → Func) : (s.modFunc n f).hands = s.hands := rfl
@[simp] theorem State.modFunc_teams (n : Nat) (f : Func → Func) : (s.modFunc n f).teams = s.teams := rfl
@[simp] theorem State.modFunc_groups (n : Nat) (f : Func → Func) : (s.modFunc n f).groups = s.groups := rfl
@[simp] theorem State.modFunc_fills (n : Nat) (f : Func → Func) : (s.modFunc n f).fills = s.fills := rfl
@[simp] theorem State.modFunc_cores (n : Nat) (f : Func → Func) : (s.modFunc n f).cores = s.cores := rfl
@[simp] theorem State.modFunc_holds (n : Nat) (f : Func → Func) : (s.modFunc n f).holds = s.holds := rfl
@[simp] theorem State.modFunc_current (n : Nat) (f : Func → Func) : (s.modFunc n f).current = s.current := rfl
@[simp] theorem State.modFunc_issue (n : Nat) (f : Func → Func) : (s.modFunc n f).issue = s.issue := rfl
@[simp] theorem State.modFunc_quadOwner (n : Nat) (f : Func → Func) : (s.modFunc n f).quadOwner = s.quadOwner := rfl
@[simp] theorem State.modFunc_queues (n : Nat) (f : Func → Func) : (s.modFunc n f).queues = s.queues := rfl
@[simp] theorem State.modFunc_trees (n : Nat) (f : Func → Func) : (s.modFunc n f).trees = s.trees := rfl
@[simp] theorem State.modFunc_dispatchers (n : Nat) (f : Func → Func) : (s.modFunc n f).dispatchers = s.dispatchers := rfl
@[simp] theorem State.modFunc_funcs (n : Nat) (f : Func → Func) : (s.modFunc n f).funcs = aset n (f (s.func n)) s.funcs := rfl
@[simp] theorem State.modFunc_keySlots (n : Nat) (f : Func → Func) : (s.modFunc n f).keySlots = s.keySlots := rfl
@[simp] theorem State.modFunc_faults (n : Nat) (f : Func → Func) : (s.modFunc n f).faults = s.faults := rfl
@[simp] theorem State.modFunc_mem (n : Nat) (f : Func → Func) : (s.modFunc n f).mem = s.mem := rfl
@[simp] theorem State.modFunc_fab (n : Nat) (f : Func → Func) : (s.modFunc n f).fab = s.fab := rfl
@[simp] theorem State.modFunc_folds (n : Nat) (f : Func → Func) : (s.modFunc n f).folds = s.folds := rfl
@[simp] theorem State.modFunc_ranks (n : Nat) (f : Func → Func) : (s.modFunc n f).ranks = s.ranks := rfl
@[simp] theorem State.modFunc_collSlots (n : Nat) (f : Func → Func) : (s.modFunc n f).collSlots = s.collSlots := rfl
@[simp] theorem State.modFunc_health (n : Nat) (f : Func → Func) : (s.modFunc n f).health = s.health := rfl
@[simp] theorem State.modFunc_chans (n : Nat) (f : Func → Func) : (s.modFunc n f).chans = s.chans := rfl
@[simp] theorem State.modFunc_mats (n : Nat) (f : Func → Func) : (s.modFunc n f).mats = s.mats := rfl
@[simp] theorem State.modFunc_bags (n : Nat) (f : Func → Func) : (s.modFunc n f).bags = s.bags := rfl
@[simp] theorem State.modFunc_freeBags (n : Nat) (f : Func → Func) : (s.modFunc n f).freeBags = s.freeBags := rfl
@[simp] theorem State.modFunc_bagReqs (n : Nat) (f : Func → Func) : (s.modFunc n f).bagReqs = s.bagReqs := rfl
@[simp] theorem State.modFunc_pchs (n : Nat) (f : Func → Func) : (s.modFunc n f).pchs = s.pchs := rfl
@[simp] theorem State.modFunc_cmPassed (n : Nat) (f : Func → Func) : (s.modFunc n f).cmPassed = s.cmPassed := rfl
@[simp] theorem State.modFunc_runs (n : Nat) (f : Func → Func) : (s.modFunc n f).runs = s.runs := rfl
@[simp] theorem State.modFunc_forwards (n : Nat) (f : Func → Func) : (s.modFunc n f).forwards = s.forwards := rfl
@[simp] theorem State.modFunc_heldWrites (n : Nat) (f : Func → Func) : (s.modFunc n f).heldWrites = s.heldWrites := rfl
@[simp] theorem State.modFunc_answers (n : Nat) (f : Func → Func) : (s.modFunc n f).answers = s.answers := rfl
@[simp] theorem State.modFunc_nextId (n : Nat) (f : Func → Func) : (s.modFunc n f).nextId = s.nextId := rfl
@[simp] theorem State.modFunc_saved (n : Nat) (f : Func → Func) : (s.modFunc n f).saved = s.saved := rfl
@[simp] theorem State.modFunc_cycle (n : Nat) (f : Func → Func) : (s.modFunc n f).cycle = s.cycle := rfl
@[simp] theorem State.modFunc_focus (n : Nat) (f : Func → Func) : (s.modFunc n f).focus = s.focus := rfl
@[simp] theorem State.modFunc_tick (n : Nat) (f : Func → Func) : (s.modFunc n f).tick = s.tick := rfl
@[simp] theorem State.modFunc_glitch (n : Nat) (f : Func → Func) : (s.modFunc n f).glitch = s.glitch := rfl

/-! ## State.modQueue -/

@[simp] theorem State.modQueue_threads (q : Nat) (f : Queue → Queue) : (s.modQueue q f).threads = s.threads := rfl
@[simp] theorem State.modQueue_hands (q : Nat) (f : Queue → Queue) : (s.modQueue q f).hands = s.hands := rfl
@[simp] theorem State.modQueue_teams (q : Nat) (f : Queue → Queue) : (s.modQueue q f).teams = s.teams := rfl
@[simp] theorem State.modQueue_groups (q : Nat) (f : Queue → Queue) : (s.modQueue q f).groups = s.groups := rfl
@[simp] theorem State.modQueue_fills (q : Nat) (f : Queue → Queue) : (s.modQueue q f).fills = s.fills := rfl
@[simp] theorem State.modQueue_cores (q : Nat) (f : Queue → Queue) : (s.modQueue q f).cores = s.cores := rfl
@[simp] theorem State.modQueue_holds (q : Nat) (f : Queue → Queue) : (s.modQueue q f).holds = s.holds := rfl
@[simp] theorem State.modQueue_current (q : Nat) (f : Queue → Queue) : (s.modQueue q f).current = s.current := rfl
@[simp] theorem State.modQueue_issue (q : Nat) (f : Queue → Queue) : (s.modQueue q f).issue = s.issue := rfl
@[simp] theorem State.modQueue_quadOwner (q : Nat) (f : Queue → Queue) : (s.modQueue q f).quadOwner = s.quadOwner := rfl
@[simp] theorem State.modQueue_queues (q : Nat) (f : Queue → Queue) : (s.modQueue q f).queues = aset q (f (s.queue q)) s.queues := rfl
@[simp] theorem State.modQueue_trees (q : Nat) (f : Queue → Queue) : (s.modQueue q f).trees = s.trees := rfl
@[simp] theorem State.modQueue_dispatchers (q : Nat) (f : Queue → Queue) : (s.modQueue q f).dispatchers = s.dispatchers := rfl
@[simp] theorem State.modQueue_funcs (q : Nat) (f : Queue → Queue) : (s.modQueue q f).funcs = s.funcs := rfl
@[simp] theorem State.modQueue_keySlots (q : Nat) (f : Queue → Queue) : (s.modQueue q f).keySlots = s.keySlots := rfl
@[simp] theorem State.modQueue_faults (q : Nat) (f : Queue → Queue) : (s.modQueue q f).faults = s.faults := rfl
@[simp] theorem State.modQueue_mem (q : Nat) (f : Queue → Queue) : (s.modQueue q f).mem = s.mem := rfl
@[simp] theorem State.modQueue_fab (q : Nat) (f : Queue → Queue) : (s.modQueue q f).fab = s.fab := rfl
@[simp] theorem State.modQueue_folds (q : Nat) (f : Queue → Queue) : (s.modQueue q f).folds = s.folds := rfl
@[simp] theorem State.modQueue_ranks (q : Nat) (f : Queue → Queue) : (s.modQueue q f).ranks = s.ranks := rfl
@[simp] theorem State.modQueue_collSlots (q : Nat) (f : Queue → Queue) : (s.modQueue q f).collSlots = s.collSlots := rfl
@[simp] theorem State.modQueue_health (q : Nat) (f : Queue → Queue) : (s.modQueue q f).health = s.health := rfl
@[simp] theorem State.modQueue_chans (q : Nat) (f : Queue → Queue) : (s.modQueue q f).chans = s.chans := rfl
@[simp] theorem State.modQueue_mats (q : Nat) (f : Queue → Queue) : (s.modQueue q f).mats = s.mats := rfl
@[simp] theorem State.modQueue_bags (q : Nat) (f : Queue → Queue) : (s.modQueue q f).bags = s.bags := rfl
@[simp] theorem State.modQueue_freeBags (q : Nat) (f : Queue → Queue) : (s.modQueue q f).freeBags = s.freeBags := rfl
@[simp] theorem State.modQueue_bagReqs (q : Nat) (f : Queue → Queue) : (s.modQueue q f).bagReqs = s.bagReqs := rfl
@[simp] theorem State.modQueue_pchs (q : Nat) (f : Queue → Queue) : (s.modQueue q f).pchs = s.pchs := rfl
@[simp] theorem State.modQueue_cmPassed (q : Nat) (f : Queue → Queue) : (s.modQueue q f).cmPassed = s.cmPassed := rfl
@[simp] theorem State.modQueue_runs (q : Nat) (f : Queue → Queue) : (s.modQueue q f).runs = s.runs := rfl
@[simp] theorem State.modQueue_forwards (q : Nat) (f : Queue → Queue) : (s.modQueue q f).forwards = s.forwards := rfl
@[simp] theorem State.modQueue_heldWrites (q : Nat) (f : Queue → Queue) : (s.modQueue q f).heldWrites = s.heldWrites := rfl
@[simp] theorem State.modQueue_answers (q : Nat) (f : Queue → Queue) : (s.modQueue q f).answers = s.answers := rfl
@[simp] theorem State.modQueue_nextId (q : Nat) (f : Queue → Queue) : (s.modQueue q f).nextId = s.nextId := rfl
@[simp] theorem State.modQueue_saved (q : Nat) (f : Queue → Queue) : (s.modQueue q f).saved = s.saved := rfl
@[simp] theorem State.modQueue_cycle (q : Nat) (f : Queue → Queue) : (s.modQueue q f).cycle = s.cycle := rfl
@[simp] theorem State.modQueue_focus (q : Nat) (f : Queue → Queue) : (s.modQueue q f).focus = s.focus := rfl
@[simp] theorem State.modQueue_tick (q : Nat) (f : Queue → Queue) : (s.modQueue q f).tick = s.tick := rfl
@[simp] theorem State.modQueue_glitch (q : Nat) (f : Queue → Queue) : (s.modQueue q f).glitch = s.glitch := rfl

/-! ## State.modDisp -/

@[simp] theorem State.modDisp_threads (d : Nat) (f : Dispatcher → Dispatcher) : (s.modDisp d f).threads = s.threads := rfl
@[simp] theorem State.modDisp_hands (d : Nat) (f : Dispatcher → Dispatcher) : (s.modDisp d f).hands = s.hands := rfl
@[simp] theorem State.modDisp_teams (d : Nat) (f : Dispatcher → Dispatcher) : (s.modDisp d f).teams = s.teams := rfl
@[simp] theorem State.modDisp_groups (d : Nat) (f : Dispatcher → Dispatcher) : (s.modDisp d f).groups = s.groups := rfl
@[simp] theorem State.modDisp_fills (d : Nat) (f : Dispatcher → Dispatcher) : (s.modDisp d f).fills = s.fills := rfl
@[simp] theorem State.modDisp_cores (d : Nat) (f : Dispatcher → Dispatcher) : (s.modDisp d f).cores = s.cores := rfl
@[simp] theorem State.modDisp_holds (d : Nat) (f : Dispatcher → Dispatcher) : (s.modDisp d f).holds = s.holds := rfl
@[simp] theorem State.modDisp_current (d : Nat) (f : Dispatcher → Dispatcher) : (s.modDisp d f).current = s.current := rfl
@[simp] theorem State.modDisp_issue (d : Nat) (f : Dispatcher → Dispatcher) : (s.modDisp d f).issue = s.issue := rfl
@[simp] theorem State.modDisp_quadOwner (d : Nat) (f : Dispatcher → Dispatcher) : (s.modDisp d f).quadOwner = s.quadOwner := rfl
@[simp] theorem State.modDisp_queues (d : Nat) (f : Dispatcher → Dispatcher) : (s.modDisp d f).queues = s.queues := rfl
@[simp] theorem State.modDisp_trees (d : Nat) (f : Dispatcher → Dispatcher) : (s.modDisp d f).trees = s.trees := rfl
@[simp] theorem State.modDisp_dispatchers (d : Nat) (f : Dispatcher → Dispatcher) : (s.modDisp d f).dispatchers = aset d (f (s.disp d)) s.dispatchers := rfl
@[simp] theorem State.modDisp_funcs (d : Nat) (f : Dispatcher → Dispatcher) : (s.modDisp d f).funcs = s.funcs := rfl
@[simp] theorem State.modDisp_keySlots (d : Nat) (f : Dispatcher → Dispatcher) : (s.modDisp d f).keySlots = s.keySlots := rfl
@[simp] theorem State.modDisp_faults (d : Nat) (f : Dispatcher → Dispatcher) : (s.modDisp d f).faults = s.faults := rfl
@[simp] theorem State.modDisp_mem (d : Nat) (f : Dispatcher → Dispatcher) : (s.modDisp d f).mem = s.mem := rfl
@[simp] theorem State.modDisp_fab (d : Nat) (f : Dispatcher → Dispatcher) : (s.modDisp d f).fab = s.fab := rfl
@[simp] theorem State.modDisp_folds (d : Nat) (f : Dispatcher → Dispatcher) : (s.modDisp d f).folds = s.folds := rfl
@[simp] theorem State.modDisp_ranks (d : Nat) (f : Dispatcher → Dispatcher) : (s.modDisp d f).ranks = s.ranks := rfl
@[simp] theorem State.modDisp_collSlots (d : Nat) (f : Dispatcher → Dispatcher) : (s.modDisp d f).collSlots = s.collSlots := rfl
@[simp] theorem State.modDisp_health (d : Nat) (f : Dispatcher → Dispatcher) : (s.modDisp d f).health = s.health := rfl
@[simp] theorem State.modDisp_chans (d : Nat) (f : Dispatcher → Dispatcher) : (s.modDisp d f).chans = s.chans := rfl
@[simp] theorem State.modDisp_mats (d : Nat) (f : Dispatcher → Dispatcher) : (s.modDisp d f).mats = s.mats := rfl
@[simp] theorem State.modDisp_bags (d : Nat) (f : Dispatcher → Dispatcher) : (s.modDisp d f).bags = s.bags := rfl
@[simp] theorem State.modDisp_freeBags (d : Nat) (f : Dispatcher → Dispatcher) : (s.modDisp d f).freeBags = s.freeBags := rfl
@[simp] theorem State.modDisp_bagReqs (d : Nat) (f : Dispatcher → Dispatcher) : (s.modDisp d f).bagReqs = s.bagReqs := rfl
@[simp] theorem State.modDisp_pchs (d : Nat) (f : Dispatcher → Dispatcher) : (s.modDisp d f).pchs = s.pchs := rfl
@[simp] theorem State.modDisp_cmPassed (d : Nat) (f : Dispatcher → Dispatcher) : (s.modDisp d f).cmPassed = s.cmPassed := rfl
@[simp] theorem State.modDisp_runs (d : Nat) (f : Dispatcher → Dispatcher) : (s.modDisp d f).runs = s.runs := rfl
@[simp] theorem State.modDisp_forwards (d : Nat) (f : Dispatcher → Dispatcher) : (s.modDisp d f).forwards = s.forwards := rfl
@[simp] theorem State.modDisp_heldWrites (d : Nat) (f : Dispatcher → Dispatcher) : (s.modDisp d f).heldWrites = s.heldWrites := rfl
@[simp] theorem State.modDisp_answers (d : Nat) (f : Dispatcher → Dispatcher) : (s.modDisp d f).answers = s.answers := rfl
@[simp] theorem State.modDisp_nextId (d : Nat) (f : Dispatcher → Dispatcher) : (s.modDisp d f).nextId = s.nextId := rfl
@[simp] theorem State.modDisp_saved (d : Nat) (f : Dispatcher → Dispatcher) : (s.modDisp d f).saved = s.saved := rfl
@[simp] theorem State.modDisp_cycle (d : Nat) (f : Dispatcher → Dispatcher) : (s.modDisp d f).cycle = s.cycle := rfl
@[simp] theorem State.modDisp_focus (d : Nat) (f : Dispatcher → Dispatcher) : (s.modDisp d f).focus = s.focus := rfl
@[simp] theorem State.modDisp_tick (d : Nat) (f : Dispatcher → Dispatcher) : (s.modDisp d f).tick = s.tick := rfl
@[simp] theorem State.modDisp_glitch (d : Nat) (f : Dispatcher → Dispatcher) : (s.modDisp d f).glitch = s.glitch := rfl

/-! ## State.modChan -/

@[simp] theorem State.modChan_threads (c : ChanId) (f : Chan → Chan) : (s.modChan c f).threads = s.threads := rfl
@[simp] theorem State.modChan_hands (c : ChanId) (f : Chan → Chan) : (s.modChan c f).hands = s.hands := rfl
@[simp] theorem State.modChan_teams (c : ChanId) (f : Chan → Chan) : (s.modChan c f).teams = s.teams := rfl
@[simp] theorem State.modChan_groups (c : ChanId) (f : Chan → Chan) : (s.modChan c f).groups = s.groups := rfl
@[simp] theorem State.modChan_fills (c : ChanId) (f : Chan → Chan) : (s.modChan c f).fills = s.fills := rfl
@[simp] theorem State.modChan_cores (c : ChanId) (f : Chan → Chan) : (s.modChan c f).cores = s.cores := rfl
@[simp] theorem State.modChan_holds (c : ChanId) (f : Chan → Chan) : (s.modChan c f).holds = s.holds := rfl
@[simp] theorem State.modChan_current (c : ChanId) (f : Chan → Chan) : (s.modChan c f).current = s.current := rfl
@[simp] theorem State.modChan_issue (c : ChanId) (f : Chan → Chan) : (s.modChan c f).issue = s.issue := rfl
@[simp] theorem State.modChan_quadOwner (c : ChanId) (f : Chan → Chan) : (s.modChan c f).quadOwner = s.quadOwner := rfl
@[simp] theorem State.modChan_queues (c : ChanId) (f : Chan → Chan) : (s.modChan c f).queues = s.queues := rfl
@[simp] theorem State.modChan_trees (c : ChanId) (f : Chan → Chan) : (s.modChan c f).trees = s.trees := rfl
@[simp] theorem State.modChan_dispatchers (c : ChanId) (f : Chan → Chan) : (s.modChan c f).dispatchers = s.dispatchers := rfl
@[simp] theorem State.modChan_funcs (c : ChanId) (f : Chan → Chan) : (s.modChan c f).funcs = s.funcs := rfl
@[simp] theorem State.modChan_keySlots (c : ChanId) (f : Chan → Chan) : (s.modChan c f).keySlots = s.keySlots := rfl
@[simp] theorem State.modChan_faults (c : ChanId) (f : Chan → Chan) : (s.modChan c f).faults = s.faults := rfl
@[simp] theorem State.modChan_mem (c : ChanId) (f : Chan → Chan) : (s.modChan c f).mem = s.mem := rfl
@[simp] theorem State.modChan_fab (c : ChanId) (f : Chan → Chan) : (s.modChan c f).fab = s.fab := rfl
@[simp] theorem State.modChan_folds (c : ChanId) (f : Chan → Chan) : (s.modChan c f).folds = s.folds := rfl
@[simp] theorem State.modChan_ranks (c : ChanId) (f : Chan → Chan) : (s.modChan c f).ranks = s.ranks := rfl
@[simp] theorem State.modChan_collSlots (c : ChanId) (f : Chan → Chan) : (s.modChan c f).collSlots = s.collSlots := rfl
@[simp] theorem State.modChan_health (c : ChanId) (f : Chan → Chan) : (s.modChan c f).health = s.health := rfl
@[simp] theorem State.modChan_chans (c : ChanId) (f : Chan → Chan) : (s.modChan c f).chans = aset c (f (s.chan c)) s.chans := rfl
@[simp] theorem State.modChan_mats (c : ChanId) (f : Chan → Chan) : (s.modChan c f).mats = s.mats := rfl
@[simp] theorem State.modChan_bags (c : ChanId) (f : Chan → Chan) : (s.modChan c f).bags = s.bags := rfl
@[simp] theorem State.modChan_freeBags (c : ChanId) (f : Chan → Chan) : (s.modChan c f).freeBags = s.freeBags := rfl
@[simp] theorem State.modChan_bagReqs (c : ChanId) (f : Chan → Chan) : (s.modChan c f).bagReqs = s.bagReqs := rfl
@[simp] theorem State.modChan_pchs (c : ChanId) (f : Chan → Chan) : (s.modChan c f).pchs = s.pchs := rfl
@[simp] theorem State.modChan_cmPassed (c : ChanId) (f : Chan → Chan) : (s.modChan c f).cmPassed = s.cmPassed := rfl
@[simp] theorem State.modChan_runs (c : ChanId) (f : Chan → Chan) : (s.modChan c f).runs = s.runs := rfl
@[simp] theorem State.modChan_forwards (c : ChanId) (f : Chan → Chan) : (s.modChan c f).forwards = s.forwards := rfl
@[simp] theorem State.modChan_heldWrites (c : ChanId) (f : Chan → Chan) : (s.modChan c f).heldWrites = s.heldWrites := rfl
@[simp] theorem State.modChan_answers (c : ChanId) (f : Chan → Chan) : (s.modChan c f).answers = s.answers := rfl
@[simp] theorem State.modChan_nextId (c : ChanId) (f : Chan → Chan) : (s.modChan c f).nextId = s.nextId := rfl
@[simp] theorem State.modChan_saved (c : ChanId) (f : Chan → Chan) : (s.modChan c f).saved = s.saved := rfl
@[simp] theorem State.modChan_cycle (c : ChanId) (f : Chan → Chan) : (s.modChan c f).cycle = s.cycle := rfl
@[simp] theorem State.modChan_focus (c : ChanId) (f : Chan → Chan) : (s.modChan c f).focus = s.focus := rfl
@[simp] theorem State.modChan_tick (c : ChanId) (f : Chan → Chan) : (s.modChan c f).tick = s.tick := rfl
@[simp] theorem State.modChan_glitch (c : ChanId) (f : Chan → Chan) : (s.modChan c f).glitch = s.glitch := rfl

/-! ## State.modMat -/

@[simp] theorem State.modMat_threads (q : QuadId) (f : Mat → Mat) : (s.modMat q f).threads = s.threads := rfl
@[simp] theorem State.modMat_hands (q : QuadId) (f : Mat → Mat) : (s.modMat q f).hands = s.hands := rfl
@[simp] theorem State.modMat_teams (q : QuadId) (f : Mat → Mat) : (s.modMat q f).teams = s.teams := rfl
@[simp] theorem State.modMat_groups (q : QuadId) (f : Mat → Mat) : (s.modMat q f).groups = s.groups := rfl
@[simp] theorem State.modMat_fills (q : QuadId) (f : Mat → Mat) : (s.modMat q f).fills = s.fills := rfl
@[simp] theorem State.modMat_cores (q : QuadId) (f : Mat → Mat) : (s.modMat q f).cores = s.cores := rfl
@[simp] theorem State.modMat_holds (q : QuadId) (f : Mat → Mat) : (s.modMat q f).holds = s.holds := rfl
@[simp] theorem State.modMat_current (q : QuadId) (f : Mat → Mat) : (s.modMat q f).current = s.current := rfl
@[simp] theorem State.modMat_issue (q : QuadId) (f : Mat → Mat) : (s.modMat q f).issue = s.issue := rfl
@[simp] theorem State.modMat_quadOwner (q : QuadId) (f : Mat → Mat) : (s.modMat q f).quadOwner = s.quadOwner := rfl
@[simp] theorem State.modMat_queues (q : QuadId) (f : Mat → Mat) : (s.modMat q f).queues = s.queues := rfl
@[simp] theorem State.modMat_trees (q : QuadId) (f : Mat → Mat) : (s.modMat q f).trees = s.trees := rfl
@[simp] theorem State.modMat_dispatchers (q : QuadId) (f : Mat → Mat) : (s.modMat q f).dispatchers = s.dispatchers := rfl
@[simp] theorem State.modMat_funcs (q : QuadId) (f : Mat → Mat) : (s.modMat q f).funcs = s.funcs := rfl
@[simp] theorem State.modMat_keySlots (q : QuadId) (f : Mat → Mat) : (s.modMat q f).keySlots = s.keySlots := rfl
@[simp] theorem State.modMat_faults (q : QuadId) (f : Mat → Mat) : (s.modMat q f).faults = s.faults := rfl
@[simp] theorem State.modMat_mem (q : QuadId) (f : Mat → Mat) : (s.modMat q f).mem = s.mem := rfl
@[simp] theorem State.modMat_fab (q : QuadId) (f : Mat → Mat) : (s.modMat q f).fab = s.fab := rfl
@[simp] theorem State.modMat_folds (q : QuadId) (f : Mat → Mat) : (s.modMat q f).folds = s.folds := rfl
@[simp] theorem State.modMat_ranks (q : QuadId) (f : Mat → Mat) : (s.modMat q f).ranks = s.ranks := rfl
@[simp] theorem State.modMat_collSlots (q : QuadId) (f : Mat → Mat) : (s.modMat q f).collSlots = s.collSlots := rfl
@[simp] theorem State.modMat_health (q : QuadId) (f : Mat → Mat) : (s.modMat q f).health = s.health := rfl
@[simp] theorem State.modMat_chans (q : QuadId) (f : Mat → Mat) : (s.modMat q f).chans = s.chans := rfl
@[simp] theorem State.modMat_mats (q : QuadId) (f : Mat → Mat) : (s.modMat q f).mats = aset q (f (s.mat q)) s.mats := rfl
@[simp] theorem State.modMat_bags (q : QuadId) (f : Mat → Mat) : (s.modMat q f).bags = s.bags := rfl
@[simp] theorem State.modMat_freeBags (q : QuadId) (f : Mat → Mat) : (s.modMat q f).freeBags = s.freeBags := rfl
@[simp] theorem State.modMat_bagReqs (q : QuadId) (f : Mat → Mat) : (s.modMat q f).bagReqs = s.bagReqs := rfl
@[simp] theorem State.modMat_pchs (q : QuadId) (f : Mat → Mat) : (s.modMat q f).pchs = s.pchs := rfl
@[simp] theorem State.modMat_cmPassed (q : QuadId) (f : Mat → Mat) : (s.modMat q f).cmPassed = s.cmPassed := rfl
@[simp] theorem State.modMat_runs (q : QuadId) (f : Mat → Mat) : (s.modMat q f).runs = s.runs := rfl
@[simp] theorem State.modMat_forwards (q : QuadId) (f : Mat → Mat) : (s.modMat q f).forwards = s.forwards := rfl
@[simp] theorem State.modMat_heldWrites (q : QuadId) (f : Mat → Mat) : (s.modMat q f).heldWrites = s.heldWrites := rfl
@[simp] theorem State.modMat_answers (q : QuadId) (f : Mat → Mat) : (s.modMat q f).answers = s.answers := rfl
@[simp] theorem State.modMat_nextId (q : QuadId) (f : Mat → Mat) : (s.modMat q f).nextId = s.nextId := rfl
@[simp] theorem State.modMat_saved (q : QuadId) (f : Mat → Mat) : (s.modMat q f).saved = s.saved := rfl
@[simp] theorem State.modMat_cycle (q : QuadId) (f : Mat → Mat) : (s.modMat q f).cycle = s.cycle := rfl
@[simp] theorem State.modMat_focus (q : QuadId) (f : Mat → Mat) : (s.modMat q f).focus = s.focus := rfl
@[simp] theorem State.modMat_tick (q : QuadId) (f : Mat → Mat) : (s.modMat q f).tick = s.tick := rfl
@[simp] theorem State.modMat_glitch (q : QuadId) (f : Mat → Mat) : (s.modMat q f).glitch = s.glitch := rfl

/-! ## State.modPch -/

@[simp] theorem State.modPch_threads (p : Nat) (f : Pch → Pch) : (s.modPch p f).threads = s.threads := rfl
@[simp] theorem State.modPch_hands (p : Nat) (f : Pch → Pch) : (s.modPch p f).hands = s.hands := rfl
@[simp] theorem State.modPch_teams (p : Nat) (f : Pch → Pch) : (s.modPch p f).teams = s.teams := rfl
@[simp] theorem State.modPch_groups (p : Nat) (f : Pch → Pch) : (s.modPch p f).groups = s.groups := rfl
@[simp] theorem State.modPch_fills (p : Nat) (f : Pch → Pch) : (s.modPch p f).fills = s.fills := rfl
@[simp] theorem State.modPch_cores (p : Nat) (f : Pch → Pch) : (s.modPch p f).cores = s.cores := rfl
@[simp] theorem State.modPch_holds (p : Nat) (f : Pch → Pch) : (s.modPch p f).holds = s.holds := rfl
@[simp] theorem State.modPch_current (p : Nat) (f : Pch → Pch) : (s.modPch p f).current = s.current := rfl
@[simp] theorem State.modPch_issue (p : Nat) (f : Pch → Pch) : (s.modPch p f).issue = s.issue := rfl
@[simp] theorem State.modPch_quadOwner (p : Nat) (f : Pch → Pch) : (s.modPch p f).quadOwner = s.quadOwner := rfl
@[simp] theorem State.modPch_queues (p : Nat) (f : Pch → Pch) : (s.modPch p f).queues = s.queues := rfl
@[simp] theorem State.modPch_trees (p : Nat) (f : Pch → Pch) : (s.modPch p f).trees = s.trees := rfl
@[simp] theorem State.modPch_dispatchers (p : Nat) (f : Pch → Pch) : (s.modPch p f).dispatchers = s.dispatchers := rfl
@[simp] theorem State.modPch_funcs (p : Nat) (f : Pch → Pch) : (s.modPch p f).funcs = s.funcs := rfl
@[simp] theorem State.modPch_keySlots (p : Nat) (f : Pch → Pch) : (s.modPch p f).keySlots = s.keySlots := rfl
@[simp] theorem State.modPch_faults (p : Nat) (f : Pch → Pch) : (s.modPch p f).faults = s.faults := rfl
@[simp] theorem State.modPch_mem (p : Nat) (f : Pch → Pch) : (s.modPch p f).mem = s.mem := rfl
@[simp] theorem State.modPch_fab (p : Nat) (f : Pch → Pch) : (s.modPch p f).fab = s.fab := rfl
@[simp] theorem State.modPch_folds (p : Nat) (f : Pch → Pch) : (s.modPch p f).folds = s.folds := rfl
@[simp] theorem State.modPch_ranks (p : Nat) (f : Pch → Pch) : (s.modPch p f).ranks = s.ranks := rfl
@[simp] theorem State.modPch_collSlots (p : Nat) (f : Pch → Pch) : (s.modPch p f).collSlots = s.collSlots := rfl
@[simp] theorem State.modPch_health (p : Nat) (f : Pch → Pch) : (s.modPch p f).health = s.health := rfl
@[simp] theorem State.modPch_chans (p : Nat) (f : Pch → Pch) : (s.modPch p f).chans = s.chans := rfl
@[simp] theorem State.modPch_mats (p : Nat) (f : Pch → Pch) : (s.modPch p f).mats = s.mats := rfl
@[simp] theorem State.modPch_bags (p : Nat) (f : Pch → Pch) : (s.modPch p f).bags = s.bags := rfl
@[simp] theorem State.modPch_freeBags (p : Nat) (f : Pch → Pch) : (s.modPch p f).freeBags = s.freeBags := rfl
@[simp] theorem State.modPch_bagReqs (p : Nat) (f : Pch → Pch) : (s.modPch p f).bagReqs = s.bagReqs := rfl
@[simp] theorem State.modPch_pchs (p : Nat) (f : Pch → Pch) : (s.modPch p f).pchs = aset p (f (s.pch p)) s.pchs := rfl
@[simp] theorem State.modPch_cmPassed (p : Nat) (f : Pch → Pch) : (s.modPch p f).cmPassed = s.cmPassed := rfl
@[simp] theorem State.modPch_runs (p : Nat) (f : Pch → Pch) : (s.modPch p f).runs = s.runs := rfl
@[simp] theorem State.modPch_forwards (p : Nat) (f : Pch → Pch) : (s.modPch p f).forwards = s.forwards := rfl
@[simp] theorem State.modPch_heldWrites (p : Nat) (f : Pch → Pch) : (s.modPch p f).heldWrites = s.heldWrites := rfl
@[simp] theorem State.modPch_answers (p : Nat) (f : Pch → Pch) : (s.modPch p f).answers = s.answers := rfl
@[simp] theorem State.modPch_nextId (p : Nat) (f : Pch → Pch) : (s.modPch p f).nextId = s.nextId := rfl
@[simp] theorem State.modPch_saved (p : Nat) (f : Pch → Pch) : (s.modPch p f).saved = s.saved := rfl
@[simp] theorem State.modPch_cycle (p : Nat) (f : Pch → Pch) : (s.modPch p f).cycle = s.cycle := rfl
@[simp] theorem State.modPch_focus (p : Nat) (f : Pch → Pch) : (s.modPch p f).focus = s.focus := rfl
@[simp] theorem State.modPch_tick (p : Nat) (f : Pch → Pch) : (s.modPch p f).tick = s.tick := rfl
@[simp] theorem State.modPch_glitch (p : Nat) (f : Pch → Pch) : (s.modPch p f).glitch = s.glitch := rfl

/-! ## State.modRun -/

@[simp] theorem State.modRun_threads (r : Nat) (f : NbRun → NbRun) : (s.modRun r f).threads = s.threads := rfl
@[simp] theorem State.modRun_hands (r : Nat) (f : NbRun → NbRun) : (s.modRun r f).hands = s.hands := rfl
@[simp] theorem State.modRun_teams (r : Nat) (f : NbRun → NbRun) : (s.modRun r f).teams = s.teams := rfl
@[simp] theorem State.modRun_groups (r : Nat) (f : NbRun → NbRun) : (s.modRun r f).groups = s.groups := rfl
@[simp] theorem State.modRun_fills (r : Nat) (f : NbRun → NbRun) : (s.modRun r f).fills = s.fills := rfl
@[simp] theorem State.modRun_cores (r : Nat) (f : NbRun → NbRun) : (s.modRun r f).cores = s.cores := rfl
@[simp] theorem State.modRun_holds (r : Nat) (f : NbRun → NbRun) : (s.modRun r f).holds = s.holds := rfl
@[simp] theorem State.modRun_current (r : Nat) (f : NbRun → NbRun) : (s.modRun r f).current = s.current := rfl
@[simp] theorem State.modRun_issue (r : Nat) (f : NbRun → NbRun) : (s.modRun r f).issue = s.issue := rfl
@[simp] theorem State.modRun_quadOwner (r : Nat) (f : NbRun → NbRun) : (s.modRun r f).quadOwner = s.quadOwner := rfl
@[simp] theorem State.modRun_queues (r : Nat) (f : NbRun → NbRun) : (s.modRun r f).queues = s.queues := rfl
@[simp] theorem State.modRun_trees (r : Nat) (f : NbRun → NbRun) : (s.modRun r f).trees = s.trees := rfl
@[simp] theorem State.modRun_dispatchers (r : Nat) (f : NbRun → NbRun) : (s.modRun r f).dispatchers = s.dispatchers := rfl
@[simp] theorem State.modRun_funcs (r : Nat) (f : NbRun → NbRun) : (s.modRun r f).funcs = s.funcs := rfl
@[simp] theorem State.modRun_keySlots (r : Nat) (f : NbRun → NbRun) : (s.modRun r f).keySlots = s.keySlots := rfl
@[simp] theorem State.modRun_faults (r : Nat) (f : NbRun → NbRun) : (s.modRun r f).faults = s.faults := rfl
@[simp] theorem State.modRun_mem (r : Nat) (f : NbRun → NbRun) : (s.modRun r f).mem = s.mem := rfl
@[simp] theorem State.modRun_fab (r : Nat) (f : NbRun → NbRun) : (s.modRun r f).fab = s.fab := rfl
@[simp] theorem State.modRun_folds (r : Nat) (f : NbRun → NbRun) : (s.modRun r f).folds = s.folds := rfl
@[simp] theorem State.modRun_ranks (r : Nat) (f : NbRun → NbRun) : (s.modRun r f).ranks = s.ranks := rfl
@[simp] theorem State.modRun_collSlots (r : Nat) (f : NbRun → NbRun) : (s.modRun r f).collSlots = s.collSlots := rfl
@[simp] theorem State.modRun_health (r : Nat) (f : NbRun → NbRun) : (s.modRun r f).health = s.health := rfl
@[simp] theorem State.modRun_chans (r : Nat) (f : NbRun → NbRun) : (s.modRun r f).chans = s.chans := rfl
@[simp] theorem State.modRun_mats (r : Nat) (f : NbRun → NbRun) : (s.modRun r f).mats = s.mats := rfl
@[simp] theorem State.modRun_bags (r : Nat) (f : NbRun → NbRun) : (s.modRun r f).bags = s.bags := rfl
@[simp] theorem State.modRun_freeBags (r : Nat) (f : NbRun → NbRun) : (s.modRun r f).freeBags = s.freeBags := rfl
@[simp] theorem State.modRun_bagReqs (r : Nat) (f : NbRun → NbRun) : (s.modRun r f).bagReqs = s.bagReqs := rfl
@[simp] theorem State.modRun_pchs (r : Nat) (f : NbRun → NbRun) : (s.modRun r f).pchs = s.pchs := rfl
@[simp] theorem State.modRun_cmPassed (r : Nat) (f : NbRun → NbRun) : (s.modRun r f).cmPassed = s.cmPassed := rfl
@[simp] theorem State.modRun_runs (r : Nat) (f : NbRun → NbRun) : (s.modRun r f).runs = amod r f s.runs := rfl
@[simp] theorem State.modRun_forwards (r : Nat) (f : NbRun → NbRun) : (s.modRun r f).forwards = s.forwards := rfl
@[simp] theorem State.modRun_heldWrites (r : Nat) (f : NbRun → NbRun) : (s.modRun r f).heldWrites = s.heldWrites := rfl
@[simp] theorem State.modRun_answers (r : Nat) (f : NbRun → NbRun) : (s.modRun r f).answers = s.answers := rfl
@[simp] theorem State.modRun_nextId (r : Nat) (f : NbRun → NbRun) : (s.modRun r f).nextId = s.nextId := rfl
@[simp] theorem State.modRun_saved (r : Nat) (f : NbRun → NbRun) : (s.modRun r f).saved = s.saved := rfl
@[simp] theorem State.modRun_cycle (r : Nat) (f : NbRun → NbRun) : (s.modRun r f).cycle = s.cycle := rfl
@[simp] theorem State.modRun_focus (r : Nat) (f : NbRun → NbRun) : (s.modRun r f).focus = s.focus := rfl
@[simp] theorem State.modRun_tick (r : Nat) (f : NbRun → NbRun) : (s.modRun r f).tick = s.tick := rfl
@[simp] theorem State.modRun_glitch (r : Nat) (f : NbRun → NbRun) : (s.modRun r f).glitch = s.glitch := rfl

/-! ## State.modBag -/

@[simp] theorem State.modBag_threads (b : BagId) (f : Bag → Bag) : (s.modBag b f).threads = s.threads := rfl
@[simp] theorem State.modBag_hands (b : BagId) (f : Bag → Bag) : (s.modBag b f).hands = s.hands := rfl
@[simp] theorem State.modBag_teams (b : BagId) (f : Bag → Bag) : (s.modBag b f).teams = s.teams := rfl
@[simp] theorem State.modBag_groups (b : BagId) (f : Bag → Bag) : (s.modBag b f).groups = s.groups := rfl
@[simp] theorem State.modBag_fills (b : BagId) (f : Bag → Bag) : (s.modBag b f).fills = s.fills := rfl
@[simp] theorem State.modBag_cores (b : BagId) (f : Bag → Bag) : (s.modBag b f).cores = s.cores := rfl
@[simp] theorem State.modBag_holds (b : BagId) (f : Bag → Bag) : (s.modBag b f).holds = s.holds := rfl
@[simp] theorem State.modBag_current (b : BagId) (f : Bag → Bag) : (s.modBag b f).current = s.current := rfl
@[simp] theorem State.modBag_issue (b : BagId) (f : Bag → Bag) : (s.modBag b f).issue = s.issue := rfl
@[simp] theorem State.modBag_quadOwner (b : BagId) (f : Bag → Bag) : (s.modBag b f).quadOwner = s.quadOwner := rfl
@[simp] theorem State.modBag_queues (b : BagId) (f : Bag → Bag) : (s.modBag b f).queues = s.queues := rfl
@[simp] theorem State.modBag_trees (b : BagId) (f : Bag → Bag) : (s.modBag b f).trees = s.trees := rfl
@[simp] theorem State.modBag_dispatchers (b : BagId) (f : Bag → Bag) : (s.modBag b f).dispatchers = s.dispatchers := rfl
@[simp] theorem State.modBag_funcs (b : BagId) (f : Bag → Bag) : (s.modBag b f).funcs = s.funcs := rfl
@[simp] theorem State.modBag_keySlots (b : BagId) (f : Bag → Bag) : (s.modBag b f).keySlots = s.keySlots := rfl
@[simp] theorem State.modBag_faults (b : BagId) (f : Bag → Bag) : (s.modBag b f).faults = s.faults := rfl
@[simp] theorem State.modBag_mem (b : BagId) (f : Bag → Bag) : (s.modBag b f).mem = s.mem := rfl
@[simp] theorem State.modBag_fab (b : BagId) (f : Bag → Bag) : (s.modBag b f).fab = s.fab := rfl
@[simp] theorem State.modBag_folds (b : BagId) (f : Bag → Bag) : (s.modBag b f).folds = s.folds := rfl
@[simp] theorem State.modBag_ranks (b : BagId) (f : Bag → Bag) : (s.modBag b f).ranks = s.ranks := rfl
@[simp] theorem State.modBag_collSlots (b : BagId) (f : Bag → Bag) : (s.modBag b f).collSlots = s.collSlots := rfl
@[simp] theorem State.modBag_health (b : BagId) (f : Bag → Bag) : (s.modBag b f).health = s.health := rfl
@[simp] theorem State.modBag_chans (b : BagId) (f : Bag → Bag) : (s.modBag b f).chans = s.chans := rfl
@[simp] theorem State.modBag_mats (b : BagId) (f : Bag → Bag) : (s.modBag b f).mats = s.mats := rfl
@[simp] theorem State.modBag_bags (b : BagId) (f : Bag → Bag) : (s.modBag b f).bags = amod b f s.bags := rfl
@[simp] theorem State.modBag_freeBags (b : BagId) (f : Bag → Bag) : (s.modBag b f).freeBags = s.freeBags := rfl
@[simp] theorem State.modBag_bagReqs (b : BagId) (f : Bag → Bag) : (s.modBag b f).bagReqs = s.bagReqs := rfl
@[simp] theorem State.modBag_pchs (b : BagId) (f : Bag → Bag) : (s.modBag b f).pchs = s.pchs := rfl
@[simp] theorem State.modBag_cmPassed (b : BagId) (f : Bag → Bag) : (s.modBag b f).cmPassed = s.cmPassed := rfl
@[simp] theorem State.modBag_runs (b : BagId) (f : Bag → Bag) : (s.modBag b f).runs = s.runs := rfl
@[simp] theorem State.modBag_forwards (b : BagId) (f : Bag → Bag) : (s.modBag b f).forwards = s.forwards := rfl
@[simp] theorem State.modBag_heldWrites (b : BagId) (f : Bag → Bag) : (s.modBag b f).heldWrites = s.heldWrites := rfl
@[simp] theorem State.modBag_answers (b : BagId) (f : Bag → Bag) : (s.modBag b f).answers = s.answers := rfl
@[simp] theorem State.modBag_nextId (b : BagId) (f : Bag → Bag) : (s.modBag b f).nextId = s.nextId := rfl
@[simp] theorem State.modBag_saved (b : BagId) (f : Bag → Bag) : (s.modBag b f).saved = s.saved := rfl
@[simp] theorem State.modBag_cycle (b : BagId) (f : Bag → Bag) : (s.modBag b f).cycle = s.cycle := rfl
@[simp] theorem State.modBag_focus (b : BagId) (f : Bag → Bag) : (s.modBag b f).focus = s.focus := rfl
@[simp] theorem State.modBag_tick (b : BagId) (f : Bag → Bag) : (s.modBag b f).tick = s.tick := rfl
@[simp] theorem State.modBag_glitch (b : BagId) (f : Bag → Bag) : (s.modBag b f).glitch = s.glitch := rfl

/-! ## State.setMem -/

@[simp] theorem State.setMem_threads (m : Memory) : (s.setMem m).threads = s.threads := rfl
@[simp] theorem State.setMem_hands (m : Memory) : (s.setMem m).hands = s.hands := rfl
@[simp] theorem State.setMem_teams (m : Memory) : (s.setMem m).teams = s.teams := rfl
@[simp] theorem State.setMem_groups (m : Memory) : (s.setMem m).groups = s.groups := rfl
@[simp] theorem State.setMem_fills (m : Memory) : (s.setMem m).fills = s.fills := rfl
@[simp] theorem State.setMem_cores (m : Memory) : (s.setMem m).cores = s.cores := rfl
@[simp] theorem State.setMem_holds (m : Memory) : (s.setMem m).holds = s.holds := rfl
@[simp] theorem State.setMem_current (m : Memory) : (s.setMem m).current = s.current := rfl
@[simp] theorem State.setMem_issue (m : Memory) : (s.setMem m).issue = s.issue := rfl
@[simp] theorem State.setMem_quadOwner (m : Memory) : (s.setMem m).quadOwner = s.quadOwner := rfl
@[simp] theorem State.setMem_queues (m : Memory) : (s.setMem m).queues = s.queues := rfl
@[simp] theorem State.setMem_trees (m : Memory) : (s.setMem m).trees = s.trees := rfl
@[simp] theorem State.setMem_dispatchers (m : Memory) : (s.setMem m).dispatchers = s.dispatchers := rfl
@[simp] theorem State.setMem_funcs (m : Memory) : (s.setMem m).funcs = s.funcs := rfl
@[simp] theorem State.setMem_keySlots (m : Memory) : (s.setMem m).keySlots = s.keySlots := rfl
@[simp] theorem State.setMem_faults (m : Memory) : (s.setMem m).faults = s.faults := rfl
@[simp] theorem State.setMem_mem (m : Memory) : (s.setMem m).mem = m := rfl
@[simp] theorem State.setMem_fab (m : Memory) : (s.setMem m).fab = s.fab := rfl
@[simp] theorem State.setMem_folds (m : Memory) : (s.setMem m).folds = s.folds := rfl
@[simp] theorem State.setMem_ranks (m : Memory) : (s.setMem m).ranks = s.ranks := rfl
@[simp] theorem State.setMem_collSlots (m : Memory) : (s.setMem m).collSlots = s.collSlots := rfl
@[simp] theorem State.setMem_health (m : Memory) : (s.setMem m).health = s.health := rfl
@[simp] theorem State.setMem_chans (m : Memory) : (s.setMem m).chans = s.chans := rfl
@[simp] theorem State.setMem_mats (m : Memory) : (s.setMem m).mats = s.mats := rfl
@[simp] theorem State.setMem_bags (m : Memory) : (s.setMem m).bags = s.bags := rfl
@[simp] theorem State.setMem_freeBags (m : Memory) : (s.setMem m).freeBags = s.freeBags := rfl
@[simp] theorem State.setMem_bagReqs (m : Memory) : (s.setMem m).bagReqs = s.bagReqs := rfl
@[simp] theorem State.setMem_pchs (m : Memory) : (s.setMem m).pchs = s.pchs := rfl
@[simp] theorem State.setMem_cmPassed (m : Memory) : (s.setMem m).cmPassed = s.cmPassed := rfl
@[simp] theorem State.setMem_runs (m : Memory) : (s.setMem m).runs = s.runs := rfl
@[simp] theorem State.setMem_forwards (m : Memory) : (s.setMem m).forwards = s.forwards := rfl
@[simp] theorem State.setMem_heldWrites (m : Memory) : (s.setMem m).heldWrites = s.heldWrites := rfl
@[simp] theorem State.setMem_answers (m : Memory) : (s.setMem m).answers = s.answers := rfl
@[simp] theorem State.setMem_nextId (m : Memory) : (s.setMem m).nextId = s.nextId := rfl
@[simp] theorem State.setMem_saved (m : Memory) : (s.setMem m).saved = s.saved := rfl
@[simp] theorem State.setMem_cycle (m : Memory) : (s.setMem m).cycle = s.cycle := rfl
@[simp] theorem State.setMem_focus (m : Memory) : (s.setMem m).focus = s.focus := rfl
@[simp] theorem State.setMem_tick (m : Memory) : (s.setMem m).tick = s.tick := rfl
@[simp] theorem State.setMem_glitch (m : Memory) : (s.setMem m).glitch = s.glitch := rfl

end Sys2Proof.Machine
end

