-- ==== Sys2Proof/Laws/Ops.lean ====
section
/-! SUPPORT. What the shared operations do: registers and predicates, faults and the return from them, and that every
operation keeps the memories in canonical form. -/

namespace Sys2Proof.Machine

/-! ## Registers and predicates (03 R40, R50; 05 R87) -/

@[simp] theorem readReg_zero (t : Thread) (pair : Bool) : readReg t 0#8 pair = 0#64 := by simp [readReg]
@[simp] theorem writeReg_zero (t : Thread) (pair : Bool) (v : Dword) : writeReg t 0#8 pair v = t := by simp [writeReg]
@[simp] theorem isFull_zero (t : Thread) (pair : Bool) : isFull t 0#8 pair = true := by simp [isFull]
@[simp] theorem readPred_zero (t : Thread) : readPred t 0#3 = true := by simp [readPred]
@[simp] theorem writePred_zero (t : Thread) (b : Bool) : writePred t 0#3 b = t := by simp [writePred]

/-- A write of a 32-bit register reads back, zero-extended. -/
theorem readReg_writeReg_self {t : Thread} {r : BitVec 8} (v : Dword) (h0 : r ≠ 0#8) (h : r.toNat < t.regs.length) :
    readReg (writeReg t r false v) r false = (v.extractLsb' 0 32).setWidth 64 := by
  simp [readReg, writeReg, h0, List.getD_eq_getElem?_getD, h]

/-- A write of a 32-bit register leaves every other register alone. -/
theorem readReg_writeReg_ne {t : Thread} {r q : BitVec 8} (v : Dword) (h : q ≠ r) :
    readReg (writeReg t r false v) q false = readReg t q false := by
  have hn : r.toNat ≠ q.toNat := fun e => h (BitVec.eq_of_toNat_eq e.symm)
  by_cases h0 : r = 0#8
  · subst h0; simp
  · by_cases hq : q = 0#8
    · subst hq; simp
    · simp [readReg, writeReg, h0, hq, List.getD_eq_getElem?_getD, hn]

/-- A write of a pair reads back. -/
theorem readReg_writeReg_pair {t : Thread} {r : BitVec 8} (v : Dword) (h0 : r ≠ 0#8) (h : r.toNat + 1 < t.regs.length) :
    readReg (writeReg t r true v) r true = v := by
  have h1 : r.toNat < t.regs.length := by omega
  have key : (((t.regs.set r.toNat (v.extractLsb' 0 32)).set (r.toNat + 1) (v.extractLsb' 32 32)).getD (r.toNat + 1) 0#32) ++
      (((t.regs.set r.toNat (v.extractLsb' 0 32)).set (r.toNat + 1) (v.extractLsb' 32 32)).getD r.toNat 0#32) = v := by
    rw [List.getD_eq_getElem?_getD, List.getD_eq_getElem?_getD, List.getElem?_set_self (by simpa using h),
      List.getElem?_set_ne (by omega), List.getElem?_set_self h1]
    simp only [Option.getD_some]
    apply BitVec.eq_of_getLsbD_eq
    intro i hi
    simp only [BitVec.getLsbD_append, BitVec.getLsbD_extractLsb']
    by_cases h32 : i < 32
    · simp [h32]
    · have e : 32 + (i - 32) = i := by omega
      have l : i - 32 < 32 := by omega
      simp [h32, e, l]
  simpa [readReg, writeReg, h0] using key

/-- A predicate that has been written reads back. -/
theorem readPred_writePred_self (t : Thread) {p : BitVec 3} (b : Bool) (h : p ≠ 0#3) : readPred (writePred t p b) p = b := by
  have hp : p.toNat < 8 := p.isLt
  cases b <;> simp [readPred, writePred, h, hp]

/-- A write of a predicate leaves every other predicate alone. -/
theorem readPred_writePred_ne (t : Thread) {p q : BitVec 3} (b : Bool) (h : q ≠ p) :
    readPred (writePred t p b) q = readPred t q := by
  have hn : p.toNat ≠ q.toNat := fun e => h (BitVec.eq_of_toNat_eq e.symm)
  by_cases h0 : p = 0#3
  · subst h0; simp
  · have hq : q.toNat < 8 := q.isLt
    cases b <;> simp [readPred, writePred, h0, hn.symm, hq]

@[simp] theorem writeReg_pc (t : Thread) (r : BitVec 8) (p : Bool) (v : Dword) : (writeReg t r p v).pc = t.pc := by
  unfold writeReg; split
  · rfl
  · split <;> rfl

@[simp] theorem writeReg_preds (t : Thread) (r : BitVec 8) (p : Bool) (v : Dword) : (writeReg t r p v).preds = t.preds := by
  unfold writeReg; split
  · rfl
  · split <;> rfl

@[simp] theorem writeReg_full (t : Thread) (r : BitVec 8) (p : Bool) (v : Dword) : (writeReg t r p v).full = t.full := by
  unfold writeReg; split
  · rfl
  · split <;> rfl

@[simp] theorem writeReg_length (t : Thread) (r : BitVec 8) (p : Bool) (v : Dword) :
    (writeReg t r p v).regs.length = t.regs.length := by
  unfold writeReg; split
  · rfl
  · split <;> simp

@[simp] theorem writePred_regs (t : Thread) (p : BitVec 3) (b : Bool) : (writePred t p b).regs = t.regs := by
  unfold writePred; split <;> rfl

@[simp] theorem writePred_pc (t : Thread) (p : BitVec 3) (b : Bool) : (writePred t p b).pc = t.pc := by
  unfold writePred; split <;> rfl

/-! ## What leaves the memories alone -/

/-- A fold of steps that each leave the memories alone leaves them alone. -/
theorem foldl_mem {α : Type} {f : State → α → State} (h : ∀ s a, (f s a).mem = s.mem) :
    ∀ (l : List α) (s : State), (l.foldl f s).mem = s.mem
  | [], _ => rfl
  | a :: l, s => (foldl_mem h l (f s a)).trans (h s a)

/-- A fold of steps that each keep the memories in canonical form keeps them so. -/
theorem foldl_memOk {α : Type} {f : State → α → State} (h : ∀ s a, s.memOk → (f s a).memOk) :
    ∀ (l : List α) {s : State}, s.memOk → (l.foldl f s).memOk
  | [], _, hs => hs
  | a :: l, s, hs => foldl_memOk h l (h s a hs)

@[simp] theorem sendFault_mem (s : State) (r : FaultRec) : (sendFault s r).mem = s.mem := by unfold sendFault; split <;> rfl

@[simp] theorem withdraw_mem (s : State) (k : ThreadKey) : (withdraw s k).mem = s.mem := by
  unfold withdraw; repeat' split
  all_goals rfl

@[simp] theorem stopThread_mem (s : State) (k : ThreadKey) (r : FaultRec) : (stopThread s k r).mem = s.mem := by
  simp [stopThread]
@[simp] theorem takeFault_mem (s : State) (k : ThreadKey) (f : FaultInfo) : (takeFault s k f).mem = s.mem := by
  simp [takeFault]

@[simp] theorem noteFault_mem (s : State) (k : ThreadKey) (a : Dword) (f : FaultInfo) : (noteFault s k a f).mem = s.mem :=
  sendFault_mem _ _

@[simp] theorem waitDealer_mem (s : State) (k : ThreadKey) (f : FaultInfo) (p : Nat) (r : Run) :
    (waitDealer s k f p r).mem = s.mem := by simp [waitDealer]

@[simp] theorem wakeLanes_mem (s : State) (h : HandKey) (ls : List Nat) : (wakeLanes s h ls).mem = s.mem := by
  simp only [wakeLanes, State.modHand_mem]
  exact foldl_mem (f := fun (s : State) l => s.modThread (threadOf h l) fun t => { t with run := .ready }) (fun _ _ => rfl) ls s

@[simp] theorem resumeThread_mem (s : State) (k : ThreadKey) (n : Bool) : (resumeThread s k n).mem = s.mem := by
  unfold resumeThread
  split
  · split
    · cases n <;> simp
    · rfl
  · rfl

/-- The issue of a bundle counts at issue units alone. -/
theorem chargeIssue_rest (s : State) (h : HandKey) (m : BitVec 64) :
    chargeIssue s h m = { s with issue := (chargeIssue s h m).issue } := by
  unfold chargeIssue; split <;> rfl

/-- The issue of a bundle counts at no other quadrant's unit. -/
theorem chargeIssue_issue {s : State} {h : HandKey} {m : BitVec 64} {q : QuadId}
    (hq : ∀ hd, aget h s.hands = some hd → q ≠ ⟨h.team.die, h.team.core, hd.quad⟩) :
    aget q (chargeIssue s h m).issue = aget q s.issue := by
  unfold chargeIssue
  split
  · rename_i hd tm eh et
    simp [hq hd eh]
  · rfl

/-- The end of an issue changes hands and issue units alone, and nothing is in focus any more. -/
theorem finishIssue_rest (s : State) (h : HandKey) (m : BitVec 64) :
    finishIssue s h m = { s with hands := (finishIssue s h m).hands, issue := (finishIssue s h m).issue, focus := .none } := by
  unfold finishIssue splitBundle
  split
  · conv_lhs => rw [chargeIssue_rest]
    conv_rhs => rw [chargeIssue_rest]
    rfl
  · rfl

@[simp] theorem finishIssue_threads (s : State) (h : HandKey) (m : BitVec 64) : (finishIssue s h m).threads = s.threads := by
  rw [finishIssue_rest]
@[simp] theorem finishIssue_focus (s : State) (h : HandKey) (m : BitVec 64) : (finishIssue s h m).focus = .none := rfl
@[simp] theorem finishIssue_mem (s : State) (h : HandKey) (l : BitVec 64) : (finishIssue s h l).mem = s.mem := by
  rw [finishIssue_rest]

/-- The end of a hand's issue leaves every other hand alone. -/
theorem finishIssue_hands {s : State} {h k : HandKey} (m : BitVec 64) (hk : k ≠ h) :
    aget k (finishIssue s h m).hands = aget k s.hands := by
  unfold finishIssue splitBundle
  split
  · conv_lhs => rw [chargeIssue_rest]
    simp [hk]
  · simp [hk]

/-- The end of a hand's issue changes that hand's bundles and JTAB groups. -/
theorem finishIssue_hand {s : State} {h : HandKey} {hd : Hand} (m : BitVec 64) (e : aget h s.hands = some hd) :
    ∃ bs sv, aget h (finishIssue s h m).hands = some { hd with bundles := bs, serve := sv } := by
  unfold finishIssue splitBundle
  split
  · conv => enter [1, _, 1, _, 1]; rw [chargeIssue_rest]
    simp [e]
  · simp [e]

/-- The end of an issue counts at no other quadrant's unit. -/
theorem finishIssue_issue {s : State} {h : HandKey} {q : QuadId} (m : BitVec 64)
    (hq : ∀ hd, aget h s.hands = some hd → q ≠ ⟨h.team.die, h.team.core, hd.quad⟩) :
    aget q (finishIssue s h m).issue = aget q s.issue := by
  unfold finishIssue splitBundle
  split
  · exact chargeIssue_issue hq
  · rfl

@[simp] theorem countLine_mem (s : State) (fn va : Nat) (w : Bool) : (countLine s fn va w).mem = s.mem := by
  unfold countLine
  repeat' split
  all_goals rfl

@[simp] theorem countServed_mem (s : State) (p : Nat) (k : Bool × Nat × Nat) : (countServed s p k).mem = s.mem := rfl

@[simp] theorem countXl_mem (s : State) (fn va : Nat) (x : Xl) (w first : Bool) : (countXl s fn va x w first).mem = s.mem := by
  unfold countXl
  rw [countLine_mem]
  repeat' split
  all_goals rfl

/-! ## What keeps the memories in canonical form -/

/-- The canonical form of all five memories at once. -/
theorem State.memOk_iff (s : State) : s.memOk ↔ memWf s.mem.sp = true ∧ memWf s.mem.cm = true ∧ memWf s.mem.dram = true ∧
    memWf s.mem.fabric = true ∧ memWf s.mem.host = true := by
  simp only [State.memOk, Memory.wf, Bool.and_eq_true]; tauto

/-- A state with the same memories keeps their form. -/
theorem memOk_of_mem_eq {s t : State} (h : t.mem = s.mem) (hs : s.memOk) : t.memOk := by
  unfold State.memOk at *; rw [h]; exact hs

theorem spWrite_memOk {s : State} (id : TeamId) (t : Team) (a : Nat) (bs : List Byte) (h : s.memOk) :
    (s.spWrite id t a bs).memOk := by
  rw [State.memOk_iff] at *
  exact ⟨memWf_foldl_memSet _ _ _ h.1, h.2⟩

theorem markDirty_memOk {s : State} (fn loc n : Nat) (h : s.memOk) : (markDirty s fn loc n).memOk := by
  simp only [markDirty]
  split
  · refine foldl_memOk (fun s i hs => ?_) _ h
    rw [State.memOk_iff] at *
    exact ⟨hs.1, hs.2.1, memWf_memSet _ _ hs.2.2.1, hs.2.2.2⟩
  · exact h

/-- A line that reads as another text under a key keeps the canonical form. -/
theorem rekeyLine_wf {m : Memory} (key : Option (BitVec 512)) (line : Nat) (h : m.wf = true) :
    (rekeyLine key m line).wf = true := by
  unfold rekeyLine
  repeat' split
  · exact h
  · exact h
  · simp only [Memory.wf, Bool.and_eq_true] at *
    exact ⟨⟨⟨h.1.1.1, memWf_memWrite _ _ h.1.1.2⟩, h.1.2⟩, h.2⟩

theorem rekey_wf {s : State} (dpa n : Nat) (h : s.memOk) : (rekey s dpa n).wf = true := by
  unfold rekey
  generalize dramLines (locOf dpa) n = ls
  have key : ∀ (ls : List Nat) (m : Memory), m.wf = true → (ls.foldl (rekeyLine (keyAt s dpa)) m).wf = true := by
    intro ls
    induction ls with
    | nil => intro m hm; exact hm
    | cons l ls ih => intro m hm; exact ih _ (rekeyLine_wf _ _ hm)
  exact key ls s.mem h

theorem dramWrite_memOk {s : State} (dpa : Nat) (bs : List Byte) (h : s.memOk) : (dramWrite s dpa bs).memOk := by
  have hr := rekey_wf dpa bs.length h
  simp only [Memory.wf, Bool.and_eq_true] at hr
  rw [State.memOk_iff]
  exact ⟨hr.1.1.1.1, hr.1.1.1.2, memWf_memWrite _ _ hr.1.1.2, hr.1.2, hr.2⟩

theorem placeWrite_memOk {s : State} (x : Xl) (bs : List Byte) (h : s.memOk) : (placeWrite s x bs).memOk := by
  cases x with
  | dram d w =>
    refine dramWrite_memOk d bs ?_
    cases w with
    | none => exact h
    | some fn => exact markDirty_memOk fn _ _ h
  | fabric node addr va =>
    rw [State.memOk_iff] at *
    exact ⟨h.1, h.2.1, h.2.2.1, memWf_memWrite _ _ h.2.2.2.1, h.2.2.2.2⟩
  | host addr va =>
    rw [State.memOk_iff] at *
    exact ⟨h.1, h.2.1, h.2.2.1, h.2.2.2.1, memWf_memWrite _ _ h.2.2.2.2⟩
  | dealer _ _ => exact h
  | pulling => exact h
  | held => exact h
  | dup _ => exact h
  | busy _ => exact h
  | noRoute _ => exact h
  | final _ => exact h

/-- An engine's read changes no memory. -/
theorem virtRead_mem {s s' : State} {fn va n : Nat} {acc : Acc} {bs : List Byte}
    (h : virtRead s fn va n acc = .ok (s', bs)) : s'.mem = s.mem := by
  unfold virtRead at h
  generalize pieces 128 (n / 128 + 2) va n = ps at h
  have key : ∀ (ps : List (Nat × Nat)) (r : Except Miss (State × List Byte)),
      (∀ s1 b1, r = .ok (s1, b1) → s1.mem = s.mem) →
      ∀ s1 b1, ps.foldl (fun (r : Except Miss (State × List Byte)) p =>
        match r with
        | .error x => .error x
        | .ok (s, bs) =>
          let x := reach s fn p.1 acc
          if !x.isPlace then .error ⟨p.1, x⟩
          else if placePoisoned s x p.2 then .error ⟨p.1, .final 0x15⟩
          else .ok (countXl s fn p.1 x false (p.1 = va), bs ++ placeRead s x p.2)) r = .ok (s1, b1) → s1.mem = s.mem := by
    intro ps
    induction ps with
    | nil => intro r hr s1 b1 e; exact hr s1 b1 e
    | cons p ps ih =>
      intro r hr s1 b1 e
      refine ih _ ?_ s1 b1 e
      intro s2 b2 e2
      cases r with
      | error x => cases e2
      | ok q =>
        obtain ⟨q1, q2⟩ := q
        simp only at e2
        split at e2
        · cases e2
        · split at e2
          · cases e2
          · cases e2; simpa using hr q1 q2 rfl
  exact key ps _ (fun s1 b1 e => by cases e; rfl) s' bs h

theorem virtWrite_memOk {s s' : State} {fn va : Nat} {bs : List Byte} (h : virtWrite s fn va bs = .ok s') (hs : s.memOk) :
    s'.memOk := by
  unfold virtWrite at h
  simp only at h
  split at h
  · cases h
  · cases h
    exact foldl_memOk (fun s p hs => memOk_of_mem_eq (countXl_mem _ _ _ _ _ _) (placeWrite_memOk _ _ hs)) _ hs

end Sys2Proof.Machine
end

