-- ==== Sys2Proof/Laws/Lanes.lean ====
section
/-! SUPPORT. What performing an instruction lane by lane does: the one lemma that says it of every instruction whose part
in a lane changes that lane's thread alone. -/

namespace Sys2Proof.Machine

/-! ## Changes of threads, lane by lane -/

theorem amod_amod {κ α : Type} [DecidableEq κ] (k : κ) (f g : α → α) : ∀ l : List (κ × α),
    amod k g (amod k f l) = amod k (fun a => g (f a)) l
  | [] => rfl
  | (k', v) :: t => by
    by_cases h : k' = k
    · simp [amod, h]
    · simp [amod, h, amod_amod k f g t]

theorem modThread_modThread (s : State) (k : ThreadKey) (f g : Thread → Thread) :
    (s.modThread k f).modThread k g = s.modThread k fun t => g (f t) := by
  simp [State.modThread, amod_amod]

theorem goOn_eq (s : State) (k : ThreadKey) : goOn s k = s.modThread k Thread.past := rfl

theorem threadOf_inj {h : HandKey} {l m : Nat} (e : threadOf h l = threadOf h m) : l = m := by
  simpa [threadOf] using e

/-- The thread of a lane after changes lane by lane: lanes that are not among them keep theirs. -/
theorem lane_foldl_notMem (h : HandKey) (G : Nat → Thread → Thread) (k : ThreadKey) : ∀ (ls : List Nat) (s : State),
    (∀ l ∈ ls, k ≠ threadOf h l) →
    aget k (ls.foldl (fun s l => s.modThread (threadOf h l) (G l)) s).threads = aget k s.threads
  | [], _, _ => rfl
  | l :: ls, s, hk => by
    rw [List.foldl_cons, lane_foldl_notMem h G k ls _ fun m hm => hk m (List.mem_cons_of_mem _ hm)]
    simp [hk l (List.mem_cons_self ..)]

/-- The thread of a lane after changes lane by lane: each lane's is changed once. -/
theorem lane_foldl_mem (h : HandKey) (G : Nat → Thread → Thread) {l : Nat} : ∀ (ls : List Nat) (s : State),
    ls.Nodup → l ∈ ls →
    (ls.foldl (fun s l => s.modThread (threadOf h l) (G l)) s).lane h l = (s.lane h l).map (G l)
  | [], _, _, hl => absurd hl (List.not_mem_nil)
  | m :: ls, s, hn, hl => by
    rw [List.nodup_cons] at hn
    rw [List.foldl_cons]
    rcases List.mem_cons.mp hl with e | hl'
    · subst e
      rw [State.lane, lane_foldl_notMem h G _ ls _ fun x hx e => hn.1 (by rw [threadOf_inj e]; exact hx)]
      simp [State.lane]
    · rw [lane_foldl_mem h G ls _ hn.2 hl']
      have hne : threadOf h l ≠ threadOf h m := fun e => hn.1 (threadOf_inj e ▸ hl')
      simp [State.lane, hne]

/-- Changes of threads change threads alone. -/
theorem foldl_modThread_rest (h : HandKey) (G : Nat → Thread → Thread) : ∀ (ls : List Nat) (s : State),
    ls.foldl (fun s l => s.modThread (threadOf h l) (G l)) s =
      { s with threads := (ls.foldl (fun s l => s.modThread (threadOf h l) (G l)) s).threads }
  | [], _ => rfl
  | l :: ls, s => by
    rw [List.foldl_cons, foldl_modThread_rest h G ls]
    rfl

/-! ## The end of an issue -/

theorem lanesOf_nodup (m : BitVec 64) (w : Nat) : (lanesOf m w).Nodup := List.Nodup.filter _ List.nodup_range

theorem inFocus_team {s : State} {h : HandKey} {tm : Team} {ls : List Nat} (e : inFocus s = some (h, tm, ls)) :
    aget h.team s.teams = some tm := by
  unfold inFocus at e
  split at e
  · split at e
    · rename_i ht; cases e; exact ht
    · cases e
  · cases e

theorem inFocus_nodup {s : State} {h : HandKey} {tm : Team} {ls : List Nat} (e : inFocus s = some (h, tm, ls)) :
    ls.Nodup := by
  unfold inFocus at e
  split at e
  · split at e
    · cases e; exact lanesOf_nodup _ _
    · cases e
  · cases e

@[simp] theorem endIssue_threads (s : State) (h : HandKey) (ls : List Nat) : (endIssue s h ls).threads = s.threads :=
  finishIssue_threads _ _ _

@[simp] theorem endIssue_lane (s : State) (h k : HandKey) (ls : List Nat) (l : Nat) :
    (endIssue s h ls).lane k l = s.lane k l := by simp [State.lane]

@[simp] theorem endIssue_mem (s : State) (h : HandKey) (ls : List Nat) : (endIssue s h ls).mem = s.mem := finishIssue_mem _ _ _

/-- A state that differs in threads of a hand's lanes alone, once the issue has ended. -/
theorem onlyLanes_of_threads {s : State} {T : List (ThreadKey × Thread)} {h : HandKey} {ls : List Nat}
    (ht : ∀ k, (∀ l ∈ ls, k ≠ threadOf h l) → aget k T = aget k s.threads) :
    OnlyLanes s (endIssue { s with threads := T } h ls) h ls where
  rest := (finishIssue_rest { s with threads := T } h (maskOf ls)).trans (by rw [endIssue_threads]; rfl)
  threads := fun k hk => by rw [endIssue_threads]; exact ht k hk
  hands := fun k hk => finishIssue_hands (s := { s with threads := T }) _ hk
  hand := fun hd e => finishIssue_hand (s := { s with threads := T }) _ e
  issue := fun q hq => finishIssue_issue (s := { s with threads := T }) _ hq

/-- After changes of a bundle's threads and the end of its issue nothing but its lanes has changed. -/
theorem onlyLanes_endIssue (s : State) (h : HandKey) (G : Nat → Thread → Thread) (ls : List Nat) :
    OnlyLanes s (endIssue (ls.foldl (fun s l => s.modThread (threadOf h l) (G l)) s) h ls) h ls :=
  foldl_modThread_rest h G ls s ▸ onlyLanes_of_threads fun k hk => lane_foldl_notMem h G k ls s hk

/-! ## Instructions whose part in a lane changes that lane's thread alone -/

/-- What a lane's thread becomes. -/
def laneStep (s0 : State) (h : HandKey) (w : Nat) (sh : Shape) (perf : List Nat) (f : Nat → Vals → Thread → Thread) (l : Nat) :
    Thread → Thread := fun u =>
  if perf.contains l then
    match readOpnds s0 h w sh l with
    | .ok v => (f l v u).past
    | _ => u
  else u.past

theorem activeLanes_of_not_modified {sh : Shape} {w : Nat} {act ls : List Nat} (hm : sh.modified = false) :
    activeLanes sh w act ls = ls := by
  have key : ∀ (o : Opnd) (l : Nat), o.mod = .none → o.active w act l = true := by
    intro o l ho
    cases o with
    | val v => rfl
    | reg r p m fe => simp only [Opnd.mod] at ho; subst ho; rfl
  simp only [Shape.modified, Bool.or_eq_false_iff, bne_eq_false_iff_eq] at hm
  refine List.filter_eq_self.mpr fun l _ => ?_
  simp [key sh.a l hm.1.1, key sh.b l hm.1.2, key sh.c l hm.2]

/-- In each of the lanes given, with the operands it has in s, a part changes its lane's thread alone, by f, in every state
that differs from s in the threads of other lanes only. -/
def ThreadPart (s : State) (h : HandKey) (w : Nat) (sh : Shape) (perf : List Nat)
    (body : ThreadKey → Vals → State → LaneOut) (f : Nat → Vals → Thread → Thread) : Prop :=
  ∀ l ∈ perf, ∃ v, readOpnds s h w sh l = .ok v ∧
    ∀ s', s' = { s with threads := s'.threads } → s'.lane h l = s.lane h l →
      body (threadOf h l) v s' = .done (s'.modThread (threadOf h l) (f l v))

/-- One lane's part. -/
theorem runLane_part {h : HandKey} {w : Nat} {sh : Shape} {s0 : State} {perf : List Nat}
    {body : ThreadKey → Vals → State → LaneOut} {f : Nat → Vals → Thread → Thread}
    (hb : ThreadPart s0 h w sh perf body f) {s : State} (hs : s = { s0 with threads := s.threads }) {l : Nat}
    (hl : s.lane h l = s0.lane h l) :
    runLane h w sh s0 perf body s l = s.modThread (threadOf h l) (laneStep s0 h w sh perf f l) := by
  by_cases hp : perf.contains l
  · obtain ⟨v, hv, hd⟩ := hb l (List.contains_iff_mem.mp hp)
    simp only [runLane, hp, if_true, hv, hd s hs hl, applyOut, goOn_eq, modThread_modThread]
    congr 1
    funext u
    simp only [laneStep, hp, if_true, hv]
  · simp only [runLane, hp, Bool.false_eq_true, if_false, goOn_eq]
    congr 1
    funext u
    simp only [laneStep, hp, Bool.false_eq_true, if_false]

/-- A change of one lane's thread leaves the others'. -/
theorem lane_modThread_ne {s : State} {h : HandKey} {l m : Nat} (f : Thread → Thread) (hne : m ≠ l) :
    (s.modThread (threadOf h l) f).lane h m = s.lane h m := by
  have : threadOf h m ≠ threadOf h l := fun e => hne (threadOf_inj e)
  simp [State.lane, this]

/-- The parts of a bundle's lanes. -/
theorem foldl_runLane_part {h : HandKey} {w : Nat} {sh : Shape} {s0 : State} {perf : List Nat}
    {body : ThreadKey → Vals → State → LaneOut} {f : Nat → Vals → Thread → Thread}
    (hb : ThreadPart s0 h w sh perf body f) : ∀ (ls : List Nat) {s : State}, ls.Nodup →
    s = { s0 with threads := s.threads } → (∀ l ∈ ls, s.lane h l = s0.lane h l) →
    ls.foldl (runLane h w sh s0 perf body) s =
      ls.foldl (fun s l => s.modThread (threadOf h l) (laneStep s0 h w sh perf f l)) s
  | [], _, _, _, _ => rfl
  | l :: ls, s, hn, hs, hl => by
    rw [List.nodup_cons] at hn
    rw [List.foldl_cons, List.foldl_cons, runLane_part hb hs (hl l (List.mem_cons_self ..))]
    refine foldl_runLane_part hb ls hn.2 (by rw [hs]; rfl) fun m hm => ?_
    rw [lane_modThread_ne (m := m) _ (fun e => hn.1 (by subst e; exact hm)), hl m (List.mem_cons_of_mem _ hm)]

/-- What the lanes of a bundle get, once its issue has ended. -/
theorem lanesGet_foldl {s : State} {sh : Shape} {h : HandKey} {tm : Team} {ls : List Nat}
    {body : ThreadKey → Vals → State → LaneOut} {f : Nat → Vals → Thread → Thread}
    (hb : ThreadPart s h tm.w sh (performers s sh h tm.w ls) body f) (hn : ls.Nodup) :
    LanesGet s (endIssue (ls.foldl (runLane h tm.w sh s (performers s sh h tm.w ls) body) s) h ls) sh h tm ls f := by
  rw [foldl_runLane_part hb ls hn rfl fun _ _ => rfl]
  refine ⟨onlyLanes_endIssue s h _ ls, ?_, ?_⟩
  · intro l hl u v hu hv
    have hls : l ∈ ls := List.mem_of_mem_filter (List.mem_of_mem_filter hl)
    rw [endIssue_lane, lane_foldl_mem h _ ls s hn hls, hu]
    simp [laneStep, hl, hv]
  · intro l hl hnp u hu
    rw [endIssue_lane, lane_foldl_mem h _ ls s hn hl, hu]
    simp [laneStep, hnp]

/-- A rendezvous whose lanes can all perform waits for none. -/
theorem rdvWaits_part {h : HandKey} {w : Nat} {sh : Shape} {s : State} {body : ThreadKey → Vals → State → LaneOut}
    {f : Nat → Vals → Thread → Thread} : ∀ {perf : List Nat}, ThreadPart s h w sh perf body f →
    rdvWaits h w sh s perf body = none
  | [], _ => rfl
  | l :: ls, hb => by
    obtain ⟨v, hv, hd⟩ := hb l (List.mem_cons_self ..)
    have ih := rdvWaits_part (fun m hm => hb m (List.mem_cons_of_mem _ hm))
    simp only [rdvWaits, List.foldl_cons, hv, Option.getD_none, hd s rfl rfl] at ih ⊢
    exact ih

/-- A rendezvous whose lanes can all perform has no faults. -/
theorem rdvFaults_part {h : HandKey} {w : Nat} {sh : Shape} {s : State} {body : ThreadKey → Vals → State → LaneOut}
    {f : Nat → Vals → Thread → Thread} {perf : List Nat} (hb : ThreadPart s h w sh perf body f) :
    rdvFaults h w sh s perf body = [] := by
  refine List.filterMap_eq_nil_iff.mpr fun l hl => ?_
  obtain ⟨v, hv, hd⟩ := hb l hl
  simp only [hv, hd s rfl rfl]

/-- An instruction that a bundle can perform, and whose part in each performing lane changes that lane's thread alone, does
just that in every performing lane; every lane goes on. -/
theorem runLanes_part {s : State} {sh : Shape} {h : HandKey} {tm : Team} {ls : List Nat}
    {body : ThreadKey → Vals → State → LaneOut} {f : Nat → Vals → Thread → Thread} (hc : CanPerform s sh h tm ls)
    (hb : ThreadPart s h tm.w sh (performers s sh h tm.w ls) body f) : LanesGet s (runLanes s sh body) sh h tm ls f := by
  have main := lanesGet_foldl hb (inFocus_nodup hc.focus)
  simp only [runLanes, hc.focus]
  by_cases hm : sh.modified = true
  · have ha := hc.arrived hm
    simp only [performers] at hb main
    simp only [hm, ha, if_true, Bool.not_true, Bool.false_eq_true, if_false, rdvWaits_part hb, rdvFaults_part hb,
      List.map_nil, List.contains_nil, Bool.not_false, List.filter_true, List.foldl_nil]
    exact main
  · have hm' : sh.modified = false := by simpa using hm
    simp only [hm', Bool.false_eq_true, if_false]
    simp only [performers, activeLanes_of_not_modified hm'] at main
    exact main

/-- The same of an instruction whose part is a change of the thread by its operands alone. -/
theorem runLanes_done {s : State} {sh : Shape} {h : HandKey} {tm : Team} {ls : List Nat} (f : Vals → Thread → Thread)
    (hc : CanPerform s sh h tm ls) :
    LanesGet s (runLanes s sh fun k v s => .done (s.modThread k (f v))) sh h tm ls fun _ => f :=
  runLanes_part hc fun l hl => (hc.ready l hl).imp fun _ hv => ⟨hv, fun _ _ _ => rfl⟩

/-- Transfers: the parts of an instruction without modifiers whose part in each performing lane makes its lane's thread
what f gives. -/
theorem runLanes_left {s : State} {sh : Shape} {h : HandKey} {tm : Team} {ls : List Nat}
    {body : ThreadKey → Vals → State → LaneOut} {f : Nat → Vals → Thread → Thread} (hm : sh.modified = false)
    (hc : CanPerform s sh h tm ls)
    (hb : ∀ l ∈ performers s sh h tm.w ls, ∃ v, readOpnds s h tm.w sh l = .ok v ∧
      ∀ s', s' = { s with threads := s'.threads } → s'.lane h l = s.lane h l →
        body (threadOf h l) v s' = .left (s'.modThread (threadOf h l) (f l v))) :
    LanesBecome s (runLanes s sh body) sh h tm ls f := by
  have hn := inFocus_nodup hc.focus
  let G : Nat → Thread → Thread := fun l u =>
    if (performers s sh h tm.w ls).contains l then
      match readOpnds s h tm.w sh l with
      | .ok v => f l v u
      | _ => u
    else u.past
  have one : ∀ (s' : State) l, s' = { s with threads := s'.threads } → s'.lane h l = s.lane h l →
      runLane h tm.w sh s (performers s sh h tm.w ls) body s' l = s'.modThread (threadOf h l) (G l) := by
    intro s' l hs he
    by_cases hp : (performers s sh h tm.w ls).contains l
    · obtain ⟨v, hv, hd⟩ := hb l (List.contains_iff_mem.mp hp)
      simp only [runLane, hp, if_true, hv, hd s' hs he, applyOut]
      congr 1
      funext u
      simp only [G, hp, if_true, hv]
    · simp only [runLane, hp, Bool.false_eq_true, if_false, goOn_eq]
      congr 1
      funext u
      simp only [G, hp, Bool.false_eq_true, if_false]
  have all : ∀ (xs : List Nat) (s' : State), xs.Nodup → s' = { s with threads := s'.threads } →
      (∀ l ∈ xs, s'.lane h l = s.lane h l) →
      xs.foldl (runLane h tm.w sh s (performers s sh h tm.w ls) body) s' =
        xs.foldl (fun s l => s.modThread (threadOf h l) (G l)) s' := by
    intro xs
    induction xs with
    | nil => intro _ _ _ _; rfl
    | cons l xs ih =>
      intro s' hx hs hl
      rw [List.nodup_cons] at hx
      rw [List.foldl_cons, List.foldl_cons, one s' l hs (hl l (List.mem_cons_self ..))]
      refine ih _ hx.2 (by rw [hs]; rfl) fun m hm => ?_
      rw [lane_modThread_ne (m := m) _ (fun e => hx.1 (by subst e; exact hm)), hl m (List.mem_cons_of_mem _ hm)]
  have e : runLanes s sh body = endIssue (ls.foldl (fun s l => s.modThread (threadOf h l) (G l)) s) h ls := by
    have := all ls s hn rfl fun _ _ => rfl
    simp only [performers, activeLanes_of_not_modified hm] at this
    simp only [runLanes, hc.focus, hm, Bool.false_eq_true, if_false, this]
  rw [e]
  refine ⟨onlyLanes_endIssue s h G ls, ?_, ?_⟩
  · intro l hl u v hu hv
    have hls : l ∈ ls := List.mem_of_mem_filter (List.mem_of_mem_filter hl)
    rw [endIssue_lane, lane_foldl_mem h G ls s hn hls, hu]
    simp [G, hl, hv]
  · intro l hl hnp u hu
    rw [endIssue_lane, lane_foldl_mem h G ls s hn hl, hu]
    simp [G, hnp]

/-! ## Bundles of one thread -/

/-- An instruction of a bundle of one thread that performs: the thread goes on in the state that its part gives. -/
theorem runLanes_one_done {s s' : State} {sh : Shape} {h : HandKey} {tm : Team} {l : Nat} {v : Vals}
    {body : ThreadKey → Vals → State → LaneOut} (hc : OneLane s sh h tm l v) (hb : body (threadOf h l) v s = .done s') :
    runLanes s sh body = goesOn s' h l := by
  have hp := hc.performs
  simp only [performers] at hp
  simp only [runLanes, hc.focus]
  by_cases hm : sh.modified = true
  · have hl : l ∈ performing s h sh.g [l] := by
      have : l ∈ activeLanes sh tm.w (performing s h sh.g [l]) (performing s h sh.g [l]) := by rw [hp]; simp
      exact List.mem_of_mem_filter this
    have hq : performing s h sh.g [l] = [l] := by
      have hsub : (performing s h sh.g [l]).Sublist [l] := List.filter_sublist
      rcases List.sublist_singleton.mp hsub with e | e
      · rw [e] at hl; exact absurd hl List.not_mem_nil
      · exact e
    rw [hq] at hp
    have hw : rdvWaits h tm.w sh s [l] body = none := by simp [rdvWaits, hc.ready, hb]
    have hf : rdvFaults h tm.w sh s [l] body = [] := by simp [rdvFaults, hc.ready, hb]
    simp only [hm, hc.arrived hm, if_true, Bool.not_true, Bool.false_eq_true, if_false, hq, hp, hw, hf, List.map_nil,
      List.contains_nil, Bool.not_false, List.filter_true, List.foldl_nil, List.foldl_cons, runLane, List.contains_cons,
      beq_self_eq_true, Bool.true_or, hc.ready, hb, applyOut, goesOn]
  · have hm' : sh.modified = false := by simpa using hm
    rw [activeLanes_of_not_modified hm'] at hp
    simp only [hm', Bool.false_eq_true, if_false, hp, List.foldl_cons, List.foldl_nil, runLane, List.contains_cons,
      beq_self_eq_true, Bool.true_or, if_true, hc.ready, hb, applyOut, goesOn]

/-- An instruction of a bundle of one thread that leaves the thread where its part says. -/
theorem runLanes_one_left {s s' : State} {sh : Shape} {h : HandKey} {tm : Team} {l : Nat} {v : Vals}
    {body : ThreadKey → Vals → State → LaneOut} (hc : OneLane s sh h tm l v) (hb : body (threadOf h l) v s = .left s') :
    runLanes s sh body = endIssue s' h [l] := by
  have hp := hc.performs
  simp only [performers] at hp
  simp only [runLanes, hc.focus]
  by_cases hm : sh.modified = true
  · have hl : l ∈ performing s h sh.g [l] := by
      have : l ∈ activeLanes sh tm.w (performing s h sh.g [l]) (performing s h sh.g [l]) := by rw [hp]; simp
      exact List.mem_of_mem_filter this
    have hq : performing s h sh.g [l] = [l] := by
      have hsub : (performing s h sh.g [l]).Sublist [l] := List.filter_sublist
      rcases List.sublist_singleton.mp hsub with e | e
      · rw [e] at hl; exact absurd hl List.not_mem_nil
      · exact e
    rw [hq] at hp
    have hw : rdvWaits h tm.w sh s [l] body = none := by simp [rdvWaits, hc.ready, hb]
    have hf : rdvFaults h tm.w sh s [l] body = [] := by simp [rdvFaults, hc.ready, hb]
    simp only [hm, hc.arrived hm, if_true, Bool.not_true, Bool.false_eq_true, if_false, hq, hp, hw, hf, List.map_nil,
      List.contains_nil, Bool.not_false, List.filter_true, List.foldl_nil, List.foldl_cons, runLane, List.contains_cons,
      beq_self_eq_true, Bool.true_or, hc.ready, hb, applyOut]
  · have hm' : sh.modified = false := by simpa using hm
    rw [activeLanes_of_not_modified hm'] at hp
    simp only [hm', Bool.false_eq_true, if_false, hp, List.foldl_cons, List.foldl_nil, runLane, List.contains_cons,
      beq_self_eq_true, Bool.true_or, if_true, hc.ready, hb, applyOut]

/-! ## Cross-lane instructions (05 R107) -/

/-- A lane's thread after changes of the threads of lanes, in order. -/
def lanesChange (cs : List (Nat × (Thread → Thread))) (l : Nat) (u : Thread) : Thread :=
  cs.foldl (fun u e => if e.1 = l then e.2 u else u) u

/-- The thread of a lane after changes of lanes. -/
theorem lane_foldl_changes (h : HandKey) (l : Nat) : ∀ (cs : List (Nat × (Thread → Thread))) (s : State),
    (cs.foldl (fun s e => s.modThread (threadOf h e.1) e.2) s).lane h l = (s.lane h l).map (lanesChange cs l)
  | [], s => by
    show s.lane h l = (s.lane h l).map fun u => u
    simp
  | e :: cs, s => by
    rw [List.foldl_cons, lane_foldl_changes h l cs]
    by_cases he : e.1 = l
    · subst he
      have hx : lanesChange (e :: cs) e.1 = fun u => lanesChange cs e.1 (e.2 u) := by funext u; simp [lanesChange]
      rw [hx]
      simp [State.lane, Function.comp_def]
    · have hne : threadOf h l ≠ threadOf h e.1 := fun x => he (threadOf_inj x).symm
      have hx : lanesChange (e :: cs) l = lanesChange cs l := by funext u; simp [lanesChange, he]
      rw [hx]
      simp [State.lane, hne]

/-- Changes of lanes change only those threads. -/
theorem aget_foldl_changes (h : HandKey) (k : ThreadKey) : ∀ (cs : List (Nat × (Thread → Thread))) (s : State),
    (∀ e ∈ cs, k ≠ threadOf h e.1) → aget k (cs.foldl (fun s e => s.modThread (threadOf h e.1) e.2) s).threads = aget k s.threads
  | [], _, _ => rfl
  | e :: cs, s, hk => by
    rw [List.foldl_cons, aget_foldl_changes h k cs _ fun m hm => hk m (List.mem_cons_of_mem _ hm)]
    simp [hk e (List.mem_cons_self ..)]

/-- Changes of lanes change threads alone. -/
theorem foldl_changes_rest (h : HandKey) : ∀ (cs : List (Nat × (Thread → Thread))) (s : State),
    cs.foldl (fun s e => s.modThread (threadOf h e.1) e.2) s =
      { s with threads := (cs.foldl (fun s e => s.modThread (threadOf h e.1) e.2) s).threads }
  | [], _ => rfl
  | e :: cs, s => by
    rw [List.foldl_cons, foldl_changes_rest h cs]
    rfl

/-- The values that a cross-lane instruction works on: those of its performing lanes. -/
def crossVals (s : State) (sh : Shape) (src : List Nat → Nat → Dword → Option Nat) (h : HandKey) (tm : Team)
    (ls : List Nat) : List (Nat × Vals) :=
  (performers s sh h tm.w ls).filterMap fun l =>
    match crossReady s h tm.w sh (src (performers s sh h tm.w ls) l (indexSeen s h tm.w sh l)) l with
    | .ok v => some (l, v)
    | _ => none

/-- A cross-lane instruction that a bundle can perform changes the threads of its performing lanes as its function says of
their values, where that names those lanes alone; every lane goes on. -/
theorem runCross_done {s : State} {sh : Shape} {src : List Nat → Nat → Dword → Option Nat} {h : HandKey} {tm : Team}
    {ls : List Nat} {f : HandKey → Nat → List (Nat × Vals) → List (Nat × (Thread → Thread))}
    (hc : CanCross s sh src h tm ls)
    (hf : ∀ e ∈ f h tm.w (crossVals s sh src h tm ls), e.1 ∈ performers s sh h tm.w ls) :
    CrossGet s (runCross s sh src f) sh h tm ls (lanesChange (f h tm.w (crossVals s sh src h tm ls))) := by
  have hn := inFocus_nodup hc.focus
  have hr := hc.ready
  have hw : ((performers s sh h tm.w ls).any fun l =>
      decide (crossReady s h tm.w sh (src (performers s sh h tm.w ls) l (indexSeen s h tm.w sh l)) l = .wait)) = false := by
    refine List.any_eq_false.mpr fun l hl => ?_
    obtain ⟨v, hv⟩ := hr l hl
    simp [hv]
  have ht : trapLanes (fun l => crossReady s h tm.w sh (src (performers s sh h tm.w ls) l (indexSeen s h tm.w sh l)) l)
      (performers s sh h tm.w ls) = [] := by
    refine List.filterMap_eq_nil_iff.mpr fun l hl => ?_
    obtain ⟨v, hv⟩ := hr l hl
    simp [hv, Ready.code]
  have e : runCross s sh src f =
      endIssue (ls.foldl (fun s l => goOn s (threadOf h l))
        ((f h tm.w (crossVals s sh src h tm ls)).foldl (fun s e => s.modThread (threadOf h e.1) e.2) s)) h ls := by
    simp only [runCross, hc.focus, hc.arrived, Bool.not_true, Bool.false_eq_true, if_false]
    have hw' := hw
    have ht' := ht
    unfold performers at hw' ht'
    rw [ht']
    simp only [List.map_nil, List.contains_nil, Bool.not_false, List.filter_true, List.foldl_nil]
    rw [if_neg (by rw [hw']; exact Bool.false_ne_true)]
    rfl
  generalize hcs : f h tm.w (crossVals s sh src h tm ls) = cs at *
  have hsub : ∀ e ∈ cs, e.1 ∈ ls := fun e he => List.mem_of_mem_filter (List.mem_of_mem_filter (hf e he))
  have hnot : ∀ (l : Nat) (u : Thread) (cs : List (Nat × (Thread → Thread))), (∀ e ∈ cs, e.1 ≠ l) → lanesChange cs l u = u := by
    intro l u cs
    induction cs with
    | nil => intro _; rfl
    | cons x xs ih =>
      intro hx
      simp only [lanesChange, List.foldl_cons, hx x (List.mem_cons_self ..), if_false]
      exact ih fun y hy => hx y (List.mem_cons_of_mem _ hy)
  rw [e]
  refine ⟨?_, ?_, ?_⟩
  · rw [show (fun (s : State) (l : Nat) => goOn s (threadOf h l)) =
      fun s l => s.modThread (threadOf h l) ((fun _ => Thread.past) l) from rfl,
      foldl_modThread_rest h (fun _ => Thread.past) ls, foldl_changes_rest h cs s]
    refine onlyLanes_of_threads fun k hk => ?_
    have h1 := lane_foldl_notMem h (fun _ => Thread.past) k ls
      (cs.foldl (fun s e => s.modThread (threadOf h e.1) e.2) s) hk
    rw [aget_foldl_changes h k cs s fun x hx => hk _ (hsub x hx), foldl_changes_rest h cs s] at h1
    exact h1
  · intro l hl u hu
    have hls : l ∈ ls := List.mem_of_mem_filter (List.mem_of_mem_filter hl)
    rw [endIssue_lane, show (fun (s : State) (l : Nat) => goOn s (threadOf h l)) =
      fun s l => s.modThread (threadOf h l) ((fun _ => Thread.past) l) from rfl, lane_foldl_mem h _ ls _ hn hls,
      lane_foldl_changes, hu]
    rfl
  · intro l hl hnp u hu
    rw [endIssue_lane, show (fun (s : State) (l : Nat) => goOn s (threadOf h l)) =
      fun s l => s.modThread (threadOf h l) ((fun _ => Thread.past) l) from rfl, lane_foldl_mem h _ ls _ hn hl,
      lane_foldl_changes, hu]
    simp only [Option.map_some]
    rw [hnot l u cs fun x hx e => hnp (e ▸ hf x hx)]

/-! ## X-format instructions (03 R42) -/

/-- An X-format instruction that performs: every thread of the bundle goes on in the state that its part gives. -/
theorem runBundle_done {s s' : State} {sh : Shape} {h : HandKey} {tm : Team} {ls : List Nat} {l : Nat} {v : Vals}
    {body : ThreadKey → Vals → State → LaneOut} (hc : Leads s sh h tm ls l v) (hb : body (threadOf h l) v s = .done s') :
    runBundle s sh body = allGoOn s' h ls l := by
  have hl := hc.lowest
  simp only [runBundle, hc.focus]
  cases hp : performing s h sh.g ls with
  | nil => rw [hp] at hl; cases hl
  | cons x xs =>
    rw [hp] at hl
    cases hl
    simp only [hc.ready, hb, allGoOn]

end Sys2Proof.Machine
end

