-- ==== Sys2Proof/Laws/Fetch.lean ====
section
/-! SUPPORT. What a transfer to a target does that a thread can enter. -/

namespace Sys2Proof.Machine

/-- A request that a controller has nothing to count against leaves it as it is. -/
theorem countServed_of_quiet {s : State} {p : Nat} {k : Bool × Nat × Nat} (h : (s.pch p).served k = s.pch p) :
    countServed s p k = s := by
  have key : ∀ l : List (Nat × Pch), (agetD p Pch.reset l).served k = agetD p Pch.reset l → amod p (·.served k) l = l := by
    intro l
    induction l with
    | nil => intros; rfl
    | cons x xs ih =>
      obtain ⟨a, u⟩ := x
      intro e
      by_cases ha : a = p
      · simp only [agetD, aget, ha, if_true, Option.getD_some] at e
        simp only [amod, ha, if_true, e]
      · simp only [agetD, aget, ha, if_false] at e ih
        simp only [amod, ha, if_false, ih e]
  simp only [countServed, key s.pchs h]

/-- A line of a page that is not forwarded counts at no page. -/
theorem countLine_of_own {s : State} {fn va : Nat} {w : Bool} (h : ∀ p, (s.func fn).page va = some p → pageForwards p = false) :
    countLine s fn va w = s := by
  unfold countLine
  split
  · rename_i p hp
    simp [h p hp]
  · rfl

/-- A line that can be entered is fetched as it stands, and the fetch changes nothing. -/
theorem fetchLine_of_enters {s : State} {fn : Nat} {target : Dword} {L : Line} (h : Enters s fn target L) (stay : Bool) :
    fetchLine s fn (lineAddr target) stay = .line L s := by
  obtain ⟨d, w, ht, hm, h1, hp, hL⟩ := h.place
  have hg := h.steady
  have hpar := h.parity
  have hs : { s with glitch := 0 } = s := by cases s; simp_all
  have hx : ∀ m : Line, m ^^^ s.glitch = m := by intro m; rw [hg]; simp
  have hc : countXl s fn (lineAddr target).toNat (.dram d w) false true = s := by
    simp only [countXl, Bool.true_or, if_true, countServed_of_quiet h1, countLine_of_own h.own]
  have hd : decide (Acc.fetch = Acc.write) = false := rfl
  rw [hL] at hpar ⊢
  simp only [fetchLine, reach, ht, hd, hm, if_true, fetchLine.copy, placePoisoned, hp, Bool.false_eq_true, if_false, placeRead, hx,
    hpar, hc, hs]

/-- A line that can be entered passes the checks of entry. -/
theorem entryFault_of_enters {s : State} {fn : Nat} {target : Dword} {L : Line} (h : Enters s fn target L) :
    entryFault L (slotOf target) = none := by
  have hp := h.parity
  simp only [parityOk, Bool.and_eq_true, List.all_eq_true, List.mem_range] at hp
  simp only [entryFault, hp.1, Bool.not_true, Bool.false_or, h.format, Bool.false_eq_true, if_false]
  by_cases hs : slotOf target < 5
  · simp [hs, hp.2 _ hs]
  · simp [hs]

/-- A transfer to a target that a thread can enter arrives there. -/
theorem transfer_of_enters {s : State} {k : ThreadKey} {target : Dword} {L : Line}
    (h : Enters s (funcOf s k) target L) :
    transfer s k target = .arrived (s.modThread k fun u => u.at target L) := by
  have h1 := fetchLine_of_enters h (fetchStays s k)
  have h2 := entryFault_of_enters h
  simp only [transfer, h.canonical, Bool.not_true, Bool.false_eq_true, if_false, h1, h2, h.aligned, h.legal, ne_eq,
    not_true_eq_false, decide_false, Bool.or_false, Thread.at]

end Sys2Proof.Machine
end

