-- ==== Sys2Proof/Tests/Slice0.lean ====
section
/-! SUPPORT. Words of the spec's encodings and what they decode to, terms that are not well formed, small steps with
results worked out from the spec, and, for each obligation, states and operands that meet its hypotheses. -/

namespace Sys2Proof.Tests
open Sys2Proof Sys2Proof.Machine
set_option Elab.async false

/-! ## Operands -/

def g0 : Guard := ⟨0, false⟩
def r (n : BitVec 8) : Src := ⟨n, .none, false⟩
def rb (n : BitVec 8) : SrcB := .reg (r n)
def rc (n : BitVec 8) : CSrc := ⟨n, false⟩

/-! ## Words of the spec's encodings, one or more for each instruction and row operation -/

/-- Words of the control instructions, written out from the encoding tables. -/
def controlWords : List (Nat × Instr) := [
  (0x00000000_00000000_00000000, .nop g0),
  (0xFFFFFFFF_20000000_0A000050, .bra ⟨2, true⟩ 2 0xFFFFFFFF),
  (0x00000002_10000003_00000051, .brpAny g0 3 1 2),
  (0x00000002_10000003_00000151, .brpAll g0 3 1 2),
  (0x00000002_40000003_00000251, .brpNone g0 3 4 2),
  (0x00000000_00000008_90000052, .jmp g0 ⟨8, true⟩),
  (0x00000005_30000000_00000053, .call g0 3 5),
  (0x00000000_00000008_80000054, .callr g0 (rc 8)),
  (0x00000000_00000000_00000055, .ret g0),
  (0x00000040_00700006_20000056, .jtab g0 (rc 6) ⟨7, true⟩ 0x40),
  (0x0000F0F0_00000000_00000057, .joinImm g0 0xF0F0),
  (0x00000000_00000008_80000157, .joinReg g0 true (rc 8)),
  (0x00000000_00000000_00000058, .exit g0),
  (0x00000000_00000000_00000059, .yield g0),
  (0x00000900_00700006_0000005A, .waitf g0 false 6 7 9),
  (0x12340000_00000000_0000005B, .brk g0 0x1234),
  (0x80010000_00000000_0000005C, .trap g0 0x8001)]
theorem test_decode_control : (controlWords.all fun e => decodeTableWord 96 e.1 == some e.2) = true := by decide +kernel

/-- Words of the integer instructions, written out from the encoding tables. -/
def integerWords : List (Nat × Instr) := [
  (0x80000000_00000006_00058001, .add g0 false 5 (r 6) (.imm 0x8000)),
  (0x00000000_00400006_80080001, .add g0 true 8 (r 6) (rb 4)),
  (0xFFFFFFFF_00000006_00050002, .addi g0 false 5 (r 6) 0xFFFFFFFF),
  (0x00000000_00700006_00050003, .sub g0 false 5 (r 6) (rb 7)),
  (0x00000000_00700006_00050004, .mul g0 false 5 (r 6) (rb 7)),
  (0x00000000_00700006_00050005, .mulhi g0 false 5 (r 6) (rb 7)),
  (0x00000000_00700006_00051005, .mulhs g0 false 5 (r 6) (rb 7)),
  (0x00000900_00700006_00050006, .mad g0 false 5 (r 6) (rb 7) (rc 9)),
  (0x00000000_00700006_00050007, .div g0 5 (r 6) (rb 7)),
  (0x00000000_00700006_00051007, .divs g0 5 (r 6) (rb 7)),
  (0x00000000_00700006_00050008, .rem g0 5 (r 6) (rb 7)),
  (0x00000000_00700006_00051008, .rems g0 5 (r 6) (rb 7)),
  (0x00000000_00700006_00050009, .min g0 false 5 (r 6) (rb 7)),
  (0x00000000_00700006_00051009, .max g0 false 5 (r 6) (rb 7)),
  (0x00000000_00700006_00052009, .mins g0 false 5 (r 6) (rb 7)),
  (0x00000000_00700006_00053009, .maxs g0 false 5 (r 6) (rb 7)),
  (0x00000000_00000006_0005000A, .abs g0 false 5 (r 6)),
  (0x00000000_00000006_0005100A, .neg g0 false 5 (r 6)),
  (0x00000000_00700006_0005000B, .and g0 false 5 (r 6) (rb 7)),
  (0x00000000_00700006_0005100B, .or g0 false 5 (r 6) (rb 7)),
  (0x00000000_00700006_0005200B, .xor g0 false 5 (r 6) (rb 7)),
  (0x00000000_00700006_0005300B, .andn g0 false 5 (r 6) (rb 7)),
  (0x00000000_00000006_0005400B, .not g0 false 5 (r 6)),
  (0x00000000_00700006_0005000C, .shl g0 false 5 (r 6) (rb 7)),
  (0x00000000_00700006_0005100C, .shr g0 false 5 (r 6) (rb 7)),
  (0x00000000_00700006_0005200C, .sar g0 false 5 (r 6) (rb 7)),
  (0x00000000_00700006_0005300C, .rot g0 false 5 (r 6) (rb 7)),
  (0x00000000_00000006_0005000D, .clz g0 false 5 (r 6)),
  (0x00000000_00000006_0005100D, .popc g0 false 5 (r 6)),
  (0x00000000_00000006_0005200D, .brev g0 false 5 (r 6)),
  (0x00000000_00700006_0005000E, .bfx g0 false 5 (r 6) (rb 7)),
  (0x00000000_00700006_0005100E, .bfxs g0 false 5 (r 6) (rb 7)),
  (0x00000900_00700006_0005000F, .bfi g0 false 5 (r 6) (rb 7) (rc 9)),
  (0x00000300_00700006_00050010, .sel g0 false 5 (r 6) (rb 7) 3),
  (0x00000000_00090106_00050011, .mov g0 false 5 ⟨6, .bfly 2 1, false⟩),
  (0x00000000_000D8506_10050011, .mov g0 false 5 ⟨6, .bcst 3 5, true⟩),
  (0x00000000_0000003F_00050111, .movK g0 false 5 63),
  (0x00000000_FFFFFFFF_00050012, .movi g0 false 5 0xFFFFFFFF),
  (0x12345678_9ABCDEF0_80080012, .movi g0 true 8 0x123456789ABCDEF0),
  (0x00000000_00700006_00050513, .lea g0 false 5 (r 6) (rb 7) 5),
  (0x00000000_00700006_00030914, .icmp g0 false 3 (r 6) (rb 7) .sge)]
theorem test_decode_integer : (integerWords.all fun e => decodeTableWord 96 e.1 == some e.2) = true := by decide +kernel

/-- Words of the predicate instructions, written out from the encoding tables. -/
def predicateWords : List (Nat × Instr) := [
  (0x00000000_00200001_00030040, .pand g0 3 1 2),
  (0x00000000_00200001_00030041, .por g0 3 1 2),
  (0x00000000_00200001_00030042, .pxor g0 3 1 2),
  (0x00000000_00000001_00030043, .pnot g0 3 1),
  (0x00000000_00000001_00030044, .pmov g0 3 1),
  (0x00010000_00000000_00030144, .pmovImm g0 3 true)]
theorem test_decode_predicate : (predicateWords.all fun e => decodeTableWord 96 e.1 == some e.2) = true := by decide +kernel

/-- Words of the float instructions, written out from the encoding tables. -/
def floatWords : List (Nat × Instr) := [
  (0x00000000_00700006_00050020, .fadd g0 5 (r 6) (rb 7) .rn),
  (0x00000000_00700006_00050121, .fsub g0 5 (r 6) (rb 7) .rz),
  (0x00000000_00700006_00050222, .fmul g0 5 (r 6) (rb 7) .ru),
  (0x00000000_00700006_00050327, .fdiv g0 5 (r 6) (rb 7) .rd),
  (0x3F800000_00000006_00058320, .fadd g0 5 (r 6) (.imm 0x3F80) .rd),
  (0x00000900_00700006_00050123, .ffma g0 5 (r 6) (rb 7) (rc 9) .rz),
  (0x00000000_00700006_00050024, .fmin g0 5 (r 6) (rb 7)),
  (0x00000000_00700006_00051024, .fmax g0 5 (r 6) (rb 7)),
  (0x00000000_00000006_00050025, .fabs g0 5 (r 6)),
  (0x00000000_00000006_00051025, .fneg g0 5 (r 6)),
  (0x00000000_00700006_00030726, .fcmp g0 3 (r 6) (rb 7) .ord),
  (0x00000000_00000006_00050228, .frcp g0 5 (r 6) .ru),
  (0x00000000_00000006_00051028, .frsq g0 5 (r 6)),
  (0x00000000_00000006_00052128, .fsqrt g0 5 (r 6) .rz),
  (0x00000000_00000006_00050029, .fexp2 g0 5 (r 6)),
  (0x00000000_00000006_00051029, .flog2 g0 5 (r 6)),
  (0x00000000_00000006_0005002A, .fsin g0 5 (r 6)),
  (0x00000000_00000006_0005102A, .fcos g0 5 (r 6)),
  (0x00000000_00000006_0005202A, .ftanh g0 5 (r 6)),
  (0x00000000_00000006_0005032B, .frnd g0 5 (r 6) .rd),
  (0x00000000_00000006_0005002C, .fclass g0 5 (r 6)),
  (0x00000000_00000006_0005052D, .f2i g0 5 (r 6) .rz true),
  (0x00000000_00000006_0005022E, .i2f g0 5 (r 6) .ru false)]
theorem test_decode_float : (floatWords.all fun e => decodeTableWord 96 e.1 == some e.2) = true := by decide +kernel

/-- Words of the packed instructions, written out from the encoding tables. -/
def packedWords : List (Nat × Instr) := [
  (0x00000000_00700006_0005042F, .hadd2 g0 5 (r 6) (r 7) .rn true),
  (0x00000000_00700006_0005112F, .hmul2 g0 5 (r 6) (r 7) .rz false),
  (0x00000900_00700006_0005262F, .hfma2 g0 5 (r 6) (r 7) (rc 9) .ru true),
  (0x000F0900_00700006_00050330, .fdot4 g0 5 (r 6) (r 7) (rc 9) .rd 15),
  (0x00210500_00300002_00050031, .cvtN g0 5 (r 2) (r 3) (rc 5) .rn .reg 1 2),
  (0x007F0900_00700006_00050931, .cvtN g0 5 (r 6) (r 7) (rc 9) .rz .wrap 15 7),
  (0x00340000_00700006_00050132, .cvtW g0 5 (r 6) (r 7) .rz 4 3),
  (0x00000000_00700006_00050633, .cvtB g0 5 (r 6) (r 7) .ru true),
  (0x00010000_00000006_00050C33, .cvtBW g0 5 (r 6) true true),
  (0x00000000_00000006_000F0034, .fmtset g0 15 (r 6)),
  (0x00000F2B_00000000_00010134, .fmtsetImm g0 1 0xF2B),
  (0x00000000_00000003_00051034, .fmtget g0 5 3)]
theorem test_decode_packed : (packedWords.all fun e => decodeTableWord 96 e.1 == some e.2) = true := by decide +kernel

/-- Words of the crosslane instructions, written out from the encoding tables. -/
def crosslaneWords : List (Nat × Instr) := [
  (0x00000000_00000006_00050045, .lanel g0 false 5 (rc 6)),
  (0x00000000_00000006_10050046, .laner g0 false 5 ⟨6, true⟩),
  (0x00000000_00700006_00050047, .xlget g0 false 5 (rc 6) (rc 7)),
  (0x00000000_00700006_00050048, .xlput g0 false 5 (rc 6) (rc 7)),
  (0x00000000_00000006_00050349, .xlred g0 false 5 (rc 6) .iadd),
  (0x00000000_00700006_00050E49, .xlredKey g0 false 5 (rc 6) (rc 7) .xor),
  (0x00000000_00000006_0005094A, .xlscan g0 false 5 (rc 6) .fmin true),
  (0x00000000_00000001_0003004B, .xlvoteAny g0 3 1),
  (0x00000000_00000001_0003014B, .xlvoteAll g0 3 1),
  (0x00000000_00000001_8008024B, .xlvoteBallot g0 true 8 1),
  (0x00000000_00000001_0005034B, .xlvoteCount g0 5 1),
  (0x000F0000_00000006_0005004C, .xlbcast g0 false 5 (rc 6) 15),
  (0x00000000_00000006_0005014C, .xlbcastLow g0 false 5 (rc 6)),
  (0x00080300_00000006_00050075, .confl g0 false 5 (r 6) 3 8)]
theorem test_decode_crosslane : (crosslaneWords.all fun e => decodeTableWord 96 e.1 == some e.2) = true := by decide +kernel

/-- Words of the scratchpad instructions, written out from the encoding tables. -/
def scratchpadWords : List (Nat × Instr) := [
  (0x00000010_20000006_80080360, .ld g0 8 (r 6) .d false none 0x10 .stk),
  (0x00000002_00000006_00054D60, .ld g0 5 (r 6) .h true (some .die) 2 .sp),
  (0x00000004_00700006_00009261, .st g0 (r 6) (rc 7) .w (some .sys) 4 .sp),
  (0x00000008_00700006_00050962, .satom g0 false 5 (r 6) (rc 7) .cas 8),
  (0x00000000_00400006_80080062, .satom g0 true 8 (r 6) (rc 4) .add 0),
  (0x0FBF0000_00700006_00040663, .tset g0 4 (rc 6) (rc 7) 2 1 63 62 0),
  (0x00070000_00000000_80080064, .tgetE g0 true 8 7),
  (0x01C90000_00000006_00050164, .tget g0 false 5 (r 6) (.remote 3 9)),
  (0x00090000_00000006_00050164, .tget g0 false 5 (r 6) (.loc 9)),
  (0x00000000_00000000_00040065, .tready g0 4),
  (0x00000000_00000000_003F0066, .trel g0 63),
  (0x00100900_00700006_00000067, .bbinit g0 (r 6) (r 7) (rc 9) 0x10),
  (0x00020000_40002001_00000167, .bbinitImm g0 (rc 1) 2 0x400 0x20),
  (0x00000020_00000006_00000068, .bbarr g0 (r 6) 0x20),
  (0x00000020_00000006_00000069, .bbwait g0 (r 6) 0x20),
  (0x00000000_00000000_0000006A, .tbar g0),
  (0x00000000_00000000_0000006B, .lbar g0)]
theorem test_decode_scratchpad : (scratchpadWords.all fun e => decodeTableWord 96 e.1 == some e.2) = true := by decide +kernel

/-- Words of the commons instructions, written out from the encoding tables. -/
def commonsWords : List (Nat × Instr) := [
  (0x00000001_10000006_00050470, .cld g0 5 (r 6) .b true none 1),
  (0x00000000_10000006_80086B70, .cld g0 8 (r 6) .d false (some .pkg) 0),
  (0x00000002_10700006_00003171, .cst g0 (r 6) (rc 7) .h (some .team) 2),
  (0x00000100_10300002_00056072, .catom g0 false 5 (r 2) (rc 3) .add (.rel .die) 0x100),
  (0x00000000_10700006_0005FD72, .catom g0 false 5 (r 6) (rc 7) .fmax (.ar .sys) 0),
  (0x00000004_10700006_00000B73, .cred g0 false (r 6) (rc 7) .fadd 4),
  (0x00000004_10700006_00050274, .caxpy g0 5 (r 6) (rc 7) .i32 4),
  (0x00000000_00000000_00000476, .fence g0 .sys),
  (0x00000000_00000000_00000876, .fenceAcq g0 .hand),
  (0x00000000_00000000_00001276, .fenceRel g0 .die),
  (0x00000000_00000000_00000077, .fenceEng g0)]
theorem test_decode_commons : (commonsWords.all fun e => decodeTableWord 96 e.1 == some e.2) = true := by decide +kernel

/-- Words of the channels instructions, written out from the encoding tables. -/
def channelsWords : List (Nat × Instr) := [
  (0x00000000_00000000_01000080, .kick ⟨1, false⟩ 0 (r 0) 0),
  (0x00000020_00000006_00030080, .kick g0 3 (r 6) 0x20),
  (0x00020000_00000000_00050081, .chwait g0 5 2),
  (0x00030000_00000000_00050082, .chstat g0 5 3),
  (0x00010000_00000000_00000083, .chstop g0 1),
  (0x00010000_00000000_00000183, .chstopFreeze g0 1),
  (0x00010000_00000000_00000283, .chstopThaw g0 1),
  (0x00000020_00000006_00000084, .wbind g0 (r 6) 0x20),
  (0x00070000_00000000_00000085, .wunbind g0 7),
  (0x00060000_00000000_00050086, .wstat g0 5 6)]
theorem test_decode_channels : (channelsWords.all fun e => decodeTableWord 96 e.1 == some e.2) = true := by decide +kernel

/-- Words of the matrix instructions, written out from the encoding tables. -/
def matrixWords : List (Nat × Instr) := [
  (0x00B00000_00900004_00010090, .mmaIp g0 1 (.loc 4) (.remote 3 9)),
  (0x00B00000_00900004_00010190, .mmaOp g0 1 (.loc 4) (.remote 3 9)),
  (0x00B00000_00900004_00010290, .mmaRw g0 1 (.loc 4) (.remote 3 9)),
  (0x00B00000_00900004_00010590, .mmaOpSk g0 1 (.loc 4) (.remote 3 9)),
  (0x00B00000_00900004_00010690, .mmaRwSp g0 1 (.loc 4) (.remote 3 9)),
  (0x00000000_00000000_00030091, .aczero g0 3),
  (0x00000000_00000028_00020092, .acload g0 2 40),
  (0x00000000_00000006_10020192, .acloadRawF g0 2 ⟨6, true⟩),
  (0x00000000_00000006_00020292, .acloadRawI g0 2 (rc 6)),
  (0x00000000_00000003_00280693, .acstore g0 40 3 .ru .sat),
  (0x00030000_00000006_00001093, .acstoreRaw g0 (rc 6) 3),
  (0x00010000_00700006_00050094, .acget g0 5 (r 6) (r 7) 1),
  (0x00020000_00700006_80080194, .acgetRaw g0 8 (r 6) (r 7) 2),
  (0x00000300_00200001_00030095, .delta g0 3 1 2 (rc 3)),
  (0x00000000_00000001_00030096, .spcomp g0 3 1),
  (0x00000000_00000001_00030097, .txpose g0 3 1)]
theorem test_decode_matrix : (matrixWords.all fun e => decodeTableWord 96 e.1 == some e.2) = true := by decide +kernel

/-- Words of the bags instructions, written out from the encoding tables. -/
def bagsWords : List (Nat × Instr) := [
  (0x01000000_00200004_000500A0, .bagput g0 5 (r 4) (r 2) 0x100),
  (0x00400000_00200004_000503A1, .bagtake g0 5 (r 4) (r 2) 3 0x40),
  (0x00000000_00000004_000500A2, .bagcnt g0 5 (r 4)),
  (0x00000000_00200004_000500A3, .baghistRes g0 5 (r 4) (r 2)),
  (0x00000000_00300005_800801A3, .baghistPuts g0 8 (r 5) (r 3)),
  (0x00000000_00000005_800800A4, .bagcut g0 8 (r 5)),
  (0x00000900_00800005_800000A5, .bagiter g0 (r 5) (r 8) 9),
  (0x00000000_00000004_000500A6, .bagwait g0 5 (r 4)),
  (0x00000000_00000004_000000A7, .bagclr g0 (r 4)),
  (0x00070000_00000004_000500A8, .baginfo g0 5 (r 4) 7)]
theorem test_decode_bags : (bagsWords.all fun e => decodeTableWord 96 e.1 == some e.2) = true := by decide +kernel

/-- Words of the system instructions, written out from the encoding tables. -/
def systemWords : List (Nat × Instr) := [
  (0x00000000_00000004_000000B0, .nbrun g0 (r 4) 0),
  (0x00000000_00000000_000700C0, .foldq g0 7),
  (0x00000000_00000000_000301C0, .foldqP g0 3),
  (0x00000200_00000004_000500C1, .coll g0 5 (r 4) 0x200),
  (0x00000000_00000004_000500C2, .collq g0 5 (r 4)),
  (0x00000000_00000004_000501C2, .collqWait g0 5 (r 4)),
  (0x00010000_00000000_000100D0, .srd g0 false 1 .lane),
  (0x00120000_00000000_800800D0, .srd g0 true 8 .foldst),
  (0x000B0000_00000006_000000D1, .swr g0 (r 6)),
  (0x00000000_00000006_800800D2, .probe g0 8 (r 6))]
theorem test_decode_system : (systemWords.all fun e => decodeTableWord 96 e.1 == some e.2) = true := by decide +kernel

/-- Row operations (12 R261). -/
def rowWords : List (Nat × Instr) := [
  (0x04800002, .nload 1 2),
  (0x08600003, .nstore 6 3),
  (0x0D000007, .nset 2 7),
  (0x0C818000, .nsetImm 1 0x8000),
  (0x12EF0000, .nadd 5 6 7 .bf),
  (0x16EF0000, .nsub 5 6 7 .bf),
  (0x1AEF0000, .nmul 5 6 7 .bf),
  (0x1EEF0000, .nfma 5 6 7 .bf),
  (0x22EF0000, .nmax 5 6 7 .bf),
  (0x26EF0000, .nmin 5 6 7 .bf),
  (0x2AE08000, .nsum 5 6 .i32),
  (0x2EEE8005, .ncmp 5 6 7 .i32 .ge),
  (0x32EE0000, .nsel 5 6 7),
  (0x36E0001A, .ncvt 5 6 .toBf .rd),
  (0x38600069, .nkey 6 1 5 true),
  (0x3C600007, .nemit 6 7),
  (0x400000C8, .nnext 200),
  (0x44300008, .nloop 3 8),
  (0x48000109, .njmp true 9),
  (0x4C000000, .nhalt),
  (0x50000000, .nsync)]
theorem test_decode_rows : (rowWords.all fun e => decodeTableWord 32 e.1 == some e.2) = true := by decide +kernel

/-! ## Terms that are not well formed, one for each check -/

theorem test_ill_formed : ([.add g0 true 3 (r 2) (rb 4), .add g0 true 2 (r 3) (rb 4), .add g0 true 2 (r 4) (rb 5),
    .mov g0 false 1 ⟨2, .rot 7 0, false⟩, .mov g0 false 1 ⟨2, .bfly 2 4, false⟩, .mov g0 false 1 ⟨2, .bcst 3 8, false⟩,
    .movK g0 true 2 1, .movi g0 false 1 0x100000000, .fmtsetImm g0 0 0x00030739, .xlred g0 true 2 (rc 4) .fadd,
    .xlredKey g0 true 2 (rc 4) (rc 6) .fmin, .xlscan g0 true 2 (rc 4) .fmax false, .ld g0 1 (r 2) .w true none 0 .sp,
    .ld g0 1 (r 2) .w false (some .team) 0 .stk, .st g0 (r 1) (rc 2) .w (some .team) 0 .stk,
    .satom g0 false 1 (r 2) (rc 3) .fmin 0, .satom g0 true 2 (r 1) (rc 4) .fadd 0, .tset g0 0 (rc 1) (rc 2) 3 0 0 0 0,
    .tset g0 0 (rc 1) (rc 2) 0 3 0 0 0, .tset g0 0 (rc 1) (rc 2) 0 1 0 0 1, .bbinitImm g0 (rc 1) 0 0 0,
    .cld g0 1 (r 2) .w true none 0, .catom g0 true 2 (r 1) (rc 4) .fadd .none 0,
    .catom g0 false 1 (r 2) (rc 3) .add (.acq .hand) 0, .cred g0 false (r 1) (rc 2) .cas 0,
    .cred g0 true (r 1) (rc 2) .fmax 0, .bra g0 5 0, .brpAny g0 1 5 0, .brpAll g0 1 6 0, .brpNone g0 1 7 0,
    .call g0 5 0, .ncvt 1 2 .fromBf .rd] : List Instr).all (fun i => !i.wf) = true := by decide +kernel

/-- Terms that do not fit a launch of 16 lanes, 64 registers and 8 tiles without a chain. -/
theorem test_do_not_fit : ([.mov g0 false 64 (r 1), .mov g0 true 62 (r 64), .mov g0 false 1 ⟨2, .rot 5 0, false⟩,
    .mov g0 false 1 ⟨2, .bfly 0 16, false⟩, .mov g0 false 1 ⟨2, .bcst 0 16, false⟩, .tready g0 8,
    .mmaIp g0 0 (.loc 8) (.remote 1 60), .xlbcast g0 false 1 (rc 2) 16, .lbar g0] : List Instr).all
    (fun i => i.wf && !i.fits ⟨16, 64, 8, false⟩) = true := by decide +kernel

/-- At the edges of the same launch, terms that fit. -/
theorem test_fit : ([.mov g0 false 63 (r 1), .mov g0 true 62 (r 0), .mov g0 false 1 ⟨2, .rot 4 0x40, false⟩,
    .mov g0 false 1 ⟨2, .bfly 0 15, false⟩, .tready g0 7, .mmaIp g0 0 (.loc 7) (.remote 1 60),
    .xlbcast g0 false 1 (rc 2) 15] : List Instr).all (fun i => i.wf && i.fits ⟨16, 64, 8, false⟩) = true := by
  decide +kernel

/-- Words that are no instruction (03 R53): an OP that is not listed, a SEL, VAR and FN that are not assigned, a nonzero
field without use, an FE bit without its source, W64 without a 64-bit form, a SPACE that is not accepted, a row operation
without a code. -/
theorem test_no_instruction : ([0xE0, 0x1F, 0x40000007, 0x00000A14, 0x00000358, 0x00010000, 0x40000001, 0x80000007,
    0x30000000_00000060, 0x10000000_00000080].all fun w => decodeTableWord 96 w == none) = true ∧
    ([0, 0x54000000, 0x0D000008, 0x10018000].all fun w => decodeTableWord 32 w == none) = true := by decide +kernel

/-! ## Small steps -/

/-- A hand of one team of 4 lanes. -/
def hk : HandKey := ⟨hostTeamId, 0⟩
def tm0 : Team := { hostTeam with w := 4, regs := 16, chain := false, tx := 1, ty := 1, live := 4 }
def hd0 : Hand := ⟨0, [], [], [], 0, [], [], [], [], false⟩
/-- A thread whose registers from v1 hold the given words. -/
def th (rs : List Word) : Thread := { hostThread 0 with
  regs := 0 :: rs ++ List.replicate (15 - rs.length) 0
  full := List.replicate 16 true
  line := none
  pmask := 0xF }
/-- A thread that has arrived at a rendezvous. -/
def met (rs : List Word) : Thread := { th rs with run := .rendezvous 0xF }
/-- A state with one hand, whose lanes in m are in focus. -/
def wd (tm : Team) (hd : Hand) (us : List Thread) (m : BitVec 64) : State := { State.reset with
  teams := [(hostTeamId, tm)]
  hands := [(hk, hd)]
  threads := us.zipIdx.map fun e => (threadOf hk e.2, e.1)
  focus := .bundle hk m }
/-- One thread in focus. -/
def one (rs : List Word) : State := wd tm0 hd0 [th rs] 1
/-- Four threads that have met, in focus. -/
def four (rs : List (List Word)) : State := wd tm0 hd0 (rs.map met) 0xF

/-- A register of a lane after an instruction. -/
def gets (i : Instr) (s : State) (l : Nat) (d : BitVec 8) : Option Word :=
  match exec i s with
  | .next t => (t.lane hk l).map fun u => (readReg u d false).setWidth 32
  | _ => none
/-- A predicate of a lane after an instruction. -/
def predOf (i : Instr) (s : State) (l : Nat) (p : BitVec 3) : Option Bool :=
  match exec i s with
  | .next t => (t.lane hk l).map fun u => readPred u p
  | _ => none
/-- How a lane stands after an instruction. -/
def stands (i : Instr) (s : State) (l : Nat) : Option Run :=
  match exec i s with
  | .next t => (t.lane hk l).map fun u => u.run
  | _ => none

def ab (a b : Word) : State := one [a, b]
theorem test_add : gets (.add g0 false 3 (r 1) (rb 2)) (ab 0xFFFFFFFF 2) 0 3 = some 1 ∧
    gets (.addi g0 false 3 (r 1) 0xFFFFFFFF) (ab 0 0) 0 3 = some 0xFFFFFFFF := by decide +kernel
theorem test_add_immediate : gets (.add g0 false 3 (r 1) (.imm 0x8000)) (ab 0 0) 0 3 = some 0xFFFF8000 := by decide +kernel
/-- 05 R101: invalid operations give the canonical NaN. -/
theorem test_canonical_nan : gets (.fadd g0 3 (r 1) (.reg (r 2)) .rn) (ab 0x7F800000 0xFF800000) 0 3 = some 0x7FC00000 ∧
    gets (.fmul g0 3 (r 1) (.reg (r 2)) .rn) (ab 0 0xFF800000) 0 3 = some 0x7FC00000 := by decide +kernel
theorem test_mul : gets (.mulhi g0 false 3 (r 1) (rb 2)) (ab 0xFFFFFFFF 0xFFFFFFFF) 0 3 = some 0xFFFFFFFE ∧
    gets (.mulhs g0 false 3 (r 1) (rb 2)) (ab 0xFFFFFFFF 0xFFFFFFFF) 0 3 = some 0 ∧
    gets (.mad g0 false 3 (r 1) (rb 2) (rc 1)) (ab 7 5) 0 3 = some 42 := by decide +kernel
/-- 05 R95. -/
theorem test_div : gets (.divs g0 3 (r 1) (rb 2)) (ab 0x80000000 0xFFFFFFFF) 0 3 = some 0x80000000 ∧
    gets (.rems g0 3 (r 1) (rb 2)) (ab 0x80000000 0xFFFFFFFF) 0 3 = some 0 ∧
    gets (.div g0 3 (r 1) (rb 2)) (ab 5 0) 0 3 = some 0xFFFFFFFF ∧ gets (.rem g0 3 (r 1) (rb 2)) (ab 5 0) 0 3 = some 5 ∧
    gets (.divs g0 3 (r 1) (rb 2)) (ab 0xFFFFFFF9 2) 0 3 = some 0xFFFFFFFD ∧
    gets (.rems g0 3 (r 1) (rb 2)) (ab 0xFFFFFFF9 2) 0 3 = some 0xFFFFFFFF := by decide +kernel
/-- 05 R96: amounts at and past the width. -/
theorem test_shift : gets (.shl g0 false 3 (r 1) (rb 2)) (ab 1 32) 0 3 = some 0 ∧
    gets (.shr g0 false 3 (r 1) (rb 2)) (ab 0x80000000 31) 0 3 = some 1 ∧
    gets (.sar g0 false 3 (r 1) (rb 2)) (ab 0x80000000 40) 0 3 = some 0xFFFFFFFF ∧
    gets (.rot g0 false 3 (r 1) (rb 2)) (ab 0x80000001 33) 0 3 = some 3 := by decide +kernel
/-- 05 R96: position in b[7:0], length in b[15:8]. -/
theorem test_fields : gets (.bfx g0 false 3 (r 1) (rb 2)) (ab 0xABCD1234 0x0808) 0 3 = some 0x12 ∧
    gets (.bfxs g0 false 3 (r 1) (rb 2)) (ab 0x0000F000 0x080C) 0 3 = some 0xF ∧
    gets (.bfxs g0 false 3 (r 1) (rb 2)) (ab 0x0000F000 0x040C) 0 3 = some 0xFFFFFFFF ∧
    gets (.bfi g0 false 3 (r 1) (rb 2) (rc 4)) (one [0xFF, 0x0408, 0, 0xAAAAAAAA]) 0 3 = some 0xAAAAAFAA := by decide +kernel
theorem test_bits : gets (.clz g0 false 3 (r 1)) (ab 0 0) 0 3 = some 32 ∧ gets (.popc g0 false 3 (r 1)) (ab 0xF0F 0) 0 3 = some 8 ∧
    gets (.brev g0 false 3 (r 1)) (ab 1 0) 0 3 = some 0x80000000 ∧
    gets (.andn g0 false 3 (r 1) (rb 2)) (ab 0xFF 0x0F) 0 3 = some 0xF0 ∧
    gets (.lea g0 false 3 (r 1) (rb 2) 3) (ab 0x10 4) 0 3 = some 0x30 := by decide +kernel
theorem test_pairs : gets (.add g0 true 4 (r 2) (.imm 1)) (one [0, 0xFFFFFFFF, 0, 0, 0]) 0 5 = some 1 ∧
    gets (.add g0 true 0 (r 2) (.imm 1)) (one [7, 1]) 0 1 = some 7 := by decide +kernel
theorem test_icmp : predOf (.icmp g0 false 2 (r 1) (.imm 0xFFFF) .ult) (ab 5 0) 0 2 = some true ∧
    predOf (.icmp g0 false 2 (r 1) (.imm 0xFFFF) .slt) (ab 5 0) 0 2 = some false ∧
    predOf (.icmp g0 false 0 (r 1) (rb 2) .ne) (ab 5 5) 0 0 = some true := by decide +kernel
/-- 03 R41: with PG 0 and PN 1 no thread performs. -/
theorem test_guard : gets (.movi ⟨0, true⟩ false 3 9) (one [0, 0, 5]) 0 3 = some 5 := by decide +kernel
/-- 03 R50. -/
theorem test_empty : stands (.mov g0 false 3 ⟨1, .none, true⟩) (wd tm0 hd0 [{ th [] with full := [true, false] }] 1) 0 = some (.stopped 5) ∧
    stands (.mov g0 false 3 (r 1)) (wd tm0 hd0 [{ th [] with full := [true, false] }] 1) 0 = some (.regs 0 [(1, false), (3, false)]) := by decide +kernel

/-- 05 R99 to R104, on FP32 patterns: 1 + 2, 1/0, 0·∞, the signs of zeros, the square root of 4, 2^24 + 1 to even. -/
theorem test_float : gets (.fadd g0 3 (r 1) (rb 2) .rn) (ab 0x3F800000 0x40000000) 0 3 = some 0x40400000 ∧
    gets (.fdiv g0 3 (r 1) (rb 2) .rn) (ab 0x3F800000 0) 0 3 = some 0x7F800000 ∧
    gets (.fmul g0 3 (r 1) (rb 2) .rn) (ab 0 0x7F800000) 0 3 = some 0x7FC00000 ∧
    gets (.fsub g0 3 (r 1) (rb 2) .rd) (ab 0x3F800000 0x3F800000) 0 3 = some 0x80000000 ∧
    gets (.fsqrt g0 3 (r 1) .rn) (ab 0x40800000 0) 0 3 = some 0x40000000 ∧
    gets (.i2f g0 3 (r 1) .rn true) (ab 16777217 0) 0 3 = some 0x4B800000 := by decide +kernel
theorem test_float_functions : gets (.fexp2 g0 3 (r 1)) (ab 0x40400000 0) 0 3 = some 0x41000000 ∧
    gets (.flog2 g0 3 (r 1)) (ab 0x41000000 0) 0 3 = some 0x40400000 ∧
    gets (.frnd g0 3 (r 1) .rn) (ab 0xBE800000 0) 0 3 = some 0x80000000 ∧
    gets (.f2i g0 3 (r 1) .rz false) (ab 0xBFC00000 0) 0 3 = some 0xFFFFFFFF := by decide +kernel

/-- 06: the worked example's 4-bit format under scale byte 0x81, and back; E4M3 gives 448 the code 0x7E. -/
def fmt4 (a b c : Word) : State := wd { tm0 with fmts := [0, 0x50115] } hd0 [th [a, b, c]] 1
theorem test_formats : gets (.cvtN g0 4 (r 1) (r 2) (rc 3) .rn .reg 1 2) (fmt4 0x40C00000 0x81 0xFFFFFFFF) 0 4 = some 0xFFFFF3FF ∧
    gets (.cvtN g0 4 (r 1) (r 2) (rc 3) .rn .reg 1 0) (fmt4 0x41A00000 0x81 0) 0 4 = some 6 ∧
    gets (.cvtN g0 4 (r 1) (r 2) (rc 3) .rn .reg 1 0) (fmt4 0xBF99999A 0x81 0) 0 4 = some 9 ∧
    gets (.cvtN g0 4 (r 1) (r 2) (rc 3) .rn .reg 1 0) (fmt4 0x41F00000 0x81 0) 0 4 = some 7 ∧
    gets (.cvtW g0 4 (r 1) (r 2) .rn 1 2) (fmt4 0xF6FF 0x81 0) 0 4 = some 0x41800000 ∧
    gets (.cvtN g0 4 (r 1) (r 2) (rc 3) .rn .sat 0 0) (wd { tm0 with fmts := [0x739] } hd0 [th [0x43E00000]] 1) 0 4 = some 0x7E := by
  decide +kernel
/-- 05 R105, R106: halves 1 and 2; the E4M3 codes 0x38, 1.0, four times, added to 0.5. -/
theorem test_packed : gets (.hadd2 g0 3 (r 1) (r 2) .rn false) (ab 0x40003C00 0x3C003C00) 0 3 = some 0x42004000 ∧
    gets (.hmul2 g0 3 (r 1) (r 2) .rn true) (ab 0x40003F80 0x40003F80) 0 3 = some 0x40803F80 ∧
    gets (.fdot4 g0 4 (r 1) (r 2) (rc 3) .rn 0) (wd { tm0 with fmts := [0x739] } hd0 [th [0x38383838, 0x38383838, 0x3F000000]] 1) 0 4 =
      some 0x40900000 := by decide +kernel
/-- 06 R136: an unacceptable value. -/
theorem test_fmtset : stands (.fmtset g0 0 (r 1)) (ab 0x00030739 0) 0 = some (.stopped 1) := by decide +kernel

/-- 05 R111 to R116, over four lanes. -/
def digits : State := four [[1, 3], [2, 2], [3, 1], [4, 9]]
theorem test_exchange : gets (.xlget g0 false 3 (rc 1) (rc 2)) digits 0 3 = some 4 ∧
    gets (.xlget g0 false 3 (rc 1) (rc 2)) digits 3 3 = some 0 ∧ gets (.xlput g0 false 3 (rc 1) (rc 2)) digits 1 3 = some 3 ∧
    gets (.xlput g0 false 3 (rc 1) (rc 2)) digits 0 3 = some 0 ∧ gets (.xlbcast g0 false 3 (rc 1) 2) digits 3 3 = some 3 ∧
    gets (.lanel g0 false 3 (rc 1)) digits 1 3 = some 1 ∧ gets (.laner g0 false 3 (rc 1)) digits 3 3 = some 0 := by decide +kernel
theorem test_reduce : gets (.xlred g0 false 3 (rc 1) .iadd) digits 2 3 = some 10 ∧
    gets (.xlscan g0 false 3 (rc 1) .iadd true) digits 3 3 = some 6 ∧ gets (.xlscan g0 false 3 (rc 1) .xor false) digits 2 3 = some 0 ∧
    gets (.xlredKey g0 false 3 (rc 1) (rc 2) .iadd) (four [[1, 7], [2, 8], [3, 7], [4, 7]]) 0 3 = some 8 ∧
    gets (.xlredKey g0 false 3 (rc 1) (rc 2) .iadd) (four [[1, 7], [2, 8], [3, 7], [4, 7]]) 3 3 = some 0 ∧
    gets (.confl g0 false 3 (r 2) 1 4) (four [[1, 7], [2, 8], [3, 7], [4, 7]]) 3 4 = some 2 := by decide +kernel
def some13 : State := wd tm0 hd0 ([0, 2, 0, 2].map fun p => { met [] with preds := p }) 0xF
theorem test_vote : gets (.xlvoteBallot g0 false 3 1) some13 0 3 = some 0xA ∧ gets (.xlvoteCount g0 3 1) some13 2 3 = some 2 ∧
    predOf (.xlvoteAny g0 2 1) some13 0 2 = some true ∧ predOf (.xlvoteAll g0 2 1) some13 0 2 = some false := by decide +kernel
/-- 03 R49: a rotation by 1 within pairs of lanes. -/
theorem test_modifier : gets (.mov g0 false 3 ⟨1, .rot 1 1, false⟩) digits 1 3 = some 1 ∧
    gets (.mov g0 false 3 ⟨1, .bfly 0 3, false⟩) digits 0 3 = some 4 := by decide +kernel

/-- A function whose first 64 KiB map to the first locations of its carve-out, at location 0. -/
def page0 : Page := ⟨0, 65536, .resident, true, true, true, false, 0, 0, 0, 0, [], [], [], 0, 0, 0⟩
def func0 : Func := { Func.reset with segs := [0x8000000000100000, 0, 0], pages := [page0] }
/-- A line of five NOPs whose slots may all be entered. -/
def nops : Line := BitVec.ofNat 512 ((0x6000001F : Nat) * 2 ^ 480)
/-- Two such lines, at 0 and 64. -/
def mapped (s : State) : State := { s with
  funcs := [(0, func0)]
  mem := { s.mem with dram := memWrite [] 0 (bytesOfNat 64 nops.toNat ++ bytesOfNat 64 nops.toNat) } }
def pcAfter (i : Instr) (s : State) (l : Nat) : Option Dword :=
  match exec i s with
  | .next t => (t.lane hk l).map fun u => u.pc
  | _ => none
/-- 03 R46: the next line's slot 3; 04 R77: JMP to slot 5 is no target. -/
theorem test_branch : pcAfter (.bra g0 3 1) (mapped (ab 0 0)) 0 = some 0x43 ∧ pcAfter (.jmp g0 (rc 2)) (mapped (one [0, 0x41, 0])) 0 = some 0x41 ∧
    stands (.jmp g0 (rc 2)) (mapped (one [0, 0x45, 0])) 0 = some (.stopped 4) ∧
    stands (.jmp g0 (rc 2)) (mapped (one [0, 0, 0x01000000])) 0 = some (.stopped 0x10) := by decide +kernel
/-- 04 R78: two of four votes. -/
theorem test_voted_branch : pcAfter (.brpAny g0 1 2 1) (mapped some13) 0 = some 0x42 ∧ pcAfter (.brpAll g0 1 2 1) (mapped some13) 1 = some 1 ∧
    pcAfter (.brpNone g0 1 2 1) (mapped some13) 1 = some 1 := by decide +kernel
/-- 04 R79: a table of one entry, the target 0x42, and the default 0x44, at scratchpad 0x100. -/
def table : State := (mapped (ab 0 0)).spWrite hostTeamId tm0 0x100 (bytesOfNat 24 (1 + 2 ^ 32 + 0x44 * 2 ^ 64 + 0x42 * 2 ^ 128))
theorem test_jtab : pcAfter (.jtab g0 (rc 0) (rc 1) 0x100) table 0 = some 0x42 := by decide +kernel
/-- 04 R81 to R85. -/
theorem test_waits : stands (.exit g0) (ab 0 0) 0 = some .exited ∧ stands (.tbar g0) (ab 0 0) 0 = some .tbar ∧
    stands (.trap g0 7) (ab 0 0) 0 = some (.stopped 0x3F) ∧ stands (.brk g0 7) (ab 0 0) 0 = some .ready := by decide +kernel
/-- 04 R77: a team without a stack has no room for a frame. -/
theorem test_call : stands (.call g0 0 1) (mapped (ab 0 0)) 0 = some (.stopped 0x0A) := by decide +kernel

/-- 07 R144: a negative halfword at 18, and bytes beyond it. -/
def bytes16 : State := (one [16]).spWrite hostTeamId tm0 16 [0xEF, 0xBE, 0xAD, 0x80]
theorem test_load : gets (.ld g0 3 (r 1) .h true none 2 .sp) bytes16 0 3 = some 0xFFFF80AD ∧
    gets (.ld g0 3 (r 1) .w false none 0 .sp) bytes16 0 3 = some 0x80ADBEEF ∧
    gets (.ld g0 3 (r 1) .b false none 1 .sp) bytes16 0 3 = some 0xBE := by decide +kernel
/-- 07 R140: the last word of 16 KiB, one past it, and a misaligned one. -/
theorem test_load_bounds : gets (.ld g0 3 (r 1) .w false none 0 .sp) (one [16380]) 0 3 = some 0 ∧
    stands (.ld g0 3 (r 1) .w false none 4 .sp) (one [16380]) 0 = some (.stopped 8) ∧
    stands (.ld g0 3 (r 1) .w false none 1 .sp) (one [16]) 0 = some (.stopped 9) := by decide +kernel
/-- A store joins the queue; a bank then writes it. -/
def qd (op : AccOp) : State := wd tm0 { hd0 with storeQ := [⟨0, 0, 0, op, none, none, 0⟩], seq := 1 } [th [0, 0x11223344]] 1
def after (i : Instr) (s : State) (f : State → Nat) : Option Nat :=
  match exec i s with
  | .next t => some (f t)
  | _ => none
theorem test_store : after (.st g0 (r 1) (rc 2) .w none 8 .sp) (ab 0 5) (fun t => match aget hk t.hands with
      | some h => h.storeQ.length
      | none => 0) = some 1 ∧
    after (.scratchpadBankAccept hk) (qd (.spStore 8 2 0x3344)) (fun t => t.spNat hostTeamId tm0 8 4) = some 0x3344 := by decide +kernel
theorem test_atomics : after (.scratchpadBankAccept hk) (qd (.spAtom 8 .add false 7 0 0)) (fun t => t.spNat hostTeamId tm0 8 4) = some 7 ∧
    atomWide .inc false 5 5 0 = 0 ∧ atomWide .mins false 0xFFFFFFFF 1 0 = 0xFFFFFFFF ∧ atomWide .cas false 4 9 4 = 9 ∧
    atomWide .fadd false 0x3F800000 0x3F800000 0 = 0x40000000 := by decide +kernel
/-- 07 R158: 16 bytes and one arrival expected. -/
theorem test_barrier : (Barrier.landed ⟨16, 16, false, false, 0, 1⟩ 16) = ⟨16, 0, false, false, 0, 1⟩ ∧
    (Barrier.arrive ⟨16, 0, false, false, 0, 1⟩) = ⟨16, 16, true, false, 0, 1⟩ ∧
    (Barrier.landed ⟨16, 8, false, false, 0, 1⟩ 16) = ⟨16, 0, false, true, 0, 1⟩ := by decide +kernel
/-- 07 R154: TREADY, and TGET.E of what TSET wrote: base 64, 64 rows and columns. -/
theorem test_tiles : gets (.tgetE g0 false 3 0) (wd tm0 hd0 [th []] 1) 0 3 = some 0 ∧
    after (.tset g0 5 (rc 1) (rc 2) 0 0 63 63 0) (ab 64 0) (fun t => (tileAt t ⟨0, 0⟩ 5).nrow) = some 63 ∧
    stands (.tset g0 5 (rc 1) (rc 2) 0 0 63 63 0) (ab 63 0) 0 = some (.stopped 9) := by decide +kernel

/-- 08 R177: 2·3 added to 1, in FP32, and as INT32. -/
theorem test_caxpy : axpyNew .f32 0x3F800000 0x40000000 0x40400000 = 0x40E00000 ∧ axpyNew .i32 1 2 3 = 7 := by decide +kernel
/-- 09 R203: an idle channel; 05 R90. -/
theorem test_reads : gets (.chstat g0 3 2) (ab 0 0) 0 3 = some 0 ∧ gets (.srd g0 false 3 .width) (ab 0 0) 0 3 = some 4 ∧
    gets (.srd g0 false 3 .pmask) (ab 0 0) 0 3 = some 0xF ∧ gets (.foldq g0 3) (ab 0 0) 0 3 = some 0 := by decide +kernel
/-- 14 R308: the example of a device physical address. -/
theorem test_location : pchOf 0x12345678 = 1301 ∧ 0x12345678 / 1024 / 2048 = 145 ∧ 0x12345678 % 1024 = 0x278 := by decide +kernel
/-- 15 R348: the example's header. -/
theorem test_packet : (packetBytes ⟨17, 5, .ingress, 3, 2, 0x42, [0, 0]⟩ false 0).take 16 =
    [0, 0, 0, 0, 0x42, 0, 0, 0, 0x0D, 0x02, 0x50, 0, 0, 0x44, 0, 0] := by decide +kernel

/-- A row accumulator with one word at element 0. -/
def row (x : Nat) : BitVec 8192 := BitVec.ofNat 8192 x
/-- A unit whose n1 and n2 hold words, at a row operation. -/
def unitAt (x y m : Nat) : State := (placeRowOp State.reset 0).modPch 0 fun u => { u with
  n := [0, row x, row y, 0, 0, 0, 0, 0]
  m := m }
def rowGives (i : Instr) (s : State) (d : Nat) : Option Nat :=
  match exec i s with
  | .next t => some (elem 32 ((t.pch 0).reg (BitVec.ofNat 3 d)) 0)
  | _ => none
/-- 12 R262, R264. -/
theorem test_rows : rowGives (.nadd 3 1 2 .f32) (unitAt 0x3F800000 0x40000000 0) 3 = some 0x40400000 ∧
    rowGives (.nsub 3 1 2 .i32) (unitAt 0 1 0) 3 = some 0xFFFFFFFF ∧ rowGives (.nmul 3 1 2 .i32) (unitAt 0x10000 0x10000 0) 3 = some 0 ∧
    rowGives (.nmax 3 1 2 .i32) (unitAt 0xFFFFFFFF 1 0) 3 = some 1 ∧ rowGives (.nsel 3 1 2) (unitAt 5 9 0) 3 = some 9 := by decide +kernel
theorem test_rows_more : rowGives (.ncmp 3 1 2 .i32 .lt) (unitAt 0xFFFFFFFF 1 0) 3 = some 0xFFFFFFFF ∧
    rowGives (.nsum 3 1 .i32) (unitAt (5 + 7 * 2 ^ 32) 0 0) 3 = some 12 ∧ rowGives (.nsetImm 3 0x8000) (unitAt 0 0 0) 3 = some 0xFFFF8000 ∧
    rowGives (.ncvt 3 1 .i2f .rn) (unitAt 3 0 0) 3 = some 0x40400000 := by decide +kernel
theorem test_row_jumps : after (.njmp true 0) (unitAt 0 0 0) (fun t => (t.pch 0).pc) = some 0 ∧
    after (.njmp true 0) (unitAt 0 0 1) (fun t => (t.pch 0).pc) = some 1 := by decide +kernel

/-! ## States and operands that meet the hypotheses of the obligations -/

def readable : Ready → Bool
  | .ok _ => true
  | _ => false

theorem readable_ok {x : Ready} (h : readable x = true) : ∃ v, x = .ok v := by
  cases x with
  | ok v => exact ⟨v, rfl⟩
  | _ => simp [readable] at h

theorem can {s : State} {sh : Shape} {h : HandKey} {tm : Team} {ls : List Nat} (hf : inFocus s = some (h, tm, ls))
    (ha : (!sh.modified || allArrived s h ls) = true)
    (hr : ((performers s sh h tm.w ls).all fun l => readable (readOpnds s h tm.w sh l)) = true) : CanPerform s sh h tm ls :=
  ⟨hf, fun hm => by simpa [hm] using ha, fun l hl => readable_ok (List.all_eq_true.mp hr l hl)⟩

theorem onlyOne {s : State} {sh : Shape} {h : HandKey} {tm : Team} {l : Nat} {v : Vals} (hf : inFocus s = some (h, tm, [l]))
    (ha : (!sh.modified || allArrived s h [l]) = true) (hp : performers s sh h tm.w [l] = [l])
    (hr : readOpnds s h tm.w sh l = .ok v) : OneLane s sh h tm l v :=
  ⟨hf, fun hm => by simpa [hm] using ha, hp, hr⟩

theorem cross {s : State} {sh : Shape} {src : List Nat → Nat → Dword → Option Nat} {h : HandKey} {tm : Team} {ls : List Nat}
    (hf : inFocus s = some (h, tm, ls)) (ha : allArrived s h ls = true)
    (hr : ((performers s sh h tm.w ls).all fun l => readable (crossReady s h tm.w sh
      (src (performers s sh h tm.w ls) l (indexSeen s h tm.w sh l)) l)) = true) : CanCross s sh src h tm ls :=
  ⟨hf, ha, fun l hl => readable_ok (List.all_eq_true.mp hr l hl)⟩

/-- Four threads that have not met, in focus. -/
def apart (rs : List (List Word)) : State := wd tm0 hd0 (rs.map th) 0xF
def top : State := apart [[1, 31], [2, 32], [0x80000000, 0xFFFFFFFF], [4, 0]]

theorem witness_IntegerResults : CanPerform top (shapeAB g0 false 15 (r 1) (rb 2)) hk tm0 [0, 1, 2, 3] ∧
    CanPerform top (shapeAB g0 true 14 (r 0) (rb 2)) hk tm0 [0, 1, 2, 3] ∧ CanPerform top (shapeA g0 false 3 (r 15)) hk tm0 [0, 1, 2, 3] ∧
    CanPerform top ⟨g0, srcOp (r 1) false, srcbOp (.imm 0x8000) false, csrcOp (rc 2) false, [(3, false)]⟩ hk tm0 [0, 1, 2, 3] ∧
    CanPerform top ⟨g0, noOp, noOp, noOp, [(3, false)]⟩ hk tm0 [0, 1, 2, 3] ∧
    CanPerform digits (shapeAB g0 false 3 ⟨1, .rot 0 1, false⟩ (rb 2)) hk tm0 [0, 1, 2, 3] :=
  ⟨can rfl (by decide +kernel) (by decide +kernel), can rfl (by decide +kernel) (by decide +kernel),
    can rfl (by decide +kernel) (by decide +kernel), can rfl (by decide +kernel) (by decide +kernel),
    can rfl (by decide +kernel) (by decide +kernel), can rfl (by decide +kernel) (by decide +kernel)⟩
/-- The quotient's corners: by 0, and the most negative by −1. -/
theorem witness_DivisionResults : CanPerform top (shapeAB g0 false 3 (r 1) (rb 2)) hk tm0 [0, 1, 2, 3] ∧
    readOpnds top hk 4 (shapeAB g0 false 3 (r 1) (rb 2)) 2 = .ok ⟨0x80000000, 0xFFFFFFFF, 0⟩ ∧
    readOpnds top hk 4 (shapeAB g0 false 3 (r 1) (rb 2)) 3 = .ok ⟨4, 0, 0⟩ :=
  ⟨can rfl (by decide +kernel) (by decide +kernel), by decide +kernel, by decide +kernel⟩
/-- The last amount below the width, and the width. -/
theorem witness_ShiftResults : CanPerform top (shapeAB g0 false 3 (r 1) (rb 2)) hk tm0 [0, 1, 2, 3] ∧
    readOpnds top hk 4 (shapeAB g0 false 3 (r 1) (rb 2)) 0 = .ok ⟨1, 31, 0⟩ ∧
    readOpnds top hk 4 (shapeAB g0 false 3 (r 1) (rb 2)) 1 = .ok ⟨2, 32, 0⟩ ∧
    CanPerform top ⟨g0, srcOp (r 1) true, srcbOp (rb 2) true, csrcOp (rc 4) true, [(6, true)]⟩ hk tm0 [0, 1, 2, 3] := by
  refine ⟨can rfl ?_ ?_, ?_, ?_, can rfl ?_ ?_⟩ <;> decide +kernel
theorem witness_PredicatesAndZero : CanPerform top ⟨g0, srcOp (r 1) false, srcbOp (rb 2) false, noOp, []⟩ hk tm0 [0, 1, 2, 3] ∧
    CanPerform top (bare g0) hk tm0 [0, 1, 2, 3] ∧ CanPerform top (shapeAB g0 true 0 (r 2) (rb 4)) hk tm0 [0, 1, 2, 3] ∧
    (255 : BitVec 8).getLsbD 0 = true := by
  refine ⟨can rfl ?_ ?_, can rfl ?_ ?_, can rfl ?_ ?_, ?_⟩ <;> decide +kernel
/-- A NaN in A, and in B alone. -/
theorem witness_FloatResults : CanPerform (one [0x7FC00001, 1]) ⟨g0, srcOp (r 1) false, srcbFp (rb 2), noOp, [(3, false)]⟩ hk tm0 [0] ∧
    CanPerform top ⟨g0, srcOp (r 1) false, srcbFp (.imm 0xFF81), noOp, [(3, false)]⟩ hk tm0 [0, 1, 2, 3] ∧
    (unpack fp32 0x7FC00001).isNan = true ∧ (unpack fp32 0xFF810000).isNan = true ∧
    CanPerform top ⟨g0, srcOp (r 1) false, srcbFp (rb 2), noOp, []⟩ hk tm0 [0, 1, 2, 3] ∧
    CanPerform top ⟨g0, srcOp (r 1) false, srcbFp (rb 2), csrcOp (rc 3) false, [(4, false)]⟩ hk tm0 [0, 1, 2, 3] := by
  refine ⟨can rfl ?_ ?_, can rfl ?_ ?_, ?_, ?_, can rfl ?_ ?_, can rfl ?_ ?_⟩ <;> decide +kernel
/-- The last slot of a 4-bit format. -/
theorem witness_PackedResults : CanPerform (fmt4 1 2 3) ⟨g0, srcOp (r 1) false, srcOp (r 2) false, csrcOp (rc 3) false, [(4, false)]⟩ hk
      { tm0 with fmts := [0, 0x50115] } [0] ∧ (∀ l ∈ [0], 7 * fmtField (fmtView (fmt4 1 2 3) (threadOf hk l) 1) < 32) ∧
    CanPerform (fmt4 1 2 3) ⟨g0, srcOp (r 1) false, srcOp (r 2) false, noOp, [(4, false)]⟩ hk { tm0 with fmts := [0, 0x50115] } [0] := by
  refine ⟨can rfl ?_ ?_, ?_, can rfl ?_ ?_⟩ <;> decide +kernel
theorem witness_FormatRegisters : (OneLane (ab 0 0) (bare g0) hk tm0 0 ⟨0, 0, 0⟩ ∧ fmtAccepted 0x7FF7F = false ∧ fmtAccepted 0x2FF31 = true ∧
      tm0.detMode = false) ∧
    (OneLane (ab 0x739 0) ⟨g0, srcOp (r 1) false, noOp, noOp, []⟩ hk tm0 0 ⟨0x739, 0, 0⟩ ∧ fmtAccepted 0x739 = true) ∧
    (OneLane (ab 0x30739 0) ⟨g0, srcOp (r 1) false, noOp, noOp, []⟩ hk tm0 0 ⟨0x30739, 0, 0⟩ ∧ (r 1).mod = .none ∧
      fmtAccepted 0x30739 = false) ∧
    CanPerform top ⟨g0, noOp, noOp, noOp, [(3, false)]⟩ hk tm0 [0, 1, 2, 3] := by
  refine ⟨⟨onlyOne rfl ?_ ?_ ?_, ?_, ?_, ?_⟩, ⟨onlyOne rfl ?_ ?_ ?_, ?_⟩, ⟨onlyOne rfl ?_ ?_ ?_, ?_, ?_⟩, can rfl ?_ ?_⟩ <;> decide +kernel
theorem witness_Votes : CanCross some13 ⟨g0, noOp, noOp, noOp, [(3, false)]⟩ ownLane hk tm0 [0, 1, 2, 3] ∧
    CanCross some13 ⟨g0, noOp, noOp, noOp, []⟩ ownLane hk tm0 [0, 1, 2, 3] := by
  refine ⟨cross rfl ?_ ?_, cross rfl ?_ ?_⟩ <;> decide +kernel
/-- A team of two hands of a chain, the second in focus; the last lane of the first has arrived with the value 5. -/
def hk1 : HandKey := ⟨hostTeamId, 1⟩
def tmC : Team := { tm0 with chain := true, hands := 2 }
def chained : State := { State.reset with
  teams := [(hostTeamId, tmC)]
  hands := [(hk, hd0), (hk1, hd0)]
  threads := [(threadOf hk 3, { met [] with arrivals := [(0, .value 5)] }), (threadOf hk1 0, met [])]
  focus := .bundle hk1 1 }
/-- The first lane of the second team of a chain; the first team has retired, and its last lane had arrived with 6. -/
def tmP : Team := { tmC with hands := 1, index := 1 }
def retired : State := { State.reset with
  teams := [(hostTeamId, tmP)]
  hands := [(hk, hd0)]
  threads := [(threadOf hk 0, met [])]
  groups := [(groupOf tmP, ⟨7, false, false, 0, 0, false, 0, [⟨0, 1, 0⟩, hostTeamId], none, (1, 4), [(0, [], [(0, .value 6)])]⟩)]
  focus := .bundle hk 1 }
/-- An index at the last lane and one beyond the hand; the ends of a chain. -/
theorem witness_CrossLane : CanCross digits ⟨g0, csrcOp (rc 1) false, csrcOp (rc 2) false, noOp, [(3, false)]⟩
      (fun p _ y => if p.contains (index32 y) then some (index32 y) else none) hk tm0 [0, 1, 2, 3] ∧
    CanCross digits ⟨g0, csrcOp (rc 1) false, csrcOp (rc 2) false, noOp, [(3, false)]⟩ ownLane hk tm0 [0, 1, 2, 3] ∧
    CanCross digits ⟨g0, csrcOp (rc 1) false, noOp, noOp, [(3, false)]⟩ (fun p _ _ => if p.contains 3 then some 3 else none) hk tm0 [0, 1, 2, 3] ∧
    CanCross digits ⟨g0, csrcOp (rc 1) false, noOp, noOp, [(3, false)]⟩ (fun p _ _ => p.head?) hk tm0 [0, 1, 2, 3] ∧
    (CanCross digits ⟨g0, csrcOp (rc 1) false, noOp, noOp, [(3, false)]⟩ (fun p l _ => match handNeighbour tm0.w l true with
        | some n => if p.contains n then some n else none
        | none => none) hk tm0 [0, 1, 2, 3] ∧ tm0.chain = false) ∧
    (CanCross chained ⟨g0, csrcOp (rc 1) false, noOp, noOp, [(3, false)]⟩ (fun _ _ _ => none) hk1 tmC [0] ∧
      performers chained ⟨g0, csrcOp (rc 1) false, noOp, noOp, [(3, false)]⟩ hk1 tmC.w [0] = [0] ∧
      chainNeighbour chained tmC (threadOf hk1 0) true = some (.lane (threadOf hk 3)) ∧ chained.lane hk1 0 = some (met []) ∧
      farValue chained tmC (.lane (threadOf hk 3)) (met []).pc = some (.value 5)) ∧
    (CanCross retired ⟨g0, csrcOp (rc 1) false, noOp, noOp, [(3, false)]⟩ (fun _ _ _ => none) hk tmP [0] ∧
      performers retired ⟨g0, csrcOp (rc 1) false, noOp, noOp, [(3, false)]⟩ hk tmP.w [0] = [0] ∧
      chainNeighbour retired tmP (threadOf hk 0) true = some (.past 0 false) ∧ retired.lane hk 0 = some (met []) ∧
      farValue retired tmP (.past 0 false) (met []).pc = some (.value 6)) := by
  refine ⟨cross rfl ?_ ?_, cross rfl ?_ ?_, cross rfl ?_ ?_, cross rfl ?_ ?_, ⟨cross rfl ?_ ?_, ?_⟩, ⟨cross rfl ?_ ?_, ?_, ?_, ?_, ?_⟩,
    ⟨cross rfl ?_ ?_, ?_, ?_, ?_, ?_⟩⟩ <;> decide +kernel
theorem witness_Reductions : CanCross digits ⟨g0, csrcOp (rc 1) false, csrcOp (rc 2) false, noOp, [(3, false)]⟩ ownLane hk tm0 [0, 1, 2, 3] ∧
    CanCross digits ⟨g0, csrcOp (rc 2) true, noOp, noOp, [(14, true)]⟩ ownLane hk tm0 [0, 1, 2, 3] ∧
    CanCross digits ⟨g0, srcOp (r 1) false, noOp, noOp, [(3, false), (4, false)]⟩ ownLane hk tm0 [0, 1, 2, 3] := by
  refine ⟨cross rfl ?_ ?_, cross rfl ?_ ?_, cross rfl ?_ ?_⟩ <;> decide +kernel
/-- Rotations by −64 and by a segment's size, the last lane of a segment. -/
theorem witness_SourceLanes : CanPerform digits (shapeA g0 false 3 ⟨1, .rot 1 0x40, false⟩) hk tm0 [0, 1, 2, 3] ∧
    0 < segSize 6 4 ∧ (63 : BitVec 7).toNat < segSize 6 4 ∧ (0x40 : BitVec 7).toInt % (segSize 1 4 : Int) = 0 ∧ segSize 6 4 = 2 ^ 6 := by
  refine ⟨can rfl ?_ ?_, ?_, ?_, ?_, ?_⟩ <;> decide +kernel

/-- A target in the second line of NOPs: its last slot. -/
theorem enters_mapped {s : State} (h : (decide (translate s 0 64 .fetch = .dram 64 (some 0)) && mayServe s (pchOf 64) (engineLane 0 false) &&
    decide ((s.pch (pchOf 64)).served (engineLane 0 false) = s.pch (pchOf 64)) && !dramPoisoned s (locOf 64) 64 &&
    decide (nops = BitVec.ofNat 512 (natOfBytes (dramRead s 64 64))) && decide ((s.func 0).page 64 = some page0) &&
    decide (s.glitch = 0)) = true) : Enters s 0 0x44 nops := by
  simp only [Bool.and_eq_true, decide_eq_true_eq, Bool.not_eq_true'] at h
  obtain ⟨⟨⟨⟨⟨⟨ht, hs⟩, hd⟩, hp⟩, hl⟩, hpage⟩, hg⟩ := h
  exact ⟨by decide +kernel, ⟨64, some 0, ht, hs, hd, hp, hl⟩,
    fun p h => by cases hpage.symm.trans h; decide +kernel, hg, by decide +kernel, by decide +kernel, by decide +kernel, by decide +kernel⟩

theorem witness_Branches : (CanPerform (mapped (ab 0 0)) (bare g0) hk tm0 [0] ∧ relTarget (pcOf (mapped (ab 0 0)) (threadOf hk 0)) 4 1 = 0x44 ∧
      Enters (mapped (ab 0 0)) tm0.func 0x44 nops) ∧
    (CanPerform (mapped (one [0, 0x44, 0])) ⟨g0, csrcOp (rc 2) true, noOp, noOp, []⟩ hk tm0 [0] ∧
      (csrcOp (rc 2) true).value (mapped (one [0, 0x44, 0])) hk 4 0 = 0x44 ∧ Enters (mapped (one [0, 0x44, 0])) tm0.func 0x44 nops) ∧
    (inFocus (mapped some13) = some (hk, tm0, [0, 1, 2, 3]) ∧ allArrived (mapped some13) hk [0, 1, 2, 3] = true ∧
      (∀ l ∈ [0, 1, 2, 3], pcOf (mapped some13) (threadOf hk l) = 0) ∧ relTarget 0 4 1 = 0x44 ∧ Enters (mapped some13) tm0.func 0x44 nops) := by
  refine ⟨⟨can rfl ?_ ?_, ?_, enters_mapped ?_⟩, ⟨can rfl ?_ ?_, ?_, enters_mapped ?_⟩, ⟨rfl, ?_, ?_, ?_, enters_mapped ?_⟩⟩ <;> decide +kernel

/-- A team whose threads have areas of 64 bytes, in the second 4 KiB, and one thread whose hand's cache holds its line. -/
def tmS : Team := { tm0 with region := [BitVec.ofNat 128 (3 * 2 ^ 125 + 256 * 2 ^ 64 + 4096)] }
def stacked (depth : Nat) (bs : List Word) (data : BitVec 512) : State := mapped (wd tmS { hd0 with stack := [⟨0, 0, data, false⟩] }
  [{ th bs with depth := depth }] 1)
/-- The first frame, and the last one that fits. -/
theorem witness_CallsAndReturns : (OneLane (stacked 0 [] 0) (bare g0) hk tmS 0 ⟨0, 0, 0⟩ ∧ relTarget 0 4 1 = 0x44 ∧
      Enters (stacked 0 [] 0) tmS.func 0x44 nops ∧ 8 * (0 + 1) ≤ stackSize tmS ∧
      (stackPut (stacked 0 [] 0) (threadOf hk 0) (frameAt tmS 0) 8 1).2 = true) ∧
    (OneLane (stacked 7 [0, 0x44, 0] 0) ⟨g0, csrcOp (rc 2) true, noOp, noOp, []⟩ hk tmS 0 ⟨0x44, 0, 0⟩ ∧
      Enters (stacked 7 [0, 0x44, 0] 0) tmS.func 0x44 nops ∧ 8 * (7 + 1) ≤ stackSize tmS ∧
      (stackPut (stacked 7 [0, 0x44, 0] 0) (threadOf hk 0) (frameAt tmS 7) 8 1).2 = true) ∧
    (OneLane (stacked 8 [] 0x44) (bare g0) hk tmS 0 ⟨0, 0, 0⟩ ∧
      (stackGet (stacked 8 [] 0x44) (threadOf hk 0) (frameAt tmS 7) 8).2 = some 0x44 ∧
      Enters (stackGet (stacked 8 [] 0x44) (threadOf hk 0) (frameAt tmS 7) 8).1 tmS.func 0x44 nops) := by
  refine ⟨⟨onlyOne rfl ?_ ?_ ?_, ?_, enters_mapped ?_, ?_, ?_⟩, ⟨onlyOne rfl ?_ ?_ ?_, enters_mapped ?_, ?_, ?_⟩,
    ⟨onlyOne rfl ?_ ?_ ?_, ?_, enters_mapped ?_⟩⟩ <;> decide +kernel

/-- A table of one entry whose default is enabled: the last index in range, and the first beyond it. -/
def tableAt (i : Word) : State := (mapped (ab i 0)).spWrite hostTeamId tm0 0x100 (bytesOfNat 24 (1 + 2 ^ 32 + 0x44 * 2 ^ 64 + 0x44 * 2 ^ 128))
theorem witness_TablesAndJoins : (OneLane (tableAt 0) ⟨g0, csrcOp (rc 0) false, csrcOp (rc 1) false, noOp, []⟩ hk tm0 0 ⟨0, 0, 0⟩ ∧
      bankSteps (tableAt 0) hk = [] ∧ spLoad (tableAt 0) (threadOf hk 0) tm0 0x100 8 8 = .ok (1 + 2 ^ 32) ∧ spLoad (tableAt 0) (threadOf hk 0) tm0 0x110 8 8 = .ok 0x44 ∧
      Enters (tableAt 0) tm0.func 0x44 nops) ∧
    (OneLane (tableAt 1) ⟨g0, csrcOp (rc 0) false, csrcOp (rc 1) false, noOp, []⟩ hk tm0 0 ⟨0, 1, 0⟩ ∧
      bankSteps (tableAt 1) hk = [] ∧ spLoad (tableAt 1) (threadOf hk 0) tm0 0x100 8 8 = .ok (1 + 2 ^ 32) ∧ (1 + 2 ^ 32).testBit 32 = true ∧
      spLoad (tableAt 1) (threadOf hk 0) tm0 0x108 8 8 = .ok 0x44 ∧ Enters (tableAt 1) tm0.func 0x44 nops) ∧
    (inFocus digits = some (hk, tm0, [0, 1, 2, 3]) ∧ allArrived digits hk [0, 1, 2, 3] = true ∧
      digits.lane hk 3 = some (met [4, 9]) ∧ (met [4, 9]).run = .rendezvous 0xF) ∧
    (OneLane (ab 5 0) (bare g0) hk tm0 0 ⟨0, 0, 0⟩ ∧ allArrived (ab 5 0) hk [0] = false ∧
      OneLane (ab 5 0) ⟨g0, csrcOp (rc 1) false, noOp, noOp, []⟩ hk tm0 0 ⟨5, 0, 0⟩) := by
  refine ⟨⟨onlyOne rfl ?_ ?_ ?_, ?_, ?_, ?_, enters_mapped ?_⟩, ⟨onlyOne rfl ?_ ?_ ?_, ?_, ?_, ?_, ?_, enters_mapped ?_⟩, ⟨rfl, ?_, ?_, ?_⟩,
    ⟨onlyOne rfl ?_ ?_ ?_, ?_, onlyOne rfl ?_ ?_ ?_⟩⟩ <;> decide +kernel

theorem witness_BarriersAndExits : (OneLane (ab 0 0) (bare g0) hk tm0 0 ⟨0, 0, 0⟩ ∧ (ab 0 0).lane hk 0 = some (th [0, 0]) ∧
      (th [0, 0]).run = .ready ∧ tm0.chain = false) ∧
    (let tm := { tm0 with live := 1, arr := 1 }
     aget hostTeamId (wd tm hd0 [{ th [] with run := .tbar }] 0).teams = some tm ∧ tm.st = .running ∧ tm.halted = false ∧ tm.commit = 0 ∧
        tm.suspendAt = none ∧ tm.live ≠ 0 ∧ tm.detMode = false ∧ tm.arr = tm.live ∧
        teamSettled (wd tm hd0 [{ th [] with run := .tbar }] 0) hostTeamId = true) ∧
    tm0.arr < tm0.live ∧ tm0.yarr < tm0.live := by
  refine ⟨⟨onlyOne rfl ?_ ?_ ?_, ?_, ?_, ?_⟩, ?_, ?_, ?_⟩ <;> decide +kernel

/-- The same thread, of a function whose debugging is enabled. -/
def debugged (s : State) : State := { s with funcs := [(0, { func0 with debugEn := true })] }
theorem witness_TrapsAndFaults : CanPerform top ⟨g0, .reg 1 false .none false, .reg 15 false .none false, .reg 0 false .none false, []⟩ hk tm0 [0, 1, 2, 3] ∧
    (CanPerform top (bare g0) hk tm0 [0, 1, 2, 3] ∧ (top.func tm0.func).debugEn = false) ∧
    (OneLane (debugged (ab 0 0)) (bare g0) hk tm0 0 ⟨0, 0, 0⟩ ∧ ((debugged (ab 0 0)).func tm0.func).debugEn = true) ∧
    (aget (threadOf hk 0) (wd tm0 hd0 [{ th [] with run := .broken 7 }] 0).threads = some { th [] with run := .broken 7 }) ∧
    (aget (threadOf hk 0) (ab 0 0).threads = some (th [0, 0]) ∧ aget (threadOf hk 0).team (ab 0 0).teams = some tm0) := by
  refine ⟨can rfl ?_ ?_, ⟨can rfl ?_ ?_, ?_⟩, ⟨onlyOne rfl ?_ ?_ ?_, ?_⟩, ?_, ?_, ?_⟩ <;> decide +kernel

/-- A value on its way to v15, the highest register. -/
def toV15 (what : FillWhat) : Fill := ⟨threadOf hk 0, 15, false, what, 0, none⟩
def filling (what : FillWhat) : State := { ab 0 0 with fills := [toV15 (.scratch [8]), toV15 what] }
/-- The same thread, waiting for v15, and exited. -/
def waitsV15 (run : Run) : State := { wd tm0 hd0 [{ th [] with run := run }] 0 with fills := [toV15 (.fault { code := 0x15 }), toV15 (.value 5)] }
/-- A thread whose v1 is empty. -/
def hollow : State := wd tm0 hd0 [{ th [] with full := [true, false] ++ List.replicate 14 true }] 1
theorem witness_EmptyAndFull : (∀ w ∈ [FillWhat.value 5, .time, .foldst, .scratch [0, 1, 2, 3], .fault { code := 0x15 }],
      (filling w).fills = [toV15 (.scratch [8])] ++ toV15 w :: [] ∧ (threadOf hk 0).team.die ≠ 8 ∧ ((filling w).core (coreOf hostTeamId)).halt = false ∧
      aget hostTeamId (filling w).teams = some tm0 ∧ tm0.halted = false ∧ tm0.debug = false ∧
      aget (threadOf hk 0) (filling w).threads = some (th [0, 0]) ∧ (th [0, 0]).run = .ready ∧ (filling w).mem.spPoison = []) ∧
    (∀ run ∈ [Run.regs 0 [(15, false)], .exited], (waitsV15 run).fills = [] ++ toV15 (.fault { code := 0x15 }) :: [toV15 (.value 5)] ∧
      (waitsV15 run).fills = [toV15 (.fault { code := 0x15 })] ++ toV15 (.value 5) :: [] ∧ ((waitsV15 run).core (coreOf hostTeamId)).halt = false ∧
      aget (threadOf hk 0) (waitsV15 run).threads = some { th [] with run := run } ∧ aget hostTeamId (waitsV15 run).teams = some tm0) ∧
    (inFocus hollow = some (hk, tm0, [0]) ∧ ∃ u, hollow.lane hk 0 = some u ∧ guardHolds u g0 = true ∧ isFull u 1 false = false ∧
      isFull u 2 false = true) := by
  refine ⟨?_, ?_, rfl, _, rfl, ?_, ?_, ?_⟩ <;> decide +kernel

theorem witness_SpecialRegisters : (CanPerform top ⟨g0, noOp, noOp, noOp, [(14, true)]⟩ hk tm0 [0, 1, 2, 3] ∧ aget hk top.hands = some hd0 ∧
      tm0.tx ≠ 0 ∧ tm0.ty ≠ 0) ∧ OneLane (ab 0 0) ⟨g0, noOp, noOp, noOp, [(15, false)]⟩ hk tm0 0 ⟨0, 0, 0⟩ ∧
    CanPerform top ⟨g0, srcOp (r 2) false, noOp, noOp, []⟩ hk tm0 [0, 1, 2, 3] := by
  refine ⟨⟨can rfl ?_ ?_, ?_, ?_, ?_⟩, onlyOne rfl ?_ ?_ ?_, can rfl ?_ ?_⟩ <;> decide +kernel

theorem calm {s : State} (h : aget hk s.hands = some hd0 ∧ s.holds = []) : Calm s hk hd0 := ⟨h.1, rfl, rfl, h.2⟩

/-- The last word of the scratchpad; a store of one byte at its end, queued behind another. -/
theorem witness_ScratchpadLoads : (CanPerform (one [16380]) ⟨g0, srcOp (r 1) false, noOp, noOp, [(3, false)]⟩ hk tm0 [0] ∧
      Calm (one [16380]) hk hd0 ∧ bankSteps (one [16380]) hk = [] ∧ Fits (memAddr (laneA (one [16380]) hk ⟨g0, srcOp (r 1) false, noOp, noOp, [(3, false)]⟩ 4 0) 0) 4 tm0.scratch ∧
      (one [16380]).spPoisoned hostTeamId tm0 16380 4 = false) ∧
    (let hd : Hand := { hd0 with storeQ := [⟨0, 0, 0, .spStore 0 8 1, none, none, 0⟩, ⟨1, 0, 0, .spStore 16383 1 5, none, none, 0⟩], seq := 2 }
     (wd tm0 hd [th []] 0).memOk ∧ aget hk (wd tm0 hd [th []] 0).hands = some hd ∧
      (∀ y ∈ hd.storeQ, y.acq = none ∧ (y.op = .spStore 0 8 1 ∨ y.op = .spStore 16383 1 5)) ∧ hd.detBuf = [] ∧
      Fits 16383 1 tm0.scratch ∧ tm0.start % 64 = 0) := by
  refine ⟨⟨can rfl ?_ ?_, calm ⟨?_, ?_⟩, ?_, ⟨?_, ?_⟩, ?_⟩, ?_, ?_, ?_, ?_, ⟨?_, ?_⟩, ?_⟩ <;> decide +kernel

/-- The same team in deterministic mode. -/
def tmD : Team := { tm0 with eff := { tm0.eff with det := 1 } }
theorem witness_ScratchpadStores : (OneLane (one [16376]) ⟨g0, srcOp (r 1) false, csrcOp (rc 2) true, noOp, []⟩ hk tm0 0 ⟨16376, 0, 0⟩ ∧
      aget hk (one [16376]).hands = some hd0 ∧ Fits 16376 8 tm0.scratch ∧ tm0.detMode = false ∧ acqPending (one [16376]) (threadOf hk 0) false = false) ∧
    (OneLane (wd tmD hd0 [th []] 1) ⟨g0, srcOp (r 1) false, csrcOp (rc 2) false, noOp, []⟩ hk tmD 0 ⟨0, 0, 0⟩ ∧ tmD.detMode = true ∧
      (hd0.detBuf.filter fun e => e.lane = 0).length + 1 ≤ 1024 / tmD.w) ∧
    (∀ op ∈ [AccOp.spStore 16383 1 5, .spAtom 16376 .add true 5 0 14], (qd op).memOk ∧ aget hk (qd op).hands = some { hd0 with
        storeQ := [⟨0, 0, 0, op, none, none, 0⟩], seq := 1 } ∧ (qd op).holds = [] ∧ (qd op).mem.spPoison = [] ∧ ((qd op).core (coreOf hostTeamId)).idle = false ∧ tm0.start % 64 = 0) := by
  refine ⟨⟨onlyOne rfl ?_ ?_ ?_, ?_, ⟨?_, ?_⟩, ?_, ?_⟩, ⟨onlyOne rfl ?_ ?_ ?_, ?_, ?_⟩, ?_⟩ <;> decide +kernel
theorem witness_ScratchpadAtomics : (OneLane (one [16380]) ⟨g0, srcOp (r 1) false, csrcOp (rc 2) false, noOp, [(3, false)]⟩ hk tm0 0 ⟨16380, 0, 0⟩ ∧
      Fits 16380 4 tm0.scratch ∧ tm0.detMode = false ∧ acqPending (one [16380]) (threadOf hk 0) false = false ∧
      (one [16380]).lane hk 0 = some (th [16380])) ∧
    (OneLane (wd tmD hd0 [th []] 1) ⟨g0, srcOp (r 1) false, csrcOp (rc 2) true, noOp, [(4, true)]⟩ hk tmD 0 ⟨0, 0, 0⟩ ∧
      spLoad (wd tmD hd0 [th []] 1) (threadOf hk 0) tmD 0 8 8 = .ok 0 ∧ 2 ≤ 1024 / tmD.w) := by
  refine ⟨⟨onlyOne rfl ?_ ?_ ?_, ⟨?_, ?_⟩, ?_, ?_, ?_⟩, ⟨onlyOne rfl ?_ ?_ ?_, ?_, ?_⟩⟩ <;> decide +kernel

/-- A thread that misses the line of its area that holds its last 8 bytes, and one whose line the dealer has yet to map. -/
def missing : State := { stacked 0 [] 0 with
  hands := [(hk, hd0)]
  threads := [(threadOf hk 0, { th [] with run := .stack, need := some (63, false) })] }
def unmapped : State := { missing with threads := [(threadOf hk 0, { th [] with run := .stack, need := some (63, true) })] }
/-- A dirty line of another lane, in a full cache, while that thread misses its line. -/
def hdFull : Hand := { hd0 with stack := ⟨1, 0, 7, true⟩ :: List.replicate 255 ⟨1, 1, 0, false⟩ }
def dirtied : State := { missing with hands := [(hk, hdFull)] }
def isOk : Except ε α → Bool
  | .ok _ => true
  | .error _ => false
theorem witness_LaneStack : (OneLane (stacked 0 [56, 9] 0) ⟨g0, srcOp (r 1) false, noOp, noOp, [(4, true)]⟩ hk tmS 0 ⟨56, 0, 0⟩ ∧
      56 + 8 ≤ stackSize tmS ∧ (stackGet (stacked 0 [56, 9] 0) (threadOf hk 0) 56 8).2 = some 0 ∧
      OneLane (stacked 0 [63, 9] 0) ⟨g0, srcOp (r 1) false, csrcOp (rc 2) false, noOp, []⟩ hk tmS 0 ⟨63, 9, 0⟩ ∧ 63 + 1 ≤ stackSize tmS ∧
      (stackPut (stacked 0 [63, 9] 0) (threadOf hk 0) 63 1 9).2 = true ∧ stackSize tmS < 57 + 8) ∧
    (aget (threadOf hk 0) missing.threads = some { th [] with run := .stack, need := some (63, false) } ∧ aget hostTeamId missing.teams = some tmS ∧
      aget hk missing.hands = some hd0 ∧ hd0.stack.length < 256 ∧ isOk (virtRead missing 0 ((stackBase tmS (threadOf hk 0) + 64 * 0) % 2 ^ 64) 64 .read) = true) ∧
    (aget hk dirtied.hands = some hdFull ∧ needsRoom dirtied hk hdFull = true ∧ hdFull.stack.reverse.find? (fun l => l.dirty) = some ⟨1, 0, 7, true⟩ ∧
      isOk (virtWrite dirtied 0 ((stackBase tmS (threadOf hk 1) + 64 * 0) % 2 ^ 64) (bytesOfNat 64 7)) = true) ∧
    (aget (threadOf hk 0) unmapped.threads = some { th [] with run := .stack, need := some (63, true) } ∧ cachedLine hd0 0 0 = none ∧
      aget hk unmapped.hands = some hd0) := by
  refine ⟨⟨onlyOne rfl ?_ ?_ ?_, ?_, ?_, onlyOne rfl ?_ ?_ ?_, ?_, ?_, ?_⟩, ⟨?_, ?_, ?_, ?_, ?_⟩, ⟨?_, ?_, ?_, ?_⟩, ⟨?_, ?_, ?_⟩⟩ <;> decide +kernel

theorem leads {s : State} {sh : Shape} {tm : Team} {ls : List Nat} {l : Nat} {v : Vals} (hf : inFocus s = some (hk, tm, ls))
    (hl : (performing s hk sh.g ls).head? = some l) (hr : readOpnds s hk tm.w sh l = .ok v) : Leads s sh hk tm ls l v := ⟨hf, hl, hr⟩

/-- Four threads whose team's entry e holds a tile. -/
def tiled (tm : Team) (rs : List Word) (e : Nat) (t : Tile) : State := setTile (wd tm hd0 [th rs, th rs] 3) ⟨0, 0⟩ e t
/-- A tile of one E4M3 element per row and column, at offset 64. -/
def tile1 (st : Nat) : Tile := ⟨0, 1, 0, 0, 0, 0, 0, false, st⟩
def tmF : Team := { tm0 with fmts := [0x739, 0x71] }
/-- The last 64-byte line as the base; every state an event acts on; a byte of a team's own tile, and of a peer's. -/
theorem witness_Tiles : (Leads (tiled tm0 [16320, 16368] 63 (tile1 0)) ⟨g0, csrcOp (rc 1) false, csrcOp (rc 2) false, noOp, []⟩ hk tm0 [0, 1] 0 ⟨16320, 16368, 0⟩ ∧
      tm0.detMode = false ∧ 16320 % 64 = 0 ∧ 16368 % 16 = 0 ∧ 16368 < tm0.scratch ∧ tm0.scratch ≤ 2097152 ∧
      (tileAt (tiled tm0 [16320, 16368] 63 (tile1 0)) ⟨0, 0⟩ 63).state = 0 ∧ tileHeld (tiled tm0 [16320, 16368] 63 (tile1 0)) ⟨hostTeamId, 63⟩ = false) ∧
    (∀ st ∈ [0, 2], inFocus (tiled tm0 [] 63 (tile1 st)) = some (hk, tm0, [0, 1]) ∧ (performing (tiled tm0 [] 63 (tile1 st)) hk g0 [0, 1]).head? = some 0 ∧
      readOpnds (tiled tm0 [] 63 (tile1 st)) hk 4 (bare g0) 0 = .ok ⟨0, 0, 0⟩ ∧ (tileAt (tiled tm0 [] 63 (tile1 st)) ⟨0, 0⟩ 63).state = st ∧
      (tileAt (tiled tm0 [] 63 (tile1 st)) ⟨0, 0⟩ 63).q = false ∧ tileHeld (tiled tm0 [] 63 (tile1 st)) ⟨hostTeamId, 63⟩ = false) ∧
    (Leads (tiled tmD [] 63 (tile1 0)) (bare g0) hk tmD [0, 1] 0 ⟨0, 0, 0⟩ ∧ tmD.detMode = true ∧ aget hk (tiled tmD [] 63 (tile1 0)).hands = some hd0 ∧
      (hd0.detBuf.filter fun e => e.lane = 0).length < 1024 / tmD.w) ∧
    CanPerform (tiled tm0 [] 63 (tile1 1)) ⟨g0, noOp, noOp, noOp, [(3, false)]⟩ hk tm0 [0, 1] := by
  refine ⟨⟨leads rfl ?_ ?_, ?_, ?_, ?_, ?_, ?_, ?_, ?_⟩, ?_, ⟨leads rfl ?_ ?_, ?_, ?_, ?_⟩, can rfl ?_ ?_⟩ <;> decide +kernel
/-- A READY tile of 64 rows of 64 bytes, read at its last word; the same tile of the team on the next core of a cluster. -/
def big : Tile := ⟨0, 0, 63, 63, 0, 0, 0, false, 2⟩
def peerId : TeamId := ⟨0, 1, 0⟩
def reading : State := setTile (wd tmF hd0 [th [4092]] 1) ⟨0, 0⟩ 0 big
def peering : State :=
  let s := setTile (wd tmF hd0 [th [4092]] 1) ⟨0, 1⟩ 0 big
  { s with teams := s.teams ++ [(peerId, tmF)] }
theorem witness_TileReads : (OneLane reading ⟨g0, srcOp (r 1) false, noOp, noOp, [(3, false)]⟩ hk tmF 0 ⟨4092, 0, 0⟩ ∧
      tileRef reading hostTeamId tmF (.loc 0) = some ⟨hostTeamId, 0⟩ ∧ trickTile reading ⟨hostTeamId, 0⟩ = false ∧ 4092 + 4 ≤
      big.footprint 0x739 0 ∧ big.inBounds 0x739 0 tmF.scratch = true ∧ (TileRef.tile reading ⟨hostTeamId, 0⟩) = big ∧ Calm reading hk hd0) ∧
    (OneLane peering ⟨g0, srcOp (r 1) false, noOp, noOp, [(3, false)]⟩ hk tmF 0 ⟨4092, 0, 0⟩ ∧
      tileRef peering hostTeamId tmF (.remote 1 0) = some ⟨peerId, 0⟩ ∧ aget peerId peering.teams = some tmF ∧
      (TileRef.tile peering ⟨peerId, 0⟩) = big ∧ peerId ≠ hostTeamId) := by
  refine ⟨⟨onlyOne rfl ?_ ?_ ?_, ?_, ?_, ?_, ?_, ?_, calm ?_⟩, ⟨onlyOne rfl ?_ ?_ ?_, ?_, ?_, ?_, ?_⟩⟩ <;> decide +kernel

/-- The greatest counts of each form, in the scratchpad's last 16 bytes; a barrier there. -/
theorem witness_ByteBarriers : (OneLane (one [16368, 0xFFFFFFFF, 4096]) ⟨g0, srcOp (r 1) false, srcOp (r 2) false, csrcOp (rc 3) false, []⟩ hk tm0 0
      ⟨16368, 0xFFFFFFFF, 4096⟩ ∧ Fits 16368 16 tm0.scratch ∧ tm0.detMode = false ∧ acqPending (one [16368, 0xFFFFFFFF, 4096]) (threadOf hk 0) false = false ∧
      aget hk (one [16368, 0xFFFFFFFF, 4096]).hands = some hd0 ∧ OneLane (one [16368]) ⟨g0, csrcOp (rc 1) false, noOp, noOp, []⟩ hk tm0 0 ⟨16368, 0, 0⟩) ∧
    ((one []).memOk ∧ aget hostTeamId (one []).teams = some tm0 ∧ hostTeamId.die ≠ 8 ∧ 16368 % 16 = 0 ∧ tm0.start % 64 = 0) := by
  refine ⟨⟨onlyOne rfl ?_ ?_ ?_, ⟨?_, ?_⟩, ?_, ?_, ?_, onlyOne rfl ?_ ?_ ?_⟩, ?_, ?_, ?_, ?_, ?_⟩ <;> decide +kernel
/-- Arrivals, and waits in both phases, with and without a token. -/
def waiter (u : Thread) : State := wd tm0 hd0 [u] 1
theorem witness_BarrierWaits : (OneLane (one [16368]) ⟨g0, srcOp (r 1) false, noOp, noOp, []⟩ hk tm0 0 ⟨16368, 0, 0⟩ ∧ Fits 16368 16 tm0.scratch ∧
      aget hk (one [16368]).hands = some hd0 ∧ acqPending (one [16368]) (threadOf hk 0) false = false) ∧
    (let s := { qd (.spArrive 16368) with threads := [(threadOf hk 0, { th [] with run := .bank })] }
     aget hk s.hands = some { hd0 with storeQ := [⟨0, 0, 0, .spArrive 16368, none, none, 0⟩], seq := 1 } ∧ aget hostTeamId s.teams = some tm0 ∧
      s.holds = [] ∧ (s.core (coreOf hostTeamId)).idle = false ∧ aget (threadOf hk 0) s.threads = some { th [] with run := .bank }) ∧
    (∀ u ∈ [{ th [16368] with bwait := some (16368, none) }, { th [16368] with bwait := some (16368, some true) },
        { th [16368] with token := some (16368, true) }, th [16368], { th [16368] with token := some (16368, false) }],
      inFocus (waiter u) = some (hk, tm0, [0]) ∧ performers (waiter u) ⟨g0, srcOp (r 1) false, noOp, noOp, []⟩ hk 4 [0] = [0] ∧
      readOpnds (waiter u) hk 4 ⟨g0, srcOp (r 1) false, noOp, noOp, []⟩ 0 = .ok ⟨16368, 0, 0⟩ ∧ (waiter u).lane hk 0 = some u ∧
      aget hk (waiter u).hands = some hd0 ∧ (waiter u).holds = [] ∧ (waiter u).mem.spPoison = [] ∧
      (barrierOf ((waiter u).spNat hostTeamId tm0 16368 16)).phase = false) := by
  refine ⟨⟨onlyOne rfl ?_ ?_ ?_, ⟨?_, ?_⟩, ?_, ?_⟩, ?_, ?_⟩ <;> decide +kernel

/-- A function that holds one group of 8 banks of the Commons of die 0, 2 MiB: its last words. -/
def shared (tm : Team) (hd : Hand) (rs : List Word) : State := { wd tm hd [th rs] 1 with funcs := [(0, { func0 with cmGroups := [(0, 0)] })] }
def shareEnd : Word := BitVec.ofNat 32 (cmLen { func0 with cmGroups := [(0, 0)] } 0)
def inShareB (x n : Nat) : Bool := bits x 31 29 = 0 && bits x 25 0 + n ≤ cmLen { func0 with cmGroups := [(0, 0)] } (bits x 28 26) && x % n = 0
theorem witness_Commons : (OneLane (shared tm0 hd0 [shareEnd - 8]) ⟨g0, srcOp (r 1) false, noOp, noOp, [(4, true)]⟩ hk tm0 0 ⟨(shareEnd - 8).setWidth 64, 0, 0⟩ ∧
      inShareB (shareEnd - 8).toNat 8 = true ∧ aget hk (shared tm0 hd0 [shareEnd - 8]).hands = some hd0 ∧
      acqPending (shared tm0 hd0 [shareEnd - 8]) (threadOf hk 0) false = false ∧ tm0.detMode = false) ∧
    (OneLane (shared tm0 hd0 [shareEnd - 1]) ⟨g0, srcOp (r 1) false, csrcOp (rc 2) false, noOp, []⟩ hk tm0 0 ⟨(shareEnd - 1).setWidth 64, 0, 0⟩ ∧
      inShareB (shareEnd - 1).toNat 1 = true ∧ OneLane (shared tmD hd0 [0]) ⟨g0, srcOp (r 1) false, csrcOp (rc 2) false, noOp, []⟩ hk tmD 0 ⟨0, 0, 0⟩ ∧
      tmD.detMode = true ∧ (hd0.detBuf.filter fun e => e.lane = 0).length + 1 ≤ 1024 / tmD.w) ∧
    (OneLane (shared tm0 hd0 [shareEnd - 4]) ⟨g0, srcOp (r 1) false, csrcOp (rc 2) false, noOp, [(3, false)]⟩ hk tm0 0 ⟨(shareEnd - 4).setWidth 64, 0, 0⟩ ∧
      inShareB (shareEnd - 4).toNat 4 = true) ∧
    (∀ op ∈ [AccOp.cmLoad 2097144 8 false true 4 (List.replicate 8 none) true, .cmStore 2097151 1 5, .cmAtom 2097144 .add true 1 0 4,
        .cmAtom 2097148 .add false 1 0 0, .cmAxpy 2097148 .bf2 1 2],
      let s := shared tm0 { hd0 with storeQ := [⟨0, 0, 0, op, none, none, 0⟩], seq := 1 } []
      s.memOk ∧ aget hk s.hands = some { hd0 with storeQ := [⟨0, 0, 0, op, none, none, 0⟩], seq := 1 } ∧ aget hostTeamId s.teams = some tm0 ∧
        s.mem.cmPoison = [] ∧ (cmLane s hk 0).any (cmFair s) = true) := by
  refine ⟨⟨onlyOne rfl ?_ ?_ ?_, ?_, ?_, ?_, ?_⟩, ⟨onlyOne rfl ?_ ?_ ?_, ?_, onlyOne rfl ?_ ?_ ?_, ?_, ?_⟩, ⟨onlyOne rfl ?_ ?_ ?_, ?_⟩, ?_⟩ <;> decide +kernel

/-- A fence in deterministic mode, one with nothing before it, and one behind a store of its hand. -/
theorem witness_Fences : (OneLane (wd tmD hd0 [th []] 1) (bare g0) hk tmD 0 ⟨0, 0, 0⟩ ∧ tmD.detMode = true) ∧
    (OneLane (ab 0 0) (bare g0) hk tm0 0 ⟨0, 0, 0⟩ ∧ tm0.detMode = false ∧ aget hk (ab 0 0).hands = some hd0 ∧ hd0.pend = [] ∧ (ab 0 0).fills = [] ∧ kicksSettled (ab 0 0) hk 0 = true) ∧
    (OneLane (qd (.spStore 8 4 1)) (bare g0) hk tm0 0 ⟨0, 0, 0⟩ ∧ (qd (.spStore 8 4 1)).lane hk 0 = some (th [0, 0x11223344]) ∧
      aget hk (qd (.spStore 8 4 1)).hands = some { hd0 with storeQ := [⟨0, 0, 0, .spStore 8 4 1, none, none, 0⟩], seq := 1 } ∧
      (0 : Nat) < (th [0, 0x11223344]).fenceAt.getD 1 ∧ (th [0, 0x11223344]).run = .ready) := by
  refine ⟨⟨onlyOne rfl ?_ ?_ ?_, ?_⟩, ⟨onlyOne rfl ?_ ?_ ?_, ?_, ?_, ?_, ?_, ?_⟩, ⟨onlyOne rfl ?_ ?_ ?_, ?_, ?_, ?_, ?_⟩⟩ <;> decide +kernel

theorem witness_ProbesAndFoldQueries : (CanPerform top ⟨g0, srcOp (r 2) true, noOp, noOp, [(4, true)]⟩ hk tm0 [0, 1, 2, 3] ∧ tm0.detMode = false) ∧
    CanPerform top ⟨g0, noOp, noOp, noOp, [(3, false)]⟩ hk tm0 [0, 1, 2, 3] ∧ CanPerform top (bare g0) hk tm0 [0, 1, 2, 3] ∧
    (OneLane (wd tmD hd0 [th []] 1) ⟨g0, srcOp (r 2) true, noOp, noOp, [(4, true)]⟩ hk tmD 0 ⟨0, 0, 0⟩ ∧ tmD.detMode = true ∧ (srcOp (r 2) true).mod = .none ∧
      OneLane (wd tmD hd0 [th []] 1) ⟨g0, noOp, noOp, noOp, [(3, false)]⟩ hk tmD 0 ⟨0, 0, 0⟩) := by
  refine ⟨⟨can rfl ?_ ?_, ?_⟩, can rfl ?_ ?_, can rfl ?_ ?_, ⟨onlyOne rfl ?_ ?_ ?_, ?_, ?_, onlyOne rfl ?_ ?_ ?_⟩⟩ <;> decide +kernel

/-- A bulk copy-in record of 64 bytes from address 0 to offset 0, OWN and LAST, without completion. -/
def copyWord : BitVec 256 := BitVec.ofNat 256 (2 ^ 8 + 2 ^ 9 + 2 ^ 10 + 64 * 2 ^ 32)
/-- The same record at the scratchpad's last 32 bytes, and a channel's queue with n chains. -/
def kickTeam : TeamId := hostTeamId
def chainOf (rs : List Rec) : Chain := ⟨kickTeam, 0, 0, [], rs, none, false⟩
def ch0 : ChanId := ⟨⟨0, 0, 0⟩, 0⟩
def withChan (c : Chan) (s : State) : State := { s with chans := [(ch0, c)] }
def kicking (n : Nat) : State := (withChan { Chan.reset with queue := List.replicate n (.chain (chainOf [])) } (mapped (one [16352]))).spWrite
  hostTeamId tm0 16352 (bytesOfNat 32 copyWord.toNat)
/-- Three chains queued, and four; an idle channel; a channel that runs the team's chain. -/
theorem witness_Channels : (∀ n ∈ [3, 4], inFocus (kicking n) = some (hk, tm0, [0]) ∧
      performers (kicking n) ⟨g0, srcOp (r 1) false, noOp, noOp, []⟩ hk 4 [0] = [0] ∧
      readOpnds (kicking n) hk 4 ⟨g0, srcOp (r 1) false, noOp, noOp, []⟩ 0 = .ok ⟨16352, 0, 0⟩ ∧ aget hk (kicking n).hands = some hd0 ∧
      (kicking n).spPoisoned hostTeamId tm0 16352 32 = false ∧ recHeld (kicking n) hostTeamId tm0 16352 = false ∧ ((kicking n).chan ch0).heads.length = n ∧ (srcOp (r 1) false).mod = .none) ∧
    Fits 16352 32 tm0.scratch ∧ (CanPerform top ⟨g0, noOp, noOp, noOp, [(3, false)]⟩ hk tm0 [0, 1, 2, 3] ∧ aget hk top.hands = some hd0 ∧
      (top.chan ch0).jobs = [] ∧ tm0.detMode = false) ∧
    (OneLane (withChan { Chan.reset with run := some (.chain (chainOf [{ Rec.read 0 copyWord with started := true }, Rec.read 32 copyWord])) } (ab 0 0))
      (bare g0) hk tm0 0 ⟨0, 0, 0⟩) := by
  refine ⟨?_, ⟨?_, ?_⟩, ⟨can rfl ?_ ?_, ?_, ?_, ?_⟩, onlyOne rfl ?_ ?_ ?_⟩ <;> decide +kernel
/-- A window of one element of 4 bytes in slot 7, whose index lies in the scratchpad's last word. -/
def winWord : BitVec 256 := BitVec.ofNat 256 (16380 + 7 * 2 ^ 57 + 2 ^ 64 + 2 ^ 96)
def binding : State := (one [16352]).spWrite hostTeamId tm0 16352 (bytesOfNat 32 winWord.toNat)
theorem witness_Windows : (OneLane binding ⟨g0, srcOp (r 1) false, noOp, noOp, []⟩ hk tm0 0 ⟨16352, 0, 0⟩ ∧
      heldRange binding hostTeamId 16352 32 true = false ∧ windowPoison binding hostTeamId tm0 winWord = none ∧ binding.spPoisoned hostTeamId tm0 16352 32 = false ∧ windowBad binding hostTeamId tm0 winWord = false ∧ wSlot winWord = 7 ∧ slotBusy binding hostTeamId 7 = false) ∧
    BitVec.ofNat 256 (binding.spNat hostTeamId tm0 16352 32) = winWord := by
  refine ⟨⟨onlyOne rfl ?_ ?_ ?_, ?_, ?_, ?_, ?_, ?_, ?_⟩, ?_⟩ <;> decide +kernel

/-- States of channel 0 of a team that runs with its pages mapped. -/
def copying (rs : List Rec) : State := withChan { Chan.reset with run := some (.chain (chainOf rs)) } (mapped (ab 0 0))
def rec0 : Rec := Rec.read 0 copyWord
def isDram : Xl → Bool
  | .dram _ _ => true
  | _ => false
theorem witness_CopyEngine : (let s := withChan { Chan.reset with queue := [.chain (chainOf [rec0])] } (mapped (ab 0 0))
     (s.chan ch0).run = none ∧ (s.chan ch0).back = [] ∧ (s.chan ch0).queue = [.chain (chainOf [rec0])] ∧ mayStart s ch0 kickTeam = true) ∧
    ((copying [rec0]).chan ch0).run = some (.chain (chainOf [rec0])) ∧ aget kickTeam (copying [rec0]).teams = some tm0 ∧
    mayStart (copying [rec0]) ch0 kickTeam = true ∧ rec0.kind = 0 ∧ rec0.tdst = false ∧ rec0.trel = false ∧
    windowFor tm0 rec0.va rec0.len = none ∧ rec0.spoff + rec0.len ≤ tm0.scratch ∧ rec0.len ≤ 1048512 ∧
    (({ rec0 with bad := true } : Rec).fills = false ∧ ({ rec0 with bad := true } : Rec).started = false) := by decide +kernel
/-- A record of one unit of the full 64 bytes, which may issue; one that waits; and one whose reply has come. -/
def recGo : Rec := { rec0 with started := true, units := 1 }
def replied0 : State := { copying [{ recGo with issued := 1, reqs := [(0, [5])] }] with answers := [(5, ⟨none, 0, List.replicate 64 1⟩)] }
theorem witness_CopyUnits : (isDram (translate (copying [recGo]) tm0.func (recGo.unitVa 0) .read) = true ∧ (recGo.span 0).len ≠ 0 ∧
      recGo.unitVa 0 % 64 + (recGo.span 0).len ≤ 64 ∧ recGo.kind = 0 ∧ recGo.out = false ∧ recGo.slot = none ∧
      mayIssue (copying [recGo]) (chainOf [recGo]) 0 recGo = true ∧ recGo.waiting = [] ∧ recGo.mask = 0 ∧
      aget (copying [recGo]).nextId (copying [recGo]).answers = none) ∧ ({ recGo with waiting := [0] } : Rec).waiting = [recGo.issued] ∧
    (let x : Rec := { recGo with issued := 1, reqs := [(0, [5])] }
     (replied0.chan ch0).run = some (.chain (chainOf [x])) ∧ x.rel = false ∧ 0 < x.issued ∧ Machine.bit x.mask 0 = false ∧ Machine.bit x.gone 0 = false ∧ 0 ∉ x.waiting ∧
      aget 0 x.reqs = some [5] ∧ repliesOf replied0 [5] = some [⟨none, 0, List.replicate 64 1⟩] ∧ replied0.holds = [] ∧ replied0.mem.spPoison = []) := by decide +kernel
/-- A reducing copy of two elements in one unit: ROP 6, the greatest. -/
def redWord : BitVec 256 := BitVec.ofNat 256 (3 + 2 ^ 4 + 2 ^ 8 + 2 ^ 9 + 2 ^ 10 + 8 * 2 ^ 32 + 6 * 2 ^ 224)
def redRec : Rec := { Rec.read 0 redWord with started := true, units := 1, issued := 1, bufs := [(0, [5, 0, 0, 0, 6, 0, 0, 0])] }
def redReq : Req := ⟨5, 0, 8, some [1, 0, 0, 0, 2, 0, 0, 0], none, 0, (0, 0), some ch0, 0, some 6, []⟩
theorem witness_ReducingElements : (let x : Rec := { redRec with reqs := [(0, [5])] }
     let s : State := { copying [x] with pchs := [(3, { Pch.reset with reqs := [redReq] })] }
     (s.chan ch0).run = some (.chain (chainOf [x])) ∧ x.kind = 3 ∧ aget 0 x.reqs = some [5] ∧ aget 5 s.answers = none ∧ s.forwards = [] ∧
      s.pchs.findSome? (fun e => (e.2.reqs.findIdx? (·.id = 5)).map fun n => (e.1, n)) = some (3, 0)) ∧
    combineBytes 6 [5, 0, 0, 0, 6, 0, 0, 0] [7, 0, 0, 0, 0xFF, 0xFF, 0xFF, 0xFF] = [7, 0, 0, 0, 6, 0, 0, 0] := by decide +kernel
/-- Records with every unit settled: one without a ring, one with, and one that has yet to write its entry. -/
def recDone : Rec := { recGo with issued := 1, mask := 1 }
def ringWord : BitVec 256 := BitVec.ofNat 256 (2 ^ 8 + 2 ^ 9 + 2 ^ 11 + 64 * 2 ^ 32 + 0x80 * 2 ^ 160)
def recRing : Rec := { Rec.read 0 ringWord with started := true, units := 1, issued := 1, mask := 1 }
/-- A ring of one entry in the scratchpad's last 16 bytes. -/
def ringed (x : Rec) : State := (copying [x]).spWrite hostTeamId tm0 0x80 (bytesOfNat 16 (16368 + 2 ^ 32))
theorem witness_CopyEnds : (recDone.allSettled = true ∧ recDone.ring = false ∧ recDone.bad = false ∧ recDone.tdst = false ∧ recDone.rel = false ∧
      recDone.gone = 0 ∧ recDone.cpl ≠ 2 ∧ ((copying [recDone]).chan ch0).run = some (.chain (chainOf [recDone]))) ∧
    (recRing.cpl = 2 ∧ recRing.allSettled = true ∧ ringOk ((ringed recRing).spWrite hostTeamId tm0 0 (bytesOfNat 4 0)) hostTeamId tm0 recRing = true) ∧
    (let x : Rec := { recRing with ring := true }
     let g := ringOf (ringed x) hostTeamId tm0 x.cploff
     (ringed x).holds = [] ∧ (ringed x).mem.spPoison = [] ∧ g.n ≠ 0 ∧ g.base + 16 * (g.tail % g.n) + 16 ≤ tm0.scratch ∧ (g.tail + 2 ^ 32 - g.head) % 2 ^ 32 ≠ g.n) ∧
    (let s : State := { ab 0 0 with mats := [(⟨0, 0, 0⟩, { Mat.reset with wait := [hostTeamId] })] }
     (s.mat ⟨0, 0, 0⟩).owner = none ∧ (s.mat ⟨0, 0, 0⟩).wait = [hostTeamId]) ∧
    (let s : State := { ab 0 0 with mats := [(⟨0, 0, 0⟩, { Mat.reset with jobs := [⟨0, threadOf hk 0, 0, none, some (hostTeamId, 0)⟩] })] }
     (s.mat ⟨0, 0, 0⟩).jobs = [⟨0, threadOf hk 0, 0, none, some (hostTeamId, 0)⟩]) := by decide +kernel

/-! Matrix instructions of a team that owns its quadrant's accumulators. -/

def q0 : QuadId := ⟨0, 0, 0⟩
/-- Tiles in the team's entries 0, 1, …, and registers. -/
def owning (tm : Team) (rs : List Word) (ts : List Tile) : State :=
  let s := ts.zipIdx.foldl (fun s e => setTile s ⟨0, 0⟩ e.2 e.1) (wd tm hd0 [th rs, th rs] 3)
  { s with mats := [(q0, { Mat.reset with owner := some hostTeamId })] }
theorem matrixReady {s : State} {sh : Shape} {tm : Team} {v : Vals} (hf : inFocus s = some (hk, tm, [0, 1]))
    (hl : (performing s hk sh.g [0, 1]).head? = some 0) (hr : readOpnds s hk tm.w sh 0 = .ok v)
    (h : (decide (q0 = quadOf s (threadOf hk 0)) && decide ((s.mat q0).owner = some hostTeamId) && decide (s.holds = []) &&
      decide (aget hk s.hands = some hd0) && decide (s.mem.spPoison = []) && !tm.detMode) = true) : MatrixReady s sh hk tm [0, 1] 0 v q0 := by
  simp only [Bool.and_eq_true, decide_eq_true_eq, Bool.not_eq_true'] at h
  exact ⟨⟨hf, hl, hr⟩, h.1.1.1.1.1, h.1.1.1.1.2, h.1.1.1.2, ⟨hd0, h.1.1.2, rfl⟩, h.1.2, h.2⟩
/-- A tile of n + 1 rows and columns at 64·b, of format f and layout lay. -/
def tl (b n f lay st : Nat) : Tile := ⟨0, b, n, n, f, 0, lay, false, st⟩
def named (i : Nat) (t : Tile) (f : Word) : MOp := ⟨⟨hostTeamId, i⟩, tmF, t, f⟩
/-- Every form's layouts, one element and 64 × 64 elements, floating-point and integer. -/
theorem witness_MatrixProducts : ∀ e ∈ [(tl 0 0 0 0 2, tl 1 0 0 0 2, (0x739 : Word)), (tl 0 63 1 0 2, tl 64 63 1 0 2, 0x71), (tl 0 3 0 1 2, tl 8 3 0 0 2, 0x739),
      (tl 0 3 1 0 2, tl 8 3 1 2 2, 0x71), (tl 0 3 0 1 2, tl 8 3 0 1 2, 0x739)],
    let s := owning tmF [] [e.1, e.2.1]
    let a := named 0 e.1 e.2.2
    let b := named 1 e.2.1 e.2.2
    MatrixReady s (bare g0) hk tmF [0, 1] 0 ⟨0, 0, 0⟩ q0 ∧ mop s hostTeamId tmF (.loc 0) = some a ∧ mop s hostTeamId tmF (.loc 1) = some b ∧ MayRead s a ∧ MayRead s b ∧ b.rows = a.cols ∧ a.noFormat = false ∧ b.noFormat = false ∧ a.scaled = false ∧ b.scaled = false ∧
      (accOf s q0 0).tag = 0 := by
  simp only [List.forall_mem_cons, List.not_mem_nil, false_implies, implies_true, and_true]
  refine ⟨?_, ?_, ?_, ?_, ?_⟩ <;>
    exact ⟨matrixReady rfl (by decide +kernel) (by decide +kernel) (by decide +kernel), by decide +kernel, by decide +kernel,
      ⟨by decide +kernel, by decide +kernel, by decide +kernel, by decide +kernel⟩,
      ⟨by decide +kernel, by decide +kernel, by decide +kernel, by decide +kernel⟩, by decide +kernel⟩
/-- The last address of 4,096 words; the last element; both tags' tiles. -/
def tmBig : Team := { tmF with scratch := 65536 }
theorem witness_AccumulatorReadsAndLoads : MatrixReady (owning tmF [] []) (bare g0) hk tmF [0, 1] 0 ⟨0, 0, 0⟩ q0 ∧
    (∀ e ∈ [(tl 0 63 0 0 2, (0x739 : Word)), (tl 0 63 1 0 2, 0x71)], let s := owning tmF [] [e.1]
      mop s hostTeamId tmF (.loc 0) = some (named 0 e.1 e.2) ∧ (TileRef.tile s ⟨hostTeamId, 0⟩).state = 2 ∧ trickTile s ⟨hostTeamId, 0⟩ = false ∧
        (named 0 e.1 e.2).outside 0 = false ∧ e.1.layout = 0 ∧ (named 0 e.1 e.2).noFormat = false) ∧
    (MatrixReady (owning tmBig [32768] []) ⟨g0, csrcOp (rc 1) false, noOp, noOp, []⟩ hk tmBig [0, 1] 0 ⟨32768, 0, 0⟩ q0 ∧ 32768 % 64 = 0 ∧ 32768 + 32768 ≤ tmBig.scratch) ∧
    (OneLane { owning tmF [63, 63] [] with focus := .bundle hk 1 } ⟨g0, srcOp (r 1) false, srcOp (r 2) false, noOp, [(4, true)]⟩ hk tmF 0 ⟨63, 63, 0⟩ ∧
      tmF.detMode = false ∧ ((owning tmF [63, 63] []).mat (quadOf (owning tmF [63, 63] []) (threadOf hk 0))).owner = some hostTeamId) := by
  refine ⟨matrixReady rfl ?_ ?_ ?_, ?_, ⟨matrixReady rfl ?_ ?_ ?_, ?_, ?_⟩, ⟨onlyOne rfl ?_ ?_ ?_, ?_, ?_⟩⟩ <;> decide +kernel
theorem witness_MatrixStores : (let s := owning tmF [] [tl 0 63 0 0 0]
     MatrixReady s (bare g0) hk tmF [0, 1] 0 ⟨0, 0, 0⟩ q0 ∧ mop s hostTeamId tmF (.loc 0) = some (named 0 (tl 0 63 0 0 0) 0x739) ∧ MayFill s (named 0 (tl 0 63 0 0 0) 0x739) ∧
      (named 0 (tl 0 63 0 0 0) 0x739).noFormat = false) ∧
    MatrixReady (owning tmBig [32768] []) ⟨g0, csrcOp (rc 1) false, noOp, noOp, []⟩ hk tmBig [0, 1] 0 ⟨32768, 0, 0⟩ q0 := by
  refine ⟨⟨matrixReady rfl ?_ ?_ ?_, ?_, ⟨?_, ?_, ?_⟩, ?_⟩, matrixReady rfl ?_ ?_ ?_⟩ <;> decide +kernel
/-- DELTA of two dense tiles into row-skip rows; SPCOMP and TXPOSE of a dense tile. -/
theorem witness_MatrixRewrites : (let s := owning tmF [0, 0, 0x3F800000] [tl 0 3 0 0 2, tl 8 3 0 0 2, tl 16 3 0 2 0]
     MatrixReady s ⟨g0, noOp, noOp, csrcOp (rc 3) false, []⟩ hk tmF [0, 1] 0 ⟨0, 0, 0x3F800000⟩ q0 ∧ mop s hostTeamId tmF (.loc 1) = some (named 1 (tl 8 3 0 0 2) 0x739) ∧
      MayRead s (named 0 (tl 0 3 0 0 2) 0x739) ∧ MayRead s (named 1 (tl 8 3 0 0 2) 0x739) ∧ MayFill s (named 2 (tl 16 3 0 2 0) 0x739) ∧
      deltaShape (named 0 (tl 0 3 0 0 2) 0x739) (named 1 (tl 8 3 0 0 2) 0x739) (named 2 (tl 16 3 0 2 0) 0x739) = false) ∧
    (let s := owning tmF [] [tl 0 3 0 0 2, tl 8 3 0 1 0, tl 16 3 0 0 0]
     MayRead s (named 0 (tl 0 3 0 0 2) 0x739) ∧ (TileRef.tile s ⟨hostTeamId, 1⟩).state = 0 ∧ sameShape (named 0 (tl 0 3 0 0 2) 0x739) (named 1 (tl 8 3 0 1 0) 0x739) = true ∧
      sameElem (named 0 (tl 0 3 0 0 2) 0x739) (named 1 (tl 8 3 0 1 0) 0x739) = true ∧
      (named 1 (tl 8 3 0 1 0) 0x739).base + (sparseBytes s (named 0 (tl 0 3 0 0 2) 0x739)).length ≤ tmF.scratch ∧
      (named 2 (tl 16 3 0 0 0) 0x739).outside 0 = false) := by
  refine ⟨⟨matrixReady rfl ?_ ?_ ?_, ?_, ⟨?_, ?_, ?_, ?_⟩, ⟨?_, ?_, ?_, ?_⟩, ⟨?_, ?_, ?_⟩, ?_⟩, ⟨⟨?_, ?_, ?_, ?_⟩, ?_⟩⟩ <;> decide +kernel

/-! Bags. -/

def bid : BagId := ⟨0, 0⟩
/-- An empty bag of 4 records of 32 bytes over the shares of stack 0. -/
def bag0 : Bag where
  func := 0
  desc := 0
  gen := 1
  rsize := 32
  cap := 4
  spread := 1
  policy := 0
  bound := 32
  fmode := 0
  rowBase := 0
  seq := 0
  resident := 0
  ptr := 0
  claims := 0
  cuts := []
  recs := []
  rows := []
  nextRow := 0
  puts := []
  res := []
  iters := 0
  ended := 0
  iter := none
  iterQ := []
  last := none
  clear := none
def h0 : Word := handleOf bid bag0
/-- A record in slot 0 of the first row of share 0, written. -/
def rec5 : BagRec := ⟨1, 5, 0, 0, 0, [], true, true, 1, false⟩
def bag1 : Bag := { bag0 with seq := 1, resident := 1, recs := [rec5], rows := [⟨0, 0, 0⟩], nextRow := 1 }
def asks (ask : BagAsk) : BagReq := ⟨0, h0, 0, threadOf hk 0, 0, 0, ask, none⟩
def bagged (bg : Bag) (rs : List BagReq) (s : State) : State := { s with bags := [(bid, bg)], bagReqs := rs }
/-- A request in either mode; a take; a reply; the greatest bin. -/
theorem witness_BagRequests : (OneLane (bagged bag0 [] (one [h0, 16352])) ⟨g0, srcOp (r 1) false, srcOp (r 2) false, noOp, [(3, false)]⟩ hk tm0 0
      ⟨h0.setWidth 64, 16352, 0⟩ ∧ (16352 + (0 : BitVec 16).toNat) % 2 ^ 32 % 32 = 0 ∧ 16352 < tm0.scratch ∧ tm0.detMode = false ∧
      acqPending (bagged bag0 [] (one [h0, 16352])) (threadOf hk 0) true = false ∧ aget hk (bagged bag0 [] (one [h0, 16352])).hands = some hd0 ∧
      liveBag (bagged bag0 [] (one [h0, 16352])) tm0.func h0 = some (handleBag h0, bag0) ∧
      spLoad (bagged bag0 [] (one [h0, 16352])) (threadOf hk 0) tm0 16352 16 16 = .ok 0) ∧
    (OneLane (bagged bag0 [] (wd tmD hd0 [th [h0, 0]] 1)) ⟨g0, srcOp (r 1) false, srcOp (r 2) false, noOp, [(3, false)]⟩ hk tmD 0 ⟨h0.setWidth 64, 0, 0⟩ ∧
      tmD.detMode = true ∧ (hd0.detBuf.filter fun e => e.lane = 0).length + 1 ≤ 1024 / tmD.w) ∧
    (OneLane (bagged bag0 [] (one [h0, 1023])) ⟨g0, srcOp (r 1) false, srcOp (r 2) false, noOp, [(4, true)]⟩ hk tm0 0 ⟨h0.setWidth 64, 1023, 0⟩ ∧
      OneLane (bagged bag0 [] (one [h0])) ⟨g0, srcOp (r 1) false, noOp, noOp, [(3, false)]⟩ hk tm0 0 ⟨h0.setWidth 64, 0, 0⟩) ∧
    (let s := { bagged bag0 [] (wd tm0 hd0 [{ th [h0] with ask := some 7 }] 1) with answers := [(7, ⟨none, 5, []⟩)] }
     OneLane s ⟨g0, srcOp (r 1) false, noOp, noOp, [(4, true)]⟩ hk tm0 0 ⟨h0.setWidth 64, 0, 0⟩ ∧ s.lane hk 0 = some { th [h0] with ask := some 7 } ∧
      aget 7 s.answers = some ⟨none, 5, []⟩) ∧
    (OneLane (bagged bag0 [] (one [h0, 0xFFFFFFFF, 0xFFFF, 0, 16288])) ⟨g0, srcOp (r 1) false, srcOp (r 2) true, .reg 5 false .none false, []⟩ hk tm0 0
      ⟨h0.setWidth 64, 0xFFFFFFFFFFFF, 16288⟩ ∧ 0xFFFFFFFFFFFF < 2 ^ 48 ∧ Fits 16288 32 tm0.scratch ∧ 16288 + 96 ≤ tm0.scratch) := by
  refine ⟨⟨onlyOne rfl ?_ ?_ ?_, ?_, ?_, ?_, ?_, ?_, ?_, ?_⟩, ⟨onlyOne rfl ?_ ?_ ?_, ?_, ?_⟩, ⟨onlyOne rfl ?_ ?_ ?_, onlyOne rfl ?_ ?_ ?_⟩,
    ⟨onlyOne rfl ?_ ?_ ?_, ?_, ?_⟩, ⟨onlyOne rfl ?_ ?_ ?_, ?_, ⟨?_, ?_⟩, ?_⟩⟩ <;> decide +kernel
/-- A put with a place free, and to a full bag in status mode; takes of 0 and 1 records; a record that lands. -/
def takeBlock : BitVec 128 := BitVec.ofNat 128 (1 + 16352 * 2 ^ 64)
def take1 : TakeJob := ⟨0, hostTeamId, 0, 0, 0, bid, 0, 16352, 0, 32, [⟨0, 0, 0, 1⟩], 0, none⟩
def landing : State := (mapped (bagged bag1 [] (ab 0 0)) |> withChan { Chan.reset with
  run := some (.take take1) })
theorem witness_BagPutsAndTakes : (∀ ask ∈ [BagAsk.put 16352 3 none, .take ch0 0 0 3, .take ch0 takeBlock 0 3],
      (bagged bag0 [asks ask] (ab 0 0)).bagReqs = [asks ask] ∧ (asks ask).after = none ∧
        liveBag (bagged bag0 [asks ask] (ab 0 0)) (asks ask).func (asks ask).handle = some (bid, bag0) ∧
        aget (asks ask).thread.team (bagged bag0 [asks ask] (ab 0 0)).teams = some tm0 ∧ (bagged bag0 [asks ask] (ab 0 0)).holds = [] ∧
        aget hk (bagged bag0 [asks ask] (ab 0 0)).hands = some hd0 ∧ hd0.storeQ = [] ∧ hd0.fences = []) ∧ bag0.clear = none ∧
    (16352 + bag0.rsize ≤ tm0.scratch ∧ (bagged bag0 [] (ab 0 0)).spPoisoned hostTeamId tm0 16352 32 = false ∧ bag0.full = false) ∧
    (let b : Bag := { bag1 with cap := 1, fmode := 1 }
     b.full = true ∧ b.fmode = 1 ∧ liveBag (bagged b [asks (.put 16352 3 none)] (ab 0 0)) 0 h0 = some (bid, b)) ∧
    (takeFaultOf tm0 takeBlock.toNat bag0.rsize 0 = none ∧ bits takeBlock.toNat 12 0 ≠ 0 ∧ takeFaultOf tm0 (0 : BitVec 128).toNat bag0.rsize 0 = none) ∧
    (let s := withChan { Chan.reset with queue := List.replicate 3 (.chain (chainOf [])) } (bagged bag1 [asks (.take ch0 takeBlock 0 3)] (ab 0 0))
     s.bagReqs = [asks (.take ch0 takeBlock 0 3)] ∧ liveBag s 0 h0 = some (bid, bag1) ∧ (s.chan ch0).heads.length < 4 ∧ s.holds = [] ∧
       s.spPoisoned hostTeamId tm0 (bits takeBlock.toNat 116 96) 16 = false) ∧
    ((landing.chan ch0).run = some (.take take1) ∧ take1.limit = none ∧ take1.claims[take1.landed]? = some ⟨0, 0, 0, 1⟩ ∧
      bag1.recs.find? (fun r => r.seq = 1) = some rec5 ∧ rec5.written = true ∧ mayServe landing (bag1.pch 0) (engineLane 0 false) = true ∧ landing.mem.dramPoison = [] ∧
      landing.mem.spPoison = [] ∧ landing.holds = [] ∧ aget bid landing.bags = some bag1) := by decide +kernel
/-- A run of no rows, of the bag. -/
def bagRun (n : NbRun) : NbRun := { n with bag := some bid, units := [(0, ⟨[], none, none, 0, true, true, true, 0⟩)] }
theorem witness_BagLives : (∀ ask ∈ [BagAsk.count 3, .hist false 1023 3, .hist true 1023 4, .cut, .info 7, .wait],
      liveBag (bagged bag0 [asks ask] (ab 0 0)) (asks ask).func (asks ask).handle = some (bid, bag0)) ∧ bag0.iters ≤ bag0.ended ∧
    (let b : Bag := { bag1 with recs := [{ rec5 with written := false, data := List.replicate 32 1 }] }
     aget bid (bagged b [] (ab 0 0)).bags = some b ∧ b.recs.find? (fun r => r.seq = 1) = some { rec5 with written := false, data := List.replicate 32 1 } ∧
      ((bagged b [] (ab 0 0)).func b.func).dirtyEn = false ∧ (let s := bagged b [] (ab 0 0)
        let p := pchOf (b.dpa s (b.locOf 0))
        mayServe s p (engineLane 0 true) = true ∧ (s.pch p).served (engineLane 0 true) = s.pch p)) ∧
    (let b : Bag := { bag1 with recs := [{ rec5 with claimed := false }], clear := some 9 }
     b.clear = some 9 ∧ b.iter = none ∧ ∀ r ∈ b.recs, r.claimed = false) ∧
    (let b : Bag := { bag1 with iterQ := [⟨1, 1, 0⟩] }
     b.iter = none ∧ b.iterQ = [⟨1, 1, 0⟩] ∧ b.clear = none) ∧
    (let b : Bag := { bag1 with iter := some (1, 1, 0) }
     let s := { bagged b [] (ab 0 0) with runs := [(0, bagRun (hostRun [0]))] }
     aget bid s.bags = some b ∧ aget 0 s.runs = some (bagRun (hostRun [0])) ∧ ∀ u ∈ (bagRun (hostRun [0])).units, u.2.ended = true) ∧
    (let s := { bagged bag0 [] (mapped (ab 0 0)) with funcs := [(0, { func0 with bagTable := [(0, h0)] })] }
     aget 0 (s.func 0).bagTable = some h0 ∧ liveBag s 0 h0 = some (bid, bag0) ∧ bag0.iter = none ∧ bag0.iterQ = [] ∧ bag0.recs = []) := by decide +kernel
/-- A descriptor of 128-byte records over stack 31, at address 0x1000: the greatest capacity that a carve-out of two units holds, of which a page
covers the first. -/
def descState : State :=
  let s := mapped (ab 0 0)
  { s with
    funcs := [(0, { func0 with segs := [0x8000000000200000, 0, 0] })]
    mem := { s.mem with dram := memWrite s.mem.dram 0x1000 (bytesOfNat 24 (128 + 8 * 2 ^ 32 + 2 ^ 31 * 2 ^ 64 + 0 * 2 ^ 96 + 8 * 2 ^ 128)) } }
theorem witness_BagCreation : (match virtRead descState 0 0x1000 24 .read with
      | .ok (_, bs) => decide (natOfBytes bs = 128 + 8 * 2 ^ 32 + 2 ^ 31 * 2 ^ 64 + 8 * 2 ^ 128)
      | .error _ => false) = true ∧ aget 0x1000 (descState.func 0).bagTable = none ∧ 0x1000 % 4 = 0 ∧ 1024 / 128 ≤ 8 ∧
    Machine.bit (2 ^ 31) 31 = true ∧ (∀ i, i < 31 → Machine.bit (2 ^ 31) i = false) ∧ (freeOf descState (31 / 4)).head? = some (0, 0) ∧
    rowsFree descState 0 1 ((8 + 1024 / 128 - 1) / (1024 / 128)) (2 ^ 31) = true := by decide +kernel

/-- The four passes of a boundary. -/
def committing (n : Nat) : State := wd { tmD with commit := n } { hd0 with detBuf := [⟨5, 0, 0, 0, 1, 0, 0⟩] } [{ th [] with run := .tbar }] 0
theorem witness_QuantumBoundary : ∀ n ∈ [1, 2, 3, 4], aget hostTeamId (committing n).teams = some { tmD with commit := n } ∧ (committing n).holds = [] ∧
    ({ tmD with commit := n } : Team).tileEvents = [] ∧ matrixWrites (committing n) hostTeamId = false ∧ ({ tmD with commit := n } : Team).commitExit = false ∧
    ({ tmD with commit := n } : Team).commitYield = false := by decide +kernel

/-! Units. -/

/-- The unit of pseudo-channel 0 at a row operation of a run of one row at location 0. -/
def unit0 : State := placeRowOp State.reset 0
def ur0 : UnitRun := ⟨[], some ⟨0, [some 0, some 0, some 0, some 0]⟩, none, 0, true, false, false, 0⟩
theorem atRow {s : State} {p n : Nat} {r : NbRun} {x : UnitRun} (h : (decide (s.focus = .unit p) && decide (activeRun s p = some (n, r, x)) &&
    unitReady s p && decide ((s.pch p).wait = none)) = true) : AtRow s p n r x := by
  simp only [Bool.and_eq_true, decide_eq_true_eq] at h
  exact ⟨h.1.1.1, h.1.1.2, h.1.2, h.2⟩
theorem witness_RowArithmetic : AtRow unit0 0 0 (hostRun [0]) ur0 := atRow (by decide +kernel)
theorem witness_RowReductionsAndSelections : AtRow unit0 0 0 (hostRun [0]) ur0 := atRow (by decide +kernel)
/-- A row of its own unit, one of another, and one of an iteration. -/
def remote : State := { unit0 with runs := [(0, { hostRun [0] with units := [(0, { ur0 with cur := some ⟨0, [some 1024, none, none, none]⟩ })] })] }
def iterating : State := { bagged bag1 [] unit0 with
  runs := [(0, { hostRun [0] with bag := some bid, units := [(0, { ur0 with cur := none, bagRow := some 0 })] })] }
theorem witness_RowData : (AtRow unit0 0 0 (hostRun [0]) ur0 ∧ rowDpa unit0 0 0 (hostRun [0]) 3 = some 0 ∧ pchOf 0 = 0 ∧ unit0.memOk ∧
      (unit0.func (hostRun [0]).func).dirtyEn = false) ∧
    (AtRow remote 0 0 { hostRun [0] with units := [(0, { ur0 with cur := some ⟨0, [some 1024, none, none, none]⟩ })] }
        { ur0 with cur := some ⟨0, [some 1024, none, none, none]⟩ } ∧
      rowDpa remote 0 0 { hostRun [0] with units := [(0, { ur0 with cur := some ⟨0, [some 1024, none, none, none]⟩ })] } 0 = some 1024 ∧ pchOf 1024 ≠ 0) ∧
    (AtRow iterating 0 0 { hostRun [0] with bag := some bid, units := [(0, { ur0 with cur := none, bagRow := some 0 })] } { ur0 with cur := none, bagRow := some 0 } ∧
      rowDpa iterating 0 0 { hostRun [0] with bag := some bid, units := [(0, { ur0 with cur := none, bagRow := some 0 })] } 0 = some 0 ∧ (hostRun [0]).rsize = 32 ∧ locOf 0 + 1024 ≤ 2 ^ 42 ∧ (iterating.pch 0).m < 2 ^ 32 ∧
      iterating.mem.dramKey = []) := by
  refine ⟨⟨atRow ?_, ?_, ?_, ?_, ?_⟩, ⟨atRow ?_, ?_, ?_⟩, ⟨atRow ?_, ?_, ?_, ?_, ?_, ?_⟩⟩ <;> decide +kernel
/-- Lines of a write that already stand under its key, and one that stands under another. -/
theorem witness_DramUnderKeys : State.reset.memOk ∧ dramLines (locOf (2 ^ 42 + 60)) 8 = [0, 1] ∧
    (∀ s ∈ [{ State.reset with keySlots := [(1, (0, 5))], mem := { State.reset.mem with dramKey := [(0, some 5)] } },
        { State.reset with keySlots := [(1, (0, 5))], mem := { State.reset.mem with dramKey := [(0, some 6)] } }],
      s.memOk ∧ keyAt s (2 ^ 42 + 60) = some 5) := by decide +kernel
/-- The last operation of the program as a target, and the first beyond it; counters and masks of both kinds; a bag to put to. -/
def emitting : State :=
  let n : NbRun := { hostRun [0] with word := BitVec.ofNat 768 (h0.toNat * 2 ^ 512) }
  { bagged bag0 [] unit0 with runs := [(0, n)] }
theorem witness_RowControl : AtRow unit0 0 0 (hostRun [0]) ur0 ∧ (hostRun [0]).rsize ≠ 0 ∧ (unit0.pch 0).store.length = 1 ∧ (hostRun [0]).bben = false ∧
    (unit0.pch 0).l.getD 3 0 = 0 ∧ (unit0.pch 0).m = 0 ∧ (unitAt 0 0 1).pch 0 ≠ unit0.pch 0 ∧ ((unitAt 0 0 1).pch 0).m ≠ 0 ∧ ur0.emits = 0 ∧
    (let u := { unit0 with pchs := [(0, { unit0.pch 0 with l := [1, 0, 0, 0] })] }
     (u.pch 0).l.getD 0 0 ≠ 0 ∧ unitReady u 0 = true) ∧
    (liveBag emitting 0 ((activeRun emitting 0).elim 0 fun x => x.2.1.param 0) = some (bid, bag0) ∧ bag0.rsize = (hostRun [0]).rsize) := by
  refine ⟨atRow ?_, ?_, ?_, ?_, ?_, ?_, ?_, ?_, ?_, ?_, ?_⟩ <;> decide +kernel

/-! Runs, units and controllers. -/

/-- A descriptor of one row at location 0 and one operation: 32-bit elements, a status block in the scratchpad's last 16 bytes. -/
def descWord (bits9 : Nat) : Nat := 1 + bits9 * 2 ^ 9 + 2 ^ 12 + 2 ^ 32 + 16368 * 2 ^ 96 + 1024 * 2 ^ 256
def accepting : State :=
  let s := (mapped (ab 0 0)).spWrite hostTeamId tm0 16000 (bytesOfNat 100 (descWord 1 + 0x50000000 * 2 ^ 768))
  { s with runs := [(0, { hostRun [] with units := [], dom := { (hostRun []).dom with spoff := 16000 } })] }
def asked0 : State := { one [16288] with
  answers := [(7, ⟨none, 0, []⟩)]
  threads := [(threadOf hk 0, { th [16288] with ask := some 7 })] }
theorem witness_RunsAreAccepted : (let s := asked0
     OneLane s ⟨g0, srcOp (r 1) false, noOp, noOp, []⟩ hk tm0 0 ⟨16288, 0, 0⟩ ∧ s.lane hk 0 = some { th [16288] with ask := some 7 } ∧ aget 7 s.answers = some ⟨none, 0, []⟩) ∧
    (OneLane (one [16288]) ⟨g0, srcOp (r 1) false, noOp, noOp, []⟩ hk tm0 0 ⟨16288, 0, 0⟩ ∧ aget hk (one [16288]).hands = some hd0 ∧ tm0.detMode = false ∧
      (srcOp (r 1) false).mod = .none ∧ (th [16288]).ask = none ∧ (th [16288]).run = .ready ∧ (16288 % 32 = 0 ∧ 16288 + 32 ≤ tm0.scratch) ∧ 16288 + 96 ≤ tm0.scratch ∧
      acqPending (one [16288]) (threadOf hk 0) true = false) ∧
    (∀ r0 ∈ (aget 0 accepting.runs).toList, r0.ops = [] ∧ r0.bag = none ∧ r0.units = [] ∧ aget r0.team accepting.teams = some tm0 ∧
      descHeld accepting r0.team tm0 r0.dom.spoff = false ∧ readDesc accepting r0.team tm0 r0.dom.spoff false = .ok (BitVec.ofNat 768 (descWord 1), [0x50000000]) ∧
      rowAt accepting { r0 with word := BitVec.ofNat 768 (descWord 1), ops := [0x50000000] } 0 = .at [some 1024, none, none, none] ∧
      NbRun.rows { r0 with word := BitVec.ofNat 768 (descWord 1), ops := [0x50000000] } = 1 ∧
      placesFree accepting (runUnits accepting { r0 with word := BitVec.ofNat 768 (descWord 1), ops := [0x50000000] }) = true) ∧
    (aget 0 accepting.runs).isSome = true := by
  refine ⟨⟨onlyOne rfl ?_ ?_ ?_, ?_, ?_⟩, ⟨onlyOne rfl ?_ ?_ ?_, ?_, ?_, ?_, ?_, ?_, ?_, ?_, ?_⟩, ?_, ?_⟩ <;> decide +kernel

/-- The unit with a run of one unit u, and a pseudo-channel p. -/
def unitOf (u : UnitRun) (p : Pch) : State := { mapped (ab 0 0) with
  runs := [(0, { hostRun [0] with units := [(0, u)], word := BitVec.ofNat 768 (descWord 1) })]
  pchs := [(0, p)] }
def idle : UnitRun := ⟨[], none, none, 0, true, false, false, 0⟩
def pchOn : Pch := { Pch.reset with store := [0], runq := [0], active := true }
def read0 : Req := ⟨4, 0, 64, none, none, 0, (0, 0), none, 0, none, []⟩
theorem witness_UnitsAndControllers : (let s := unitOf { idle with begun := false, rows := [⟨0, [some 0]⟩] } { pchOn with active := false }
     (s.pch 0).runq = [0] ∧ (s.pch 0).active = false ∧ (s.pch 0).qreq = false ∧ (aget 0 s.runs).isSome = true) ∧
    (let s := unitOf { idle with rows := [⟨0, [some 0]⟩] } pchOn
     (activeRun s 0).map (·.2.2) = some { idle with rows := [⟨0, [some 0]⟩] } ∧ (s.pch 0).susp = none) ∧
    (let s := { unitOf { idle with cur := some ⟨0, [some 0]⟩ } { pchOn with reqs := [read0], nbarb := 64 } with cycle := 80 }
     (s.pch 0).active = true ∧ (s.pch 0).susp = none ∧ unitAway s 0 = false ∧ arbDue s 0 = true) ∧
    ((unitOf idle { pchOn with susp := some 16 }).pch 0).susp = some 16 ∧ Pch.reset.quota ≤ 16 ∧
    (let s := unitOf { idle with cur := some ⟨0, [some 0]⟩ } { pchOn with pc := 1 }
     unitReady s 0 = true ∧ (s.pch 0).store.length ≤ (s.pch 0).pc ∧ ∀ x ∈ (activeRun s 0).toList, x.2.1.bben = false) ∧
    (let s := unitOf { idle with noMore := true } pchOn
     (activeRun s 0).map (·.2.2) = some { idle with noMore := true } ∧ ∀ x ∈ (activeRun s 0).toList, x.2.1.bag = none ∧ x.2.1.waiting = []) ∧
    (let s := unitOf { idle with ended := true } pchOn
     s.holds = [] ∧ aget hostTeamId s.teams = some tm0 ∧ (aget 0 s.runs).isSome = true ∧
       ∀ r ∈ (aget 0 s.runs).toList, r.sten = true ∧ r.status = false ∧ r.bag = none ∧ r.finished = true ∧ r.away = false ∧ r.last = false ∧ r.heldN = 0 ∧ r.team = hostTeamId) ∧
    (let n : NbRun := { hostRun [0] with units := [(0, idle)], word := BitVec.ofNat 768 (descWord 1), waiting := [0] }
     let s := { unitOf idle pchOn with runs := [(0, n)] }
     aget 0 s.runs = some n ∧ 0 ∈ n.waiting ∧ rowAt s n 0 = .at [some 1024, none, none, none] ∧ n.bben = false) ∧
    (let n : NbRun := { hostRun [0] with units := [(1, idle)], word := BitVec.ofNat 768 (descWord 1), waiting := [0] }
     let s := { unitOf idle pchOn with runs := [(0, n)] }
     pchOf 1024 = 1 ∧ rowAt s n 0 = .at [some 1024, none, none, none] ∧ n.unit 1 = some idle ∧ idle.noMore = false) := by decide +kernel
/-- Requests that read and write the first and the last bytes of a piece; a quiesced pseudo-channel that has served none and one that has one to serve. -/
theorem witness_PseudoChannels : (∀ q ∈ [read0, { read0 with write := some (List.replicate 64 1) }],
      let u := (unitOf idle { Pch.reset with reqs := [read0, q] }).pch 0
      (u.holds.reqs[1]? = some q ∧ servesNext u.holds 1 = true ∧ u.qack = false ∧ unitAway (unitOf idle { Pch.reset with reqs := [read0, q] }) 0 = true ∧
        (unitOf idle { Pch.reset with reqs := [read0, q] }).mem.dramPoison = [] ∧ fairPlaces u.holds ≠ [])) ∧
    (let u := (unitOf idle { pchOn with reqs := [read0, read0], qreq := true, held := 1 }).pch 0
     u.holds.reqs = [read0] ∧ servesNext u.holds 0 = true ∧ u.qreq = true ∧ u.holds.reqs ≠ []) ∧
    ((unitOf idle { pchOn with qreq := true }).pch 0).held = 0 ∧ ((unitOf idle pchOn).pch 0).qreq = false ∧
    ((unitOf idle { pchOn with qreq := true, qack := true }).pch 0).qack = true := by decide +kernel

/-! Collectives. -/

/-- A block: fp32 sum of one element by one rank, its tree at 0x1000, its buffers at 0x2000 and 0x2004. -/
def collBlk : BitVec 512 := BitVec.ofNat 512 (0x1000 * 2 ^ 448 + 0x2000 * 2 ^ 384 + 0x2004 * 2 ^ 320 + 5 * 2 ^ 256 + 2 ^ 224 + 2 ^ 200)
/-- Fifteen slots run, and the last is free. -/
def collecting : State :=
  let s := (one [16320]).spWrite hostTeamId tm0 16320 (bytesOfNat 64 collBlk.toNat)
  { s with collSlots := (List.range 15).map fun i => ((⟨0, 0⟩, i), ⟨1, 1, 0, some hostTeamId⟩) }
def ticketed (st : Nat) : State := { one [0x13] with collSlots := [((⟨0, 0⟩, 3), ⟨1, st, 7, some hostTeamId⟩)] }
/-- A rank of two, the root, with its child on another module. -/
def rank0 : Rank := { newRank ⟨0, 0⟩ 3 hostTeamId tm0 (BitVec.ofNat 512 (collBlk.toNat + 2 ^ 200)) with
  tree := true
  children := [1]
  nodes := [(0, 0), (1, 9)]
  acc := [(0, [0x3F800000])]
  next := [(0, 0)] }
def ranked (x : Rank) : State := { mapped (ticketed 1) with ranks := [x] }
/-- The rank's job, root at 0x4000, is folded. -/
def rankInFold (x : Rank) : State := { ranked x with
  trees := [(x.queue, ⟨0x4000, 0, 0, hostTeam.eff, [], none, false, none⟩)]
  folds := [(3, ⟨⟨0x4000, 0, 0x4000, 26214400, 80, 3, 0, 0, 0⟩, 2, 1536, 0, 0, 0, 0, 0, 0, false, false, [], [], none, [], [], false⟩)] }
def chunk0 : CollMsg := ⟨false, 0, 5, 5, 0, 1, 2, 0, 1, 0, true, 0, [0, 0, 0x80, 0x3F]⟩
theorem witness_Collectives : (OneLane collecting ⟨g0, srcOp (r 1) false, noOp, noOp, [(3, false)]⟩ hk tm0 0 ⟨16320, 0, 0⟩ ∧ (16320 % 64 = 0 ∧ 16320 + 64 ≤ tm0.scratch) ∧
      collecting.spPoisoned hostTeamId tm0 16320 64 = false ∧
      (newRank ⟨0, 0⟩ 15 hostTeamId tm0 (BitVec.ofNat 512 (collecting.spNat hostTeamId tm0 16320 64))).malformed tm0.scratch = false ∧
      (collSlot collecting ⟨0, 0⟩ 15).state = 0 ∧ ∀ j, j < 15 → (collSlot collecting ⟨0, 0⟩ j).state ≠ 0) ∧
    (∀ st ∈ [1, 2, 3], ticketSlot (ticketed st) hostTeamId 0x13 = some ((⟨0, 0⟩, 3), ⟨1, st, 7, some hostTeamId⟩) ∧
      aget (⟨0, 0⟩, 3) (ticketed st).collSlots = some ⟨1, st, 7, some hostTeamId⟩ ∧ ticketSlot (ticketed st) hostTeamId 0x23 = none) ∧
    OneLane (ticketed 1) ⟨g0, srcOp (r 1) false, noOp, noOp, [(3, false)]⟩ hk tm0 0 ⟨0x13, 0, 0⟩ ∧ tm0.detMode = false ∧
    ((ranked { rank0 with code := 0x21 }).ranks.find? (fun r => r.key = (⟨0, 0⟩, 3)) = some { rank0 with code := 0x21 } ∧
      ((ranked rank0).func rank0.func).collLog = 0 ∧ ((ranked rank0).func rank0.func).resetting = false ∧ (ranked rank0).holds = []) ∧
    (let x := { rank0 with fin := [0], wrote := [0], sent := [0], next := [(0, 1)] }
     (advanceRank (ranked x) (⟨0, 0⟩, 3)).ranks.find? (fun r => r.key = (⟨0, 0⟩, 3)) = some x ∧ x.code = 0 ∧ x.tree = true ∧ x.wrote.length = x.chunks ∧
      ((advanceRank (ranked x) (⟨0, 0⟩, 3)).func x.func).collLog = 0 ∧ ((ranked x).func x.func).resetting = false ∧
      ((advanceRank (ranked x) (⟨0, 0⟩, 3)).func x.func).resetting = false ∧ (advanceRank (ranked x) (⟨0, 0⟩, 3)).holds = []) ∧
    (targetRank (ranked rank0) { chunk0 with refusal := true } = some rank0 ∧ 1 ∈ rank0.children ∧ rankFolded (rankInFold rank0) rank0 = true ∧
      targetRank (rankInFold rank0) chunk0 = some rank0) ∧
    (targetRank (ranked rank0) chunk0 = some rank0 ∧ rankFolded (ranked rank0) rank0 = false ∧ chunk0.refusal = false ∧ rank0.tree = true ∧ rank0.code = 0 ∧ fits (ranked rank0) rank0 chunk0 = true ∧
      fits (ranked rank0) rank0 { chunk0 with opc := 2 } = true ∧ sameColl rank0 5 2 chunk0.count chunk0.nrank chunk0.hash = false ∧
      sameColl rank0 chunk0.opid chunk0.opc chunk0.count chunk0.nrank chunk0.hash = true ∧ (chunk0.sender, chunk0.chunk) ∉ rank0.got ∧ chunk0.up = true) := by
  refine ⟨⟨onlyOne rfl ?_ ?_ ?_, ?_, ?_, ?_, ?_, ?_⟩, ?_, onlyOne rfl ?_ ?_ ?_, ?_, ⟨?_, ?_, ?_, ?_⟩,
    ⟨?_, ?_, ?_, ?_, ?_, ?_, ?_, ?_⟩, ?_, ⟨?_, ?_, ?_, ?_, ?_, ?_, ?_, ?_, ?_, ?_, ?_⟩⟩ <;> decide +kernel

/-! Issue. -/

def fetching : State := mapped (wd tm0 hd0 [th []] 0)
def issuing (hs : List (HandKey × Hand)) (us : List (ThreadKey × Thread)) : State := { wd tm0 hd0 [] 0 with hands := hs, threads := us, cycle := 100 }
def handAt (age : Nat) : Hand := { hd0 with bundles := [⟨0, 1, age⟩] }
theorem witness_Issue : (fetching.lane hk 0 = some (th []) ∧ aget hostTeamId fetching.teams = some tm0 ∧ (th []).run = .ready ∧ (th []).go = none ∧ heldLine (th []) = none ∧
      reach fetching tm0.func (lineAddr (th []).pc).toNat .fetch = .dram 0 (some 0) ∧ dramPoisoned fetching (locOf 0) 64 = false ∧ fetching.glitch = 0 ∧
      nops = BitVec.ofNat 512 (natOfBytes (dramRead fetching 0 64)) ∧ parityOk nops = true ∧ formatOk nops = true) ∧
    (let s := issuing [(hk, { hd0 with bundles := [⟨0, 1, 3⟩, ⟨16, 4, 2⟩, ⟨0, 2, 1⟩] })] [(threadOf hk 0, th [])]
     quadHands s q0 = [hk] ∧ (aget hk s.hands).map (·.serve) = some [] ∧ waitingBundles (issuing [(hk, handAt 1)] [(threadOf hk 0, th [])]) q0 = [] ∧
      throttledNow s q0 = false ∧ currentHand s q0 = none) ∧
    offers (issuing [(hk, handAt 1)] [(threadOf hk 0, th [])]) q0 none = [(hk, ⟨0, 1, 1⟩)] ∧
    offers (issuing [(hk, handAt 37), (hk1, handAt 36)] [(threadOf hk 0, th []), (threadOf hk1 0, th [])]) q0 none = [(hk, ⟨0, 1, 37⟩), (hk1, ⟨0, 1, 36⟩)] ∧
    waitingBundles (issuing [(hk, handAt 37), (hk1, handAt 36)] [(threadOf hk 0, th []), (threadOf hk1 0, th [])]) q0 = [] ∧
    offers (issuing [(hk, hd0)] [(threadOf hk 0, th [])]) q0 none = [] ∧
    (64 ≤ (issuing [] []).cycle - 36 ∧ (issuing [] []).cycle - 37 < 64) ∧
    (formedSet (four [[], [], [], []]) hk 3 = some [0, 1, 2, 3] ∧ aget hk (four [[], [], [], []]).hands = some hd0 ∧
      teamIssues (four [[], [], [], []]) hostTeamId = true ∧ detSched (four [[], [], [], []]) hk = false) := by decide +kernel

/-! Trees and teams. -/

/-- Bytes in function 0's first page. -/
def poked (a : Nat) (bs : List Byte) (s : State) : State := { s with mem := { s.mem with dram := memWrite s.mem.dram a bs } }
/-- A GROUP template with weights of 1, and a LAUNCH of one team of one hand of 32 threads of 8 registers with a scratchpad of 32 KiB and 4 tiles. -/
def groupWord : Nat := 1 + 2 ^ 336 + 2 ^ 352 + 2 ^ 368
def launchWord : Nat := 2 + 2 ^ 336 + 2 ^ 352 + 2 ^ 368 + 2 ^ 832 + 2 ^ 864 + 2 ^ 880 + 2 ^ 898 + 2 ^ 904 + 4 * 2 ^ 912 + 32768 * 2 ^ 928
/-- Queue 63 with one entry, which holds a root. -/
def rooted (root : Nat) (tail : Word) : State := poked 0x2000 (bytesOfNat 128 groupWord) (poked 0x1000 (bytesOfNat 8 root) { mapped (ab 0 0) with
  queues := [(63, { Queue.reset with tmpl := 0x2000, base := 0x1000, tail := tail, en := true })] })
def eff1 : Eff := ⟨1, 1, 1, 0, 0, 0, 0, 0, 0, 0⟩
def launch0 : Node := { newNode 0x4000 0 0 (BitVec.ofNat 5120 launchWord) eff1 with state := 1 }
def tree0 (n : Node) : Tree := ⟨0x4000, 0, 0, eff1, [n], none, false, none⟩
def treed (n : Node) (s : State) : State := { mapped s with trees := [(0, tree0 n)] }
def dispOn (d : Dispatcher) (s : State) : State := { s with dispatchers := [(7, d)] }
def ready1 (r : Except Miss (State × List Byte)) (p : State → Nat → Bool) : Bool :=
  match r with
  | .ok (s, bs) => p s (natOfBytes bs)
  | .error _ => false
theorem witness_LaunchTrees : ({ rooted 0 1 with health := { Health.reset with ready := [.func 0] } }.queue 63).func = 0 ∧
    funcReady { rooted 0 1 with health := { Health.reset with ready := [.func 0] } } 0 = true ∧ (∀ root ∈ [0, 0x4000], ((rooted root 1).queue 63).en = true ∧ ((rooted root 1).queue 63).busy = false ∧
      ((rooted root 1).queue 63).head ≠ ((rooted root 1).queue 63).tail ∧ ((rooted root 1).func 0).resetting = false ∧ ((rooted root 1).queue 63).owed = false ∧ (1 - 0 : Word).toNat ≤ 2 ^ 0) ∧
    (∀ root ∈ [0, 0x4000], ready1 (virtRead (rooted root 1) 0 0x1000 8 .read) (fun s1 x => decide (x = root) && ready1 (virtRead s1 0 0x2000 128 .read) fun _ w =>
        decide (tmplReason 0x2000 (BitVec.ofNat 5120 w) = none)) = true) := by decide +kernel
/-- A tree whose template has failed, with a root that can be read. -/
def badTree : State := { treed launch0 (ab 0 0) with trees := [(0, { tree0 launch0 with bad := some 1 })] }
theorem witness_LaunchNodes : (2 ^ 0 < (((rooted 0 2).queue 63).tail - ((rooted 0 2).queue 63).head).toNat ∧
      ready1 (virtRead ((rooted 0 2).modQueue 63 fun u => { u with en := false, asked := none, owed := true }) 0 (0x2000 + 64) 2 .read) (fun _ _ => true) = true) ∧
    (aget 0 badTree.trees = some { tree0 launch0 with bad := some 1 } ∧ folded badTree (tree0 launch0) = false ∧ (match readNode badTree 0 0x4000 with
      | .ok _ => true
      | .error _ => false) = true) ∧
    (∀ n ∈ [{ launch0 with fields := 3 }, { launch0 with addr := 64 }], n.kind ≠ 1 ∧ n.kind ≠ 2 ∨ n.addr % 128 ≠ 0) ∧ (launch0.kind = 2 ∧ launch0.addr % 128 = 0 ∧ 7 < { launch0 with level := 8 }.level) ∧
    (aget 0 { treed launch0 (ab 0 0) with trees := [(0, { tree0 launch0 with waiting := some ⟨0x4000, 0x4080, none, none⟩ })] }.trees).map (·.waiting.isSome) = some true ∧
    (∀ n ∈ [{ launch0 with allDisp := true, retired := 0 }, { launch0 with allDisp := false, retired := 0 }],
      (let s := dispOn { Dispatcher.reset with notices := [(0, 0x4000)] } (treed n (ab 0 0))
       (s.disp 7).notices = [(0, 0x4000)] ∧ (tree0 n).node 0x4000 = some n)) ∧
    (({ launch0 with allDisp := true } : Node).retired + 1 = launch0.count ∧ launch0.addr = (tree0 launch0).root ∧ launch0.succ = []) ∧
    (let w : Sweep := ⟨0, 0x4000, launch0.rw, 0x4000, 0, 0, none⟩
     let s := dispOn { Dispatcher.reset with sweeps := [w] } (treed launch0 (ab 0 0))
     (s.disp 7).sweeps[0]? = some w ∧ (match writeRw s w.func w.addr w.data with
       | .ok _ => true
       | .error _ => false) = true) := by decide +kernel

/-- A core of function 0, which holds quadrant 0, a group of banks and a group of tile entries. -/
def roomy : State := { treed { launch0 with readyAt := 1 } State.reset with
  cores := [(⟨0, 0⟩, { Core.reset with bankOwner := [(0, 0)], tileOwner := [(0, 0)] })]
  quadOwner := [(q0, 0)]
  health := { Health.reset with ready := [.die 0] } }
/-- Entry of kind 1: 64 bytes from address 0 to offset 0. -/
def copyEntry : BitVec 128 := BitVec.ofNat 128 (64 * 2 ^ 64 + 2 ^ 125)
def stagingTeam (es : List (BitVec 128)) : State := mapped (wd { tm0 with st := .staging, region := es, stageWait := 0 } hd0 [] 0)
def drainTeam : Team := { tm0 with st := .draining, region := [] }
def dispatching (k : Nat) : State := dispOn { Dispatcher.reset with incoming := [⟨0, 0x4000, 0, 1, 0, 0, 0, 0, k⟩] } roomy
def drainingState : State := mapped (wd drainTeam hd0 [{ th [] with run := .exited }] 0)
theorem witness_TeamPlaced : roomy.memOk ∧ roomy.health.ready.contains (.die 0) = true ∧
    (match chooseQueue roomy 0 with
      | some (q, t, _, [(.fresh i, p)]) => decide (q = 0 ∧ t.root = 0x4000 ∧ i = 0 ∧ p.id = ⟨0, 0, 0⟩ ∧ p.quads = [0] ∧ p.tiles = [0, 1, 2, 3])
      | _ => false) = true := by decide +kernel
theorem witness_TeamLives : (∀ es ∈ [[], [copyEntry]], aget hostTeamId (stagingTeam es).teams = some { tm0 with st := .staging, region := es } ∧
      tm0.staged = 0 ∧ tm0.stageWait = 0 ∧ tm0.w ≠ 0) ∧
    (regionKind copyEntry = 1 ∧ ready1 (virtRead (stagingTeam [copyEntry]) 0 (regionBase copyEntry 0) (regionLen copyEntry) .read) (fun _ _ => true) = true ∧
      (stagingTeam [copyEntry]).pchs = [] ∧ Pch.reset.susp = none ∧ (stagingTeam [copyEntry]).mem.spPoison = []) ∧
    aget hostTeamId (wd { tm0 with st := .staging, stageWait := 1 } hd0 [] 0).teams = some { tm0 with st := .staging, stageWait := 1 } ∧
    (∀ k ∈ [1, 2], ((dispatching k).disp 7).incoming = [⟨0, 0x4000, 0, 1, 0, 0, 0, 0, k⟩]) ∧
    (aget hostTeamId drainingState.teams = some drainTeam ∧ drainTeam.stageWait = 0 ∧ drained drainingState hostTeamId drainTeam = true ∧
      backPieces drainTeam = []) := by decide +kernel

/-! Translations. -/

def pageAt (va : Nat) (st : PageState) : Page := { page0 with va := va, state := st, fa := va, addr := 0 }
def paged (ps : List Page) (s : State) : State := { mapped s with funcs := [(0, { func0 with pages := ps })] }
/-- A fetch by the only thread of a page that is not mapped, and of one that may not be executed. -/
def fetchMiss (p : Option Page) : State := paged p.toList { wd tm0 hd0 [{ th [] with run := .fetch 0x10040 0x10 }] 0 with chans := [] }
/-- The page that an address lies in, or would. -/
def pageOr (s : State) (va : Nat) : Nat :=
  match (s.func 0).page va with
  | some p => p.va
  | none => va / 65536 * 65536
def rec1 : FaultRec := ⟨0x10, true, 0, 1, 1, 0, 0, 0, 0, 0, 0, 0, 0, 0, 0, 0, 0x20000, 0, 0x20000, 0, 0, 0, false⟩
def pageNew : Page := pageAt 0x10000 .resident
def noExec : Page := { pageNew with ex := false }
def twice : Page := { pageAt 0 .resident with dup := true, holders := [9] }
def pulling : Page := pageAt 0 .pulling
def faulted : State := { mapped (ab 0 0) with faults := ⟨[rec1], []⟩ }
def busyPage : State := { paged [page0] (ab 0 0) with pchs := [(0, { Pch.reset with reqs := [read0] })] }
theorem witness_Translations : (∀ fill ∈ [[], List.replicate 64 (1 : Byte)], pageOk pageNew = true ∧ pageMeets ((mapped (ab 0 0)).func 0) pageNew = false ∧
      pageNew.state = .resident ∧ fill.length ≤ pageNew.size ∧ oldBusy (mapped (ab 0 0)) 0 pageNew.va = false ∧
      pastSegment (paged [page0, pageNew] (ab 0 0)) 0 (pageNew.fa + fill.length - 1) = false ∧ fillFree (mapped (ab 0 0)) 0 0x10000 fill.length = true) ∧
    (pageMeets (busyPage.func 0) page0 = false ∧ oldBusy busyPage 0 page0.va = true) ∧ secondStage (paged [page0, pageNew] (ab 0 0)) 0 pageNew.fa false = .dram 0x10000 (some 0) ∧
    rec1 ∈ (resolveFaults faulted 0 0x10000 65536).faults.raw ∧ rec1.wait = true ∧ rec1.func = 0 := by decide +kernel
theorem witness_PageRefused : ∀ e ∈ [(none, 0x10), (some noExec, 0x11)],
    (fetchMiss e.1).threads = [(threadOf hk 0, { th [] with run := .fetch 0x10040 0x10 })] ∧ funcOf (fetchMiss e.1) (threadOf hk 0) = 0 ∧
    translate (fetchMiss e.1) 0 (lineAddr 0x10040).toNat .fetch = .dealer e.2 0x10000 ∧ pageOr (fetchMiss e.1) 0x10040 = 0x10000 ∧ (fetchMiss e.1).chans = [] ∧
    (fetchMiss e.1).runs = [] ∧ (fetchMiss e.1).trees = [] ∧ (fetchMiss e.1).dispatchers = [] ∧ (fetchMiss e.1).ranks = [] ∧
    (fetchMiss e.1).saved = [] ∧ (fetchMiss e.1).folds = [] ∧ ∀ x ∈ (fetchMiss e.1).teams, x.2.stageWait = 0 := by decide +kernel
theorem witness_PageChanged : (∀ old ∈ [page0, pageAt 0 (.migrating false), pageAt 0 (.migrating true)],
      ((paged [old] (ab 0 0)).func 0).pages.find? (fun p => p.va = old.va) = some old ∧ oldBusy (paged [old] (ab 0 0)) 0 old.va = false ∧
      pageOk (pageAt 0 .remote) = true ∧ (pageAt 0 .remote).va = old.va ∧ pageMeets ((paged [old] (ab 0 0)).func 0) (pageAt 0 .remote) = false ∧
      (pageAt 0 .remote).size = old.size) ∧
    ((busyPage.func 0).pages.find? (fun p => p.va = page0.va) = some page0 ∧ pageBusy busyPage 0 page0 = true) ∧
    (∀ va ∈ [0, 65535], ((paged [pulling] (ab 0 0)).func 0).page va = some pulling ∧ pulling.state = .pulling ∧ pullsNext pulling (va / 128) = true ∧
      secondStage (paged [pulling] (ab 0 0)) 0 (pulling.fa + (va / 128 * 128 - pulling.va)) true = .dram (va / 128 * 128) (some 0) ∧
      mayServe (paged [pulling] (ab 0 0)) (pchOf (va / 128 * 128)) (engineLane 0 true) = true) ∧
    (let p : Page := { pulling with wanted := [3, 511], pulled := [3] }
     ((paged [p] (ab 0 0)).func 0).page 65535 = some p ∧ p.wanted.filter (fun w => !p.pulled.contains w) = [511] ∧ 384 / 128 ≠ 511 ∧
       pullsNext p (65535 / 128) = true) ∧
    (dupPages (paged [twice] (ab 0 0)) 9)[0]? = some (0, twice) ∧ ({ func0 with dirtyPend := true } : Func).swapt ≤ (ab 0 0).fab.time := by decide +kernel
/-- Lines of 128 bytes on their way: to a node and to host memory, read and written; a peer that is lost, reset, and as it was. -/
def fwd (nd : Option Nat) (w : Option (List Byte)) : Forward := ⟨3, 0, nd, 1, 0, 0, w, 128, some ch0, 0, none, 3, none⟩
def linked (lost : List Nat) (inc : Word) (f : Forward) : State := { mapped (ab 0 0) with
  forwards := [f]
  fab := { Fabric.reset with
    lost := lost, peers := [(9, inc)], routes := [(9, 35)], ports := [(35, { Port.reset with trained := true, peer := 9 })] } }
theorem witness_ForwardedLines : (∀ w ∈ [none, some (List.replicate 128 (1 : Byte))],
      (linked [9] 1 (fwd (some 9) w)).forwards[0]? = some (fwd (some 9) w) ∧ 9 ∈ (linked [9] 1 (fwd (some 9) w)).fab.lost ∧
      9 ∉ (linked [] 2 (fwd (some 9) w)).fab.lost ∧ agetD 9 (fwd (some 9) w).inc (linked [] 2 (fwd (some 9) w)).fab.peers ≠ (fwd (some 9) w).inc ∧
      agetD 9 (fwd (some 9) w).inc (linked [] 1 (fwd (some 9) w)).fab.peers = (fwd (some 9) w).inc ∧
      lineTravels (linked [] 1 (fwd (some 9) w)) (fwd (some 9) w) = true ∧ lineOvertakes (linked [] 1 (fwd (some 9) w)) (fwd (some 9) w) = false ∧
      lineTravels { linked [] 1 (fwd (some 9) w) with fab := { Fabric.reset with peers := [(9, 1)] } } (fwd (some 9) w) = false) ∧
    (let s := { linked [] 1 (fwd (some 9) none) with forwards := [{ fwd (some 9) (some [1]) with id := 2, group := 2 }, fwd (some 9) none] }
     s.forwards[1]? = some (fwd (some 9) none) ∧ lineOvertakes s (fwd (some 9) none) = true) ∧
    ((linked [] 1 (fwd none none)).forwards[0]? = some (fwd none none) ∧ (fwd none none).node = none ∧ (fwd none none).write = none ∧
      lineTravels (linked [] 1 (fwd none none)) (fwd none none) = true ∧ lineOvertakes (linked [] 1 (fwd none none)) (fwd none none) = false) ∧
    (let s := { mapped (ab 0 0) with fab := { Fabric.reset with exports := [⟨0, 0, 0x10000, 0x20000, 0⟩] } }
     let p := pageAt 0 .remote
     ∀ va ∈ [0, 65535], p.node ∉ s.fab.lost ∧ agetD p.node p.inc s.fab.peers = p.inc ∧ p.node = s.fab.node ∧
      ∀ e ∈ s.fab.exports, ¬ (e.node = p.node ∧ e.func = 0 ∧ e.lo ≤ (p.addr + (va - p.va)) % 2 ^ 42 ∧ (p.addr + (va - p.va)) % 2 ^ 42 < e.hi)) ∧
    (aget 9 (linked [] 1 (fwd (some 9) none)).fab.peers = some 1 ∧ (1 : Word) ≠ 2) ∧
    (∀ t ∈ [199999, 200000], let s := { linked [] 1 (fwd (some 9) none) with fab := { Fabric.reset with noRoute := [(9, 0)], time := t } }
     aget 9 s.fab.noRoute = some 0 ∧ 9 ∉ s.fab.lost ∧ hasRoute s 9 = false) := by decide +kernel
/-- Node 9 reads and writes the last bytes of a line that is exported to it, poisoned and not, while the controller serves and while it quiesces;
and a line that is not. -/
def exporting (poison : List Nat) (q : Bool) : State :=
  let s := linked [] 1 (fwd (some 9) none)
  { s with
    fab := { s.fab with exports := [⟨9, 0, 0, 0x10000, 0⟩] }
    mem := { s.mem with dramPoison := poison }
    pchs := [(0, { Pch.reset with qreq := q })] }
theorem witness_LinesThatCome : 9 ≠ (exporting [] false).fab.node ∧ portTo (exporting [] false) 9 ≠ none ∧ 124 % 128 + 4 ≤ 128 ∧ vcBlocked (exporting [] false) 35 (lineVc 0) = false ∧
    (9, 5) ∉ (exporting [] false).fab.tags ∧ 124 + 4 ≤ 2 ^ 41 ∧
    (∀ e ∈ (exporting [] false).fab.exports, ¬ (e.node = 9 ∧ e.func = 1 ∧ e.lo ≤ 124 ∧ 124 < e.hi)) ∧
    (∀ x ∈ [([], false), ([1], false), ([], true)], ∀ wr ∈ [true, false], ownExport (exporting x.1 x.2) 9 0 124 wr = .dram 124 (some 0)) ∧
    mayServe (exporting [] false) (pchOf 124) (farLane 9 0 true) = true ∧ mayServe (exporting [] true) (pchOf 124) (farLane 9 0 true) = false ∧
    dramPoisoned (exporting [] false) 124 4 = false ∧ dramPoisoned (exporting [1] false) 124 4 = true := by decide +kernel

/-! Faults and the mailbox. -/

def readyFunc (s : State) : State := { s with health := { s.health with ready := [.func 0] } }
def mailed (w : Nat) : State := readyFunc { mapped (ab 0 0) with funcs := [(0, { func0 with mailbox := bytesOfNat 32 w, msixTable := [(1, 0)] })] }
/-- A thread at lane 63 that a fault stopped, in a team of a tree. -/
def stopped63 : State := { readyFunc { treed launch0 (wd { tm0 with node := 0x4000 } hd0 [] 0) with funcs := [(0, { func0 with msixTable := [(1, 0)] })] } with threads := [(threadOf hk 63, { th [] with run := .stopped 1 })] }
/-- A fault queue at 0x40: an empty ring of one entry, and one of two that holds one. -/
def recQ : FaultRec := { rec1 with fq := 0x40 }
def isDone : Appended → Bool
  | .done _ _ => true
  | _ => false
theorem witness_FaultsAndMailbox : (let s := { mapped (ab 0 0) with faults := ⟨[rec1], []⟩ }
     s.faults.raw = [rec1] ∧ s.faults.merged.any (sameFault · rec1) = false) ∧
    (let s := { mapped (ab 0 0) with faults := ⟨[rec1], [rec1]⟩ }
     s.faults.merged = [rec1] ∧ sameFault rec1 rec1 = true ∧ rec1.written = false) ∧
    (∀ x ∈ [0, 1 + 2 ^ 64], let s := { poked 0x40 (bytesOfNat 16 x) (mapped (ab 0 0)) with faults := ⟨[], [recQ]⟩ }
     s.faults.merged = [recQ] ∧ recQ.written = false ∧ isDone (ringAppend s recQ.func recQ.fq 64 recQ.word) = true) ∧
    (∀ op ∈ [0x21, 0x22, 0x23], bits (natOfBytes ((mailed op).func 0).mailbox) 31 0 = op ∧ funcReady (mailed op) 0 = true ∧
      (((mailed op).func 0).vector 1).getLsbD 96 = false) ∧ funcReady State.reset 0 = false ∧
    (ownsNode stopped63 0 0x4000 = true ∧ findTeam stopped63 0 0x4000 0 = some hostTeamId ∧ aget ⟨hostTeamId, 0, 63⟩ stopped63.threads = some { th [] with run := .stopped 1 } ∧
      ownsNode stopped63 0 0x4080 = false ∧ aget hostTeamId stopped63.teams = some { tm0 with node := 0x4000 } ∧ tm0.st = .running ∧ tm0.chain = false ∧ tm0.detMode = false ∧
      tm0.queue < 64 ∧ aget tm0.queue stopped63.trees = some (tree0 launch0) ∧ (tree0 launch0).node 0x4000 = some launch0 ∧
      funcReady stopped63 0 = true ∧ ((stopped63.func 0).vector 1).getLsbD 96 = false) ∧
    (∀ v ∈ [16 + 2 ^ 16, 1000 + 255 * 2 ^ 16], 16 ≤ bits v 9 0 ∧ bits v 9 0 ≤ 1000 ∧ bits v 23 16 ≠ 0) := by decide +kernel
/-- Segments written: the greatest, the last unit, with and without a team of the function; the last word of a request area; halts with and without
the partition's consent; a thread's last register, empty. -/
def emptied : Thread := { th [] with full := List.replicate 15 true ++ [false] }
theorem witness_Registers : (∀ v ∈ [2 ^ 39, 2 ^ 20 + (2 ^ 20 - 1)], onAny State.reset 0 = false ∧ bits v 39 20 ≠ 0 ∧ bits v 39 20 ≤ 2 ^ 19 ∧
      bits v 39 20 + bits v 19 0 ≤ 2 ^ 20) ∧ onAny (ab 0 0) 0 = true ∧
    (let s := { mailed 0 with funcs := [(0, { func0 with mailbox := List.replicate 2040 0 })] }
     funcReady s 0 = true ∧ 2040 + 8 ≤ 2048 ∧ 2040 ≤ (s.func 0).mailbox.length) ∧
    (mayHalt State.reset ⟨0, 0⟩ = true ∧ mayHalt roomy ⟨0, 0⟩ = false ∧ Machine.bit (2 ^ 31) 31 = true ∧ Machine.bit (2 ^ 30) 31 = false ∧ Machine.bit (2 ^ 30) 30 = true) ∧
    (let s := debugged (wd tm0 hd0 [emptied] 0)
     aget hostTeamId s.teams = some tm0 ∧ aget (threadOf hk 0) s.threads = some emptied ∧ (s.func tm0.func).debugEn = true ∧ (15#8).toNat < tm0.regs ∧
       emptied.regs.length = tm0.regs ∧ emptied.full.length = tm0.regs ∧ isFull emptied 15 false = false) := by decide +kernel

/-! Partitions. -/

def funced (fn : Nat) (f : Func) (s : State) : State := { s with funcs := [(fn, f)] }
def timed (t : Nat) (s : State) : State := { s with fab := { s.fab with time := t } }
def sliced (st : Nat) : Node := { launch0 with state := st, eff := { eff1 with slice := 1 } }
/-- A team of the tree, one microsecond before its deadline's end and at it; and at rest, halted. -/
def due : Node := { launch0 with state := 2, pending := true, why := 1 }
def late (t : Nat) : State := timed t (treed due (wd { tm0 with node := 0x4000 } hd0 [] 0))
def atEase : Team := { tm0 with node := 0x4000, suspendAt := some true, halted := true }
def leaving : State := { treed due (wd atEase hd0 [{ th [] with run := .exited }] 0) with
  focus := .none
  funcs := [(0, { func0 with ctxPool := [0x3000] })] }
def went (n : Node) : State := treed n State.reset
theorem witness_Partitions : (∀ u ∈ [1249, 1250], let s := funced 64 { Func.reset with budget := 1, used := u } State.reset
     (s.func 64).budget ≠ 0 ∧ (s.func 64).throttled = false ∧ (u < 1250 → usedNow s 64 < (s.func 64).budget * 1250) ∧
       (u = 1250 → (s.func 64).budget * 1250 ≤ usedNow s 64)) ∧
    (let s := timed 1000000 (funced 64 { Func.reset with used := 7 } State.reset)
     (s.func 64).period * 1000000 ≠ 0 ∧ s.fab.time / ((s.func 64).period * 1000000) ≠ (s.func 64).periodAt / ((s.func 64).period * 1000000)) ∧
    (∀ st ∈ [1, 2, 3], nodeAt (went (sliced st)) 0 0x4000 = some (sliced st) ∧ (sliced st).kind = 2 ∧ (sliced st).pending = false ∧
      nodeTeams (went (sliced st)) 0 0x4000 (· = .staging) = []) ∧
    ((sliced 2).eff.slice ≠ 0 ∧ (sliced 2).runAt + (sliced 2).eff.slice * 1000 ≤ (timed 1000 (went (sliced 2))).fab.time ∧
      (timed 999 (went (sliced 2))).fab.time < (sliced 2).runAt + (sliced 2).eff.slice * 1000) ∧
    (nodeAt (went { sliced 3 with why := 2 }) 0 0x4000 = some { sliced 3 with why := 2 } ∧ (sliced 3).addr = 0x4000) := by decide +kernel
theorem witness_Suspension : (∀ t ∈ [199999, 200000], aget hostTeamId (late t).teams = some { tm0 with node := 0x4000 } ∧
      escalateAt (late t) { tm0 with node := 0x4000 } = some 200000 ∧ tm0.st = .running ∧ tm0.suspendAt = none ∧
      slicePending (late t) { tm0 with node := 0x4000 } = true) ∧
    (aget hostTeamId leaving.teams = some atEase ∧ atEase.chain = false ∧ atEase.suspendAt = some true ∧ teamRests leaving hostTeamId atEase = true ∧
      (leaving.func atEase.func).ctxPool = [0x3000] ∧
      leaving.saved = []) ∧
    (∀ n ∈ [due, { due with why := 2 }], nodeAt (went n) 0 0x4000 = some n ∧ n.addr = 0x4000 ∧ n.pending = true ∧ nodeTeams (went n) 0 0x4000 (fun _ => true) = [] ∧ (went n).saved = [] ∧
      teamsRemain (went n) 0 n = true) ∧ teamsRemain (went { due with nextTeam := 1 }) 0 { due with nextTeam := 1 } = false := by decide +kernel
/-- A team of function 64 that runs, and no fold. -/
def guest : State := wd { tm0 with func := 64 } hd0 [th []] 0
theorem witness_Resets : (∀ fn, fn < 65 → foldSweeps guest fn = false) ∧ atRest (beginReset guest 64) 64 = true ∧
    guest.health.pfReset = none ∧ foldSweeps { guest with folds := [(3, ⟨⟨0, 0, 0x4000, 26214400, 80, 3, 0, 0, 64⟩, 1, 0, 0, 0, 0, 0, 0, 0, false, false, [], [], none, [], [], false⟩)] } 64 =
      true := by decide +kernel
theorem witness_Grants : (∀ e ∈ coreTeams (ab 0 0) ⟨0, 1⟩, 3 ∉ e.2.quads) ∧ ErrUnit.regSlice ⟨0, 1, 3⟩ ∉ (ab 0 0).health.lasting ∧
    coreFree (ab 0 0) ⟨0, 1⟩ (aget 15 ((ab 0 0).core ⟨0, 1⟩).bankOwner) (some 64) = true ∧ (∀ b ∈ ((ab 0 0).core ⟨0, 1⟩).stuck, b / 4 ≠ 15) ∧
    ((ab 0 0).queue 63).busy = false := by decide +kernel

/-! Folds and links. -/

/-- A job of function 0 whose kitty is at 0x4000, with late packets in a second page. -/
def cmd0 : FoldCmd := ⟨0, 200000, 0x4000, 26214400, 80, 3, 0, 0, 0⟩
def packet0 : Packet := ⟨0, 9, .xbar, 2, 1, 3, [5]⟩
def fold0 (k : Nat) : Fold := ⟨cmd0, k, if k = 2 then 1536 else 0, 200000, 0, 0, 0, 0, 0, false, false, [], [], none, [], [], false⟩
def folding (k t : Nat) (ps : List Packet) : State := { timed t (paged [page0, { pageAt 0x1900000 .resident with fa := 0x10000 }] (ab 0 0)) with
  folds := [(3, fold0 k)]
  fab := { Fabric.reset with time := t, packets := ps } }
def written (r : Except Miss State) (p : State → Bool) : Bool :=
  match r with
  | .ok s => p s
  | .error _ => false
theorem witness_Folds : (cmd0.func ≤ 64 ∧ aget cmd0.job (ab 0 0).folds = none ∧ 26214400 ≤ cmd0.mainLen ∧ cmd0.kva % 64 = 0 ∧ (ab 0 0).fab.time + 200000 ≤ cmd0.t) ∧
    (∀ c ∈ [{ cmd0 with mainLen := 26214399 }, { cmd0 with kva := 0x4020 }, { cmd0 with t := 199999 }],
      c.mainLen < 26214400 ∨ c.kva % 64 ≠ 0 ∨ c.t < (ab 0 0).fab.time + 200000) ∧
    (let s := folding 1 200000 [packet0]
     let f1 : Fold := { fold0 1 with swept := sweepKey packet0, mainN := 1, mainB := 80 }
     aget 3 s.folds = some (fold0 1) ∧ (fold0 1).cmd.job = 3 ∧ (fold0 1).cmd.t ≤ s.fab.time ∧ (fold0 1).kstate = 1 ∧ (fold0 1).stale = false ∧ s.fab.packets = [packet0] ∧ packet0.job = 3 ∧
       (packetBytes packet0 false 0).length = 80 ∧
       written (virtWrite s 0 (cmd0.kva + 64 + 0) (packetBytes packet0 false 0)) (fun s1 =>
         written (virtWrite (setFold { s1 with fab := { s1.fab with packets := [] } } f1) 0 cmd0.kva (bytesOfNat 64 (kittyHead { f1 with kstate := 2, sealT := 200000, swept := 1536 }))) fun _ => true) = true) ∧
    (folding 1 199999 []).fab.time < cmd0.t ∧ aget packet0.job (ab 0 0).folds = none ∧
    (∀ p ∈ [{ packet0 with port := 0, vc := 0 }, { packet0 with port := 35, vc := 7, flits := List.replicate 16 0 }], packetCarried p = true ∧
      vcBlocked (folding 2 200000 []) p.port p.vc = false ∧ p.port * 8 + p.vc < (fold0 2).swept ∧ (fold0 1).swept ≤ p.port * 8 + p.vc) := by decide +kernel
theorem witness_LatePackets : (∀ t ∈ [249999, 250000], aget packet0.job (folding 2 t []).folds = some (fold0 2) ∧ (fold0 2).t2 = none ∧ packet0.port * 8 + packet0.vc < (fold0 2).swept ∧ (fold0 2).kstate = 2 ∧
      (t = 249999 → t < (fold0 2).sealT + 50 * 1000) ∧ (t = 250000 → (fold0 2).sealT + 50 * 1000 ≤ t)) ∧
    (packetBytes { packet0 with stage := .ingress } true 0).length ≤ cmd0.lateLen ∧
    written (virtWrite (folding 2 249999 []) 0 (cmd0.kva + 64 + cmd0.mainLen + 0) (packetBytes { packet0 with stage := .ingress } true 0)) (fun s1 =>
      written (virtWrite (modFold s1 3 fun f => { f with lateN := f.lateN + 1, lateB := f.lateB + 80, stale := true }) 0 cmd0.kva
        (bytesOfNat 64 (kittyHead { fold0 2 with lateN := 1, lateB := 80 }))) fun _ => true) = true ∧
    (∀ t ∈ [299999, 300000], let s := { folding 2 t [] with folds := [(3, { fold0 2 with t2 := some 300000 })] }
      aget 3 s.folds = some { fold0 2 with t2 := some 300000 } ∧ (s.func cmd0.func).resetting = false) ∧
    (stillFolding (folding 2 300000 []) cmd0 = false ∧ written (virtWrite (modFold (folding 2 300000 []) 3 fun f => { f with kstate := 3, stale := true }) 0 cmd0.kva
        (bytesOfNat 64 (kittyHead { fold0 2 with kstate := 3 }))) (fun _ => true) = true ∧ (match readPackets 0 0 (folding 2 300000 []) (cmd0.kva + 64) with
      | .ok (s1, main) => decide (main = []) && (match readPackets 0 0 s1 (cmd0.kva + 64 + cmd0.mainLen) with
        | .ok (_, more) => decide (more = [])
        | .error _ => false)
      | .error _ => false) = true) := by decide +kernel
/-- Port 35 trained, with packets that wait in its queue and in the ingress queue. -/
def portOn : Port := { Port.reset with trained := true, peer := 9 }
def linking (m : Option Nat) (ps : List Packet) : State := { State.reset with fab := { Fabric.reset with
  node := 10, linkEn := 2 ^ 35, ports := [(35, portOn)], peers := [(9, 1)], routes := [(9, 35)], packets := ps, master := m, time := 5 } }
theorem witness_Links : ((linking none []).fab.node ≠ 0 ∧ Machine.bit (linking none []).fab.linkEn 35 = true) ∧
    (∀ p ∈ [{ packet0 with port := 35 }, { packet0 with stage := .ingress }], nextSent (linking none [p]) 35 1 = some p) ∧
    (agetD 35 Port.reset (linking none []).fab.ports).trained = true ∧
    (∀ m ∈ [none, some 9, some 10], timeComes (linking m []) 9 = true ∧ 9 < (linking m []).fab.node ∧
      ∀ k ∈ (linking m []).fab.master.toList, k < 9 → reachable (linking m []) k = false) ∧
    ((linking (some 7) []).fab.master = some 7 ∧ reachable (linking (some 7) []) 7 = false) ∧ (linking none []).fab.joined = false ∧
    (let s := { linking none [] with fab := { (linking none []).fab with joined := true, time := 1000 } }
     agrees s 900 = true ∧ agrees s 1100 = true ∧ agrees s 1101 = false ∧ agrees s 899 = false) ∧
    (agetD 34 Port.reset (linking none []).fab.ports).trained = false := by decide +kernel

/-! Health. -/

theorem witness_Health : State.reset.health.ready = [] ∧ State.reset.health.recovery = false ∧ State.reset.health.log = 0 ∧ State.reset.health.errLog = 0 ∧
    (ReadyBit.stack 31 ∉ State.reset.health.ready ∧ Machine.bit { Fabric.reset with stackEn := 2 ^ 31 }.stackEn 31 = true) ∧
    State.reset.health.booted = false ∧ (agetD 35 Port.reset State.reset.fab.ports).lanes = 8 ∧ State.reset.health.fallen = [] ∧ { State.reset with health := { Health.reset with booted := true } }.health.booted = true ∧
    (let e : PoisonRead := ⟨1, [(7, 5), (8, 6)], 1⟩
     let s := notePoison (notePoison State.reset 7 1) 8 1
     s.health.poisonReads.find? (fun e => e.line = 127 / 64) = some ⟨1, [(7, 0), (8, 0)], 0⟩ ∧ (e.reqs.drop e.logged).take (8 * 4) = (8, 6) :: [] ∧
       ([] : List (Nat × Nat)).length ≤ 7) ∧ [1, 2, 3, 4, 5, 6, 7, 8].length ≤ 8 ∧
    mayHalt State.reset ⟨0, 0⟩ = true ∧ mayHalt roomy ⟨0, 0⟩ = false ∧
    (let s := State.reset.modCore ⟨7, 63⟩ fun x => { x with halt := true }
     (s.core ⟨7, 63⟩).halt = true ∧ coreIdle s ⟨7, 63⟩ = true) := by decide +kernel

/-- A thread whose v1 holds an error of its register file slice takes POISON as it reads v1, and not as it writes it. -/
def poisoned : State := wd tm0 hd0 [{ th [5, 6] with poison := [1] }] 1
theorem witness_PoisonedRegister : inFocus poisoned = some (hk, tm0, [0]) ∧ poisoned.lane hk 0 = some { th [5, 6] with poison := [1] } ∧
    guardHolds { th [5, 6] with poison := [1] } g0 = true ∧ isPoisoned { th [5, 6] with poison := [1] } 1 false = true ∧
    isFull { th [5, 6] with poison := [1] } 1 false = true ∧ (match exec (.add g0 false 3 (r 1) (.reg (r 2))) poisoned, exec (.add g0 false 1 (r 2) (.reg (r 2))) poisoned with
      | .next s, .next t => decide ((s.lane hk 0).map (·.run) = some (.stopped 0x15) ∧ (t.lane hk 0).map (·.poison) = some [])
      | _, _ => false) = true := by decide +kernel

/-- 23 R402: the valid record of the highest VERSION, and zeros without one; 16 R370: two records name nine functions. -/
theorem test_boot : bootRecord [(true, 1), (false, 9), (true, 7 + 2 ^ 106), (true, 3)] = 7 + 2 ^ 106 ∧ bootRecord [(false, 9)] = 0 ∧
    (lineRecords ⟨1, (List.range 9).map fun f => (f, f), 0⟩ 9).length = 2 := by decide +kernel

/-! Steps. -/

/-- A thread at lane 3 at slot 0 of a line that it holds. -/
def standing (L : Line) : State := { wd tm0 hd0 [] 0 with
  threads := [(threadOf hk 3, { th [] with line := some (0, L) })]
  focus := .bundle hk 8 }
theorem stood (L : Line) : ∀ l ∈ lanesOf 8 tm0.w, ∃ u, (standing L).lane hk l = some u ∧ u.pc = 0 ∧ u.go = none ∧ heldLine u = some L ∧ u.run.issuable = true := by
  intro l hl
  have h3 : l = 3 := by
    have : lanesOf 8 tm0.w = [3] := by decide +kernel
    exact List.mem_singleton.mp (this ▸ hl)
  subst h3
  exact ⟨{ th [] with line := some (0, L) }, rfl, rfl, rfl, if_pos (by decide +kernel : (0 : Dword) = lineAddr 0), rfl⟩
/-- SRD of %lane to v1; the same to v16, which the launch has not; no instruction; a slot that its parity bit does not agree with. -/
theorem witness_StepRunsDecoded : (∀ l ∈ lanesOf 8 tm0.w, ∃ u, (standing (lineOf 0x00010000_00000000_000100D0)).lane hk l = some u ∧ u.pc = 0 ∧ u.go = none ∧
      heldLine u = some (lineOf 0x00010000_00000000_000100D0) ∧ u.run.issuable = true) ∧
    (let L := lineOf 0x00010000_00000000_000100D0
     (standing L).health.powered = true ∧ (standing L).focus = .bundle hk 8 ∧ aget hk.team (standing L).teams = some tm0 ∧ lanesOf 8 tm0.w ≠ [] ∧
       parSlotOk L (slotOf 0) = true ∧ decodeSlot (lineSlot L (slotOf 0)) = .ok (.srd g0 false 1 .lane) ∧
       (Instr.srd g0 false 1 .lane).fits (launchParams tm0) = true) ∧
    (let s := placeRowOp State.reset 0x40000001
     s.health.powered = true ∧ s.focus = .unit 0 ∧ (s.pch 0).store[(s.pch 0).pc]? = some 0x40000001 ∧ decodeRow 0x40000001 = .ok (.nnext 1)) := by
  refine ⟨stood _, ?_, ?_⟩ <;> decide +kernel
theorem witness_IllegalSlots : (∀ L, ∀ l ∈ lanesOf 8 tm0.w, ∃ u, (standing L).lane hk l = some u ∧ u.pc = 0 ∧ u.go = none ∧ heldLine u = some L ∧
      u.run.issuable = true) ∧
    (∀ L, (standing L).health.powered = true ∧ (standing L).focus = .bundle hk 8 ∧ aget hk.team (standing L).teams = some tm0) ∧ lanesOf 8 tm0.w ≠ [] ∧
    parSlotOk (lineOf 0xE0 ^^^ 1) 0 = false ∧ (parSlotOk (lineOf 0xE0) 0 = true ∧ (decodeSlot (lineSlot (lineOf 0xE0) 0)).toOption = none) ∧
    (parSlotOk (lineOf 0x00010000_00000000_001000D0) 0 = true ∧
      decodeSlot (lineSlot (lineOf 0x00010000_00000000_001000D0) 0) = .ok (.srd g0 false 16 .lane) ∧
      (Instr.srd g0 false 16 .lane).fits (launchParams tm0) = false) := by
  refine ⟨stood, fun L => ⟨rfl, rfl, rfl⟩, ?_, ?_, ?_, ?_⟩ <;> decide +kernel
theorem witness_DecodeEncode : (Instr.add g0 false 3 (r 1) (.reg ⟨1, .rot 0 1, false⟩)).wf = true ∧
    encode (.add g0 false 3 (r 1) (.reg ⟨1, .rot 0 1, false⟩)) = some (96, 0x00000040_10100001_00030001) ∧
    decodeSlot 0x00000040_10100001_00030001 = .ok (.add g0 false 3 (r 1) (.reg ⟨1, .rot 0 1, false⟩)) ∧ decodeRow 0x40000001 = .ok (.nnext 1) := by decide +kernel
theorem witness_MemoryStaysCanonical : State.reset.memOk ∧ (match step { State.reset with focus := .unit 0 } with
    | .next _ => true
    | _ => false) = true := by decide +kernel
theorem witness_EveryInstructionAnswers : State.reset.health.powered = true ∧ { State.reset with health := { Health.reset with powered := false } }.health.powered = false := by decide

end Sys2Proof.Tests
end

/-! SUPPORT. Every instruction and every event answers a next state (00 R7, 20 R392; notes/assumptions/2.md). -/

namespace Sys2Proof.Machine

/-! ## Outcomes that are next states -/

/-- The outcome is a next state: no fault and no refusal. -/
def Answers (o : Out) : Prop := ∃ t, o = .next t

theorem answers_next (s : State) : Answers (.next s) := ⟨s, rfl⟩

/-- However the body of a row operation ends (performed, waiting, stopped or poisoned), the unit answers a next state. -/
theorem runRow_answers (s : State) (body : Nat → Nat → NbRun → Pch → State → RowOut) : Answers (runRow s body) := by
  fun_cases runRow s body <;> exact answers_next _

theorem rowAlu_answers (s : State) (d a b : BitVec 3) (f : RowVec → RowVec → RowVec → RowVec) :
    Answers (rowAlu s d a b f) := runRow_answers ..

/-! ## Instructions, row operations and events -/

/-- Row operations answer as `runRow` does. The other arms named here are the meanings with conditions of their own: along
the branches of each, met or not, the answer is a next state. Every arm left is one next state outright. -/
theorem exec_answers (i : Instr) (s : State) : Answers (exec i s) := by
  unfold exec
  cases i <;> dsimp only
  -- Row operations of a near-bank unit (12 R261 to R266).
  case nadd | nsub | nmul | nfma | nmax | nmin | nsum | ncmp | nsel | ncvt => exact rowAlu_answers ..
  case nload | nstore | nset | nsetImm | nkey | nemit | nnext | nloop | njmp | nhalt | nsync =>
    exact runRow_answers ..
  -- Bundles, threads and their stacks (03, 04, 07, 08, 13).
  case producerFill t n => fun_cases execProducerFill t n s <;> exact answers_next _
  case issueSelect q => fun_cases execIssueSelect q s <;> exact answers_next _
  case rendezvousForm t => fun_cases execRendezvousForm t s <;> exact answers_next _
  case breakpointResume t => fun_cases execBreakpointResume t s <;> exact answers_next _
  case stackFill t => fun_cases execStackFill t s <;> exact answers_next _
  case stackSpill h => fun_cases execStackSpill h s <;> exact answers_next _
  case stackPageAnswer t mapped perm => fun_cases execStackPageAnswer t mapped perm s <;> exact answers_next _
  case scratchpadBankAccept h => fun_cases execScratchpadBankAccept h s <;> exact answers_next _
  case commonsBankAccept h n => fun_cases execCommonsBankAccept h n s <;> exact answers_next _
  case jtab g a b off => fun_cases execJtab g a b off s <;> exact answers_next _
  case ld g d a sz sgn acq off space => fun_cases execLd g d a sz sgn acq off space s <;> exact answers_next _
  case detCommit t => fun_cases execDetCommit t s <;> exact answers_next _
  -- Copy channels (09) and matrix units (10).
  case copyRecordStart c n => fun_cases execCopyRecordStart c n s <;> exact answers_next _
  case copyUnitSettle c r u more => fun_cases execCopyUnitSettle c r u more s <;> exact answers_next _
  case copyUnitReplay c r => fun_cases execCopyUnitReplay c r s <;> exact answers_next _
  case copyEndActions c => fun_cases execCopyEndActions c s <;> exact answers_next _
  case completionRingWrite c => fun_cases execCompletionRingWrite c s <;> exact answers_next _
  case reducingElementApply c r u => fun_cases execReducingElementApply c r u s <;> exact answers_next _
  case matrixOwnershipGrant q => fun_cases execMatrixOwnershipGrant q s <;> exact answers_next _
  case matrixInstructionDone q n => fun_cases execMatrixInstructionDone q n s <;> exact answers_next _
  -- Bags (11).
  case bagPutArbitrate n => fun_cases execBagPutArbitrate n s <;> exact answers_next _
  case bagRecordWrite b seq => fun_cases execBagRecordWrite b seq s <;> exact answers_next _
  case bagTakeClaim n => fun_cases execBagTakeClaim n s <;> exact answers_next _
  case bagTakeLand c => fun_cases execBagTakeLand c s <;> exact answers_next _
  case bagQueryAccept n => fun_cases execBagQueryAccept n s <;> exact answers_next _
  case bagClearPerform b => fun_cases execBagClearPerform b s <;> exact answers_next _
  case bagIterationStart b => fun_cases execBagIterationStart b s <;> exact answers_next _
  case bagIterationEnd b => fun_cases execBagIterationEnd b s <;> exact answers_next _
  case bagCreateRequest func desc row => fun_cases execBagCreateRequest func desc row s <;> exact answers_next _
  case bagRemoveRequest func desc => fun_cases execBagRemoveRequest func desc s <;> exact answers_next _
  -- Near-bank runs (12).
  case nbRunAccept n => fun_cases execNbRunAccept n s <;> exact answers_next _
  case nbRowMapped r idx mapped => fun_cases execNbRowMapped r idx mapped s <;> exact answers_next _
  case nbRunStart p => fun_cases execNbRunStart p s <;> exact answers_next _
  case nbRowStart p => fun_cases execNbRowStart p s <;> exact answers_next _
  case nbRunStop p => fun_cases execNbRunStop p s <;> exact answers_next _
  case nbRunEnd p => fun_cases execNbRunEnd p s <;> exact answers_next _
  case nbStatusWrite r => fun_cases execNbStatusWrite r s <;> exact answers_next _
  case nbArbitrationSuspend p => fun_cases execNbArbitrationSuspend p s <;> exact answers_next _
  case nbResume p => fun_cases execNbResume p s <;> exact answers_next _
  -- Launch, placement and retirement (02, 04).
  case takeRoot q => fun_cases execTakeRoot q s <;> exact answers_next _
  case validationReadAnswer q mapped => fun_cases execValidationReadAnswer q mapped s <;> exact answers_next _
  case placeTeam die => fun_cases execPlaceTeam die s <;> exact answers_next _
  case teamMessageReceive die => fun_cases execTeamMessageReceive die s <;> exact answers_next _
  case stagingDone t => fun_cases execStagingDone t s <;> exact answers_next _
  case stagingPageAnswer t mapped => fun_cases execStagingPageAnswer t mapped s <;> exact answers_next _
  case teamDrainDone t => fun_cases execTeamDrainDone t s <;> exact answers_next _
  case retirementNotice die => fun_cases execRetirementNotice die s <;> exact answers_next _
  case wcbWriteback w refused => fun_cases execWcbWriteback w refused s <;> exact answers_next _
  -- Translation, faults and the dealer (14).
  case faultFilterMerge n => fun_cases execFaultFilterMerge n s <;> exact answers_next _
  case faultQueueAppend die => fun_cases execFaultQueueAppend die s <;> exact answers_next _
  case dealerMap func page fill => fun_cases execDealerMap func page fill s <;> exact answers_next _
  case dealerRefuse func va code => fun_cases execDealerRefuse func va code s <;> exact answers_next _
  case translationChange func va page => fun_cases execTranslationChange func va page s <;> exact answers_next _
  case migrationSwitch func va page => fun_cases execMigrationSwitch func va page s <;> exact answers_next _
  case linePull func va failed => fun_cases execLinePull func va failed s <;> exact answers_next _
  case dupInvalidateAck n node => fun_cases execDupInvalidateAck n node s <;> exact answers_next _
  -- Budgets, pre-emption and folds (15).
  case budgetThrottle func => fun_cases execBudgetThrottle func s <;> exact answers_next _
  case budgetPeriodEnd func => fun_cases execBudgetPeriodEnd func s <;> exact answers_next _
  case sliceEnd q node => fun_cases execSliceEnd q node s <;> exact answers_next _
  case dealerPreemptRequest q node => fun_cases execDealerPreemptRequest q node s <;> exact answers_next _
  case escalate t => fun_cases execEscalate t s <;> exact answers_next _
  case contextImageWrite t => fun_cases execContextImageWrite t s <;> exact answers_next _
  case nodePreempted q node => fun_cases execNodePreempted q node s <;> exact answers_next _
  case foldCommand cmd => fun_cases execFoldCommand cmd s <;> exact answers_next _
  case foldInstant job => fun_cases execFoldInstant job s <;> exact answers_next _
  case latePacketArrival a => fun_cases execLatePacketArrival a s <;> exact answers_next _
  case unfoldJob cmd => fun_cases execUnfoldJob cmd s <;> exact answers_next _
  -- The fabric (14, 16) and the boot (23).
  case peerReset node inc => fun_cases execPeerReset node inc s <;> exact answers_next _
  case peerUnreachable node => fun_cases execPeerUnreachable node s <;> exact answers_next _
  case linkTrain port node inc => fun_cases execLinkTrain port node inc s <;> exact answers_next _
  case packetSend port vc => fun_cases execPacketSend port vc s <;> exact answers_next _
  case timeSync master t => fun_cases execTimeSync master t s <;> exact answers_next _
  case timeMasterTakeover => fun_cases execTimeMasterTakeover s <;> exact answers_next _
  case collChunkReceive m => fun_cases execCollChunkReceive m s <;> exact answers_next _
  case collRankEnd c slot => fun_cases execCollRankEnd c slot s <;> exact answers_next _
  case poisonSharedRead loc n => fun_cases execPoisonSharedRead loc n s <;> exact answers_next _
  case powerOnBoot imageOk records => fun_cases execPowerOnBoot imageOk records s <;> exact answers_next _
  -- The meanings without a branch: the lanes of a bundle, and events that act whatever the state.
  all_goals exact answers_next _

/-! ## One step -/

theorem step_of_unpowered {s : State} (h : s.health.powered = false) : step s = .fault .poweredOff := by
  simp [step, h]

/-- With power, a step answers what the chosen instruction answers, or the state in which nothing issues or acts. -/
theorem step_answers {s : State} (h : s.health.powered = true) : Answers (step s) := by
  fun_cases step s with
  | case1 off => simp [h] at off
  | case2 => exact exec_answers ..
  | case3 => exact answers_next _
  | case4 => exact exec_answers ..
  | case5 => exact answers_next _
  | case6 => exact exec_answers ..

/-- Settles O60: `exec_answers` along the arms of `exec`, and a step by what its focus chooses. -/
theorem everyInstructionAnswers : Obligations.EveryInstructionAnswers :=
  ⟨exec_answers, fun _ => ⟨step_answers, step_of_unpowered⟩⟩

end Sys2Proof.Machine

/-! SUPPORT. What the state after reset reads as (00 R6): a function, queue or pseudo-channel that is not listed is in its
reset state, and nothing is mapped. -/

namespace Sys2Proof.Machine

@[simp] theorem reset_queue (q : Nat) : State.reset.queue q = Queue.reset := rfl
@[simp] theorem reset_func (fn : Nat) : State.reset.func fn = Func.reset := rfl
@[simp] theorem reset_pch (p : Nat) : State.reset.pch p = Pch.reset := rfl
@[simp] theorem reset_mem : State.reset.mem = Memory.empty := rfl

/-- A function after reset has no page. -/
@[simp] theorem page_reset (va : Nat) : Func.reset.page va = none := rfl

/-- An address that no page covers is the dealer's to map, or refused for good where it is not canonical (14 R310). -/
theorem translate_of_unmapped {s : State} {fn va : Nat} (h : (s.func fn).page va = none) (acc : Acc) :
    translate s fn va acc =
      if canonical (BitVec.ofNat 64 va) then .dealer 0x10 (va / 65536 * 65536) else .final 0x10 := by
  cases hc : canonical (BitVec.ofNat 64 va) <;> simp [translate, hc, h]

/-- The empty memory is in canonical form. -/
theorem empty_wf : Memory.empty.wf = true := rfl

/-- Settles O58: the fields of the reset state, and the translation of an unmapped address. -/
theorem resetState : Obligations.ResetState := by
  refine ⟨empty_wf, rfl, rfl, rfl, rfl, rfl, rfl, rfl, ?queues, ?functions, ?units, ?segments, ?memory⟩
  case queues => intro q; simp [Queue.reset]
  case functions => intro fn; simp [Func.reset]
  case units => intro p; simp [Pch.reset]
  case segments => exact fun fn va => translate_of_unmapped (by simp) .read
  case memory => intro x; simp [Memory.empty]

end Sys2Proof.Machine

/-! SUPPORT. Launch queues and work trees (02 R22 to R25; 04 R54, R55, R60): what leaves the queues, the trees and the
retirement notices alone, what a change of a node or its completion does to them, and what each of their events does. -/

namespace Sys2Proof.Machine

/-! ## Reading a part that has been changed -/

@[simp] theorem queue_modQueue_self (s : State) (q : Nat) (f : Queue → Queue) : (s.modQueue q f).queue q = f (s.queue q) := by
  simp [State.queue]

@[simp] theorem disp_modDisp_self (s : State) (d : Nat) (f : Dispatcher → Dispatcher) :
    (s.modDisp d f).disp d = f (s.disp d) := by
  simp [State.disp]

/-- A change that leaves a die's notices leaves those of every die. -/
theorem notices_modDisp {s : State} {d : Nat} {f : Dispatcher → Dispatcher}
    (h : (f (s.disp d)).notices = (s.disp d).notices) (e : Nat) : ((s.modDisp d f).disp e).notices = (s.disp e).notices := by
  by_cases hde : e = d
  · subst hde; simpa using h
  · simp [State.disp, hde]

/-! ## What leaves the launches alone -/

/-- The launch queues, the trees and the notices on their way to each die stand in t as they do in s. -/
structure LaunchKept (s t : State) : Prop where
  queues : t.queues = s.queues
  trees : t.trees = s.trees
  notices : ∀ d, (t.disp d).notices = (s.disp d).notices

namespace LaunchKept

theorem refl (s : State) : LaunchKept s s := ⟨rfl, rfl, fun _ => rfl⟩

theorem trans {s t u : State} (h : LaunchKept s t) (k : LaunchKept t u) : LaunchKept s u :=
  ⟨k.queues.trans h.queues, k.trees.trans h.trees, fun d => (k.notices d).trans (h.notices d)⟩

/-- Whatever changes neither queues, trees nor dispatchers. -/
theorem of_eq {s t : State} (hq : t.queues = s.queues) (ht : t.trees = s.trees) (hd : t.dispatchers = s.dispatchers) :
    LaunchKept s t := ⟨hq, ht, fun d => by simp [State.disp, hd]⟩

theorem queue {s t : State} (h : LaunchKept s t) (q : Nat) : t.queue q = s.queue q := by simp [State.queue, h.queues]

theorem foldl {α : Type} {f : State → α → State} (h : ∀ s a, LaunchKept s (f s a)) (l : List α) (s : State) :
    LaunchKept s (l.foldl f s) :=
  l.foldlRecOn f (refl s) fun t ht a _ => ht.trans (h t a)

/-! ### The memory and its counts -/

theorem modFunc (s : State) (n : Nat) (f : Func → Func) : LaunchKept s (s.modFunc n f) := of_eq rfl rfl rfl

theorem tellDealer (s : State) (n : DealerNote) : LaunchKept s (tellDealer s n) := of_eq rfl rfl rfl

theorem sendFault (s : State) (r : FaultRec) : LaunchKept s (sendFault s r) := by
  unfold Machine.sendFault
  split <;> exact of_eq rfl rfl rfl

theorem countLine (s : State) (fn va : Nat) (w : Bool) : LaunchKept s (countLine s fn va w) := by
  unfold Machine.countLine
  split
  · split
    · exact modFunc ..
    · exact refl s
  · exact refl s

theorem countXl (s : State) (fn va : Nat) (x : Xl) (w first : Bool) : LaunchKept s (countXl s fn va x w first) := by
  refine trans ?_ (countLine ..)
  split
  · split <;> exact of_eq rfl rfl rfl
  · exact refl s

theorem markDirty (s : State) (fn loc n : Nat) : LaunchKept s (markDirty s fn loc n) := by
  unfold Machine.markDirty
  simp only
  split
  · refine foldl (fun _ _ => ?_) _ s
    exact of_eq rfl rfl rfl
  · exact refl s

theorem dramWrite (s : State) (dpa : Nat) (bs : List Byte) : LaunchKept s (dramWrite s dpa bs) := of_eq rfl rfl rfl

theorem placeWrite (s : State) (x : Xl) (bs : List Byte) : LaunchKept s (placeWrite s x bs) := by
  cases x with
  | dram d w =>
    cases w with
    | none => exact dramWrite ..
    | some fn => exact (markDirty ..).trans (dramWrite ..)
  | fabric | host => exact of_eq rfl rfl rfl
  | dealer | pulling | held | dup | busy | noRoute | final => exact refl s

theorem notePoisonAt (s : State) (fn loc n : Nat) : LaunchKept s (notePoisonAt s fn loc n) := by
  refine foldl (fun _ _ => ?_) _ s
  exact of_eq rfl rfl rfl

theorem missed (s : State) (fn va : Nat) (x : Xl) : LaunchKept s (missed s fn va x) := by
  unfold Machine.missed
  split
  · exact of_eq rfl rfl rfl
  · exact modFunc ..
  · split
    · exact notePoisonAt ..
    · exact refl s
  · exact refl s

theorem note (m : Miss) (s : State) (fn : Nat) : LaunchKept s (m.note s fn) := missed ..

/-- Along the pieces of a read, each only counts. -/
theorem virtRead {s t : State} {fn va n : Nat} {acc : Acc} {stay : Bool} {bs : List Byte}
    (h : virtRead s fn va n acc stay = .ok (t, bs)) : LaunchKept s t := by
  unfold Machine.virtRead at h
  refine List.foldlRecOn (motive := fun r : Except Miss (State × List Byte) =>
    ∀ t bs, r = .ok (t, bs) → LaunchKept s t) _ _ ?_ ?_ t bs h
  · rintro _ _ ⟨⟩
    exact refl s
  · intro r hr p _ t bs e
    cases r with
    | error x => cases e
    | ok q =>
      obtain ⟨u, cs⟩ := q
      simp only at e
      split at e
      · cases e
      · split at e
        · cases e
        · cases e
          exact (hr u cs rfl).trans (countXl ..)

theorem virtWrite {s t : State} {fn va : Nat} {bs : List Byte} {stay : Bool} (h : virtWrite s fn va bs stay = .ok t) :
    LaunchKept s t := by
  simp only [Machine.virtWrite] at h
  split at h
  · cases h
  · cases h
    exact foldl (fun _ _ => (placeWrite ..).trans (countXl ..)) _ s

/-! ### Signals and write-backs -/

theorem signal (s : State) (fn vec : Nat) : LaunchKept s (signal s fn vec) := by
  unfold Machine.signal
  split
  · exact tellDealer ..
  · split
    · exact refl s
    · exact modFunc ..

theorem writeRw {s t : State} {fn addr : Nat} {data : BitVec 1024} (h : writeRw s fn addr data = .ok t) :
    LaunchKept s t := by
  simp only [Machine.writeRw] at h
  split at h
  · cases h
  · split at h
    · cases h
    · next u hu => exact (virtWrite hu).trans (virtWrite h)

theorem modSweeps (s : State) (die : Nat) (f : Dispatcher → List Sweep) :
    LaunchKept s (s.modDisp die fun d => { d with sweeps := f d }) :=
  ⟨rfl, rfl, notices_modDisp rfl⟩

theorem dropSweep (s : State) (die fn addr : Nat) : LaunchKept s (dropSweep s die fn addr) := modSweeps ..

theorem refuseSweep (s : State) (die : Nat) (w : Sweep) (code va : Nat) : LaunchKept s (refuseSweep s die w code va) :=
  (dropSweep ..).trans (sendFault ..)

theorem sweepMiss (s : State) (die : Nat) (w : Sweep) (m : Miss) : LaunchKept s (sweepMiss s die w m) := by
  simp only [Machine.sweepMiss]
  split
  · exact (note ..).trans (refuseSweep ..)
  · split
    · exact refl s
    · exact (modSweeps ..).trans (sendFault ..)
  · exact note ..

theorem writeBack (s : State) (fn die : Nat) (n by_ : Node) : LaunchKept s (writeBack s fn die n by_) := by
  unfold Machine.writeBack
  simp only
  split
  · next h => exact (writeRw h).trans (dropSweep ..)
  · exact ((dropSweep ..).trans (modSweeps ..)).trans (sweepMiss ..)

/-- The write-back of a changed node touches no tree. -/
theorem setNode (s : State) (q a by_ : Nat) (f : Node → Node) : LaunchKept (touchNode s q a f) (setNode s q a by_ f) := by
  simp only [Machine.setNode]
  split
  · split
    · exact writeBack ..
    · exact refl _
  · exact refl _

end LaunchKept

/-! ## A node that has been changed (02 R24, R25) -/

/-- The node at an address, after a change of it that leaves its address. -/
theorem node_map_self {t : Tree} {a : Nat} {f : Node → Node} (hf : ∀ n, (f n).addr = n.addr) :
    Tree.node { t with nodes := t.nodes.map fun n => if n.addr = a then f n else n } a = (t.node a).map f := by
  have hp : ((fun n : Node => decide (n.addr = a)) ∘ fun n => if n.addr = a then f n else n) = fun n => decide (n.addr = a) := by
    funext n
    by_cases h : n.addr = a <;> simp [h, hf]
  simp only [Tree.node, List.find?_map, hp]
  cases h : t.nodes.find? fun n => decide (n.addr = a) with
  | none => rfl
  | some n =>
    have hn : n.addr = a := by simpa using List.find?_some h
    simp [hn]

theorem nodeAt_eq {s : State} {q : Nat} {t : Tree} (h : aget q s.trees = some t) (a : Nat) : nodeAt s q a = t.node a := by
  simp [nodeAt, h]

/-- A changed node in its tree: the tree has the changed node, and keeps its root. -/
theorem setNode_tree {s : State} {q a by_ : Nat} {t : Tree} {n : Node} {f : Node → Node} (ht : aget q s.trees = some t)
    (hn : t.node a = some n) (hf : ∀ n, (f n).addr = n.addr) :
    ∃ t', aget q (setNode s q a by_ f).trees = some t' ∧ t'.root = t.root ∧ t'.node a = some (f n) := by
  refine ⟨{ t with nodes := t.nodes.map fun n => if n.addr = a then f n else n }, ?_, rfl, ?_⟩
  · rw [(LaunchKept.setNode ..).trees]
    simp [touchNode, ht]
  · rw [node_map_self hf, hn]
    rfl

@[simp] theorem setNode_notices (s : State) (q a by_ : Nat) (f : Node → Node) (d : Nat) :
    ((setNode s q a by_ f).disp d).notices = (s.disp d).notices :=
  (LaunchKept.setNode ..).notices d

@[simp] theorem signal_notices (s : State) (fn vec d : Nat) : ((signal s fn vec).disp d).notices = (s.disp d).notices :=
  (LaunchKept.signal ..).notices d

/-- A fold of steps that each leave a die's notices leaves them. -/
theorem foldl_notices {α : Type} {f : State → α → State} {d : Nat} (h : ∀ s a, ((f s a).disp d).notices = (s.disp d).notices)
    (l : List α) (s : State) : ((l.foldl f s).disp d).notices = (s.disp d).notices :=
  l.foldlRecOn (motive := fun t => (t.disp d).notices = (s.disp d).notices) f rfl fun t ht a _ => (h t a).trans ht

@[simp] theorem readyNode_notices (fuel q by_ a d : Nat) (s : State) :
    ((readyNode fuel q by_ a s).disp d).notices = (s.disp d).notices := by
  induction fuel generalizing a s with
  | zero => rfl
  | succ fuel ih =>
    simp only [readyNode]
    split
    · rfl
    · split
      · rfl
      · split
        · exact (foldl_notices (fun s c => ih _ s) _ _).trans (setNode_notices ..)
        · exact setNode_notices ..

@[simp] theorem decrement_notices (s : State) (q by_ a d : Nat) :
    ((decrement s q by_ a).disp d).notices = (s.disp d).notices := by
  simp only [decrement]
  repeat' split
  all_goals simp

/-! ## The end of a tree (02 R23, R24) -/

@[simp] theorem endTree_notices (s : State) (q d : Nat) : ((endTree s q).disp d).notices = (s.disp d).notices := rfl

@[simp] theorem endTree_tree (s : State) (q : Nat) : aget q (endTree s q).trees = none := aget_adel_self ..

@[simp] theorem endTree_busy (s : State) (q : Nat) : ((endTree s q).queue q).busy = false :=
  congrArg Queue.busy (queue_modQueue_self s q fun u => { u with busy := false })

/-- Completion, along the parents, leaves every notice. -/
@[simp] theorem completeNode_notices (fuel q a d : Nat) (s : State) :
    ((completeNode fuel q a s).disp d).notices = (s.disp d).notices := by
  induction fuel generalizing a s with
  | zero => rfl
  | succ fuel ih =>
    have successors (s : State) (l : List Nat) :
        ((l.foldl (fun s b => decrement s q a b) s).disp d).notices = (s.disp d).notices :=
      foldl_notices (fun s b => decrement_notices s q a b d) l s
    simp only [completeNode]
    repeat' split
    all_goals simp [ih, successors]

/-- The root completes: its tree is over. -/
theorem completeNode_root {s : State} {q : Nat} {t : Tree} {n : Node} (ht : aget q s.trees = some t)
    (hn : t.node t.root = some n) (fuel : Nat) : ∃ u, completeNode (fuel + 1) q t.root s = endTree u q := by
  simp only [completeNode, ht, hn, if_true]
  exact ⟨_, rfl⟩

theorem refuseTree_ends {s : State} {q : Nat} {t : Tree} (ht : aget q s.trees = some t) (nodes : List Node)
    (blame : Option Nat) (reason : Nat) : ∃ u, refuseTree s q nodes blame reason = endTree u q := by
  simp only [refuseTree, ht]
  exact ⟨_, rfl⟩

/-! ## Launch queues: doorbell and roots (04 R54, R55) -/

/-- A write of TAIL counts where the owning function, once ready, makes it. -/
theorem exec_launchQueueDoorbell {q : Nat} (hq : q < 64) (s : State) (fn : Nat) (tail : Word) :
    exec (.launchQueueDoorbell q fn tail) s =
      .next (if (s.queue q).func = fn ∧ funcReady s fn = true then s.modQueue q fun u => { u with tail := tail } else s) := by
  change execLaunchQueueDoorbell q fn tail s = _
  simp [execLaunchQueueDoorbell, hq]

/-- A signal that is owed stops or starts no queue. -/
@[simp] theorem signalOwed_en (s : State) (q : Nat) : ((signalOwed s q).queue q).en = (s.queue q).en := by
  simp only [signalOwed]
  split
  · next h => rw [(LaunchKept.signal ..).queue, (LaunchKept.virtRead h).queue, queue_modQueue_self]
  · rw [(LaunchKept.note ..).queue, queue_modQueue_self]
  · rw [(LaunchKept.note ..).queue]

/-- A signal that is owed is given once the template's vector can be read. -/
theorem signalOwed_of_read {s s1 : State} {q : Nat} {bs : List Byte}
    (h : virtRead (s.modQueue q fun u => { u with owed := false }) (s.queue q).func ((s.queue q).tmpl + 64) 2 .read =
      .ok (s1, bs)) : signalOwed s q = signal s1 (s.queue q).func (natOfBytes bs % 2048) := by
  simp only [signalOwed, h]

/-- A queue that holds more than its ring signals at once where the template's vector can be read. -/
theorem overfullQueue_of_read {s s1 : State} {q : Nat} {bs : List Byte}
    (h : virtRead ((s.modQueue q fun u => { u with en := false, asked := none, owed := true }).modQueue q
      fun u => { u with owed := false }) (s.queue q).func ((s.queue q).tmpl + 64) 2 .read = .ok (s1, bs)) :
    overfullQueue s q = signal s1 (s.queue q).func (natOfBytes bs % 2048) := by
  refine (signalOwed_of_read (s1 := s1) (bs := bs) ?_).trans ?_
  · rw [queue_modQueue_self]
    exact h
  · rw [queue_modQueue_self]

section
variable {s : State} {q : Nat} (hr : funcReady s (s.queue q).func = true) (ho : (s.queue q).owed = false)
  (he : (s.queue q).en = true) (hs : (s.func (s.queue q).func).resetting = false)
include hr ho he hs

/-- A served queue that holds more than its ring is stopped. -/
theorem exec_takeRoot_of_overfull (h : 2 ^ (s.queue q).log2n < ((s.queue q).tail - (s.queue q).head).toNat) :
    exec (.takeRoot q) s = .next (overfullQueue s q) := by
  change execTakeRoot q s = _
  simp [execTakeRoot, hr, ho, he, hs, h, -BitVec.toNat_sub]

variable (hn : ((s.queue q).tail - (s.queue q).head).toNat ≤ 2 ^ (s.queue q).log2n) (hb : (s.queue q).busy = false)
  (hd : (s.queue q).head ≠ (s.queue q).tail) {s1 : State} {bs : List Byte}
  (hread : virtRead s (s.queue q).func ((s.queue q).base + 8 * ((s.queue q).head.toNat % 2 ^ (s.queue q).log2n)) 8 .read =
    .ok (s1, bs))
include hn hb hd hread

/-- An entry of 0 is skipped. -/
theorem exec_takeRoot_of_zero (hz : natOfBytes bs = 0) :
    exec (.takeRoot q) s = .next (s1.modQueue q fun u => { u with head := u.head + 1, asked := none }) := by
  change execTakeRoot q s = _
  simp [execTakeRoot, hr, ho, he, hs, hn.not_gt, hb, hd, hread, hz, -BitVec.toNat_sub]

/-- The root that an entry names is taken under the queue's template. -/
theorem exec_takeRoot_of_root (hz : natOfBytes bs ≠ 0) {s2 : State} {tb : List Byte}
    (ht : virtRead s1 (s.queue q).func (s.queue q).tmpl 128 .read = .ok (s2, tb)) :
    exec (.takeRoot q) s = .next (takeRoot s2 q (natOfBytes bs) (s.queue q) (BitVec.ofNat 5120 (natOfBytes tb))) := by
  change execTakeRoot q s = _
  simp [execTakeRoot, hr, ho, he, hs, hn.not_gt, hb, hd, hread, hz, ht, -BitVec.toNat_sub]

end

/-! ## Validation (02 R22, R23) -/

/-- A tree whose template has failed is refused once its root has been read. -/
theorem validate_of_bad {s s1 : State} {q r : Nat} {t : Tree} {w : BitVec 5120} (ht : aget q s.trees = some t)
    (hf : folded s t = false) (hb : t.bad = some r) (hread : readNode s t.func t.root = .ok (s1, w)) :
    validate s q = refuseTree s1 q [newNode t.root 0 0 w t.tmpl] (some t.root) r := by
  simp [validate, checkTree, ht, hf, hb, hread]

theorem earlyReason_kind {s : State} {fn : Nat} {n : Node} (h : n.kind ≠ 1 ∧ n.kind ≠ 2 ∨ n.addr % 128 ≠ 0) :
    earlyReason s fn n = some 1 := by
  simp [earlyReason, h]

theorem earlyReason_level {s : State} {fn : Nat} {n : Node} (hk : n.kind = 1 ∨ n.kind = 2) (ha : n.addr % 128 = 0)
    (hl : 7 < n.level) : earlyReason s fn n = some 2 := by
  have h1 : ¬ (n.kind ≠ 1 ∧ n.kind ≠ 2 ∨ n.addr % 128 ≠ 0) := by omega
  simp [earlyReason, h1, hl]

theorem exec_validationReadAnswer {s : State} {q : Nat} {t : Tree} {w : Validation} (ht : aget q s.trees = some t)
    (hw : t.waiting = some w) (mapped : Bool) : exec (.validationReadAnswer q mapped) s =
      .next (if mapped then validate s q else refuseTree s q t.nodes w.blame 16) := by
  change execValidationReadAnswer q mapped s = _
  simp [execValidationReadAnswer, refuseRead, ht, hw]

/-! ## Retirement and write-backs (02 R24, R25; 04 R60) -/

/-- A notice counts one retirement at its node, which completes when that was the last. -/
theorem exec_retirementNotice {s : State} {die q a : Nat} {rest : List (Nat × Nat)} {t : Tree} {n : Node}
    (hm : (s.disp die).notices = (q, a) :: rest) (ht : aget q s.trees = some t) (hn : t.node a = some n) :
    ∃ s2 t2, exec (.retirementNotice die) s =
        .next (if n.allDisp = true ∧ n.retired + 1 = n.count then completeNode 9 q a s2 else s2) ∧
      (s2.disp die).notices = rest ∧ aget q s2.trees = some t2 ∧ t2.root = t.root ∧
      t2.node a = some { n with retired := n.retired + 1 } := by
  obtain ⟨t2, ht2, hroot, hn2⟩ := setNode_tree (s := s.modDisp die fun d => { d with notices := rest }) (q := q) (by_ := a)
    (f := fun n => { n with retired := n.retired + 1 }) ht hn fun _ => rfl
  refine ⟨_, t2, ?_, ?_, ht2, hroot, hn2⟩
  · change execRetirementNotice die s = _
    simp only [execRetirementNotice, hm, nodeAt_eq ht2, hn2, Node.retiredAll, Bool.and_eq_true, decide_eq_true_eq]
    rfl
  · simp

/-- A write-back that can be made is made, and waits no more. -/
theorem exec_wcbWriteback {s s1 : State} {die i : Nat} {w : Sweep} (hw : (s.disp die).sweeps[i]? = some w)
    (hs : writeRw s w.func w.addr w.data = .ok s1) (refused : Bool) :
    exec (.wcbWriteback ⟨die, i⟩ refused) s = .next (dropSweep s1 die w.func w.addr) := by
  change execWcbWriteback ⟨die, i⟩ refused s = _
  simp [execWcbWriteback, hw, hs]

theorem dropSweep_sweeps (s : State) (die fn addr : Nat) : ((dropSweep s die fn addr).disp die).sweeps =
    (s.disp die).sweeps.filter fun w => !(w.func = fn && w.addr = addr) := by
  simp [dropSweep]

/-- Settles O46: each event by its own equation, and what it leaves of the queue, the tree and the notices. -/
theorem launchTrees : Obligations.LaunchTrees := by
  refine ⟨?doorbell, ?root, ?template, ?inherits, ?reasons, ?answer, ?retires, ?writes⟩
  case doorbell => exact fun s q fn tail hq => exec_launchQueueDoorbell hq s fn tail
  case root =>
    intro s s1 s2 q bs tb u hr ho he hs
    refine ⟨fun hover => ?_, fun hn hb hd hread => ⟨?_, ?_⟩⟩
    · have hstop := exec_takeRoot_of_overfull hr ho he hs hover
      refine ⟨fun hread => ?_, _, hstop, by simp [overfullQueue]⟩
      rw [hstop, overfullQueue_of_read hread]
    · exact exec_takeRoot_of_zero hr ho he hs hn hb hd hread
    · exact fun hz ht => exec_takeRoot_of_root hr ho he hs hn hb hd hread hz ht
  case template => exact fun s s1 q t r w ht hf hb hread => validate_of_bad ht hf hb hread
  case inherits => exact fun w p => rfl
  case reasons => exact fun s fn n => ⟨earlyReason_kind, earlyReason_level⟩
  case answer =>
    intro s q t w ht hw
    obtain ⟨u, hu⟩ := refuseTree_ends ht t.nodes w.blame 16
    have hans := exec_validationReadAnswer ht hw
    refine ⟨hans true, _, hans false, ?_⟩
    simp [hu]
  case retires =>
    intro s die q a rest t n hm ht hn
    obtain ⟨s2, t2, hexec, hrest, ht2, hroot, hn2⟩ := exec_retirementNotice hm ht hn
    refine ⟨_, hexec, ?_, fun hmore => ?_, fun hall hlast ha _ => ?_⟩
    · split <;> simp [hrest]
    · rw [if_neg hmore, nodeAt_eq ht2, hn2]
    · subst ha
      rw [← hroot] at hn2 ⊢
      obtain ⟨u, hu⟩ := completeNode_root ht2 hn2 8
      simp [hall, hlast, hu]
  case writes =>
    exact fun s s1 die i refused w hw hs => ⟨_, exec_wcbWriteback hw hs refused, rfl, dropSweep_sweeps s1 die w.func w.addr⟩

end Sys2Proof.Machine

/-! SUPPORT. The encoding of instructions (03 R37 to R53; 12 R261): the fields of a word that has been written read back,
so that what encodes an instruction is read as that instruction, and a word is what encodes the instruction it decodes to. -/

namespace Sys2Proof

/-! ## Codes -/

@[simp] theorem Rm.ofCode_code (r : Rm) : Rm.ofCode r.code = r := by cases r <;> rfl
@[simp] theorem ICond.ofCode_code (c : ICond) : ICond.ofCode c.code = c := by cases c <;> rfl
@[simp] theorem FCond.ofCode_code (c : FCond) : FCond.ofCode c.code = c := by cases c <;> rfl
@[simp] theorem XOp.ofCode_code (o : XOp) : XOp.ofCode o.code = o := by cases o <;> rfl
@[simp] theorem AtomOp.ofCode_code (o : AtomOp) : AtomOp.ofCode o.code = o := by cases o <;> rfl
@[simp] theorem AxpyTy.ofCode_code (t : AxpyTy) : AxpyTy.ofCode t.code = t := by cases t <;> rfl
@[simp] theorem Scope.ofCode_code (c : Scope) : Scope.ofCode c.code = c := by cases c <;> rfl
@[simp] theorem Size.ofCode_code (z : Size) : Size.ofCode z.code = z := by cases z <;> rfl
@[simp] theorem SatSel.ofCode_code (m : SatSel) : SatSel.ofCode m.code = m := by cases m <;> rfl
@[simp] theorem ElemT.ofCode_code (t : ElemT) : ElemT.ofCode t.code = t := by cases t <;> rfl
@[simp] theorem NCond.ofCode_code (c : NCond) : NCond.ofCode c.code = c := by cases c <;> rfl
@[simp] theorem NCvt.ofCode_code (c : NCvt) : NCvt.ofCode c.code = c := by cases c <;> rfl
@[simp] theorem SReg.ofCode_code (r : SReg) : SReg.ofCode r.code = r := by cases r <;> rfl
@[simp] theorem LdSpace.ofCode_code (p : LdSpace) : LdSpace.ofCode p.code = p := by cases p <;> rfl

@[simp] theorem scopeOfBits_acqBits (a : Option Scope) : scopeOfBits (acqBits a) = a := by
  cases a with
  | none => rfl
  | some c => cases c <;> rfl

@[simp] theorem scopeOfBits_relBits (r : Option Scope) : scopeOfBits (relBits r) = r := by
  cases r with
  | none => rfl
  | some c => cases c <;> rfl

/-- HAND alone has no scope code of its own in CATOM (08 R173). -/
theorem Scope.ofAtomCode_atomCode {c : Scope} (h : (c != .hand) = true) : Scope.ofAtomCode c.atomCode = c := by
  cases c with
  | hand => simp at h
  | team | die | pkg | sys => rfl

theorem AtomOrd.ofBits_bits {o : AtomOrd} (h : o.scopeOk = true) : AtomOrd.ofBits o.bits = o := by
  cases o with
  | none => rfl
  | acq c | rel c | ar c =>
    have hc := Scope.ofAtomCode_atomCode h
    simp (disch := decide) [-Nat.reduceAdd, ofBits, bits, BitVec.extractLsb'_append_eq_of_le,
      BitVec.extractLsb'_append_eq_right, hc]

/-! ## The fields of a slot

The fields are bit vectors put end to end. The lemmas on `++` read the width of a whole as the sum of the widths of its
parts, so `simp` is kept from adding them up (`-Nat.reduceAdd`). -/

@[simp] theorem getLsbD_bit (b : Bool) : (bit b).getLsbD 0 = b := by cases b <;> rfl

theorem bit_getLsbD {n : Nat} (w : BitVec n) (i : Nat) : bit (w.getLsbD i) = w.extractLsb' i 1 := by
  apply BitVec.eq_of_getLsbD_eq
  intro j hj
  obtain rfl : j = 0 := by omega
  simp [bit]

/-- The fields of a slot are all of its bits, each once. -/
@[simp] theorem Slot.ofWord_toWord (s : Slot) : Slot.ofWord s.toWord = s := by
  obtain ⟨w, fc, fb, fa, pn, pg, d, fn, op, body⟩ := s
  simp (disch := decide) [-Nat.reduceAdd, -BitVec.getLsbD_eq_getElem, Slot.ofWord, Slot.toWord, bit, BitVec.getLsbD_append,
    BitVec.extractLsb'_append_eq_of_add_le, BitVec.extractLsb'_append_eq_of_le]

@[simp] theorem Slot.toWord_ofWord (w : BitVec 96) : (Slot.ofWord w).toWord = w := by
  simp only [Slot.toWord, Slot.ofWord, bit_getLsbD]
  simp (disch := rfl) only [BitVec.extractLsb'_append_extractLsb'_eq_extractLsb']
  simp

section
variable (imm16 : BitVec 16) (imm32 : BitVec 32) (a b c : BitVec 8) (ma mb : BitVec 12) (hi : BitVec 4) (t : BitVec 3)

@[simp] theorem bodyV_a : (bodyV imm16 c mb b ma a).extractLsb' 0 8 = a := by
  simp (disch := decide) [-Nat.reduceAdd, bodyV, BitVec.extractLsb'_append_eq_of_add_le]
@[simp] theorem bodyV_ma : (bodyV imm16 c mb b ma a).extractLsb' 8 12 = ma := by
  simp (disch := decide) [-Nat.reduceAdd, bodyV, BitVec.extractLsb'_append_eq_of_add_le, BitVec.extractLsb'_append_eq_of_le]
@[simp] theorem bodyV_b : (bodyV imm16 c mb b ma a).extractLsb' 20 8 = b := by
  simp (disch := decide) [-Nat.reduceAdd, bodyV, BitVec.extractLsb'_append_eq_of_add_le, BitVec.extractLsb'_append_eq_of_le]
@[simp] theorem bodyV_mb : (bodyV imm16 c mb b ma a).extractLsb' 28 12 = mb := by
  simp (disch := decide) [-Nat.reduceAdd, bodyV, BitVec.extractLsb'_append_eq_of_add_le, BitVec.extractLsb'_append_eq_of_le]
@[simp] theorem bodyV_c : (bodyV imm16 c mb b ma a).extractLsb' 40 8 = c := by
  simp (disch := decide) [-Nat.reduceAdd, bodyV, BitVec.extractLsb'_append_eq_of_add_le, BitVec.extractLsb'_append_eq_of_le]
@[simp] theorem bodyV_imm16 : (bodyV imm16 c mb b ma a).extractLsb' 48 16 = imm16 := by
  simp (disch := decide) [-Nat.reduceAdd, bodyV, BitVec.extractLsb'_append_eq_of_le]

@[simp] theorem bodyM_a : (bodyM imm32 hi b ma a).extractLsb' 0 8 = a := by
  simp (disch := decide) [-Nat.reduceAdd, bodyM, BitVec.extractLsb'_append_eq_of_add_le]
@[simp] theorem bodyM_ma : (bodyM imm32 hi b ma a).extractLsb' 8 12 = ma := by
  simp (disch := decide) [-Nat.reduceAdd, bodyM, BitVec.extractLsb'_append_eq_of_add_le, BitVec.extractLsb'_append_eq_of_le]
@[simp] theorem bodyM_b : (bodyM imm32 hi b ma a).extractLsb' 20 8 = b := by
  simp (disch := decide) [-Nat.reduceAdd, bodyM, BitVec.extractLsb'_append_eq_of_add_le, BitVec.extractLsb'_append_eq_of_le]
@[simp] theorem bodyM_space : (bodyM imm32 hi b ma a).extractLsb' 28 4 = hi := by
  simp (disch := decide) [-Nat.reduceAdd, bodyM, BitVec.extractLsb'_append_eq_of_add_le, BitVec.extractLsb'_append_eq_of_le]
@[simp] theorem bodyM_imm32 : (bodyM imm32 hi b ma a).extractLsb' 32 32 = imm32 := by
  simp (disch := decide) [-Nat.reduceAdd, bodyM, BitVec.extractLsb'_append_eq_of_le]

@[simp] theorem bodyJ_a : (bodyJ imm32 t b ma a).extractLsb' 0 8 = a := by
  simp (disch := decide) [-Nat.reduceAdd, bodyJ, BitVec.extractLsb'_append_eq_of_add_le]
@[simp] theorem bodyJ_tslot : (bodyJ imm32 t b ma a).extractLsb' 28 3 = t := by
  simp (disch := decide) [-Nat.reduceAdd, bodyJ, BitVec.extractLsb'_append_eq_of_add_le, BitVec.extractLsb'_append_eq_of_le]
@[simp] theorem bodyJ_imm32 : (bodyJ imm32 t b ma a).extractLsb' 32 32 = imm32 := by
  simp (disch := decide) [-Nat.reduceAdd, bodyJ, BitVec.extractLsb'_append_eq_of_le]

end

/-! ## FN (03 R43)

A block tells its instructions apart by FN under a mask: the lane-arithmetic blocks leave IMMB out, and each leaves out the
bits that hold a code. -/

section
variable (i : Bool) (sel : BitVec 3) (v : BitVec 4)

@[simp] theorem fnLane_imm : (fnLane i sel v).getLsbD 7 = i := by
  simp [-Nat.reduceAdd, -BitVec.getLsbD_eq_getElem, fnLane, BitVec.getLsbD_append]

theorem fnLane_sel : (fnLane i sel v).extractLsb' 4 3 = sel := by
  simp (disch := decide) [-Nat.reduceAdd, fnLane, BitVec.extractLsb'_append_eq_of_add_le, BitVec.extractLsb'_append_eq_of_le]

/-- VAR is the low four bits. -/
@[simp] theorem fnLane_extract {start len : Nat} (h : start + len ≤ 4) :
    (fnLane i sel v).extractLsb' start len = v.extractLsb' start len := by
  rw [fnLane, BitVec.extractLsb'_append_eq_of_add_le (by omega), BitVec.extractLsb'_append_eq_of_add_le h]

@[simp] theorem fnLane_getLsbD {n : Nat} (h : n < 4) : (fnLane i sel v).getLsbD n = v.getLsbD n := by
  have h7 : n < 3 + 4 := by omega
  rw [fnLane, BitVec.getLsbD_append, if_pos h7, BitVec.getLsbD_append, if_pos h]

theorem fnLane_fields (k : BitVec 8) : fnLane (k.getLsbD 7) (k.extractLsb' 4 3) (k.extractLsb' 0 4) = k := by
  revert k; decide

variable {i sel v} in
@[simp] theorem fnLane_eq_iff {k : BitVec 8} :
    fnLane i sel v = k ↔ i = k.getLsbD 7 ∧ sel = k.extractLsb' 4 3 ∧ v = k.extractLsb' 0 4 := by
  constructor
  · rintro rfl
    exact ⟨(fnLane_imm ..).symm, (fnLane_sel ..).symm, by simp⟩
  · rintro ⟨rfl, rfl, rfl⟩
    exact fnLane_fields k

@[simp] theorem fnLane_and_7F : fnLane i sel v &&& 0x7F#8 = fnLane false sel v := by cases i <;> (revert sel v; decide)
@[simp] theorem fnLane_and_7C : fnLane i sel v &&& 0x7C#8 = fnLane false sel (v &&& 12#4) := by
  cases i <;> (revert sel v; decide)
@[simp] theorem fnLane_and_7B : fnLane i sel v &&& 0x7B#8 = fnLane false sel (v &&& 11#4) := by
  cases i <;> (revert sel v; decide)
@[simp] theorem fnLane_and_78 : fnLane i sel v &&& 0x78#8 = fnLane false sel (v &&& 8#4) := by
  cases i <;> (revert sel v; decide)

end

@[simp] theorem append_and_12 (x y : BitVec 2) : HAnd.hAnd (α := BitVec 4) (x ++ y) 12#4 = x ++ 0#2 := by
  revert x y; decide
@[simp] theorem append_and_8 (x : BitVec 1) (y : BitVec 3) : HAnd.hAnd (α := BitVec 4) (x ++ y) 8#4 = x ++ 0#3 := by
  revert x y; decide
@[simp] theorem append_append_and_8 (x y : BitVec 1) (z : BitVec 2) :
    HAnd.hAnd (α := BitVec 4) (x ++ (y ++ z)) 8#4 = x ++ 0#3 := append_and_8 x (y ++ z)
@[simp] theorem append_append_and_11 (x y : BitVec 1) (z : BitVec 2) :
    HAnd.hAnd (α := BitVec 4) (x ++ (y ++ z)) 11#4 = x ++ z.setWidth 3 := by
  revert x y z; decide
@[simp] theorem append_append_and_F8 (x : BitVec 3) (y : BitVec 2) (z : BitVec 3) :
    HAnd.hAnd (α := BitVec 8) (x ++ (y ++ z)) 0xF8#8 = x ++ (y ++ 0#3) := by
  revert x y z; decide
@[simp] theorem append_append_and_F0 (x : BitVec 4) (y z : BitVec 2) :
    HAnd.hAnd (α := BitVec 8) (x ++ (y ++ z)) 0xF0#8 = x ++ 0#4 := by
  revert x y z; decide

/-! ## Modifiers, tile names and source B -/

@[simp] theorem Modifier.ofBits_bits (m : Modifier) : Modifier.ofBits m.bits = m := by
  cases m <;> simp (disch := decide) [-Nat.reduceAdd, ofBits, bits, BitVec.extractLsb'_append_eq_of_add_le,
    BitVec.extractLsb'_append_eq_of_le]

@[simp] theorem TileName.ofBits_bits (t : TileName) : TileName.ofBits t.bits = t := by
  cases t <;> simp (disch := decide) [-Nat.reduceAdd, -BitVec.getLsbD_eq_getElem, ofBits, bits, BitVec.getLsbD_append,
    BitVec.extractLsb'_append_eq_of_add_le, BitVec.extractLsb'_append_eq_of_le]

@[simp] theorem TileName.ofMat_matBits (t : TileName) : TileName.ofMat t.num t.matBits = t := by
  cases t <;> simp (disch := decide) [-Nat.reduceAdd, -BitVec.getLsbD_eq_getElem, ofMat, matBits, num, BitVec.getLsbD_append,
    BitVec.extractLsb'_append_eq_of_add_le]

/-- IMMB says whether B is the immediate or a register. -/
@[simp] theorem srcBI_bodyV (w fc fa pn : Bool) (pg : BitVec 3) (d op a c : BitVec 8) (sel : BitVec 3) (v : BitVec 4)
    (ma : BitVec 12) (b : SrcB) : Slot.srcBI ⟨w, fc, b.fe, fa, pn, pg, d, fnLane b.isImm sel v, op,
      bodyV b.fieldImm c b.fieldMB b.fieldB ma a⟩ = b := by
  cases b <;> simp [-BitVec.getLsbD_eq_getElem, Slot.srcBI, Slot.srcB, Slot.b, Slot.mb, Slot.imm16, SrcB.fieldB, SrcB.fieldMB,
    SrcB.fieldImm, SrcB.isImm, SrcB.fe]

/-! ## Slots -/

/-- A slot that encodes a well-formed instruction is read as that instruction: OP names its block, the masked FN the
instruction in it, and every field reads back. HAND, which has no code in CATOM, is not well formed there. -/
theorem parseSlot_encodeSlot {i : Instr} {s : Slot} (h : encodeSlot i = some s) (hwf : i.wf = true) :
    parseSlot s = some i := by
  have hform : i.formWf = true := by
    simp only [Instr.wf, Bool.and_eq_true] at hwf
    exact hwf.2
  cases i <;> cases h
  case catom ord _ =>
    simp only [Instr.formWf, Bool.and_eq_true] at hform
    simp (disch := decide) [-Nat.reduceAdd, parseSlot, parseScratch, Slot.guard, Slot.srcA, Slot.csrcB, Slot.a, Slot.ma,
      Slot.b, Slot.imm32, BitVec.extractLsb'_append_eq_of_add_le, BitVec.extractLsb'_append_eq_of_le,
      AtomOrd.ofBits_bits hform.2]
  all_goals simp (disch := decide) [-Nat.reduceAdd, -BitVec.getLsbD_eq_getElem, parseSlot, parseInt, parseFloat, parseLane,
    parseControl, parseScratch, parseEngine, parseSys, Slot.guard, Slot.srcA, Slot.srcB, Slot.csrcA, Slot.csrcB, Slot.csrcC,
    Slot.a, Slot.ma, Slot.b, Slot.mb, Slot.c, Slot.imm16, Slot.imm32, Slot.space, Slot.tslot, Slot.lowA, Slot.lowB,
    Slot.lowC, Slot.lowD, BitVec.getLsbD_append, BitVec.extractLsb'_append_eq_of_add_le, BitVec.extractLsb'_append_eq_of_le]

/-- A word that decodes is the one that encodes its instruction, which is well formed. -/
theorem decodeSlot_ok {w : BitVec 96} {i : Instr} (h : decodeSlot w = .ok i) :
    encodeSlot i = some (Slot.ofWord w) ∧ i.wf = true := by
  fun_cases decodeSlot w <;> simp_all [decodeSlot]

theorem decodeSlot_encodeSlot {i : Instr} {s : Slot} (h : encodeSlot i = some s) (hwf : i.wf = true) :
    decodeSlot s.toWord = .ok i := by
  simp [decodeSlot, parseSlot_encodeSlot h hwf, h, hwf]

/-! ## Row operations (12 R261) -/

/-- A field of a row operation reads back. -/
theorem extract_placed {w s : Nat} (h : s + w ≤ 32) (x : BitVec w) : (x.setWidth 32 <<< s).extractLsb' s w = x := by
  apply BitVec.eq_of_getLsbD_eq
  intro i hi
  have : s + i < 32 := by omega
  have : i < 32 := by omega
  simp [*]

/-- A field of a row operation leaves the bits of the others. -/
theorem extract_placed_off {w s t n : Nat} (h : t + n ≤ s ∨ s + w ≤ t) (x : BitVec w) :
    (x.setWidth 32 <<< s).extractLsb' t n = 0#n := by
  apply BitVec.eq_of_getLsbD_eq
  intro i hi
  rcases h with h | h
  · have : t + i < s := by omega
    simp [this]
  · have : w ≤ t + i - s := by omega
    simp [this, BitVec.getLsbD_of_ge]

/-- The lowest field, which is not shifted. -/
theorem extract_low {w : Nat} (h : w ≤ 32) (x : BitVec w) : (x.setWidth 32).extractLsb' 0 w = x := by
  simpa using extract_placed (s := 0) (by omega) x

theorem extract_low_off {w t n : Nat} (h : w ≤ t) (x : BitVec w) : (x.setWidth 32).extractLsb' t n = 0#n := by
  simpa using extract_placed_off (s := 0) (.inr (by omega)) x

/-- A word that encodes a row operation is read as that row operation. -/
theorem parseRow_encodeRow {i : Instr} {w : Word} (h : encodeRow i = some w) : parseRow w = some i := by
  cases i <;> cases h
  all_goals simp (disch := decide) [-BitVec.getLsbD_eq_getElem, parseRow, BitVec.extractLsb'_or, extract_placed,
    extract_placed_off, extract_low, extract_low_off, BitVec.getLsbD_of_ge]

theorem decodeRow_ok {w : Word} {i : Instr} (h : decodeRow w = .ok i) : encodeRow i = some w ∧ i.wf = true := by
  fun_cases decodeRow w <;> simp_all [decodeRow]

theorem decodeRow_encodeRow {i : Instr} {w : Word} (h : encodeRow i = some w) (hwf : i.wf = true) : decodeRow w = .ok i := by
  simp [decodeRow, parseRow_encodeRow h, h, hwf]

/-! ## Bytes (00 R3) -/

@[simp] theorem bytesOfNat_length (n v : Nat) : (bytesOfNat n v).length = n := by
  induction n generalizing v with
  | zero => rfl
  | succ n ih => simp [bytesOfNat, ih]

theorem natOfBytes_bytesOfNat {n v : Nat} (h : v < 256 ^ n) : natOfBytes (bytesOfNat n v) = v := by
  induction n generalizing v with
  | zero => simp at h; simp [bytesOfNat, natOfBytes, h]
  | succ n ih =>
    have hq : v / 256 < 256 ^ n := Nat.div_lt_of_lt_mul (by rwa [pow_succ, mul_comm] at h)
    simp only [bytesOfNat, natOfBytes, ih hq, BitVec.toNat_ofNat]
    exact Nat.mod_add_div v 256

@[simp] theorem decodeBytes_slot (w : BitVec 96) : decodeBytes (bytesOfNat 12 w.toNat) = decodeSlot w := by
  simp [decodeBytes, natOfBytes_bytesOfNat (n := 12) w.isLt]

@[simp] theorem decodeBytes_row (w : Word) : decodeBytes (bytesOfNat 4 w.toNat) = decodeRow w := by
  simp [decodeBytes, natOfBytes_bytesOfNat (n := 4) w.isLt]

theorem decodeTableWord_slot {w : BitVec 96} {i : Instr} (h : decodeSlot w = .ok i) :
    decodeTableWord 96 w.toNat = some i := by
  simp [decodeTableWord, -Nat.reducePow, Nat.mod_eq_of_lt w.isLt, h]

theorem decodeTableWord_row {w : Word} {i : Instr} (h : decodeRow w = .ok i) : decodeTableWord 32 w.toNat = some i := by
  simp [decodeTableWord, -Nat.reducePow, Nat.mod_eq_of_lt w.isLt, h]

/-- Settles O55: slots and row operations read back, and a word that decodes is the one that encodes its instruction. -/
theorem decodeEncode : Obligations.DecodeEncode := by
  refine ⟨fun i n w hwf h => ?_, fun v w i hv hw => ?_, fun v w i hv hw => ?_, fun w i h => (decodeSlot_ok h).2,
    fun w i h => (decodeRow_ok h).2⟩
  · cases hs : encodeSlot i with
    | some s =>
      obtain ⟨rfl, rfl⟩ : 96 = n ∧ s.toWord.toNat = w := by simpa [encode, hs] using h
      have hd := decodeSlot_encodeSlot hs hwf
      exact ⟨by simpa using hd, decodeTableWord_slot hd⟩
    | none =>
      obtain ⟨r, hr, rfl, rfl⟩ : ∃ r, encodeRow i = some r ∧ 32 = n ∧ r.toNat = w := by simpa [encode, hs] using h
      have hd := decodeRow_encodeRow hr hwf
      exact ⟨by simpa using hd, decodeTableWord_row hd⟩
  · have e := Option.some.inj ((decodeSlot_ok hv).1.symm.trans (decodeSlot_ok hw).1)
    rw [← Slot.toWord_ofWord v, e, Slot.toWord_ofWord]
  · exact Option.some.inj ((decodeRow_ok hv).1.symm.trans (decodeRow_ok hw).1)

end Sys2Proof

/-! SUPPORT. Fetch and decoding of a bundle (03 R33, R35, R36, R53): where every thread of the bundle in focus holds one line
and stands at one slot, a step performs what that slot decodes to, or stops them all. -/

namespace Sys2Proof.Machine

/-! ## Words (03 R37 to R53) -/

theorem decodeTableWord_of_encode {i : Instr} {n w : Nat} (he : encode i = some (n, w)) (hwf : i.wf = true) :
    decodeTableWord n w = some i :=
  (decodeEncode.1 i n w hwf he).2

/-- Settles O54: each word is the one that encodes its instruction, which decodes to it; no block assigns OP 0xE0. -/
theorem decodeWords : Obligations.DecodeWords :=
  ⟨decodeTableWord_of_encode rfl rfl, decodeTableWord_of_encode rfl rfl, decodeTableWord_of_encode rfl rfl,
    decodeTableWord_of_encode rfl rfl, decodeTableWord_of_encode rfl rfl, decodeTableWord_of_encode rfl rfl,
    decodeTableWord_of_encode rfl rfl, decodeTableWord_of_encode rfl rfl, decodeTableWord_of_encode rfl rfl, rfl⟩

/-! ## Decoding at a thread (03 R33, R53) -/

theorem decodeAt_of_parity {t : Thread} {L : Line} {p : LaunchParams} (h : parSlotOk L (slotOf t.pc) = false) :
    decodeAt t L p = .error { code := 0x03, faddr := t.pc } := by
  simp [decodeAt, h]

theorem decodeAt_of_decodeSlot {t : Thread} {L : Line} {p : LaunchParams} {i : Instr} (h : parSlotOk L (slotOf t.pc) = true)
    (hd : decodeSlot (lineSlot L (slotOf t.pc)) = .ok i) (hf : i.fits p = true) : decodeAt t L p = .ok i := by
  simp [decodeAt, h, hd, hf]

/-- A slot of good parity that decodes to no instruction, or to one that does not fit, is ILLEGAL. -/
theorem decodeAt_of_illegal {t : Thread} {L : Line} {p : LaunchParams} (h : parSlotOk L (slotOf t.pc) = true)
    (hd : ∀ i, decodeSlot (lineSlot L (slotOf t.pc)) = .ok i → i.fits p = false) :
    ∃ f, decodeAt t L p = .error f ∧ f.code = 0x01 := by
  simp only [decodeAt, h, Bool.not_true, Bool.false_eq_true, if_false]
  cases e : decodeSlot (lineSlot L (slotOf t.pc)) with
  | ok i => exact ⟨{ code := 0x01 }, by simp [hd i e], rfl⟩
  | error r =>
    cases r with
    | fmtValue v => exact ⟨_, rfl, rfl⟩
    | unassigned | form =>
      refine ⟨_, rfl, ?_⟩
      split
      · split <;> rfl
      · rfl

/-! ## Fetch (03 R35, R36) -/

/-- A fold of steps that each leave a value as it is leaves it. -/
theorem foldl_eq_self {α β : Type} {f : β → α → β} {b : β} : ∀ {l : List α}, (∀ a ∈ l, f b a = b) → l.foldl f b = b
  | [], _ => rfl
  | a :: l, h => by
    rw [List.foldl_cons, h a List.mem_cons_self]
    exact foldl_eq_self fun x hx => h x (List.mem_cons_of_mem _ hx)

/-- What becomes of the lanes of a bundle whose slot decodes so: they perform the instruction, or all stop. -/
def issueDecoded (s : State) (h : HandKey) (ls : List Nat) : Except FaultInfo Instr → Issue
  | .ok i => .run i { s with focus := .bundle h (maskOf ls) }
  | .error f => .stay (splitBundle (ls.foldl (fun s x => takeFault s (threadOf h x) f) s) h (maskOf ls))

/-- A bundle whose threads all hold one line, stand at one address and can go on, performs what decodes there. -/
theorem fetchBundle_of_held {s : State} {h : HandKey} {m : BitVec 64} {tm : Team} {pc : Dword} {L : Line}
    {r : Except FaultInfo Instr} (ht : aget h.team s.teams = some tm) (hne : lanesOf m tm.w ≠ [])
    (hl : ∀ l ∈ lanesOf m tm.w, ∃ u, s.lane h l = some u ∧ u.pc = pc ∧ u.go = none ∧ heldLine u = some L ∧
      (u.run.issuable || s.focus = .bundle h m && u.run.arrived) = true)
    (hd : ∀ u : Thread, u.pc = pc → decodeAt u L (launchParams tm) = r) :
    fetchBundle s h m = issueDecoded s h (lanesOf m tm.w) r := by
  simp only [fetchBundle, ht]
  rw [if_neg, foldl_eq_self (b := s), List.filter_eq_self.mpr]
  · obtain ⟨l0, ls, e⟩ := List.exists_cons_of_ne_nil hne
    rw [e] at hl ⊢
    obtain ⟨u, hu, hpc, -, hL, -⟩ := hl l0 List.mem_cons_self
    have same : (l0 :: ls).filter (fun l => (s.lane h l).bind heldLine = (s.lane h l0).bind heldLine) = l0 :: ls := by
      refine List.filter_eq_self.mpr fun l hm => ?_
      obtain ⟨v, hv, -, -, hv', -⟩ := hl l hm
      simp [hu, hL, hv, hv']
    simp only [same]
    simp only [hu, hL, Option.bind_some, hd u hpc]
    cases r <;> rfl
  · intro l hm
    obtain ⟨u, hu, -, -, hL, hgo⟩ := hl l hm
    simpa [hu, hL] using hgo
  · intro l hm
    obtain ⟨u, hu, -, -, hL, -⟩ := hl l hm
    simp [hu, hL]
  · rw [not_not, List.filter_eq_nil_iff]
    intro l hm
    obtain ⟨u, hu, -, hgo, -, -⟩ := hl l hm
    simp [hu, hgo]

/-! ## Steps -/

theorem step_of_run {s s' : State} {h : HandKey} {m : BitVec 64} {i : Instr} (hp : s.health.powered = true)
    (hf : s.focus = .bundle h m) (hb : fetchBundle s h m = .run i s') : step s = exec i s' := by
  simp [step, hp, hf, hb]

theorem step_of_stay {s s' : State} {h : HandKey} {m : BitVec 64} (hp : s.health.powered = true)
    (hf : s.focus = .bundle h m) (hb : fetchBundle s h m = .stay s') : step s = .next s' := by
  simp [step, hp, hf, hb]

/-- Settles O56: the bundle's slot decodes, and the unit's word does. -/
theorem stepRunsDecoded : Obligations.StepRunsDecoded := by
  refine ⟨fun s h m tm pc L i hp hf ht hne hl hpar hdec hfits => ?bundle, fun s p w i hp hf hw hdec => ?unit⟩
  case bundle =>
    refine step_of_run hp hf (fetchBundle_of_held (pc := pc) (L := L) (r := .ok i) ht hne (fun l hm => ?_) fun u hu => ?_)
    · obtain ⟨u, hu, hpc, hgo, hL, hrun⟩ := hl l hm
      refine ⟨u, hu, hpc, hgo, hL, ?_⟩
      rcases hrun with hr | ⟨x, hr⟩ <;> simp [hr, hf, Run.arrived]
    · subst hu
      exact decodeAt_of_decodeSlot hpar hdec hfits
  case unit => simp [step, hp, hf, unitFetch, hw, hdec]

/-! ## Threads that a fault stops (14 R325) -/

/-- A thread that a fault of a code has stopped: registers, predicates and full/empty bits stand. -/
def Thread.stoppedBy (u : Thread) (code : Nat) : Thread :=
  { u with run := .stopped code, go := none, need := none, fenceAt := none, bwait := none, ask := none }

@[simp] theorem sendFault_threads (s : State) (r : FaultRec) : (sendFault s r).threads = s.threads := by
  unfold sendFault; split <;> rfl

@[simp] theorem withdraw_threads (s : State) (k : ThreadKey) : (withdraw s k).threads = s.threads := by
  unfold withdraw; repeat' split
  all_goals rfl

@[simp] theorem threadRec_code (s : State) (k : ThreadKey) (f : FaultInfo) (wait : Bool) (page : Nat) :
    (threadRec s k f wait page).code = f.code := by
  unfold threadRec
  cases h : aget k.team s.teams <;> simp

@[simp] theorem takeFault_threads (s : State) (k : ThreadKey) (f : FaultInfo) :
    (takeFault s k f).threads = amod k (·.stoppedBy f.code) s.threads := by
  simp [takeFault, stopThread, Thread.stoppedBy]

theorem foldl_takeFault_threads (h : HandKey) (f : FaultInfo) : ∀ (ls : List Nat) {s t : State}, s.threads = t.threads →
    (ls.foldl (fun s l => takeFault s (threadOf h l) f) s).threads =
      (ls.foldl (fun s l => s.modThread (threadOf h l) ((fun _ => (·.stoppedBy f.code)) l)) t).threads
  | [], _, _, e => e
  | l :: ls, s, t, e => foldl_takeFault_threads h f ls (by simp [e])

/-- A fault that every lane of a bundle raises stops each lane's thread once. -/
theorem lane_foldl_takeFault (h : HandKey) (f : FaultInfo) {ls : List Nat} {l : Nat} (s : State) (hn : ls.Nodup) (hl : l ∈ ls) :
    (ls.foldl (fun s l => takeFault s (threadOf h l) f) s).lane h l = (s.lane h l).map (·.stoppedBy f.code) := by
  rw [State.lane, foldl_takeFault_threads h f ls rfl]
  exact lane_foldl_mem h _ ls s hn hl

@[simp] theorem splitBundle_threads (s : State) (h : HandKey) (m : BitVec 64) : (splitBundle s h m).threads = s.threads := rfl
@[simp] theorem splitBundle_mem (s : State) (h : HandKey) (m : BitVec 64) : (splitBundle s h m).mem = s.mem := rfl

/-! ## Slots that are no instruction (03 R33, R53) -/

/-- What decodes depends on a thread's address alone. -/
theorem decodeAt_congr {t u : Thread} (h : t.pc = u.pc) (L : Line) (p : LaunchParams) : decodeAt t L p = decodeAt u L p := by
  simp [decodeAt, h]

/-- A bundle whose slot gives a fault stops, every thread at its instruction. -/
theorem step_of_error {s : State} {h : HandKey} {m : BitVec 64} {tm : Team} {pc : Dword} {L : Line} {f : FaultInfo}
    (hp : s.health.powered = true) (hf : s.focus = .bundle h m) (ht : aget h.team s.teams = some tm)
    (hne : lanesOf m tm.w ≠ [])
    (hl : ∀ l ∈ lanesOf m tm.w, ∃ u, s.lane h l = some u ∧ u.pc = pc ∧ u.go = none ∧ heldLine u = some L ∧
      u.run.issuable = true)
    (hd : ∀ u : Thread, u.pc = pc → decodeAt u L (launchParams tm) = .error f) :
    ∃ t, step s = .next t ∧ t.mem = s.mem ∧
      ∀ l ∈ lanesOf m tm.w, ∀ u, s.lane h l = some u → t.lane h l = some (u.stoppedBy f.code) := by
  have hb := fetchBundle_of_held ht hne (fun l hm => by
    obtain ⟨u, hu, hpc, hgo, hL, hrun⟩ := hl l hm
    exact ⟨u, hu, hpc, hgo, hL, by simp [hrun]⟩) hd
  refine ⟨_, step_of_stay hp hf hb, ?_, fun l hm u hu => ?_⟩
  · rw [splitBundle_mem]
    exact foldl_mem (fun s l => takeFault_mem s (threadOf h l) f) _ s
  · rw [State.lane, splitBundle_threads, ← State.lane, lane_foldl_takeFault h f s (lanesOf_nodup ..) hm, hu]
    rfl

/-- Settles O57: `step_of_error`, with the fault that the slot gives. -/
theorem illegalSlots : Obligations.IllegalSlots := by
  intro s h m tm pc L hp hf ht hne hl stops
  have key : ∀ f : FaultInfo, (∀ u : Thread, u.pc = pc → decodeAt u L (launchParams tm) = .error f) → stops f.code := by
    intro f hd
    obtain ⟨t, hstep, hmem, hlanes⟩ := step_of_error hp hf ht hne hl hd
    refine ⟨t, hstep, hmem, fun l hm u hu => ⟨_, hlanes l hm u hu, rfl, ?_, rfl, rfl, rfl⟩⟩
    obtain ⟨v, hv, hpc, -⟩ := hl l hm
    rw [hu] at hv
    cases hv
    exact hpc
  refine ⟨fun hpar => ?parity, fun hpar hno => ?illegal⟩
  case parity => exact key { code := 0x03, faddr := pc } fun u hu => by subst hu; exact decodeAt_of_parity hpar
  case illegal =>
    obtain ⟨l, ls, e⟩ := List.exists_cons_of_ne_nil hne
    obtain ⟨u, -, rfl, -⟩ := hl l (e ▸ List.mem_cons_self)
    obtain ⟨f, hdec, hcode⟩ := decodeAt_of_illegal hpar hno
    exact hcode ▸ key f fun v hv => (decodeAt_congr hv ..).trans hdec

end Sys2Proof.Machine

/-! SUPPORT. Source modifiers (03 R49): the lane that a modifier reads, by the segment of the reading lane and its place in
it. -/

namespace Sys2Proof.Machine

/-! ## The lane that a modifier reads -/

section
variable (seg : BitVec 3) (k : BitVec 7) (w l : Nat)

/-- A lane is its segment's first lane and its place in the segment. -/
theorem segment_base (n : Nat) : l - l % n = n * (l / n) := by
  have := Nat.div_add_mod l n
  omega

theorem segment_place (n : Nat) : l - (l - l % n) = l % n := by
  have := Nat.mod_le l n
  omega

theorem srcLane_rot : srcLane (.rot seg k) w l =
    segSize seg w * (l / segSize seg w) + (((l % segSize seg w : Nat) + k.toInt) % (segSize seg w : Int)).toNat := by
  simp only [srcLane]
  rw [segment_place, segment_base]

theorem srcLane_bfly : srcLane (.bfly seg k) w l =
    segSize seg w * (l / segSize seg w) + (l % segSize seg w ^^^ k.toNat) := by
  simp only [srcLane]
  rw [segment_place, segment_base]

theorem srcLane_bcst : srcLane (.bcst seg k) w l = segSize seg w * (l / segSize seg w) + k.toNat := by
  simp [srcLane, segment_base]

end

/-- A lane given by its segment and its place in it. -/
theorem segment_div {n q r : Nat} (h : r < n) : (n * q + r) / n = q := by
  rw [Nat.mul_add_div (by omega), Nat.div_eq_of_lt h, Nat.add_zero]

theorem segment_mod {n q r : Nat} (h : r < n) : (n * q + r) % n = r := by
  rw [Nat.mul_add_mod, Nat.mod_eq_of_lt h]

section
variable {seg : BitVec 3} {k : BitVec 7} {w l : Nat} (hn : 0 < segSize seg w)
include hn

/-- The place that a rotation reads, as an integer. -/
theorem rot_place : ((((l % segSize seg w : Nat) + k.toInt) % (segSize seg w : Int)).toNat : Int) =
    ((l % segSize seg w : Nat) + k.toInt) % (segSize seg w : Int) :=
  Int.toNat_of_nonneg (Int.emod_nonneg _ (by omega))

theorem rot_place_lt : (((l % segSize seg w : Nat) + k.toInt) % (segSize seg w : Int)).toNat < segSize seg w := by
  have := Int.emod_lt_of_pos ((l % segSize seg w : Nat) + k.toInt) (Int.natCast_pos.mpr hn)
  have := rot_place (k := k) (l := l) hn
  omega

theorem srcLane_rot_div : srcLane (.rot seg k) w l / segSize seg w = l / segSize seg w := by
  rw [srcLane_rot, segment_div (rot_place_lt hn)]

/-- A rotation reads the lane at its distance, modulo the segment. -/
theorem srcLane_rot_distance : (((srcLane (.rot seg k) w l : Nat) : Int) - l - k.toInt) % segSize seg w = 0 := by
  have hr := rot_place (k := k) (l := l) hn
  have hl : ((segSize seg w * (l / segSize seg w) + l % segSize seg w : Nat) : Int) = l := by rw [Nat.div_add_mod]
  have hq := Int.emod_add_mul_ediv ((l % segSize seg w : Nat) + k.toInt) (segSize seg w)
  rw [srcLane_rot]
  refine Int.emod_eq_zero_of_dvd ⟨-(((l % segSize seg w : Nat) + k.toInt) / segSize seg w), ?_⟩
  push_cast at hr hl hq ⊢
  linarith

end

/-- A rotation by a multiple of the segment's size reads the thread's own lane. -/
theorem srcLane_rot_self {seg : BitVec 3} {k : BitVec 7} {w : Nat} (l : Nat) (hk : k.toInt % segSize seg w = 0) :
    srcLane (.rot seg k) w l = l := by
  have hr : (((l % segSize seg w : Nat) + k.toInt) % (segSize seg w : Int)).toNat = l % segSize seg w := by
    rw [Int.add_emod, hk, add_zero, Int.emod_emod, ← Int.natCast_mod, Int.toNat_natCast, Nat.mod_mod]
  rw [srcLane_rot, hr, Nat.div_add_mod]

theorem srcLane_bcst_div {seg : BitVec 3} {k : BitVec 7} {w l : Nat} (hk : k.toNat < segSize seg w) :
    srcLane (.bcst seg k) w l / segSize seg w = l / segSize seg w := by
  rw [srcLane_bcst, segment_div hk]

theorem srcLane_bcst_mod {seg : BitVec 3} {k : BitVec 7} {w l : Nat} (hk : k.toNat < segSize seg w) :
    srcLane (.bcst seg k) w l % segSize seg w = k.toNat := by
  rw [srcLane_bcst, segment_mod hk]

theorem srcLane_bfly_zero (seg : BitVec 3) (w l : Nat) : srcLane (.bfly seg 0) w l = l := by
  simp [srcLane_bfly, Nat.div_add_mod]

/-- A butterfly's place lies in a segment whose size is a power of two. -/
theorem bfly_place_lt {n j k l : Nat} (hj : n = 2 ^ j) (hk : k < n) : l % n ^^^ k < n := by
  subst hj
  exact Nat.xor_lt_two_pow (Nat.mod_lt _ (Nat.two_pow_pos j)) hk

section
variable {seg : BitVec 3} {k : BitVec 7} {w l j : Nat} (hj : segSize seg w = 2 ^ j) (hk : k.toNat < segSize seg w)
include hj hk

theorem srcLane_bfly_div : srcLane (.bfly seg k) w l / segSize seg w = l / segSize seg w := by
  rw [srcLane_bfly, segment_div (bfly_place_lt hj hk)]

/-- A butterfly goes both ways. -/
theorem srcLane_bfly_bfly : srcLane (.bfly seg k) w (srcLane (.bfly seg k) w l) = l := by
  rw [srcLane_bfly seg k w (srcLane _ w l), srcLane_bfly_div hj hk, srcLane_bfly, segment_mod (bfly_place_lt hj hk),
    Nat.xor_assoc, Nat.xor_self, Nat.xor_zero, Nat.div_add_mod]

end

/-! ## MOV under a modifier -/

/-- The operands that a lane has read. -/
theorem value_of_readOpnds {s : State} {h : HandKey} {w l : Nat} {sh : Shape} {v : Vals} (e : readOpnds s h w sh l = .ok v) :
    v = ⟨sh.a.value s h w l, sh.b.value s h w l, sh.c.value s h w l⟩ := by
  simp only [readOpnds] at e
  repeat' split at e
  all_goals cases e
  all_goals rfl

/-- Settles O11: MOV is `runLanes_part` with the source lane's register; the lanes by place and segment. -/
theorem sourceLanes : Obligations.SourceLanes := by
  refine ⟨fun g w d a s h tm ls hc => ⟨_, rfl, runLanes_part hc fun l hl => ?_⟩, fun seg k w l => ?_⟩
  · obtain ⟨v, hv⟩ := hc.ready l hl
    refine ⟨v, hv, fun s' _ _ => ?_⟩
    rw [value_of_readOpnds hv]
    rfl
  · intro n hn
    exact ⟨srcLane_rot_div hn, srcLane_rot_distance hn, fun hk => ⟨srcLane_bcst_div hk, srcLane_bcst_mod hk⟩,
      srcLane_rot_self l, srcLane_bfly_zero seg w l, fun ⟨j, hj⟩ hk => ⟨srcLane_bfly_bfly hj hk, srcLane_bfly_div hj hk⟩⟩

end Sys2Proof.Machine

/-! SUPPORT. Empty registers (03 R50): what a thread that meets one waits for. -/

namespace Sys2Proof.Machine

/-- A thread of a bundle of its own that meets an empty register waits until those that its instruction names are full. -/
theorem runLanes_one_wait {s : State} {sh : Shape} {h : HandKey} {tm : Team} {l : Nat}
    {body : ThreadKey → Vals → State → LaneOut} (hf : inFocus s = some (h, tm, [l])) (hm : sh.modified = false)
    (hp : performing s h sh.g [l] = [l]) (hw : readOpnds s h tm.w sh l = .wait) :
    runLanes s sh body = endIssue (waitRegs s (threadOf h l) l sh) h [l] := by
  simp [runLanes, hf, hm, hp, runLane, hw]

/-- One thread of a team on its own, in focus; its v1 is empty. -/
def emptySource : State := { State.reset with
  teams := [(hostTeamId, hostTeam)]
  threads := [(threadOf ⟨hostTeamId, 0⟩ 0, { hostThread 0 with full := [true, false] })]
  focus := .bundle ⟨hostTeamId, 0⟩ 1 }

/-- ADD of v1 to itself at that thread leaves it waiting for its registers, v1 among them. -/
theorem add_emptySource : exec (.add ⟨0, false⟩ false 0 ⟨1, .none, false⟩ (.reg ⟨1, .none, false⟩)) emptySource =
    .next (endIssue (waitRegs emptySource (threadOf ⟨hostTeamId, 0⟩ 0) 0
      (shapeAB ⟨0, false⟩ false 0 ⟨1, .none, false⟩ (.reg ⟨1, .none, false⟩))) ⟨hostTeamId, 0⟩ [0]) :=
  congrArg Host.Outcome.next (runLanes_one_wait (tm := hostTeam) rfl rfl rfl rfl)

/-- Refutes O17: a ready thread whose source is empty and has no FE bit waits for its registers (`Run.regs`), from which
it becomes ready by itself; the statement leaves it as one that waits for its turn (`Run.stalled`). In `emptySource` ADD of
v1, which is empty, shows the difference. -/
theorem not_emptyAndFull : ¬ Obligations.EmptyAndFull := by
  intro ⟨_, h⟩
  obtain ⟨_, waits⟩ := h ⟨0, false⟩ false 0 ⟨1, .none, false⟩ ⟨1, .none, false⟩ emptySource ⟨hostTeamId, 0⟩ hostTeam 0
    { hostThread 0 with full := [true, false] } rfl rfl rfl rfl rfl
  have same := add_emptySource.symm.trans (waits (by decide) (.inl rfl))
  have runs := congrArg (fun t : State => (t.lane ⟨hostTeamId, 0⟩ 0).map Thread.run) (Host.Outcome.next.inj same)
  simp only [endIssue_lane] at runs
  exact absurd runs (by decide)

end Sys2Proof.Machine

/-! SUPPORT. Fetch, bundles and the choice of a quadrant (03 R35, R36; 04 R68, R70, R73). -/

namespace Sys2Proof.Machine

/-! ## A thread that enters its line (03 R35, R36) -/

@[simp] theorem countLine_threads (s : State) (fn va : Nat) (w : Bool) : (countLine s fn va w).threads = s.threads := by
  unfold countLine
  repeat' split
  all_goals rfl

@[simp] theorem countXl_threads (s : State) (fn va : Nat) (x : Xl) (w first : Bool) :
    (countXl s fn va x w first).threads = s.threads := by
  unfold countXl
  rw [countLine_threads]
  repeat' split
  all_goals rfl

/-- An undisturbed line in the module's DRAM, without poison and of good parity, is fetched as it stands. -/
theorem fetchLine_of_dram {s : State} {fn d : Nat} {w : Option Nat} {va : Dword} {stay : Bool} {L : Line}
    (hx : reach s fn va.toNat .fetch stay = .dram d w) (hp : dramPoisoned s (locOf d) 64 = false) (hg : s.glitch = 0)
    (hL : L = BitVec.ofNat 512 (natOfBytes (dramRead s d 64))) (hpar : parityOk L = true) :
    fetchLine s fn va stay = .line L { countXl s fn va.toNat (.dram d w) false true with glitch := 0 } := by
  subst hL
  have hsame (m : Line) : m ^^^ s.glitch = m := by rw [hg]; exact BitVec.xor_zero
  simp only [fetchLine, hx, fetchLine.copy, placePoisoned, hp, placeRead, hsame, hpar, Bool.false_eq_true, if_false, if_true]

/-- A line whose parity and format are good fails no check of entry. -/
theorem entryFault_of_ok {L : Line} (hp : parityOk L = true) (hf : formatOk L = true) (slot : Nat) : entryFault L slot = none := by
  simp only [parityOk, Bool.and_eq_true, List.all_eq_true, List.mem_range] at hp
  obtain ⟨hw, hs⟩ := hp
  by_cases h5 : slot < 5
  · simp [entryFault, hw, hf, hs slot h5]
  · simp [entryFault, hw, hf, h5]

/-- The state in which a thread has entered its line, which the module's DRAM holds. -/
theorem enterLine_of_dram {s : State} {k : ThreadKey} {u : Thread} {L : Line} {d : Nat} {w : Option Nat}
    (hu : aget k s.threads = some u)
    (hx : reach s (funcOf s k) (lineAddr u.pc).toNat .fetch (fetchStays s k) = .dram d w)
    (hp : dramPoisoned s (locOf d) 64 = false) (hg : s.glitch = 0)
    (hL : L = BitVec.ofNat 512 (natOfBytes (dramRead s d 64))) (hpar : parityOk L = true) (hfmt : formatOk L = true) :
    enterLine s k = State.modThread { countXl s (funcOf s k) (lineAddr u.pc).toNat (.dram d w) false true with glitch := 0 } k
      fun t => { t with line := some (lineAddr t.pc, L) } := by
  simp only [enterLine, hu, fetchLine_of_dram hx hp hg hL hpar, entryFault_of_ok hpar hfmt]

theorem lanesOf_twoPow {l : Nat} (hl : l < 64) : lanesOf (BitVec.twoPow 64 l) 64 = [l] := by
  have hbit : (fun i => (BitVec.twoPow 64 l).getLsbD i) = fun i => i == l := by
    funext i
    simp [BitVec.getLsbD_twoPow, hl, beq_eq_decide, eq_comm]
  rw [lanesOf, hbit, List.filter_beq, List.count_eq_one_of_mem List.nodup_range (List.mem_range.mpr hl)]
  rfl

/-- FETCH_LINE of a ready thread alone: it enters its line, and no fetch of its waits. -/
theorem execFetchLine_of_ready {s : State} {h : HandKey} {l : Nat} {u v : Thread} (hl : l < 64) (hu : s.lane h l = some u)
    (hrun : u.run = .ready) (hgo : u.go = none) (hline : heldLine u = none)
    (hv : (enterLine (wakeLanes s h []) (threadOf h l)).lane h l = some v) (hready : v.run = .ready) :
    execFetchLine h (BitVec.twoPow 64 l) s = .next (enterLine (wakeLanes s h []) (threadOf h l)) := by
  have hf : fetchedLanes s h [l] = [] := by simp [fetchedLanes, hu, hrun]
  simp [execFetchLine, lanesOf_twoPow hl, hf, hu, hrun, hgo, hline, Run.issuable, askLanes, hv, hready]

/-! ## Lanes as masks -/

theorem getLsbD_maskOf (ls : List Nat) (l : Nat) : (maskOf ls).getLsbD l = decide (l < 64 ∧ l ∈ ls) := by
  have key : ∀ (ls : List Nat) (m : BitVec 64), (ls.foldl (fun m i => m ||| BitVec.twoPow 64 i) m).getLsbD l =
      (m.getLsbD l || decide (l < 64 ∧ l ∈ ls)) := by
    intro ls
    induction ls with
    | nil => simp
    | cons x xs ih =>
      intro m
      rw [List.foldl_cons, ih, BitVec.getLsbD_or, BitVec.getLsbD_twoPow, Bool.or_assoc]
      congr 1
      rw [← Bool.decide_and, ← Bool.decide_or, decide_eq_decide, List.mem_cons]
      constructor
      · rintro (⟨hx, rfl⟩ | ⟨hl, hm⟩)
        · exact ⟨hx, .inl rfl⟩
        · exact ⟨hl, .inr hm⟩
      · rintro ⟨hl, rfl | hm⟩
        · exact .inl ⟨hl, rfl⟩
        · exact .inr ⟨hl, hm⟩
  simpa [maskOf] using key ls 0

/-- The thread of a lane is ready. -/
def ReadyAt (s : State) (h : HandKey) (l : Nat) : Prop := ∃ u, s.lane h l = some u ∧ u.run = .ready

theorem mem_lanesWhere {s : State} {h : HandKey} {m : BitVec 64} {p : Run → Bool} {l : Nat} :
    l ∈ lanesWhere s h m p ↔ l < 64 ∧ m.getLsbD l = true ∧ ∃ u, s.lane h l = some u ∧ p u.run = true := by
  simp only [lanesWhere, List.mem_filter, List.mem_range, Bool.and_eq_true, State.lane]
  cases aget (threadOf h l) s.threads <;> simp

theorem getLsbD_readyLanes {s : State} {h : HandKey} {b : Bundle} {l : Nat} :
    (readyLanes s h b).getLsbD l = true ↔ b.lanes.getLsbD l = true ∧ ReadyAt s h l := by
  have h64 : b.lanes.getLsbD l = true → l < 64 := BitVec.lt_of_getLsbD
  simp only [readyLanes, getLsbD_maskOf, mem_lanesWhere, decide_eq_true_eq, ReadyAt]
  tauto

/-- A bundle whose threads are all ready. -/
theorem readyLanes_of_all {s : State} {h : HandKey} {b : Bundle} (hb : ∀ l, b.lanes.getLsbD l = true → ReadyAt s h l) :
    readyLanes s h b = b.lanes := by
  refine BitVec.eq_of_getLsbD_eq fun l _ => Bool.eq_iff_iff.mpr ?_
  rw [getLsbD_readyLanes]
  exact ⟨And.left, fun hl => ⟨hl, hb l hl⟩⟩

/-- A bundle of whose threads none is ready. -/
theorem readyLanes_of_none {s : State} {h : HandKey} {b : Bundle} (hb : ∀ l, b.lanes.getLsbD l = true → ¬ ReadyAt s h l) :
    readyLanes s h b = 0 := by
  refine BitVec.eq_of_getLsbD_eq fun l _ => (Bool.eq_false_iff.mpr ?_).trans BitVec.getLsbD_zero.symm
  rw [Ne, getLsbD_readyLanes]
  exact fun ⟨hl, hr⟩ => hb l hl hr

/-! ## Bundles of one address (04 R68) -/

/-- A bundle joins the one that stands at its address, if there is one. -/
def joinBundle (acc : List Bundle) (b : Bundle) : List Bundle :=
  if acc.any fun x => x.pc = b.pc then
    acc.map fun x => if x.pc = b.pc then { x with lanes := x.lanes ||| b.lanes, age := min x.age b.age } else x
  else acc ++ [b]

/-- What some bundles have become: one for each address, with all of their lanes there and the earliest age. -/
structure Joined (bs acc : List Bundle) : Prop where
  distinct : (acc.map Bundle.pc).Nodup
  covers : ∀ c ∈ bs, ∃ x ∈ acc, x.pc = c.pc
  lanes : ∀ pc l, (∃ x ∈ acc, x.pc = pc ∧ x.lanes.getLsbD l = true) ↔ ∃ c ∈ bs, c.pc = pc ∧ c.lanes.getLsbD l = true
  source : ∀ x ∈ acc, ∃ c ∈ bs, c.pc = x.pc ∧ c.age = x.age
  earliest : ∀ x ∈ acc, ∀ c ∈ bs, c.pc = x.pc → x.age ≤ c.age

/-- The bundle that `b` has joined. -/
def Bundle.joinedBy (b x : Bundle) : Bundle :=
  if x.pc = b.pc then { x with lanes := x.lanes ||| b.lanes, age := min x.age b.age } else x

@[simp] theorem Bundle.joinedBy_pc (b x : Bundle) : (b.joinedBy x).pc = x.pc := by
  unfold Bundle.joinedBy
  split <;> rfl

theorem Bundle.joinedBy_lanes (b x : Bundle) (l : Nat) :
    (b.joinedBy x).lanes.getLsbD l = true ↔ x.lanes.getLsbD l = true ∨ x.pc = b.pc ∧ b.lanes.getLsbD l = true := by
  unfold Bundle.joinedBy
  split <;> simp_all

theorem joinBundle_of_mem {acc : List Bundle} {b : Bundle} (h : ∃ x ∈ acc, x.pc = b.pc) : joinBundle acc b = acc.map b.joinedBy :=
  if_pos (by simpa using h)

theorem joinBundle_of_not_mem {acc : List Bundle} {b : Bundle} (h : ∀ x ∈ acc, x.pc ≠ b.pc) : joinBundle acc b = acc ++ [b] :=
  if_neg (by simpa using h)

/-- A bundle that joins another one. -/
theorem Joined.join {bs acc : List Bundle} {b : Bundle} (h : Joined bs acc) (hb : ∃ x ∈ acc, x.pc = b.pc) :
    Joined (bs ++ [b]) (acc.map b.joinedBy) := by
  obtain ⟨hd, hc, hl, hs, he⟩ := h
  obtain ⟨y, hy, hyb⟩ := hb
  constructor
  case distinct => simpa [Function.comp_def] using hd
  case covers =>
    simp only [List.mem_append, List.mem_singleton, List.mem_map, exists_exists_and_eq_and, Bundle.joinedBy_pc]
    rintro c (hcb | rfl)
    · exact hc c hcb
    · exact ⟨y, hy, hyb⟩
  case lanes =>
    intro pc l
    simp only [List.mem_append, List.mem_singleton, List.mem_map, exists_exists_and_eq_and, Bundle.joinedBy_pc, Bundle.joinedBy_lanes,
      or_and_right, exists_or, exists_eq_left, ← hl pc l]
    constructor
    · rintro ⟨x, hx, rfl, hxl | ⟨hxb, hbl⟩⟩
      · exact .inl ⟨x, hx, rfl, hxl⟩
      · exact .inr ⟨hxb.symm, hbl⟩
    · rintro (⟨x, hx, hpc, hxl⟩ | ⟨rfl, hbl⟩)
      · exact ⟨x, hx, hpc, .inl hxl⟩
      · exact ⟨y, hy, hyb, .inr ⟨hyb, hbl⟩⟩
  case source =>
    simp only [List.mem_map, forall_exists_index, and_imp, forall_apply_eq_imp_iff₂, List.mem_append, List.mem_singleton,
      Bundle.joinedBy_pc]
    intro x hx
    obtain ⟨c, hcb, hpc, hage⟩ := hs x hx
    by_cases hxb : x.pc = b.pc ∧ b.age < x.age
    · exact ⟨b, .inr rfl, hxb.1.symm, by simp [Bundle.joinedBy, hxb.1, hxb.2.le]⟩
    · refine ⟨c, .inl hcb, hpc, ?_⟩
      unfold Bundle.joinedBy
      split
      · next hxpc => exact (min_eq_left (not_lt.mp fun hlt => hxb ⟨hxpc, hlt⟩)).symm ▸ hage
      · exact hage
  case earliest =>
    simp only [List.mem_map, forall_exists_index, and_imp, forall_apply_eq_imp_iff₂, List.mem_append, List.mem_singleton,
      Bundle.joinedBy_pc]
    intro x hx c hcb hpc
    unfold Bundle.joinedBy
    rcases hcb with hcb | rfl
    · have := he x hx c hcb hpc
      split
      · exact (min_le_left _ _).trans this
      · exact this
    · simp [hpc]

/-- A bundle of an address of its own. -/
theorem Joined.append {bs acc : List Bundle} {b : Bundle} (h : Joined bs acc) (hb : ∀ x ∈ acc, x.pc ≠ b.pc) :
    Joined (bs ++ [b]) (acc ++ [b]) := by
  obtain ⟨hd, hc, hl, hs, he⟩ := h
  have hbs : ∀ c ∈ bs, c.pc ≠ b.pc := fun c hcb hpc => by
    obtain ⟨x, hx, hxc⟩ := hc c hcb
    exact hb x hx (hxc.trans hpc)
  constructor
  case distinct =>
    rw [List.map_append, List.nodup_append]
    simpa [hd] using hb
  case covers =>
    intro c hcb
    rcases List.mem_append.mp hcb with hcb | hcb
    · obtain ⟨x, hx, hxc⟩ := hc c hcb
      exact ⟨x, List.mem_append_left _ hx, hxc⟩
    · exact ⟨c, List.mem_append_right _ hcb, rfl⟩
  case lanes =>
    intro pc l
    simp only [List.mem_append, List.mem_singleton, or_and_right, exists_or, hl pc l]
  case source =>
    intro x hx
    rcases List.mem_append.mp hx with hx | hx
    · obtain ⟨c, hcb, hcx⟩ := hs x hx
      exact ⟨c, List.mem_append_left _ hcb, hcx⟩
    · exact ⟨x, List.mem_append_right _ hx, rfl, rfl⟩
  case earliest =>
    simp only [List.mem_append, List.mem_singleton]
    rintro x (hx | rfl) c (hcb | rfl) hpc
    · exact he x hx c hcb hpc
    · exact absurd hpc.symm (hb x hx)
    · exact absurd hpc (hbs c hcb)
    · exact le_rfl

theorem joined_joinBundle {bs acc : List Bundle} (h : Joined bs acc) (b : Bundle) : Joined (bs ++ [b]) (joinBundle acc b) := by
  by_cases hb : ∃ x ∈ acc, x.pc = b.pc
  · exact joinBundle_of_mem hb ▸ h.join hb
  · have hb : ∀ x ∈ acc, x.pc ≠ b.pc := by simpa using hb
    exact joinBundle_of_not_mem hb ▸ h.append hb

theorem joined_foldl : ∀ (cs : List Bundle) {bs acc : List Bundle}, Joined bs acc → Joined (bs ++ cs) (cs.foldl joinBundle acc)
  | [], _, _, h => by simpa using h
  | c :: cs, bs, acc, h => by simpa using joined_foldl cs (joined_joinBundle h c)

/-- Bundles joined one after the other. -/
theorem joined_all (bs : List Bundle) : Joined bs (bs.foldl joinBundle []) :=
  joined_foldl bs (bs := []) (acc := []) ⟨List.nodup_nil, by simp, by simp, by simp, by simp⟩

/-! ## The bundles of a hand, regrouped (04 R68) -/

/-- The parts of some bundles that wait. -/
def waitParts (s : State) (h : HandKey) (bs : List Bundle) : List Bundle :=
  (bs.map fun b => { b with lanes := b.lanes &&& ~~~ readyLanes s h b }).filter fun b => b.lanes ≠ 0

/-- The parts of some bundles that are ready. -/
def readyParts (s : State) (h : HandKey) (bs : List Bundle) : List Bundle :=
  (bs.map fun b => { b with lanes := readyLanes s h b }).filter fun b => b.lanes ≠ 0

/-- Where no thread waits for its turn in a JTAB, the parts that wait stay, and the ready ones of an address join. -/
theorem mergeBundles_of_serve_nil {s : State} {h : HandKey} {hd : Hand} (hs : hd.serve = []) :
    mergeBundles s h hd = waitParts s h hd.bundles ++ (readyParts s h hd.bundles).foldl joinBundle [] := by
  have hno : servedLater s h hd = fun _ => false := by
    funext b
    simp [servedLater, liveServe, hs]
  simp only [mergeBundles, hno, Bool.not_false, List.filter_true, List.filter_false, List.nil_append]
  rfl

theorem exists_getLsbD_of_ne_zero {m : BitVec 64} (h : m ≠ 0) : ∃ l, m.getLsbD l = true := by
  by_contra hno
  refine h (BitVec.eq_of_getLsbD_eq fun l _ => ?_)
  rw [Bool.eq_false_iff.mpr fun hl => hno ⟨l, hl⟩]
  exact BitVec.getLsbD_zero.symm

theorem ne_zero_of_getLsbD {m : BitVec 64} {l : Nat} (h : m.getLsbD l = true) : m ≠ 0 := by
  rintro rfl
  exact absurd h (by simp)

section
variable {s : State} {h : HandKey} {bs : List Bundle}

theorem getLsbD_waitParts {pc : Dword} {l : Nat} : (∃ x ∈ waitParts s h bs, x.pc = pc ∧ x.lanes.getLsbD l = true) ↔
    ∃ c ∈ bs, c.pc = pc ∧ c.lanes.getLsbD l = true ∧ ¬ ReadyAt s h l := by
  have hbit (c : Bundle) : (c.lanes &&& ~~~ readyLanes s h c).getLsbD l = true ↔ c.lanes.getLsbD l = true ∧ ¬ ReadyAt s h l := by
    have h64 : c.lanes.getLsbD l = true → l < 64 := BitVec.lt_of_getLsbD
    simp only [BitVec.getLsbD_and, BitVec.getLsbD_not, Bool.and_eq_true, decide_eq_true_eq, Bool.not_eq_true', Bool.eq_false_iff, Ne,
      getLsbD_readyLanes]
    tauto
  simp only [waitParts, List.mem_filter, List.mem_map, decide_eq_true_eq]
  constructor
  · rintro ⟨_, ⟨⟨c, hc, rfl⟩, -⟩, hpc, hl⟩
    exact ⟨c, hc, hpc, (hbit c).mp hl⟩
  · rintro ⟨c, hc, hpc, hl⟩
    exact ⟨_, ⟨⟨c, hc, rfl⟩, ne_zero_of_getLsbD ((hbit c).mpr hl)⟩, hpc, (hbit c).mpr hl⟩

theorem mem_readyParts {x : Bundle} :
    x ∈ readyParts s h bs ↔ ∃ c ∈ bs, readyLanes s h c ≠ 0 ∧ { c with lanes := readyLanes s h c } = x := by
  simp only [readyParts, List.mem_filter, List.mem_map, decide_eq_true_eq]
  constructor
  · rintro ⟨⟨c, hc, rfl⟩, hl⟩
    exact ⟨c, hc, hl, rfl⟩
  · rintro ⟨c, hc, hl, rfl⟩
    exact ⟨⟨c, hc, rfl⟩, hl⟩

theorem getLsbD_readyParts {pc : Dword} {l : Nat} : (∃ x ∈ readyParts s h bs, x.pc = pc ∧ x.lanes.getLsbD l = true) ↔
    ∃ c ∈ bs, c.pc = pc ∧ c.lanes.getLsbD l = true ∧ ReadyAt s h l := by
  constructor
  · rintro ⟨x, hx, hpc, hl⟩
    obtain ⟨c, hc, -, rfl⟩ := mem_readyParts.mp hx
    exact ⟨c, hc, hpc, getLsbD_readyLanes.mp hl⟩
  · rintro ⟨c, hc, hpc, hl⟩
    have hl := getLsbD_readyLanes.mpr hl
    exact ⟨_, mem_readyParts.mpr ⟨c, hc, ne_zero_of_getLsbD hl, rfl⟩, hpc, hl⟩

/-- A bundle of the parts that wait has no ready thread. -/
theorem readyLanes_of_mem_waitParts {b : Bundle} (hb : b ∈ waitParts s h bs) : readyLanes s h b = 0 := by
  refine readyLanes_of_none fun l hl => ?_
  obtain ⟨c, -, -, -, hno⟩ := getLsbD_waitParts.mp ⟨b, hb, rfl, hl⟩
  exact hno

/-- The ready parts, joined. -/
def joinedParts (s : State) (h : HandKey) (bs : List Bundle) : List Bundle := (readyParts s h bs).foldl joinBundle []

theorem joined_joinedParts : Joined (readyParts s h bs) (joinedParts s h bs) := joined_all _

/-- Of a bundle of the joined parts all threads are ready. -/
theorem readyLanes_of_mem_joinedParts {b : Bundle} (hb : b ∈ joinedParts s h bs) : readyLanes s h b = b.lanes := by
  refine readyLanes_of_all fun l hl => ?_
  obtain ⟨c, -, -, -, hr⟩ := getLsbD_readyParts.mp ((joined_joinedParts.lanes b.pc l).mp ⟨b, hb, rfl, hl⟩)
  exact hr

/-- The regrouped bundles hold the threads of the bundles before, each at its address. -/
theorem getLsbD_regrouped (pc : Dword) (l : Nat) :
    (∃ b ∈ waitParts s h bs ++ joinedParts s h bs, b.pc = pc ∧ b.lanes.getLsbD l = true) ↔
      ∃ b ∈ bs, b.pc = pc ∧ b.lanes.getLsbD l = true := by
  simp only [List.mem_append, or_and_right, exists_or, joined_joinedParts.lanes, getLsbD_waitParts, getLsbD_readyParts]
  constructor
  · rintro (⟨c, hc, hpc, hl, -⟩ | ⟨c, hc, hpc, hl, -⟩) <;> exact ⟨c, hc, hpc, hl⟩
  · rintro ⟨c, hc, hpc, hl⟩
    by_cases hr : ReadyAt s h l
    · exact .inr ⟨c, hc, hpc, hl, hr⟩
    · exact .inl ⟨c, hc, hpc, hl, hr⟩

/-- A regrouped bundle that has a ready thread is one of the joined parts. -/
theorem mem_joinedParts_of_ready {b : Bundle} (hb : b ∈ waitParts s h bs ++ joinedParts s h bs) (hr : readyLanes s h b ≠ 0) :
    b ∈ joinedParts s h bs :=
  (List.mem_append.mp hb).resolve_left fun hw => hr (readyLanes_of_mem_waitParts hw)

/-- The age of joined parts is the earliest of the bundles at their address that have a ready thread. -/
theorem age_of_mem_joinedParts {b : Bundle} (hb : b ∈ joinedParts s h bs) :
    (∃ c ∈ bs, c.pc = b.pc ∧ readyLanes s h c ≠ 0 ∧ c.age = b.age) ∧
      ∀ c ∈ bs, c.pc = b.pc → readyLanes s h c ≠ 0 → b.age ≤ c.age := by
  constructor
  · obtain ⟨x, hx, hpc, hage⟩ := joined_joinedParts.source b hb
    obtain ⟨c, hc, hr, rfl⟩ := mem_readyParts.mp hx
    exact ⟨c, hc, hpc, hr, hage⟩
  · exact fun c hc hpc hr => joined_joinedParts.earliest b hb { c with lanes := readyLanes s h c }
      (mem_readyParts.mpr ⟨c, hc, hr, rfl⟩) hpc

end

theorem amod_congr {K V : Type} [DecidableEq K] {k : K} {v : V} {f g : V → V} (hfg : f v = g v) :
    ∀ {m : List (K × V)}, aget k m = some v → amod k f m = amod k g m
  | [], _ => rfl
  | (k', v') :: m, hv => by
    by_cases hk : k' = k
    · have : v' = v := by simpa [aget, hk] using hv
      simp [amod, hk, this, hfg]
    · simp [amod, hk, amod_congr hfg (m := m) (by simpa [aget, hk] using hv)]

/-- REGROUP_BUNDLES of a quadrant with one hand, in which no thread waits for its turn in a JTAB. -/
theorem execRegroupBundles_of_one {s : State} {q : QuadId} {h : HandKey} {hd : Hand} (hq : quadHands s q = [h])
    (hh : aget h s.hands = some hd) (hs : hd.serve = []) : execRegroupBundles q s =
      .next (s.modHand h fun hd' => { hd' with bundles := waitParts s h hd.bundles ++ joinedParts s h hd.bundles }) := by
  have hm : mergeBundles s h hd = waitParts s h hd.bundles ++ joinedParts s h hd.bundles := mergeBundles_of_serve_nil hs
  have hamod := amod_congr (f := fun hd' => { hd' with bundles := mergeBundles s h hd' })
    (g := fun hd' => { hd' with bundles := waitParts s h hd.bundles ++ joinedParts s h hd.bundles }) (by simp only [hm]) hh
  simp only [execRegroupBundles, hq, List.foldl_cons, List.foldl_nil, State.modHand]
  rw [hamod]

/-! ## The choice of a quadrant (04 R70) -/

/-- A quadrant without a current hand and without a thread that waits for its turn selects the offer that goes first. -/
theorem execIssueSelect_of_free {s : State} {q : QuadId} (hw : waitingBundles s q = []) (ht : throttledNow s q = false)
    (hc : currentHand s q = none) : execIssueSelect q s =
      .next ((((offers s q none).mergeSort (goesFirst s (s.issueOf q))).head?.map fun x => selectBundle s x.1 x.2).getD s) := by
  simp only [execIssueSelect, hw, ht, hc, ne_eq, not_true_eq_false, decide_false, Bool.and_false, Bool.false_eq_true, if_false]
  cases ((offers s q none).mergeSort (goesFirst s (s.issueOf q))).head? <;> rfl

/-- Of two offers the one that goes first leads. -/
theorem head?_mergeSort_pair {α : Type} (le : α → α → Bool) (x y : α) :
    ([x, y].mergeSort le).head? = some (if le x y then x else y) := by
  by_cases h : le x y = true <;> simp [List.mergeSort, h]

/-- An offer that has waited 64 clocks goes before one that has not. -/
theorem goesFirst_of_waited {s : State} {u : QuadIssue} {x y : HandKey × Bundle} (hx : 64 ≤ s.cycle - x.2.age)
    (hy : s.cycle - y.2.age < 64) : goesFirst s u x y = true ∧ goesFirst s u y x = false := by
  have hne : s.cycle - x.2.age ≠ 0 := by omega
  have hny : ¬ 64 ≤ s.cycle - y.2.age := by omega
  simp [goesFirst, hx, hny, hne, hne.symm, Nat.pos_of_ne_zero hne]

/-- RENDEZVOUS_FORM of a complete rendezvous brings its members into focus (04 R73). -/
theorem execRendezvousForm_of_formed {s : State} {k : ThreadKey} {hd : Hand} {set : List Nat}
    (hset : formedSet s (handOf k) k.lane = some set) (hhand : aget (handOf k) s.hands = some hd)
    (hteam : teamIssues s k.team = true) (hdet : detSched s (handOf k) = false) :
    execRendezvousForm k s = .next { s with focus := .bundle (handOf k) (maskOf set) } := by
  simp [execRendezvousForm, hset, hhand, hteam, hdet]

/-- Settles O45: a ready thread enters its line where the DRAM holds it; the ready threads of one address become one
bundle, with the earliest age; the offer that goes first is selected; a complete rendezvous comes into focus. -/
theorem issue : Obligations.Issue := by
  unfold Obligations.Issue
  refine ⟨?fetch, ?regroup, ?select, ?waited, ?rendezvous⟩
  case fetch =>
    intro s h l u tm L d w hu hl htm hrun hgo hline hx hp hg hL hpar hfmt
    have hfn : funcOf s (threadOf h l) = tm.func := by
      simp only [funcOf, show aget (threadOf h l).team s.teams = some tm from htm]
    have henter := enterLine_of_dram (s := wakeLanes s h []) (k := threadOf h l) hu (hfn ▸ hx) hp hg hL hpar hfmt
    set t := enterLine (wakeLanes s h []) (threadOf h l)
    have hthreads : t.threads = amod (threadOf h l) (fun v => { v with line := some (lineAddr v.pc, L) }) s.threads := by
      rw [henter, State.modThread]
      exact congrArg _ (countXl_threads ..)
    have hlane : t.lane h l = some { u with line := some (lineAddr u.pc, L) } := by
      rw [State.lane, hthreads, aget_amod_self, show aget (threadOf h l) s.threads = some u from hu]
      rfl
    refine ⟨t, execFetchLine_of_ready hl hu hrun hgo hline hlane hrun, hlane, ?_, fun k hk => ?_⟩
    · rw [henter]
      exact countXl_mem ..
    · rw [hthreads, aget_amod_ne _ hk]
  case regroup =>
    intro s q h hd hq hh hs
    refine ⟨waitParts s h hd.bundles ++ joinedParts s h hd.bundles, execRegroupBundles_of_one hq hh hs, getLsbD_regrouped, ?_, ?_, ?_⟩
    · intro b hb
      rcases List.mem_append.mp hb with hw | hj
      · exact .inr (readyLanes_of_mem_waitParts hw)
      · exact .inl (readyLanes_of_mem_joinedParts hj)
    · intro b hb c hc hrb hrc hpc
      exact List.inj_on_of_nodup_map joined_joinedParts.distinct (mem_joinedParts_of_ready hb hrb) (mem_joinedParts_of_ready hc hrc) hpc
    · exact fun b hb hr => age_of_mem_joinedParts (mem_joinedParts_of_ready hb hr)
  case select =>
    intro s q x y hw ht hc
    have hexec := execIssueSelect_of_free hw ht hc
    refine ⟨fun ho => ?_, fun ho => ?_, fun ho => ?_⟩
    · exact hexec.trans (by rw [ho, List.mergeSort_singleton]; rfl)
    · exact hexec.trans (by rw [ho, head?_mergeSort_pair]; rfl)
    · exact hexec.trans (by rw [ho, List.mergeSort_nil]; rfl)
  case waited => exact fun s u x y => goesFirst_of_waited
  case rendezvous => exact fun s k hd set hset hhand hteam hdet => execRendezvousForm_of_formed hset hhand hteam hdet

end Sys2Proof.Machine

/-! SUPPORT. Control instructions (04 R76 to R78): changes of a bundle's threads lane by lane, and transfers that arrive. -/

namespace Sys2Proof.Machine

/-! ## Changes of one thread -/

theorem amod_of_none {K V : Type} [DecidableEq K] {k : K} (f : V → V) : ∀ {m : List (K × V)}, aget k m = none → amod k f m = m
  | [], _ => rfl
  | (k', v) :: m, h => by
    by_cases hk : k' = k
    · simp [aget, hk] at h
    · simp only [aget, hk, if_false] at h
      simp only [amod, hk, if_false, amod_of_none f h]

/-- Two changes of a thread that agree on it are one change. -/
theorem modThread_congr {s : State} {k : ThreadKey} {f g : Thread → Thread} (h : ∀ u, aget k s.threads = some u → f u = g u) :
    s.modThread k f = s.modThread k g := by
  unfold State.modThread
  cases hu : aget k s.threads with
  | none => rw [amod_of_none f hu, amod_of_none g hu]
  | some u => rw [amod_congr (h u hu) hu]

@[simp] theorem modThread_id (s : State) (k : ThreadKey) : (s.modThread k fun u => u) = s := by
  have key : ∀ m : List (ThreadKey × Thread), amod k (fun u => u) m = m := by
    intro m
    induction m with
    | nil => rfl
    | cons e m ih =>
      obtain ⟨k', v⟩ := e
      by_cases he : k' = k <;> simp [amod, he, ih]
  unfold State.modThread
  rw [key]

/-- A bundle's lanes treated one after the other, each by a step that changes its own thread alone. -/
theorem foldl_eq_modThread {s : State} {h : HandKey} {step : State → Nat → State} {G : Nat → Thread → Thread} :
    ∀ {ls : List Nat}, ls.Nodup →
    (∀ l ∈ ls, ∀ s', s' = { s with threads := s'.threads } → s'.lane h l = s.lane h l →
      step s' l = s'.modThread (threadOf h l) (G l)) →
    ∀ {s0 : State}, s0 = { s with threads := s0.threads } → (∀ l ∈ ls, s0.lane h l = s.lane h l) →
    ls.foldl step s0 = ls.foldl (fun s l => s.modThread (threadOf h l) (G l)) s0
  | [], _, _, _, _, _ => rfl
  | l :: ls, hn, hstep, s0, hs, hl => by
    rw [List.nodup_cons] at hn
    rw [List.foldl_cons, List.foldl_cons, hstep l List.mem_cons_self s0 hs (hl l List.mem_cons_self)]
    refine foldl_eq_modThread hn.2 (fun m hm => hstep m (List.mem_cons_of_mem _ hm)) (by rw [hs]; rfl) fun m hm => ?_
    have hml : m ≠ l := fun e => hn.1 (by rw [← e]; exact hm)
    rw [lane_modThread_ne _ hml, hl m (List.mem_cons_of_mem _ hm)]

/-! ## The bundle in focus -/

theorem funcOf_of_team {s : State} {k : ThreadKey} {tm : Team} (h : aget k.team s.teams = some tm) : funcOf s k = tm.func := by
  simp [funcOf, h]

theorem inTeam_of_team {s : State} {k : ThreadKey} {tm : Team} (h : aget k.team s.teams = some tm) (f : Team → LaneOut) :
    inTeam s k f = f tm := by
  simp [inTeam, h]

theorem pcOf_of_lane {s : State} {h : HandKey} {l : Nat} {u : Thread} (hu : s.lane h l = some u) :
    pcOf s (threadOf h l) = u.pc := by
  simp only [pcOf, show aget (threadOf h l) s.threads = some u from hu]

theorem pcOf_congr {s t : State} {h : HandKey} {l : Nat} (e : s.lane h l = t.lane h l) :
    pcOf s (threadOf h l) = pcOf t (threadOf h l) := by
  simp only [pcOf, show aget (threadOf h l) s.threads = aget (threadOf h l) t.threads from e]

theorem teams_of_threads {s s' : State} (h : s' = { s with threads := s'.threads }) : s'.teams = s.teams := by rw [h]

theorem focus_of_inFocus {s : State} {h : HandKey} {tm : Team} {ls : List Nat} (e : inFocus s = some (h, tm, ls)) :
    ∃ m, s.focus = .bundle h m := by
  unfold inFocus at e
  split at e
  · rename_i h' m hf
    split at e
    · cases e; exact ⟨m, hf⟩
    · cases e
  · cases e

/-- The one thread of a bundle performs, where no source has a modifier. -/
theorem OneLane.performing {s : State} {sh : Shape} {h : HandKey} {tm : Team} {l : Nat} {v : Vals}
    (hc : OneLane s sh h tm l v) (hm : sh.modified = false) : performing s h sh.g [l] = [l] := by
  have := hc.performs
  rwa [performers, activeLanes_of_not_modified hm] at this

/-- An instruction of a bundle of one thread that faults: the thread stops. -/
theorem runLanes_one_fault {s : State} {sh : Shape} {h : HandKey} {tm : Team} {l : Nat} {v : Vals} {f : FaultInfo}
    {body : ThreadKey → Vals → State → LaneOut} (hc : OneLane s sh h tm l v) (hm : sh.modified = false)
    (hb : body (threadOf h l) v s = .fault f) :
    runLanes s sh body = endIssue (takeFault s (threadOf h l) f) h [l] := by
  simp [runLanes, hc.focus, hm, hc.performing hm, runLane, hc.ready, hb, applyOut]

/-! ## Transfers that arrive (03 R31, R36) -/

/-- What a thread can enter does not depend on threads. -/
theorem Enters.withThreads {s s' : State} {fn : Nat} {target : Dword} {L : Line} (h : Enters s fn target L)
    (hs : s' = { s with threads := s'.threads }) : Enters s' fn target L := by
  rw [hs]
  exact ⟨h.canonical, h.place, h.own, h.steady, h.parity, h.format, h.aligned, h.legal⟩

section
variable {s : State} {k : ThreadKey} {tm : Team} {target : Dword} {L : Line}

theorem transfer_of_team (ht : aget k.team s.teams = some tm) (h : Enters s tm.func target L) :
    transfer s k target = .arrived (s.modThread k (·.at target L)) :=
  transfer_of_enters ((funcOf_of_team ht).symm ▸ h)

theorem jumpTo_of_enters (ht : aget k.team s.teams = some tm) (h : Enters s tm.func target L) (eff : Thread → Thread) :
    jumpTo s k target eff = .left ((s.modThread k (·.at target L)).modThread k eff) := by
  simp only [jumpTo, transfer_of_team ht h]

theorem branchThread_of_enters (ht : aget k.team s.teams = some tm) (h : Enters s tm.func target L) :
    branchThread s k target = s.modThread k (·.at target L) := by
  simp only [branchThread, transfer_of_team ht h]

end

/-- An instruction whose part in a lane is a transfer takes each performing thread to its target. -/
theorem runLanes_jumpTo {s : State} {sh : Shape} {h : HandKey} {tm : Team} {ls : List Nat} {L : Nat → Line}
    {target : ThreadKey → Vals → State → Dword} {goal : Vals → Thread → Dword} (hm : sh.modified = false)
    (hc : CanPerform s sh h tm ls)
    (ht : ∀ l ∈ performers s sh h tm.w ls, ∀ v, readOpnds s h tm.w sh l = .ok v → Enters s tm.func (target (threadOf h l) v s) (L l))
    (hg : ∀ s' l v, s'.lane h l = s.lane h l → target (threadOf h l) v s' = target (threadOf h l) v s ∧
      ∀ u, s.lane h l = some u → target (threadOf h l) v s = goal v u) :
    LanesBecome s (runLanes s sh fun k v s => jumpTo s k (target k v s) id) sh h tm ls fun l v u => u.at (goal v u) (L l) := by
  refine runLanes_left hm hc fun l hl => ?_
  obtain ⟨v, hv⟩ := hc.ready l hl
  refine ⟨v, hv, fun s' hs hlane => ?_⟩
  obtain ⟨hsame, hgoal⟩ := hg s' l v hlane
  have hteam : aget (threadOf h l).team s'.teams = some tm := teams_of_threads hs ▸ inFocus_team hc.focus
  rw [hsame, jumpTo_of_enters hteam ((ht l hl v hv).withThreads hs), modThread_modThread]
  exact congrArg _ (modThread_congr fun u hu => by rw [hgoal u (hlane.symm.trans hu)]; rfl)

/-! ## BRP (04 R78) -/

/-- What a formed BRP makes of a thread. -/
def branchOr (taken : Bool) (target : Dword) (L : Line) (u : Thread) : Thread := if taken then u.at target L else u.past

theorem branchOr_cases (s : State) (k : ThreadKey) (b : Bool) (target : Dword) (L : Line) :
    (if b = true then s.modThread k (·.at target L) else s.modThread k Thread.past) = s.modThread k (branchOr b target L) := by
  cases b <;> rfl

/-- A formed BRP takes its performing threads to their target where the votes say so, and lets the others go on. -/
theorem runBrp_of_formed {s : State} {g : Guard} {a tslot : BitVec 3} {disp : Word} {h : HandKey} {tm : Team} {ls : List Nat}
    {pc : Dword} {L : Line} (hf : inFocus s = some (h, tm, ls)) (ha : allArrived s h ls = true)
    (hpc : ∀ l ∈ ls, pcOf s (threadOf h l) = pc) (he : Enters s tm.func (relTarget pc tslot disp) L) (take : Nat → Nat → Bool) :
    runBrp s g a tslot disp take = endIssue (ls.foldl (fun s' l => s'.modThread (threadOf h l)
      (branchOr ((performing s h g ls).contains l &&
        take ((performing s h g ls).filter (lanePred s h a)).length (performing s h g ls).length)
        (relTarget pc tslot disp) L)) s) h ls := by
  have hvotes : (performing s h g ls).countP (lanePred s h a) = ((performing s h g ls).filter (lanePred s h a)).length :=
    List.countP_eq_length_filter
  simp only [runBrp, hf, ha, Bool.not_true, Bool.false_eq_true, if_false]
  rw [← hvotes]
  refine congrArg (endIssue · h ls) (foldl_eq_modThread (inFocus_nodup hf) (fun l hl s' hs hlane => ?_) rfl fun _ _ => rfl)
  have hteam : aget (threadOf h l).team s'.teams = some tm := teams_of_threads hs ▸ inFocus_team hf
  rw [pcOf_congr hlane, hpc l hl, branchThread_of_enters hteam (he.withThreads hs), goOn_eq]
  exact branchOr_cases ..

/-- What the threads of a bundle have become once a BRP has taken the performing ones (b), or none. -/
theorem lanes_branchOr {s : State} {g : Guard} {h : HandKey} {ls : List Nat} {target : Dword} {L : Line} (hn : ls.Nodup) (b : Bool) :
    let t := endIssue (ls.foldl (fun s' l => s'.modThread (threadOf h l)
      (branchOr ((performing s h g ls).contains l && b) target L)) s) h ls
    OnlyLanes s t h ls ∧ ∀ l ∈ ls, ∀ u, s.lane h l = some u →
      (l ∈ performing s h g ls ∧ b = true → t.lane h l = some (u.at target L)) ∧
      (¬ (l ∈ performing s h g ls ∧ b = true) → t.lane h l = some u.past) := by
  refine ⟨onlyLanes_endIssue s h _ ls, fun l hl u hu => ?_⟩
  rw [endIssue_lane, lane_foldl_mem h _ ls s hn hl, hu, ← List.contains_iff_mem, ← Bool.and_eq_true]
  cases (performing s h g ls).contains l && b <;> simp [branchOr]

/-- Settles O12: NOP by `runLanes_done`, BRA and JMP by `runLanes_jumpTo`, the voted branches by `runBrp_of_formed`. -/
theorem branches : Obligations.Branches := by
  unfold Obligations.Branches
  refine ⟨fun g => ⟨?nop, ?word, ?bra, ?jmp⟩, ?brp⟩
  case nop => exact fun s h tm ls hc => ⟨_, rfl, runLanes_done (fun _ u => u) hc⟩
  case word => decide
  case bra =>
    intro tslot disp s h tm ls L hc he
    exact ⟨_, rfl, runLanes_jumpTo (target := fun k _ s => relTarget (pcOf s k) tslot disp)
      (goal := fun _ u => relTarget u.pc tslot disp) rfl hc (fun l hl _ _ => he l hl) fun s' l _ hlane =>
      ⟨by rw [pcOf_congr hlane], fun u hu => by rw [pcOf_of_lane hu]⟩⟩
  case jmp =>
    intro a s h tm ls L hc he
    refine ⟨_, rfl, runLanes_jumpTo (target := fun _ v _ => v.a) (goal := fun v _ => v.a) rfl hc (fun l hl v hv => ?_)
      fun _ _ _ _ => ⟨rfl, fun _ _ => rfl⟩⟩
    rw [value_of_readOpnds hv]
    exact he l hl
  case brp =>
    intro g a tslot disp s h tm ls pc L hf ha hpc he act yes result
    have hn := inFocus_nodup hf
    have formed := runBrp_of_formed (g := g) (a := a) hf ha hpc he
    have voted : ∀ (take : Nat → Nat → Bool), result (take yes act.length = true) (runBrp s g a tslot disp take) := fun take =>
      formed take ▸ lanes_branchOr hn _
    exact ⟨⟨_, rfl, by simpa using voted fun c _ => 0 < c⟩, ⟨_, rfl, by simpa using voted fun c n => c = n⟩,
      ⟨_, rfl, by simpa using voted fun c _ => c = 0⟩⟩

end Sys2Proof.Machine

/-! SUPPORT. Calls, tables and joins (04 R77, R79, R80; 07 R148): what each does for a bundle of one thread, and a JOIN that has
formed. -/

namespace Sys2Proof.Machine

/-! ## Calls and returns (04 R77; 07 R148) -/

section
variable {s : State} {k : ThreadKey} {tm : Team} {u : Thread} {target : Dword} {L : Line}

/-- A call whose frame has its line and whose target can be entered. -/
theorem callTo_of_enters (ht : aget k.team s.teams = some tm) (hu : aget k s.threads = some u)
    (he : Enters s tm.func target L) (hroom : 8 * (u.depth + 1) ≤ stackSize tm)
    (hput : (stackPut s k (frameAt tm u.depth) 8 (nextSeq u.pc).toNat).2 = true) :
    callTo s k tm target = .left ((stackPut (s.modThread k (·.at target L)) k (frameAt tm u.depth) 8 (nextSeq u.pc).toNat).1.modThread
      k fun t => { t with depth := t.depth + 1 }) := by
  obtain ⟨s1, hs1⟩ : ∃ s1, stackPut s k (frameAt tm u.depth) 8 (nextSeq u.pc).toNat = (s1, true) := ⟨_, Prod.ext rfl hput⟩
  simp only [callTo, hu, Nat.not_lt.mpr hroom, if_false, hs1, transfer_of_team ht he]

/-- A read of a thread's area leaves the teams alone. -/
theorem stackGet_teams (s : State) (k : ThreadKey) (a n : Nat) : (stackGet s k a n).1.teams = s.teams := by
  unfold stackGet
  split
  · rfl
  · split <;> rfl

/-- A return whose frame has its line and whose target can be entered. -/
theorem returnFrom_of_enters {s1 : State} {r : Nat} (ht : aget k.team s.teams = some tm) (hu : aget k s.threads = some u)
    (hd : 0 < u.depth) (hget : stackGet s k (frameAt tm (u.depth - 1)) 8 = (s1, some r))
    (he : Enters s1 tm.func (BitVec.ofNat 64 r) L) :
    returnFrom s k tm = .left ((s1.modThread k (·.at (BitVec.ofNat 64 r) L)).modThread k fun t => { t with depth := t.depth - 1 }) := by
  have hteams : s1.teams = s.teams := by
    have := stackGet_teams s k (frameAt tm (u.depth - 1)) 8
    rwa [hget] at this
  simp only [returnFrom, hu, Nat.ne_of_gt hd, if_false, hget, jumpTo_of_enters (hteams ▸ ht) he]

end

/-- Settles O13: `callTo_of_enters` and `returnFrom_of_enters`, in a bundle of one thread. -/
theorem callsAndReturns : Obligations.CallsAndReturns := by
  intro g s h tm l u v L hu
  refine ⟨fun tslot disp hc he hroom hput => ?_, fun a hc he hroom hput => ?_, fun s1 r hc hd hget he => ?_⟩ <;>
    refine congrArg Host.Outcome.next (runLanes_one_left hc ?_) <;>
    rw [inTeam_of_team (inFocus_team hc.focus)]
  · rw [pcOf_of_lane hu]
    exact callTo_of_enters (inFocus_team hc.focus) hu he hroom hput
  · exact callTo_of_enters (inFocus_team hc.focus) hu he hroom hput
  · exact returnFrom_of_enters (inFocus_team hc.focus) hu hd hget he

/-! ## JTAB (04 R79) -/

section
variable {s : State} {h : HandKey} {tm : Team} {l : Nat} {v : Vals}

theorem tableEntry_of_lt {n x i : Nat} (hi : i < n % 2 ^ 32) : tableEntry n x i = some ((x + 16 + 8 * i) % 2 ^ 32) := by
  rw [tableEntry, if_pos hi]

theorem tableEntry_default {n x i : Nat} (hi : n % 2 ^ 32 ≤ i) (hb : n.testBit 32) :
    tableEntry n x i = some ((x + 8) % 2 ^ 32) := by
  rw [tableEntry, if_neg (Nat.not_lt.mpr hi), if_pos (by simpa [bit] using hb)]

/-- The target of a thread whose reads of the header and of the entry for its index, or of the default, are served. -/
theorem tableTarget_of_loads {k : ThreadKey} {x i n e : Nat} (hn : spLoad s k tm x 8 8 = .ok n)
    (hin : i < n % 2 ^ 32 → spLoad s k tm ((x + 16 + 8 * i) % 2 ^ 32) 8 8 = .ok e)
    (hdef : n % 2 ^ 32 ≤ i → n.testBit 32 ∧ spLoad s k tm ((x + 8) % 2 ^ 32) 8 8 = .ok e) :
    tableTarget s s k tm x i = .ok e := by
  rcases Nat.lt_or_ge i (n % 2 ^ 32) with hi | hi
  · simp only [tableTarget, hn, tableEntry_of_lt hi, hin hi]
  · obtain ⟨hb, hd⟩ := hdef hi
    simp only [tableTarget, hn, tableEntry_default hi hb, hd]

theorem lanesRead_of_one {sh : Shape} (hc : OneLane s sh h tm l v) (hm : sh.modified = false) : lanesRead s sh = [(l, v)] := by
  simp [lanesRead, hc.focus, hc.performing hm, hc.ready]

/-- The threads of a bundle of one form one group at most. -/
theorem jtabGroups_of_one (s : State) (h : HandKey) (l : Nat) (q : Nat → Bool) : (jtabGroups s h ([l].filter q)).length ≤ 1 := by
  cases hq : q l <;> cases hl : s.lane h l <;> simp [jtabGroups, hq, hl]

/-- JTAB of one thread whose table names a target that it can enter. -/
theorem execJtab_of_target {g : Guard} {a b : CSrc} {off : Word} {e : Nat} {L : Line}
    (hc : OneLane s ⟨g, csrcOp a false, csrcOp b false, noOp, []⟩ h tm l v) (hbank : bankSteps s h = [])
    (ht : tableTarget s s (threadOf h l) tm (memAddr v.a off) (v.b.toNat % 2 ^ 32) = .ok e)
    (he : Enters s tm.func (BitVec.ofNat 64 e) L) :
    execJtab g a b off s = .next (endIssue (s.modThread (threadOf h l) (·.at (BitVec.ofNat 64 e) L)) h [l]) := by
  have hts : readTimes s ⟨g, csrcOp a false, csrcOp b false, noOp, []⟩ (fun _ _ v => memAddr v.a off) = [] := by
    simp [readTimes, hc.focus, hbank]
  have hes : entryTimes s ⟨g, csrcOp a false, csrcOp b false, noOp, []⟩ off [] = [] := by
    simp [entryTimes, hc.focus, hbank]
  have hstuck : tableWaits s ⟨g, csrcOp a false, csrcOp b false, noOp, []⟩ off [] [] = false := by
    simp only [tableWaits, hc.focus, lanesRead_of_one hc rfl, viewOf, List.find?_nil, ht, List.any_cons, List.any_nil, Bool.or_false]
  have hteam := inFocus_team hc.focus
  simp only [execJtab, hts, hes, hstuck, Bool.false_eq_true, if_false, hc.focus, List.append_nil, banksWent]
  rw [runLanes_one_left hc (s' := s.modThread (threadOf h l) (·.at (BitVec.ofNat 64 e) L))]
  · rw [hc.performing rfl, if_pos (jtabGroups_of_one ..)]
  · rw [inTeam_of_team hteam]
    simp only [viewOf, List.find?_nil, ht, branchThread_of_enters (k := threadOf h l) hteam he]

end

/-! ## JOIN (04 R80) -/

/-- What a formed JOIN makes of a thread: the mask over which it has arrived becomes its %pmask. -/
def joined (u : Thread) : Thread := Thread.past { u with pmask := match u.run with
  | .rendezvous m => m
  | _ => u.pmask }

theorem joined_of_rendezvous {u : Thread} {m : BitVec 64} (h : u.run = .rendezvous m) :
    joined u = Thread.past { u with pmask := m } := by
  simp [joined, h]

section
variable {s : State} {sh : Shape} {mask : Vals → BitVec 64} {h : HandKey} {tm : Team} {ls : List Nat}

/-- A JOIN whose threads have all arrived. -/
theorem runJoin_of_arrived (hf : inFocus s = some (h, tm, ls)) (ha : allArrived s h ls = true) :
    runJoin s sh mask = endIssue (ls.foldl (fun s l => s.modThread (threadOf h l) joined) s) h ls := by
  simp only [runJoin, hf, ha, if_true, goOn_eq, modThread_modThread]
  rfl

/-- A JOIN of one thread, which arrives. -/
theorem runJoin_of_one {l : Nat} {v : Vals} (hc : OneLane s sh h tm l v) (hm : sh.modified = false)
    (ha : allArrived s h [l] = false) : runJoin s sh mask =
      endIssue (checkMismatch (arriveLane s h (mask v &&& BitVec.ofNat 64 (2 ^ tm.w - 1)) l) h) h [l] := by
  simp [runJoin, hc.focus, ha, hc.performing hm, hc.ready]

/-- The threads of a formed JOIN go on, each with the mask over which it has arrived. -/
theorem runJoin_lanes (hf : inFocus s = some (h, tm, ls)) (ha : allArrived s h ls = true) :
    OnlyLanes s (runJoin s sh mask) h ls ∧ ∀ l ∈ ls, ∀ u m, s.lane h l = some u → u.run = .rendezvous m →
      (runJoin s sh mask).lane h l = some (Thread.past { u with pmask := m }) := by
  rw [runJoin_of_arrived hf ha]
  refine ⟨onlyLanes_endIssue s h (fun _ => joined) ls, fun l hl u m hu hr => ?_⟩
  rw [endIssue_lane, lane_foldl_mem h (fun _ => joined) ls s (inFocus_nodup hf) hl, hu, Option.map_some, joined_of_rendezvous hr]

end

/-- Settles O14: JTAB by `execJtab_of_target`, a formed JOIN by `runJoin_lanes`, an arrival by `runJoin_of_one`. -/
theorem tablesAndJoins : Obligations.TablesAndJoins := by
  unfold Obligations.TablesAndJoins
  refine ⟨?jtab, ?formed, ?imm, ?reg⟩
  case jtab =>
    intro g a b off s h tm l v n e L hc hbank hn hin hdef he
    exact execJtab_of_target hc hbank (tableTarget_of_loads hn hin hdef) he
  case formed =>
    intro i sh g hi s h tm ls hf ha
    rcases hi with ⟨imm, rfl, rfl⟩ | ⟨w, a, rfl, rfl⟩
    · exact ⟨_, rfl, runJoin_lanes hf ha⟩
    · exact ⟨_, rfl, runJoin_lanes hf ha⟩
  case imm => exact fun g imm s h tm l v hc ha => congrArg Host.Outcome.next (runJoin_of_one hc rfl ha)
  case reg => exact fun g w a s h tm l v hc ha => congrArg Host.Outcome.next (runJoin_of_one hc rfl ha)

end Sys2Proof.Machine

/-! SUPPORT. Barriers and ends of threads (04 R81, R82; 07 R161, R162): arrivals, and the threads that leave when a barrier opens. -/

namespace Sys2Proof.Machine

/-! ## Arrivals and exits (04 R81, R82; 07 R161) -/

/-- An arrival of the one thread of a bundle at TBAR, LBAR or YIELD: it waits, and its record counts it as count says. -/
theorem arriveAt_of_one {s : State} {g : Guard} {h : HandKey} {tm : Team} {l : Nat} {v : Vals} (hc : OneLane s (bare g) h tm l v)
    (r : Run) (count : ThreadKey → State → State) : arriveAt s g r count =
      openChecks (dropCurrent (checkMismatch (endIssue ((count (threadOf h l) s).modThread (threadOf h l)
        fun t => { t with run := r }) h [l]) h)) h.team := by
  obtain ⟨m, hm⟩ := focus_of_inFocus hc.focus
  have hrun := runLanes_one_left hc (body := fun k _ s => .left ((count k s).modThread k fun t => { t with run := r })) rfl
  rw [bare] at hrun
  simp only [arriveAt, openFocus, focusTeam, mismatchFocus, hm, hrun]

/-- The end of a thread that waits at no barrier, in a team of no chain group. -/
theorem exitThread_of_ready {s : State} {k : ThreadKey} {u : Thread} {tm : Team} (hu : aget k s.threads = some u)
    (ht : aget k.team s.teams = some tm) (hr : u.run = .ready) (hch : tm.chain = false) :
    exitThread s k = ((s.modThread k fun t => { t with run := .exited, need := none, go := none, fenceAt := none, bwait := none, ask := none }).modTeam
      k.team fun tm => { tm with live := tm.live - 1 }).modHand (handOf k) fun hd =>
        { hd with bundles := dropLanes hd.bundles (BitVec.twoPow 64 k.lane) } := by
  simp [exitThread, withdraw, hu, ht, hr, hch]

theorem execExit_of_one {s : State} {g : Guard} {h : HandKey} {tm : Team} {l : Nat} {v : Vals} (hc : OneLane s (bare g) h tm l v) :
    execExit g s = .next (openChecks (endIssue (exitThread s (threadOf h l)) h [l]) h.team) := by
  obtain ⟨m, hm⟩ := focus_of_inFocus hc.focus
  have hrun := runLanes_one_left hc (body := fun k _ s => .left (exitThread s k)) rfl
  rw [bare] at hrun
  simp only [execExit, openFocus, focusTeam, hm, hrun]

/-! ## Threads that leave a barrier (07 R162) -/

/-- The lanes of a hand whose threads wait as p says. -/
def waitersOf (s : State) (h : HandKey) (p : Run → Bool) : List Nat :=
  (List.range 64).filter fun l => match s.lane h l with
    | some t => p t.run
    | none => false

/-- The waiting threads of a hand leave. -/
def leaveHand (p : Run → Bool) (s : State) (h : HandKey) : State :=
  if waitersOf s h p = [] then s
  else wakeLanes ((waitersOf s h p).foldl (fun s l => s.modThread (threadOf h l) Thread.advance) s) h (waitersOf s h p)

theorem leaveWaiters_eq (s : State) (id : TeamId) (p : Run → Bool) :
    leaveWaiters s id p = (teamHands s id).foldl (leaveHand p) s := rfl

theorem wakeLanes_rest (s : State) (h : HandKey) (ls : List Nat) :
    wakeLanes s h ls = { s with threads := (wakeLanes s h ls).threads, hands := (wakeLanes s h ls).hands } := by
  simp only [wakeLanes]
  rw [foldl_modThread_rest h (fun _ t => { t with run := .ready }) ls s]
  rfl

theorem leaveHand_rest (p : Run → Bool) (s : State) (h : HandKey) :
    leaveHand p s h = { s with threads := (leaveHand p s h).threads, hands := (leaveHand p s h).hands } := by
  unfold leaveHand
  split
  · rfl
  · rw [wakeLanes_rest, foldl_modThread_rest h (fun _ => Thread.advance)]

theorem foldl_leaveHand_rest (p : Run → Bool) : ∀ (hs : List HandKey) (s : State), hs.foldl (leaveHand p) s =
    { s with threads := (hs.foldl (leaveHand p) s).threads, hands := (hs.foldl (leaveHand p) s).hands }
  | [], _ => rfl
  | h :: hs, s => by
    rw [List.foldl_cons, foldl_leaveHand_rest p hs, leaveHand_rest]

/-- A thread that leaves, if it waits as p says, and goes on at its next sequential address. -/
def leaveIf (p : Run → Bool) (t : Thread) : Thread := if p t.run then t.past else t

theorem mem_waitersOf {s : State} {h : HandKey} {p : Run → Bool} {l : Nat} :
    l ∈ waitersOf s h p ↔ l < 64 ∧ ∃ t, s.lane h l = some t ∧ p t.run = true := by
  cases hl : s.lane h l <;> simp [waitersOf, hl]

section
variable {p : Run → Bool} {s : State} {h : HandKey} {k : ThreadKey}

/-- A thread that does not wait in a hand stays as it is when the hand's waiting threads leave. -/
theorem leaveHand_notMem (hk : ∀ l ∈ waitersOf s h p, k ≠ threadOf h l) :
    aget k (leaveHand p s h).threads = aget k s.threads := by
  unfold leaveHand
  split
  · rfl
  · exact (lane_foldl_notMem h (fun _ t => { t with run := .ready }) k _ _ hk).trans
      (lane_foldl_notMem h (fun _ => Thread.advance) k _ s hk)

theorem leaveHand_mem {l : Nat} (hl : l ∈ waitersOf s h p) : (leaveHand p s h).lane h l = (s.lane h l).map Thread.past := by
  have hn : (waitersOf s h p).Nodup := List.Nodup.filter _ List.nodup_range
  rw [leaveHand, if_neg (List.ne_nil_of_mem hl)]
  refine (lane_foldl_mem h (fun _ t => { t with run := .ready }) _ _ hn hl).trans ?_
  rw [lane_foldl_mem h (fun _ => Thread.advance) _ s hn hl, Option.map_map]
  rfl

theorem leaveHand_other (hk : handOf k ≠ h) : aget k (leaveHand p s h).threads = aget k s.threads :=
  leaveHand_notMem fun l _ e => hk (by rw [e]; rfl)

theorem leaveHand_own (hk : handOf k = h) (hl : k.lane < 64) :
    aget k (leaveHand p s h).threads = (aget k s.threads).map (leaveIf p) := by
  have e : k = threadOf h k.lane := by rw [← hk]; rfl
  by_cases hw : k.lane ∈ waitersOf s h p
  · obtain ⟨-, t, ht, hp⟩ := mem_waitersOf.mp hw
    rw [e]
    refine (leaveHand_mem hw).trans ?_
    rw [ht, show aget (threadOf h k.lane) s.threads = some t from ht]
    simp [leaveIf, hp]
  · rw [leaveHand_notMem fun l hlw e' => hw (threadOf_inj (e.symm.trans e') ▸ hlw)]
    cases ht : aget k s.threads with
    | none => rfl
    | some t =>
      have hp : ¬ p t.run = true := fun hp => hw (mem_waitersOf.mpr ⟨hl, t, e ▸ ht, hp⟩)
      simp [leaveIf, hp]

theorem foldl_leaveHand_other : ∀ {hs : List HandKey} {s : State}, handOf k ∉ hs →
    aget k (hs.foldl (leaveHand p) s).threads = aget k s.threads
  | [], _, _ => rfl
  | h :: hs, s, hk => by
    rw [List.mem_cons, not_or] at hk
    rw [List.foldl_cons, foldl_leaveHand_other hk.2, leaveHand_other hk.1]

/-- The threads of each of some hands leave once. -/
theorem foldl_leaveHand_own (hl : k.lane < 64) : ∀ {hs : List HandKey} {s : State}, hs.Nodup → handOf k ∈ hs →
    aget k (hs.foldl (leaveHand p) s).threads = (aget k s.threads).map (leaveIf p)
  | [], _, _, hk => absurd hk List.not_mem_nil
  | h :: hs, s, hn, hk => by
    rw [List.nodup_cons] at hn
    rw [List.foldl_cons]
    rcases List.mem_cons.mp hk with e | hk'
    · rw [foldl_leaveHand_other (e ▸ hn.1), leaveHand_own e hl]
    · have hne : handOf k ≠ h := fun e => hn.1 (e ▸ hk')
      rw [foldl_leaveHand_own hl hn.2 hk', leaveHand_other hne]

end

/-! ## The team barrier opens (07 R162) -/

theorem teamHands_of_team {s : State} {id : TeamId} {tm : Team} (h : aget id s.teams = some tm) :
    teamHands s id = (List.range tm.hands).map fun j => ⟨id, j⟩ := by simp [teamHands, h]

section
variable {s : State} {id : TeamId} {tm : Team} {p : Run → Bool}

theorem leaveWaiters_rest (s : State) (id : TeamId) (p : Run → Bool) : leaveWaiters s id p =
    { s with threads := (leaveWaiters s id p).threads, hands := (leaveWaiters s id p).hands } := by
  rw [leaveWaiters_eq]
  exact foldl_leaveHand_rest p _ s

@[simp] theorem leaveWaiters_teams (s : State) (id : TeamId) (p : Run → Bool) : (leaveWaiters s id p).teams = s.teams := by
  rw [leaveWaiters_rest]

@[simp] theorem leaveWaiters_mem (s : State) (id : TeamId) (p : Run → Bool) : (leaveWaiters s id p).mem = s.mem := by
  rw [leaveWaiters_rest]

/-- A thread of a team whose waiting threads leave. -/
theorem leaveWaiters_thread {k : ThreadKey} (ht : aget id s.teams = some tm) (hk : k.team = id) (hh : k.hand < tm.hands)
    (hl : k.lane < 64) : aget k (leaveWaiters s id p).threads = (aget k s.threads).map (leaveIf p) := by
  rw [leaveWaiters_eq, teamHands_of_team ht]
  refine foldl_leaveHand_own hl (List.nodup_range.map fun i j e => (HandKey.mk.inj e).2) (List.mem_map.mpr ⟨k.hand, ?_, ?_⟩)
  · exact List.mem_range.mpr hh
  · rw [← hk]; rfl

/-- The opening checks of a team that runs, whose threads have not all exited, and that is in no deterministic mode. -/
theorem openTeam_of_running (ht : aget id s.teams = some tm) (hst : tm.st = .running) (hh : tm.halted = false) (hc : tm.commit = 0)
    (hs : tm.suspendAt = none) (hl : tm.live ≠ 0) (hd : tm.detMode = false) : openTeam s id =
      if tm.arr = tm.live && teamSettled s id then leaveTbar s id
      else if tm.yarr = tm.live then completeYield s id else s := by
  simp [openTeam, ht, hst, hh, hc, hs, hl, hd]

theorem leaveTbar_team (ht : aget id s.teams = some tm) :
    aget id (leaveTbar s id).teams = some { tm with arr := 0, phase := !tm.phase } := by
  simp [leaveTbar, ht]

@[simp] theorem leaveTbar_mem (s : State) (id : TeamId) : (leaveTbar s id).mem = s.mem := by simp [leaveTbar]

theorem leaveTbar_thread {k : ThreadKey} (ht : aget id s.teams = some tm) (hk : k.team = id) (hh : k.hand < tm.hands)
    (hl : k.lane < 64) : aget k (leaveTbar s id).threads = (aget k s.threads).map (leaveIf (· = .tbar)) := by
  have ht' : aget id (s.modTeam id fun tm => { tm with arr := 0, phase := !tm.phase }).teams =
      some { tm with arr := 0, phase := !tm.phase } := by simp [ht]
  exact leaveWaiters_thread ht' hk hh hl

end

/-- Settles O15: arrivals by `arriveAt_of_one`, the exit by `exitThread_of_ready`; an opening lets each hand's waiting
threads leave once (`leaveTbar_thread`). -/
theorem barriersAndExits : Obligations.BarriersAndExits := by
  unfold Obligations.BarriersAndExits
  refine ⟨fun g s h tm l u v hc hu hr => ⟨?tbar, ?yield, ?lbar, fun hch => ?exit⟩,
    fun s id tm ht hst hh hcm hs hl hd => ⟨fun ⟨harr, hset⟩ => ?opens, fun ha hy => ?stays⟩⟩
  case tbar => exact congrArg Host.Outcome.next (arriveAt_of_one hc ..)
  case yield => exact congrArg Host.Outcome.next (arriveAt_of_one hc ..)
  case lbar =>
    refine congrArg Host.Outcome.next ((arriveAt_of_one hc ..).trans ?_)
    simp only [show aget (threadOf h l).team s.teams = some tm from inFocus_team hc.focus]
    rfl
  case exit =>
    have hexit := exitThread_of_ready (k := threadOf h l) hu (inFocus_team hc.focus) hr hch
    exact (execExit_of_one hc).trans (by rw [hexit]; rfl)
  case opens =>
    have hopen : openTeam s id = leaveTbar s id := by
      rw [openTeam_of_running ht hst hh hcm hs hl hd, if_pos (by simp [harr, hset])]
    rw [hopen]
    refine ⟨leaveTbar_team ht, leaveTbar_mem s id, fun k t hk hhand hlane hkt => ?_⟩
    have hthread := leaveTbar_thread ht hk hhand hlane
    rw [hkt, Option.map_some] at hthread
    refine ⟨fun hrun => ⟨t.past, ?_, rfl, rfl, rfl⟩, fun hrun => ?_⟩
    · rw [hthread]; simp [leaveIf, hrun]
    · rw [hthread]; simp [leaveIf, hrun]
  case stays =>
    rw [openTeam_of_running ht hst hh hcm hs hl hd, if_neg (by simp [Nat.ne_of_lt ha]), if_neg (Nat.ne_of_lt hy)]

end Sys2Proof.Machine

/-! SUPPORT. Breakpoints, traps and faults (04 R83 to R85; 14 R323, R325): what stops, and the record that is sent. -/

namespace Sys2Proof.Machine

/-! ## Faults (14 R323, R325) -/

@[simp] theorem sendFault_faults (s : State) (r : FaultRec) :
    (sendFault s r).faults = { s.faults with raw := s.faults.raw ++ [r] } := by
  unfold sendFault; split <;> rfl

@[simp] theorem withdraw_faults (s : State) (k : ThreadKey) : (withdraw s k).faults = s.faults := by
  unfold withdraw; repeat' split
  all_goals rfl

/-- A thread's fault sends its record on its way. -/
@[simp] theorem takeFault_faults (s : State) (k : ThreadKey) (f : FaultInfo) :
    (takeFault s k f).faults = { s.faults with raw := s.faults.raw ++ [threadRec s k f false 0] } := by
  simp [takeFault, stopThread]

/-! ## BRK (04 R84) -/

section
variable {s : State} {g : Guard} {imm : BitVec 16} {h : HandKey} {tm : Team}

theorem execBrk_of_disabled {ls : List Nat} (hc : CanPerform s (bare g) h tm ls) (hd : (s.func tm.func).debugEn = false) :
    Completes (.brk g imm) s fun t => LanesGet s t (bare g) h tm ls fun _ _ u => u := by
  refine ⟨_, rfl, runLanes_part hc fun l hl => ?_⟩
  obtain ⟨v, hv⟩ := hc.ready l hl
  refine ⟨v, hv, fun s' hs _ => ?_⟩
  have hteam : aget (threadOf h l).team s'.teams = some tm := teams_of_threads hs ▸ inFocus_team hc.focus
  have hdebug : (s'.func tm.func).debugEn = false := by rw [hs]; exact hd
  simp [inTeam_of_team hteam, hdebug]

theorem execBrk_of_enabled {l : Nat} {v : Vals} (hc : OneLane s (bare g) h tm l v) (hd : (s.func tm.func).debugEn = true) :
    execBrk g imm s = .next (endIssue ((s.modThread (threadOf h l) fun t => { t with run := .broken imm }).modTeam h.team
      fun tm => { tm with bpLog := tm.bpLog ++ [(h.hand, l, pcOf s (threadOf h l), imm)] }) h [l]) := by
  refine congrArg Host.Outcome.next (runLanes_one_left hc ?_)
  rw [inTeam_of_team (inFocus_team hc.focus), if_pos hd]
  rfl

theorem execBreakpointResume_of_broken {k : ThreadKey} {t : Thread} (ht : aget k s.threads = some t) (hr : t.run = .broken imm) :
    execBreakpointResume k s = .next (wakeLanes (s.modThread k Thread.advance) (handOf k) [k.lane]) := by
  simp [execBreakpointResume, ht, hr]

end

/-- Settles O16: WAITF and BRK lane by lane, TRAP by `runLanes_one_fault`; a fault's record is `threadRec`'s, and of the
threads only its own is stopped (`takeFault_threads`). -/
theorem trapsAndFaults : Obligations.TrapsAndFaults := by
  unfold Obligations.TrapsAndFaults
  refine ⟨⟨?waitf, fun g imm s h tm ls => execBrk_of_disabled, fun g imm s h tm l v => execBrk_of_enabled,
    fun k t imm s => execBreakpointResume_of_broken, ?trap⟩, fun s k f u tm hu ht => ⟨?stopped, ?others, takeFault_mem s k f, ?record⟩⟩
  case waitf =>
    refine fun g w a b c s h tm ls hc => ⟨_, rfl, runLanes_part hc fun l hl => (hc.ready l hl).imp fun v hv => ⟨hv, fun s' _ _ => ?_⟩⟩
    rw [modThread_id]
  case trap => exact fun g imm s h tm l v hc => congrArg Host.Outcome.next (runLanes_one_fault hc rfl rfl)
  case stopped =>
    refine ⟨u.stoppedBy f.code, ?_, rfl, rfl, rfl, rfl, rfl, rfl, rfl, rfl⟩
    rw [takeFault_threads, aget_amod_self, hu, Option.map_some]
  case others => exact fun j hj => by rw [takeFault_threads, aget_amod_ne _ hj]
  case record =>
    refine ⟨threadRec s k f false 0, takeFault_faults s k f, ?_⟩
    simp [threadRec, hu, ht]

end Sys2Proof.Machine

/-! SUPPORT. Staging that goes on (04 R66): what a region entry has copied before it had to wait is not copied again. -/

namespace Sys2Proof.Machine

/-- A COPY entry of 8 bytes from address 1020 to offset 0: 4 bytes of one DRAM row, and 4 of the next. -/
def twoRows : BitVec 128 := BitVec.ofNat 128 (2 ^ 125 + 8 * 2 ^ 64 + 1020)

/-- A team whose entry has copied its first row, and may go on. -/
def goingOn : Team := { hostTeam with st := .staging, region := [twoRows], stageAt := [(0, 4)] }

/-- That team, where the first byte of the row has become 1 since it was copied as 0. -/
def rowChanged : State := { State.reset with
  teams := [(hostTeamId, goingOn)]
  funcs := [(0, { Func.reset with
    segs := [0x8000000000100000, 0, 0]
    pages := [⟨0, 65536, .resident, true, true, true, false, 0, 0, 0, 0, [], [], [], 0, 0, 0⟩] })]
  mem := { Memory.empty with dram := [(1020, 1)] } }

theorem exists_ok_of_bytes {r : Except Miss (State × List Byte)} {bs : List Byte} (h : r.toOption.map Prod.snd = some bs) :
    ∃ s, r = .ok (s, bs) := by
  cases r with
  | error m => simp [Except.toOption] at h
  | ok x => exact ⟨x.1, congrArg _ (Prod.ext rfl (Option.some.inj h))⟩

/-- What the whole entry reads now. -/
theorem rowChanged_reads : ∃ s, virtRead rowChanged 0 (regionBase twoRows 0) (regionLen twoRows) .read
    (nodeFolded rowChanged 0 0) = .ok (s, 1 :: List.replicate 7 0) := exists_ok_of_bytes (by decide)

/-- The staging engine goes on with the second row, and leaves the first as it was copied. -/
theorem rowChanged_staged : memGet (stateAfter rowChanged (exec (.stagingDone hostTeamId) rowChanged)).mem.sp 0 = 0 := by decide

/-- A copy of the whole entry would make the first byte 1. -/
theorem rowChanged_whole : memGet (rowChanged.spWrite hostTeamId goingOn 0 (1 :: List.replicate 7 0)).mem.sp 0 = 1 := by decide

/-- Refutes O47: a COPY entry that had to wait for a page goes on behind the rows that it has copied (`Team.stageAt`), which
the statement leaves free, so that its bytes need not be those that a read of the whole entry now gives. In `rowChanged`
the first row has changed since it was copied. -/
theorem not_teamLives : ¬ Obligations.TeamLives := by
  unfold Obligations.TeamLives
  intro ⟨_, stages, _⟩
  obtain ⟨-, copies⟩ := stages rowChanged hostTeamId goingOn rfl rfl rfl rfl (by decide)
  obtain ⟨s, hread⟩ := rowChanged_reads
  obtain ⟨t, hexec, -, hmem⟩ := copies twoRows s _ rfl rfl (fun _ => rfl) rfl hread
  have hstaged := rowChanged_staged
  rw [hexec, stateAfter, hmem] at hstaged
  exact absurd (hstaged.symm.trans rowChanged_whole) (by decide)

end Sys2Proof.Machine

/-! SUPPORT. Format registers (06 R120, R136): what one thread's FMTSET does, and what FMTGET reads of them. -/

namespace Sys2Proof.Machine

/-! ## Writes (06 R120, R136) -/

section
variable {s : State} {k : ThreadKey} {n : Nat} {v : Word}

/-- Outside deterministic mode an accepted value is the team's at once. -/
theorem setFmt_of_accepted {tm : Team} (hv : fmtAccepted v = true) (ht : aget k.team s.teams = some tm) (hd : tm.detMode = false) :
    setFmt s k n v = .done (s.modTeam k.team fun tm => { tm with fmts := tm.fmts.set n v }) := by
  simp [setFmt, hv, ht, hd]

/-- A value that is not accepted is refused in every mode, before the register is written or the write is buffered. -/
theorem setFmt_of_refused (hv : fmtAccepted v = false) : setFmt s k n v = .fault { code := 0x01, faddr := v.setWidth 64 } := by
  simp [setFmt, hv]

/-! ## Reads (06 R120, R121) -/

/-- What a thread sees of a format register does not depend on threads: its hand's buffer and its team hold it. -/
theorem fmtView_of_threads {s' : State} (hs : s' = { s with threads := s'.threads }) : fmtView s' k n = fmtView s k n := by
  rw [hs]; rfl

end

/-- A 32-bit word as a result is the word itself, zero-extended. -/
theorem gives_toNat (d : BitVec 8) (x : Word) : gives false d x.toNat = fun u => writeReg u d false (x.setWidth 64) := by
  have hmod : (x.toNat : Int) % 2 ^ widthN false = x.toNat := Int.emod_eq_of_lt (by omega) (by exact_mod_cast x.isLt)
  funext u
  rw [gives, hmod, BitVec.ofInt_natCast, BitVec.ofNat_toNat]

/-! ## A source without a modifier (03 R49) -/

theorem srcOp_not_modified (g : Guard) {a : Src} (h : a.mod = .none) : (⟨g, srcOp a false, noOp, noOp, []⟩ : Shape).modified = false := by
  simp [Shape.modified, srcOp, noOp, Opnd.mod, h]

/-- Settles O7: a bundle of one thread writes by `setFmt_of_accepted` and stops by `setFmt_of_refused`; FMTGET is
`runLanes_part`, since no lane's part changes what another reads (`fmtView_of_threads`). -/
theorem formatRegisters : Obligations.FormatRegisters := by
  unfold Obligations.FormatRegisters
  refine ⟨fun s g n imm h tm l v hc hv hd => ?immediate, fun s g n a h tm l v hc hv hd => ?register,
    fun s g n a h tm l v hc hm hv => ?refused, fun g d n s h tm ls hc => ⟨_, rfl, runLanes_part hc fun l hl => ?get⟩⟩
  case immediate | register =>
    exact congrArg Host.Outcome.next (runLanes_one_done hc (setFmt_of_accepted hv (inFocus_team hc.focus) hd))
  case refused =>
    exact congrArg Host.Outcome.next (runLanes_one_fault hc (srcOp_not_modified g hm) (setFmt_of_refused hv))
  case get =>
    refine (hc.ready l hl).imp fun v hv => ⟨hv, fun s' hs _ => ?_⟩
    simp only [fmtView_of_threads hs, gives_toNat, putReg]

end Sys2Proof.Machine

/-! SUPPORT. Every step keeps the canonical form of every memory (notes/assumptions/5.md). Almost every operation of the model
leaves the memories as they are (`f_mem`); the few that write do so through the laws of memories, and what is built from them
keeps the form (`f_memOk`). The lemmas follow the model's files. -/

namespace Sys2Proof.Machine

/-! ### Outcomes -/

@[simp] theorem memOk_def (s : State) : s.memOk ↔ s.mem.wf = true := Iff.rfl

/-- The state that a lane ends in has memories in canonical form. -/
def LaneOut.memOk : LaneOut → Prop
  | .done s | .left s | .wait s | .faultIn s _ => s.memOk
  | .fault _ => True

@[simp] theorem LaneOut.memOk_done (s : State) : (LaneOut.done s).memOk ↔ s.memOk := Iff.rfl
@[simp] theorem LaneOut.memOk_left (s : State) : (LaneOut.left s).memOk ↔ s.memOk := Iff.rfl
@[simp] theorem LaneOut.memOk_wait (s : State) : (LaneOut.wait s).memOk ↔ s.memOk := Iff.rfl
@[simp] theorem LaneOut.memOk_fault (f : FaultInfo) : (LaneOut.fault f).memOk := trivial
@[simp] theorem LaneOut.memOk_faultIn (s : State) (f : FaultInfo) : (LaneOut.faultIn s f).memOk ↔ s.memOk := Iff.rfl

/-- The state that a row operation ends in has memories in canonical form. -/
def RowOut.memOk : RowOut → Prop
  | .done s | .left s | .wait s | .poison s => s.memOk
  | .stop _ => True

@[simp] theorem RowOut.memOk_done (s : State) : (RowOut.done s).memOk ↔ s.memOk := Iff.rfl
@[simp] theorem RowOut.memOk_left (s : State) : (RowOut.left s).memOk ↔ s.memOk := Iff.rfl
@[simp] theorem RowOut.memOk_wait (s : State) : (RowOut.wait s).memOk ↔ s.memOk := Iff.rfl
@[simp] theorem RowOut.memOk_stop (c : Nat) : (RowOut.stop c).memOk := trivial
@[simp] theorem RowOut.memOk_poison (s : State) : (RowOut.poison s).memOk ↔ s.memOk := Iff.rfl

/-- The state that a transfer ends in has memories in canonical form. -/
def Xfer.memOk : Xfer → Prop
  | .arrived s | .stopped s | .waits s | .fault s _ => s.memOk

@[simp] theorem Xfer.memOk_arrived (s : State) : (Xfer.arrived s).memOk ↔ s.memOk := Iff.rfl
@[simp] theorem Xfer.memOk_stopped (s : State) : (Xfer.stopped s).memOk ↔ s.memOk := Iff.rfl
@[simp] theorem Xfer.memOk_waits (s : State) : (Xfer.waits s).memOk ↔ s.memOk := Iff.rfl
@[simp] theorem Xfer.memOk_fault (s : State) (f : FaultInfo) : (Xfer.fault s f).memOk ↔ s.memOk := Iff.rfl

/-- The state after a fetch has memories in canonical form. -/
def Fetched.memOk : Fetched → Prop
  | .line _ s | .later s | .fault _ s => s.memOk
  | .wait _ _ => True

@[simp] theorem Fetched.memOk_line (l : Line) (s : State) : (Fetched.line l s).memOk ↔ s.memOk := Iff.rfl
@[simp] theorem Fetched.memOk_later (s : State) : (Fetched.later s).memOk ↔ s.memOk := Iff.rfl
@[simp] theorem Fetched.memOk_fault (c : Nat) (s : State) : (Fetched.fault c s).memOk ↔ s.memOk := Iff.rfl
@[simp] theorem Fetched.memOk_wait (c p : Nat) : (Fetched.wait c p).memOk := trivial

/-- The state after the fetch of a bundle has memories in canonical form. -/
def Issue.memOk : Issue → Prop
  | .run _ s | .stay s => s.memOk

@[simp] theorem Issue.memOk_run (i : Instr) (s : State) : (Issue.run i s).memOk ↔ s.memOk := Iff.rfl
@[simp] theorem Issue.memOk_stay (s : State) : (Issue.stay s).memOk ↔ s.memOk := Iff.rfl

/-- The state after a miss on a kitty has memories in canonical form. -/
def KittyMiss.memOk : KittyMiss → Prop
  | .waits s | .over s => s.memOk

@[simp] theorem KittyMiss.memOk_waits (s : State) : (KittyMiss.waits s).memOk ↔ s.memOk := Iff.rfl
@[simp] theorem KittyMiss.memOk_over (s : State) : (KittyMiss.over s).memOk ↔ s.memOk := Iff.rfl

/-- The state after the check of a tree has memories in canonical form. -/
def Checked.memOk : Checked → Prop
  | .ok _ s | .miss _ _ _ s | .refused _ _ _ s => s.memOk

@[simp] theorem Checked.memOk_ok (ns : List Node) (s : State) : (Checked.ok ns s).memOk ↔ s.memOk := Iff.rfl

@[simp] theorem Checked.memOk_miss (ns : List Node) (b : Option Nat) (m : Miss) (s : State) :
    (Checked.miss ns b m s).memOk ↔ s.memOk := Iff.rfl

@[simp] theorem Checked.memOk_refused (ns : List Node) (b : Option Nat) (r : Nat) (s : State) :
    (Checked.refused ns b r s).memOk ↔ s.memOk := Iff.rfl

/-- The state after a try that went through has memories in canonical form. -/
def Try.memOk : Try → Prop
  | .ok s => s.memOk
  | _ => True

@[simp] theorem Try.memOk_ok (s : State) : (Try.ok s).memOk ↔ s.memOk := Iff.rfl
@[simp] theorem Try.memOk_held : Try.held.memOk := trivial
@[simp] theorem Try.memOk_bad (m : Miss) : (Try.bad m).memOk := trivial
@[simp] theorem Try.memOk_lost (f : FaultInfo) : (Try.lost f).memOk := trivial

/-- The state after an append that went through has memories in canonical form. -/
def Appended.memOk : Appended → Prop
  | .done s _ => s.memOk
  | _ => True

@[simp] theorem Appended.memOk_done (s : State) (b : Bool) : (Appended.done s b).memOk ↔ s.memOk := Iff.rfl

/-- The state in which a turn begins has memories in canonical form. -/
def Turn.memOk : Turn → Prop
  | .unit s | .event _ s => s.memOk

@[simp] theorem Turn.memOk_unit (s : State) : (Turn.unit s).memOk ↔ s.memOk := Iff.rfl
@[simp] theorem Turn.memOk_event (i : Instr) (s : State) : (Turn.event i s).memOk ↔ s.memOk := Iff.rfl

/-- A next state has memories in canonical form. -/
def OutOk (o : Out) : Prop := ∀ t, o = .next t → t.memOk

@[simp] theorem outOk_next (s : State) : OutOk (.next s) ↔ s.memOk :=
  ⟨fun h => h s rfl, fun h t e => by cases e; exact h⟩

/-! ### The memory controllers -/

@[simp] theorem noteBusy_mem (s : State) (p : Nat) (k : Bool × Nat × Nat) : (noteBusy s p k).mem = s.mem := rfl

/-! ### Shared operations -/

@[simp] theorem spWrite_keeps {s : State} (id : TeamId) (t : Team) (a : Nat) (bs : List Byte) (hs : s.memOk) :
    (s.spWrite id t a bs).memOk :=
  spWrite_memOk id t a bs hs
@[simp] theorem dramWrite_keeps {s : State} (dpa : Nat) (bs : List Byte) (hs : s.memOk) : (dramWrite s dpa bs).memOk :=
  dramWrite_memOk dpa bs hs
@[simp] theorem markDirty_keeps {s : State} (fn loc n : Nat) (hs : s.memOk) : (markDirty s fn loc n).memOk :=
  markDirty_memOk fn loc n hs
@[simp] theorem placeWrite_keeps {s : State} (x : Xl) (bs : List Byte) (hs : s.memOk) : (placeWrite s x bs).memOk :=
  placeWrite_memOk x bs hs
@[simp] theorem countLines_mem (s : State) (fn va n : Nat) (write : Bool) : (countLines s fn va n write).mem = s.mem :=
  foldl_mem (fun _ _ => by simp) ..
@[simp] theorem notePoison_mem (s : State) (fn line : Nat) : (notePoison s fn line).mem = s.mem := rfl
@[simp] theorem notePoisonAt_mem (s : State) (fn loc n : Nat) : (notePoisonAt s fn loc n).mem = s.mem :=
  foldl_mem (fun _ _ => by simp) ..
@[simp] theorem wantLine_mem (s : State) (fn va : Nat) : (wantLine s fn va).mem = s.mem := rfl
@[simp] theorem missed_mem (s : State) (fn va : Nat) (x : Xl) : (missed s fn va x).mem = s.mem := by
  fun_cases missed s fn va x <;> simp
@[simp] theorem Miss.note_mem (m : Miss) (s : State) (fn : Nat) : (Miss.note m s fn).mem = s.mem := by simp [Miss.note]

/-- One piece of an engine's read, after what the pieces before it came to. -/
def readPiece (fn va : Nat) (acc : Acc) (stay : Bool) (r : Except Miss (State × List Byte)) (p : Nat × Nat) :
    Except Miss (State × List Byte) :=
  match r with
  | .error x => .error x
  | .ok (s, bs) =>
    let x := reach s fn p.1 acc stay
    if !x.isPlace then .error ⟨p.1, x⟩
    else if placePoisoned s x p.2 then .error ⟨p.1, .final 0x15⟩
    else .ok (countXl s fn p.1 x false (p.1 = va), bs ++ placeRead s x p.2)

theorem virtRead_eq (s : State) (fn va n : Nat) (acc : Acc) (stay : Bool) : virtRead s fn va n acc stay =
    (pieces 128 (n / 128 + 2) va n).foldl (readPiece fn va acc stay) (.ok (s, [])) :=
  rfl

theorem mem_of_readPiece {fn va : Nat} {acc : Acc} {stay : Bool} {r : Except Miss (State × List Byte)} {p : Nat × Nat}
    {t : State} {bs : List Byte} (h : readPiece fn va acc stay r p = .ok (t, bs)) : ∃ s bs', r = .ok
    (s, bs') ∧ t.mem = s.mem := by
  revert h
  fun_cases readPiece fn va acc stay r p <;> intro h
  case case4 => cases h; exact ⟨_, _, rfl, countXl_mem ..⟩
  all_goals cases h

theorem mem_of_readPieces {fn va : Nat} {acc : Acc} {stay : Bool} {t : State} {bs : List Byte} : ∀ {ps : List (Nat × Nat)}
    {r : Except Miss (State × List Byte)}, ps.foldl (readPiece fn va acc stay) r = .ok (t, bs) → ∃ s bs', r = .ok
    (s, bs') ∧ t.mem = s.mem
  | [], _, h => ⟨t, bs, h, rfl⟩
  | p :: ps, r, h => by
    obtain ⟨s1, b1, e1, m1⟩ := mem_of_readPieces (ps := ps) h
    obtain ⟨s, b, e, m⟩ := mem_of_readPiece e1
    exact ⟨s, b, e, m1.trans m⟩

/-- An engine's read changes no memory, whether its lines may travel or not. -/
theorem mem_of_virtRead {s t : State} {fn va n : Nat} {acc : Acc} {stay : Bool} {bs : List Byte}
    (h : virtRead s fn va n acc stay = .ok (t, bs)) : t.mem = s.mem := by
  rw [virtRead_eq] at h
  obtain ⟨s', _, e, m⟩ := mem_of_readPieces h
  cases e
  exact m

theorem memOk_of_virtWrite {s t : State} {fn va : Nat} {bs : List Byte} {stay : Bool}
    (h : virtWrite s fn va bs stay = .ok t) (hs : s.memOk) : t.memOk := by
  simp only [virtWrite] at h
  split at h
  · cases h
  · cases h
    exact foldl_memOk (fun s p hs => by simp [placeWrite_memOk _ _ hs]) _ hs

@[simp] theorem tellDealer_mem (s : State) (n : DealerNote) : (tellDealer s n).mem = s.mem := rfl
@[simp] theorem tellOnce_mem (s : State) (n : DealerNote) : (tellOnce s n).mem = s.mem := by unfold tellOnce; split <;> simp
@[simp] theorem chargeIssue_mem (s : State) (h : HandKey) (lanes : BitVec 64) : (chargeIssue s h lanes).mem = s.mem := by
  unfold chargeIssue; split <;> simp

/-! ### Operands -/

@[simp] theorem goOn_mem (s : State) (k : ThreadKey) : (goOn s k).mem = s.mem := rfl
@[simp] theorem blockOn_mem (s : State) (k : ThreadKey) (p : Park) : (blockOn s k p).mem = s.mem := rfl
@[simp] theorem waitRegs_mem (s : State) (k : ThreadKey) (l : Nat) (sh : Shape) : (waitRegs s k l sh).mem = s.mem := rfl
@[simp] theorem stallThread_mem (s : State) (k : ThreadKey) : (stallThread s k).mem = s.mem := rfl
@[simp] theorem applyOut_memOk {k : ThreadKey} {s : State} {o : LaneOut} (hs : s.memOk) (ho : o.memOk) :
    (applyOut k s o).memOk := by
  cases o <;> simp_all [applyOut]
@[simp] theorem checkMismatch_mem (s : State) (h : HandKey) : (checkMismatch s h).mem = s.mem :=
  foldl_mem (fun _ _ => by simp) ..
@[simp] theorem arriveLane_mem (s : State) (h : HandKey) (m : BitVec 64) (l : Nat) : (arriveLane s h m l).mem = s.mem := by
  unfold arriveLane; split <;> simp

@[simp] theorem arriveAll_mem (s : State) (h : HandKey) (ls : List Nat) : (arriveAll s h ls).mem = s.mem := by
  unfold arriveAll
  rw [checkMismatch_mem]
  exact foldl_mem (fun s l => by split <;> simp) ls s

theorem runLane_memOk {h : HandKey} {w : Nat} {sh : Shape} {s0 s : State} {perf : List Nat} {l : Nat}
    {body : ThreadKey → Vals → State → LaneOut} (hb : ∀ k v s, s.memOk → (body k v s).memOk) (hs : s.memOk) :
    (runLane h w sh s0 perf body s l).memOk := by
  fun_cases runLane h w sh s0 perf body s l
  case case3 v _ => exact applyOut_memOk hs (hb _ v s hs)
  all_goals simp [hs]

/-- One lane of a rendezvous that may wait, after what the lanes before it came to. -/
def waitsWith (h : HandKey) (w : Nat) (sh : Shape) (s0 : State) (body : ThreadKey → Vals → State → LaneOut) (r : Option State)
    (l : Nat) : Option State :=
  match readOpnds s0 h w sh l with
  | .wait => some (r.getD s0)
  | .trap _ => r
  | .ok v => match body (threadOf h l) v (r.getD s0) with
    | .wait s' => some s'
    | _ => r

theorem memOk_of_waitsWith {h : HandKey} {w : Nat} {sh : Shape} {s0 : State} {body : ThreadKey → Vals → State → LaneOut}
    (hb : ∀ k v s, s.memOk → (body k v s).memOk) {r : Option State} (hr : (r.getD s0).memOk) (l : Nat) :
    ((waitsWith h w sh s0 body r l).getD s0).memOk := by
  fun_cases waitsWith h w sh s0 body r l
  case case3 v _ t ht => simpa [ht] using hb (threadOf h l) v _ hr
  all_goals exact hr

theorem memOk_of_rdvWaits {h : HandKey} {w : Nat} {sh : Shape} {s0 t : State} {perf : List Nat}
    {body : ThreadKey → Vals → State → LaneOut} (hb : ∀ k v s, s.memOk → (body k v s).memOk) (hs : s0.memOk)
    (ht : rdvWaits h w sh s0 perf body = some t) : t.memOk := by
  have all : ∀ (ls : List Nat) (r : Option State), (r.getD s0).memOk → ((ls.foldl (waitsWith h w sh s0 body) r).getD s0).memOk := by
    intro ls
    induction ls with
    | nil => exact fun _ hr => hr
    | cons l ls ih => exact fun r hr => ih _ (memOk_of_waitsWith hb hr l)
  have e : perf.foldl (waitsWith h w sh s0 body) none = some t := ht
  simpa [e] using all perf none hs

@[simp] theorem waitFormed_mem (s : State) (h : HandKey) (ls : List Nat) : (waitFormed s h ls).mem = s.mem :=
  foldl_mem (fun _ _ => by simp) ..

theorem runLanes_memOk {s : State} {sh : Shape} {body : ThreadKey → Vals → State → LaneOut}
    (hb : ∀ k v s, s.memOk → (body k v s).memOk) (hs : s.memOk) : (runLanes s sh body).memOk := by
  have hf : ∀ (fs : List (Nat × FaultInfo)) (h : HandKey), (fs.foldl (fun s e => takeFault s (threadOf h e.1) e.2) s).memOk :=
    fun fs h => foldl_memOk (fun _ _ hs => by simp [hs]) fs hs
  unfold runLanes
  split
  · exact hs
  · split
    · split
      · simp [hs]
      · dsimp only
        split
        · next h2 => exact memOk_of_mem_eq (waitFormed_mem ..) (memOk_of_rdvWaits hb (hf ..) h2)
        · exact memOk_of_mem_eq (endIssue_mem ..) (foldl_memOk (fun _ _ hs => runLane_memOk hb hs) _ (hf ..))
    · exact memOk_of_mem_eq (endIssue_mem ..) (foldl_memOk (fun _ _ hs => runLane_memOk hb hs) _ hs)

@[simp] theorem runCross_mem (s : State) (sh : Shape) (src : List Nat → Nat → Dword → Option Nat)
    (f : HandKey → Nat → List (Nat × Vals) → List (Nat × (Thread → Thread))) : (runCross s sh src f).mem = s.mem := by
  have hf : ∀ (fs : List (Nat × Nat)) (h : HandKey),
      (fs.foldl (fun s e => takeFault s (threadOf h e.1) { code := e.2 }) s).mem = s.mem :=
    fun fs h => foldl_mem (fun _ _ => by simp) fs s
  simp only [runCross]
  split
  · rfl
  · split
    · simp
    · split
      · rw [waitFormed_mem, hf]
      · rw [endIssue_mem, foldl_mem (f := fun s l => goOn s (threadOf _ l)) fun _ _ => goOn_mem ..,
          foldl_mem (f := fun s (e : Nat × (Thread → Thread)) => s.modThread (threadOf _ e.1) e.2) fun _ _ => rfl, hf]

@[simp] theorem waitTogether_mem (s : State) (k : ThreadKey) (h : HandKey) (ls : List Nat) :
    (waitTogether s k h ls).mem = s.mem := by
  unfold waitTogether
  split
  · exact foldl_mem (fun _ _ => State.modThread_mem ..) ls s
  · rfl

theorem goOnAll_mem (h : HandKey) (ls : List Nat) (s : State) :
    (ls.foldl (fun s l => goOn s (threadOf h l)) s).mem = s.mem :=
  foldl_mem (fun _ _ => goOn_mem ..) ls s

theorem runBundle_memOk {s : State} {sh : Shape} {body : ThreadKey → Vals → State → LaneOut}
    (hb : ∀ k v s, s.memOk → (body k v s).memOk) (hs : s.memOk) : (runBundle s sh body).memOk := by
  unfold runBundle
  split
  · exact hs
  · split
    · simp [goOnAll_mem, hs]
    · dsimp only
      split
      · simp [goOnAll_mem, hs]
      · simp [goOnAll_mem, hs]
      · next v _ =>
        have hv := hb (threadOf ‹HandKey› ‹Nat›) v s hs
        split <;> simp_all [goOnAll_mem]

@[simp] theorem putReg_memOk {s : State} (d : BitVec 8) (pair : Bool) (v : Dword) (k : ThreadKey) (hs : s.memOk) :
    (putReg d pair v k s).memOk :=
  hs
@[simp] theorem alu1_memOk {s : State} {g : Guard} {w : Bool} {d : BitVec 8} {a : Opnd} {f : Dword → Dword} (hs : s.memOk) :
    (alu1 s g w d a f).memOk :=
  runLanes_memOk (fun _ _ _ h => h) hs
@[simp] theorem alu2_memOk {s : State} {g : Guard} {w : Bool} {d : BitVec 8} {a b : Opnd} {f : Dword → Dword → Dword}
    (hs : s.memOk) : (alu2 s g w d a b f).memOk :=
  runLanes_memOk (fun _ _ _ h => h) hs
@[simp] theorem alu3_memOk {s : State} {g : Guard} {w : Bool} {d : BitVec 8} {a b c : Opnd}
    {f : Dword → Dword → Dword → Dword} (hs : s.memOk) : (alu3 s g w d a b c f).memOk :=
  runLanes_memOk (fun _ _ _ h => h) hs
@[simp] theorem cmp2_memOk {s : State} {g : Guard} {d : BitVec 3} {a b : Opnd} {f : Dword → Dword → Bool} (hs : s.memOk) :
    (cmp2 s g d a b f).memOk :=
  runLanes_memOk (fun _ _ _ h => h) hs
@[simp] theorem threadOp_memOk {s : State} {g : Guard} {ds : List (BitVec 8 × Bool)} {f : Thread → Thread} (hs : s.memOk) :
    (threadOp s g ds f).memOk :=
  runLanes_memOk (fun _ _ _ h => h) hs

/-! ### Accesses -/

@[simp] theorem cmWrite_memOk {s : State} (f : Func) (a : Nat) (bs : List Byte) (hs : s.memOk) :
    (cmWrite s f a bs).memOk := by
  rw [State.memOk_iff] at *
  exact ⟨hs.1, memWf_foldl_memSet _ _ _ hs.2.1, hs.2.2⟩

theorem maskWrite_memOk {wr : State → Nat → List Byte → State} {s : State} {e : DetEntry}
    (hw : ∀ s a bs, s.memOk → (wr s a bs).memOk) (hs : s.memOk) : (maskWrite wr s e).memOk := by
  unfold maskWrite
  split
  · exact hw _ _ _ hs
  · exact foldl_memOk (fun s x hs => by split; exacts [hw _ _ _ hs, hs]) _ hs

@[simp] theorem applyEntry_memOk {s : State} (h : HandKey) (e : DetEntry) (cmp : Dword) (hs : s.memOk) :
    (applyEntry s h e cmp).memOk := by
  have hsp : ∀ tm, (maskWrite (fun s a bs => s.spWrite h.team tm a bs) s e).memOk :=
    fun tm => maskWrite_memOk (fun _ _ _ hs => spWrite_memOk _ _ _ _ hs) hs
  have hcm : ∀ tm, (maskWrite (fun s a bs => cmWrite s (teamFunc s tm) a bs) s e).memOk :=
    fun tm => maskWrite_memOk (fun _ _ _ hs => cmWrite_memOk _ _ _ hs) hs
  simp only [applyEntry]
  repeat' split
  all_goals simp_all

@[simp] theorem applyEntries_memOk {s : State} (h : HandKey) (es : List DetEntry) (hs : s.memOk) :
    (applyEntries s h es).memOk := by
  have all : ∀ (es : List DetEntry) (r : State × Dword), r.1.memOk →
      (es.foldl (fun (r : State × Dword) e => (applyEntry r.1 h e r.2, if e.kind = 6 then e.data else r.2)) r).1.memOk := by
    intro es
    induction es with
    | nil => exact fun _ hr => hr
    | cons e es ih => exact fun r hr => ih _ (applyEntry_memOk h e r.2 hr)
  exact all es (s, 0) hs

theorem mem_of_takeEntries {s t : State} {k : ThreadKey} {w : Nat} {es : List DetEntry} (h : takeEntries s k w es = some t) :
    t.mem = s.mem := by
  unfold takeEntries at h
  split at h
  · cases h; rfl
  · split at h <;> cases h; rfl

@[simp] theorem buffered_memOk {s : State} (k : ThreadKey) (w : Nat) (e : DetEntry) (hs : s.memOk) :
    (buffered s k w e).memOk := by
  unfold buffered
  split
  · next h => exact memOk_of_mem_eq (mem_of_takeEntries h) hs
  · trivial

@[simp] theorem threadView_memOk {s : State} (k : ThreadKey) (hs : s.memOk) : (threadView s k).memOk := by
  unfold threadView
  split
  · refine applyEntries_memOk _ _ (foldl_memOk (fun s e hs => ?_) _ hs)
    split <;> simp [hs]
  · exact hs

@[simp] theorem enqueue_mem (s : State) (k : ThreadKey) (op : AccOp) (rel acq : Option Scope) :
    (enqueue s k op rel acq).mem = s.mem :=
  rfl
@[simp] theorem markEmpty_mem (s : State) (k : ThreadKey) (d : BitVec 8) (pair : Bool) :
    (markEmpty s k d pair).mem = s.mem :=
  rfl
@[simp] theorem sendFill_mem (s : State) (k : ThreadKey) (d : BitVec 8) (pair : Bool) (what : FillWhat) (iaddr : Dword)
    (seq : Option Nat) : (sendFill s k d pair what iaddr seq).mem = s.mem :=
  rfl
@[simp] theorem produce_mem (s : State) (k : ThreadKey) (d : BitVec 8) (pair : Bool) (what : FillWhat) :
    (produce s k d pair what).mem = s.mem :=
  rfl
@[simp] theorem noteFlip_mem (s : State) (id : TeamId) (a : Nat) : (noteFlip s id a).mem = s.mem := rfl

@[simp] theorem updateBarrier_memOk {s : State} (id : TeamId) (a : Nat) (f : Barrier → Barrier) (hs : s.memOk) :
    (updateBarrier s id a f).memOk := by
  simp only [updateBarrier]
  repeat' split
  all_goals simp [hs]

@[simp] theorem landed_memOk {s : State} (id : TeamId) (a n src : Nat) (hs : s.memOk) : (landed s id a n src).memOk := by
  fun_cases landed s id a n src <;> simp [hs]
@[simp] theorem bankDone_mem (s : State) (k : ThreadKey) : (bankDone s k).mem = s.mem := by fun_cases bankDone s k <;> simp

@[simp] theorem performSp_memOk {s : State} (h : HandKey) (e : Access) (hs : s.memOk) : (performSp s h e).memOk := by
  simp only [performSp]
  repeat' split
  all_goals simp [hs]

@[simp] theorem performCm_memOk {s : State} (h : HandKey) (e : Access) (hs : s.memOk) : (performCm s h e).memOk := by
  simp only [performCm]
  repeat' split
  all_goals simp [hs]

theorem memOk_of_acceptNth {s t : State} {h : HandKey} {n : Nat} {commons : Bool} (ht : acceptNth s h n commons = some t)
    (hs : s.memOk) : t.memOk := by
  simp only [acceptNth] at ht
  repeat' split at ht
  all_goals cases ht
  · exact performCm_memOk _ _ hs
  · exact performSp_memOk _ _ hs

/-! ### Rings -/

@[simp] theorem ringAppend_memOk {s : State} (fn base n : Nat) (entry : Nat → Nat) (hs : s.memOk) :
    (ringAppend s fn base n entry).memOk := by
  fun_cases ringAppend s fn base n entry
  case case7 h0 _ _ _ _ _ _ _ h1 _ h2 =>
    exact memOk_of_virtWrite h2 (memOk_of_virtWrite h1 (memOk_of_mem_eq (mem_of_virtRead h0) hs))
  all_goals trivial

/-! ### Error units -/

@[simp] theorem flushHealth_memOk : ∀ (l : List (BitVec 128)) {s : State}, s.memOk → (flushHealth l s).memOk
  | [], _, hs => hs
  | r :: rest, s, hs => by
    unfold flushHealth
    split
    · exact hs
    · have ha := ringAppend_memOk 0 s.health.log 16 (fun _ => r.toNat) hs
      split
      · next e => exact flushHealth_memOk rest (by rw [e] at ha; exact ha)
      · exact hs

@[simp] theorem logHealth_memOk {s : State} (cls : Nat) (p : Nat × Nat × Nat) (hs : s.memOk) :
    (logHealth s cls p).memOk := by
  simp [logHealth, hs]

@[simp] theorem retireUnit_mem (s : State) (u : ErrUnit) : (retireUnit s u).mem = s.mem := by
  simp only [retireUnit]
  repeat' split
  all_goals simp

@[simp] theorem makeLasting_memOk {s : State} (u : ErrUnit) (hs : s.memOk) : (makeLasting s u).memOk := by
  unfold makeLasting; split <;> simp [hs]

@[simp] theorem countError_memOk {s : State} (u : ErrUnit) (hs : s.memOk) : (countError s u).memOk := by
  simp only [countError]
  repeat' split
  all_goals simp [hs]

@[simp] theorem fetchLine.copy_memOk {s : State} (fn : Nat) (va : Dword) (x : Xl) (hs : s.memOk) :
    (fetchLine.copy s fn va x).memOk := by
  simp only [fetchLine.copy]
  repeat' split
  all_goals simp [hs]

/-! ### Instruction fetch -/

@[simp] theorem fetchLine_memOk {s : State} (fn : Nat) (va : Dword) (stay : Bool) (hs : s.memOk) :
    (fetchLine s fn va stay).memOk := by
  fun_cases fetchLine s fn va stay <;> simp [hs]

@[simp] theorem transfer_memOk {s : State} (k : ThreadKey) (target : Dword) (hs : s.memOk) :
    (transfer s k target).memOk := by
  have hf := fetchLine_memOk (funcOf s k) (lineAddr target) (fetchStays s k) hs
  simp only [transfer]
  repeat' split
  all_goals simp_all

@[simp] theorem jumpTo_memOk {s : State} (k : ThreadKey) (target : Dword) (eff : Thread → Thread) (hs : s.memOk) :
    (jumpTo s k target eff).memOk := by
  have ht := transfer_memOk k target hs
  fun_cases jumpTo s k target eff <;> simp_all

@[simp] theorem enterLine_memOk {s : State} (k : ThreadKey) (hs : s.memOk) : (enterLine s k).memOk := by
  unfold enterLine
  split
  · exact hs
  · next t _ =>
    have hf := fetchLine_memOk (funcOf s k) (lineAddr t.pc) (fetchStays s k) hs
    simp only
    repeat' split
    all_goals simp_all

@[simp] theorem goPending_memOk {s : State} (h : HandKey) (ls : List Nat) (hs : s.memOk) : (goPending s h ls).memOk := by
  refine foldl_memOk (fun s l hs => ?_) ls hs
  split
  · next t _ =>
    split
    · next target _ =>
      have ht := transfer_memOk (s := s.modThread (threadOf h l) fun t => { t with go := none }) (threadOf h l) target hs
      simp only
      split <;> simp_all
    · exact hs
  · exact hs

@[simp] theorem fetchBundle_memOk {s : State} (h : HandKey) (m : BitVec 64) (hs : s.memOk) : (fetchBundle s h m).memOk := by
  have hf : ∀ (f : FaultInfo) (ls : List Nat) (s : State), (ls.foldl (fun s x => takeFault s (threadOf h x) f) s).mem = s.mem :=
    fun f ls s => foldl_mem (fun _ _ => by simp) ls s
  simp only [fetchBundle]
  split
  · exact hs
  · next tm _ =>
    split
    · simp [hs]
    · generalize he : (lanesOf m tm.w).foldl _ s = s1
      have h1 : s1.memOk := by
        rw [← he]
        exact foldl_memOk (fun s l hs => by repeat' split; all_goals simp [hs]) _ hs
      clear he
      repeat' split
      all_goals simp [hf, h1]

/-! ### The lane stack -/

@[simp] theorem askLine_mem (s : State) (k : ThreadKey) (a : Nat) : (askLine s k a).mem = s.mem := rfl

@[simp] theorem stackGet_mem (s : State) (k : ThreadKey) (a n : Nat) : (stackGet s k a n).1.mem = s.mem := by
  unfold stackGet
  repeat' split
  all_goals simp

@[simp] theorem stackPut_mem (s : State) (k : ThreadKey) (a n v : Nat) : (stackPut s k a n v).1.mem = s.mem := by
  unfold stackPut
  repeat' split
  all_goals simp

@[simp] theorem callTo_memOk {s : State} (k : ThreadKey) (tm : Team) (target : Dword) (hs : s.memOk) :
    (callTo s k tm target).memOk := by
  have ht := transfer_memOk k target hs
  simp only [callTo]
  split
  · exact hs
  · next t _ =>
    have hp := stackPut_mem s k (frameAt tm t.depth) 8 (nextSeq t.pc).toNat
    repeat' split
    all_goals simp_all

@[simp] theorem returnFrom_memOk {s : State} (k : ThreadKey) (tm : Team) (hs : s.memOk) : (returnFrom s k tm).memOk := by
  unfold returnFrom
  split
  · exact hs
  · next t _ =>
    have hg := stackGet_mem s k (frameAt tm (t.depth - 1)) 8
    repeat' split
    all_goals simp_all

@[simp] theorem dropLine_mem (s : State) (k : ThreadKey) (line : Nat) : (dropLine s k line).mem = s.mem := rfl

@[simp] theorem stackFault_mem (s : State) (k : ThreadKey) (a : Nat) (m : Miss) (acc : Nat) :
    (stackFault s k a m acc).mem = s.mem := by
  simp only [stackFault]
  repeat' split
  all_goals simp

/-! ### Quanta and detector mode -/

@[simp] theorem leaveYield_mem (s : State) (id : TeamId) : (leaveYield s id).mem = s.mem := by simp [leaveYield]
@[simp] theorem completeYield_mem (s : State) (id : TeamId) : (completeYield s id).mem = s.mem := by
  fun_cases completeYield s id <;> simp
@[simp] theorem freeMats_mem (s : State) (id : TeamId) : (freeMats s id).mem = s.mem := rfl
@[simp] theorem startDrain_mem (s : State) (id : TeamId) : (startDrain s id).mem = s.mem := rfl
@[simp] theorem openTeam_mem (s : State) (id : TeamId) : (openTeam s id).mem = s.mem := by fun_cases openTeam s id <;> simp

@[simp] theorem openGroup_mem (s : State) (g : Nat × Nat) : (openGroup s g).mem = s.mem := by
  unfold openGroup
  split
  · rfl
  · simp only
    split
    · exact foldl_mem (f := fun s id => leaveWaiters s id _) (fun _ _ => leaveWaiters_mem ..) ..
    · rfl

@[simp] theorem openChecks_mem (s : State) (id : TeamId) : (openChecks s id).mem = s.mem := by
  fun_cases openChecks s id <;> simp

@[simp] theorem exitThread_mem (s : State) (k : ThreadKey) : (exitThread s k).mem = s.mem := by
  simp only [exitThread]
  repeat' split
  all_goals simp

@[simp] theorem dropCurrent_mem (s : State) : (dropCurrent s).mem = s.mem := rfl
@[simp] theorem openFocus_memOk {s : State} (s0 : State) (hs : s.memOk) : (openFocus s0 s).memOk := by
  unfold openFocus
  split <;> simp [hs]
@[simp] theorem mismatchFocus_mem (s0 s : State) : (mismatchFocus s0 s).mem = s.mem := by
  unfold mismatchFocus
  split <;> simp

theorem arriveAt_memOk {s : State} {g : Guard} {r : Run} {count : ThreadKey → State → State}
    (hc : ∀ k s, s.memOk → (count k s).memOk) (hs : s.memOk) : (arriveAt s g r count).memOk :=
  openFocus_memOk s <| memOk_of_mem_eq ((dropCurrent_mem _).trans (mismatchFocus_mem ..)) <|
    runLanes_memOk (fun k _ s hs => hc k s hs) hs

@[simp] theorem cmCounted_mem (s : State) (k : Bool × Nat × Nat) : (cmCounted s k).mem = s.mem := rfl

/-! ### Control -/

theorem inTeam_memOk {s : State} {k : ThreadKey} {f : Team → LaneOut} (hf : ∀ tm, (f tm).memOk) (hs : s.memOk) :
    (inTeam s k f).memOk := by
  unfold inTeam
  split
  exacts [hf _, hs]

@[simp] theorem branchThread_memOk {s : State} (k : ThreadKey) (target : Dword) (hs : s.memOk) :
    (branchThread s k target).memOk := by
  have ht := transfer_memOk k target hs
  fun_cases branchThread s k target <;> simp_all

@[simp] theorem runBrp_memOk {s : State} (g : Guard) (a tslot : BitVec 3) (disp : Word) (take : Nat → Nat → Bool)
    (hs : s.memOk) : (runBrp s g a tslot disp take).memOk := by
  simp only [runBrp]
  split
  · exact hs
  · split
    · simp [hs]
    · refine memOk_of_mem_eq (endIssue_mem ..) (foldl_memOk (fun s l hs => ?_) _ hs)
      split <;> simp [hs]

@[simp] theorem runJoin_mem (s : State) (sh : Shape) (mask : Vals → BitVec 64) : (runJoin s sh mask).mem = s.mem := by
  simp only [runJoin]
  split
  · rfl
  · split
    · rw [endIssue_mem]
      exact foldl_mem (fun _ _ => by simp) ..
    · rw [endIssue_mem, checkMismatch_mem]
      exact foldl_mem (fun _ _ => by repeat' split; all_goals simp) ..

/-! ### Tiles -/

@[simp] theorem setTileWord_mem (s : State) (c : CoreId) (i : Nat) (e : BitVec 64) : (setTileWord s c i e).mem = s.mem :=
  rfl
@[simp] theorem setTile_mem (s : State) (c : CoreId) (i : Nat) (t : Tile) : (setTile s c i t).mem = s.mem := rfl
@[simp] theorem setTileState_mem (s : State) (c : CoreId) (i st : Nat) : (setTileState s c i st).mem = s.mem := rfl
@[simp] theorem tileEvent_mem (s : State) (r : TileRef) (op : Nat) (desc : BitVec 64) :
    (tileEvent s r op desc).mem = s.mem := by
  fun_cases tileEvent s r op desc <;> simp

/-! ### The scratchpad -/

@[simp] theorem storeSp_memOk {s : State} (k : ThreadKey) (tm : Team) (n a : Nat) (v : Dword) (rel : Option Scope)
    (hs : s.memOk) : (storeSp s k tm n a v rel).memOk := by
  fun_cases storeSp s k tm n a v rel <;> simp [hs]

@[simp] theorem storeStk_memOk {s : State} (k : ThreadKey) (tm : Team) (n a : Nat) (v : Dword) (hs : s.memOk) :
    (storeStk s k tm n a v).memOk := by
  have hp := stackPut_mem s k a n (lowBytes n v)
  unfold storeStk
  repeat' split
  all_goals simp_all

@[simp] theorem satomDet_memOk {s : State} (k : ThreadKey) (tm : Team) (w : Bool) (d : BitVec 8) (op : AtomOp) (a : Nat)
    (b : Dword) (hs : s.memOk) : (satomDet s k tm w d op a b).memOk := by
  simp only [satomDet]
  split
  · trivial
  · split
    · exact hs
    · trivial
    · split
      · next h => exact putReg_memOk _ _ _ _ (memOk_of_mem_eq (mem_of_takeEntries h) hs)
      · trivial

@[simp] theorem satomNormal_memOk {s : State} (k : ThreadKey) (tm : Team) (w : Bool) (d : BitVec 8) (op : AtomOp) (a : Nat)
    (b : Dword) (hs : s.memOk) : (satomNormal s k tm w d op a b).memOk := by
  simp only [satomNormal]
  repeat' split
  all_goals simp [hs]

@[simp] theorem doTileEvent_memOk {s : State} (k : ThreadKey) (tm : Team) (m : BitVec 6) (op : Nat) (desc : BitVec 64)
    (hs : s.memOk) : (doTileEvent s k tm m op desc).memOk := by
  fun_cases doTileEvent s k tm m op desc <;> simp [hs]
@[simp] theorem initBarrier_memOk {s : State} (k : ThreadKey) (tm : Team) (a bytes arrivals : Nat) (hs : s.memOk) :
    (initBarrier s k tm a bytes arrivals).memOk := by
  fun_cases initBarrier s k tm a bytes arrivals <;> simp [hs]
@[simp] theorem waitBarrier_memOk {s : State} (k : ThreadKey) (tm : Team) (x : Nat) (hs : s.memOk) :
    (waitBarrier s k tm x).memOk := by
  fun_cases waitBarrier s k tm x <;> simp [hs]

/-! ### The Commons -/

@[simp] theorem loadCm_memOk {s : State} (k : ThreadKey) (tm : Team) (d : BitVec 8) (n : Nat) (sgn : Bool)
    (acq : Option Scope) (a : Nat) (hs : s.memOk) : (loadCm s k tm d n sgn acq a).memOk := by
  fun_cases loadCm s k tm d n sgn acq a <;> simp [hs]
@[simp] theorem storeCm_memOk {s : State} (k : ThreadKey) (tm : Team) (n a : Nat) (v : Dword) (rel : Option Scope)
    (hs : s.memOk) : (storeCm s k tm n a v rel).memOk := by
  fun_cases storeCm s k tm n a v rel <;> simp [hs]

theorem rmwCm_memOk {s : State} {k : ThreadKey} {tm : Team} {a n : Nat} {op : AccOp} {rel acq : Option Scope}
    {f : State → State} (hf : ∀ s, s.memOk → (f s).memOk) (hs : s.memOk) : (rmwCm s k tm a n op rel acq f).memOk := by
  unfold rmwCm
  repeat' split
  · trivial
  · trivial
  · exact hs
  · exact hf _ (by simpa using hs)

@[simp] theorem noteFence_mem (s : State) (h : HandKey) (n : Nat) (rel : Option Scope) :
    (noteFence s h n rel).mem = s.mem := by
  unfold noteFence; split <;> simp
@[simp] theorem dropFence_mem (s : State) (h : HandKey) (n : Nat) (rel : Option Scope) :
    (dropFence s h n rel).mem = s.mem := by
  unfold dropFence; split <;> simp

@[simp] theorem fenceThread_memOk {s : State} (g : Guard) (rel : Option Scope) (done : State → HandKey → Nat → Bool)
    (hs : s.memOk) : (fenceThread s g rel done).memOk := by
  refine runLanes_memOk (fun k _ s hs => inTeam_memOk (fun tm => ?_) hs) hs
  simp only
  repeat' split
  all_goals simp [hs]

@[simp] theorem producerFault_mem (s : State) (k : ThreadKey) (iaddr : Dword) (f : FaultInfo) :
    (producerFault s k iaddr f).mem = s.mem := by
  fun_cases producerFault s k iaddr f <;> simp
@[simp] theorem freeColl_mem (s : State) (c : CoreId) (slot gen : Nat) : (freeColl s c slot gen).mem = s.mem := rfl
@[simp] theorem fillThread_mem (s : State) (k : ThreadKey) (fl : Fill) (v : FaultInfo ⊕ Dword) :
    (fillThread s k fl v).mem = s.mem := by
  fun_cases fillThread s k fl v <;> simp

/-! ### Tile data -/

@[simp] theorem MOp.put_memOk (o : MOp) {s : State} (i j v : Nat) (hs : s.memOk) : (MOp.put o s i j v).memOk := by
  simp [MOp.put, hs]
@[simp] theorem MOp.enliven_memOk (o : MOp) {s : State} (i : Nat) (hs : s.memOk) : (MOp.enliven o s i).memOk := by
  unfold MOp.enliven; split <;> simp [hs]

/-! ### Copy channels -/

@[simp] theorem setChain_mem (s : State) (c : ChanId) (x : Chain) : (setChain s c x).mem = s.mem := rfl
@[simp] theorem modRec_mem (s : State) (c : ChanId) (n : Nat) (f : Rec → Rec) : (modRec s c n f).mem = s.mem := rfl
@[simp] theorem chanFault_mem (s : State) (c : ChanId) (id : TeamId) (off : Nat) (f : FaultInfo) (wait : Bool) (page : Nat) :
    (chanFault s c id off f wait page).mem = s.mem := by
  simp [chanFault]
@[simp] theorem UnitLine.count_mem (l : UnitLine) (s : State) (fn : Nat) : (UnitLine.count l s fn).mem = s.mem :=
  foldl_mem (fun _ _ => by simp) ..
@[simp] theorem sendLine_mem (s : State) (w : Asker) (rop : Option Nat) (how : SendAs) (l : UnitLine) :
    (sendLine s w rop how l).mem = s.mem := by
  simp only [sendLine]; split <;> simp

theorem mem_of_sendRanges {s t : State} {w : Asker} {rop : Option Nat} {vs : List VRange} {ids : List Nat}
    (h : sendRanges s w rop vs = .ok (t, ids)) : t.mem = s.mem := by
  simp only [sendRanges] at h
  split at h
  · cases h
  · cases h
    exact foldl_mem (f := fun s l => sendLine s w rop _ l) (fun _ _ => sendLine_mem ..) ..

@[simp] theorem dropAnswers_mem (s : State) (ids : List Nat) : (dropAnswers s ids).mem = s.mem := rfl
@[simp] theorem updateQ_mem (s : State) (id : TeamId) (no : Nat) : (updateQ s id no).mem = s.mem := by
  fun_cases updateQ s id no <;> simp
@[simp] theorem acceptRec_mem (s : State) (c : ChanId) (id : TeamId) (tm : Team) (off : Nat) :
    (acceptRec s c id tm off).1.mem = s.mem := by
  fun_cases acceptRec s c id tm off <;> simp
@[simp] theorem closeChain_mem (s : State) (c : ChanId) : (closeChain s c).mem = s.mem := by
  fun_cases closeChain s c <;> simp

@[simp] theorem kickChain_mem (s : State) (k : ThreadKey) (c : ChanId) (tm : Team) (off : Nat) :
    (kickChain s k c tm off).mem = s.mem := by
  simp only [kickChain]
  repeat' split
  all_goals simp

@[simp] theorem dropUnstarted_mem (s : State) (id : TeamId) (rs : List Rec) : (dropUnstarted s id rs).mem = s.mem :=
  foldl_mem (fun _ _ => by split <;> simp) ..
@[simp] theorem dropQueued_mem (s : State) (c : ChanId) (id : TeamId) : (dropQueued s c id).mem = s.mem := by
  simp [dropQueued]

@[simp] theorem stopChan_mem (s : State) (c : ChanId) (id : TeamId) : (stopChan s c id).mem = s.mem := by
  simp only [stopChan]
  repeat' split
  all_goals simp

theorem onJobs_memOk {s : State} {c : ChanId} {f : State → State} (hf : ∀ s, s.memOk → (f s).memOk) (hs : s.memOk) :
    (onJobs s c f).memOk := by
  have all : ∀ (js : List Job) (r : State × List Job), r.1.memOk → (js.foldl (fun (r : State × List Job) j =>
      let s2 := f (r.1.modChan c fun ch => { ch with run := some j })
      (s2, r.2 ++ (s2.chan c).run.toList)) r).1.memOk := by
    intro js
    induction js with
    | nil => exact fun _ hr => hr
    | cons j js ih => exact fun r hr => ih _ (hf _ hr)
  exact all _ (f s, []) (hf s hs)

@[simp] theorem nextJob_mem (s : State) (c : ChanId) : (nextJob s c).mem = s.mem := by fun_cases nextJob s c <;> simp

@[simp] theorem acceptNext_mem (s : State) (c : ChanId) : (acceptNext s c).mem = s.mem := by
  simp only [acceptNext]
  repeat' split
  all_goals simp

@[simp] theorem callLanded_memOk {s : State} (id : TeamId) (bb n : Nat) {poisoned : FaultInfo → State}
    (hp : ∀ f, (poisoned f).memOk) (hs : s.memOk) : (callLanded s id bb n poisoned).memOk := by
  unfold callLanded
  split
  · exact hp _
  · exact landed_memOk _ _ _ _ hs

@[simp] theorem landedCall_memOk {s : State} (c : ChanId) (id : TeamId) (r : Rec) (n : Nat) (hs : s.memOk) :
    (landedCall s c id r n).memOk := by
  simp [landedCall, hs]
@[simp] theorem countLanded_memOk {s : State} (c : ChanId) (id : TeamId) (r : Rec) (n : Nat) (hs : s.memOk) :
    (countLanded s c id r n).memOk := by
  unfold countLanded; split <;> simp [hs]
@[simp] theorem startBad_mem (s : State) (c : ChanId) (x : Chain) (n : Nat) (r : Rec) :
    (startBad s c x n r).mem = s.mem := by
  unfold startBad; split <;> simp

@[simp] theorem startLost_memOk {s : State} (c : ChanId) (x : Chain) (n : Nat) (r : Rec) (f : FaultInfo) (hs : s.memOk) :
    (startLost s c x n r f).memOk := by
  simp only [startLost]
  split
  · split <;> simp [hs]
  · exact foldl_memOk (fun _ _ hs => countLanded_memOk _ _ _ _ hs) _ (by split <;> simp [hs])

@[simp] theorem startGood_mem (s : State) (c : ChanId) (x : Chain) (n : Nat) (r : Rec) (tm : Team) :
    (startGood s c x n r tm).mem = s.mem := by
  simp only [startGood]
  repeat' split
  all_goals simp

@[simp] theorem startRec_memOk {s : State} (c : ChanId) (x : Chain) (n : Nat) (r0 : Rec) (tm : Team) (hs : s.memOk) :
    (startRec s c x n r0 tm).memOk := by
  simp only [startRec]
  repeat' split
  all_goals simp [hs]

@[simp] theorem settleUnit_memOk {s : State} (c : ChanId) (x : Chain) (n : Nat) (r : Rec) (u : Nat) (gone : Bool)
    (hs : s.memOk) : (settleUnit s c x n r u gone).memOk := by
  simp only [settleUnit]
  repeat' split
  all_goals simp [hs]

@[simp] theorem abandonUnit_memOk {s : State} (c : ChanId) (x : Chain) (n : Nat) (r : Rec) (u : Nat) (f : FaultInfo)
    (hs : s.memOk) : (abandonUnit s c x n r u f).memOk := by
  simp [abandonUnit, hs]

@[simp] theorem unitWaits_mem (s : State) (c : ChanId) (x : Chain) (n : Nat) (r : Rec) (u fn : Nat) (m : Miss) :
    (unitWaits s c x n r u fn m).mem = s.mem := by
  simp only [unitWaits]
  repeat' split
  all_goals simp

@[simp] theorem tryUnit_memOk {s : State} (c : ChanId) (x : Chain) (n : Nat) (r : Rec) (tm : Team) (u : Nat) (hs : s.memOk) :
    (tryUnit s c x n r tm u).memOk := by
  have hok : ∀ {s1 : State} {ids : List Nat}, sendRanges s (chanAsker c tm) r.rop (r.unitRanges s x.team tm u) = .ok (s1, ids) →
      (modRec s1 c n fun r => { r with reqs := aset u ids r.reqs }).memOk :=
    fun h => memOk_of_mem_eq ((modRec_mem ..).trans (mem_of_sendRanges h)) hs
  simp only [tryUnit]
  split
  · trivial
  · split
    · trivial
    · split
      · trivial
      · split
        · simp [hs]
        · split
          · trivial
          · split
            · trivial
            · next h => exact hok h

@[simp] theorem performUnit_memOk {s : State} (c : ChanId) (x : Chain) (n : Nat) (r : Rec) (tm : Team) (u : Nat)
    (first : Bool) (hs : s.memOk) : (performUnit s c x n r tm u first).memOk := by
  have h0 : (if first = true then modRec s c n fun r => { r with issued := u + 1 } else s).memOk := by split <;> simp [hs]
  have ht := tryUnit_memOk c x n r tm u h0
  simp only [performUnit]
  generalize (if first = true then modRec s c n fun r => { r with issued := u + 1 } else s) = s0 at h0 ht ⊢
  split
  · simp_all
  · split
    · simp_all
    · split <;> assumption
    · simp_all
    · split <;> simp_all

@[simp] theorem issueMore_memOk (c : ChanId) (n : Nat) : ∀ (k : Nat) {s : State}, s.memOk → (issueMore c n k s).memOk
  | 0, _, hs => hs
  | k + 1, s, hs => by
    unfold issueMore
    split
    · exact hs
    · split
      · split
        · exact issueMore_memOk c n k (performUnit_memOk _ _ _ _ _ _ _ hs)
        · exact hs
      · exact hs

@[simp] theorem Rec.putScale_memOk (r : Rec) (id : TeamId) (tm : Team) {s : State} (k : Nat) (b : Option Nat)
    (hs : s.memOk) : (Rec.putScale r id tm s k b).memOk := by
  unfold Rec.putScale; split <;> simp [hs]
@[simp] theorem Rec.writeGroup_memOk (r : Rec) (id : TeamId) (tm : Team) {s : State} (k : Nat) (hs : s.memOk) :
    (r.writeGroup id tm s k).memOk :=
  MOp.enliven_memOk _ _ (Rec.putScale_memOk _ _ _ _ _ (foldl_memOk (fun _ _ hs => MOp.put_memOk _ _ _ _ hs) _ hs))

@[simp] theorem finishConvert_memOk {s : State} (c : ChanId) (x : Chain) (n : Nat) (r : Rec) (tm : Team) (u : Nat)
    (hs : s.memOk) : (finishConvert s c x n r tm u).memOk := by
  simp only [finishConvert]
  split
  · exact settleUnit_memOk _ _ _ _ _ _ (foldl_memOk (fun _ _ hs => Rec.writeGroup_memOk _ _ _ _ hs) _ hs)
  · split
    · exact settleUnit_memOk _ _ _ _ _ _ hs
    · split
      · exact foldl_memOk (fun _ _ hs => settleUnit_memOk _ _ _ _ _ _ hs) _ (by simpa using hs)
      · exact settleUnit_memOk _ _ _ _ _ _ (foldl_memOk (fun _ _ hs => Rec.putScale_memOk _ _ _ _ _ hs) _ (by simp [hs]))

@[simp] theorem landConvert_memOk {s : State} (c : ChanId) (x : Chain) (n : Nat) (r : Rec) (tm : Team) (u : Nat)
    (data : List Byte) (hs : s.memOk) : (landConvert s c x n r tm u data).memOk := by
  simp only [landConvert]
  repeat' split
  all_goals simp [hs]

@[simp] theorem landUnit_memOk {s : State} (r : Rec) (id : TeamId) (tm : Team) (u : Nat) (data : List Byte) (hs : s.memOk) :
    (landUnit s r id tm u data).memOk := by
  unfold landUnit; split <;> simp [hs]
@[simp] theorem settleDone_memOk {s : State} (c : ChanId) (x : Chain) (n : Nat) (r : Rec) (tm : Team) (u : Nat)
    (data : List Byte) (hs : s.memOk) : (settleDone s c x n r tm u data).memOk := by
  fun_cases settleDone s c x n r tm u data <;> simp [hs]
@[simp] theorem settleNow_memOk {s : State} (c : ChanId) (x : Chain) (n : Nat) (r : Rec) (tm : Team) (u : Nat)
    (hs : s.memOk) : (settleNow s c x n r tm u).memOk := by
  fun_cases settleNow s c x n r tm u <;> simp [hs]

@[simp] theorem replayUnits_memOk (c : ChanId) (n : Nat) : ∀ (us : List Nat) {s : State}, s.memOk →
    (replayUnits c n us s).memOk
  | [], _, hs => hs
  | u :: us, s, hs => by
    unfold replayUnits
    split
    · exact hs
    · split
      · split
        · exact hs
        · exact replayUnits_memOk c n us (performUnit_memOk _ _ _ _ _ _ _ hs)
      · exact hs

@[simp] theorem endRec_memOk {s : State} (c : ChanId) (id : TeamId) (tm : Team) (r : Rec) (hs : s.memOk) :
    (endRec s c id tm r).memOk := by
  simp only [endRec]
  repeat' split
  all_goals simp [hs]

@[simp] theorem recOver_mem (s : State) (c : ChanId) (x : Chain) : (recOver s c x).mem = s.mem := by simp [recOver]

@[simp] theorem refuseUnits_memOk {s : State} (fn page : Nat) (hs : s.memOk) : (refuseUnits s fn page).memOk := by
  refine foldl_memOk (fun s e hs => onJobs_memOk (fun s hs => ?_) hs) _ hs
  split
  · exact hs
  · refine foldl_memOk (fun s n hs => ?_) _ hs
    split
    · split
      · exact hs
      · refine foldl_memOk (fun s u hs => ?_) _ hs
        repeat' split
        all_goals simp [hs]
    · exact hs

/-! ### Bags -/

@[simp] theorem sendBag_mem (s : State) (k : ThreadKey) (fn : Nat) (h : Word) (ask : BagAsk) :
    (sendBag s k fn h ask).1.mem = s.mem :=
  rfl
@[simp] theorem bagAccepted_mem (s : State) (r : BagReq) : (bagAccepted s r).mem = s.mem := rfl
@[simp] theorem dropReq_mem (s : State) (r : BagReq) : (dropReq s r).mem = s.mem := rfl

theorem askAndWait_memOk {s : State} {k : ThreadKey} {send : State → State × Nat} {done : Answer → State → LaneOut}
    (hsend : ∀ s, (send s).1.mem = s.mem) (hd : ∀ a s, s.memOk → (done a s).memOk) (hs : s.memOk) :
    (askAndWait s k send done).memOk := by
  unfold askAndWait
  split
  · exact hs
  · split
    · simp [hs, hsend]
    · split
      · exact hs
      · split
        · trivial
        · exact hd _ _ (by simpa using hs)

theorem withBag_memOk {s : State} {tm : Team} {v : Dword} {f : Bag → LaneOut} (hf : ∀ b, (f b).memOk) :
    (withBag s tm v f).memOk := by
  unfold withBag
  repeat' split
  · trivial
  · trivial
  · exact hf _

@[simp] theorem countBag_memOk {s : State} (g : Guard) (d : BitVec 8) (pair : Bool) (a : Src) (b : Opnd)
    (ask : Nat → BagAsk) (hs : s.memOk) : (countBag s g d pair a b ask).memOk := by
  refine runLanes_memOk (fun k v s hs => inTeam_memOk (fun tm => withBag_memOk fun _ => ?_) hs) hs
  split <;> simp [hs]

theorem replyBag_memOk {s : State} {k : ThreadKey} {tm : Team} {h : Word} {ask : BagAsk} {done : Answer → State → LaneOut}
    (hd : ∀ a s, s.memOk → (done a s).memOk) (hs : s.memOk) : (replyBag s k tm h ask done).memOk := by
  unfold replyBag
  split
  · exact hs
  · exact askAndWait_memOk (fun _ => sendBag_mem ..) hd hs

theorem waitBag_memOk {s : State} {k : ThreadKey} {tm : Team} {v : Dword} {ask : BagAsk} {done : Answer → State → LaneOut}
    (hd : ∀ a s, s.memOk → (done a s).memOk) (hs : s.memOk) : (waitBag s k tm v ask done).memOk := by
  unfold waitBag
  split
  · exact replyBag_memOk hd hs
  · exact withBag_memOk fun _ => replyBag_memOk hd hs

@[simp] theorem runFault_mem (s : State) (r : NbRun) (f : FaultInfo) (wait : Bool) (page : Nat) :
    (runFault s r f wait page).mem = s.mem := by
  simp [runFault]
@[simp] theorem runLanded_memOk {s : State} (r : NbRun) (n : Nat) (hs : s.memOk) : (runLanded s r n).memOk := by
  simp [runLanded, hs]
@[simp] theorem rowLanded_memOk {s : State} (n : Nat) (hs : s.memOk) : (rowLanded s n).memOk := by
  fun_cases rowLanded s n <;> simp [hs]
@[simp] theorem modUnit_mem (s : State) (n p : Nat) (f : UnitRun → UnitRun) : (modUnit s n p f).mem = s.mem := rfl

theorem iter_memOk {f : State → State} (hf : ∀ s, s.memOk → (f s).memOk) : ∀ (n : Nat) {s : State}, s.memOk →
    (iter f n s).memOk
  | 0, _, hs => hs
  | n + 1, _, hs => iter_memOk hf n (hf _ hs)

@[simp] theorem payOwed_memOk {s : State} (n p : Nat) (hs : s.memOk) : (payOwed s n p).memOk := by
  unfold payOwed
  split
  · split
    · exact iter_memOk (fun s hs => rowLanded_memOk n hs) _ (by simpa using hs)
    · exact hs
  · exact hs

@[simp] theorem emitAnswered_memOk {s : State} (n p : Nat) (ok : Bool) (hs : s.memOk) : (emitAnswered s n p ok).memOk := by
  simp [emitAnswered, hs]
@[simp] theorem putResult_mem (s : State) (r : BagReq) (d : BitVec 8) (w : FillWhat) : (putResult s r d w).mem = s.mem :=
  rfl
@[simp] theorem putNote_mem (s : State) (r : BagReq) (f : FaultInfo) : (putNote s r f).mem = s.mem := by simp [putNote]
@[simp] theorem arbitratePut_mem (s : State) (r : BagReq) (x : Nat) (d : BitVec 8) (kept : Option (List Byte)) :
    (arbitratePut s r x d kept).mem = s.mem := by
  fun_cases arbitratePut s r x d kept <;> simp

@[simp] theorem arbitrateEmit_memOk {s : State} (r : BagReq) (n p : Nat) (bytes : List Byte) (hs : s.memOk) :
    (arbitrateEmit s r n p bytes).memOk := by
  simp only [arbitrateEmit]
  repeat' split
  all_goals simp [hs]

@[simp] theorem queueTake_mem (s : State) (c : ChanId) (r : BagReq) (b : BagId) (w off rsize : Nat) (cs : List Claim) :
    (queueTake s c r b w off rsize cs).mem = s.mem :=
  rfl

@[simp] theorem claimTake_memOk {s : State} (r : BagReq) (c : ChanId) (block : BitVec 128) (off : Nat) (d : BitVec 8)
    (hs : s.memOk) : (claimTake s r c block off d).memOk := by
  simp only [claimTake]
  repeat' split
  all_goals simp [hs]

@[simp] theorem clearSlot_mem (s : State) (b : BagId) (row slot : Nat) : (clearSlot s b row slot).mem = s.mem := rfl
@[simp] theorem closeTake_mem (s : State) (c : ChanId) : (closeTake s c).mem = s.mem := by fun_cases closeTake s c <;> simp

@[simp] theorem landTake_memOk {s : State} (c : ChanId) (t : TakeJob) (x : Claim) (hs : s.memOk) :
    (landTake s c t x).memOk := by
  simp only [landTake]
  repeat' split
  all_goals simp [hs]

@[simp] theorem takePlaces_mem (s : State) (n : Nat) (ps : List Nat) : (takePlaces s n ps).mem = s.mem :=
  foldl_mem (fun _ _ => by simp) ..
@[simp] theorem replyTo_mem (s : State) (r : BagReq) (a : Answer) : (replyTo s r a).mem = s.mem := rfl

@[simp] theorem acceptIter_mem (s : State) (r : BagReq) (b : BagId) (bg : Bag) (cut off : Nat) :
    (acceptIter s r b bg cut off).mem = s.mem := by
  simp only [acceptIter]
  repeat' split
  all_goals simp

@[simp] theorem acceptQuery_mem (s : State) (r : BagReq) : (acceptQuery s r).mem = s.mem := by
  simp only [acceptQuery]
  repeat' split
  all_goals simp

@[simp] theorem finishWait_mem (s : State) (r : BagReq) (n : Nat) : (finishWait s r n).mem = s.mem := by
  fun_cases finishWait s r n <;> simp

theorem mem_of_make {s s0 t : State} {fn desc row v : Nat} {h : Word} (e : createBag.make s fn desc row s0 v = some (t, h)) :
    t.mem = s0.mem := by
  simp only [createBag.make] at e
  split at e
  · cases e
  · split at e
    · cases e
    · split at e
      · cases e
      · split at e
        · cases e
        · cases e; rfl

theorem mem_of_createBag {s t : State} {fn desc row : Nat} {h : Word} (e : createBag s fn desc row = .ok (some (t, h))) :
    t.mem = s.mem := by
  unfold createBag at e
  split at e
  · cases e
  · next hr =>
    simp only [Except.ok.injEq] at e
    exact (mem_of_make e).trans (mem_of_virtRead hr)

@[simp] theorem removeBag_mem (s : State) (b : BagId) (bg : Bag) : (removeBag s b bg).mem = s.mem := rfl

@[simp] theorem commitThread_memOk (id : TeamId) {r : State × Bool} (k : ThreadKey) (hr : r.1.memOk) :
    (commitThread id r k).1.memOk := by
  simp only [commitThread]
  repeat' split
  all_goals simp_all

@[simp] theorem commitStores_memOk {s : State} (id : TeamId) (hs : s.memOk) : (commitStores s id).1.memOk := by
  have all : ∀ (ks : List ThreadKey) (r : State × Bool), r.1.memOk → (ks.foldl (commitThread id) r).1.memOk := by
    intro ks
    induction ks with
    | nil => exact fun _ hr => hr
    | cons k ks ih => exact fun r hr => ih _ (commitThread_memOk id k hr)
  exact all _ (s, true) hs

@[simp] theorem commitEvents_mem (id : TeamId) : ∀ (es : List (Nat × DetEntry)) (s : State),
    (commitEvents id es s).1.mem = s.mem
  | [], _ => rfl
  | (h, e) :: rest, s => by
    simp only [commitEvents]
    repeat' split
    all_goals simp [commitEvents_mem id rest]

@[simp] theorem commitPuts_mem (id : TeamId) (s : State) (k : ThreadKey) : (commitPuts id s k).mem = s.mem := by
  unfold commitPuts
  split
  · exact foldl_mem (fun _ _ => sendBag_mem ..) ..
  · rfl

@[simp] theorem readyTricks_mem (s : State) (id : TeamId) (tm : Team) : (readyTricks s id tm).mem = s.mem := by
  rw [readyTricks, State.modTeam_mem]
  refine foldl_mem (fun _ _ => ?_) ..
  repeat' split
  all_goals simp

@[simp] theorem endCommit_mem (s : State) (id : TeamId) (tm : Team) : (endCommit s id tm).mem = s.mem := by
  have hf : ((teamHands s id).foldl (fun s h => s.modHand h fun hd => { hd with detBuf := [], trick := false }) s).mem = s.mem :=
    foldl_mem (fun _ _ => State.modHand_mem ..) ..
  simp only [endCommit]
  repeat' split
  all_goals simp [hf]

/-! ### Near-bank runs -/

@[simp] theorem closeRun_mem (s : State) (n : Nat) : (closeRun s n).mem = s.mem := by fun_cases closeRun s n <;> simp
@[simp] theorem skipRow_memOk {s : State} (n : Nat) (hs : s.memOk) : (skipRow s n).memOk := by simp [skipRow, hs]
@[simp] theorem rowWaits_mem (s : State) (n : Nat) (r : NbRun) (i k : Nat) (m : Miss) :
    (rowWaits s n r i k m).mem = s.mem := by
  fun_cases rowWaits s n r i k m <;> simp
@[simp] theorem acceptRow_memOk (n : Nat) {s : State} (i : Nat) (hs : s.memOk) : (acceptRow n s i).memOk := by
  fun_cases acceptRow n s i <;> simp [hs]
@[simp] theorem runAccepted_mem (s : State) (r : NbRun) : (runAccepted s r).mem = s.mem := rfl
@[simp] theorem answerRun_mem (s : State) (n : Nat) (a : Answer) : (answerRun s n a).mem = s.mem := rfl

@[simp] theorem placeRow_memOk {s : State} (n i : Nat) (r : NbRun) (ls : List (Option Nat)) (hs : s.memOk) :
    (placeRow s n i r ls).memOk := by
  simp only [placeRow]
  repeat' split
  all_goals simp [hs]

@[simp] theorem beginRow_mem (s : State) (p m : Nat) (r : NbRun) : (beginRow s p m r).mem = s.mem := rfl

@[simp] theorem startIterRow_mem (s : State) (n p : Nat) (r : NbRun) : (startIterRow s n p r).mem = s.mem := by
  simp only [startIterRow]
  repeat' split
  all_goals simp

@[simp] theorem rowsOver_memOk {s : State} (n p : Nat) (done skip : Nat) (hs : s.memOk) :
    (rowsOver s n p done skip).memOk := by
  simp [rowsOver, hs]
@[simp] theorem stopUnit_memOk {s : State} (p code : Nat) (hs : s.memOk) : (stopUnit s p code).memOk := by
  unfold stopUnit; split <;> simp [hs]

@[simp] theorem writeStatus_memOk {s : State} (n : Nat) (r : NbRun) (hs : s.memOk) : (writeStatus s n r).memOk := by
  simp only [writeStatus]
  repeat' split
  all_goals simp [hs]

@[simp] theorem payCalls_memOk {s : State} (n : Nat) (r : NbRun) (hs : s.memOk) : (payCalls s n r).memOk :=
  memOk_of_mem_eq (closeRun_mem ..) (iter_memOk (fun _ hs => runLanded_memOk r 1 hs) _ hs)

@[simp] theorem Req.put_memOk (q : Req) {s : State} (bs : List Byte) (hs : s.memOk) : (q.put s bs).memOk := by
  have all : ∀ (ps : List (Nat × Nat × Nat)) (r : State × List Byte), r.1.memOk → (ps.foldl (fun (r : State × List Byte) p =>
      (placeWrite r.1 (.dram p.2.1 q.dirty) (r.2.take p.2.2), r.2.drop p.2.2)) r).1.memOk := by
    intro ps
    induction ps with
    | nil => exact fun _ hr => hr
    | cons p ps ih => exact fun r hr => ih _ (placeWrite_memOk _ _ hr)
  exact all _ (s, bs) hs

@[simp] theorem performReq_memOk {s : State} (q : Req) (hs : s.memOk) : (performReq s q).memOk := by
  simp only [performReq]
  generalize (if (q.write.isSome && q.rop.isNone) = true then none else q.poison s) = bad
  split
  · exact memOk_of_mem_eq (foldl_mem (f := fun s (p : Nat × Nat × Nat) => notePoisonAt s q.who.1 (locOf p.2.1) p.2.2)
      (fun _ _ => notePoisonAt_mem ..) _ _) hs
  · exact Req.put_memOk q _ hs
  · exact hs

@[simp] theorem serveNth_memOk (p n : Nat) {s : State} (hs : s.memOk) : (serveNth p n s).memOk := by
  fun_cases serveNth p n s <;> simp [hs]

/-! ### Work trees -/

@[simp] theorem signal_mem (s : State) (fn vec : Nat) : (signal s fn vec).mem = s.mem := by
  fun_cases signal s fn vec <;> simp
@[simp] theorem reply_mem (s : State) (fn status : Nat) : (reply s fn status).mem = s.mem := by simp [reply]
@[simp] theorem replyOpen_mem (s : State) (fn : Nat) : (replyOpen s fn).mem = s.mem := by simp [replyOpen]

theorem memOk_of_writeRw {s t : State} {fn addr : Nat} {data : BitVec 1024} (h : writeRw s fn addr data = .ok t)
    (hs : s.memOk) : t.memOk := by
  simp only [writeRw] at h
  split at h
  · cases h
  · split at h
    · cases h
    · next h1 => exact memOk_of_virtWrite h (memOk_of_virtWrite h1 hs)

@[simp] theorem dropSweep_mem (s : State) (die fn addr : Nat) : (dropSweep s die fn addr).mem = s.mem := rfl
@[simp] theorem refuseSweep_mem (s : State) (die : Nat) (w : Sweep) (code va : Nat) :
    (refuseSweep s die w code va).mem = s.mem := by
  simp [refuseSweep]

@[simp] theorem sweepMiss_mem (s : State) (die : Nat) (w : Sweep) (m : Miss) : (sweepMiss s die w m).mem = s.mem := by
  simp only [sweepMiss]
  repeat' split
  all_goals simp

@[simp] theorem writeBack_memOk {s : State} (fn die : Nat) (n by_ : Node) (hs : s.memOk) :
    (writeBack s fn die n by_).memOk := by
  simp only [writeBack]
  split
  · next h => simpa using memOk_of_writeRw h hs
  · simp [hs]

@[simp] theorem touchNode_mem (s : State) (q a : Nat) (f : Node → Node) : (touchNode s q a f).mem = s.mem := rfl

@[simp] theorem setNode_memOk {s : State} (q a by_ : Nat) (f : Node → Node) (hs : s.memOk) :
    (setNode s q a by_ f).memOk := by
  simp only [setNode]
  repeat' split
  all_goals simp [hs]

@[simp] theorem readyNode_memOk : ∀ (fuel q by_ a : Nat) {s : State}, s.memOk → (readyNode fuel q by_ a s).memOk
  | 0, _, _, _, _, hs => hs
  | fuel + 1, q, by_, a, s, hs => by
    simp only [readyNode]
    split
    · exact hs
    · split
      · exact hs
      · split
        · exact foldl_memOk (fun _ c hs => readyNode_memOk fuel q by_ c.addr hs) _ (setNode_memOk _ _ _ _ hs)
        · exact setNode_memOk _ _ _ _ hs

@[simp] theorem decrement_memOk {s : State} (q by_ a : Nat) (hs : s.memOk) : (decrement s q by_ a).memOk := by
  simp only [decrement]
  repeat' split
  all_goals simp [hs]

@[simp] theorem endTree_mem (s : State) (q : Nat) : (endTree s q).mem = s.mem := rfl

@[simp] theorem completeNode_memOk : ∀ (fuel q a : Nat) {s : State}, s.memOk → (completeNode fuel q a s).memOk
  | 0, _, _, _, hs => hs
  | fuel + 1, q, a, s, hs => by
    simp only [completeNode]
    split
    · exact hs
    · split
      · exact hs
      · next n _ =>
        have h2 := foldl_memOk (fun _ b hs => decrement_memOk q a b hs) n.succ
          (setNode_memOk q a a (fun n => { n with state := 4 }) hs)
        split
        · simpa using h2
        · split
          · exact h2
          · split
            · exact completeNode_memOk fuel q n.parent h2
            · exact h2

theorem mem_of_readNode {s t : State} {fn a : Nat} {w : BitVec 5120} (h : readNode s fn a = .ok (t, w)) :
    t.mem = s.mem := by
  unfold readNode at h
  split at h
  · cases h
  · next h1 =>
    split at h
    · split at h
      · cases h
      · next h2 => cases h; exact (mem_of_virtRead h2).trans (mem_of_virtRead h1)
    · cases h; exact mem_of_virtRead h1

theorem visit_memOk (fn : Nat) (known : List Node) : ∀ (fuel : Nat) {s : State} (vs : List Visit)
    (out : List Node), s.memOk → (visit fn known fuel s vs out).memOk
  | 0, _, _, _, hs => hs
  | _ + 1, _, [], _, hs => hs
  | fuel + 1, s, v :: rest, out, hs => by
    unfold visit
    split
    · exact visit_memOk fn known fuel _ _ hs
    · split
      · exact visit_memOk fn known fuel _ _ hs
      · split
        · exact hs
        · next h => exact visit_memOk fn known fuel _ _ (memOk_of_mem_eq (mem_of_readNode h) hs)

theorem mem_of_entryReads {s t : State} {fn : Nat} {n : Node} {b : Bool} (h : entryReads s fn n = .ok (t, b)) :
    t.mem = s.mem := by
  unfold entryReads at h
  split at h
  · cases h; rfl
  · split at h
    · cases h
    · next h1 => cases h; exact mem_of_virtRead h1

theorem mem_of_succReads {s t : State} {fn : Nat} {n : Node} {ss : List Nat} (h : succReads s fn n = .ok (t, ss)) :
    t.mem = s.mem := by
  unfold succReads at h
  split at h
  · cases h
  · next h1 => cases h; exact mem_of_virtRead h1

theorem mem_of_checkEntry {s t : State} {fn : Nat} {n : Node} {r : Option Nat} (h : checkEntry s fn n = .ok (t, r)) :
    t.mem = s.mem := by
  unfold checkEntry at h
  split at h
  · cases h; rfl
  · split at h
    · split at h
      · cases h
      · next h1 => cases h; exact mem_of_entryReads h1
    · cases h; rfl

theorem checkNodes_memOk (fn : Nat) (all : List Node) : ∀ {s : State} (out ns : List Node), s.memOk →
    (checkNodes fn all s out ns).memOk
  | _, _, [], hs => hs
  | s, out, n :: rest, hs => by
    unfold checkNodes
    split
    · exact hs
    · split
      · exact checkNodes_memOk fn all _ rest hs
      · split
        · exact hs
        · next h1 => exact memOk_of_mem_eq (mem_of_checkEntry h1) hs
        · next h1 =>
          have h1 := memOk_of_mem_eq (mem_of_checkEntry h1) hs
          split
          · exact h1
          · next h2 =>
            have h2 := memOk_of_mem_eq (mem_of_succReads h2) h1
            split
            · exact checkNodes_memOk fn all _ rest h2
            · exact h2

@[simp] theorem refuseTree_memOk {s : State} (q : Nat) (nodes : List Node) (blame : Option Nat) (reason : Nat)
    (hs : s.memOk) : (refuseTree s q nodes blame reason).memOk := by
  simp only [refuseTree]
  repeat' split
  all_goals simp [hs]

@[simp] theorem validationMiss_memOk {s : State} (q : Nat) (t : Tree) (nodes : List Node) (blame : Option Nat) (m : Miss)
    (hs : s.memOk) : (validationMiss s q t nodes blame m).memOk := by
  simp only [validationMiss]
  repeat' split
  all_goals simp [hs]

@[simp] theorem checkTree_memOk {s : State} (t : Tree) (hs : s.memOk) : (checkTree s t).memOk := by
  unfold checkTree
  split
  · split
    · next h => exact memOk_of_mem_eq (mem_of_readNode h) hs
    · exact hs
  · have hv := visit_memOk t.func t.nodes (2 ^ 64) [⟨t.root, 0, 0, none, t.tmpl⟩] [] hs
    split
    · next h => exact checkNodes_memOk _ _ _ _ (by rw [h] at hv; exact hv)
    · exact hv

@[simp] theorem validate_memOk {s : State} (q : Nat) (hs : s.memOk) : (validate s q).memOk := by
  unfold validate
  split
  · exact hs
  · next t _ =>
    have hc := checkTree_memOk t hs
    split
    · exact hs
    · split <;> simp_all

@[simp] theorem refuseRead_memOk {s : State} (q : Nat) (hs : s.memOk) : (refuseRead s q).memOk := by
  unfold refuseRead
  repeat' split
  all_goals simp [hs]

@[simp] theorem takeRoot_memOk {s : State} (q root : Nat) (u : Queue) (tw : BitVec 5120) (hs : s.memOk) :
    (takeRoot s q root u tw).memOk := by
  simp [takeRoot, hs]

@[simp] theorem queueMiss_mem (s : State) (q : Nat) (u : Queue) (m : Miss) : (queueMiss s q u m).mem = s.mem := by
  simp only [queueMiss]
  repeat' split
  all_goals simp

@[simp] theorem signalOwed_mem (s : State) (q : Nat) : (signalOwed s q).mem = s.mem := by
  simp only [signalOwed]
  split
  · next h => rw [signal_mem, mem_of_virtRead h, State.modQueue_mem]
  · simp
  · simp

@[simp] theorem overfullQueue_mem (s : State) (q : Nat) : (overfullQueue s q).mem = s.mem := by simp [overfullQueue]

/-! ### Context images -/

@[simp] theorem renameRefs_mem (s : State) (old new : TeamId) (away : Bool) : (renameRefs s old new away).mem = s.mem := rfl

@[simp] theorem addCycles_memOk : ∀ (fuel q by_ a n : Nat) {s : State}, s.memOk → (addCycles fuel q by_ a n s).memOk
  | 0, _, _, _, _, _, hs => hs
  | fuel + 1, q, by_, a, n, s, hs => by
    simp only [addCycles]
    split
    · exact hs
    · split
      · exact setNode_memOk _ _ _ _ hs
      · exact addCycles_memOk fuel _ _ _ _ (setNode_memOk _ _ _ _ hs)

@[simp] theorem countStay_memOk {s : State} (tm : Team) (hs : s.memOk) : (countStay s tm).memOk := by simp [countStay, hs]
@[simp] theorem freeTeam_mem (s : State) (id : TeamId) (tm : Team) : (freeTeam s id tm).mem = s.mem := rfl
@[simp] theorem suspendTeam_memOk {s : State} (id : TeamId) (tm : Team) (addr next : Nat) (hs : s.memOk) :
    (suspendTeam s id tm addr next).memOk := by
  simp [suspendTeam, hs]
@[simp] theorem giveJobs_mem (s : State) (id : TeamId) (tm : Team) (e : Nat × Nat × List Job) :
    (giveJobs s id tm e).mem = s.mem :=
  rfl

@[simp] theorem applyHeld_memOk {s : State} (id : TeamId) (sv : Saved) (hs : s.memOk) : (applyHeld s id sv).memOk := by
  refine foldl_memOk (fun s e hs => ?_) _ (foldl_memOk (fun _ _ hs => landed_memOk _ _ _ _ hs) _ hs)
  split
  · have h2 := iter_memOk (f := fun s => runLanded s e.2 1) (fun _ hs => runLanded_memOk _ _ hs) e.2.heldN
      (s := s.modRun e.1 fun r => { r with heldN := 0 }) hs
    simp only
    repeat' split
    all_goals simp [h2]
  · exact hs

@[simp] theorem resumeLanes_mem (s : State) (id : TeamId) (hand : Nat) (m : BitVec 64) (next : Bool) :
    (resumeLanes s id hand m next).mem = s.mem :=
  foldl_mem (fun _ _ => by simp) ..

@[simp] theorem abortTeam_memOk {s : State} (id : TeamId) (hs : s.memOk) : (abortTeam s id).memOk := by
  have hx : ((teamThreads s id).foldl exitThread s).mem = s.mem := foldl_mem (fun _ _ => exitThread_mem ..) ..
  have hc : ∀ (cs : List ChanId) (f : Chan → Chan) (s : State), (cs.foldl (fun s c => s.modChan c f) s).mem = s.mem :=
    fun cs f s => foldl_mem (fun _ _ => State.modChan_mem ..) ..
  simp only [abortTeam]
  split
  · exact hs
  · split <;> simp [hs, hx, hc]

@[simp] theorem moveTakes_mem (s : State) (id : TeamId) : (moveTakes s id).mem = s.mem := rfl
theorem giveJobs_foldl_mem (s : State) (id : TeamId) (tm : Team) (es : List (Nat × Nat × List Job)) :
    (es.foldl (fun s e => giveJobs s id tm e) s).mem = s.mem :=
  foldl_mem (fun _ _ => giveJobs_mem ..) ..
theorem modChan_foldl_mem {α : Type} (c : α → ChanId) (f : α → Chan → Chan) (es : List α) (s : State) :
    (es.foldl (fun s e => s.modChan (c e) (f e)) s).mem = s.mem :=
  foldl_mem (fun _ _ => State.modChan_mem ..) ..
theorem resumeLanes_foldl_mem {α : Type} (s : State) (id : TeamId) (hand : α → Nat) (m : α → BitVec 64) (next : α → Bool)
    (es : List α) : (es.foldl (fun s e => resumeLanes s id (hand e) (m e) (next e)) s).mem = s.mem :=
  foldl_mem (fun _ _ => resumeLanes_mem ..) ..

@[simp] theorem restoreTeam_memOk {s : State} (sv : Saved) (id : TeamId) (quads banks : List Nat) (start : Nat)
    (tiles : List Nat) (hs : s.memOk) : (restoreTeam s sv id quads banks start tiles).memOk := by
  have hab : ∀ t : State, t.memOk → (if sv.abort then abortTeam t id else t).memOk := fun t ht => by
    split <;> simp [ht]
  simp only [restoreTeam]
  refine memOk_of_mem_eq (openChecks_mem ..) (hab _ (memOk_of_mem_eq (resumeLanes_foldl_mem ..) (applyHeld_memOk _ _ ?_)))
  rw [memOk_def, moveTakes_mem, renameRefs_mem, giveJobs_foldl_mem, modChan_foldl_mem, modChan_foldl_mem, State.modCore_mem]
  exact spWrite_memOk _ _ _ _ (s := _) hs

/-! ### Collectives -/

@[simp] theorem setRank_mem (s : State) (r : Rank) : (setRank s r).mem = s.mem := rfl
@[simp] theorem failRank_mem (s : State) (r : Rank) (code : Nat) : (failRank s r code).mem = s.mem := rfl
@[simp] theorem failTold_mem (s : State) (r : Rank) (code va acc : Nat) : (failTold s r code va acc).mem = s.mem := by
  simp [failTold]
@[simp] theorem rankStuck_mem (s : State) (r : Rank) (m : Miss) (acc : Nat) : (rankStuck s r m acc).mem = s.mem := by
  fun_cases rankStuck s r m acc <;> simp

theorem foldl_fst_mem {α σ : Type} {g : State × σ → α → State × σ} (hg : ∀ x a, (g x a).1.mem = x.1.mem) : ∀ (l : List α)
    (x : State × σ), (l.foldl g x).1.mem = x.1.mem
  | [], _ => rfl
  | a :: l, x => (foldl_fst_mem hg l (g x a)).trans (hg x a)

@[simp] theorem readMore_mem (s : State) (r : Rank) (n : Nat) : (readMore s r n).1.mem = s.mem := by
  refine foldl_fst_mem (fun x a => ?_) _ _
  split
  · split
    · next h => exact mem_of_virtRead h
    · rfl
  · rfl

@[simp] theorem takeTree_mem (s : State) (r0 : Rank) : (takeTree s r0).mem = s.mem := by fun_cases takeTree s r0 <;> simp

@[simp] theorem readTree_mem (s : State) (r : Rank) : (readTree s r).mem = s.mem := by
  have h1 := readMore_mem s r (16 * r.nrank)
  unfold readTree
  split
  · simp_all
  · next s1 r1 e =>
    have h2 := readMore_mem s1 r1 r1.treeLen
    split <;> simp_all

@[simp] theorem readChunk_mem (key : CoreId × Nat) (s : State) (k : Nat) : (readChunk key s k).mem = s.mem := by
  unfold readChunk
  split
  · rfl
  · split
    · rfl
    · split
      · simp
      · next h => rw [setRank_mem, mem_of_virtRead h]

@[simp] theorem giveFinal_mem (r : Rank) (k : Nat) (s : State) (c : Nat) : (giveFinal r k s c).mem = s.mem := by
  fun_cases giveFinal r k s c <;> simp

@[simp] theorem writeResult_memOk {s : State} (key : CoreId × Nat) (k : Nat) (hs : s.memOk) :
    (writeResult s key k).memOk := by
  unfold writeResult
  split
  · exact hs
  · split
    · exact hs
    · split
      · simp [hs]
      · next h => simpa using memOk_of_virtWrite h hs

theorem readChunk_foldl_mem (key : CoreId × Nat) (ks : List Nat) (s : State) : (ks.foldl (readChunk key) s).mem = s.mem :=
  foldl_mem (fun _ _ => readChunk_mem ..) ..
theorem giveFinal_foldl_mem (r : Rank) (ks : List Nat) (s : State) :
    (ks.foldl (fun s k => r.children.foldl (giveFinal r k) s) s).mem = s.mem :=
  foldl_mem (fun _ _ => foldl_mem (fun _ _ => giveFinal_mem ..) ..) ..
theorem writeResult_foldl_memOk {s : State} (key : CoreId × Nat) (ks : List Nat) (hs : s.memOk) :
    (ks.foldl (fun s k => writeResult s key k) s).memOk :=
  foldl_memOk (fun _ _ hs => writeResult_memOk _ _ hs) _ hs

/-- What `advanceRank` does after its reads: a clash is told, else the chunks are combined, passed up and given. -/
def passChunks (s : State) (key : CoreId × Nat) : State :=
  match s.ranks.find? fun r => r.key = key with
  | none => s
  | some r =>
    if r.code ≠ 0 || !r.tree then s
    else match clash s r with
      | some x => failTold (failTold s x 0x21 0 1) r 0x21 0 1
      | none =>
        let r1 := (List.range r.chunks).foldl (fun r k => passUp (combineChunk r.children.length s r k) k) r
        r1.fin.foldl (fun s k => writeResult s key k)
          (r1.fin.foldl (fun s k => r1.children.foldl (giveFinal r1 k) s) (setRank s r1))

theorem passChunks_memOk {s : State} (key : CoreId × Nat) (hs : s.memOk) : (passChunks s key).memOk := by
  unfold passChunks
  split
  · exact hs
  · split
    · exact hs
    · split
      · simp [hs]
      · exact writeResult_foldl_memOk _ _ (by rw [memOk_def, giveFinal_foldl_mem, setRank_mem]; exact hs)

theorem advanceRank_eq (s : State) (key : CoreId × Nat) : advanceRank s key = s ∨ ∃ t :
    State, t.mem = s.mem ∧ advanceRank s key = passChunks t key := by
  rw [show advanceRank s key = _ from rfl, advanceRank]
  split
  · exact .inl rfl
  · refine .inr ⟨_, ?_, rfl⟩
    split
    · split
      · rw [readChunk_foldl_mem]; split <;> simp
      · split <;> simp
    · split <;> simp

@[simp] theorem advanceRank_memOk {s : State} (key : CoreId × Nat) (hs : s.memOk) : (advanceRank s key).memOk := by
  obtain e | ⟨t, ht, e⟩ := advanceRank_eq s key <;> rw [e]
  · exact hs
  · exact passChunks_memOk key (memOk_of_mem_eq ht hs)

@[simp] theorem takeChunk_mem (s : State) (r : Rank) (m : CollMsg) : (takeChunk s r m).mem = s.mem := by
  fun_cases takeChunk s r m <;> simp
@[simp] theorem takeChunkPackets_mem (s : State) (r : Rank) (sender : Nat) : (takeChunkPackets s r sender).mem = s.mem := by
  fun_cases takeChunkPackets s r sender <;> simp

@[simp] theorem closeRank_memOk {s : State} (r : Rank) (hs : s.memOk) : (closeRank s r).memOk := by
  simp only [closeRank]
  repeat' split
  all_goals simp [hs]

@[simp] theorem logStuck_memOk {s : State} (r : Rank) (m : Miss) (hs : s.memOk) : (logStuck s r m).memOk := by
  unfold logStuck; split <;> simp [hs]
@[simp] theorem loseRanks_mem (s : State) (node code : Nat) : (loseRanks s node code).mem = s.mem :=
  foldl_mem (fun _ _ => by split <;> simp) ..
@[simp] theorem refuseRanks_mem (s : State) (fn page code : Nat) : (refuseRanks s fn page code).mem = s.mem :=
  foldl_mem (fun _ _ => by split <;> simp) ..

/-! ### Cross-lane exchange -/

@[simp] theorem takeArrival_mem (s : State) (tm : Team) (n : Far) (pc : Dword) : (takeArrival s tm n pc).mem = s.mem := by
  unfold takeArrival; split <;> simp

@[simp] theorem arriveNeighbours_mem (s : State) (h : HandKey) (tm : Team) (ls : List Nat) (g : Guard) (w left : Bool)
    (a : CSrc) : (arriveNeighbours s h tm ls g w left a).mem = s.mem := by
  simp only [arriveNeighbours]
  rw [arriveAll_mem, foldl_mem, foldl_mem]
  · exact fun _ _ => waitRegs_mem ..
  · exact fun _ _ => by split <;> simp

@[simp] theorem runNeighbour_mem (s : State) (g : Guard) (w left : Bool) (d : BitVec 8) (a : CSrc) :
    (runNeighbour s g w left d a).mem = s.mem := by
  simp only [runNeighbour]
  split
  · rfl
  · split
    · simp
    · split
      · rw [waitFormed_mem, foldl_mem (fun _ _ => takeFault_mem ..)]
      · rw [endIssue_mem, foldl_mem (fun _ _ => goOn_mem ..), foldl_mem, foldl_mem, foldl_mem (fun _ _ => takeFault_mem ..)]
        · intro s l
          repeat' split
          all_goals simp
        · exact fun _ _ => by split <;> simp

@[simp] theorem runVote_mem (s : State) (g : Guard) (a : BitVec 3) (dsts : List (BitVec 8 × Bool))
    (f : List Nat → List Nat → Thread → Thread) : (runVote s g a dsts f).mem = s.mem := by
  simp [runVote]

/-! ### Issue -/

@[simp] theorem askAgain_mem (s : State) (k : ThreadKey) (va : Dword) : (askAgain s k va).mem = s.mem := by
  fun_cases askAgain s k va <;> simp

@[simp] theorem askLanes_mem (s : State) (h : HandKey) (ls : List Nat) : (askLanes s h ls).mem = s.mem := by
  refine foldl_mem (fun _ _ => ?_) ..
  repeat' split
  all_goals simp

@[simp] theorem selectBundle_mem (s : State) (h : HandKey) (b : Bundle) : (selectBundle s h b).mem = s.mem := rfl
@[simp] theorem rearm_mem (s : State) (h : HandKey) (b : Bundle) : (rearm s h b).mem = s.mem := by simp [rearm]

/-! ### Placement -/

@[simp] theorem joinGroup_mem (s : State) (t : Tree) (n : Node) (tm : Team) (id : TeamId) :
    (joinGroup s t n tm id).mem = s.mem := by
  fun_cases joinGroup s t n tm id <;> simp
@[simp] theorem imageLost_mem (s : State) (a : Nat) (sv : Saved) : (imageLost s a sv).mem = s.mem := by
  fun_cases imageLost s a sv <;> simp

@[simp] theorem placeItem_memOk (t : Tree) (q : Nat) (n : Node) {s : State} (e : Item × Place) (hs : s.memOk) :
    (placeItem t q n s e).memOk := by
  simp only [placeItem]
  split
  · simp [hs]
  · simp [hs]

@[simp] theorem imageWaits_mem (s : State) (sv : Saved) (m : Miss) (acc : Nat) : (imageWaits s sv m acc).mem = s.mem := by
  simp only [imageWaits]
  repeat' split
  all_goals simp

@[simp] theorem placedNode_memOk {s : State} (q d : Nat) (o : Offer) (hs : s.memOk) : (placedNode s q d o).memOk := by
  unfold placedNode; split <;> simp [hs]

theorem memOk_of_nextMessage {s t : State} {d fn k excess : Nat} {m : TeamMsg}
    (h : nextMessage s d fn k excess = some (t, m)) (hs : s.memOk) : t.memOk := by
  simp only [nextMessage] at h
  split at h
  · cases h; exact hs
  · obtain ⟨x, -, hx⟩ := List.exists_of_findSome?_eq_some h
    repeat' split at hx
    all_goals cases hx <;> simp [hs]

@[simp] theorem sendTeams_memOk : ∀ (fuel : Nat) {s : State} (d to_ fn k bound : Nat), s.memOk →
    (sendTeams fuel s d to_ fn k bound).memOk
  | 0, _, _, _, _, _, _, hs => hs
  | fuel + 1, s, d, to_, fn, k, bound, hs => by
    simp only [sendTeams]
    split
    · exact hs
    · split
      · exact hs
      · next h => exact sendTeams_memOk fuel _ _ _ _ _ (by simpa using memOk_of_nextMessage h hs)

@[simp] theorem stageFault_mem (s : State) (id : TeamId) (code va : Nat) (spoff acc : Nat) (wait : Bool) (page : Nat) :
    (stageFault s id code va spoff acc wait page).mem = s.mem := by
  simp [stageFault]
@[simp] theorem neverRun_mem (s : State) (id : TeamId) : (neverRun s id).mem = s.mem := rfl
@[simp] theorem entryDone_mem (s : State) (id : TeamId) (i : Nat) : (entryDone s id i).mem = s.mem := rfl
@[simp] theorem stageStuck_mem (s : State) (id : TeamId) (tm : Team) (i spoff : Nat) (m : Miss) :
    (stageStuck s id tm i spoff m).mem = s.mem := by
  unfold stageStuck; split <;> simp

theorem stageCopy_memOk {s : State} {id : TeamId} {tm : Team} {i va n spoff : Nat} {k : State → List Byte → State}
    (hk : ∀ s bs, s.memOk → (k s bs).memOk) (hs : s.memOk) : (stageCopy s id tm i va n spoff k).memOk := by
  unfold stageCopy
  split
  · simp [hs]
  · next h => exact hk _ _ (memOk_of_mem_eq (mem_of_virtRead h) hs)

theorem stageRows_memOk (id : TeamId) (tm : Team) (i va spoff : Nat) : ∀ {s : State} (l : List (Nat × Nat)), s.memOk →
    (stageRows id tm i va spoff s l).memOk
  | _, [], hs => by simp [stageRows, hs]
  | s, p :: rest, hs => by
    simp only [stageRows]
    split
    · simp [hs]
    · next h =>
      have h1 := memOk_of_mem_eq (mem_of_virtRead h) hs
      exact stageRows_memOk id tm i va spoff rest (by simp [h1])

@[simp] theorem stageEntry_memOk (id : TeamId) {s : State} (x : Nat × BitVec 128) (hs : s.memOk) :
    (stageEntry id s x).memOk := by
  simp only [stageEntry]
  split
  · exact hs
  · split
    · exact hs
    · split
      · simp [hs]
      · exact stageCopy_memOk (fun s bs hs => by split <;> simp [hs]) hs
      · split
        · simp [hs]
        · split
          · next h => simp [memOk_of_mem_eq (mem_of_createBag h) hs]
          · simp [hs]
          · simp [hs]
      · exact stageRows_memOk _ _ _ _ _ _ hs

@[simp] theorem runTeam_mem (s : State) (id : TeamId) (tm : Team) : (runTeam s id tm).mem = s.mem := by
  simp only [runTeam]
  rw [foldl_mem (fun _ _ => by simp), foldl_mem (fun _ _ => by simp), State.modTeam_mem]

theorem backFrom_memOk (id : TeamId) (tm : Team) : ∀ (skip : Nat) {s : State} (l : List (Nat × Nat × Nat)), s.memOk →
    (backFrom id tm skip s l).1.memOk
  | _, _, [], hs => hs
  | skip, s, p :: rest, hs => by
    simp only [backFrom]
    split
    · exact backFrom_memOk id tm _ rest (by simp [hs])
    · split
      · exact backFrom_memOk id tm _ rest (by simp [hs])
      · split
        · next h => exact backFrom_memOk id tm _ rest (by simpa using memOk_of_virtWrite h hs)
        · split
          · exact backFrom_memOk id tm _ rest (by simp [hs])
          · simp [hs]
          · simp [hs]

@[simp] theorem vacate_mem (s : State) (tm : Team) (id : TeamId) (f : Group → Group) : (vacate s tm id f).mem = s.mem := by
  fun_cases vacate s tm id f <;> simp
@[simp] theorem leaveGroup_mem (s : State) (tm : Team) (id : TeamId) : (leaveGroup s tm id).mem = s.mem := by
  simp [leaveGroup]
@[simp] theorem retireTeam_memOk {s : State} (id : TeamId) (tm : Team) (hs : s.memOk) : (retireTeam s id tm).memOk := by
  simp [retireTeam, hs]

/-! ### Partitions and resets -/

@[simp] theorem returnStaging_mem (s : State) (id : TeamId) (tm : Team) : (returnStaging s id tm).mem = s.mem := by
  simp [returnStaging]
@[simp] theorem setPending_mem (s : State) (q a why : Nat) : (setPending s q a why).mem = s.mem :=
  foldl_mem (fun _ _ => by simp) ..

@[simp] theorem reReady_memOk {s : State} (q a : Nat) (hs : s.memOk) : (reReady s q a).memOk := by
  unfold reReady
  repeat' split
  all_goals simp [hs]

@[simp] theorem clearWhy_mem (s : State) (q a b : Nat) : (clearWhy s q a b).mem = s.mem := rfl

@[simp] theorem suspendTeams_memOk {s : State} (hs : s.memOk) : ∀ l : List (TeamId × Nat), (suspendTeams s l).1.memOk
  | [] => hs
  | (id, a) :: rest => by
    have ih := suspendTeams_memOk hs rest
    simp only [suspendTeams]
    split <;> simp_all

@[simp] theorem modSaved_mem (s : State) (id : TeamId) (f : Saved → Saved) : (modSaved s id f).mem = s.mem := rfl

@[simp] theorem writePieces_memOk (sv : Saved) : ∀ {s : State} (l : List (Nat × List Byte)), s.memOk →
    (writePieces sv s l).memOk
  | _, [], hs => by simp [writePieces, hs]
  | s, p :: rest, hs => by
    simp only [writePieces]
    split
    · next h => exact writePieces_memOk sv rest (memOk_of_virtWrite h hs)
    · split
      · exact writePieces_memOk sv rest (by simp [hs])
      · simp [hs]

@[simp] theorem sendSaved_mem (s : State) : (sendSaved s).mem = s.mem := by
  refine foldl_mem (fun _ _ => ?_) ..
  split
  · dsimp only
    split <;> simp
  · rfl

@[simp] theorem writeImages_memOk {s : State} (fn : Nat) (hs : s.memOk) : (writeImages s fn).memOk :=
  memOk_of_mem_eq (sendSaved_mem _) (foldl_memOk (fun _ _ hs => by split <;> simp [hs]) _ hs)

@[simp] theorem suspendGroup_memOk {s : State} (t : TeamId) (tm : Team) (ids : List TeamId) (pool : List Nat)
    (hs : s.memOk) : (suspendGroup s t tm ids pool).memOk := by
  have h := suspendTeams_memOk hs (ids.zip pool)
  simp only [suspendGroup]
  simpa using h

theorem State.memOk_of_wf {s : State} {sp cm dram : List Host.Cell} (hs : s.memOk) (hsp : memWf sp = true)
    (hcm : memWf cm = true) (hd : memWf dram = true) {t : State}
    (ht : t.mem.sp = sp ∧ t.mem.cm = cm ∧ t.mem.dram = dram ∧ t.mem.fabric = s.mem.fabric ∧ t.mem.host = s.mem.host) :
    t.memOk := by
  obtain ⟨-, -, -, hf, hh⟩ := s.memOk_iff.1 hs
  obtain ⟨rfl, rfl, rfl, ef, eh⟩ := ht
  exact t.memOk_iff.2 ⟨hsp, hcm, hd, ef ▸ hf, eh ▸ hh⟩

@[simp] theorem zeroBanks_memOk {s : State} (c : CoreId) (banks : List Nat) (hs : s.memOk) :
    (zeroBanks s c banks).memOk := by
  obtain ⟨hsp, hcm, hd, -⟩ := s.memOk_iff.1 hs
  exact State.memOk_of_wf hs (memAbove_filter _ hsp) hcm hd ⟨rfl, rfl, rfl, rfl, rfl⟩

@[simp] theorem zeroCommons_memOk {s : State} (die : Nat) (banks : List Nat) (hs : s.memOk) :
    (zeroCommons s die banks).memOk := by
  obtain ⟨hsp, hcm, hd, -⟩ := s.memOk_iff.1 hs
  exact State.memOk_of_wf hs hsp (memAbove_filter _ hcm) hd ⟨rfl, rfl, rfl, rfl, rfl⟩

@[simp] theorem zeroDram_memOk {s : State} (a n : Nat) (hs : s.memOk) : (zeroDram s a n).memOk := by
  obtain ⟨hsp, hcm, hd, -⟩ := s.memOk_iff.1 hs
  exact State.memOk_of_wf hs hsp hcm (memWf_memClear a n hd) ⟨rfl, rfl, rfl, rfl, rfl⟩

@[simp] theorem abandonWaiting_memOk {s : State} (c : ChanId) (x : Chain) (hs : s.memOk) :
    (abandonWaiting s c x).memOk := by
  refine foldl_memOk (fun s n hs => ?_) _ hs
  split
  · refine foldl_memOk (fun s u hs => ?_) _ hs
    repeat' split
    all_goals simp [hs]
  · exact hs

@[simp] theorem stopRuns_mem (s : State) (fn : Nat) : (stopRuns s fn).mem = s.mem := rfl

@[simp] theorem beginReset_memOk {s : State} (fn : Nat) (hs : s.memOk) : (beginReset s fn).memOk := by
  simp only [beginReset]
  refine foldl_memOk (fun s e hs => ?_) _ (by simp [hs])
  split
  · exact hs
  · refine foldl_memOk (fun s c hs => ?_) _ hs
    refine onJobs_memOk (fun s hs => ?_) (by simp [hs])
    repeat' split
    all_goals simp [hs]

@[simp] theorem dropBags_mem (s : State) (fn : Nat) : (dropBags s fn).mem = s.mem :=
  foldl_mem (fun _ _ => by split <;> simp) ..

@[simp] theorem finishReset_memOk {s : State} (fn : Nat) (hs : s.memOk) : (finishReset s fn).memOk := by
  simp only [finishReset]
  rw [memOk_def, signal_mem, State.modFunc_mem]
  refine zeroDram_memOk _ _ (foldl_memOk (fun _ _ hs => zeroCommons_memOk _ _ hs) _
    (foldl_memOk (fun _ _ hs => by simpa using zeroBanks_memOk _ _ hs) _ ?_))
  simp only [memOk_def, dropBags_mem]
  exact foldl_memOk (fun s e hs => by split <;> simp [hs]) _ hs

@[simp] theorem markFolds_mem (s : State) (fn : Nat) : (markFolds s fn).mem = s.mem := rfl
@[simp] theorem freeKitty_mem (s : State) (job : Nat) : (freeKitty s job).mem = s.mem := by
  fun_cases freeKitty s job <;> simp

@[simp] theorem resetVf_memOk {s : State} (func : Nat) (by_ : Option Nat) (hs : s.memOk) : (resetVf s func by_).memOk := by
  simp only [resetVf]
  repeat' split
  · exact hs
  · simp [hs]
  · cases by_ <;> simp [hs]
  · simp [hs]

@[simp] theorem resetInTurn_memOk : ∀ {s : State} (l : List Nat), s.memOk → (resetInTurn s l).memOk
  | _, [], hs => hs
  | s, f :: rest, hs => by
    have h0 : ({ s with health := { s.health with pfReset := some f } } : State).memOk := hs
    simp only [resetInTurn]
    repeat' split
    · simp [hs]
    · exact resetInTurn_memOk rest (finishReset_memOk _ (beginReset_memOk _ h0))
    · exact beginReset_memOk _ h0

@[simp] theorem grantQuad_mem (s : State) (q : QuadId) (o : Option Nat) : (grantQuad s q o).mem = s.mem := by
  unfold grantQuad; split <;> simp

@[simp] theorem grantBanks_memOk {s : State} (c : CoreId) (g : Nat) (o : Option Nat) (hs : s.memOk) :
    (grantBanks s c g o).memOk := by
  simp only [grantBanks]
  split <;> simp [hs]

@[simp] theorem grantTiles_mem (s : State) (c : CoreId) (g : Nat) (o : Option Nat) : (grantTiles s c g o).mem = s.mem := by
  unfold grantTiles; split <;> simp

@[simp] theorem grantCommons_memOk {s : State} (die g : Nat) (o : Option Nat) (hs : s.memOk) :
    (grantCommons s die g o).memOk := by
  simp only [grantCommons]
  split
  · exact hs
  · refine zeroCommons_memOk _ _ ?_
    generalize hr : List.foldl _ s _ = t
    have ht : t.memOk := hr ▸ foldl_memOk (fun _ _ hs => zeroCommons_memOk _ _ hs) _ hs
    repeat' split
    all_goals simp [ht]

@[simp] theorem grantCarve_memOk {s : State} (fn seg base size key : Nat) (ro give : Bool) (hs : s.memOk) :
    (grantCarve s fn seg base size key ro give).memOk := by
  simp only [grantCarve]
  repeat' split
  all_goals simp [hs]

@[simp] theorem zeroNew_memOk {s : State} (old new : Nat × Nat) (hs : s.memOk) : (zeroNew s old new).memOk := by
  simp [zeroNew, hs]

@[simp] theorem segmentWrite_memOk {s : State} (fn i : Nat) (w : Dword) (hs : s.memOk) : (segmentWrite s fn i w).memOk := by
  simp only [segmentWrite]
  repeat' split
  all_goals simp [hs]

@[simp] theorem grantKey_mem (s : State) (k : Nat) (o : Option Nat) (key : BitVec 512) :
    (grantKey s k o key).mem = s.mem := by
  fun_cases grantKey s k o key <;> simp
@[simp] theorem grantQueue_mem (s : State) (q : Nat) (o : Option Nat) : (grantQueue s q o).mem = s.mem := by
  unfold grantQueue; split <;> simp

/-! ### The dealer -/

theorem nextOf_memOk {o : Out} {s : State} (ho : OutOk o) (hs : s.memOk) : (nextOf o s).memOk := by
  cases o <;> simp_all [nextOf]
@[simp] theorem tellQueue_mem (s : State) (fn fq : Nat) : (tellQueue s fn fq).mem = s.mem := by simp [tellQueue]
@[simp] theorem queueHolds_mem (s : State) (r : FaultRec) (a : Appended) : (queueHolds s r a).mem = s.mem := by
  fun_cases queueHolds s r a <;> simp

@[simp] theorem firstTaken_memOk (die : Nat) : ∀ {s : State} (seen l : List FaultRec), s.memOk →
    (firstTaken die s seen l).1.memOk
  | _, _, [], hs => hs
  | s, seen, r :: rest, hs => by
    have ha := ringAppend_memOk r.func r.fq 64 r.word hs
    simp only [firstTaken]
    split
    · exact firstTaken_memOk die _ _ hs
    · split
      · simp_all
      · exact firstTaken_memOk die _ _ (by simp [hs])

@[simp] theorem resolveFaults_mem (s : State) (fn lo size : Nat) : (resolveFaults s fn lo size).mem = s.mem := rfl
@[simp] theorem putPage_mem (s : State) (fn : Nat) (p : Page) : (putPage s fn p).mem = s.mem := rfl

theorem reunit_memOk {s : State} {id : Nat} {f : ChanId → Chain → Nat → Nat → Rec → State → State}
    (hf : ∀ c x n u r s, s.memOk → (f c x n u r s).memOk) (hs : s.memOk) : (reunit s id f).memOk := by
  unfold reunit
  repeat' split
  all_goals simp [hf, hs]

@[simp] theorem releaseGroup_memOk {s : State} (g : Nat) (hs : s.memOk) : (releaseGroup s g).memOk := by
  simp only [releaseGroup]
  split
  · exact hs
  · split
    · exact hs
    · split
      · next h => exact reunit_memOk (fun _ _ _ _ _ _ hs => by simp [hs]) (memOk_of_mem_eq (mem_of_sendRanges h) hs)
      · exact reunit_memOk (fun _ _ _ _ _ _ hs => by split <;> simp [hs]) hs

@[simp] theorem releaseHeld_memOk {s : State} (fn : Nat) (hs : s.memOk) : (releaseHeld s fn).memOk :=
  foldl_memOk (fun _ _ hs => releaseGroup_memOk _ hs) _ hs

@[simp] theorem refuseFetch_mem (s : State) (fn page code : Nat) : (refuseFetch s fn page code).mem = s.mem := by
  refine foldl_mem (fun _ _ => ?_) ..
  repeat' split
  all_goals simp

theorem outOk_execStagingPageAnswer (t : TeamId) (mapped : Bool) {s : State} (hs : s.memOk) : OutOk
    (execStagingPageAnswer t mapped s) := by
  simp only [execStagingPageAnswer]
  repeat' split
  all_goals simp [hs]

@[simp] theorem refuseStaging_memOk {s : State} (fn page : Nat) (hs : s.memOk) : (refuseStaging s fn page).memOk := by
  refine foldl_memOk (fun s e hs => ?_) _ hs
  have hn := nextOf_memOk (outOk_execStagingPageAnswer e.1 false hs) hs
  dsimp only
  split
  · exact hs
  · split <;> split <;> simp_all

theorem outOk_execStackPageAnswer (k : ThreadKey) (mapped perm : Bool) {s : State} (hs : s.memOk) : OutOk
    (execStackPageAnswer k mapped perm s) := by
  simp only [execStackPageAnswer]
  split
  · split
    · split
      · rw [outOk_next]; split <;> simp [hs]
      · split <;> simp [hs]
    · simp [hs]
  · simp [hs]

@[simp] theorem refuseStack_memOk {s : State} (fn page code : Nat) (hs : s.memOk) : (refuseStack s fn page code).memOk := by
  refine foldl_memOk (fun s e hs => ?_) _ hs
  have hn := nextOf_memOk (outOk_execStackPageAnswer e.1 false (code = 0x11) hs) hs
  split
  · dsimp only
    repeat' split
    all_goals assumption
  · exact hs

theorem outOk_execNbRowMapped (n i : Nat) (mapped : Bool) {s : State} (hs : s.memOk) : OutOk
    (execNbRowMapped n i mapped s) := by
  simp only [execNbRowMapped]
  repeat' split
  all_goals simp [hs]

@[simp] theorem refuseRows_memOk {s : State} (fn page : Nat) (hs : s.memOk) : (refuseRows s fn page).memOk := by
  refine foldl_memOk (fun s e hs => ?_) _ hs
  split
  · exact hs
  · refine foldl_memOk (fun s i hs => ?_) _ hs
    split
    · split
      · exact nextOf_memOk (outOk_execNbRowMapped _ _ _ hs) hs
      · exact hs
    · exact hs

@[simp] theorem refuseTrees_memOk {s : State} (fn page code : Nat) (hs : s.memOk) : (refuseTrees s fn page code).memOk := by
  refine foldl_memOk (fun s d hs => foldl_memOk (fun s w hs => ?_) _ hs) _ (foldl_memOk (fun s e hs => ?_) _ hs)
  all_goals
    repeat' split
    all_goals simp [hs]

@[simp] theorem refuseSaved_mem (s : State) (fn page : Nat) : (refuseSaved s fn page).mem = s.mem := rfl
@[simp] theorem refuseFolds_mem (s : State) (fn page : Nat) : (refuseFolds s fn page).mem = s.mem := rfl

@[simp] theorem losePulls_mem (s : State) (fn : Nat) (p : Page) : (losePulls s fn p).mem = s.mem := by
  refine foldl_mem (fun _ _ => ?_) ..
  repeat' split
  all_goals simp

@[simp] theorem answerLines_mem (s : State) (g : Nat) (a : Forward → Answer) : (answerLines s g a).mem = s.mem := rfl
@[simp] theorem countForward_mem (s : State) (f : Forward) : (countForward s f).mem = s.mem := by
  unfold countForward; split <;> simp

theorem placeWrite_foldl_memOk (es : List Forward) : ∀ r : State × List Byte, r.1.memOk →
    (es.foldl (fun (r : State × List Byte) e => (placeWrite r.1 e.place (r.2.take e.len), r.2.drop e.len)) r).1.memOk := by
  induction es with
  | nil => exact fun _ hr => hr
  | cons e es ih => exact fun r hr => ih _ (placeWrite_memOk _ _ hr)

@[simp] theorem performLines_memOk {s : State} (fs : List Forward) (f : Forward) (hs : s.memOk) :
    (performLines s fs f).memOk := by
  have h1 : (fs.foldl countForward s).memOk := foldl_memOk (fun _ _ hs => by simp [hs]) _ hs
  simp only [performLines]
  split
  · simpa using h1
  · simpa using placeWrite_foldl_memOk fs (_, _) h1

@[simp] theorem noteTaken_mem (s : State) (f : Forward) : (noteTaken s f).mem = s.mem := by unfold noteTaken; split <;> simp

@[simp] theorem sentLine_memOk (n : Nat) {s : State} (hs : s.memOk) : (sentLine n s).memOk := by
  have hn : ∀ es : List Forward, (es.foldl noteTaken s).memOk := fun es => foldl_memOk (fun _ _ hs => by simp [hs]) es hs
  simp only [sentLine]
  repeat' split
  all_goals simp [hs, hn]

@[simp] theorem replyLine_mem (s : State) (node : Nat) (code : Option Nat) (bs : List Byte) :
    (replyLine s node code bs).mem = s.mem :=
  rfl

theorem atLocation_memOk {node fn loc n : Nat} {wr : Bool} {s : State} {f : Xl → State} (hf : ∀ x, (f x).memOk)
    (hs : s.memOk) : (atLocation node fn loc n wr s f).memOk := by
  simp only [atLocation]
  repeat' split
  all_goals simp [hf, hs]

@[simp] theorem cameLine_memOk (node fn loc : Nat) (write : Option (List Byte)) (len : Nat) {s : State} (hs : s.memOk) :
    (cameLine node fn loc write len s).memOk := by
  unfold cameLine
  split
  · exact atLocation_memOk (fun _ => by simp [hs]) hs
  · exact atLocation_memOk (fun _ => by split <;> simp [hs]) hs

@[simp] theorem cameReduction_memOk (node fn loc rop : Nat) (bs : List Byte) (tag : Nat) {s : State} (hs : s.memOk) :
    (cameReduction node fn loc rop bs tag s).memOk := by
  unfold cameReduction
  split
  · simp [hs]
  · exact atLocation_memOk (fun _ => by split <;> simp [hs]) hs

@[simp] theorem endForwards_mem (s : State) (node code : Nat) : (endForwards s node code).mem = s.mem :=
  foldl_mem (fun _ _ => by simp) ..
@[simp] theorem noteRoutes_mem (s : State) : (noteRoutes s).mem = s.mem := rfl
@[simp] theorem resumeRequest_mem (next : Bool) (func node : Nat) (team hand : Nat) (mask : BitVec 64) (s : State) :
    (resumeRequest next func node team hand mask s).mem = s.mem := by
  fun_cases resumeRequest next func node team hand mask s <;> simp

@[simp] theorem abortRequest_memOk (func node team : Nat) {s : State} (hs : s.memOk) :
    (abortRequest func node team s).memOk := by
  simp only [abortRequest]
  repeat' split
  all_goals simp [hs]

@[simp] theorem releaseCore_mem (s : State) (c : CoreId) (freeze : Bool) : (releaseCore s c freeze).mem = s.mem := rfl
@[simp] theorem haltWrite_mem (s : State) (c : CoreId) (halt freeze : Bool) : (haltWrite s c halt freeze).mem = s.mem := by
  fun_cases haltWrite s c halt freeze <;> simp
@[simp] theorem debugWrite_mem (s : State) (k : ThreadKey) (r : BitVec 8) (v : Dword) :
    (debugWrite s k r v).mem = s.mem := by
  fun_cases debugWrite s k r v <;> simp
@[simp] theorem mailboxWrite_mem (s : State) (fn off : Nat) (n v : Nat) : (mailboxWrite s fn off n v).mem = s.mem := by
  unfold mailboxWrite; split <;> simp

@[simp] theorem msixWrite_mem (s : State) (fn vec v : Nat) : (msixWrite s fn vec v).mem = s.mem := by
  simp only [msixWrite]
  repeat' split
  all_goals simp

@[simp] theorem flashWrite_mem (s : State) (off n v : Nat) : (flashWrite s off n v).mem = s.mem := by
  unfold flashWrite; split <;> simp
@[simp] theorem queueFuncWrite_mem (s : State) (q v : Nat) : (queueFuncWrite s q v).mem = s.mem := by
  unfold queueFuncWrite; split <;> simp

/-! ### The fabric -/

@[simp] theorem setFold_mem (s : State) (f : Fold) : (setFold s f).mem = s.mem := rfl
@[simp] theorem foldTell_mem (s : State) (c : FoldCmd) (r : FaultRec) : (foldTell s c r).mem = s.mem := by
  unfold foldTell; split <;> simp
@[simp] theorem kittyMiss_memOk {s : State} (f : Fold) (m : Miss) (acc : Nat) (hs : s.memOk) :
    (kittyMiss s f m acc).memOk := by
  fun_cases kittyMiss s f m acc <;> simp [hs]
@[simp] theorem modFold_mem (s : State) (job : Nat) (g : Fold → Fold) : (modFold s job g).mem = s.mem := rfl
@[simp] theorem discard_mem (s : State) (f : Fold) (p : Packet) : (discard s f p).mem = s.mem := by simp [discard]

@[simp] theorem writeHead_memOk {s : State} (job : Nat) (hs : s.memOk) : (writeHead s job).1.memOk := by
  unfold writeHead
  split
  · exact hs
  · next f _ =>
    split
    · exact hs
    · split
      · next h => simpa using memOk_of_virtWrite h hs
      · next m _ =>
        have hk := kittyMiss_memOk f m 2 hs
        split <;> simp_all

@[simp] theorem takePacket_mem (s : State) (p : Packet) : (takePacket s p).mem = s.mem := rfl

@[simp] theorem sealKitty_memOk {s : State} (f : Fold) (hs : s.memOk) : (sealKitty s f).memOk := by
  simp only [sealKitty]
  split
  · next h => simpa using memOk_of_virtWrite h hs
  · next m _ =>
    have hk := kittyMiss_memOk (s := setFold s { f with swept := 1536 }) { f with swept := 1536 } m 2 (by simp [hs])
    split <;> simp_all

@[simp] theorem sweepOne_memOk {s : State} (f : Fold) (p : Packet) (hs : s.memOk) : (sweepOne s f p).memOk := by
  simp only [sweepOne]
  split
  · next h => simpa using memOk_of_virtWrite h hs
  · next m _ =>
    have hk := kittyMiss_memOk (s := setFold s { f with swept := sweepKey p }) { f with swept := sweepKey p } m 2 (by simp [hs])
    split <;> simp_all

@[simp] theorem sweep_memOk : ∀ (fuel : Nat) {s : State} (job : Nat), s.memOk → (sweep fuel s job).memOk
  | 0, _, _, hs => hs
  | fuel + 1, s, job, hs => by
    unfold sweep
    split
    · exact hs
    · next f _ =>
      split
      · exact sealKitty_memOk f hs
      · next p _ =>
        have ho := sweepOne_memOk f p hs
        split
        · simp_all
        · next e => exact sweep_memOk fuel job (by rw [e] at ho; exact ho)

@[simp] theorem preemptJob_memOk {s : State} (c : FoldCmd) (hs : s.memOk) : (preemptJob s c).memOk := by
  unfold preemptJob
  split
  · exact hs
  · refine foldl_memOk (fun s n hs => ?_) _ hs
    repeat' split
    all_goals simp [hs]

@[simp] theorem flushLate_memOk : ∀ (l : List Packet) {s : State} (job : Nat), s.memOk → (flushLate l s job).memOk
  | [], _, _, hs => hs
  | p :: rest, s, job, hs => by
    simp only [flushLate]
    split
    · exact hs
    · next f _ =>
      split
      · next h => exact flushLate_memOk rest _ (by simpa using memOk_of_virtWrite h hs)
      · next m _ =>
        have hk := kittyMiss_memOk f m 2 hs
        split
        · simp_all
        · next e => exact flushLate_memOk rest _ (by rw [e] at hk; simpa using hk)

@[simp] theorem goOnLate_memOk {s : State} (job : Nat) (hs : s.memOk) : (goOnLate s job).memOk := by
  unfold goOnLate
  repeat' split
  all_goals simp [hs]

@[simp] theorem enterIngress_mem (s : State) (p : Packet) : (enterIngress s p).mem = s.mem := rfl

@[simp] theorem latePacket_memOk {s : State} (f : Fold) (p : Packet) (hs : s.memOk) : (latePacket s f p).memOk := by
  simp only [latePacket]
  split
  · simp [hs]
  · split
    · simp [hs]
    · split
      · next h => exact writeHead_memOk _ (by simpa using memOk_of_virtWrite h hs)
      · next m _ =>
        have hk := kittyMiss_memOk f m 2 hs
        split <;> simp_all

@[simp] theorem toldLate_mem (s : State) (p : Packet) : (toldLate s p).mem = s.mem := by fun_cases toldLate s p <;> simp

theorem mem_of_readPackets {fn : Nat} : ∀ {n : Nat} {s t : State} {a : Nat} {ps : List Packet}, readPackets fn n s a = .ok
    (t, ps) → t.mem = s.mem
  | 0, _, _, _, _, h => by cases h; rfl
  | n + 1, s, t, a, ps, h => by
    simp only [readPackets] at h
    split at h
    · cases h
    · next h1 =>
      split at h
      · cases h
      · next h2 =>
        split at h
        · cases h
        · next h3 =>
          cases h
          rw [mem_of_readPackets h3, mem_of_virtRead h2, mem_of_virtRead h1]

@[simp] theorem liftFold_memOk {s : State} (f : Fold) (lossy : Bool) (hs : s.memOk) : (liftFold s f lossy).memOk := by
  unfold liftFold
  split
  · exact hs
  · refine foldl_memOk (fun s n hs => ?_) _ hs
    split <;> simp [hs]

theorem mem_of_kittyPackets {s t : State} {f : Fold} {ps : List Packet} (h : kittyPackets s f = .ok (t, ps)) :
    t.mem = s.mem := by
  unfold kittyPackets at h
  split at h
  · cases h
  · next h1 =>
    split at h
    · cases h
    · next h2 => cases h; rw [mem_of_readPackets h2, mem_of_readPackets h1]

@[simp] theorem unfolded_memOk {s : State} (f : Fold) (ps : List Packet) (lossy : Bool) (hs : s.memOk) :
    (unfolded s f ps lossy).memOk := by
  have h := writeHead_memOk (s := modFold s f.cmd.job fun f => { f with kstate := 3, stale := true }) f.cmd.job (by simp [hs])
  simp only [unfolded]
  split <;> simp_all

@[simp] theorem sendTime_mem (s : State) : (sendTime s).mem = s.mem := by unfold sendTime; split <;> simp

@[simp] theorem flushErrors_memOk : ∀ (l : List (BitVec 512)) {s : State}, s.memOk → (flushErrors l s).memOk
  | [], _, hs => hs
  | r :: rest, s, hs => by
    unfold flushErrors
    split
    · exact hs
    · have ha := ringAppend_memOk 0 s.health.errLog 64 (fun _ => r.toNat) hs
      split
      · next e => exact flushErrors_memOk rest (by rw [e] at ha; exact ha)
      · exact hs

/-! ### Formats -/

@[simp] theorem setFmt_memOk {s : State} (k : ThreadKey) (n : Nat) (v : Word) (hs : s.memOk) : (setFmt s k n v).memOk := by
  fun_cases setFmt s k n v <;> simp [hs]

/-! ### Health -/

@[simp] theorem fallenUnit_memOk {s : State} (b : ReadyBit) (hs : s.memOk) : (fallenUnit s b).memOk := by
  unfold fallenUnit
  split
  · exact foldl_memOk (fun _ _ hs => by simp [hs]) _ hs
  all_goals simp [hs]

@[simp] theorem poisonReg_mem (s : State) (q : QuadId) : (poisonReg s q).mem = s.mem := by fun_cases poisonReg s q <;> simp

@[simp] theorem poisonUnit_memOk {s : State} (u : ErrUnit) (hs : s.memOk) : (poisonUnit s u).memOk := by
  cases u with
  | regSlice q => simp [poisonUnit, hs]
  | _ => exact hs

/-! ### Loads -/

theorem stateAfter_memOk {s : State} {o : Out} (ho : OutOk o) (hs : s.memOk) : (stateAfter s o).memOk := by
  cases o <;> simp_all [stateAfter]

theorem outOk_execScratchpadBankAccept (h : HandKey) {s : State} (hs : s.memOk) : OutOk (execScratchpadBankAccept h s) := by
  unfold execScratchpadBankAccept
  split
  · simp [hs]
  · split
    · rw [outOk_next]
      split
      · exact hs
      · split
        · next e => exact memOk_of_mem_eq (openChecks_mem ..) (memOk_of_acceptNth e hs)
        · exact hs
    · simp [hs]

theorem outOk_execCopyUnitSettle (c : ChanId) (r u more : Nat) {s : State} (hs : s.memOk) : OutOk
    (execCopyUnitSettle c r u more s) := by
  simp only [execCopyUnitSettle]
  repeat' split
  all_goals simp [hs]

theorem outOk_execBagTakeLand (c : ChanId) {s : State} (hs : s.memOk) : OutOk (execBagTakeLand c s) := by
  simp only [execBagTakeLand]
  repeat' split
  all_goals simp [hs]

@[simp] theorem bankStep_memOk {s : State} (b : BankStep) (hs : s.memOk) : (bankStep s b).memOk := by
  cases b with
  | store h => exact stateAfter_memOk (outOk_execScratchpadBankAccept h hs) hs
  | unit c r u => exact stateAfter_memOk (outOk_execCopyUnitSettle c r u 0 hs) hs
  | take c => exact stateAfter_memOk (outOk_execBagTakeLand c hs) hs

@[simp] theorem bankRun_memOk (h : HandKey) (tick : Nat) : ∀ (i n : Nat) {s : State}, s.memOk → (bankRun h tick i n s).memOk
  | _, 0, _, hs => hs
  | i, n + 1, s, hs => by
    simp only [bankRun]
    split
    · exact bankRun_memOk h tick _ n (bankStep_memOk _ hs)
    · exact hs

@[simp] theorem viewOf_memOk {s : State} (h : HandKey) (ts : List LaneRead) (l : Nat) (hs : s.memOk) :
    (viewOf s h ts l).memOk := by
  unfold viewOf
  split <;> simp [hs]

@[simp] theorem banksWent_memOk (s : State) (h : HandKey) (ts : List LaneRead) {t : State} (ht : t.memOk) :
    (banksWent s h ts t).memOk := by
  unfold banksWent
  split <;> simp [ht]

theorem runReads_memOk {s : State} {sh : Shape} {addr : ThreadKey → Team → Vals → Nat}
    {body : State → ThreadKey → Vals → State → LaneOut} (hb : ∀ b k v s, s.memOk → (body b k v s).memOk) (hs : s.memOk) :
    (runReads s sh addr body).memOk := by
  have h1 := fun b : ThreadKey → State => runLanes_memOk (s := s) (sh := sh) (fun k v t ht => hb (b k) k v t ht) hs
  simp only [runReads]
  split
  · exact banksWent_memOk _ _ _ (h1 fun k => viewOf s (handOf k) (readTimes s sh addr) k.lane)
  · exact h1 fun k => viewOf s (handOf k) (readTimes s sh addr) k.lane

@[simp] theorem loadSp_memOk {s : State} (v : State) (k : ThreadKey) (tm : Team) (d : BitVec 8) (n : Nat) (sgn : Bool)
    (a : Nat) (hs : s.memOk) : (loadSp s v k tm d n sgn a).memOk := by
  unfold loadSp; split <;> simp [hs]

@[simp] theorem loadStk_memOk {s : State} (k : ThreadKey) (tm : Team) (d : BitVec 8) (n : Nat) (sgn : Bool) (a : Nat)
    (hs : s.memOk) : (loadStk s k tm d n sgn a).memOk := by
  have h := stackGet_mem s k a n
  unfold loadStk
  split
  · simp
  · split <;> simp_all

@[simp] theorem tgetData_memOk {s : State} (b : State) (k : ThreadKey) (tm : Team) (w : Bool) (d : BitVec 8) (t : TileName)
    (off : Nat) (hs : s.memOk) : (tgetData s b k tm w d t off).memOk := by
  simp only [tgetData]
  repeat' split
  all_goals simp [hs]

/-! ### Matrix instructions -/

@[simp] theorem grantMat_mem (s : State) (q : QuadId) (id : TeamId) : (grantMat s q id).mem = s.mem := rfl

@[simp] theorem claimMat_mem (s : State) (q : QuadId) (id : TeamId) : (claimMat s q id).1.mem = s.mem := by
  simp only [claimMat]
  repeat' split
  all_goals simp

theorem issueJob_memOk {s : State} (k : ThreadKey) (q : QuadId) (tm : Team) (m : MSpec)
    (he : ∀ t : State, t.memOk → (m.eff t).memOk) (hs : s.memOk) : (issueJob s k q tm m).memOk := by
  simp only [issueJob]
  generalize hf : List.foldl _ _ _ = t
  have ht : t.memOk := hf ▸ foldl_memOk (fun _ _ hs => by simp [hs]) _ (by simp [hs])
  split
  · simp [ht]
  · exact he _ (by simp [ht])

theorem mem_of_enterTrick {s t : State} {k : ThreadKey} {tm : Team} {q : QuadId} (h : enterTrick s k tm q = some t) :
    t.mem = s.mem := by
  unfold enterTrick at h
  repeat' split at h
  all_goals cases h <;> simp

/-- A matrix instruction whose effect keeps the memories' form. -/
def MSpecOk (f : State → QuadId → Option MSpec) : Prop :=
  ∀ s q m, s.memOk → f s q = some m → ∀ t : State, t.memOk → (m.eff t).memOk

theorem matrixOp_memOk {s : State} {k : ThreadKey} {tm : Team} {f : State → QuadId → Option MSpec} (hf : MSpecOk f)
    (hs : s.memOk) : (matrixOp s k tm f).memOk := by
  simp only [matrixOp]
  split
  · simp [hs]
  · next s0 e0 =>
    have h0 := memOk_of_mem_eq (mem_of_enterTrick e0) hs
    have hc := claimMat_mem s0 (quadOf s k) k.team
    split
    · next s1 e1 => rw [e1] at hc; simp [show s1.memOk from memOk_of_mem_eq hc h0]
    · next s1 e1 =>
      rw [e1] at hc
      have h1 : s1.memOk := memOk_of_mem_eq hc h0
      split
      · simpa using h1
      · next m em =>
        have hj : (issueJob s1 k (quadOf s k) tm m).memOk := issueJob_memOk _ _ _ _ (hf _ _ _ h1 em) h1
        repeat' split
        all_goals simp [h1, hj]

theorem runMatrix_memOk {s : State} {g : Guard} {a c : Opnd} {f : ThreadKey → Team → Vals → State → QuadId → Option MSpec}
    (hf : ∀ k tm v, MSpecOk (f k tm v)) (hs : s.memOk) : (runMatrix s g a c f).memOk :=
  runBundle_memOk (fun _ _ _ hs => inTeam_memOk (fun _ => matrixOp_memOk (hf _ _ _) hs) hs) hs
@[simp] theorem settleTile_mem (s : State) (d : Option (TeamId × Nat)) (st : Nat) : (settleTile s d st).mem = s.mem := by
  unfold settleTile; split <;> simp
@[simp] theorem setAcc_mem (s : State) (q : QuadId) (n : Nat) (a : AccTile) : (setAcc s q n a).mem = s.mem := rfl

theorem mmaSpec_ok (f : MmaForm) (d : Nat) (na nb : TileName) (k : ThreadKey) (tm : Team) (v : Vals) : MSpecOk
    (mmaSpec f d na nb k tm v) := by
  intro s q m _ h t ht
  unfold mmaSpec at h
  split at h
  · cases h; simp [ht]
  · cases h

@[simp] theorem loadRaw_memOk {s : State} (g : Guard) (d : BitVec 2) (a : CSrc) (tag : Nat) (hs : s.memOk) :
    (loadRaw s g d a tag).memOk :=
  runBundle_memOk (fun _ _ _ hs => inTeam_memOk (fun _ => by
    split
    · simp
    · exact matrixOp_memOk (fun _ _ _ _ h _ ht => by cases h; simp [ht]) hs) hs) hs

@[simp] theorem writeRows_memOk {s : State} (o : MOp) (f : Nat → Nat → Nat) (hs : s.memOk) : (writeRows s o f).memOk :=
  foldl_memOk (fun _ _ hs => spWrite_memOk _ _ _ _ hs) _ hs
@[simp] theorem storeAcc_memOk {s : State} (o : MOp) (rm : Rm) (sat : Bool) (a : AccTile) (hs : s.memOk) :
    (storeAcc s o rm sat a).memOk :=
  foldl_memOk (fun _ _ hs => by split <;> simp [hs]) _ hs

@[simp] theorem getAcc_memOk {s : State} (k : ThreadKey) (tm : Team) (d : BitVec 8) (pair : Bool) (i j n : Nat)
    (f : Nat → BitVec 36 → Nat) (hs : s.memOk) : (getAcc s k tm d pair i j n f).memOk := by
  simp only [getAcc]
  split
  · simp [hs]
  · next s0 e0 =>
    have h0 := memOk_of_mem_eq (mem_of_enterTrick e0) hs
    have hc := claimMat_mem s0 (quadOf s k) k.team
    split
    · next s1 e1 => rw [e1] at hc; simp [show s1.memOk from memOk_of_mem_eq hc h0]
    · next s1 e1 =>
      rw [e1] at hc
      split <;> simp [show s1.memOk from memOk_of_mem_eq hc h0]

@[simp] theorem runDelta_memOk (s : State) {s' : State} (a b d : MOp) (theta : Num) (hs : s'.memOk) :
    (runDelta s s' a b d theta).memOk :=
  writeRows_memOk _ _ (spWrite_memOk _ _ _ _ (writeRows_memOk _ _ hs))

/-! ### Row operations -/

theorem runRow_outOk {s : State} {body : Nat → Nat → NbRun → Pch → State → RowOut}
    (hb : ∀ p n r u s, s.memOk → (body p n r u s).memOk) (hs : s.memOk) : OutOk (runRow s body) := by
  simp only [runRow]
  split
  · next p _ =>
    split
    · next n r _ _ =>
      split
      · exact (outOk_next _).2 hs
      · have h := hb p n r (s.pch p) { s with focus := .none } hs
        split <;> simp_all
    · exact (outOk_next _).2 hs
  · exact (outOk_next _).2 hs

@[simp] theorem setRow_mem (s : State) (p : Nat) (d : BitVec 3) (v : RowVec) : (setRow s p d v).mem = s.mem := rfl
theorem rowAlu_outOk {s : State} (d a b : BitVec 3) (f : RowVec → RowVec → RowVec → RowVec) (hs : s.memOk) : OutOk
    (rowAlu s d a b f) :=
  runRow_outOk (fun _ _ _ _ _ hs => by simp [hs]) hs
@[simp] theorem askRow_mem (s : State) (p n : Nat) (r : NbRun) (k dpa : Nat) (wr : Option (List Byte)) :
    (askRow s p n r k dpa wr).mem = s.mem :=
  rfl

theorem rowReply_memOk {s : State} {p id : Nat} {f : List Byte → State → State} (hf : ∀ bs s, s.memOk → (f bs s).memOk)
    (hs : s.memOk) : (rowReply s p id f).memOk := by
  unfold rowReply
  split
  · simp [hs]
  · split
    · simp [hs]
    · exact hf _ _ (by simp [hs])

@[simp] theorem maskStore_memOk {s : State} (dpa m rsize : Nat) (dirty : Option Nat) (bs : List Byte) (hs : s.memOk) :
    (maskStore s dpa m rsize dirty bs).memOk :=
  foldl_memOk (fun _ _ hs => by simp [hs]) _ hs

/-! ### Waking -/

@[simp] theorem wakeDue_mem (s : State) : (wakeDue s).mem = s.mem := foldl_mem (fun _ _ => by split <;> simp) ..

/-! ### The passing of time -/

@[simp] theorem advanceTime_mem (s : State) (c : Nat) : (advanceTime s c).mem = s.mem := rfl
@[simp] theorem flushLogs_memOk {s : State} (hs : s.memOk) : (flushLogs s).memOk := by
  simp [flushLogs, hs]

@[simp] theorem outside_memOk {s : State} (now : Nat) (hs : s.memOk) : (outside s now).memOk := by
  obtain ⟨hsp, hcm, hd, hf, hh⟩ := s.memOk_iff.1 hs
  refine (State.memOk_iff _).2 ⟨hsp, hcm, hd, ?_, ?_⟩
  · simp only [outside]
    split <;> simp [hf]
  · simp only [outside]
    split <;> simp [hh]

@[simp] theorem passTime_memOk {s : State} (hs : s.memOk) : (passTime s).memOk := by
  simp [passTime, hs]

/-! ### The events with conditions of their own -/

theorem lanes_outOk {s : State} {sh : Shape} {body : ThreadKey → Vals → State → LaneOut}
    (hb : ∀ k v s, s.memOk → (body k v s).memOk) (hs : s.memOk) : OutOk (.next (runLanes s sh body)) :=
  (outOk_next _).2 (runLanes_memOk hb hs)

theorem teamLanes_outOk {s : State} {sh : Shape} {body : ThreadKey → Vals → State → Team → LaneOut}
    (hb : ∀ k v s tm, s.memOk → (body k v s tm).memOk) (hs : s.memOk) : OutOk
    (.next (runLanes s sh fun k v s => inTeam s k (body k v s))) :=
  lanes_outOk (fun k v s hs => inTeam_memOk (fun tm => hb k v s tm hs) hs) hs

theorem matrix_outOk {s : State} {g : Guard} {a c : Opnd} {f : ThreadKey → Team → Vals → State → QuadId → Option MSpec}
    (hf : ∀ k tm v, MSpecOk (f k tm v)) (hs : s.memOk) : OutOk (.next (runMatrix s g a c f)) :=
  (outOk_next _).2 (runMatrix_memOk hf hs)

theorem outOk_execExit (g : Guard) {s : State} (hs : s.memOk) : OutOk (execExit g s) :=
  (outOk_next _).2 (openFocus_memOk s (runLanes_memOk (fun _ _ _ hs => by simp [hs]) hs))

theorem outOk_execStackFill (k : ThreadKey) {s : State} (hs : s.memOk) : OutOk (execStackFill k s) := by
  fun_cases execStackFill k s <;> rw [outOk_next]
  case case2 h _ => simpa using memOk_of_mem_eq (mem_of_virtRead h) hs
  all_goals simp [hs]

theorem outOk_execStackSpill (h : HandKey) {s : State} (hs : s.memOk) : OutOk (execStackSpill h s) := by
  fun_cases execStackSpill h s <;> rw [outOk_next]
  case case2 h => simpa using memOk_of_virtWrite h hs
  all_goals simp [hs]

theorem outOk_execCommonsBankAccept (h : HandKey) (n : Nat) {s : State} (hs : s.memOk) : OutOk
    (execCommonsBankAccept h n s) := by
  unfold execCommonsBankAccept
  split
  · simp [hs]
  · rw [outOk_next]
    split
    · split
      · next e => exact memOk_of_mem_eq (openChecks_mem ..) (memOk_of_acceptNth e (by simp [hs]))
      · exact hs
    · exact hs

theorem outOk_execBrk (g : Guard) (imm : BitVec 16) {s : State} (hs : s.memOk) : OutOk (execBrk g imm s) :=
  teamLanes_outOk (fun _ _ _ _ hs => by split <;> simp [hs]) hs

theorem outOk_execSt (g : Guard) (a : Src) (b : CSrc) (sz : Size) (rel : Option Scope) (off : Word) (space : LdSpace)
    {s : State} (hs : s.memOk) : OutOk (execSt g a b sz rel off space s) :=
  teamLanes_outOk (fun _ _ _ _ hs => by split <;> simp [hs]) hs

theorem outOk_execBagput (g : Guard) (d : BitVec 8) (a b : Src) (off : BitVec 16) {s : State} (hs : s.memOk) : OutOk
    (execBagput g d a b off s) :=
  teamLanes_outOk (fun _ _ _ _ hs => by
    dsimp only
    split
    · simp
    · split
      · simp
      · split
        · split
          · next h => simp [memOk_of_mem_eq (mem_of_takeEntries h) hs]
          · simp
        · split <;> simp [hs]) hs

theorem outOk_execDetCommit (t : TeamId) {s : State} (hs : s.memOk) : OutOk (execDetCommit t s) := by
  have hc := commitStores_memOk t hs
  unfold execDetCommit
  split
  · simp [hs]
  · split
    · simp [hs]
    · split
      · simp [hs]
      · split
        · simp [hs]
        · rw [outOk_next]
          split <;> simpa using hc
      · split <;> simp [hs]
      · rw [outOk_next, memOk_def, State.modTeam_mem, foldl_mem (fun _ _ => commitPuts_mem ..)]
        exact hs
      · simp [hs]

theorem outOk_execNbRunAccept (n : Nat) {s : State} (hs : s.memOk) : OutOk (execNbRunAccept n s) := by
  fun_cases execNbRunAccept n s <;> rw [outOk_next]
  case case7 s1 s2 =>
    have h1 : s1.memOk := memOk_of_mem_eq (takePlaces_mem ..) (by exact hs)
    have h2 : s2.memOk := foldl_memOk (fun _ _ hs => acceptRow_memOk _ _ hs) _ h1
    simpa using h2
  all_goals simp [hs]

theorem outOk_execWcbWriteback (r : SweepRef) (refused : Bool) {s : State} (hs : s.memOk) : OutOk
    (execWcbWriteback r refused s) := by
  simp only [execWcbWriteback]
  split
  · simp [hs]
  · split
    · next h => simpa using memOk_of_writeRw h hs
    · repeat' split
      all_goals simp [hs]

theorem outOk_execTakeRoot (q : Nat) {s : State} (hs : s.memOk) : OutOk (execTakeRoot q s) := by
  fun_cases execTakeRoot q s <;> rw [outOk_next]
  case case7 h _ => simpa using memOk_of_mem_eq (mem_of_virtRead h) hs
  case case9 h1 _ _ _ h2 => exact takeRoot_memOk _ _ _ _ (memOk_of_mem_eq ((mem_of_virtRead h2).trans (mem_of_virtRead h1)) hs)
  all_goals simp [hs]

theorem outOk_execCollRankEnd (c : CoreId) (slot : Nat) {s : State} (hs : s.memOk) : OutOk (execCollRankEnd c slot s) := by
  have h1 : ∀ b : Bool, (if b then s else advanceRank s (c, slot)).memOk := fun b => by split <;> simp [hs]
  simp only [execCollRankEnd]
  generalize hr : (if (s.ranks.any fun r => decide (r.key = (c, slot)) && (s.func r.func).resetting) = true then s
    else advanceRank s (c, slot)) = t
  have ht : t.memOk := hr ▸ h1 _
  split
  · simp [ht]
  · next r _ =>
    have ha := ringAppend_memOk r.func (t.func r.func).collLog 64 (fun _ => r.logEntry t.fab.time) ht
    split
    · simp [ht]
    · split
      · simp [ht]
      · split <;> simp_all

theorem outOk_execFetchLine (h : HandKey) (lanes : BitVec 64) {s : State} (hs : s.memOk) : OutOk
    (execFetchLine h lanes s) := by
  simp only [execFetchLine]
  rw [outOk_next]
  exact memOk_of_mem_eq (askLanes_mem ..) (foldl_memOk (fun _ _ hs => by simp [hs]) _ (by simp [hs]))

theorem outOk_execRegroupBundles (q : QuadId) {s : State} (hs : s.memOk) : OutOk (execRegroupBundles q s) :=
  (outOk_next _).2 (foldl_memOk (fun _ _ hs => by simp [hs]) _ hs)

theorem outOk_execPlaceTeam (die : Nat) {s : State} (hs : s.memOk) : OutOk (execPlaceTeam die s) := by
  fun_cases execPlaceTeam die s <;> rw [outOk_next]
  case case4 s1 s2 =>
    exact foldl_memOk (fun _ e hs => placeItem_memOk _ _ _ e hs) _ (by simp [s1, hs])
  all_goals simp [hs]

theorem outOk_execAdvertiseFreeSlots (die : Nat) {s : State} (hs : s.memOk) : OutOk (execAdvertiseFreeSlots die s) :=
  (outOk_next _).2 (foldl_memOk (fun _ _ hs => foldl_memOk (fun _ _ hs => sendTeams_memOk _ _ _ _ _ _ hs) _ hs) _
    (foldl_memOk (fun _ _ hs => foldl_memOk (fun _ _ hs => by split <;> simp [hs]) _ hs) _ hs))

theorem outOk_execStagingDone (t : TeamId) {s : State} (hs : s.memOk) : OutOk (execStagingDone t s) := by
  have h1 := fun es : List (Nat × BitVec 128) => foldl_memOk (f := stageEntry t) (fun _ x hs => stageEntry_memOk t x hs) es hs
  simp only [execStagingDone]
  repeat' split
  all_goals simp [hs, h1]

theorem outOk_execTeamDrainDone (t : TeamId) {s : State} (hs : s.memOk) : OutOk (execTeamDrainDone t s) := by
  simp only [execTeamDrainDone]
  split
  · simp [hs]
  · next tm _ =>
    have hb := fun l => backFrom_memOk t tm 0 l hs
    split
    · simp [hs]
    · rw [outOk_next]
      split <;> simp [hb]

theorem outOk_execBudgetThrottle (func : Nat) {s : State} (hs : s.memOk) : OutOk (execBudgetThrottle func s) := by
  simp only [execBudgetThrottle]
  split
  · simp [hs]
  · rw [outOk_next]
    refine foldl_memOk (fun _ _ hs => ?_) _ (by simp [hs])
    repeat' split
    all_goals simp [hs]

theorem outOk_execEscalate (t : TeamId) {s : State} (hs : s.memOk) : OutOk (execEscalate t s) := by
  simp only [execEscalate]
  split
  · simp [hs]
  · split
    · simp [hs]
    · split
      · simp [hs]
      · rw [outOk_next, memOk_def, foldl_mem (fun _ _ => State.modChan_mem ..), State.modTeam_mem]
        exact hs

theorem outOk_execFaultQueueAppend (die : Nat) {s : State} (hs : s.memOk) : OutOk (execFaultQueueAppend die s) := by
  have h := firstTaken_memOk die [] s.faults.merged hs
  simp only [execFaultQueueAppend]
  split <;> rw [outOk_next]
  · simp_all
  · split <;> simp_all

theorem outOk_execDealerRefuse (func va : Nat) (code : Byte) {s : State} (hs : s.memOk) : OutOk
    (execDealerRefuse func va code s) := by
  simp only [execDealerRefuse]
  split
  · simp [hs]
  · rw [outOk_next, memOk_def, refuseFolds_mem, refuseSaved_mem, refuseRanks_mem]
    refine refuseTrees_memOk _ _ _ (refuseRows_memOk _ _ (refuseStack_memOk _ _ _
      (refuseStaging_memOk _ _ (refuseUnits_memOk _ _ ?_))))
    simp [hs]

theorem outOk_execBagCreateRequest (func desc row : Nat) {s : State} (hs : s.memOk) : OutOk
    (execBagCreateRequest func desc row s) := by
  unfold execBagCreateRequest
  split
  · simp [hs]
  · split
    · simp [hs]
    · split
      · next h => simpa using memOk_of_mem_eq (mem_of_createBag h) hs
      all_goals simp [hs]

theorem outOk_execFoldInstant (job : Nat) {s : State} (hs : s.memOk) : OutOk (execFoldInstant job s) := by
  simp only [execFoldInstant]
  split
  · simp [hs]
  · next f _ =>
    split
    · simp [hs]
    · have h1 : (if f.kstate = 0 then preemptJob (setFold s { f with kstate := 1, stale := true }) f.cmd else s).memOk := by
        split <;> simp [hs]
      have hw := writeHead_memOk job h1
      split
      · simp_all
      · next e =>
        rw [e] at hw
        rw [outOk_next]
        exact goOnLate_memOk _ (by split <;> simp_all)

theorem outOk_execUnfoldJob (cmd : UnfoldCmd) {s : State} (hs : s.memOk) : OutOk (execUnfoldJob cmd s) := by
  have hk := fun f m => kittyMiss_memOk f m 1 hs
  fun_cases execUnfoldJob cmd s <;> rw [outOk_next]
  case case5 e => exact (KittyMiss.memOk_waits _).1 (e ▸ hk _ _)
  case case6 t e => exact unfolded_memOk _ _ _ (by simpa using (KittyMiss.memOk_over _).1 (e ▸ hk _ _))
  case case7 e => exact unfolded_memOk _ _ _ (memOk_of_mem_eq (mem_of_kittyPackets e) hs)
  all_goals simp [hs]

theorem outOk_execPeerReset (node : Nat) (inc : Word) {s : State} (hs : s.memOk) : OutOk (execPeerReset node inc s) := by
  simp only [execPeerReset]
  repeat' split
  all_goals simp [hs]

theorem outOk_execLinkTrain (port node : Nat) (inc : Word) {s : State} (hs : s.memOk) : OutOk
    (execLinkTrain port node inc s) := by
  have hn := nextOf_memOk (outOk_execPeerReset node inc hs) hs
  simp only [execLinkTrain]
  split <;> rw [outOk_next]
  · exact hs
  · exact hn

theorem outOk_execUncorrectableError (u : ErrUnit) {s : State} (hs : s.memOk) : OutOk (execUncorrectableError u s) :=
  (outOk_next _).2 (makeLasting_memOk _ (logHealth_memOk _ _ (poisonUnit_memOk _ hs)))

theorem outOk_execLd (g : Guard) (d : BitVec 8) (a : Src) (sz : Size) (sgn : Bool) (acq : Option Scope) (off : Word)
    (space : LdSpace) {s : State} (hs : s.memOk) : OutOk (execLd g d a sz sgn acq off space s) := by
  cases space with
  | sp => exact (outOk_next _).2 (runReads_memOk (fun _ _ _ _ hs => inTeam_memOk (fun _ => by simp [hs]) hs) hs)
  | stk => exact teamLanes_outOk (fun _ _ _ _ hs => by simp [hs]) hs

theorem outOk_execTget (g : Guard) (w : Bool) (d : BitVec 8) (a : Src) (t : TileName) {s : State} (hs : s.memOk) : OutOk
    (execTget g w d a t s) :=
  (outOk_next _).2 (runReads_memOk (fun _ _ _ _ hs => inTeam_memOk (fun _ => by simp [hs]) hs) hs)

theorem outOk_execJtab (g : Guard) (a b : CSrc) (off : Word) {s : State} (hs : s.memOk) : OutOk (execJtab g a b off s) := by
  simp only [execJtab]
  generalize hr : runLanes s _ _ = t
  have ht : t.memOk := by
    rw [← hr]
    refine runLanes_memOk (fun _ _ _ hs => inTeam_memOk (fun _ => ?_) hs) hs
    repeat' split
    all_goals simp [hs]
  split <;> rw [outOk_next]
  · split
    · split <;> simp [ht]
    · exact banksWent_memOk _ _ _ (by split <;> simp [ht])
  · exact ht

/-! ### Every instruction, row operation and event -/

theorem outOk_exec (i : Instr) {s : State} (hs : s.memOk) : OutOk (exec i s) := by
  unfold exec
  cases i <;> dsimp only
  case issueSelect | rendezvousForm | producerFill | launchQueueDoorbell | validationReadAnswer | retirementNotice |
    teamMessageReceive | copyRecordStart | copyUnitReplay | copyEndActions | completionRingWrite |
    reducingElementApply | matrixOwnershipGrant | matrixInstructionDone | bagPutArbitrate | bagTakeClaim |
    bagQueryAccept | bagClearPerform | bagIterationStart | bagIterationEnd | bagRemoveRequest | nbRunStart |
    nbRowStart | nbArbitrationSuspend | nbResume | nbRunStop | nbRunEnd | nbStatusWrite | registerWrite |
    faultFilterMerge | dealerMap | translationChange | forwardedLine | migrationSwitch | linePull |
    dupInvalidateAck | peerReset | peerUnreachable | mailboxDoorbell | resume | resumeNext | abort |
    debugEnableRequest | budgetPeriodEnd | sliceEnd | dealerPreemptRequest | contextImageWrite | nodePreempted |
    vfReset | foldCommand | latePacketArrival | timeSync | timeMasterTakeover | flitRetry | packetSend |
    collChunkReceive | poisonSharedRead | powerOnBoot | unitReady | debugIdle | breakpointResume |
    readinessBitFalls | resourceGrant | bagRecordWrite =>
    simp only [execIssueSelect, execRendezvousForm, execProducerFill, execLaunchQueueDoorbell, execValidationReadAnswer,
      execRetirementNotice, execTeamMessageReceive, execCopyRecordStart, execCopyUnitReplay, execCopyEndActions,
      execCompletionRingWrite, execReducingElementApply, execMatrixOwnershipGrant, execMatrixInstructionDone,
      execBagPutArbitrate, execBagTakeClaim, execBagQueryAccept, execBagClearPerform, execBagIterationStart,
      execBagIterationEnd, execBagRemoveRequest, execNbRunStart, execNbRowStart, execNbArbitrationSuspend,
      execNbResume, execNbRunStop, execNbRunEnd, execNbStatusWrite, execRegisterWrite, execFaultFilterMerge,
      execDealerMap, execTranslationChange, execForwardedLine, execMigrationSwitch, execLinePull,
      execDupInvalidateAck, execPeerReset, execPeerUnreachable, execMailboxDoorbell, execResume, execResumeNext,
      execAbort, execDebugEnableRequest, execBudgetPeriodEnd, execSliceEnd, execDealerPreemptRequest,
      execContextImageWrite, execNodePreempted, execVfReset, execFoldCommand, execLatePacketArrival, execTimeSync,
      execTimeMasterTakeover, execFlitRetry, execPacketSend, execCollChunkReceive, execPoisonSharedRead,
      execPowerOnBoot, execUnitReady, execDebugIdle, execBreakpointResume, execReadinessBitFalls,
      execResourceGrant, execBagRecordWrite]
    repeat' split
    all_goals simp [hs]
  case nadd | nsub | nmul | nfma | nmax | nmin | nsum | ncmp | nsel | ncvt => exact rowAlu_outOk _ _ _ _ hs
  case nset | nsetImm => exact runRow_outOk (fun _ _ _ _ _ hs => memOk_of_mem_eq (setRow_mem ..) hs) hs
  case nhalt => exact runRow_outOk (fun _ _ _ _ _ hs => by simp [hs]) hs
  case nkey | nemit | nloop =>
    refine runRow_outOk (fun _ _ _ _ _ hs => ?_) hs
    dsimp only
    repeat' split
    all_goals simp [hs]
  case bra | jmp | waitf | trap | sel | movi | fdot4 | fmtset | fmtsetImm | fmtget | chstop | chstopFreeze |
    chstopThaw | swr => exact lanes_outOk (fun _ _ _ hs => by simp [hs]) hs
  case cvtN | cvtW | chwait =>
    refine lanes_outOk (fun _ _ _ hs => ?_) hs
    dsimp only
    repeat' split
    all_goals simp [hs]
  case call | callr | ret | tgetE | bbinit | bbinitImm | bbwait | cld | cst | acget |
    acgetRaw =>
    exact teamLanes_outOk (fun _ _ _ _ hs => by simp [hs]) hs
  case bbarr | kick | wbind | wstat | coll | probe =>
    refine teamLanes_outOk (fun _ _ _ _ hs => ?_) hs
    dsimp only
    repeat' split
    all_goals simp [hs]
  case aczero => exact matrix_outOk (fun _ _ _ _ _ _ _ h _ ht => by cases h; simp [ht]) hs
  case mmaIp | mmaOp | mmaRw | mmaOpSk | mmaRwSp => exact matrix_outOk (fun _ _ _ => mmaSpec_ok _ _ _ _ _ _ _) hs
  case tready | trel => exact (outOk_next _).2 (runBundle_memOk (fun _ _ _ hs => inTeam_memOk (fun _ => by simp [hs]) hs) hs)
  case tset => exact (outOk_next _).2 (runBundle_memOk (fun _ _ _ hs => inTeam_memOk (fun _ => by
    dsimp only
    repeat' split
    all_goals simp [hs]) hs) hs)
  case jtab => exact outOk_execJtab _ _ _ _ hs
  case brk => exact outOk_execBrk _ _ hs
  case ld => exact outOk_execLd _ _ _ _ _ _ _ _ hs
  case st => exact outOk_execSt _ _ _ _ _ _ _ hs
  case tget => exact outOk_execTget _ _ _ _ _ hs
  case bagput => exact outOk_execBagput _ _ _ _ _ hs
  case fetchLine => exact outOk_execFetchLine _ _ hs
  case regroupBundles => exact outOk_execRegroupBundles _ hs
  case takeRoot => exact outOk_execTakeRoot _ hs
  case wcbWriteback => exact outOk_execWcbWriteback _ _ hs
  case placeTeam => exact outOk_execPlaceTeam _ hs
  case advertiseFreeSlots => exact outOk_execAdvertiseFreeSlots _ hs
  case stagingDone => exact outOk_execStagingDone _ hs
  case stagingPageAnswer => exact outOk_execStagingPageAnswer _ _ hs
  case teamDrainDone => exact outOk_execTeamDrainDone _ hs
  case scratchpadBankAccept => exact outOk_execScratchpadBankAccept _ hs
  case commonsBankAccept => exact outOk_execCommonsBankAccept _ _ hs
  case detCommit => exact outOk_execDetCommit _ hs
  case stackFill => exact outOk_execStackFill _ hs
  case stackSpill => exact outOk_execStackSpill _ hs
  case stackPageAnswer => exact outOk_execStackPageAnswer _ _ _ hs
  case copyUnitSettle => exact outOk_execCopyUnitSettle _ _ _ _ hs
  case bagTakeLand => exact outOk_execBagTakeLand _ hs
  case bagCreateRequest => exact outOk_execBagCreateRequest _ _ _ hs
  case nbRunAccept => exact outOk_execNbRunAccept _ hs
  case nbRowMapped => exact outOk_execNbRowMapped _ _ _ hs
  case faultQueueAppend => exact outOk_execFaultQueueAppend _ hs
  case dealerRefuse => exact outOk_execDealerRefuse _ _ _ hs
  case budgetThrottle => exact outOk_execBudgetThrottle _ hs
  case escalate => exact outOk_execEscalate _ hs
  case foldInstant => exact outOk_execFoldInstant _ hs
  case unfoldJob => exact outOk_execUnfoldJob _ hs
  case linkTrain => exact outOk_execLinkTrain _ _ _ hs
  case collRankEnd => exact outOk_execCollRankEnd _ _ hs
  case uncorrectableError => exact outOk_execUncorrectableError _ hs
  case exit => exact outOk_execExit _ hs
  case yield | tbar => exact (outOk_next _).2 (arriveAt_memOk (fun _ _ hs => by simp [hs]) hs)
  case lbar => exact (outOk_next _).2 (arriveAt_memOk (fun _ _ hs => by split <;> simp [hs]) hs)
  case movK => exact lanes_outOk (fun _ _ _ hs => by split <;> simp [hs]) hs
  case satom => exact teamLanes_outOk (fun _ _ _ _ hs => by split <;> simp [hs]) hs
  case catom => exact teamLanes_outOk (fun _ _ _ _ hs => rmwCm_memOk (fun _ hs => by simp [hs]) hs) hs
  case cred | caxpy => exact teamLanes_outOk (fun _ _ _ _ hs => rmwCm_memOk (fun _ hs => hs) hs) hs
  case chstat | foldq | foldqP => exact teamLanes_outOk (fun _ _ _ _ hs => by split <;> simp [hs]) hs
  case wunbind => exact lanes_outOk (fun _ _ _ hs => by split <;> simp [hs]) hs
  case acload | acstore | txpose =>
    refine matrix_outOk (fun _ _ _ _ _ _ _ h _ ht => ?_) hs
    split at h <;> cases h
    simp [ht]
  case delta =>
    refine matrix_outOk (fun _ _ _ _ _ _ _ h _ ht => ?_) hs
    split at h <;> cases h
    simp [ht]
  case spcomp =>
    refine matrix_outOk (fun _ _ _ _ _ _ _ h _ ht => ?_) hs
    split at h <;> cases h
    dsimp only
    split <;> simp [ht]
  case acstoreRaw =>
    refine (outOk_next _).2 (runBundle_memOk (fun _ _ _ hs => inTeam_memOk (fun _ => ?_) hs) hs)
    split
    · simp
    · exact matrixOp_memOk (fun _ _ _ _ h _ ht => by cases h; simp [ht]) hs
  case bagtake =>
    refine teamLanes_outOk (fun _ _ _ _ hs => withBag_memOk fun _ => ?_) hs
    dsimp only
    repeat' split
    all_goals simp [hs]
  case bagcut | bagwait | bagclr => exact teamLanes_outOk (fun _ _ _ _ hs => waitBag_memOk (fun _ _ hs => by simp [hs]) hs) hs
  case baginfo =>
    refine teamLanes_outOk (fun _ _ _ _ hs => ?_) hs
    dsimp only
    split
    · simp
    · exact replyBag_memOk (fun _ _ hs => by simp [hs]) hs
  case bagiter =>
    refine teamLanes_outOk (fun _ _ _ _ hs => ?_) hs
    have hr := fun b c d e => replyBag_memOk (k := b) (tm := c) (h := d) (ask := e) (done := fun _ s => .done s) (fun _ _ hs => hs) hs
    dsimp only
    split
    · exact hr _ _ _ _
    · refine withBag_memOk fun _ => ?_
      repeat' split
      all_goals simp [hr]
  case nbrun =>
    refine teamLanes_outOk (fun _ _ _ _ hs => ?_) hs
    dsimp only
    split_ifs
    exacts [askAndWait_memOk (fun _ => rfl) (fun _ _ hs => hs) hs, trivial, trivial, trivial, hs,
      askAndWait_memOk (fun _ => rfl) (fun _ _ hs => hs) hs]
  case collq | collqWait =>
    refine teamLanes_outOk (fun _ _ _ _ hs => ?_) hs
    repeat' split
    all_goals simp [hs]
  case srd =>
    refine teamLanes_outOk (fun _ _ _ _ hs => ?_) hs
    split <;> simp [hs]
  case nload | nstore =>
    refine runRow_outOk (fun _ _ _ _ _ hs => ?_) hs
    dsimp only
    split
    · exact rowReply_memOk (fun _ _ hs => by simp [hs]) hs
    · repeat' split
      all_goals simp [hs]
  case nnext | njmp | nsync =>
    refine runRow_outOk (fun _ _ _ _ _ hs => ?_) hs
    repeat' split
    all_goals simp [hs]
  all_goals exact (outOk_next _).2 (by simp [hs])

/-! ### One step -/
theorem nextTurn_memOk {s : State} (hs : s.memOk) : (nextTurn s).memOk := by
  simp only [nextTurn]
  repeat' split
  all_goals simp [hs]

theorem step_memOk {s : State} (hs : s.memOk) : OutOk (step s) := by
  unfold step
  split
  · exact fun _ h => by cases h
  · split
    · next h m _ =>
      have hb := fetchBundle_memOk h m hs
      split
      · next e => exact outOk_exec _ (by rw [e] at hb; exact hb)
      · next e => rw [outOk_next]; rw [e] at hb; exact hb
    · exact outOk_exec _ hs
    · have hn := nextTurn_memOk hs
      split
      · next e => rw [outOk_next]; rw [e] at hn; exact hn
      · next e => exact outOk_exec _ (by rw [e] at hn; exact hn)

/-- Settles O59: every instruction, row operation and event keeps the canonical form (`outOk_exec`), and so do the fetch of
a bundle and the passing of time. -/
theorem memoryStaysCanonical : Obligations.MemoryStaysCanonical :=
  fun _ t hs h => step_memOk hs t h

end Sys2Proof.Machine

/-! SUPPORT. The bytes of a scratchpad (07 R138, R140, R144): where the bytes of an aligned range lie, and what a write makes of
them. -/

namespace Sys2Proof.Machine

/-! ## Bytes of a number (00 R3) -/

theorem bytesOfNat_getElem (v i : Nat) : ∀ {n : Nat} (h : i < (bytesOfNat n v).length),
    (bytesOfNat n v)[i] = BitVec.ofNat 8 (v / 2 ^ (8 * i)) := by
  induction i generalizing v with
  | zero =>
    intro n h
    cases n with
    | zero => simp at h
    | succ n => simp [bytesOfNat]
  | succ i ih =>
    intro n h
    cases n with
    | zero => simp at h
    | succ n =>
      have hp : v / 256 / 2 ^ (8 * i) = v / 2 ^ (8 * (i + 1)) := by
        rw [Nat.div_div_eq_div_mul, show 8 * (i + 1) = 8 + 8 * i by omega, pow_add]
        rfl
      simp only [bytesOfNat, List.getElem_cons_succ, ih, hp]

theorem natOfBytes_lt : ∀ bs : List Byte, natOfBytes bs < 2 ^ (8 * bs.length)
  | [] => by simp [natOfBytes]
  | b :: bs => by
    have h := natOfBytes_lt bs
    have hb := b.isLt
    rw [natOfBytes, List.length_cons, Nat.mul_succ, pow_add]
    omega

/-- The bytes of a number are those of its remainder. -/
theorem natOfBytes_bytesOfNat_mod (n v : Nat) : natOfBytes (bytesOfNat n v) = v % 2 ^ (8 * n) := by
  induction n generalizing v with
  | zero => simp [bytesOfNat, natOfBytes, Nat.mod_one]
  | succ n ih =>
    rw [bytesOfNat, natOfBytes, ih, BitVec.toNat_ofNat, Nat.mul_succ, pow_add, mul_comm (2 ^ (8 * n)), Nat.mod_mul]
    rfl

/-! ## Memories -/

theorem memGet_memWrite_inside : ∀ (bs : List Byte) {m : List Host.Cell} (a i : Nat) (h : i < bs.length), memWf m = true →
    memGet (memWrite m a bs) (a + i) = bs[i]
  | b :: bs, m, a, 0, _, hm => by
    rw [memWrite, memGet_memWrite_outside bs _ _ (by omega), memGet_memSet hm]
    simp
  | b :: bs, m, a, i + 1, h, hm => by
    rw [memWrite, show a + (i + 1) = a + 1 + i by omega,
      memGet_memWrite_inside bs (a + 1) i (by simpa using h) (memWf_memSet a b hm), List.getElem_cons_succ]

/-- Bytes written one after another at ascending places are written as a range. -/
theorem foldl_memSet_range (k : Nat) : ∀ (bs : List Byte) (m : List Host.Cell),
    (((List.range bs.length).map (k + ·)).zip bs).foldl (fun m e => memSet m e.1 e.2) m = memWrite m k bs := by
  intro bs
  induction bs generalizing k with
  | nil => exact fun _ => rfl
  | cons b bs ih =>
    intro m
    have hr : (List.range bs.length).map ((k + ·) ∘ Nat.succ) = (List.range bs.length).map (k + 1 + ·) :=
      List.map_congr_left fun i _ => by simp only [Function.comp_apply]; omega
    rw [List.length_cons, List.range_succ_eq_map, List.map_cons, List.map_map, hr, List.zip_cons_cons, List.foldl_cons, ih]
    rfl

/-! ## Where the bytes of an aligned range lie (07 R138) -/

/-- n bytes from an address on that lie in one word of 64 bytes of a team's scratchpad. -/
structure InWord (tm : Team) (x n : Nat) : Prop where
  size : 0 < n
  start : tm.start % 64 = 0
  fits : x % 64 + n ≤ 64

theorem inWord_of_aligned {tm : Team} {x n : Nat} (hs : tm.start % 64 = 0) (h0 : 0 < n) (h64 : 64 % n = 0) (hx : x % n = 0) :
    InWord tm x n := by
  refine ⟨h0, hs, ?_⟩
  obtain ⟨c, hc⟩ := Nat.dvd_of_mod_eq_zero h64
  have hm : x % 64 % n = 0 := by rw [Nat.mod_mod_of_dvd x ⟨c, hc⟩]; exact hx
  obtain ⟨q, hq⟩ := Nat.dvd_of_mod_eq_zero hm
  have hlt : n * q < n * c := by have := Nat.mod_lt x (show 0 < 64 by decide); omega
  have : q < c := Nat.lt_of_mul_lt_mul_left hlt
  have := Nat.mul_le_mul_left n (show q + 1 ≤ c by omega)
  rw [Nat.mul_succ] at this
  omega

/-- The bytes of such a range lie one after another. -/
theorem spKey_add {tm : Team} {x n : Nat} (h : InWord tm x n) (id : TeamId) {i : Nat} (hi : i < n) :
    tm.spKey id (x + i) = tm.spKey id x + i := by
  obtain ⟨h0, hs, hf⟩ := h
  have hq : (tm.start + (x + i)) / 64 = (tm.start + x) / 64 := by omega
  have hr : (tm.start + (x + i)) % 64 = (tm.start + x) % 64 + i := by omega
  simp only [Team.spKey, spKey, ← Nat.div_div_eq_div_mul, hq, hr]
  omega

theorem spKeys_eq {tm : Team} {x n : Nat} (h : InWord tm x n) (id : TeamId) :
    (List.range n).map (fun i => tm.spKey id (x + i)) = (List.range n).map (tm.spKey id x + ·) :=
  List.map_congr_left fun _ hi => spKey_add h id (List.mem_range.1 hi)

theorem spWrite_sp {tm : Team} {x : Nat} {bs : List Byte} (h : InWord tm x bs.length) (s : State) (id : TeamId) :
    (s.spWrite id tm x bs).mem.sp = memWrite s.mem.sp (tm.spKey id x) bs := by
  simp only [State.spWrite, spKeys_eq h, foldl_memSet_range]

/-- Without poison a write changes only the scratchpad's bytes. -/
theorem spWrite_eq {tm : Team} {x : Nat} {bs : List Byte} (h : InWord tm x bs.length) {s : State} (hp : s.mem.spPoison = [])
    (id : TeamId) : s.spWrite id tm x bs = { s with mem := { s.mem with sp := memWrite s.mem.sp (tm.spKey id x) bs } } := by
  rw [← spWrite_sp h s id]
  simp only [State.spWrite, hp, List.filter_nil]

theorem spWrite_poison {s : State} (hp : s.mem.spPoison = []) (id : TeamId) (tm : Team) (x : Nat) (bs : List Byte) :
    (s.spWrite id tm x bs).mem.spPoison = [] := by
  simp [State.spWrite, hp]

theorem spPoisoned_of_sound {s : State} (hp : s.mem.spPoison = []) (id : TeamId) (tm : Team) (x n : Nat) :
    s.spPoisoned id tm x n = false := by
  simp [State.spPoisoned, hp]

theorem spNat_lt (s : State) (id : TeamId) (tm : Team) (x n : Nat) : s.spNat id tm x n < 2 ^ (8 * n) := by
  simpa [State.spNat, State.spBytes] using natOfBytes_lt (s.spBytes id tm x n)

/-- What a write of n bytes of a number makes of a memory (07 R144). -/
theorem wrote_memWrite {m : List Host.Cell} (hm : memWf m = true) {tm : Team} {x n : Nat} (h : InWord tm x n) (id : TeamId) (v : Nat) :
    Wrote m (memWrite m (tm.spKey id x) (bytesOfNat n v)) (fun i => tm.spKey id (x + i)) n v := by
  refine ⟨fun i hi => ?_, fun y hy => ?_⟩
  · dsimp only
    rw [spKey_add h id hi, memGet_memWrite_inside _ _ _ (by simpa using hi) hm, bytesOfNat_getElem]
  · refine memGet_memWrite_outside _ _ _ ?_
    rw [bytesOfNat_length]
    by_contra hc
    have hi : y - tm.spKey id x < n := by omega
    exact hy _ hi (by dsimp only; rw [spKey_add h id hi]; omega)

/-- The bytes of an aligned range read back as they were written. -/
theorem spNat_spWrite {s : State} (hs : s.memOk) {tm : Team} {x n : Nat} (h : InWord tm x n) (id : TeamId) (v : Nat) :
    (s.spWrite id tm x (bytesOfNat n v)).spNat id tm x n = v % 2 ^ (8 * n) := by
  have hl : (bytesOfNat n v).length = n := bytesOfNat_length n v
  have hb : (s.spWrite id tm x (bytesOfNat n v)).spBytes id tm x n = bytesOfNat n v := by
    refine List.ext_getElem (by simp [State.spBytes]) fun i h1 h2 => ?_
    have hi : i < n := by simpa using h2
    simp only [State.spBytes, State.spByte, List.getElem_map, List.getElem_range]
    rw [spWrite_sp (by rwa [hl]), spKey_add h id hi, memGet_memWrite_inside _ _ _ h2 (s.memOk_iff.1 hs).1]
  rw [State.spNat, hb, natOfBytes_bytesOfNat_mod]

end Sys2Proof.Machine

/-! SUPPORT. Accesses of threads to their scratchpad (07 R140, R144; 13 R275): what the checks and the queues that they meet come
to where nothing is in the way. -/

namespace Sys2Proof.Machine

@[simp] theorem handOf_threadOf (h : HandKey) (l : Nat) : handOf (threadOf h l) = h := rfl
@[simp] theorem threadOf_team (h : HandKey) (l : Nat) : (threadOf h l).team = h.team := rfl
@[simp] theorem threadOf_lane (h : HandKey) (l : Nat) : (threadOf h l).lane = l := rfl

theorem sizeBytes_pos (sz : Size) : 0 < sizeBytes sz := by
  cases sz <;> decide

/-- A sign-extended access is of at most one word. -/
theorem sizeBytes_le_of_signed {sz : Size} {sgn : Bool} (h : sgn = true → sz ≠ .d) (hs : sgn = true) : sizeBytes sz ≤ 4 := by
  cases sz
  case d => exact absurd rfl (h hs)
  all_goals decide

/-! ## Checks -/

theorem spCheck_of_fits {tm : Team} {x n : Nat} (h : Fits x n tm.scratch) (acc : Nat) : spCheck tm x n n acc = none := by
  obtain ⟨hb, ha⟩ := h
  simp [spCheck, ha, Nat.not_lt.2 hb]

theorem heldRange_of_no_holds {s : State} (h : s.holds = []) (id : TeamId) (a n : Nat) (dst : Bool) :
    heldRange s id a n dst = false := by
  simp [heldRange, h]

/-- A hand none of whose queued accesses acquires holds no access back. -/
theorem acqPending_of_no_acq {s : State} {k : ThreadKey} {hd : Hand} (hh : aget (handOf k) s.hands = some hd)
    (hq : ∀ e ∈ hd.storeQ, e.acq = none) (wide : Bool) : acqPending s k wide = false := by
  simp only [acqPending, hh, List.any_eq_false]
  intro e he
  simp [hq e he]

/-! ## Loads -/

section
variable {s : State} {k : ThreadKey} {tm : Team} {hd : Hand} {x n : Nat}

/-- A read for which nothing waits gives the bytes that its thread sees. -/
theorem spLoad_of_free (hf : Fits x n tm.scratch) (hh : aget (handOf k) s.hands = some hd) (hq : ∀ e ∈ hd.storeQ, e.acq = none)
    (hrmw : rmwPending hd x n = false) (hold : s.holds = []) (hp : (threadView s k).spPoisoned k.team tm x n = false) :
    spLoad s k tm x n n = .ok ((threadView s k).spNat k.team tm x n) := by
  simp [spLoad, spCheck_of_fits hf, hh, acqPending_of_no_acq hh hq, heldRange_of_no_holds hold, hrmw, hp]

/-- One queued access as its hand's loads see it. -/
def seenStore (id : TeamId) (tm : Team) (s : State) (e : Access) : State :=
  match e.op with
  | .spStore a n v => s.spWrite id tm a (bytesOfNat n v)
  | _ => s

theorem threadView_of_no_entries (hh : aget (handOf k) s.hands = some hd) (ht : aget k.team s.teams = some tm)
    (hb : hd.detBuf = []) : threadView s k = hd.storeQ.foldl (seenStore k.team tm) s := by
  simp only [threadView, hh, ht, hb]
  rfl

theorem threadView_of_empty (hh : aget (handOf k) s.hands = some hd) (hq : hd.storeQ = []) (hb : hd.detBuf = []) :
    threadView s k = s := by
  cases ht : aget k.team s.teams with
  | none => simp [threadView, hh, ht]
  | some tm => rw [threadView_of_no_entries hh ht hb, hq, List.foldl_nil]

theorem threadView_of_calm {h : HandKey} (hc : Calm s h hd) (l : Nat) : threadView s (threadOf h l) = s :=
  threadView_of_empty (k := threadOf h l) hc.hand hc.queue hc.buffer

theorem acqPending_of_calm {h : HandKey} (hc : Calm s h hd) (l : Nat) (wide : Bool) : acqPending s (threadOf h l) wide = false :=
  acqPending_of_no_acq (k := threadOf h l) hc.hand (by simp [hc.queue]) wide

theorem spLoad_of_calm {h : HandKey} {l : Nat} (hc : Calm s h hd) (hf : Fits x n tm.scratch)
    (hp : s.spPoisoned h.team tm x n = false) : spLoad s (threadOf h l) tm x n n = .ok (s.spNat h.team tm x n) := by
  have hv := threadView_of_calm hc l
  have := spLoad_of_free (k := threadOf h l) hf hc.hand (by simp [hc.queue]) (by simp [rmwPending, hc.queue]) hc.holds (by rwa [hv])
  rwa [hv] at this

theorem seenStore_memOk (id : TeamId) (e : Access) (hs : s.memOk) : (seenStore id tm s e).memOk := by
  unfold seenStore
  split
  · exact spWrite_memOk _ _ _ _ hs
  · exact hs

theorem seenStore_poison (id : TeamId) (e : Access) (hp : s.mem.spPoison = []) : (seenStore id tm s e).mem.spPoison = [] := by
  unfold seenStore
  split
  · exact spWrite_poison hp ..
  · exact hp

theorem seenStores_sound (id : TeamId) (tm : Team) : ∀ (q : List Access) {s : State}, s.memOk → s.mem.spPoison = [] →
    (q.foldl (seenStore id tm) s).memOk ∧ (q.foldl (seenStore id tm) s).mem.spPoison = []
  | [], _, hs, hp => ⟨hs, hp⟩
  | e :: q, _, hs, hp => seenStores_sound id tm q (seenStore_memOk id e hs) (seenStore_poison id e hp)

/-- Stores still queued are seen, the latest last (13 R275). -/
theorem threadView_of_last_store {q : List Access} {e : Access} {v : Nat} (hs : s.memOk) (hp : s.mem.spPoison = [])
    (hh : aget (handOf k) s.hands = some hd) (ht : aget k.team s.teams = some tm) (hq : hd.storeQ = q ++ [e])
    (he : e.op = .spStore x n v) (hb : hd.detBuf = []) :
    ∃ t : State, t.memOk ∧ t.mem.spPoison = [] ∧ threadView s k = t.spWrite k.team tm x (bytesOfNat n v) := by
  obtain ⟨ho, hn⟩ := seenStores_sound k.team tm q hs hp
  refine ⟨_, ho, hn, ?_⟩
  rw [threadView_of_no_entries hh ht hb, hq, List.foldl_append, List.foldl_cons, List.foldl_nil, seenStore, he]

theorem spLoad_of_last_store {q : List Access} {e : Access} {v : Nat} (hs : s.memOk) (hh : aget (handOf k) s.hands = some hd)
    (ht : aget k.team s.teams = some tm) (hq : hd.storeQ = q ++ [e]) (he : e.op = .spStore x n v)
    (hall : ∀ y ∈ hd.storeQ, y.acq = none ∧ ∃ a m z, y.op = .spStore a m z) (hb : hd.detBuf = []) (hold : s.holds = [])
    (hf : Fits x n tm.scratch) (hw : InWord tm x n) (hp : s.mem.spPoison = []) :
    spLoad s k tm x n n = .ok (v % 2 ^ (8 * n)) := by
  have hrmw : rmwPending hd x n = false := by
    simp only [rmwPending, List.any_eq_false]
    intro y hy
    obtain ⟨-, a, m, z, hop⟩ := hall y hy
    simp [hop]
  obtain ⟨t, hok, hsound, hv⟩ := threadView_of_last_store hs hp hh ht hq he hb
  rw [spLoad_of_free hf hh (fun y hy => (hall y hy).1) hrmw hold
    (by rw [hv]; exact spPoisoned_of_sound (spWrite_poison hsound ..) ..), hv, spNat_spWrite hok hw]

end

/-! ## LD (07 R144) -/

/-- The value that a load extends is the number read, or that number less its weight (07 R144). -/
theorem extendLoad_eq_loaded {n : Nat} {sgn : Bool} {x : Nat} (hn : 0 < n) (hx : x < 2 ^ (8 * n)) (h4 : sgn = true → n ≤ 4) :
    extendLoad n sgn x = loaded n sgn x := by
  by_cases hc : sgn = true ∧ 2 ^ (8 * n - 1) ≤ x
  · have hle : 2 ^ (8 * n) ≤ 2 ^ 32 := Nat.pow_le_pow_right (by decide) (by have := h4 hc.1; omega)
    rw [extendLoad, loaded, if_pos (by simpa using hc), if_pos hc]
    apply BitVec.eq_of_toNat_eq
    rw [BitVec.toNat_setWidth, BitVec.toNat_ofInt, BitVec.toNat_ofNat]
    have hcast : ((2 : Int) ^ (8 * n)) = ((2 ^ (8 * n) : Nat) : Int) := by push_cast; rfl
    rw [hcast]
    generalize 2 ^ (8 * n) = p at *
    omega
  · rw [extendLoad, loaded, if_neg (by simpa using hc), if_neg hc]

theorem readTimes_of_still {s : State} {sh : Shape} {h : HandKey} {tm : Team} {ls : List Nat} (hf : inFocus s = some (h, tm, ls))
    (hb : bankSteps s h = []) (addr : ThreadKey → Team → Vals → Nat) : readTimes s sh addr = [] := by
  simp [readTimes, hf, hb]

/-- Where nothing can come between its lanes' reads an instruction runs as if its banks stood still. -/
theorem runReads_of_no_times {s : State} {sh : Shape} {addr : ThreadKey → Team → Vals → Nat}
    {body : State → ThreadKey → Vals → State → LaneOut} (ht : readTimes s sh addr = []) :
    runReads s sh addr body = runLanes s sh (body s) := by
  simp only [runReads, ht]
  split <;> rfl

/-- What an LD of the scratchpad does in a lane for which nothing is in the way. -/
theorem loadSp_of_calm {s s' : State} {h : HandKey} {hd : Hand} {tm : Team} {x : Nat} {l : Nat} (sz : Size) {sgn : Bool}
    (d : BitVec 8) (hc : Calm s h hd) (hsz : sgn = true → sz ≠ .d) (hf : Fits x (sizeBytes sz) tm.scratch)
    (hp : s.spPoisoned h.team tm x (sizeBytes sz) = false) :
    loadSp s' s (threadOf h l) tm d (sizeBytes sz) sgn x = .done (s'.modThread (threadOf h l) fun u =>
      writeReg u d (sizeBytes sz = 8) (loaded (sizeBytes sz) sgn (s.spNat h.team tm x (sizeBytes sz)))) := by
  rw [loadSp, spLoad_of_calm hc hf hp]
  simp only [extendLoad_eq_loaded (sizeBytes_pos sz) (spNat_lt ..) (sizeBytes_le_of_signed hsz), putReg]

/-- Settles O19: a load in a lane by `loadSp_of_calm`, and of a queued store by `spLoad_of_last_store`. -/
theorem scratchpadLoads : Obligations.ScratchpadLoads := by
  refine ⟨fun g d a sz sgn acq off s h tm ls hd hsz hc hcalm hbank hx => ?_, ?_⟩
  · refine ⟨_, rfl, ?_⟩
    change LanesGet s (runReads s _ _ _) _ _ _ _ _
    rw [runReads_of_no_times (readTimes_of_still hc.focus hbank _)]
    refine runLanes_part hc fun l hl => ?_
    obtain ⟨v, hv⟩ := hc.ready l hl
    refine ⟨v, hv, fun s' hs' _ => ?_⟩
    have hteam : aget (threadOf h l).team s'.teams = some tm := by rw [teams_of_threads hs']; exact inFocus_team hc.focus
    obtain ⟨hf, hp⟩ := hx l hl
    rw [inTeam_of_team hteam]
    rw [value_of_readOpnds hv] at *
    exact loadSp_of_calm sz d hcalm hsz hf hp
  · intro s k tm hd q e x n v hs hh ht hq he hall hb hold hn hf hst hp
    have hw : InWord tm x n := by
      obtain ⟨-, ha⟩ := hf
      rcases hn with rfl | rfl | rfl | rfl <;> exact inWord_of_aligned hst (by decide) (by decide) ha
    exact spLoad_of_last_store hs hh ht hq he hall hb hold hf hw hp

end Sys2Proof.Machine

/-! SUPPORT. Accesses in the store queue and at their bank (07 R141, R144, R145; 13 R274). -/

namespace Sys2Proof.Machine

/-! ## Entering a queue or a buffer (13 R274, R289) -/

/-- Two changes of a hand that agree on it are one change. -/
theorem modHand_congr {s : State} {k : HandKey} {f g : Hand → Hand} (h : ∀ u, aget k s.hands = some u → f u = g u) :
    s.modHand k f = s.modHand k g := by
  unfold State.modHand
  cases hu : aget k s.hands with
  | none => rw [amod_of_none f hu, amod_of_none g hu]
  | some u => rw [amod_congr (h u hu) hu]

theorem enqueue_eq_queued (s : State) (h : HandKey) (l : Nat) (op : AccOp) (rel acq : Option Scope) :
    enqueue s (threadOf h l) op rel acq = queued s h l op rel acq := by
  refine modHand_congr (k := h) fun u hu => ?_
  simp [nextSeqNo, hu]

theorem takeEntries_of_room {s : State} {h : HandKey} {hd : Hand} {l w : Nat} {es : List DetEntry}
    (hh : aget h s.hands = some hd) (hr : (hd.detBuf.filter fun e => e.lane = l).length + es.length ≤ 1024 / w) :
    takeEntries s (threadOf h l) w es = some (s.setHand h { hd with detBuf := hd.detBuf ++ es }) := by
  simp only [takeEntries, handOf_threadOf, hh]
  exact if_neg (Nat.not_lt.2 hr)

theorem buffered_of_room {s : State} {h : HandKey} {hd : Hand} {l w : Nat} (e : DetEntry) (hh : aget h s.hands = some hd)
    (hr : (hd.detBuf.filter fun e => e.lane = l).length + 1 ≤ 1024 / w) :
    buffered s (threadOf h l) w e = .done (s.setHand h { hd with detBuf := hd.detBuf ++ [e] }) := by
  rw [buffered, takeEntries_of_room hh hr]

/-! ## One lane in its team -/

/-- What an instruction of a bundle of one thread does whose part asks for the thread's team. -/
theorem runLanes_one_team_done {s s' : State} {sh : Shape} {h : HandKey} {tm : Team} {l : Nat} {v : Vals}
    {body : ThreadKey → Vals → State → Team → LaneOut} (hc : OneLane s sh h tm l v) (hb : body (threadOf h l) v s tm = .done s') :
    runLanes s sh (fun k v s => inTeam s k (body k v s)) = goesOn s' h l :=
  runLanes_one_done hc ((inTeam_of_team (inFocus_team hc.focus) _).trans hb)

theorem runLanes_one_team_left {s s' : State} {sh : Shape} {h : HandKey} {tm : Team} {l : Nat} {v : Vals}
    {body : ThreadKey → Vals → State → Team → LaneOut} (hc : OneLane s sh h tm l v) (hb : body (threadOf h l) v s tm = .left s') :
    runLanes s sh (fun k v s => inTeam s k (body k v s)) = endIssue s' h [l] :=
  runLanes_one_left hc ((inTeam_of_team (inFocus_team hc.focus) _).trans hb)

/-! ## A hand's only access at its bank (07 R141) -/

/-- The only access of a hand is accepted, where nothing holds it back: it is a scratchpad store or read-modify-write. -/
theorem bankAccept_of_one {s : State} {h : HandKey} {hd : Hand} {e : Access} (hh : aget h s.hands = some hd) (hq : hd.storeQ = [e])
    (hf : hd.fences = []) (hr : e.rel = none) (ho : s.holds = []) (hi : (s.core (coreOf h.team)).idle = false)
    (hl : e.op.isLoad = false) (hc : e.op.cmRange = none) :
    exec (.scratchpadBankAccept h) s = .next (openChecks (performSp (taken s h hd) h e) h.team) := by
  have ho' : oldestStore hd.storeQ = some 0 := by simp [oldestStore, hq, hl]
  have hrel : entryReleased s h e = true := by simp [entryReleased, hr, hh, hf]
  have hat : atomFree [e] 0 e = true := by simp only [atomFree]; split <;> simp
  have hm : mayAccept s h [e] 0 e = true := by
    simp only [mayAccept, hl, Bool.false_eq_true, if_false, ← hq, ho', hrel]
    rw [hq, hat]
    cases e.op.spRange <;> simp [heldRange_of_no_holds ho]
  have hacc : acceptNth s h 0 false = some (performSp (taken s h hd) h e) := by
    simp [acceptNth, hh, hq, hc, hm, delAt, taken]
  show execScratchpadBankAccept h s = _
  simp only [execScratchpadBankAccept, hh, ho', hi, Bool.false_eq_true, if_false, hacc]

/-- A bank performs a store (07 R144). -/
theorem performSp_store {s : State} {h : HandKey} {tm : Team} {e : Access} {x n v : Nat} (ht : aget h.team s.teams = some tm)
    (he : e.op = .spStore x n v) (hw : InWord tm x n) (hp : s.mem.spPoison = []) : performSp s h e =
      { s with mem := { s.mem with sp := memWrite s.mem.sp (tm.spKey h.team x) (bytesOfNat n v) } } := by
  simp only [performSp, ht, he]
  exact spWrite_eq (by simpa using hw) hp _

@[simp] theorem writeReg_run (t : Thread) (r : BitVec 8) (p : Bool) (v : Dword) : (writeReg t r p v).run = t.run := by
  unfold writeReg; repeat' split
  all_goals rfl

/-- A thread that waits for its bank goes on; any other is where it was. -/
theorem bankDone_of_thread {s : State} {k : ThreadKey} {u : Thread} (hu : aget k s.threads = some u) :
    bankDone s k = if u.run = .bank then wakeLanes (s.modThread k Thread.advance) (handOf k) [k.lane] else s := by
  simp only [bankDone, hu]

/-- A bank performs an atomic (07 R145). -/
theorem performSp_atomic {s : State} {h : HandKey} {tm : Team} {e : Access} {x : Nat} {op : AtomOp} {w : Bool} {b c : Dword}
    {d : BitVec 8} {u : Thread} (ht : aget h.team s.teams = some tm) (he : e.op = .spAtom x op w b c d)
    (hu : aget (threadOf h e.lane) s.threads = some u) (hw : InWord tm x (if w then 8 else 4)) (hp : s.mem.spPoison = []) :
    let n := if w then 8 else 4
    let old := BitVec.ofNat 64 (s.spNat h.team tm x n)
    let m := memWrite s.mem.sp (tm.spKey h.team x) (bytesOfNat n (atomWide op w old b c).toNat)
    let t := ({ s with mem := { s.mem with sp := m } } : State).modThread (threadOf h e.lane) fun u => writeReg u d w old
    performSp s h e = if d ≠ 0 ∧ u.run = .bank then wakeLanes (t.modThread (threadOf h e.lane) Thread.advance) h [e.lane] else t := by
  intro n old m t
  have hwr : s.spWrite h.team tm x (bytesOfNat n (atomWide op w old b c).toNat) = { s with mem := { s.mem with sp := m } } :=
    spWrite_eq (by simpa using hw) hp _
  simp only [performSp, ht, he, spPoisoned_of_sound hp, Bool.false_eq_true, if_false]
  by_cases hd : d = 0
  · subst hd
    simpa [t] using hwr
  · have hthread : aget (threadOf h e.lane) t.threads = some (writeReg u d w old) := by simp [t, hu]
    rw [if_neg hd]
    refine (congrArg (fun s1 : State => bankDone (s1.modThread _ fun u => writeReg u d w old) (threadOf h e.lane)) hwr).trans ?_
    refine (bankDone_of_thread hthread).trans ?_
    rw [writeReg_run]
    by_cases hr : u.run = .bank
    · rw [if_pos hr, if_pos ⟨hd, hr⟩]; rfl
    · rw [if_neg hr, if_neg fun h => hr h.2]

/-! ## ST and SATOM (07 R144 to R146) -/

theorem storeSp_of_free {s : State} {h : HandKey} {tm : Team} {l n x : Nat} {v : Dword} {rel : Option Scope}
    (hf : Fits x n tm.scratch) (hm : tm.detMode = false)
    (ha : acqPending s (threadOf h l) false = false) : storeSp s (threadOf h l) tm n x v rel =
      .done (queued s h l (.spStore x n (v.toNat % 2 ^ (8 * n))) rel none) := by
  simp [storeSp, spCheck_of_fits hf, hm, ha, enqueue_eq_queued, lowBytes]

theorem storeSp_of_buffered {s : State} {h : HandKey} {hd : Hand} {tm : Team} {l n x : Nat} {v : Dword} {rel : Option Scope}
    (hh : aget h s.hands = some hd) (hf : Fits x n tm.scratch) (hm : tm.detMode = true)
    (hr : (hd.detBuf.filter fun e => e.lane = l).length + 1 ≤ 1024 / tm.w) : storeSp s (threadOf h l) tm n x v rel =
      .done (s.setHand h { hd with detBuf := hd.detBuf ++
        [⟨BitVec.ofNat 64 (v.toNat % 2 ^ (8 * n)), l, 0, 0, BitVec.ofNat 8 (2 ^ n - 1), x, pcOf s (threadOf h l)⟩] }) := by
  simp only [storeSp, spCheck_of_fits hf, hm, if_true, buffered_of_room _ hh hr]
  rfl

/-- Settles O20: `storeSp_of_free` and `storeSp_of_buffered` for ST; `bankAccept_of_one` with `performSp_store` and
`performSp_atomic` for the bank. -/
theorem scratchpadStores : Obligations.ScratchpadStores := by
  refine ⟨fun g a b sz rel off s h tm l v hd hc hh hf => ⟨fun hm ha => ?_, fun hm hr => ?_⟩, ?_⟩
  · exact congrArg Host.Outcome.next (runLanes_one_team_done hc (storeSp_of_free hf hm ha))
  · exact congrArg Host.Outcome.next (runLanes_one_team_done hc (storeSp_of_buffered hh hf hm hr))
  intro s h hd tm e hs hh ht hq hfence hrel hold hp hst hidle k
  have hwf := (s.memOk_iff.1 hs).1
  refine ⟨fun x n v he _ h0 h64 hx => ?_, fun x op w b c d u he hx hu => ?_⟩
  · have hw := inWord_of_aligned hst h0 h64 hx
    refine ⟨_, ?_, wrote_memWrite hwf hw h.team v, memWf_memWrite _ _ hwf⟩
    rw [bankAccept_of_one hh hq hfence hrel hold hidle (by rw [he]; rfl) (by rw [he]; rfl),
      performSp_store (s := taken s h hd) ht he hw hp]
    rfl
  · intro n old
    have hw : InWord tm x n := inWord_of_aligned hst (by cases w <;> simp [n]) (by cases w <;> simp [n]) hx
    refine ⟨_, wrote_memWrite hwf hw h.team _, memWf_memWrite _ _ hwf, ?_⟩
    intro t
    rw [bankAccept_of_one hh hq hfence hrel hold hidle (by rw [he]; rfl) (by rw [he]; rfl),
      performSp_atomic (s := taken s h hd) ht he hu hw hp]
    rfl

end Sys2Proof.Machine

/-! SUPPORT. Atomics of the scratchpad (07 R145, R146; 08 R172). -/

namespace Sys2Proof.Machine

/-! ## The new values (08 R172) -/

/-- The low N bits of a value. -/
def narrow (w : Bool) (x : Dword) : BitVec (widthN w) := x.setWidth (widthN w)

theorem toNat_narrow (w : Bool) (x : Dword) : (narrow w x).toNat = uns w x := BitVec.toNat_setWidth _ _

theorem toInt_narrow (w : Bool) (x : Dword) : (narrow w x).toInt = sgn w x := by
  rw [BitVec.toInt_eq_toNat_cond, toNat_narrow, sgn]
  have h : 2 * uns w x < 2 ^ widthN w ↔ uns w x < 2 ^ (widthN w - 1) := by cases w <;> norm_num [widthN] <;> omega
  simp only [h]
  split <;> norm_cast

/-- An atomic works on the low N bits. -/
theorem narrow_atomWide (op : AtomOp) (w : Bool) (x y c : Dword) :
    narrow w (atomWide op w x y c) = atomNew op (widthN w) (narrow w x) (narrow w y) (narrow w c) := by
  cases w <;> simp [narrow, atomWide, widthN]

section
variable (op : AtomOp) {n : Nat} (x y c : BitVec n)

theorem toNat_atomNew_min : (atomNew .min n x y c).toNat = min x.toNat y.toNat := by
  simp only [atomNew, BitVec.ult, decide_eq_true_eq]; split <;> omega
theorem toNat_atomNew_max : (atomNew .max n x y c).toNat = max x.toNat y.toNat := by
  simp only [atomNew, BitVec.ult, decide_eq_true_eq]; split <;> omega
theorem toInt_atomNew_mins : (atomNew .mins n x y c).toInt = min x.toInt y.toInt := by
  simp only [atomNew, BitVec.slt, decide_eq_true_eq]; split <;> omega
theorem toInt_atomNew_maxs : (atomNew .maxs n x y c).toInt = max x.toInt y.toInt := by
  simp only [atomNew, BitVec.slt, decide_eq_true_eq]; split <;> omega
theorem toNat_atomNew_cas : (atomNew .cas n x y c).toNat = if x.toNat = c.toNat then y.toNat else x.toNat := by
  simp only [atomNew, ← BitVec.toNat_inj]; split <;> rfl
theorem toNat_atomNew_inc : (atomNew .inc n x y c).toNat = if y.toNat ≤ x.toNat then 0 else x.toNat + 1 := by
  simp only [atomNew, BitVec.ule, decide_eq_true_eq]
  split
  · simp
  · have := y.isLt
    have h1 : (1 : BitVec n).toNat = 1 % 2 ^ n := BitVec.toNat_ofNat ..
    rw [BitVec.toNat_add, h1, Nat.add_mod_mod, Nat.mod_eq_of_lt (by omega)]

end

/-- A single-precision atomic works on the low word, and its result is one. -/
theorem setWidth_ofNat_word (z : Nat) : (BitVec.ofNat 32 z).setWidth 64 = BitVec.ofNat 64 (z % 2 ^ 32) := by
  apply BitVec.eq_of_toNat_eq
  simp only [BitVec.toNat_setWidth, BitVec.toNat_ofNat]

/-! ## SATOM (07 R145, R146) -/

section
variable {s : State} {h : HandKey} {hd : Hand} {tm : Team} {l x : Nat} {w : Bool} {op : AtomOp} {b : Dword} {d : BitVec 8} {u : Thread}

theorem regOf_of_lane (hu : s.lane h l = some u) (d : BitVec 8) (w : Bool) : regOf s (threadOf h l) d w = readReg u d w := by
  simp only [regOf, show aget (threadOf h l) s.threads = some u from hu]

/-- SATOM goes into the hand's queue; with a destination its thread waits for its bank. -/
theorem satomNormal_of_free (hu : s.lane h l = some u) (hf : Fits x (if w then 8 else 4) tm.scratch)
    (ha : acqPending s (threadOf h l) false = false) :
    let s1 := queued s h l (.spAtom x op w b (readReg u d w) d) none none
    satomNormal s (threadOf h l) tm w d op x b =
      if d = 0 then .done s1 else .left (s1.modThread (threadOf h l) fun u => { u with run := .bank }) := by
  simp only [satomNormal, spCheck_of_fits hf, ha, Bool.false_eq_true, if_false, enqueue_eq_queued, regOf_of_lane hu]

/-- Two words side by side. -/
theorem append_words (a b : Dword) : (a.setWidth 32 ++ b.setWidth 32 : BitVec 64) = (b.setWidth 32).setWidth 64 ||| (a <<< 32) := by
  ext i hi
  simp only [BitVec.getElem_append, BitVec.getElem_or, BitVec.getElem_setWidth, BitVec.getElem_shiftLeft]
  by_cases h : i < 32 <;> simp [h]
  exact BitVec.getLsbD_eq_getElem _

/-- SATOM in deterministic mode goes into the hand's buffer, and gives what its thread sees. -/
theorem satomDet_of_room {old : Nat} (hh : aget h s.hands = some hd) (hu : s.lane h l = some u)
    (hf : Fits x (if w then 8 else 4) tm.scratch)
    (ho : spLoad s (threadOf h l) tm x (if w then 8 else 4) (if w then 8 else 4) = .ok old) {es : List DetEntry}
    (he : satomEntries (threadOf h l) w op x b (readReg u d w) u.pc = es)
    (hr : (hd.detBuf.filter fun e => e.lane = l).length + es.length ≤ 1024 / tm.w) :
    satomDet s (threadOf h l) tm w d op x b = .done ((s.setHand h { hd with detBuf := hd.detBuf ++ es }).modThread (threadOf h l)
      fun u => writeReg u d w (BitVec.ofNat 64 old)) := by
  simp only [satomDet, spCheck_of_fits hf, ho, regOf_of_lane hu, pcOf_of_lane hu, he, takeEntries_of_room hh hr, putReg]

theorem satomEntries_eq (k : ThreadKey) (a : Nat) (c pc : Dword) : satomEntries k w op a b c pc =
    (if w = true ∧ op = .cas then [⟨c, k.lane, 6, 0, 0xFF, a, pc⟩] else []) ++
      [⟨if w then b else (b.setWidth 32).setWidth 64 ||| (c <<< 32), k.lane, 2, op.code.toNat, if w then 0xFF else 0x0F, a, pc⟩] := by
  by_cases hc : w = true ∧ op = .cas
  · simp [satomEntries, hc]
  · have : (w && decide (op = .cas)) = false := by simpa using hc
    simp only [satomEntries, this, Bool.false_eq_true, if_false, if_neg hc, List.nil_append, append_words]

end

/-- Settles O21: `satomNormal_of_free` and `satomDet_of_room` for SATOM, and the values on the low N bits (`narrow_atomWide`). -/
theorem scratchpadAtomics : Obligations.ScratchpadAtomics := by
  refine ⟨?_, ?_⟩
  · intro g w d a b op off s h tm l v hd u n x k hc hh hu hf
    refine ⟨fun hm ha => ?_, fun old hm ho => ?_⟩
    · intro s1
      have hb := satomNormal_of_free (op := op) (b := v.b) (d := d) hu hf ha
      by_cases hd0 : d = 0
      · rw [if_pos hd0]
        refine congrArg Host.Outcome.next (runLanes_one_team_done hc ?_)
        rw [hm]
        exact hb.trans (if_pos hd0)
      · rw [if_neg hd0]
        refine congrArg Host.Outcome.next (runLanes_one_team_left hc ?_)
        rw [hm]
        exact hb.trans (if_neg hd0)
    · intro cas64 es hr
      have hb := satomDet_of_room (op := op) (b := v.b) (d := d) hh hu hf ho (satomEntries_eq ..) hr
      refine congrArg Host.Outcome.next (runLanes_one_team_done hc ?_)
      rw [hm]
      exact hb
  · intro w x y c
    simp only [← toNat_narrow, ← toInt_narrow, narrow_atomWide]
    refine ⟨?_, toNat_atomNew_min .., toNat_atomNew_max .., toInt_atomNew_mins .., toInt_atomNew_maxs .., ?_, ?_, ?_, rfl,
      toNat_atomNew_cas .., toNat_atomNew_inc .., ?_, ?_, ?_⟩
    · exact BitVec.toNat_add ..
    · exact BitVec.toNat_and ..
    · exact BitVec.toNat_or ..
    · exact BitVec.toNat_xor ..
    all_goals exact setWidth_ofNat_word _

end Sys2Proof.Machine

/-! SUPPORT. The lane stack (07 R148, R149): bytes of a thread's area in its hand's cache, and what the stack engine does. -/

namespace Sys2Proof.Machine

/-! ## Bytes of the cache -/

/-- Byte a of a lane's area, where the cache holds its line. -/
def stackByte (h : Hand) (lane a : Nat) : Byte :=
  match cachedLine h lane (a / 64) with
  | some l => l.data.extractLsb' (8 * (a % 64)) 8
  | none => 0

/-- A hand with byte a of a lane's area written, where the cache holds its line. -/
def storeByte (h : Hand) (lane a : Nat) (b : Byte) : Hand :=
  match cachedLine h lane (a / 64) with
  | some l => touchLine h (putByte l (a % 64) b)
  | none => h

/-- A hand with bytes of a lane's area written from byte a on. -/
def storeBytes (h : Hand) (lane a : Nat) : List Byte → Hand
  | [] => h
  | b :: bs => storeBytes (storeByte h lane a b) lane (a + 1) bs

theorem storeBytes_eq_foldl (lane : Nat) : ∀ (bs : List Byte) (h : Hand) (a : Nat),
    ((List.range bs.length).zip bs).foldl (fun h e => storeByte h lane (a + e.1) e.2) h = storeBytes h lane a bs := by
  intro bs
  induction bs with
  | nil => exact fun _ _ => rfl
  | cons b bs ih =>
    intro h a
    rw [storeBytes, ← ih, List.length_cons, List.range_succ_eq_map, List.zip_cons_cons, List.foldl_cons, List.zip_map_left,
      List.foldl_map]
    simp only [Prod.map_fst, Prod.map_snd, id, Nat.succ_eq_add_one, Nat.add_assoc, Nat.add_comm 1, Nat.add_zero]

theorem cachedLine_touchLine (h : Hand) (l : StackLine) (lane line : Nat) :
    cachedLine (touchLine h l) lane line = if l.lane = lane ∧ l.line = line then some l else cachedLine h lane line := by
  by_cases hc : l.lane = lane ∧ l.line = line
  · simp [cachedLine, touchLine, hc]
  · have hp : ¬ (decide (l.lane = lane) && decide (l.line = line)) = true := by simpa using hc
    rw [if_neg hc, cachedLine, touchLine, List.find?_cons_of_neg (by simpa using hc), List.find?_filter, cachedLine]
    congr 1
    funext x
    by_cases hx : x.lane = lane ∧ x.line = line
    · have : ¬ (lane = l.lane ∧ line = l.line) := fun e => hc ⟨e.1.symm, e.2.symm⟩
      simpa [hx, ← not_and_or] using this
    · have : (decide (x.lane = lane) && decide (x.line = line)) = false := by simpa using hx
      simp [this]

theorem cachedLine_key {h : Hand} {lane line : Nat} {l : StackLine} (e : cachedLine h lane line = some l) :
    l.lane = lane ∧ l.line = line := by
  simpa using List.find?_some e

theorem extract_putByte {l : StackLine} {i j : Nat} (hi : i < 64) (hj : j < 64) (b : Byte) :
    (putByte l i b).data.extractLsb' (8 * j) 8 = if j = i then b else l.data.extractLsb' (8 * j) 8 := by
  ext k hk
  have hin : 8 * j + k < 512 := by omega
  simp only [putByte, BitVec.getElem_extractLsb', BitVec.getLsbD_or, BitVec.getLsbD_and, BitVec.getLsbD_not,
    BitVec.getLsbD_shiftLeft, BitVec.getLsbD_setWidth, hin, decide_true, Bool.true_and]
  have mask : ∀ m, (255#512).getLsbD m = (decide (m < 512) && decide (m < 8)) := fun m => by
    rw [BitVec.getLsbD_ofNat]; exact congrArg _ (Nat.testBit_two_pow_sub_one 8 m)
  by_cases hij : j = i
  · subst hij
    simp [mask, show 8 * j + k - 8 * j = k by omega, hk, show k < 512 by omega, BitVec.getLsbD_eq_getElem]
  · rw [if_neg hij, BitVec.getElem_extractLsb']
    by_cases hlt : 8 * j + k < 8 * i
    · simp [hlt]
    · have h8 : ¬ 8 * j + k - 8 * i < 8 := by omega
      simp [mask, h8, BitVec.getLsbD_of_ge b _ (Nat.not_lt.1 h8)]

theorem stackByte_storeByte {h : Hand} {lane a : Nat} (held : (cachedLine h lane (a / 64)).isSome) (b : Byte) (y : Nat) :
    stackByte (storeByte h lane a b) lane y = if y = a then b else stackByte h lane y := by
  obtain ⟨l, hl⟩ := Option.isSome_iff_exists.1 held
  obtain ⟨h1, h2⟩ := cachedLine_key hl
  simp only [storeByte, hl, stackByte, cachedLine_touchLine]
  by_cases hy : y / 64 = a / 64
  · rw [if_pos ⟨h1, by rw [hy]; exact h2⟩, hy, hl]
    simp only [extract_putByte (Nat.mod_lt a (by decide)) (Nat.mod_lt y (by decide))]
    have : y % 64 = a % 64 ↔ y = a := by omega
    simp only [this]
  · have hk : ¬ ((putByte l (a % 64) b).lane = lane ∧ (putByte l (a % 64) b).line = y / 64) :=
      fun e => hy (by rw [← e.2, ← h2]; rfl)
    rw [if_neg hk, if_neg fun e => hy (by rw [e])]

theorem isNone_cachedLine_storeByte (h : Hand) (lane a : Nat) (b : Byte) (line : Nat) :
    (cachedLine (storeByte h lane a b) lane line).isNone = (cachedLine h lane line).isNone := by
  unfold storeByte
  split
  · next l hl =>
    obtain ⟨h1, h2⟩ := cachedLine_key hl
    rw [cachedLine_touchLine]
    split
    · next hk =>
      have : a / 64 = line := h2.symm.trans hk.2
      rw [← this, hl]; rfl
    · rfl
  · rfl

theorem isNone_cachedLine_storeBytes (lane line : Nat) : ∀ (bs : List Byte) (h : Hand) (a : Nat),
    (cachedLine (storeBytes h lane a bs) lane line).isNone = (cachedLine h lane line).isNone
  | [], _, _ => rfl
  | b :: bs, h, a => (isNone_cachedLine_storeBytes lane line bs _ _).trans (isNone_cachedLine_storeByte h lane a b line)

/-- The bytes that are written read back, and no others change. -/
theorem stackByte_storeBytes (lane : Nat) : ∀ (bs : List Byte) {h : Hand} {a : Nat},
    (∀ i < bs.length, (cachedLine h lane ((a + i) / 64)).isNone = false) → ∀ y,
    stackByte (storeBytes h lane a bs) lane y = if a ≤ y then bs.getD (y - a) (stackByte h lane y) else stackByte h lane y
  | [], _, _, _, _ => by simp [storeBytes]
  | b :: bs, h, a, held, y => by
    have h0 : (cachedLine h lane (a / 64)).isNone = false := by simpa using held 0 (by simp)
    have hs : (cachedLine h lane (a / 64)).isSome := by simpa using h0
    have hrest : ∀ i < bs.length, (cachedLine (storeByte h lane a b) lane ((a + 1 + i) / 64)).isNone = false := fun i hi => by
      rw [isNone_cachedLine_storeByte, Nat.add_assoc, Nat.add_comm 1]
      exact held (i + 1) (by simpa using hi)
    rw [storeBytes, stackByte_storeBytes lane bs hrest, stackByte_storeByte hs]
    rcases Nat.lt_trichotomy y a with hlt | rfl | hgt
    · simp [show ¬ a + 1 ≤ y by omega, show ¬ a ≤ y by omega, show y ≠ a by omega]
    · simp
    · obtain ⟨j, hj⟩ : ∃ j, y - a = j + 1 := ⟨y - a - 1, by omega⟩
      simp [show a + 1 ≤ y by omega, show a ≤ y by omega, show y ≠ a by omega, hj, show y - (a + 1) = j by omega]

/-! ## Loads and stores of the area (07 R148) -/

theorem mem_linesOf {a n i : Nat} (hi : i < n) : (a + i) / 64 ∈ linesOf a n := by
  simp only [linesOf, List.mem_map, List.mem_range]
  exact ⟨(a + i) / 64 - a / 64, by omega, by omega⟩

/-- Every line of an access that misses none is there. -/
theorem cached_of_not_missing {h : Hand} {lane a n : Nat} (hm : missingLine h lane a n = none) {i : Nat} (hi : i < n) :
    (cachedLine h lane ((a + i) / 64)).isNone = false := by
  have held := List.find?_eq_none.1 hm _ (mem_linesOf hi)
  simpa only [Bool.not_eq_true] using held

theorem stackPut_of_held {s : State} {k : ThreadKey} {h : Hand} {a n v : Nat} (hh : aget (handOf k) s.hands = some h)
    (hm : missingLine h k.lane a n = none) :
    stackPut s k a n v = (s.setHand (handOf k) (storeBytes h k.lane a (bytesOfNat n v)), true) := by
  simp only [stackPut, hh, hm, ← storeBytes_eq_foldl, bytesOfNat_length]
  rfl

/-- A store that is done has found its lines. -/
theorem held_of_stackPut {s s1 : State} {k : ThreadKey} {a n v : Nat} (e : stackPut s k a n v = (s1, true)) :
    ∃ h, aget (handOf k) s.hands = some h ∧ missingLine h k.lane a n = none := by
  unfold stackPut at e
  split at e
  · simp at e
  · next h hh =>
    split at e
    · simp at e
    · next hm => exact ⟨h, hh, hm⟩

theorem stackGet_of_held {s : State} {k : ThreadKey} {h : Hand} {a n : Nat} (hh : aget (handOf k) s.hands = some h)
    (hm : missingLine h k.lane a n = none) :
    (stackGet s k a n).2 = some (natOfBytes ((List.range n).map fun i => stackByte h k.lane (a + i))) := by
  simp only [stackGet, hh, hm]
  rfl

/-- What a load of n bytes gives is a number of n bytes. -/
theorem stackGet_lt {s s1 : State} {k : ThreadKey} {a n r : Nat} (e : stackGet s k a n = (s1, some r)) : r < 2 ^ (8 * n) := by
  unfold stackGet at e
  split at e
  · simp at e
  · split at e
    · simp at e
    · simp only [Prod.mk.injEq, Option.some.injEq] at e
      rw [← e.2]
      simpa using natOfBytes_lt ((List.range n).map _)

/-- A load gives what was stored there. -/
theorem stackGet_of_stackPut {s s1 : State} {k : ThreadKey} {a n v : Nat} (e : stackPut s k a n v = (s1, true)) :
    (stackGet s1 k a n).2 = some (v % 2 ^ (8 * n)) := by
  obtain ⟨h, hh, hm⟩ := held_of_stackPut e
  rw [stackPut_of_held hh hm, Prod.mk.injEq] at e
  obtain ⟨rfl, -⟩ := e
  have hm1 : missingLine (storeBytes h k.lane a (bytesOfNat n v)) k.lane a n = none := by
    rw [← hm, missingLine, missingLine]
    congr 1
    funext line
    exact isNone_cachedLine_storeBytes ..
  have hb : ((List.range n).map fun i => stackByte (storeBytes h k.lane a (bytesOfNat n v)) k.lane (a + i)) = bytesOfNat n v := by
    refine List.ext_getElem (by simp) fun i hi hi' => ?_
    rw [List.getElem_map, List.getElem_range, stackByte_storeBytes _ _ fun j hj => cached_of_not_missing hm (by simpa using hj)]
    rw [if_pos (Nat.le_add_right a i), Nat.add_sub_cancel_left, List.getD_eq_getElem _ _ hi']
  rw [stackGet_of_held (by simp) hm1, hb, natOfBytes_bytesOfNat_mod]

theorem stackCheck_of_inside {tm : Team} {k : ThreadKey} {a n : Nat} (h : a + n ≤ stackSize tm) (hn : 0 < n) (acc : Nat) :
    stackCheck tm k a n acc = none := by
  simp [stackCheck, Nat.not_lt.2 h, show stackSize tm ≠ 0 by omega]

theorem stackCheck_of_outside {tm : Team} {a n : Nat} (h : stackSize tm < a + n) (k : ThreadKey) (acc : Nat) :
    stackCheck tm k a n acc = some { code := 0x0A, faddr := BitVec.ofNat 64 (stackBase tm k + a), acc := acc } := by
  simp [stackCheck, h]

/-! ## The stack engine (07 R149) -/

theorem countXl_hands (s : State) (fn va : Nat) (x : Xl) (w first : Bool) : (countXl s fn va x w first).hands = s.hands := by
  simp only [countXl, countLine]
  repeat' split
  all_goals rfl

/-- A read of virtual memory leaves the hands alone. -/
theorem hands_of_virtRead {s t : State} {fn va n : Nat} {acc : Acc} {stay : Bool} {bs : List Byte}
    (h : virtRead s fn va n acc stay = .ok (t, bs)) : t.hands = s.hands := by
  rw [virtRead_eq] at h
  refine List.foldlRecOn (motive := fun r : Except Miss (State × List Byte) => ∀ t bs, r = .ok (t, bs) → t.hands = s.hands)
    _ _ ?_ ?_ t bs h
  · rintro _ _ ⟨⟩; rfl
  · intro r hr p _ t bs e
    revert e
    fun_cases readPiece fn va acc stay r p <;> intro e
    case case4 u cs _ _ _ => cases e; rw [countXl_hands]; exact hr _ _ rfl
    all_goals cases e

theorem dropClean_of_room {ls : List StackLine} (h : ls.length < 256) : dropClean ls = ls := if_pos h

/-! ## LD and ST of the lane stack -/

theorem loadStk_of_held {s s1 : State} {k : ThreadKey} {tm : Team} {a r : Nat} (sz : Size) {sgn : Bool} (d : BitVec 8)
    (hsz : sgn = true → sz ≠ .d) (ha : a + sizeBytes sz ≤ stackSize tm) (e : stackGet s k a (sizeBytes sz) = (s1, some r)) :
    loadStk s k tm d (sizeBytes sz) sgn a =
      .done (s1.modThread k fun u => writeReg u d (sizeBytes sz = 8) (loaded (sizeBytes sz) sgn r)) := by
  rw [loadStk, stackCheck_of_inside ha (sizeBytes_pos sz), e]
  simp only [extendLoad_eq_loaded (sizeBytes_pos sz) (stackGet_lt e) (sizeBytes_le_of_signed hsz), putReg]

theorem storeStk_of_held {s s1 : State} {k : ThreadKey} {tm : Team} {a : Nat} (sz : Size) {v : Dword}
    (ha : a + sizeBytes sz ≤ stackSize tm) (e : stackPut s k a (sizeBytes sz) (v.toNat % 2 ^ (8 * sizeBytes sz)) = (s1, true)) :
    storeStk s k tm (sizeBytes sz) a v = .done s1 := by
  simp only [storeStk, stackCheck_of_inside ha (sizeBytes_pos sz), lowBytes, e]

/-- Settles O22: the engine's steps by their definitions; a load after a store by `stackGet_of_stackPut`. -/
theorem laneStack : Obligations.LaneStack := by
  refine ⟨⟨?_, ?_, fun s k a n v s1 e => ⟨stackGet_of_stackPut e, by simpa [e] using stackPut_mem s k a n v⟩,
    fun k tm a n acc h => stackCheck_of_outside h k acc⟩, ?_, ?_, ?_⟩
  · intro g d a sz sgn acq off s h tm l v s1 r hsz n hc ha e
    exact congrArg Host.Outcome.next (runLanes_one_team_done hc (loadStk_of_held sz d hsz ha e))
  · intro g a b sz rel off s h tm l v s1 n hc ha e
    exact congrArg Host.Outcome.next (runLanes_one_team_done hc (storeStk_of_held sz ha e))
  · intro s s1 k t tm h a bs ht htm hh hn hroom hr
    show execStackFill k s = _
    simp only [execStackFill, ht, htm, hh, hn, dropClean_of_room hroom, if_neg (Nat.not_le.2 hroom : ¬ stackLines ≤ _), hr]
    congr 2
    refine modHand_congr fun u hu => ?_
    rw [hands_of_virtRead hr, hh, Option.some.injEq] at hu
    rw [hu]
  · intro s s1 h hd tm l hh htm hroom hl hw
    show execStackSpill h s = _
    simp only [execStackSpill, hh, htm, hroom, hl, hw, Bool.not_true, Bool.false_eq_true, if_false]
  · intro s k t tm a perm ht htm hn hmiss
    refine ⟨fun hrun => ?_, fun hrun => ?_⟩
    · show execStackPageAnswer k true perm s = _
      rcases hmiss with hh | ⟨h, hh, hc⟩
      · simp [execStackPageAnswer, ht, htm, hn, hh, hrun]
      · simp [execStackPageAnswer, ht, htm, hn, hh, hc, hrun]
    · have hx : exitedThread s k = false := by simpa [exitedThread, ht] using hrun
      show execStackPageAnswer k false perm s = _
      rcases hmiss with hh | ⟨h, hh, hc⟩
      · simp [execStackPageAnswer, ht, htm, hn, hh, hx]
      · simp [execStackPageAnswer, ht, htm, hn, hh, hc, hx]

end Sys2Proof.Machine

/-! SUPPORT. Tile instructions (07 R153 to R156): the events of a tile's entry, and what TGET reads. -/

namespace Sys2Proof.Machine

/-! ## Entries -/

/-- An entry whose fields fit reads back. -/
theorem Tile.ofWord_toWord {scbase base ncol nrow fmt elem layout state : Nat} (q : Bool) (hsc : scbase < 2 ^ 17)
    (hb : base < 2 ^ 15) (hc : ncol < 2 ^ 6) (hr : nrow < 2 ^ 6) (hf : fmt < 2 ^ 4) (he : elem < 2 ^ 2) (hl : layout < 2 ^ 2)
    (hs : state < 2 ^ 2) : Tile.ofWord (Tile.toWord ⟨scbase, base, ncol, nrow, fmt, elem, layout, q, state⟩) =
      ⟨scbase, base, ncol, nrow, fmt, elem, layout, q, state⟩ := by
  simp only [Tile.ofWord, Tile.toWord, BitVec.toNat_ofNat, bits, bit, Nat.testBit_eq_decide_div_mod_eq, Nat.shiftRight_eq_div_pow,
    Tile.mk.injEq]
  cases q
  all_goals
    simp only [Bool.false_eq_true, if_false, if_true, decide_eq_false_iff_not, decide_eq_true_eq]
    omega

/-- What a TSET describes reads back, less its Q and STATE. -/
theorem ofWord_tsetDesc {x y : Nat} (hx : x < 2 ^ 21) (hy : y < 2 ^ 21) (lay el : BitVec 2) (rows cols : BitVec 6) (f : BitVec 4) :
    Tile.ofWord (tsetDesc x y lay el rows cols f) =
      ⟨y / 16, x / 64, cols.toNat, rows.toNat, f.toNat, el.toNat, lay.toNat, false, 0⟩ :=
  Tile.ofWord_toWord _ (by omega) (by omega) cols.isLt rows.isLt f.isLt el.isLt lay.isLt (by decide)

/-! ## Events (07 R153, R154, R156) -/

theorem runBundle_team_done {s s' : State} {sh : Shape} {h : HandKey} {tm : Team} {ls : List Nat} {l : Nat} {v : Vals}
    {body : ThreadKey → Vals → State → Team → LaneOut} (hc : Leads s sh h tm ls l v)
    (hb : body (threadOf h l) v s tm = .done s') : runBundle s sh (fun k v s => inTeam s k (body k v s)) = allGoOn s' h ls l :=
  runBundle_done hc ((inTeam_of_team (inFocus_team hc.focus) _).trans hb)

section
variable {s : State} {h : HandKey} {tm : Team} {l : Nat} {d : BitVec 6} {desc : BitVec 64}

/-- A tile event that meets its tile takes effect at once (07 R153). -/
theorem doTileEvent_of_met {op : Nat} (hm : tm.detMode = false)
    (hg : meetEvent s ⟨h.team, tm.tiles.getD d.toNat 0⟩ op = .go) : doTileEvent s (threadOf h l) tm d op desc =
      .done (tileEvent s ⟨h.team, tm.tiles.getD d.toNat 0⟩ op desc) := by
  simp only [doTileEvent, hm, Bool.false_eq_true, if_false, localTile, threadOf_team, hg]

/-- In deterministic mode a tile event is buffered (07 R156). -/
theorem doTileEvent_of_room {hd : Hand} (op : Nat) (hm : tm.detMode = true) (hh : aget h s.hands = some hd)
    (hr : (hd.detBuf.filter fun e => e.lane = l).length < 1024 / tm.w) : doTileEvent s (threadOf h l) tm d op desc =
      .done (s.setHand h { hd with detBuf := hd.detBuf ++ [⟨desc, l, 7, op, 0, d.toNat, pcOf s (threadOf h l)⟩] }) := by
  simp only [doTileEvent, hm, if_true, buffered_of_room _ hh hr, threadOf_lane]

variable {r : TileRef}

theorem meetEvent_tset (hh : tileHeld s r = false) (hs : (r.tile s).state = 0) : meetEvent s r 0 = .go := by
  simp [meetEvent, hh, hs]

theorem meetEvent_tready (hs : (r.tile s).state = 0 ∨ (r.tile s).state = 2) : meetEvent s r 1 = .go := by
  rcases hs with hs | hs <;> simp [meetEvent, hs]

theorem meetEvent_trel_of_ready (hh : tileHeld s r = false) (hs : (r.tile s).state = 2) : meetEvent s r 2 = .go := by
  simp [meetEvent, hh, hs]

theorem meetEvent_trel_of_empty (hh : tileHeld s r = false) (hs : (r.tile s).state = 0) (hq : (r.tile s).q = false) :
    meetEvent s r 2 = .go := by
  simp [meetEvent, hh, hs, hq]

theorem tileEvent_trel_of_ready (hs : (r.tile s).state = 2) :
    tileEvent s r 2 desc = setTile s (coreOf r.team) r.entry { r.tile s with state := 0 } := by
  simp [tileEvent, hs]

theorem tileEvent_trel_of_empty (hs : (r.tile s).state = 0) : tileEvent s r 2 desc = s := by
  simp [tileEvent, hs]

/-- TSET's event, once its operands have passed their checks (07 R154). -/
theorem tset_body {g : Guard} {a b : CSrc} {lay el : BitVec 2} {rows cols : BitVec 6} {f : BitVec 4} {ls : List Nat} {v : Vals}
    {t : State} (hc : Leads s ⟨g, csrcOp a false, csrcOp b false, noOp, []⟩ h tm ls l v)
    (hx : v.a.toNat % 2 ^ 32 % 64 = 0) (hy : v.b.toNat % 2 ^ 32 % 16 = 0) (bx : v.a.toNat % 2 ^ 32 < tm.scratch)
    (by' : v.b.toNat % 2 ^ 32 < tm.scratch)
    (he : doTileEvent s (threadOf h l) tm d 0 (tsetDesc (v.a.toNat % 2 ^ 32) (v.b.toNat % 2 ^ 32) lay el rows cols f) = .done t) :
    exec (.tset g d a b lay el rows cols f) s = .next (allGoOn t h ls l) := by
  refine congrArg Host.Outcome.next (runBundle_team_done hc ?_)
  simp only [hx, hy, Nat.not_le.2 bx, Nat.not_le.2 by', he, ne_eq, not_true_eq_false, if_false]

theorem tready_body {g : Guard} {ls : List Nat} {v : Vals} {t : State} (hc : Leads s (bare g) h tm ls l v)
    (he : doTileEvent s (threadOf h l) tm d 1 0 = .done t) : exec (.tready g d) s = .next (allGoOn t h ls l) :=
  congrArg Host.Outcome.next (runBundle_team_done hc he)

theorem trel_body {g : Guard} {ls : List Nat} {v : Vals} {t : State} (hc : Leads s (bare g) h tm ls l v)
    (he : doTileEvent s (threadOf h l) tm d 2 0 = .done t) : exec (.trel g d) s = .next (allGoOn t h ls l) :=
  congrArg Host.Outcome.next (runBundle_team_done hc he)

end

/-! ## TGET (07 R155) -/

/-- Nothing comes between the reads of one lane. -/
theorem readTimes_of_one {s : State} {sh : Shape} {h : HandKey} {tm : Team} {l : Nat} (hf : inFocus s = some (h, tm, [l]))
    (addr : ThreadKey → Team → Vals → Nat) : readTimes s sh addr = [] := by
  have hlen : (lanesRead s sh).length ≤ 1 := by
    simp only [lanesRead, hf]
    exact (List.length_filterMap_le ..).trans (List.length_filter_le ..)
  simp [readTimes, hf, hlen]

theorem runReads_one_team_done {s s' : State} {sh : Shape} {h : HandKey} {tm : Team} {l : Nat} {v : Vals}
    {addr : ThreadKey → Team → Vals → Nat} {body : State → ThreadKey → Vals → State → Team → LaneOut}
    (hc : OneLane s sh h tm l v) (hb : body s (threadOf h l) v s tm = .done s') :
    runReads s sh addr (fun b k v s => inTeam s k (body b k v s)) = goesOn s' h l := by
  rw [runReads_of_no_times (readTimes_of_one hc.focus addr)]
  exact runLanes_one_team_done hc hb

theorem sparsePoison_of_sound {s : State} (h : s.mem.spPoison = []) (id : TeamId) (tm : Team) (t : Tile) :
    sparsePoison s id tm t = none := by
  simp [sparsePoison, spPoisoned_of_sound h]

section
variable {s : State} {h : HandKey} {hd : Hand} {tm ptm : Team} {l off : Nat} {w : Bool} {d : BitVec 8} {t : TileName} {r : TileRef}
  (hr : tileRef s h.team tm t = some r) (hp : aget r.team s.teams = some ptm) (hst : (r.tile s).state = 2)
  (hal : off % (if w then 8 else 4) = 0)
  (hfoot : off + (if w then 8 else 4) ≤ (r.tile s).footprint (tileFmt s r) (sparseCount s r.team ptm (r.tile s)))
  (hin : (r.tile s).inBounds (tileFmt s r) (sparseCount s r.team ptm (r.tile s)) ptm.scratch = true)
  (hc : Calm s h hd) (hs : s.mem.spPoison = [])
include hr hp hst hal hfoot hin hc hs

/-- A read of a READY tile that passes its checks is made as its name says. -/
theorem tgetData_of_ready : tgetData s s (threadOf h l) tm w d t off =
    if r.team = h.team then loadSp s s (threadOf h l) tm d (if w then 8 else 4) false ((r.tile s).base * 64 + off)
    else .done ((sendFill (s.modThread (threadOf h l) fun u => setFull u d w false) (threadOf h l) d w
      (.scratch ((List.range (if w then 8 else 4)).map fun i => ptm.spKey r.team ((r.tile s).base * 64 + off + i)))
      (pcOf s (threadOf h l)) (some hd.seq)).modHand h fun hd => { hd with seq := hd.seq + 1 }) := by
  simp only [tgetData, threadOf_team, hr, meetReader, hst, if_true, hp, threadView_of_calm hc, ite_self, hal, sparsePoison_of_sound hs, hin,
    Nat.not_lt.2 hfoot, heldRange_of_no_holds hc.holds, acqPending_of_calm hc, handOf_threadOf, nextSeqNo, hc.hand, markEmpty, ne_eq,
    not_true_eq_false, decide_false, Bool.not_true, Bool.or_false, Bool.false_eq_true, if_false]

end

/-- A tile begins at an aligned place: an offset is as aligned as its address. -/
theorem add_mod_access_size (w : Bool) (base : Nat) {off : Nat} (h : off % (if w then 8 else 4) = 0) :
    (base * 64 + off) % (if w then 8 else 4) = 0 := by
  cases w
  all_goals
    simp only [Bool.false_eq_true, if_false, if_true] at h ⊢
    omega

/-- What a load of a word or of a pair does in a lane for which nothing is in the way. -/
theorem loadSp_word_of_calm {s : State} {h : HandKey} {hd : Hand} {tm : Team} {x l : Nat} {w : Bool} (d : BitVec 8) (hc : Calm s h hd)
    (hf : Fits x (if w then 8 else 4) tm.scratch) (hs : s.mem.spPoison = []) :
    loadSp s s (threadOf h l) tm d (if w then 8 else 4) false x =
      .done (s.modThread (threadOf h l) fun u => writeReg u d w (BitVec.ofNat 64 (s.spNat h.team tm x (if w then 8 else 4)))) := by
  cases w
  · exact loadSp_of_calm .w d hc nofun hf (spPoisoned_of_sound hs ..)
  · exact loadSp_of_calm .d d hc nofun hf (spPoisoned_of_sound hs ..)

theorem tileWord_of_threads {s s' : State} (h : s' = { s with threads := s'.threads }) (c : CoreId) (i : Nat) :
    tileWord s' c i = tileWord s c i := by
  rw [h]; rfl

/-- Settles O23: events by `doTileEvent_of_met` or, buffered, `doTileEvent_of_room`; TGET by `tgetData_of_ready`. -/
theorem tiles : Obligations.Tiles := by
  refine ⟨?_, ?_, ?_⟩
  · intro g d s h tm ls l v c e t
    refine ⟨fun hm => ⟨?_, fun hc hst => ?_, fun hc hh => ⟨fun hst => ?_, fun hst hq => ?_⟩⟩, ?_⟩
    · intro a b lay el rows cols f hc x y hx hy bx by' hscr hst hh
      have hw := ofWord_tsetDesc (x := x) (y := y) (by omega) (by omega) lay el rows cols f
      refine tset_body hc hx hy bx by' ((doTileEvent_of_met hm (meetEvent_tset hh hst)).trans ?_)
      rw [tileEvent, if_pos rfl, hw]
      rfl
    · exact tready_body hc (doTileEvent_of_met hm (meetEvent_tready hst))
    · refine trel_body hc ((doTileEvent_of_met hm (meetEvent_trel_of_ready hh hst)).trans ?_)
      exact congrArg LaneOut.done (tileEvent_trel_of_ready hst)
    · refine trel_body hc ((doTileEvent_of_met hm (meetEvent_trel_of_empty hh hst hq)).trans ?_)
      exact congrArg LaneOut.done (tileEvent_trel_of_empty hst)
    · intro hd hm hh hr with_
      refine ⟨fun hc => ⟨tready_body hc (doTileEvent_of_room 1 hm hh hr), trel_body hc (doTileEvent_of_room 2 hm hh hr)⟩, ?_⟩
      intro a b lay el rows cols f hc x y hx hy bx by'
      exact tset_body hc hx hy bx by' (doTileEvent_of_room 0 hm hh hr)
  · intro g w d t s h tm ls hc
    refine ⟨_, rfl, runLanes_part hc fun l hl => (hc.ready l hl).imp fun v hv => ⟨hv, fun s' hs _ => ?_⟩⟩
    have hteam : aget (threadOf h l).team s'.teams = some tm := teams_of_threads hs ▸ inFocus_team hc.focus
    rw [inTeam_of_team hteam, tileWord_of_threads hs]
    rfl
  · intro g w d a t s h tm l v r ptm hd hc n off hr hp _ hst hal hfoot hin hcalm hs x
    have hget := tgetData_of_ready (l := l) (d := d) hr hp hst hal hfoot hin hcalm hs
    refine ⟨fun hteam hb => ?_, fun hteam => ?_⟩
    · have hfits : Fits x n tm.scratch := ⟨hb, add_mod_access_size w _ hal⟩
      rw [if_pos hteam, loadSp_word_of_calm d hcalm hfits hs] at hget
      exact congrArg Host.Outcome.next (runReads_one_team_done hc hget)
    · rw [if_neg hteam] at hget
      exact congrArg Host.Outcome.next (runReads_one_team_done hc hget)

end Sys2Proof.Machine

/-! SUPPORT. Byte barriers (07 R157 to R159): their 16 bytes, and what arrivals and landed bytes make of them. -/

namespace Sys2Proof.Machine

/-! ## The fields of a barrier (07 R157) -/

/-- The fields fit the 16 bytes of a barrier. -/
structure Barrier.Fits (b : Barrier) : Prop where
  reload : b.reload < 2 ^ 32
  rem : b.rem < 2 ^ 32
  arr : b.arr < 2 ^ 13
  exp : b.exp < 2 ^ 13

theorem fits_barrierOf (v : Nat) : (barrierOf v).Fits :=
  ⟨Nat.mod_lt _ (by decide), Nat.mod_lt _ (by decide), Nat.mod_lt _ (by decide), Nat.mod_lt _ (by decide)⟩

/-- A barrier reads back from its 16 bytes. -/
theorem barrierOf_toNat_mod {b : Barrier} (hb : b.Fits) : barrierOf (b.toNat % 2 ^ (8 * 16)) = b := by
  obtain ⟨reload, rem, phase, ovr, arr, exp⟩ := b
  obtain ⟨h1, h2, h3, h4⟩ := hb
  simp only [barrierOf, Barrier.toNat, bits, bit, Nat.testBit_eq_decide_div_mod_eq, Nat.shiftRight_eq_div_pow, Barrier.mk.injEq] at *
  cases phase
  all_goals
    cases ovr
    all_goals
      simp only [Bool.false_eq_true, if_false, if_true, decide_eq_false_iff_not, decide_eq_true_eq]
      omega

/-! ## Arrivals and landed bytes (07 R158) -/

theorem check_eq (b : Barrier) :
    b.check = if b.rem = 0 ∧ b.arr = b.exp then { b with phase := !b.phase, rem := b.reload, arr := 0 } else b := by
  simp only [Barrier.check, Bool.and_eq_true, decide_eq_true_eq]

theorem fits_check {b : Barrier} (h : b.Fits) : b.check.Fits := by
  obtain ⟨h1, h2, h3, h4⟩ := h
  rw [check_eq]
  split
  · exact ⟨h1, h1, Nat.two_pow_pos 13, h4⟩
  · exact ⟨h1, h2, h3, h4⟩

theorem fits_landed {b : Barrier} (h : b.Fits) (n : Nat) : (b.landed n).Fits := by
  obtain ⟨h1, h2, h3, h4⟩ := h
  refine fits_check ?_
  split
  · exact ⟨h1, Nat.two_pow_pos 32, h3, h4⟩
  · exact ⟨h1, (Nat.sub_le ..).trans_lt h2, h3, h4⟩

theorem updateBarrier_mem {s : State} {id : TeamId} {tm : Team} (ht : aget id s.teams = some tm) (a : Nat) (f : Barrier → Barrier) :
    (updateBarrier s id a f).mem = (s.spWrite id tm a (bytesOfNat 16 (f (barrierOf (s.spNat id tm a 16))).toNat)).mem := by
  simp only [updateBarrier, ht]
  split
  · rfl
  · rw [noteFlip_mem]

theorem spNat_congr {s t : State} (h : t.mem = s.mem) (id : TeamId) (tm : Team) (x n : Nat) :
    t.spNat id tm x n = s.spNat id tm x n := by
  simp only [State.spNat, State.spBytes, State.spByte, h]

/-- What an update makes of a barrier, and that it writes the barrier's bytes alone. -/
theorem updateBarrier_of_aligned {s : State} {id : TeamId} {tm : Team} {x : Nat} (hs : s.memOk) (ht : aget id s.teams = some tm)
    (hw : InWord tm x 16) {f : Barrier → Barrier} (hf : (f (barrierOf (s.spNat id tm x 16))).Fits) :
    let t := updateBarrier s id x f
    barrierOf (t.spNat id tm x 16) = f (barrierOf (s.spNat id tm x 16)) ∧
      ∀ y, (∀ i, i < 16 → y ≠ tm.spKey id (x + i)) → memGet t.mem.sp y = memGet s.mem.sp y := by
  intro t
  have hm : t.mem = _ := updateBarrier_mem ht x f
  refine ⟨?_, fun y hy => ?_⟩
  · rw [spNat_congr hm, spNat_spWrite hs hw, barrierOf_toNat_mod hf]
  · rw [hm, spWrite_sp (by simpa using hw)]
    exact (wrote_memWrite (s.memOk_iff.1 hs).1 hw id _).2 y hy

theorem barrierPoisoned_of_team {s : State} {id : TeamId} {tm : Team} (ht : aget id s.teams = some tm) (a : Nat) :
    barrierPoisoned s id a = s.spPoisoned id tm a 16 := by
  simp only [barrierPoisoned, ht]

/-! ## BBINIT (07 R159) -/

theorem initBarrier_of_free {s : State} {h : HandKey} {tm : Team} {l x bytes arrivals : Nat} (hm : tm.detMode = false)
    (ha : acqPending s (threadOf h l) false = false) (hf : Fits x 16 tm.scratch) (hb : bytes < 2 ^ 32) (hle : arrivals ≤ 4096)
    (hne : ¬ (bytes = 0 ∧ arrivals = 0)) : initBarrier s (threadOf h l) tm x bytes arrivals =
      .done (queued s h l (.spStore x 16 (bytes * 2 ^ 96 + bytes * 2 ^ 64 + arrivals)) none none) := by
  have hv : natOfBytes (barrierBytes bytes arrivals) = bytes * 2 ^ 96 + bytes * 2 ^ 64 + arrivals := by
    rw [barrierBytes, natOfBytes_bytesOfNat_mod, Nat.mod_eq_of_lt (by omega : arrivals < 8192)]
    exact Nat.mod_eq_of_lt (by omega)
  have hz : (decide (bytes = 0) && decide (arrivals = 0)) = false := by simpa using hne
  simp only [initBarrier, Nat.not_lt.2 hle, hz, spCheck_of_fits hf, hm, ha, hv, enqueue_eq_queued, Bool.false_eq_true, if_false]

/-- Settles O24: BBINIT by `initBarrier_of_free`; the bytes of an updated barrier by `updateBarrier_of_aligned`. -/
theorem byteBarriers : Obligations.ByteBarriers := by
  refine ⟨?_, ?_⟩
  · intro g off s h tm l v hm ha x init hf
    refine ⟨?_, ?_⟩
    · intro a b c hd hc hh bytes arrivals hle hne
      exact congrArg Host.Outcome.next
        (runLanes_one_team_done hc (initBarrier_of_free hm ha hf (Nat.mod_lt _ (by decide)) hle hne))
    · intro a hd bytes arrivals hc hh hne
      have hne' : ¬ (bytes.toNat = 0 ∧ arrivals.toNat = 0) := fun e =>
        hne ⟨BitVec.eq_of_toNat_eq e.1, BitVec.eq_of_toNat_eq e.2⟩
      exact congrArg Host.Outcome.next
        (runLanes_one_team_done hc (initBarrier_of_free hm ha hf (by omega) (by omega) hne'))
  · intro check
    refine ⟨fun b => check_eq _, fun b n => check_eq _, ?_⟩
    intro s id tm x n hs ht hdie hx hst b t
    refine ⟨fun hp => ?_, fun hp => ?_⟩
    · have hl : t = updateBarrier s id x (Barrier.landed · n) := by
        simp only [t, landed, barrierPoisoned_of_team ht, hp, hdie, Bool.false_eq_true, if_false]
      rw [hl]
      exact updateBarrier_of_aligned hs ht (inWord_of_aligned hst (by decide) (by decide) hx) (fits_landed (fits_barrierOf _) n)
    · simp only [t, landed, barrierPoisoned_of_team ht, hp, hdie, if_true, if_false, sendFault_mem]

end Sys2Proof.Machine

/-! SUPPORT. Arrivals at byte barriers and waits for them (07 R160). -/

namespace Sys2Proof.Machine

/-! ## BBARR and its bank -/

/-- A thread as an opening of the barrier at a leaves it: one that waits there notes the flip. -/
def noted (id : TeamId) (a : Nat) (e : ThreadKey × Thread) : ThreadKey × Thread :=
  if e.1.team = id then
    match e.2.bwait with
    | some (x, some _) => if x = a then (e.1, { e.2 with bwait := some (a, none) }) else e
    | _ => e
  else e

theorem noteFlip_threads (s : State) (id : TeamId) (a : Nat) : (noteFlip s id a).threads = s.threads.map (noted id a) := rfl

theorem noted_kept (id : TeamId) (a : Nat) (e : ThreadKey × Thread) :
    (noted id a e).1 = e.1 ∧ (noted id a e).2.run = e.2.run := by
  unfold noted
  repeat' split
  all_goals exact ⟨rfl, rfl⟩

/-- A change of every thread that keeps what they wait for keeps what each waits for. -/
theorem run_of_map {f : ThreadKey × Thread → ThreadKey × Thread} (hf : ∀ e, (f e).1 = e.1 ∧ (f e).2.run = e.2.run) (k : ThreadKey) :
    ∀ l : List (ThreadKey × Thread), (aget k (l.map f)).map (·.run) = (aget k l).map (·.run)
  | [] => rfl
  | (k', t) :: l => by
    obtain ⟨hk, hr⟩ := hf (k', t)
    rw [List.map_cons, aget, aget, hk]
    by_cases h : k' = k
    · rw [if_pos h, if_pos h, Option.map_some, hr, Option.map_some]
    · rw [if_neg h, if_neg h, run_of_map hf k l]

/-- An update of a barrier leaves every thread where it waits. -/
theorem run_of_updateBarrier (s : State) (id : TeamId) (a : Nat) (f : Barrier → Barrier) (k : ThreadKey) :
    (aget k (updateBarrier s id a f).threads).map (·.run) = (aget k s.threads).map (·.run) := by
  unfold updateBarrier
  split
  · dsimp only
    split
    · rfl
    · rw [noteFlip_threads, run_of_map (noted_kept id a)]
      rfl
  · rfl

/-- A bank counts an arrival, and the thread that waits for it goes on with its token. -/
theorem performSp_arrive {s : State} {h : HandKey} {tm : Team} {e : Access} {x : Nat} {u : Thread} (ht : aget h.team s.teams = some tm)
    (he : e.op = .spArrive x) (hp : s.spPoisoned h.team tm x 16 = false) (hu : aget (threadOf h e.lane) s.threads = some u)
    (hr : u.run = .bank) : performSp s h e = wakeLanes (((updateBarrier s h.team x Barrier.arrive).modThread (threadOf h e.lane)
      fun u => { u with token := some (x, (barrierOf (s.spNat h.team tm x 16)).phase) }).modThread (threadOf h e.lane)
      Thread.advance) h [e.lane] := by
  have hrun := run_of_updateBarrier s h.team x Barrier.arrive (threadOf h e.lane)
  rw [hu, Option.map_some, hr, Option.map_eq_some_iff] at hrun
  obtain ⟨u', hu', hr'⟩ := hrun
  simp only [performSp, ht, he, hp, Bool.false_eq_true, if_false]
  refine (bankDone_of_thread (u := { u' with token := _ }) (by rw [State.modThread_threads, aget_amod_self, hu']; rfl)).trans ?_
  exact if_pos hr'

/-! ## BBWAIT -/

/-- An instruction of a bundle of one thread without modifiers whose part waits. -/
theorem runLanes_one_stays {s s' : State} {sh : Shape} {h : HandKey} {tm : Team} {l : Nat} {v : Vals}
    {body : ThreadKey → Vals → State → LaneOut} (hc : OneLane s sh h tm l v) (hm : sh.modified = false)
    (hb : body (threadOf h l) v s = .wait s') : runLanes s sh body = endIssue (stallThread s' (threadOf h l)) h [l] := by
  simp [runLanes, hc.focus, hm, hc.performing hm, runLane, hc.ready, hb, applyOut]

theorem runLanes_one_team_stays {s s' : State} {sh : Shape} {h : HandKey} {tm : Team} {l : Nat} {v : Vals}
    {body : ThreadKey → Vals → State → Team → LaneOut} (hc : OneLane s sh h tm l v) (hm : sh.modified = false)
    (hb : body (threadOf h l) v s tm = .wait s') :
    runLanes s sh (fun k v s => inTeam s k (body k v s)) = endIssue (stallThread s' (threadOf h l)) h [l] :=
  runLanes_one_stays hc hm ((inTeam_of_team (inFocus_team hc.focus) _).trans hb)

/-- A thread that says on what it waits is not stalled besides. -/
theorem stallThread_blockOn (s : State) (k : ThreadKey) (p : Park) : stallThread (blockOn s k p) k = blockOn s k p := by
  rw [stallThread, blockOn, modThread_modThread]
  rfl

/-- The phase on which a thread waits at the barrier at x, whose phase is ph; none: it has flipped since. -/
def awaited (u : Thread) (x : Nat) (ph : Bool) : Option Bool :=
  match u.bwait with
  | some (y, p) => if y = x then p else some ph
  | none => match u.token with
    | some (y, p) => if y = x then some p else some ph
    | none => some ph

/-- What a BBWAIT does where nothing is in its way. -/
theorem waitBarrier_of_calm {s : State} {h : HandKey} {hd : Hand} {tm : Team} {l x : Nat} {u : Thread} (hu : s.lane h l = some u)
    (hf : Fits x 16 tm.scratch) (hc : Calm s h hd) (hp : s.mem.spPoison = []) :
    let ph := (barrierOf (s.spNat h.team tm x 16)).phase
    waitBarrier s (threadOf h l) tm x =
      if awaited u x ph = some ph then .wait (blockOn (s.modThread (threadOf h l) fun t =>
        { t with bwait := some (x, awaited u x ph) }) (threadOf h l) (.bbwait x ph))
      else .done (s.modThread (threadOf h l) fun t => { t with bwait := none, token := t.token.filter fun y => y.1 ≠ x }) := by
  intro ph
  have hu' : aget (threadOf h l) s.threads = some u := hu
  have hw : writePending hd x 16 = false := by simp [writePending, hc.queue]
  simp only [waitBarrier, spCheck_of_fits hf, hu', handOf_threadOf, hc.hand, acqPending_of_calm hc, hw, heldRange_of_no_holds hc.holds,
    spPoisoned_of_sound hp, Bool.or_false, Bool.false_eq_true, if_false]
  by_cases ho : awaited u x ph = some ph
  · exact (if_pos ho).trans (if_pos ho).symm
  · refine (if_neg ho).trans (Eq.trans ?_ (if_neg ho).symm)
    refine congrArg LaneOut.done (modThread_congr fun t _ => ?_)
    cases htok : t.token with
    | none => rfl
    | some y => by_cases hy : y.1 = x <;> simp [Option.filter_some, hy]

theorem awaited_of_flipped {u : Thread} {x : Nat} {ph : Bool}
    (h : u.bwait = some (x, none) ∨ u.bwait = some (x, some (!ph)) ∨ (u.bwait = none ∧ u.token = some (x, !ph))) :
    awaited u x ph ≠ some ph := by
  rcases h with e | e | ⟨e, et⟩
  · simp [awaited, e]
  · simp [awaited, e]
  · simp [awaited, e, et]

theorem awaited_of_same {u : Thread} {x : Nat} {ph : Bool} (hb : u.bwait = none) (ht : ∀ p, u.token = some (x, p) → p = ph) :
    awaited u x ph = some ph := by
  simp only [awaited, hb]
  split
  · next y p e =>
    split
    · next hy => rw [ht p (by rw [e, hy])]
    · rfl
  · rfl

/-- Settles O25: BBARR at its bank by `performSp_arrive`; BBWAIT by `waitBarrier_of_calm`. -/
theorem barrierWaits : Obligations.BarrierWaits := by
  refine ⟨?_, ?_, ?_⟩
  · intro g a off s h tm l v hd hc hh hf ha
    refine congrArg Host.Outcome.next (runLanes_one_team_left hc ?_)
    simp only [spCheck_of_fits hf, ha, enqueue_eq_queued, Bool.false_eq_true, if_false]
  · intro s h hd tm e x u hh ht hq hfence he hrel hold hidle hp hu hr
    rw [bankAccept_of_one hh hq hfence hrel hold hidle (by rw [he]; rfl) (by rw [he]; rfl),
      performSp_arrive (s := taken s h hd) ht he hp hu hr]
    rfl
  · intro g a off s h tm l v hd u hc hu x hf hcalm hp ph
    have hwait := waitBarrier_of_calm hu hf hcalm hp
    refine ⟨fun hflip => ?_, fun hmod hb htok => ?_⟩
    · exact congrArg Host.Outcome.next (runLanes_one_team_done hc (hwait.trans (if_neg (awaited_of_flipped hflip))))
    · have hsame := awaited_of_same hb htok
      have hm : (⟨g, srcOp a false, noOp, noOp, []⟩ : Shape).modified = false := by
        rw [Shape.modified, hmod]; rfl
      refine congrArg Host.Outcome.next ((runLanes_one_team_stays hc hm (hwait.trans (if_pos hsame))).trans ?_)
      rw [stallThread_blockOn, blockOn, modThread_modThread, hsame]

end Sys2Proof.Machine

/-! SUPPORT. The bytes of the Commons (08 R166, R167, R169): where the bytes of an aligned access lie, and what a write makes of
them. -/

namespace Sys2Proof.Machine

/-- An aligned access of 1, 2, 4 or 8 bytes lies in one word of 64 bytes. -/
theorem inLine_of_aligned {a n : Nat} (hn : n = 1 ∨ n = 2 ∨ n = 4 ∨ n = 8) (ha : a % n = 0) : a % 64 + n ≤ 64 := by
  rcases hn with rfl | rfl | rfl | rfl <;> omega

section
variable {a n : Nat} (hf : a % 64 + n ≤ 64)
include hf

/-- The bytes of an access that lies in one word of 64 bytes lie one after another: banks interleave at 64 bytes. -/
theorem cmKey_add (f : Func) {i : Nat} (hi : i < n) : cmKey f (a + i) = cmKey f a + i := by
  have hdie : bits (a + i) 28 26 = bits a 28 26 := by
    simp only [bits, Nat.shiftRight_eq_div_pow]; omega
  have hoff : bits (a + i) 25 0 = bits a 25 0 + i := by
    simp only [bits, Nat.shiftRight_zero]; omega
  have hin : bits a 25 0 % 64 + n ≤ 64 := by
    simp only [bits, Nat.shiftRight_zero]; omega
  have hq : (bits a 25 0 + i) / 64 = bits a 25 0 / 64 := by omega
  have hr : (bits a 25 0 + i) % 64 = bits a 25 0 % 64 + i := by omega
  simp only [cmKey, hdie, hoff, ← Nat.div_div_eq_div_mul, hq, hr]
  omega

theorem cmKeys_eq (f : Func) : (List.range n).map (fun i => cmKey f (a + i)) = (List.range n).map (cmKey f a + ·) :=
  List.map_congr_left fun _ hi => cmKey_add hf f (List.mem_range.1 hi)

/-- What a write of n bytes of a number makes of the Commons (08 R174). -/
theorem wrote_cmKey {m : List Host.Cell} (hm : memWf m = true) (f : Func) (v : Nat) :
    Wrote m (memWrite m (cmKey f a) (bytesOfNat n v)) (fun i => cmKey f (a + i)) n v := by
  refine ⟨fun i hi => ?_, fun y hy => memGet_memWrite_outside _ _ _ ?_⟩
  · dsimp only
    rw [cmKey_add hf f hi, memGet_memWrite_inside _ _ _ (by simpa using hi) hm, bytesOfNat_getElem]
  · rw [bytesOfNat_length]
    by_contra hc
    exact hy (y - cmKey f a) (by omega) (by dsimp only; rw [cmKey_add hf f (by omega)]; omega)

end

/-- Without poison a write changes only the bytes of the Commons. -/
theorem cmWrite_of_sound {s : State} {a : Nat} {bs : List Byte} (hf : a % 64 + bs.length ≤ 64) (hp : s.mem.cmPoison = [])
    (f : Func) : cmWrite s f a bs = { s with mem := { s.mem with cm := memWrite s.mem.cm (cmKey f a) bs } } := by
  have hm : ((List.range bs.length).zip bs).foldl (fun m e => memSet m (cmKey f (a + e.1)) e.2) s.mem.cm =
      memWrite s.mem.cm (cmKey f a) bs := by
    rw [← foldl_memSet_range, ← cmKeys_eq hf, List.zip_map_left, List.foldl_map]
    rfl
  simp only [cmWrite, hm, hp, List.filter_nil, ite_self]

theorem cmPoisoned_of_sound {s : State} (hp : s.mem.cmPoison = []) (f : Func) (a : Nat) : cmPoisoned s f a = false := by
  simp [cmPoisoned, hp]

/-- Where a thread has buffered no byte of a load it gets the bytes of the Commons. -/
theorem overlay_none (bs : List Byte) : overlay (List.replicate bs.length none) bs = bs := by
  induction bs with
  | nil => rfl
  | cons b bs ih => exact congrArg (b :: ·) ih

end Sys2Proof.Machine

/-! SUPPORT. The Commons instructions and their banks (08 R166 to R177; 13 R274). -/

namespace Sys2Proof.Machine

/-! ## Into the queue (08 R173 to R177) -/

/-- An address for n bytes is aligned and lies in its function's share of the Commons (08 R166, R167). -/
def InShare (f : Func) (x n : Nat) : Prop :=
  bits x 31 29 = 0 ∧ bits x 25 0 + n ≤ cmLen f (bits x 28 26) ∧ x % n = 0

theorem cmCheck_of_inShare {f : Func} {x n : Nat} (h : InShare f x n) (acc : Nat) : cmCheck f x n acc = none := by
  obtain ⟨hz, hb, ha⟩ := h
  simp [cmCheck, hz, ha, Nat.not_lt.2 hb]

section
variable {s : State} {h : HandKey} {tm : Team} {l n x : Nat} (hx : InShare (s.func tm.func) x n)
include hx

theorem loadCm_of_free (d : BitVec 8) (sgn : Bool) (acq : Option Scope) (ha : acqPending s (threadOf h l) false = false) :
    loadCm s (threadOf h l) tm d n sgn acq x = .done (markEmpty (queued s h l
      (.cmLoad x n sgn (n = 8) d (ownBytes s (threadOf h l) x n) (ownClears s (threadOf h l) x)) none
      (if tm.detMode then none else acq)) (threadOf h l) d (n = 8)) := by
  simp only [loadCm, teamFunc, cmCheck_of_inShare hx, ha, Bool.false_eq_true, if_false, enqueue_eq_queued]

theorem storeCm_of_free (v : Dword) (rel : Option Scope) (hm : tm.detMode = false)
    (ha : acqPending s (threadOf h l) false = false) :
    storeCm s (threadOf h l) tm n x v rel = .done (queued s h l (.cmStore x n (v.toNat % 2 ^ (8 * n))) rel none) := by
  simp only [storeCm, teamFunc, cmCheck_of_inShare hx, hm, ha, Bool.false_eq_true, if_false, enqueue_eq_queued, lowBytes]

theorem storeCm_of_buffered {hd : Hand} {u : Thread} (v : Dword) (rel : Option Scope) (hh : aget h s.hands = some hd)
    (hu : s.lane h l = some u) (hm : tm.detMode = true)
    (hr : (hd.detBuf.filter fun e => e.lane = l).length + 1 ≤ 1024 / tm.w) :
    storeCm s (threadOf h l) tm n x v rel = .done (s.setHand h { hd with detBuf := hd.detBuf ++
      [⟨BitVec.ofNat 64 (v.toNat % 2 ^ (8 * n)), l, 1, 0, BitVec.ofNat 8 (2 ^ n - 1), x, u.pc⟩] }) := by
  simp only [storeCm, teamFunc, cmCheck_of_inShare hx, hm, if_true, buffered_of_room _ hh hr, pcOf_of_lane hu]
  rfl

/-- A read-modify-write for which nothing is in the way joins its hand's queue; then changes what f changes. -/
theorem rmwCm_of_free (op : AccOp) (rel acq : Option Scope) (f : State → State) (hm : tm.detMode = false)
    (ha : acqPending s (threadOf h l) false = false) :
    rmwCm s (threadOf h l) tm x n op rel acq f = .done (f (queued s h l op rel acq)) := by
  simp only [rmwCm, teamFunc, cmCheck_of_inShare hx, hm, ha, Bool.false_eq_true, if_false, enqueue_eq_queued]

end

/-! ## A hand's only access at its bank (08 R169, R171) -/

/-- The only access of a hand may be accepted by a bank of the Commons, where no release holds it back. -/
theorem mayAccept_one_of_cm {s : State} {h : HandKey} {hd : Hand} {e : Access} (hh : aget h s.hands = some hd)
    (hf : hd.fences = []) (hr : e.rel = none) (hsp : e.op.spRange = none) : mayAccept s h [e] 0 e = true := by
  by_cases hl : e.op.isLoad = true
  · simp [mayAccept, hl, loadFree]
  · have hrel : entryReleased s h e = true := by simp [entryReleased, hr, hh, hf]
    have hat : atomFree [e] 0 e = true := by simp only [atomFree]; split <;> simp
    simp [mayAccept, hl, hrel, hat, hsp, oldestStore]

/-- An access of the Commons is none of the scratchpad. -/
theorem spRange_of_cmRange {o : AccOp} {r : Nat × Nat} (hc : o.cmRange = some r) : o.spRange = none := by
  cases o with
  | spStore | spAtom | spArrive => cases hc
  | cmLoad | cmStore | cmAtom | cmAxpy => rfl

/-- A bank whose functions' shares allow it accepts the only access of a hand, and counts it (08 R171). -/
theorem commonsAccept_of_one {s : State} {h : HandKey} {hd : Hand} {e : Access} {r : Nat × Nat} {lane : Bool × Nat × Nat}
    (hh : aget h s.hands = some hd) (hq : hd.storeQ = [e]) (hf : hd.fences = []) (hr : e.rel = none)
    (hc : e.op.cmRange = some r) (hl : cmLane s h 0 = some lane) (hfair : cmFair s lane = true) :
    exec (.commonsBankAccept h 0) s = .next (openChecks (performCm (taken (cmCounted s lane) h hd) h e) h.team) := by
  have hm := mayAccept_one_of_cm (s := cmCounted s lane) hh hf hr (spRange_of_cmRange hc)
  have hacc : acceptNth (cmCounted s lane) h 0 true = some (performCm (taken (cmCounted s lane) h hd) h e) := by
    simp [acceptNth, show aget h (cmCounted s lane).hands = some hd from hh, hq, hc, hm, delAt, taken]
  show execCommonsBankAccept h 0 s = _
  simp only [execCommonsBankAccept, hl, hfair, if_true, hacc]

/-! ## What a bank performs (08 R174 to R177) -/

section
variable {s : State} {h : HandKey} {tm : Team} {e : Access} (ht : aget h.team s.teams = some tm) (hp : s.mem.cmPoison = [])
include ht hp

/-- A load's value goes to its thread. -/
theorem performCm_load {a n : Nat} {sgn w : Bool} {d : BitVec 8} {cl : Bool}
    (he : e.op = .cmLoad a n sgn w d (List.replicate n none) cl) (hn : 0 < n) (h4 : sgn = true → n ≤ 4) :
    performCm s h e = sendFill s (threadOf h e.lane) d w
      (.value (loaded n sgn (natOfBytes (cmBytes s (s.func tm.func) a n)))) e.iaddr (some e.seq) := by
  have hlen : (cmBytes s (s.func tm.func) a n).length = n := by simp [cmBytes]
  have hlt : natOfBytes (cmBytes s (s.func tm.func) a n) < 2 ^ (8 * n) := by
    simpa only [hlen] using natOfBytes_lt (cmBytes s (s.func tm.func) a n)
  have hov : overlay (List.replicate n none) (cmBytes s (s.func tm.func) a n) = cmBytes s (s.func tm.func) a n := by
    simpa only [hlen] using overlay_none (cmBytes s (s.func tm.func) a n)
  simp only [performCm, ht, he, teamFunc, cmPoisoned_of_sound hp, Bool.false_and, Bool.false_eq_true, if_false, hov,
    extendLoad_eq_loaded hn hlt h4]

theorem performCm_store {a n v : Nat} (he : e.op = .cmStore a n v) :
    performCm s h e = cmWrite s (s.func tm.func) a (bytesOfNat n v) := by
  simp only [performCm, ht, he, teamFunc, cmPoisoned_of_sound hp, Bool.false_and, Bool.false_eq_true, if_false]

/-- An atomic writes its new value; the old one goes to its thread if it has a destination. -/
theorem performCm_atomic {a : Nat} {op : AtomOp} {w : Bool} {b c : Dword} {d : BitVec 8} (he : e.op = .cmAtom a op w b c d) :
    let n := if w then 8 else 4
    let old := BitVec.ofNat 64 (natOfBytes (cmBytes s (s.func tm.func) a n))
    let t := cmWrite s (s.func tm.func) a (bytesOfNat n (atomWide op w old b c).toNat)
    performCm s h e = if d = 0 then t else sendFill t (threadOf h e.lane) d w (.value old) e.iaddr (some e.seq) := by
  simp only [performCm, ht, he, teamFunc, cmPoisoned_of_sound hp, Bool.false_eq_true, if_false]

theorem performCm_axpy {a : Nat} {ty : AxpyTy} {sc b : Word} (he : e.op = .cmAxpy a ty sc b) :
    performCm s h e = cmWrite s (s.func tm.func) a
      (bytesOfNat 4 (axpyNew ty (BitVec.ofNat 32 (natOfBytes (cmBytes s (s.func tm.func) a 4))) sc b).toNat) := by
  simp only [performCm, ht, he, teamFunc, cmPoisoned_of_sound hp, Bool.false_eq_true, if_false]

end

/-- Settles O26: `loadCm_of_free`, `storeCm_of_free`, `storeCm_of_buffered` and `rmwCm_of_free` for the instructions;
`commonsAccept_of_one` with `performCm_load`, `performCm_store`, `performCm_atomic` and `performCm_axpy` for the banks. -/
theorem commons : Obligations.Commons := by
  refine ⟨?_, ?_⟩
  · intro g off s h tm l v hd u hh hu x k inShare empty
    refine ⟨?_, ?_, fun hm ha => ⟨?_, ?_, ?_⟩⟩
    · intro d a sz sgn acq n hc hx ha
      exact congrArg Host.Outcome.next (runLanes_one_team_done hc (loadCm_of_free hx d sgn acq ha))
    · intro a b sz rel n hc hx
      refine ⟨fun hm ha => ?_, fun hm hr => ?_⟩
      · exact congrArg Host.Outcome.next (runLanes_one_team_done hc (storeCm_of_free hx v.b rel hm ha))
      · exact congrArg Host.Outcome.next (runLanes_one_team_done hc (storeCm_of_buffered hx v.b rel hh hu hm hr))
    · intro w d a b op ord hc hx
      rw [← regOf_of_lane hu]
      exact congrArg Host.Outcome.next (runLanes_one_team_done hc (rmwCm_of_free hx _ _ _ _ hm ha))
    · intro w a b op hc hx
      exact congrArg Host.Outcome.next (runLanes_one_team_done hc (rmwCm_of_free hx _ none none id hm ha))
    · intro d a b ty hc hx
      rw [← regOf_of_lane hu]
      exact congrArg Host.Outcome.next (runLanes_one_team_done hc (rmwCm_of_free hx _ none none id hm ha))
  · intro s h hd tm e hs hh ht hq hf hr hp k f lane hl hfair base sent writes
    have hwf : memWf s.mem.cm = true := (s.memOk_iff.1 hs).2.1
    have hwrites : ∀ {a n v after r}, e.op.cmRange = some r → a % 64 + n ≤ 64 →
        performCm base h e = after (cmWrite base f a (bytesOfNat n v)) → writes a n v after := by
      intro a n v after r hc hin hperf
      refine ⟨_, wrote_cmKey hin hwf f v, memWf_memWrite _ _ hwf, ?_⟩
      rw [commonsAccept_of_one hh hq hf hr hc hl hfair, hperf, cmWrite_of_sound (s := base) (by simpa using hin) hp]
      rfl
    refine ⟨?_, ?_, ?_, ?_⟩
    · rintro a n sgn w d own cl he hn rfl
      rw [commonsAccept_of_one hh hq hf hr (by rw [he]; rfl) hl hfair, performCm_load (s := base) ht hp he (by omega) ?_]
      · rfl
      · rintro rfl
        have : n = 1 ∨ n = 2 ∨ n = 4 := by simpa using hn
        omega
    · intro a n v he hn ha
      exact hwrites (by rw [he]; rfl) (inLine_of_aligned hn ha) (performCm_store (s := base) ht hp he)
    · intro a op w b c d he ha n old
      have hn : n = 1 ∨ n = 2 ∨ n = 4 ∨ n = 8 := by cases w <;> simp [n]
      exact hwrites (after := fun t => if d = 0 then t else sent t d w old) (by rw [he]; rfl) (inLine_of_aligned hn ha)
        (performCm_atomic (s := base) ht hp he)
    · intro a ty sc b he ha
      exact hwrites (by rw [he]; rfl) (inLine_of_aligned (by simp) ha) (performCm_axpy (s := base) ht hp he)

end Sys2Proof.Machine

/-! SUPPORT. Copy channels (09 R201 to R205): what a change of a channel or of the chain that it runs leaves, and what the
channel and window instructions make of them. -/

namespace Sys2Proof.Machine

/-! ## Reading a channel that has been changed -/

theorem aset_aset {κ α : Type} [DecidableEq κ] (k : κ) (v w : α) : ∀ l : List (κ × α), aset k w (aset k v l) = aset k w l
  | [] => by simp [aset]
  | (j, u) :: t => by
    by_cases h : j = k
    · simp [aset, h]
    · simp [aset, h, aset_aset k v w t]

/-- A key that is given the value it has. -/
theorem aset_of_aget {κ α : Type} [DecidableEq κ] {k : κ} {v : α} : ∀ {l : List (κ × α)}, aget k l = some v → aset k v l = l
  | [], h => by simp at h
  | (j, u) :: t, h => by
    by_cases hj : j = k
    · simp_all [aset, aget]
    · simp only [aget, hj, if_false] at h
      simp [aset, hj, aset_of_aget h]

@[simp] theorem chan_modChan_self (s : State) (c : ChanId) (f : Chan → Chan) : (s.modChan c f).chan c = f (s.chan c) :=
  agetD_aset_self ..

theorem chan_modChan_ne (s : State) {b c : ChanId} (f : Chan → Chan) (h : b ≠ c) : (s.modChan c f).chan b = s.chan b :=
  agetD_aset_ne _ _ h _

theorem modChan_modChan (s : State) (c : ChanId) (f g : Chan → Chan) :
    (s.modChan c f).modChan c g = s.modChan c fun ch => g (f ch) := by
  simp only [State.modChan, State.chan, agetD_aset_self, aset_aset]

/-- Two changes of a channel that agree on it are one change. -/
theorem modChan_congr {s : State} {c : ChanId} {f g : Chan → Chan} (h : f (s.chan c) = g (s.chan c)) :
    s.modChan c f = s.modChan c g := by
  simp only [State.modChan, h]

/-! ## Channels that run a chain -/

section
variable {s : State} {c : ChanId} {x : Chain}

theorem chain_of_run (h : (s.chan c).run = some (.chain x)) : (s.chan c).chain = some x := by simp [Chan.chain, h]

@[simp] theorem run_setChain : ((setChain s c x).chan c).run = some (.chain x) := by simp [setChain]

theorem setChain_setChain (y : Chain) : setChain (setChain s c x) c y = setChain s c y := modChan_modChan ..

/-- A channel that is set to the chain that it runs stays as it is. -/
theorem setChain_of_run (h : (s.chan c).run = some (.chain x)) : setChain s c x = s := by
  have he : ({ s.chan c with run := some (.chain x) } : Chan) = s.chan c := by rw [← h]
  have hc : aget c s.chans = some (s.chan c) := by
    cases hg : aget c s.chans with
    | none => simp [State.chan, agetD, hg, Chan.reset] at h
    | some ch => simp [State.chan, agetD, hg]
  simp only [setChain, State.modChan, he, aset_of_aget hc]

/-- A change of the n-th record of the chain that a channel runs. -/
theorem modRec_of_run (h : (s.chan c).run = some (.chain x)) (n : Nat) (f : Rec → Rec) :
    modRec s c n f = setChain s c { x with recs := modAt f n x.recs } :=
  modChan_congr (by simp only [h])

theorem modRec_setChain (n : Nat) (f : Rec → Rec) :
    modRec (setChain s c x) c n f = setChain s c { x with recs := modAt f n x.recs } := by
  rw [modRec_of_run run_setChain, setChain_setChain]

/-- The channel of a chain of which nothing is left is free. -/
theorem closeChain_setChain : closeChain (setChain s c x) c =
    if x.recs = [] ∧ (x.next = none ∨ x.stopped = true) then (setChain s c x).modChan c fun ch => { ch with run := none }
    else setChain s c x := by
  simp [closeChain, chain_of_run run_setChain]

end

/-! ## CHSTOP (09 R204) -/

/-- What each step of a fold leaves alone, the fold leaves alone. -/
theorem foldl_keeps {α β : Type} {f : State → α → State} (g : State → β) (h : ∀ s a, g (f s a) = g s) :
    ∀ (l : List α) (s : State), g (l.foldl f s) = g s
  | [], _ => rfl
  | a :: l, s => (foldl_keeps g h l (f s a)).trans (h s a)

@[simp] theorem updateQ_chans (s : State) (id : TeamId) (no : Nat) : (updateQ s id no).chans = s.chans := by
  fun_cases updateQ s id no <;> rfl
@[simp] theorem updateQ_threads (s : State) (id : TeamId) (no : Nat) : (updateQ s id no).threads = s.threads := by
  fun_cases updateQ s id no <;> rfl

@[simp] theorem dropUnstarted_chan (s : State) (id : TeamId) (rs : List Rec) (b : ChanId) :
    (dropUnstarted s id rs).chan b = s.chan b :=
  foldl_keeps (fun s => s.chan b) (fun _ _ => by split <;> simp [State.chan]) rs s
@[simp] theorem dropUnstarted_threads (s : State) (id : TeamId) (rs : List Rec) : (dropUnstarted s id rs).threads = s.threads :=
  foldl_keeps State.threads (fun _ _ => by split <;> simp) rs s

@[simp] theorem closeChain_threads (s : State) (c : ChanId) : (closeChain s c).threads = s.threads := by
  fun_cases closeChain s c <;> simp
theorem closeChain_chan_ne (s : State) {b c : ChanId} (h : b ≠ c) : (closeChain s c).chan b = s.chan b := by
  fun_cases closeChain s c <;> simp [chan_modChan_ne, h]
@[simp] theorem closeChain_queue (s : State) (c : ChanId) : ((closeChain s c).chan c).queue = (s.chan c).queue := by
  fun_cases closeChain s c <;> simp
@[simp] theorem closeChain_frozen (s : State) (c : ChanId) : ((closeChain s c).chan c).frozen = (s.chan c).frozen := by
  fun_cases closeChain s c <;> simp

/-- A channel whose chain has nothing left is free, and else goes on with it. -/
theorem closeChain_run {s : State} {c : ChanId} {x : Chain} (h : (s.chan c).run = some (.chain x)) :
    ((closeChain s c).chan c).run = if x.recs = [] ∧ (x.next = none ∨ x.stopped = true) then none else some (.chain x) := by
  rw [← setChain_of_run h, closeChain_setChain]
  split <;> simp

@[simp] theorem dropQueued_threads (s : State) (c : ChanId) (id : TeamId) : (dropQueued s c id).threads = s.threads := by
  simp [dropQueued]
theorem dropQueued_chan_ne (s : State) {b c : ChanId} (id : TeamId) (h : b ≠ c) : (dropQueued s c id).chan b = s.chan b := by
  simp [dropQueued, chan_modChan_ne, h]
@[simp] theorem dropQueued_queue (s : State) (c : ChanId) (id : TeamId) : ((dropQueued s c id).chan c).queue =
    (s.chan c).queue.filter fun j => !(j.isChain && decide (j.team = id)) := by
  simp [dropQueued]
@[simp] theorem dropQueued_frozen (s : State) (c : ChanId) (id : TeamId) :
    ((dropQueued s c id).chan c).frozen = (s.chan c).frozen := by
  simp [dropQueued]
@[simp] theorem dropQueued_run (s : State) (c : ChanId) (id : TeamId) : ((dropQueued s c id).chan c).run = (s.chan c).run := by
  simp [dropQueued]

/-- The team's running chain drops what it has not started, and ends where nothing of it has started. -/
def stopRun (s : State) (c : ChanId) (id : TeamId) (x : Chain) : State :=
  closeChain (dropUnstarted (setChain s c { x with stopped := true, recs := x.recs.filter (·.started) }) id x.recs) c

theorem stopChan_of_running {s : State} {c : ChanId} {id : TeamId} {x : Chain} (h : (s.chan c).run = some (.chain x))
    (ht : x.team = id) : stopChan s c id = dropQueued (stopRun s c id x) c id := by
  simp only [stopChan, chain_of_run h, ht, if_true, stopRun]

theorem stopChan_of_others {s : State} {c : ChanId} {id : TeamId} (h : ∀ x, (s.chan c).run = some (.chain x) → x.team ≠ id) :
    stopChan s c id = dropQueued s c id := by
  unfold stopChan Chan.chain
  split
  · rename_i x hx
    split at hx
    · rename_i y hy
      cases hx
      simp [h x hy]
    · cases hx
  · rfl

/-- What a stop leaves of the state, and what it makes of the queue. -/
structure Stops (s t : State) (c : ChanId) (id : TeamId) : Prop where
  threads : t.threads = s.threads
  mem : t.mem = s.mem
  others : ∀ b, b ≠ c → t.chan b = s.chan b
  queue : (t.chan c).queue = (s.chan c).queue.filter fun j => !(j.isChain && decide (j.team = id))
  frozen : (t.chan c).frozen = (s.chan c).frozen

theorem stops_dropQueued (s : State) (c : ChanId) (id : TeamId) : Stops s (dropQueued s c id) c id :=
  ⟨by simp, by simp, fun _ hb => dropQueued_chan_ne s id hb, by simp, by simp⟩

theorem stops_stopChan (s : State) (c : ChanId) (id : TeamId) : Stops s (stopChan s c id) c id := by
  by_cases hx : ∃ x, (s.chan c).run = some (.chain x) ∧ x.team = id
  · obtain ⟨x, hr, ht⟩ := hx
    obtain ⟨threads, mem, others, queue, frozen⟩ := stops_dropQueued (stopRun s c id x) c id
    rw [stopChan_of_running hr ht]
    refine ⟨threads.trans (by simp [stopRun, setChain]), mem.trans (by simp [stopRun]), fun b hb => (others b hb).trans ?_,
      queue.trans (by simp [stopRun, setChain]), frozen.trans (by simp [stopRun, setChain])⟩
    simp [stopRun, closeChain_chan_ne _ hb, setChain, chan_modChan_ne _ _ hb]
  · rw [stopChan_of_others fun x hr ht => hx ⟨x, hr, ht⟩]
    exact stops_dropQueued s c id

/-- Of the team's running chain a stop leaves what has started. -/
theorem run_of_stopChan {s : State} {c : ChanId} {id : TeamId} {x : Chain} (h : (s.chan c).run = some (.chain x))
    (ht : x.team = id) : ((stopChan s c id).chan c).run = if x.recs.filter (·.started) = [] then none
      else some (.chain { x with stopped := true, recs := x.recs.filter (·.started) }) := by
  rw [stopChan_of_running h ht, dropQueued_run, stopRun, closeChain_run (by rw [dropUnstarted_chan, run_setChain])]
  simp

/-! ## KICK (09 R202) -/

section
variable {s : State} {h : HandKey} {hd : Hand} {tm : Team} {l x : Nat} {v : Vals}

theorem ownChan_of_hand (hh : aget h s.hands = some hd) (l n : Nat) :
    ownChan s (threadOf h l) n = ⟨⟨h.team.die, h.team.core, hd.quad⟩, n⟩ := by
  have hk : aget (handOf (threadOf h l)) s.hands = some hd := hh
  simp only [ownChan, hk]
  rfl

/-- A record that lies within SCRATCH and is not poisoned is read; the channel takes it if it owns it. -/
theorem acceptRec_of_sound {c : ChanId} {id : TeamId} (hf : x + 32 ≤ tm.scratch) (hp : s.spPoisoned id tm x 32 = false) :
    acceptRec s c id tm x =
      let r := Rec.read x (BitVec.ofNat 256 (s.spNat id tm x 32))
      (s, if r.own then some { r with bad := r.malformed s id tm } else none) := by
  simp only [acceptRec, Nat.not_lt.2 hf, hp, if_false, Bool.false_eq_true]
  split <;> rfl

/-- What an accepted KICK makes of the state: its chain is the last of the queue, and its hand has counted it. -/
def kicked (s : State) (h : HandKey) (l seq : Nat) (c : ChanId) (recs : List Rec) (next : Option Nat) : State :=
  (s.modChan c fun ch => { ch with
    queue := ch.queue ++ [.chain ⟨h.team, h.hand, seq, wideAcquires s (threadOf h l), recs, next, false⟩] }).modHand h
    fun hd => { hd with seq := hd.seq + 1 }

/-- A KICK's chain has the head record, if the channel owns it; a record that fills a tile brings Q up to date. -/
theorem kickChain_of_sound (hh : aget h s.hands = some hd) (c : ChanId) (hf : x + 32 ≤ tm.scratch)
    (hp : s.spPoisoned h.team tm x 32 = false) {r0 r : Rec} (h0 : r0 = Rec.read x (BitVec.ofNat 256 (s.spNat h.team tm x 32)))
    (hr : r = { r0 with bad := r0.malformed s h.team tm }) :
    let t := kicked s h l hd.seq c (if r0.own then [r] else []) (if r0.own then followOf r tm.scratch else none)
    kickChain s (threadOf h l) c tm x = if r0.own ∧ r.fills ∧ r.bad = false then updateQ t h.team r.tileNo else t := by
  have hk : aget (handOf (threadOf h l)) s.hands = some hd := hh
  have ha := acceptRec_of_sound (c := c) hf hp
  rw [← h0] at ha
  simp only [kickChain, threadOf_team, ha, nextSeqNo, hk]
  cases ho : r0.own
  · rfl
  · simp only [← hr, true_and, if_true, Bool.and_eq_true, Bool.not_eq_true']
    rfl

section
variable {g : Guard} {a : Src} {off : Word}
  (hc : OneLane s ⟨g, srcOp a false, noOp, noOp, []⟩ h tm l v) (hh : aget h s.hands = some hd)
  (hf : Fits (memAddr v.a off) 32 tm.scratch)
include hc hh hf

/-- A KICK whose channel has a place free is accepted. -/
theorem kick_accepted (d : BitVec 2) {c : ChanId} (hq : c = ⟨⟨h.team.die, h.team.core, hd.quad⟩, d.toNat⟩)
    (hr : recHeld s h.team tm (memAddr v.a off) = false) (hn : (s.chan c).heads.length < 4) :
    exec (.kick g d a off) s = .next (goesOn (kickChain s (threadOf h l) c tm (memAddr v.a off)) h l) := by
  refine congrArg Host.Outcome.next (runLanes_one_team_done hc ?_)
  rw [hq] at hn ⊢
  simp only [hf.2, Nat.not_lt.2 hf.1, ownChan_of_hand hh, threadOf_team, Nat.not_le.2 hn, hr, ne_eq, not_true_eq_false, if_false,
    Bool.false_eq_true]

/-- A KICK whose channel has four heads waits for a place. -/
theorem kick_blocked (d : BitVec 2) {c : ChanId} (hq : c = ⟨⟨h.team.die, h.team.core, hd.quad⟩, d.toNat⟩)
    (hm : (srcOp a false).mod = .none) (hn : 4 ≤ (s.chan c).heads.length) :
    exec (.kick g d a off) s = .next (endIssue (blockOn s (threadOf h l) (.kick d.toNat)) h [l]) := by
  have hns : (⟨g, srcOp a false, noOp, noOp, []⟩ : Shape).modified = false := by
    simp only [Shape.modified, hm]
    rfl
  rw [hq] at hn
  refine congrArg Host.Outcome.next ((runLanes_one_team_stays hc hns ?_).trans (by rw [stallThread_blockOn]))
  simp only [hf.2, Nat.not_lt.2 hf.1, ownChan_of_hand hh, hn, ne_eq, not_true_eq_false, if_false, if_true]

end

end

/-! ## CHSTAT and CHWAIT (09 R203) -/

/-- Of an idle channel the status says whether the team's chains are frozen, and how many of its records ended incomplete. -/
theorem chanStatus_of_idle {s : State} {c : ChanId} (h : (s.chan c).jobs = []) (id : TeamId) :
    chanStatus s c id = (if id ∈ (s.chan c).frozen then 2 ^ 30 else 0) + min 1023 (agetD id 0 (s.chan c).incomp) * 2 ^ 16 := by
  have hj := h
  simp only [Chan.jobs, List.append_eq_nil_iff, Option.toList_eq_nil_iff] at hj
  obtain ⟨⟨-, hb⟩, hq⟩ := hj
  simp [chanStatus, Chan.flight, Chan.chains, h, Chan.heads, hb, hq]

theorem chanStatus_lt_of_idle {s : State} {c : ChanId} (h : (s.chan c).jobs = []) (id : TeamId) : chanStatus s c id < 2 ^ 31 := by
  rw [chanStatus_of_idle h]
  have : min 1023 (agetD id 0 (s.chan c).incomp) ≤ 1023 := Nat.min_le_left ..
  split <;> omega

/-- An instruction of a bundle writes in each performing lane's register a value that its part reads off the state where
only threads may differ. -/
theorem runLanes_puts {s : State} {sh : Shape} {h : HandKey} {tm : Team} {ls : List Nat}
    {body : ThreadKey → Vals → State → LaneOut} {d : BitVec 8} {w : Bool} {y : Dword}
    (hc : CanPerform s sh h tm ls)
    (hb : ∀ T l v, body (threadOf h l) v { s with threads := T } = putReg d w y (threadOf h l) { s with threads := T }) :
    LanesGet s (runLanes s sh body) sh h tm ls fun _ _ u => writeReg u d w y :=
  runLanes_part hc fun l hl => (hc.ready l hl).imp fun v hv => ⟨hv, fun s' hs _ => by rw [hs]; exact hb ..⟩

/-! ## Windows (09 R205) -/

/-- A WBIND whose descriptor passes every check binds the slot that it names. -/
theorem wbind_of_sound {s : State} {g : Guard} {a : Src} {off : Word} {h : HandKey} {tm : Team} {l x : Nat} {v : Vals}
    {w : BitVec 256} (hc : OneLane s ⟨g, srcOp a false, noOp, noOp, []⟩ h tm l v) (hx : x = memAddr v.a off)
    (hw : w = BitVec.ofNat 256 (s.spNat h.team tm x 32)) (hf : Fits x 32 tm.scratch) (hh : heldRange s h.team x 32 true = false)
    (hp : s.spPoisoned h.team tm x 32 = false) (hr : windowPoison s h.team tm w = none) (hb : windowBad s h.team tm w = false)
    (hs : slotBusy s h.team (wSlot w) = false) :
    exec (.wbind g a off) s = .next (goesOn (s.modTeam h.team fun tm =>
      { tm with windows := tm.windows.set (wSlot w) (some w) }) h l) := by
  refine congrArg Host.Outcome.next (runLanes_one_team_done hc ?_)
  simp only [← hx, threadOf_team, ← hw, hf.2, Nat.not_lt.2 hf.1, hh, hp, hr, hb, hs, ne_eq, not_true_eq_false, if_false,
    Bool.false_eq_true]

/-- Settles O29: KICK by `kick_accepted` with `kickChain_of_sound`, or `kick_blocked`; CHSTAT, CHWAIT and WSTAT lane by lane
(`runLanes_puts`); CHSTOP by `stops_stopChan` and `run_of_stopChan`; WBIND by `wbind_of_sound`. -/
theorem channels : Obligations.Channels := by
  refine ⟨?kick, ⟨?status, ?stop⟩, ?bind, ?unbind, ?wstat⟩
  case kick =>
    intro g d a off s h tm l v hd hc hh x c hf hp hr
    exact ⟨fun hn => (kick_accepted hc hh hf d rfl hr hn).trans
      (congrArg (fun t => Host.Outcome.next (goesOn t h l)) (kickChain_of_sound hh c hf.1 hp rfl rfl)),
      fun hn hm => kick_blocked hc hh hf d rfl hm hn⟩
  case status =>
    intro g d ch s h tm ls hd sh c hc hh reads
    refine ⟨fun hm => ⟨_, rfl, runLanes_puts hc fun T l v => ?_⟩,
      fun hi => ⟨chanStatus_of_idle hi _, _, rfl, runLanes_puts hc fun T l v => ?_⟩⟩
    · rw [inTeam_of_team (tm := tm) (inFocus_team hc.focus)]
      simp only [hm]
      rw [ownChan_of_hand (s := { s with threads := T }) hh]
      rfl
    · rw [ownChan_of_hand (s := { s with threads := T }) hh]
      exact if_neg (Nat.not_le.2 (chanStatus_lt_of_idle hi _))
  case stop =>
    intro g ch s h tm l v hd c hc hh
    refine ⟨⟨_, congrArg Host.Outcome.next (runLanes_one_done hc rfl), ?_⟩, ?_, ?_⟩
    · rw [ownChan_of_hand hh]
      obtain ⟨threads, mem, others, queue, frozen⟩ := stops_stopChan s c h.team
      exact ⟨threads, mem, others, queue, frozen, fun x hr ht => run_of_stopChan hr ht⟩
    · refine congrArg Host.Outcome.next ((runLanes_one_done hc rfl).trans ?_)
      rw [ownChan_of_hand hh]
      simp only [List.contains_iff_mem]
      rfl
    · refine congrArg Host.Outcome.next ((runLanes_one_done hc rfl).trans ?_)
      rw [ownChan_of_hand hh]
      rfl
  case bind =>
    intro g a off s h tm l v hc x w hf hh hp hw hb hs
    exact wbind_of_sound hc rfl rfl hf hh hp hw hb hs
  case unbind =>
    intro g n s h tm l v hc hs
    exact congrArg Host.Outcome.next (runLanes_one_done hc (if_neg (by simp [hs])))
  case wstat =>
    intro g d n s h tm ls hc hm
    refine ⟨_, rfl, runLanes_puts hc fun T l v => ?_⟩
    rw [inTeam_of_team (tm := tm) (inFocus_team hc.focus)]
    simp only [hm]
    rfl

end Sys2Proof.Machine

/-! SUPPORT. Records and units of copy channels (09 R184 to R196), and matrix units that change hands (10 R207, R214): what each
step of a channel does where nothing is in its way. -/

namespace Sys2Proof.Machine

/-! ## Acceptance and start (09 R184, R185, R187) -/

section
variable {s : State} {c : ChanId} {x : Chain} {tm : Team} {r : Rec} {rest : List Rec}

theorem closeChain_of_records (h : (s.chan c).run = some (.chain x)) (hx : x.recs ≠ []) : closeChain s c = s := by
  rw [← setChain_of_run h, closeChain_setChain, if_neg fun hc => hx hc.1]

/-- A free channel to which nothing has been brought back takes the head of its queue. -/
theorem acceptNext_of_free {q : List Job} (hr : (s.chan c).run = none) (hb : (s.chan c).back = [])
    (hq : (s.chan c).queue = .chain x :: q) (hx : x.recs ≠ []) (hm : mayStart s c x.team = true) :
    acceptNext s c = s.modChan c fun ch => { ch with run := some (.chain x), queue := q } := by
  have hg : (Job.chain x).goes s c = true := by simp [Job.goes, Job.team, hm]
  simp only [acceptNext, hr, nextJob, hb, hq, List.findIdx?_nil, hg, if_true]
  exact closeChain_of_records (by simp) hx

/-- The first record of a chain starts, where the team's records may. -/
theorem copyRecordStart_of_first (hr : (s.chan c).run = some (.chain x)) (ht : aget x.team s.teams = some tm)
    (hm : mayStart s c x.team = true) (hx : x.recs = r :: rest) (hs : r.started = false) :
    exec (.copyRecordStart c 0) s = .next (startRec s c x 0 r tm) := by
  refine (?_ : execCopyRecordStart c 0 s = _)
  simp [execCopyRecordStart, chain_of_run hr, hx, ht, hs, hm]

/-- A malformed record that fills no tile starts with no unit, and reports COPY_FORMAT. -/
theorem startRec_of_bad (hr : (s.chan c).run = some (.chain x)) (hx : x.recs = r :: rest) (hb : r.bad = true)
    (hf : r.fills = false) (tm : Team) : startRec s c x 0 r tm =
      chanFault (setChain s c { x with recs := { r with started := true, units := 0 } :: rest }) c x.team r.off
        { code := 0x1B } false 0 := by
  have he : ({ r with bad := true, started := true, units := 0 } : Rec) = { r with started := true, units := 0 } := by rw [← hb]
  simp only [startRec, hb, if_true, startBad, hf, Bool.false_eq_true, if_false, modRec_of_run hr, hx, modAt, he]

end

/-- A bulk record that names no tile and works through no window. -/
structure Rec.Plain (r : Rec) : Prop where
  kind : r.kind = 0
  tdst : r.tdst = false
  trel : r.trel = false
  slot : r.slot = none

section
variable {s : State} {c : ChanId} {x : Chain} {tm : Team} {r r0 : Rec} {rest : List Rec} {id : TeamId}

theorem spBase_of_plain (hp : r.Plain) : r.spBase = r.spoff := by simp [Rec.spBase, hp.tdst]
theorem nIdx_of_plain (hp : r.Plain) : r.nIdx = 0 := by simp [Rec.nIdx, hp.slot]
theorem fills_of_plain (hp : r.Plain) : r.fills = false := by simp [Rec.fills, hp.tdst]
theorem startWaits_of_plain (hp : r.Plain) : r.startWaits s x tm = false := by
  simp [Rec.startWaits, hp.slot, hp.kind, hp.tdst]
theorem recMeets_of_plain (hp : r.Plain) : recMeets s id tm r = .go := by
  simp [recMeets, hp.slot, hp.tdst, hp.trel, fills_of_plain hp]
theorem startMalformed_of_plain (hp : r.Plain) (hf : r.spoff + r.len ≤ tm.scratch) (hu : r.units ≤ 16384) :
    r.startMalformed tm = false := by
  simp [Rec.startMalformed, hp.kind, hp.slot, spBase_of_plain hp, hf, hu]
theorem startFault_of_plain (hp : r.Plain) : r.startFault s id tm = none := by
  simp [Rec.startFault, Rec.tileOutside, Rec.indexOutside, hp.tdst, hp.slot, hp.kind]

/-- A plain record that is in bounds starts: it reads no index, and no tile changes its state. -/
theorem startRec_of_plain (hb : r0.bad = false) (he : fillRec s x.team tm r0 = r) (hp : r.Plain)
    (hf : r.spoff + r.len ≤ tm.scratch) (hu : r.units ≤ 16384) : startRec s c x 0 r0 tm =
      modRec s c 0 fun _ => { r with started := true, idx := [], badIdx := [] } := by
  simp [startRec, hb, he, startWaits_of_plain hp, recMeets_of_plain hp, hp.kind, startMalformed_of_plain hp hf hu,
    startFault_of_plain hp, startGood, fills_of_plain hp, hp.trel, nIdx_of_plain hp]

/-- A plain record finds no more at its start than the number of its units. -/
theorem fillRec_of_plain (hp : r.Plain) (hw : windowFor tm r.va r.len = none) (hd : r.desc = 0) (hf : r.fmt = 0)
    (hs : r.shape = 0) (hz : r.wdesc = 0) : fillRec s id tm r = { r with units := pieceCount r.va r.len } := by
  have e' : ({ r with desc := 0, fmt := 0, shape := 0, slot := none, wdesc := 0 } : Rec) = r := by
    have slot := hp.slot
    cases r
    simp_all
  have hk : ¬ r.kind = 2 := by rw [hp.kind]; decide
  have hv : r.vlen = r.len := by simp [Rec.vlen, hp.kind]
  have hu : r.countUnits = pieceCount r.va r.len := by simp [Rec.countUnits, Rec.byElem, hp.kind, hp.slot]
  simp only [fillRec, hp.tdst, hk, Bool.false_eq_true, if_false, hv, hw, Option.map_none, e', hu, hd, hf, hs, hz, hp.slot]

end

/-- A range of at most 1,048,512 bytes has at most 16,384 aligned pieces of 64 bytes. -/
theorem pieceCount_le {n : Nat} (hn : n ≤ 1048512) (va : Nat) : pieceCount va n ≤ 16384 := by
  unfold pieceCount
  omega

/-! ## Units of a copy in (09 R187, R191, R196) -/

@[simp] theorem countLines_answers (s : State) (fn va n : Nat) (w : Bool) : (countLines s fn va n w).answers = s.answers :=
  foldl_keeps State.answers (fun s _ => by fun_cases countLine s fn _ w <;> rfl) _ s

@[simp] theorem countLines_teams (s : State) (fn va n : Nat) (w : Bool) : (countLines s fn va n w).teams = s.teams :=
  foldl_keeps State.teams (fun s _ => by fun_cases countLine s fn _ w <;> rfl) _ s

/-- A line counts the same, whichever chain a channel runs. -/
theorem countLine_setChain (s : State) (c : ChanId) (x : Chain) (fn va : Nat) (w : Bool) :
    countLine (setChain s c x) fn va w = setChain (countLine s fn va w) c x := by
  have hf : (setChain s c x).func fn = s.func fn := rfl
  simp only [countLine, hf]
  split
  · split <;> rfl
  · rfl

theorem countLines_setChain (s : State) (c : ChanId) (x : Chain) (fn va n : Nat) (w : Bool) :
    countLines (setChain s c x) fn va n w = setChain (countLines s fn va n w) c x := by
  unfold countLines
  generalize pieces 128 (n / 128 + 2) va n = ps
  induction ps generalizing s with
  | nil => rfl
  | cons p ps ih => rw [List.foldl_cons, countLine_setChain, ih, List.foldl_cons]

/-- A range within an aligned block is one piece of it. -/
theorem pieces_of_inside {g va n : Nat} (h0 : n ≠ 0) (h : va % g + n ≤ g) (k : Nat) : pieces g (k + 2) va n = [(va, n)] := by
  have hm : min n (g - va % g) = n := by omega
  simp [pieces, h0, hm]

/-- A read of one part joins the queue of its controller. -/
def readQueued (s : State) (w : Asker) (va len loc : Nat) (d : Option Nat) : State :=
  ({ s with nextId := s.nextId + 1 } : State).modPch (pchOf loc) fun p => { p with reqs := p.reqs ++
    [⟨s.nextId, loc, len, none, d, s.cycle, (w.func, w.node), w.src, va, none, []⟩] }

/-- The state once a read of one line has gone to its controller (22 R398). -/
def readSent (s : State) (w : Asker) (va len loc : Nat) (d : Option Nat) : State :=
  countLines (readQueued s w va len loc d) w.func va len false

@[simp] theorem setChain_answers (s : State) (c : ChanId) (x : Chain) : (setChain s c x).answers = s.answers := rfl
@[simp] theorem setChain_teams (s : State) (c : ChanId) (x : Chain) : (setChain s c x).teams = s.teams := rfl
@[simp] theorem readSent_answers (s : State) (w : Asker) (va len loc : Nat) (d : Option Nat) :
    (readSent s w va len loc d).answers = s.answers := countLines_answers ..
@[simp] theorem readSent_teams (s : State) (w : Asker) (va len loc : Nat) (d : Option Nat) :
    (readSent s w va len loc d).teams = s.teams := countLines_teams ..

theorem readSent_setChain (s : State) (c : ChanId) (x : Chain) (w : Asker) (va len loc : Nat) (d : Option Nat) :
    readSent (setChain s c x) w va len loc d = setChain (readSent s w va len loc d) c x :=
  countLines_setChain (readQueued s w va len loc d) c x ..

/-- A read that lies in one line of this module's DRAM is one request. -/
theorem sendRanges_of_line {s : State} {w : Asker} {va len loc : Nat} {d : Option Nat} (h0 : len ≠ 0) (h : va % 64 + len ≤ 64)
    (ht : translate s w.func va .read = .dram loc d) :
    sendRanges s w none [⟨va, len, none⟩] = .ok (readSent s w va len loc d, [s.nextId]) := by
  have hp : pieces 128 (len / 128 + 2) va len = [(va, len)] := pieces_of_inside h0 (by omega) _
  simp [sendRanges, VRange.cut, hp, VRange.acc, ht, Xl.isPlace, sendHow, joinLines, sendLine, UnitLine.count, UnitLine.own,
    readSent, readQueued]

/-- A bulk copy in that works through no window. -/
structure Rec.BulkIn (r : Rec) : Prop where
  kind : r.kind = 0
  out : r.out = false
  slot : r.slot = none

section
variable {s : State} {c : ChanId} {x : Chain} {tm : Team} {r : Rec} {rest : List Rec} {id : TeamId} {u loc : Nat}
  {d : Option Nat}

theorem byElem_of_bulkIn (hp : r.BulkIn) : r.byElem = false := by simp [Rec.byElem, hp.slot]
theorem unitReads_of_bulkIn (hp : r.BulkIn) : r.unitReads s id tm u = [] := by simp [Rec.unitReads, hp.out, hp.kind]
theorem readsHeld_of_bulkIn (hp : r.BulkIn) : r.readsHeld s id tm u = false := by
  simp [Rec.readsHeld, unitReads_of_bulkIn hp]
theorem reduceWaits_of_bulkIn (hp : r.BulkIn) : r.reduceWaits s u = false := by simp [Rec.reduceWaits, hp.kind]
theorem laterHits_of_bulkIn (hp : r.BulkIn) : r.laterHits u = [] := by simp [Rec.laterHits, hp.out]
theorem rop_of_bulkIn (hp : r.BulkIn) : r.rop = none := by simp [Rec.rop, hp.kind]
theorem indexFault_of_bulkIn (hp : r.BulkIn) : r.indexFault s id tm u = none := by
  simp [Rec.indexFault, Rec.unitElements, byElem_of_bulkIn hp, hp.slot]
theorem unitRanges_of_bulkIn (hp : r.BulkIn) : r.unitRanges s id tm u = [⟨r.unitVa u, (r.span u).len, none⟩] := by
  simp [Rec.unitRanges, Rec.unitScales, hp.kind, hp.out]

/-- No translation depends on what a channel runs. -/
theorem translate_setChain (s : State) (c : ChanId) (x : Chain) (fn va : Nat) (acc : Acc) :
    translate (setChain s c x) fn va acc = translate s fn va acc := rfl

/-- An attempt to issue a unit of a bulk copy in sends its read. -/
theorem tryUnit_of_bulkIn (hp : r.BulkIn) (ht : translate s tm.func (r.unitVa u) .read = .dram loc d)
    (h0 : (r.span u).len ≠ 0) (h : r.unitVa u % 64 + (r.span u).len ≤ 64) (n : Nat) :
    tryUnit s c x n r tm u = .ok (modRec (readSent s (chanAsker c tm) (r.unitVa u) (r.span u).len loc d) c n
      fun r => { r with reqs := aset u [s.nextId] r.reqs }) := by
  have hs : sendRanges s (chanAsker c tm) none [⟨r.unitVa u, (r.span u).len, none⟩] = _ := sendRanges_of_line h0 h ht
  simp [tryUnit, readsHeld_of_bulkIn hp, unitReads_of_bulkIn hp, reduceWaits_of_bulkIn hp, laterHits_of_bulkIn hp,
    rop_of_bulkIn hp, unitRanges_of_bulkIn hp, hs]

/-- A unit of a bulk copy in that is issued, or replayed, sends its read and waits no more. -/
theorem performUnit_of_bulkIn (hr : (s.chan c).run = some (.chain x)) (hx : x.recs = r :: rest) (hp : r.BulkIn)
    (ht : translate s tm.func (r.unitVa u) .read = .dram loc d) (h0 : (r.span u).len ≠ 0)
    (h : r.unitVa u % 64 + (r.span u).len ≤ 64) (first : Bool) :
    performUnit s c x 0 r tm u first = setChain (readSent s (chanAsker c tm) (r.unitVa u) (r.span u).len loc d) c { x with
      recs := { r with
        issued := if first then u + 1 else r.issued, reqs := aset u [s.nextId] r.reqs,
        waiting := r.waiting.filter (· ≠ u), asked := adel u r.asked } :: rest } := by
  have hs0 : (if first then modRec s c 0 fun r => { r with issued := u + 1 } else s) =
      setChain s c { x with recs := { r with issued := if first then u + 1 else r.issued } :: rest } := by
    cases first
    · simp [← hx, setChain_of_run hr]
    · simp [modRec_of_run hr, hx, modAt]
  simp only [performUnit, hs0, indexFault_of_bulkIn hp]
  rw [tryUnit_of_bulkIn hp ((translate_setChain ..).trans ht) h0 h]
  simp only [readSent_setChain, modRec_setChain, modAt]
  rfl

/-- A unit that has been issued settles, unless it has, or waits. -/
theorem copyUnitSettle_of_issued {t : State} {more : Nat} (hi : issueMore c 0 more s = t) (hr : (t.chan c).run = some (.chain x))
    (hx : x.recs = r :: rest) (htm : aget x.team t.teams = some tm) : exec (.copyUnitSettle c 0 u more) s =
      .next (if u < r.issued && !bit r.mask u && !r.waiting.contains u then settleNow t c x 0 r tm u else t) := by
  refine (?_ : execCopyUnitSettle c 0 u more s = _)
  simp only [execCopyUnitSettle, hi, chain_of_run hr, hx, htm, List.getElem?_cons_zero]
  split <;> rfl

/-- A unit whose replies have not all come does not settle. -/
theorem settleNow_of_pending {n : Nat} (h : (aget u r.reqs).bind (repliesOf s) = none) : settleNow s c x n r tm u = s := by
  simp only [settleNow, h]

/-- The next unit of the first record is issued; it is on its way then. -/
theorem copyUnitSettle_of_next (hr : (s.chan c).run = some (.chain x)) (hx : x.recs = r :: rest)
    (htm : aget x.team s.teams = some tm) (hp : r.BulkIn)
    (ht : translate s tm.func (r.unitVa r.issued) .read = .dram loc d) (h0 : (r.span r.issued).len ≠ 0)
    (h : r.unitVa r.issued % 64 + (r.span r.issued).len ≤ 64) (hm : mayIssue s x 0 r = true)
    (ha : aget s.nextId s.answers = none) :
    exec (.copyUnitSettle c 0 r.issued 1) s = .next (performUnit s c x 0 r tm r.issued true) := by
  have hi : issueMore c 0 1 s = performUnit s c x 0 r tm r.issued true := by
    simp [issueMore, chain_of_run hr, hx, htm, hm]
  rw [performUnit_of_bulkIn hr hx hp ht h0 h] at hi ⊢
  refine (copyUnitSettle_of_issued hi run_setChain rfl (by simpa using htm)).trans (congrArg Host.Outcome.next ?_)
  rw [settleNow_of_pending (by simp [repliesOf, ha]), ite_self]

/-- The only unit of the first record that waits is replayed. -/
theorem copyUnitReplay_of_one (hr : (s.chan c).run = some (.chain x)) (hx : x.recs = r :: rest)
    (htm : aget x.team s.teams = some tm) (hp : r.BulkIn) (hw : r.waiting = [u]) :
    exec (.copyUnitReplay c 0) s = .next (performUnit s c x 0 r tm u false) := by
  refine (?_ : execCopyUnitReplay c 0 s = _)
  simp [execCopyUnitReplay, chain_of_run hr, hx, hw, replayUnits, htm, readsHeld_of_bulkIn hp]

end

/-! ## Units that settle (09 R191) -/

section
variable {s : State} {c : ChanId} {x : Chain} {tm : Team} {r : Rec} {rest : List Rec} {u : Nat}

/-- Where no barrier is held or poisoned, a unit settles with its mask bit set, and its bytes are counted at the record's
barrier. -/
theorem settleUnit_of_sound (hr : (s.chan c).run = some (.chain x)) (hx : x.recs = r :: rest)
    (htm : aget x.team s.teams = some tm) (hh : s.holds = []) (hs : s.mem.spPoison = [])
    (hm : bit r.mask u = false) (hrel : r.rel = false) :
    let t := setChain s c { x with recs := { r with
      mask := r.mask ||| 2 ^ u, waiting := r.waiting.filter (· ≠ u), asked := adel u r.asked, reqs := adel u r.reqs } :: rest }
    settleUnit s c x 0 r u false = if r.cpl = 0 then landed t x.team r.cploff (r.span u).len else t := by
  intro t
  have hw : r.barrierWaits s x.team = false := by simp [Rec.barrierWaits, barrierHeld, heldRange_of_no_holds hh]
  have ht : (modRec s c 0 fun r => { r with
      gone := if false then r.gone ||| 2 ^ u else r.gone, mask := r.mask ||| 2 ^ u, waiting := r.waiting.filter (· ≠ u),
      asked := adel u r.asked, reqs := adel u r.reqs }) = t := by
    rw [modRec_of_run hr, hx]; rfl
  have hb : barrierPoisoned t x.team r.cploff = false :=
    (barrierPoisoned_of_team htm _).trans (spPoisoned_of_sound hs ..)
  simp only [settleUnit, hm, hw, hrel, Bool.and_false, Bool.false_eq_true, if_false] at ht ⊢
  simp only [ht]
  simp only [countLanded, landedCall, callLanded, hb, Bool.false_eq_true, if_false]

/-- A unit of a bulk copy in whose replies have come without a fault settles: its bytes are written, and counted. -/
theorem settleNow_of_replied {ids : List Nat} {as : List Answer} (hk : r.kind = 0) (ho : r.out = false) (hrel : r.rel = false)
    (hg : bit r.gone u = false) (hq : aget u r.reqs = some ids) (ha : repliesOf s ids = some as)
    (hf : as.findSome? (·.fault) = none) (hh : s.holds = []) :
    settleNow s c x 0 r tm u =
      settleUnit ((dropAnswers s ids).spWrite x.team tm (r.spBase + (r.span u).off) (as.flatMap (·.data))) c x 0 r u false := by
  simp [settleNow, hq, ha, hf, agetD, Rec.barrierWaits, barrierHeld, heldRange_of_no_holds hh, hrel, hg, ho, hk,
    settleDone, landUnit, Rec.unitSp]

end

/-! ## Reducing copies (09 R190) -/

/-- The unit of a reducing copy that waits at a controller is applied as its request is served. -/
theorem reducingElementApply_of_queued {s : State} {c : ChanId} {x : Chain} {r : Rec} {rest : List Rec} {u id p n : Nat}
    (hr : (s.chan c).run = some (.chain x)) (hx : x.recs = r :: rest) (hk : r.kind = 3) (hq : aget u r.reqs = some [id])
    (ha : aget id s.answers = none) (hf : ∀ f ∈ s.forwards, f.id ≠ id)
    (hp : s.pchs.findSome? (fun e => (e.2.reqs.findIdx? (·.id = id)).map fun n => (e.1, n)) = some (p, n)) :
    exec (.reducingElementApply c 0 u) s = exec (.ordinaryRequestServe ⟨p, n⟩) s := by
  refine (?_ : execReducingElementApply c 0 u s = execOrdinaryRequestServe ⟨p, n⟩ s)
  have hn : s.forwards.findIdx? (·.id = id) = none := by simpa using hf
  simp [execReducingElementApply, chain_of_run hr, hx, hk, hq, ha, hn, hp, execOrdinaryRequestServe]

/-- Word j of a byte string. -/
def wordAt (bs : List Byte) (j : Nat) : Word := BitVec.ofNat 32 (natOfBytes ((bs.drop (4 * j)).take 4))

/-- Of lists of n elements that follow one another, the j-th. -/
theorem take_drop_flatMap {α : Type} {n : Nat} {f : Nat → List α} (hf : ∀ j, (f j).length = n) : ∀ (k m j : Nat), j < k →
    (((List.range' m k).flatMap f).drop (n * j)).take n = f (m + j)
  | k + 1, m, 0, _ => by
    rw [List.range'_succ, List.flatMap_cons, Nat.mul_zero, List.drop_zero, List.take_left' (hf m), Nat.add_zero]
  | k + 1, m, j + 1, h => by
    have hd : n * (j + 1) = (f m).length + n * j := by rw [hf, Nat.mul_succ, Nat.add_comm]
    rw [List.range'_succ, List.flatMap_cons, hd, List.drop_length_add_append, take_drop_flatMap hf k (m + 1) j (by omega)]
    congr 1
    omega

/-- Word j of combined bytes is word j of the old ones combined with word j of the record's. -/
theorem wordAt_combineBytes (rop : Nat) {old val : List Byte} {k j : Nat} (hl : old.length = 4 * k) (hj : j < k) :
    wordAt (combineBytes rop old val) j = reduceNew rop (wordAt old j) (wordAt val j) := by
  have hb : ((combineBytes rop old val).drop (4 * j)).take 4 =
      bytesOfNat 4 (reduceNew rop (wordAt old j) (wordAt val j)).toNat := by
    have hk : old.length / 4 = k := by omega
    rw [combineBytes, hk, List.range_eq_range']
    exact (take_drop_flatMap (fun _ => bytesOfNat_length ..) k 0 j hj).trans (by rw [Nat.zero_add]; rfl)
  rw [wordAt, hb, natOfBytes_bytesOfNat_mod, Nat.mod_eq_of_lt (BitVec.isLt _), BitVec.ofNat_toNat, BitVec.setWidth_eq]

theorem combineBytes_length (rop : Nat) {old : List Byte} {k : Nat} (hl : old.length = 4 * k) (val : List Byte) :
    (combineBytes rop old val).length = 4 * k := by
  simp [combineBytes, hl, List.length_flatMap]
  omega

/-- A sum of BF16 halves is that of each half. -/
theorem half_reduceNew (o v : Word) {i : Nat} (hi : i < 2) : (reduceNew 1 o v).extractLsb' (16 * i) 16 =
    BitVec.ofNat 16 (fpAdd bf16 .rn (o.extractLsb' (16 * i) 16).toNat (v.extractLsb' (16 * i) 16).toNat) := by
  have hc : i = 0 ∨ i = 1 := by omega
  rcases hc with rfl | rfl
  · exact BitVec.extractLsb'_append_eq_right
  · exact BitVec.extractLsb'_append_eq_left

theorem toInt_reduceNew_least (o v : Word) : (reduceNew 5 o v).toInt = min o.toInt v.toInt := by
  simp only [reduceNew, BitVec.slt, decide_eq_true_eq]
  split <;> omega

theorem toInt_reduceNew_greatest (o v : Word) : (reduceNew 6 o v).toInt = max o.toInt v.toInt := by
  simp only [reduceNew, BitVec.slt, decide_eq_true_eq]
  split <;> omega

/-! ## End actions (09 R193 to R195) -/

section
variable {s : State} {c : ChanId} {x : Chain} {tm : Team} {r : Rec} {rest : List Rec}

/-- Word 0 of a record that ends complete: as it was accepted, with OWN and STATUS zero. -/
theorem word0_of_complete (h : r.status = 0) :
    r.word0 = r.field 31 22 * 2 ^ 22 + r.field 19 9 * 2 ^ 9 + r.field 7 0 := by
  have hb : (if bit (r.field 31 0) 8 then 256 else 0) = r.field 31 0 / 2 ^ 8 % 2 * 256 := by
    rw [bit, Nat.testBit_eq_decide_div_mod_eq]
    split <;> simp_all
  simp only [Rec.word0, h, hb]
  simp only [Rec.field, bits, Nat.shiftRight_eq_div_pow]
  omega

theorem status_of_complete (hb : r.bad = false) (hg : r.gone = 0) : r.status = 0 := by simp [Rec.status, hb, hg]

/-- The channel goes on behind its first record, and is free where that was the last. -/
theorem recOver_of_first (hx : x.recs = r :: rest) (t : State) : recOver t c x =
    if rest = [] ∧ (x.next = none ∨ x.stopped = true) then
      (setChain t c { x with recs := rest }).modChan c fun ch => { ch with run := none }
    else setChain t c { x with recs := rest } := by
  rw [recOver, hx]
  exact closeChain_setChain

/-- The end actions of a complete record that names no tile write its word 0; its ring entry comes next, if it has one. -/
theorem copyEndActions_of_complete (hr : (s.chan c).run = some (.chain x)) (htm : aget x.team s.teams = some tm)
    (hx : x.recs = r :: rest) (ha : r.allSettled = true) (hring : r.ring = false) (hh : s.holds = []) (hb : r.bad = false)
    (ht : r.tdst = false) (hrel : r.rel = false) (hg : r.gone = 0) :
    let t := s.spWrite x.team tm r.off (bytesOfNat 4 r.word0)
    exec (.copyEndActions c) s = .next (if r.cpl = 2 && ringOk t x.team tm r
      then setChain t c { x with recs := { r with ring := true } :: rest } else recOver t c x) := by
  intro t
  have hw : r.endWaits s x = false := by simp [Rec.endWaits, Rec.ringHeld, heldRange_of_no_holds hh, hb, hrel]
  have he : endRec s c x.team tm r = t := by simp [endRec, hb, hrel, ht, t]
  have hm : modRec t c 0 (fun r => { r with ring := true }) =
      setChain t c { x with recs := { r with ring := true } :: rest } := by
    rw [modRec_of_run (s := t) hr, hx]; rfl
  refine (?_ : execCopyEndActions c s = _)
  simp only [execCopyEndActions, chain_of_run hr, hx, htm, ha, hring, hw, he, status_of_complete hb hg, hm, Bool.not_true,
    Bool.or_self, Bool.false_eq_true, if_false, if_true]
  split <;> rfl

/-- A ring that has room receives the entry of its record, and then its TAIL. -/
theorem completionRingWrite_of_room {a : Nat} {g : Ring} (hr : (s.chan c).run = some (.chain x))
    (htm : aget x.team s.teams = some tm) (hx : x.recs = r :: rest) (hring : r.ring = true) (hg : g = ringOf s x.team tm r.cploff)
    (ha : a = g.base + 16 * (g.tail % g.n)) (hh : s.holds = []) (hs : s.mem.spPoison = []) (hn : g.n ≠ 0)
    (hf : a + 16 ≤ tm.scratch) (hroom : (g.tail + 2 ^ 32 - g.head) % 2 ^ 32 ≠ g.n) :
    exec (.completionRingWrite c) s = .next (recOver ((s.spWrite x.team tm a (bytesOfNat 16 (ringEntry c r))).spWrite x.team tm
      (r.cploff + 8) (bytesOfNat 4 ((g.tail + 1) % 2 ^ 32))) c x) := by
  refine (?_ : execCompletionRingWrite c s = _)
  simp only [execCompletionRingWrite, chain_of_run hr, hx, htm, hring, ← hg, ← ha, heldRange_of_no_holds hh,
    spPoisoned_of_sound hs, hn, Nat.not_lt.2 hf, hroom, Bool.not_true, decide_false, Bool.or_self, Bool.false_eq_true, if_false]

end

/-! ## Matrix units (10 R207, R214) -/

/-- Ownership that fell free goes to the oldest request. -/
theorem matrixOwnershipGrant_of_free {s : State} {q : QuadId} {id : TeamId} {rest : List TeamId} (ho : (s.mat q).owner = none)
    (hw : (s.mat q).wait = id :: rest) : exec (.matrixOwnershipGrant q) s = .next (grantMat s q id) := by
  refine (?_ : execMatrixOwnershipGrant q s = _)
  simp only [execMatrixOwnershipGrant, ho, hw]

/-- The unit of a team that becomes owner. -/
theorem mat_grantMat (s : State) (q : QuadId) (id : TeamId) : (grantMat s q id).mat q = { s.mat q with
    owner := some id
    wait := (s.mat q).wait.filter (· ≠ id)
    accs := match aget id s.teams with
      | some tm => agetD (tm.quads.idxOf q.quad) [] tm.accs
      | none => [] } :=
  (agetD_aset_self ..).trans rfl

/-- The oldest instruction of a unit that has met no fault is done. -/
theorem matrixInstructionDone_of_first {s : State} {q : QuadId} {j : MatJob} {rest : List MatJob}
    (hj : (s.mat q).jobs = j :: rest) (hf : j.fault = none) :
    let t := { s.modMat q fun m => { m with jobs := rest } with holds := s.holds.filter fun h => h.1 ≠ j.num }
    exec (.matrixInstructionDone q 0) s =
      .next (if j.dst.any fun d => trickTile s ⟨d.1, d.2⟩ then t else settleTile t j.dst 2) := by
  refine (?_ : execMatrixInstructionDone q 0 s = _)
  simp only [execMatrixInstructionDone, hj, hf, ne_eq, not_true_eq_false, if_false]

/-- Settles O30: the channel's steps by `acceptNext_of_free`, `startRec_of_plain` or `startRec_of_bad`, `performUnit_of_bulkIn`,
`settleUnit_of_sound`, `copyEndActions_of_complete` and `completionRingWrite_of_room`; combined elements word by word
(`wordAt_combineBytes`); matrix units by `mat_grantMat` and `matrixInstructionDone_of_first`. -/
theorem copyEngine : Obligations.CopyEngine := by
  refine ⟨?accept, ?start, ?malformed, ?issue, ?settle, ?reduce, ?combine, ?finish, ?grant, ?done⟩
  case accept =>
    intro s c x q hr hb hq hx hm
    exact congrArg Host.Outcome.next (acceptNext_of_free hr hb hq hx hm)
  case start =>
    intro s c x tm off w rest hr htm hm hx hk ht hl hw hf hn
    have hp : (Rec.read off w).Plain := ⟨hk, ht, hl, rfl⟩
    rw [copyRecordStart_of_first hr htm hm hx rfl,
      startRec_of_plain rfl (fillRec_of_plain hp hw rfl rfl rfl rfl) ⟨hk, ht, hl, rfl⟩ hf (pieceCount_le hn _),
      modRec_of_run hr, hx]
    rfl
  case malformed =>
    intro s c x tm r rest hr htm hm hx hs hb hf
    rw [copyRecordStart_of_first hr htm hm hx hs, startRec_of_bad hr hx hb hf]
    rfl
  case issue =>
    intro s c x tm r rest loc d hr htm hx hk ho hl ht h0 h len sent sets
    have hp : r.BulkIn := ⟨hk, ho, hl⟩
    refine ⟨fun hm hw _ ha => ?_, fun hw => ?_⟩
    · rw [copyUnitSettle_of_next hr hx htm hp ht h0 h hm ha, performUnit_of_bulkIn hr hx hp ht h0 h, hw]
      rfl
    · rw [copyUnitReplay_of_one hr hx htm hp hw, performUnit_of_bulkIn hr hx hp ht h0 h, hw,
        List.filter_cons_of_neg (by simp)]
      rfl
  case settle =>
    intro s c x tm r rest u ids as hr htm hx hk ho hrel hu hm hg hw hq ha hf hh hs r1 done
    refine (copyUnitSettle_of_issued (t := s) rfl hr hx htm).trans (congrArg Host.Outcome.next ?_)
    have hgo : (decide (u < r.issued) && !bit r.mask u && !r.waiting.contains u) = true := by simp [hu, hm, hw]
    rw [if_pos hgo, settleNow_of_replied hk ho hrel hg hq ha hf hh,
      settleUnit_of_sound (s := (dropAnswers s ids).spWrite ..) hr hx htm hh
        (spWrite_poison (s := dropAnswers s ids) hs ..) hm hrel]
  case reduce =>
    intro s c x r rest u id p n hr hx hk hq ha hf hp
    exact reducingElementApply_of_queued hr hx hk hq ha hf hp
  case combine =>
    intro rop old val k ho hv new word
    refine ⟨combineBytes_length rop ho val, fun j hj => ?_⟩
    have hw : word new j = reduceNew rop (word old j) (word val j) := wordAt_combineBytes rop ho hj
    simp only [hw]
    refine ⟨?_, ?_, ?_, ?_, ?_, ?_, ?_⟩
    · rintro rfl; rfl
    · rintro rfl i hi; exact half_reduceNew _ _ hi
    · rintro rfl; rfl
    · rintro rfl; rfl
    · rintro rfl; rfl
    · rintro rfl; exact toInt_reduceNew_least ..
    · rintro rfl; exact toInt_reduceNew_greatest ..
  case finish =>
    intro s c x tm r rest hr htm hx left ends
    have hends : ∀ t, recOver t c x = ends t := recOver_of_first hx
    refine ⟨?_, ?_⟩
    · intro ha hring hh hb ht hrel hg done
      have he := copyEndActions_of_complete hr htm hx ha hring hh hb ht hrel hg
      rw [word0_of_complete (status_of_complete hb hg)] at he
      refine ⟨fun hc => he.trans ?_, fun hc ho => he.trans ?_⟩
      · rw [if_neg (by simp [hc]), hends]
      · have hd : (decide (r.cpl = 2) && ringOk done x.team tm r) = true := by simp [hc, ho]
        rw [if_pos hd]
    · intro hring g a hh hs hn hf hroom
      exact (completionRingWrite_of_room hr htm hx hring rfl rfl hh hs hn hf hroom).trans (congrArg Host.Outcome.next (hends _))
  case grant =>
    intro s q id rest ho hw
    refine ⟨_, matrixOwnershipGrant_of_free ho hw, rfl, rfl, ?_⟩
    rw [mat_grantMat, hw]
    exact ⟨rfl, by simp, rfl, rfl⟩
  case done =>
    intro s q j rest hj hf s1
    refine (matrixInstructionDone_of_first hj hf).trans (congrArg Host.Outcome.next ?_)
    cases j.dst <;> simp [settleTile, s1]

end Sys2Proof.Machine

/-! SUPPORT. Matrix instructions (10 R207, R213, R214): when nothing holds one up, and what its issue makes of the state. -/

namespace Sys2Proof.Machine

/-! ## Units and accumulators (10 R206) -/

@[simp] theorem mat_modMat_self (s : State) (q : QuadId) (f : Mat → Mat) : (s.modMat q f).mat q = f (s.mat q) :=
  agetD_aset_self ..

theorem mat_modMat_ne (s : State) {p q : QuadId} (f : Mat → Mat) (h : p ≠ q) : (s.modMat q f).mat p = s.mat p :=
  agetD_aset_ne _ _ h _

@[simp] theorem accOf_setAcc_self (s : State) (q : QuadId) (n : Nat) (a : AccTile) : accOf (setAcc s q n a) q n = a := by
  simp only [accOf, setAcc, mat_modMat_self, agetD_aset_self]

theorem accOf_setAcc_ne (s : State) (q : QuadId) {k n : Nat} (a : AccTile) (h : k ≠ n) :
    accOf (setAcc s q n a) q k = accOf s q k := by
  simp only [accOf, setAcc, mat_modMat_self, agetD_aset_ne _ _ h]

/-- A list of the elements that are not zero reads as all of them. -/
theorem agetD_filterMap_nonzero (f : Nat → BitVec 36) (k : Nat) : ∀ ns : List Nat,
    agetD k 0 (ns.filterMap fun n => let v := f n; if v = 0 then none else some (n, v)) = if k ∈ ns then f k else 0
  | [] => rfl
  | n :: ns => by
    have ih := agetD_filterMap_nonzero f k ns
    by_cases hz : f n = 0
    · rw [List.filterMap_cons_none (by simp [hz]), ih]
      by_cases hk : k = n
      · simp [hk, hz]
      · simp [hk]
    · rw [List.filterMap_cons_some (b := (n, f n)) (by simpa using hz)]
      by_cases hk : n = k
      · simp [agetD, aget, hk]
      · simpa [agetD, aget, hk, Ne.symm hk] using ih

theorem AccTile.get_build (tag : Nat) (f : Nat → Nat → BitVec 36) {i j : Nat} (hi : i < 64) (hj : j < 64) :
    (AccTile.build tag f).get i j = f i j := by
  have hrow : (64 * i + j) / 64 = i := by omega
  have hcol : (64 * i + j) % 64 = j := by omega
  have hin : 64 * i + j ∈ List.range 4096 := List.mem_range.2 (by omega)
  rw [AccTile.get, AccTile.build, agetD_filterMap_nonzero fun n => f (n / 64) (n % 64), if_pos hin, hrow, hcol]

/-- The bytes of an accumulator are its elements', row by row. -/
theorem AccTile.raw_eq (a : AccTile) :
    a.raw = (List.range 4096).flatMap fun e => bytesOfNat 8 (a.get (e / 64) (e % 64)).toNat := by
  simp only [AccTile.raw, AccTile.get, Nat.div_add_mod]

/-! ## Ownership and order (10 R207, R215) -/

theorem claimMat_of_owner {s : State} {q : QuadId} {id : TeamId} (h : (s.mat q).owner = some id) : claimMat s q id = (s, true) := by
  simp [claimMat, h]

theorem enterTrick_of_plain (s : State) (k : ThreadKey) {tm : Team} (q : QuadId) (h : tm.detMode = false) :
    enterTrick s k tm q = some s := by
  simp [enterTrick, h]

/-! ## Issue (10 R213, R214) -/

theorem bits_lt (n hi lo : Nat) : bits n hi lo < 2 ^ (hi + 1 - lo) := Nat.mod_lt _ (Nat.two_pow_pos _)

/-- A tile that is given a state has it. -/
theorem tile_setTileState_self (s : State) (r : TileRef) {st : Nat} (h : st < 4) :
    (r.tile (setTileState s (coreOf r.team) r.entry st)).state = st := by
  have hword : tileWord (setTileState s (coreOf r.team) r.entry st) (coreOf r.team) r.entry =
      Tile.toWord { tileAt s (coreOf r.team) r.entry with state := st } := by
    simp only [tileWord, setTileState, setTile, setTileWord, State.core, State.modCore, agetD_aset_self]
  rw [TileRef.tile, tileAt, hword]
  exact congrArg Tile.state (Tile.ofWord_toWord _ (bits_lt ..) (bits_lt ..) (bits_lt ..) (bits_lt ..) (bits_lt ..) (bits_lt ..)
    (bits_lt ..) h)

/-- An instruction that has issued soundly and whose effect is still to come: its unit has the job, its holds have begun, and a
tile that it writes whole is FILLING. -/
def withJob (s : State) (k : ThreadKey) (q : QuadId) (dst : Option MOp) (rs : List MRange) : State :=
  let dst := dst.map fun o => (o.ref.team, o.ref.entry)
  let s1 := { s with
    nextId := s.nextId + 1
    holds := s.holds ++ rs.map fun (r : MRange) => (s.nextId, (⟨r.team, r.lo, r.len, r.dst, r.tile⟩ : Hold)) }
  let job : MatJob := ⟨s.nextId, k, pcOf s k, none, dst⟩
  settleTile (s1.modMat q fun x => { x with jobs := x.jobs ++ [job] }) dst 1

theorem withJob_mem (s : State) (k : ThreadKey) (q : QuadId) (dst : Option MOp) (rs : List MRange) :
    (withJob s k q dst rs).mem = s.mem := by
  simp only [withJob, settleTile_mem, State.modMat_mem]

theorem matrixIssued_withJob (s : State) (h : HandKey) (l : Nat) (q : QuadId) (dst : Option MOp) (rs : List MRange) :
    MatrixIssued s (withJob s (threadOf h l) q dst rs) h l q dst none := by
  have hmats : (withJob s (threadOf h l) q dst rs).mats = aset q { s.mat q with jobs := (s.mat q).jobs ++
      [⟨s.nextId, threadOf h l, pcOf s (threadOf h l), none, dst.map fun o => (o.ref.team, o.ref.entry)⟩] } s.mats := by
    cases dst <;> rfl
  have hmat : (withJob s (threadOf h l) q dst rs).mat q = _ := (congrArg (agetD q Mat.reset) hmats).trans (agetD_aset_self ..)
  constructor
  case job => rw [hmat]
  case owner => rw [hmat]
  case accs => intro k _; rw [accOf, hmat, accOf]
  case others => intro p hp; exact (congrArg (agetD p Mat.reset) hmats).trans (agetD_aset_ne _ _ hp _)
  case rest => cases dst <;> rfl
  case tiles =>
    refine ⟨?_, ?_⟩
    · rintro o rfl
      exact tile_setTileState_self _ o.ref (by decide)
    · rintro rfl
      rfl

/-- The effect on an accumulator leaves the others, and the rest of the issue, alone. -/
theorem MatrixIssued.setAcc {s t : State} {h : HandKey} {l : Nat} {q : QuadId} {dst : Option MOp}
    (hi : MatrixIssued s t h l q dst none) (n : Nat) (a : AccTile) : MatrixIssued s (setAcc t q n a) h l q dst (some n) := by
  obtain ⟨hjob, howner, haccs, hothers, hrest, htiles⟩ := hi
  have hmat : (Machine.setAcc t q n a).mat q = { t.mat q with accs := aset n a (t.mat q).accs } := mat_modMat_self ..
  constructor
  case job => rw [hmat, ← hjob]
  case owner => rw [hmat, ← howner]
  case accs =>
    intro k hk
    rw [accOf_setAcc_ne _ _ _ fun e => hk (congrArg some e)]
    exact haccs k nofun
  case others => intro p hp; rw [← hothers p hp]; exact mat_modMat_ne _ _ hp
  case rest => exact (congrArg (fun u => Machine.setAcc u q n a) hrest).trans rfl
  case tiles => exact htiles

/-- The effect on the memories leaves the issue alone. -/
theorem MatrixIssued.withMem {s t : State} {h : HandKey} {l : Nat} {q : QuadId} {dst : Option MOp} {n : Option Nat}
    (hi : MatrixIssued s t h l q dst n) (m : Memory) : MatrixIssued s { t with mem := m } h l q dst n := by
  obtain ⟨hjob, howner, haccs, hothers, hrest, htiles⟩ := hi
  constructor
  case job => exact hjob
  case owner => exact howner
  case accs => exact haccs
  case others => exact hothers
  case rest => rw [hrest]
  case tiles => exact htiles

theorem modTeam_of_same {s : State} (k : TeamId) {f : Team → Team} (h : ∀ t, f t = t) : s.modTeam k f = s := by
  have hid : ∀ ts : List (TeamId × Team), amod k f ts = ts := by
    intro ts
    induction ts with
    | nil => rfl
    | cons e ts ih => simp [amod, h, ih]
  rw [State.modTeam, hid]

/-- The description of an instruction whose checks have passed. -/
def MSpec.sound (reads : List MOp) (inPlace whole : Option MOp) (bounds : List MOp) (rs : List MRange) (eff : State → State) : MSpec :=
  ⟨reads, inPlace, whole, false, bounds, none, rs, none, eff⟩

/-- Outside deterministic mode an instruction whose checks have passed takes effect on the state that has its job. -/
theorem issueJob_of_plain (s : State) (k : ThreadKey) (q : QuadId) {tm : Team} {reads bounds : List MOp}
    {inPlace whole : Option MOp} {rs : List MRange} {eff : State → State} (hd : tm.detMode = false) :
    issueJob s k q tm (.sound reads inPlace whole bounds rs eff) = eff (withJob s k q whole rs) := by
  simp only [issueJob, MSpec.sound, hd, Bool.false_and, Bool.false_eq_true, if_false, if_true, List.map_nil, List.append_nil,
    Option.isSome_none]
  rw [modTeam_of_same _ fun _ => rfl]
  cases whole <;> rfl

/-- The tiles that an instruction names neither keep it waiting nor stop it: those that it reads are READY, one that it writes
whole is EMPTY, and all lie within their scratchpads. -/
structure TilesMeet (s : State) (reads : List MOp) (inPlace whole : Option MOp) (bounds : List MOp) : Prop where
  reads : ∀ o ∈ reads, (o.ref.tile s).state = 2
  inPlace : ∀ o ∈ inPlace, (o.ref.tile s).state = 2
  whole : ∀ o ∈ whole, (o.ref.tile s).state = 0
  bounds : ∀ o ∈ bounds, o.outside 0 = false

theorem meetReader_of_ready {s : State} {r : TileRef} (id : TeamId) (h : (r.tile s).state = 2) : meetReader s id r = .go := by
  simp [meetReader, h]

theorem meetWriter_of_empty {s : State} {r : TileRef} (h : (r.tile s).state = 0) : meetWriter s r = .go := by
  simp [meetWriter, h]

theorem firstMeet_of_meet {s : State} {reads bounds : List MOp} {inPlace whole : Option MOp} {rs : List MRange}
    {eff : State → State} (id : TeamId) (h : TilesMeet s reads inPlace whole bounds) :
    firstMeet s id (.sound reads inPlace whole bounds rs eff) = none := by
  refine List.find?_eq_none.2 fun e he => ?_
  have hgo : e.2 = .go := by
    rcases List.mem_append.1 he with hr | hw
    · obtain ⟨o, ho, rfl⟩ := List.mem_map.1 hr
      refine meetReader_of_ready id ?_
      rcases List.mem_append.1 ho with ho | ho
      · exact h.reads o ho
      · exact h.inPlace o (Option.mem_toList.1 ho)
    · obtain ⟨o, ho, rfl⟩ := List.mem_map.1 hw
      exact meetWriter_of_empty (h.whole o (Option.mem_toList.1 ho))
  simp [hgo]

theorem rangesBusy_of_idle {s : State} {h : HandKey} {hd : Hand} (hf : s.holds = []) (hh : aget h s.hands = some hd)
    (hq : hd.storeQ = []) (rs : List MRange) : rangesBusy s h rs = false := by
  simp [rangesBusy, heldRange_of_no_holds hf, hh, writePending, hq]

section
variable {s : State} {sh : Shape} {h : HandKey} {tm : Team} {ls : List Nat} {l : Nat} {v : Vals} {q : QuadId}
  {reads bounds : List MOp} {inPlace whole : Option MOp} {rs : List MRange} {eff : State → State}

/-- The common course of an instruction that nothing holds up: it issues, and takes effect. -/
theorem matrixOp_of_sound {f : State → QuadId → Option MSpec} (hr : MatrixReady s sh h tm ls l v q)
    (hf : f s q = some (.sound reads inPlace whole bounds rs eff)) (hm : TilesMeet s reads inPlace whole bounds) :
    matrixOp s (threadOf h l) tm f = .done (eff (withJob s (threadOf h l) q whole rs)) := by
  obtain ⟨hd, hh, hq⟩ := hr.idle
  have howner : (s.mat q).owner = some (threadOf h l).team := hr.owner
  have hbounds : bounds.find? (·.outside 0) = none := List.find?_eq_none.2 fun o ho => by simp [hm.bounds o ho]
  have hbusy := rangesBusy_of_idle hr.free hh hq rs
  simp only [matrixOp, ← hr.quad, enterTrick_of_plain s _ q hr.plain, claimMat_of_owner howner, hf, firstMeet_of_meet _ hm]
  simp only [issueJob_of_plain s _ q hr.plain]
  simp only [MSpec.sound, hbounds, handOf_threadOf, hbusy, Bool.false_eq_true, if_false]

/-- An instruction of a bundle that nothing holds up. -/
theorem runMatrix_of_sound {g : Guard} {a c : Opnd} {f : ThreadKey → Team → Vals → State → QuadId → Option MSpec}
    (hr : MatrixReady s ⟨g, a, noOp, c, []⟩ h tm ls l v q)
    (hf : f (threadOf h l) tm v s q = some (.sound reads inPlace whole bounds rs eff)) (hm : TilesMeet s reads inPlace whole bounds) :
    runMatrix s g a c f = allGoOn (eff (withJob s (threadOf h l) q whole rs)) h ls l :=
  runBundle_team_done hr.leads (matrixOp_of_sound hr hf hm)

end

/-- Tiles that may be read give no fault after issue. -/
theorem lateOf_of_mayRead {s : State} {os : List MOp} (h : ∀ o ∈ os, MayRead s o) : lateOf s os = none := by
  refine List.findSome?_eq_none_iff.2 fun o ho => ?_
  obtain ⟨_, _, _, hlate⟩ := h o ho
  exact hlate

/-- Tiles that may be read meet an instruction that reads them and writes none. -/
theorem tilesMeet_of_mayRead {s : State} {os : List MOp} (h : ∀ o ∈ os, MayRead s o) : TilesMeet s os none none os where
  reads o ho := by
    obtain ⟨hready, _⟩ := h o ho
    exact hready
  inPlace o ho := absurd ho (Option.not_mem_none o)
  whole o ho := absurd ho (Option.not_mem_none o)
  bounds o ho := by
    obtain ⟨_, _, hin, _⟩ := h o ho
    exact hin

theorem tilesMeet_nil (s : State) : TilesMeet s [] none none [] :=
  tilesMeet_of_mayRead fun _ ho => absurd ho List.not_mem_nil

end Sys2Proof.Machine

/-! SUPPORT. Accumulators (10 R206, R217, R218, R221, R222, R224): what MMAs and loads make of one, and what ACGET reads of it. -/

namespace Sys2Proof.Machine

/-! ## Instructions that change an accumulator (10 R218, R221, R222) -/

section
variable {s : State} {h : HandKey} {ls : List Nat} {l : Nat} {q : QuadId} {rs : List MRange} {i : Instr} {n : Nat}

/-- What an instruction leaves that has issued and whose effect is on accumulator n. -/
theorem accIssued_of_exec {a : AccTile}
    (he : exec i s = .next (allGoOn (setAcc (withJob s (threadOf h l) q none rs) q n a) h ls l)) :
    ∃ t, exec i s = .next (allGoOn t h ls l) ∧ MatrixIssued s t h l q none (some n) ∧ t.mem = s.mem ∧ accOf t q n = a :=
  ⟨_, he, (matrixIssued_withJob ..).setAcc .., withJob_mem .., accOf_setAcc_self ..⟩

/-- The same, where the accumulator has been loaded with a tag and elements. -/
theorem accLoaded_of_exec {a : AccTile} {tag : Nat} {e : Nat → Nat → BitVec 36}
    (he : exec i s = .next (allGoOn (setAcc (withJob s (threadOf h l) q none rs) q n a) h ls l)) (htag : a.tag = tag)
    (hget : ∀ r c, r < 64 → c < 64 → a.get r c = e r c) :
    ∃ t, exec i s = .next (allGoOn t h ls l) ∧ MatrixIssued s t h l q none (some n) ∧ t.mem = s.mem ∧ (accOf t q n).tag = tag ∧
      ∀ r c, r < 64 → c < 64 → (accOf t q n).get r c = e r c := by
  obtain ⟨t, het, hissued, hmem, hacc⟩ := accIssued_of_exec he
  exact ⟨t, het, hissued, hmem, hacc ▸ htag, hacc ▸ hget⟩

end

/-- A choice between the elements outside a matrix and those inside. -/
theorem ite_outside {α : Type} (rows cols r c : Nat) (x y : α) :
    (if rows ≤ r || cols ≤ c then x else y) = if r < rows ∧ c < cols then y else x := by
  by_cases hin : r < rows ∧ c < cols
  · simp [hin]
  · have hout : rows ≤ r ∨ cols ≤ c := by omega
    simp [hin, hout]

/-! ## MMA (10 R217, R218) -/

/-- Up to 32 products are one group. -/
theorem mmaInt_of_one_group (a b : Nat → Nat → Int) {K : Nat} (i j : Nat) (old : BitVec 36) (h0 : 0 < K) (h : K ≤ 32) :
    mmaInt a b K i j old = sat36 (old.toInt + ((List.range K).map fun k => a i k * b k j).sum) := by
  have hgroups : (K + 31) / 32 = 1 := by omega
  have hks : groupKs 0 K = List.range K := by simp [groupKs, h]
  simp [mmaInt, hgroups, hks]

/-- An element of the accumulator after an MMA. -/
theorem get_mmaAcc (s : State) (a b : MOp) (old : AccTile) {r c : Nat} (hr : r < 64) (hc : c < 64) :
    (mmaAcc s a b old).get r c =
      if r < a.rows ∧ c < b.cols then
        if a.isInt = true ∧ b.isInt = true then mmaInt (a.int s) (b.int s) a.cols r c (old.get r c)
        else mmaFloat (a.elem s) (b.elem s) a.cols r c (old.get r c)
      else old.get r c := by
  rw [mmaAcc, AccTile.get_build _ _ hr hc, ite_outside]
  simp only [Bool.and_eq_true]

theorem tag_mmaAcc (s : State) (a b : MOp) (old : AccTile) :
    (mmaAcc s a b old).tag = if a.isInt = true ∧ b.isInt = true then 2 else 1 := by
  simp [mmaAcc, AccTile.build]

/-- Operands of a form's layouts, of shapes that meet and of formats, and an accumulator without the other type's tag pass the
checks (10 R208, R217). -/
theorem mmaShape_of_fit {f : MmaForm} {a b : MOp} {tag : Nat} (hk : b.rows = a.cols) (ha : a.tile.layout = f.layouts.1)
    (hb : b.tile.layout = f.layouts.2) (hfa : a.noFormat = false) (hfb : b.noFormat = false)
    (hs : a.scaled = true ∨ b.scaled = true → a.cols % 32 = 0) (hi : a.isInt = true ∧ b.isInt = true → tag ≠ 1)
    (hf : ¬ (a.isInt = true ∧ b.isInt = true) → tag ≠ 2) : mmaShape f a b tag = false := by
  have hblocks : ((a.scaled || b.scaled) && decide (a.cols % 32 ≠ 0)) = false := by
    by_cases h : a.scaled = true ∨ b.scaled = true
    · simp [hs h]
    · simp_all
  by_cases h : a.isInt = true ∧ b.isInt = true
  · simp only [mmaShape, hk, ha, hb, hfa, hfb, hblocks, h, hi h, Bool.and_self, ne_eq, not_true_eq_false, decide_false,
      Bool.or_self, if_true]
  · simp only [mmaShape, hk, ha, hb, hfa, hfb, hblocks, Bool.and_eq_true, h, hf h, ne_eq, not_true_eq_false, decide_false,
      Bool.or_self, if_false]

/-- An MMA of any form that nothing holds up. -/
theorem runMatrix_mma {f : MmaForm} {g : Guard} {n : Nat} {na nb : TileName} {s : State} {h : HandKey} {tm : Team} {ls : List Nat}
    {l : Nat} {v : Vals} {q : QuadId} {a b : MOp} (hr : MatrixReady s (bare g) h tm ls l v q) (ha : mop s h.team tm na = some a)
    (hb : mop s h.team tm nb = some b) (hra : MayRead s a) (hrb : MayRead s b)
    (hshape : mmaShape f a b (accOf s q n).tag = false) :
    runMatrix s g noOp noOp (mmaSpec f n na nb) = allGoOn (setAcc (withJob s (threadOf h l) q none
      (a.ranges s false ++ b.ranges s false)) q n (mmaAcc s a b (accOf s q n))) h ls l := by
  have hread : ∀ o ∈ [a, b], MayRead s o := by simp [hra, hrb]
  have hspec : mmaSpec f n na nb (threadOf h l) tm v s q = some (.sound [a, b] none none [a, b]
      (a.ranges s false ++ b.ranges s false) fun s' => setAcc s' q n (mmaAcc s a b (accOf s q n))) := by
    simp only [mmaSpec, threadOf_team, ha, hb, hshape, lateOf_of_mayRead hread, MSpec.sound]
  exact (runMatrix_of_sound hr hspec (tilesMeet_of_mayRead hread) :)

/-- Settles O31: every form is `mmaSpec` of its layouts and performs by `runMatrix_mma`; the elements by `get_mmaAcc`. -/
theorem matrixProducts : Obligations.MatrixProducts := by
  intro i g d na nb la lb hform s h tm ls l v q a b hr ha hb hra hrb hk hla hlb hfa hfb hs int old hi hf
  obtain ⟨f, rfl, rfl, he⟩ : ∃ f : MmaForm, f.layouts.1 = la ∧ f.layouts.2 = lb ∧
      exec i s = .next (runMatrix s g noOp noOp (mmaSpec f d.toNat na nb)) := by
    rcases hform with ⟨rfl, rfl, rfl⟩ | ⟨rfl, rfl, rfl⟩ | ⟨rfl, rfl, rfl⟩ | ⟨rfl, rfl, rfl⟩ | ⟨rfl, rfl, rfl⟩
    · exact ⟨.ip, rfl, rfl, rfl⟩
    · exact ⟨.op, rfl, rfl, rfl⟩
    · exact ⟨.rw, rfl, rfl, rfl⟩
    · exact ⟨.opSk, rfl, rfl, rfl⟩
    · exact ⟨.rwSp, rfl, rfl, rfl⟩
  rw [runMatrix_mma hr ha hb hra hrb (mmaShape_of_fit hk hla hlb hfa hfb hs hi hf)] at he
  obtain ⟨t, het, hissued, hmem, hacc⟩ := accIssued_of_exec he
  refine ⟨t, het, hissued, hmem, ?_⟩
  rw [hacc]
  refine ⟨tag_mmaAcc .., fun r c hr64 hc64 => ?_⟩
  rw [get_mmaAcc s a b _ hr64 hc64]
  refine ⟨fun hout => if_neg hout, fun hrow hcol => ?_⟩
  rw [if_pos ⟨hrow, hcol⟩]
  refine ⟨fun hint h32 => ?_, fun hint => if_pos hint, fun hfloat => if_neg hfloat⟩
  exact (if_pos hint).trans (mmaInt_of_one_group _ _ _ _ _ (Nat.succ_pos _) h32)

/-! ## ACZERO, ACLOAD and ACLOAD.RAW (10 R221, R222) -/

section
variable {g : Guard} {d : BitVec 2} {s : State} {h : HandKey} {tm : Team} {ls : List Nat} {l : Nat} {v : Vals} {q : QuadId}

theorem aczero_of_ready (hr : MatrixReady s (bare g) h tm ls l v q) : exec (.aczero g d) s =
    .next (allGoOn (setAcc (withJob s (threadOf h l) q none []) q d.toNat AccTile.reset) h ls l) :=
  congrArg Host.Outcome.next (runMatrix_of_sound (eff := fun s' => setAcc s' q d.toNat AccTile.reset) hr rfl (tilesMeet_nil s))

theorem acload_of_ready {a : BitVec 6} {o : MOp} (hr : MatrixReady s (bare g) h tm ls l v q)
    (ho : mop s h.team tm (.loc a) = some o) (hread : MayRead s o) (hlay : o.tile.layout = 0) (hfmt : o.noFormat = false) :
    exec (.acload g d a) s = .next (allGoOn (setAcc (withJob s (threadOf h l) q none (o.ranges s false)) q d.toNat (loadAcc s o))
      h ls l) := by
  have hreads : ∀ x ∈ [o], MayRead s x := by simpa using hread
  refine congrArg Host.Outcome.next (runMatrix_of_sound (reads := [o]) (bounds := [o]) (inPlace := none)
    (eff := fun s' => setAcc s' q d.toNat (loadAcc s o)) hr ?_ (tilesMeet_of_mayRead hreads))
  simp only [threadOf_team, ho, hlay, hfmt, lateOf_of_mayRead hreads, MSpec.sound, ne_eq, not_true_eq_false, decide_false,
    Bool.or_self]

/-- An element of the accumulator that ACLOAD makes. -/
theorem get_loadAcc (s : State) (o : MOp) {r c : Nat} (hr : r < 64) (hc : c < 64) : (loadAcc s o).get r c =
    if r < o.rows ∧ c < o.cols then
      if o.isInt then BitVec.ofInt 36 (o.int s r c) else BitVec.ofNat 36 (roundTo f36 .rn (o.value s r c))
    else 0 := by
  rw [loadAcc, AccTile.get_build _ _ hr hc, ite_outside]

theorem rawFault_of_inside {x : Nat} (acc : Nat) (hx : x % 64 = 0) (hin : x + 32768 ≤ tm.scratch) : rawFault tm x acc = none := by
  simp [rawFault, hx, Nat.not_lt.2 hin]

/-- The elements that ACLOAD.RAW reads at an address. -/
def rawElem (s : State) (id : TeamId) (tm : Team) (x i j : Nat) : BitVec 36 :=
  BitVec.ofNat 36 (s.spNat id tm (x + 8 * (64 * i + j)) 8)

theorem loadRaw_of_ready {a : CSrc} (tag : Nat) (hr : MatrixReady s ⟨g, csrcOp a false, noOp, noOp, []⟩ h tm ls l v q)
    (hx : v.a.toNat % 2 ^ 32 % 64 = 0) (hin : v.a.toNat % 2 ^ 32 + 32768 ≤ tm.scratch) :
    loadRaw s g d a tag = allGoOn (setAcc (withJob s (threadOf h l) q none
      [⟨h.team, tm, v.a.toNat % 2 ^ 32, 32768, false, none⟩]) q d.toNat
        (AccTile.build tag (rawElem s h.team tm (v.a.toNat % 2 ^ 32)))) h ls l := by
  refine runBundle_team_done hr.leads ?_
  simp only [hr.plain, Bool.false_eq_true, if_false]
  refine matrixOp_of_sound (reads := []) (bounds := []) (inPlace := none)
    (eff := fun s' => setAcc s' q d.toNat (AccTile.build tag (rawElem s h.team tm (v.a.toNat % 2 ^ 32)))) hr ?_ (tilesMeet_nil s)
  simp only [rawFault_of_inside _ hx hin, rangesPoisoned, List.any_cons, List.any_nil, spPoisoned_of_sound hr.sound, Bool.or_self,
    Bool.false_eq_true, if_false]
  rfl

end

/-! ## ACGET (10 R224) -/

/-- A thread of the team that owns the unit reads an element. -/
theorem getAcc_of_owner {s : State} {k : ThreadKey} {tm : Team} {i j : Nat} (d : BitVec 8) (pair : Bool) (n : Nat)
    (f : Nat → BitVec 36 → Nat) (hm : tm.detMode = false) (ho : (s.mat (quadOf s k)).owner = some k.team) (hi : i < 64) (hj : j < 64) :
    getAcc s k tm d pair i j n f = .done (produce s k d pair (.value (BitVec.ofNat 64
      (f (accOf s (quadOf s k) n).tag ((accOf s (quadOf s k) n).get i j))))) := by
  simp only [getAcc, enterTrick_of_plain s k _ hm, claimMat_of_owner ho, Nat.not_le.2 hi, Nat.not_le.2 hj, decide_false,
    Bool.or_self, Bool.false_eq_true, if_false]

/-- Settles O32: loads by `accLoaded_of_exec` of `aczero_of_ready`, `acload_of_ready` and `loadRaw_of_ready`; ACGET by
`getAcc_of_owner`. -/
theorem accumulatorReadsAndLoads : Obligations.AccumulatorReadsAndLoads := by
  refine ⟨?loads, ?gets⟩
  case loads =>
    intro g d s h tm ls l v q n loads
    refine ⟨?zero, ?tile, ?raw⟩
    case zero =>
      intro hr
      exact accLoaded_of_exec (aczero_of_ready hr) rfl fun _ _ _ _ => rfl
    case tile =>
      intro a o hr ho hread hlay hfmt
      exact accLoaded_of_exec (acload_of_ready hr ho hread hlay hfmt) rfl fun _ _ => get_loadAcc s o
    case raw =>
      intro a hr x hx hin e
      exact ⟨accLoaded_of_exec (congrArg Host.Outcome.next (loadRaw_of_ready 1 hr hx hin)) rfl fun _ _ => AccTile.get_build _ _,
        accLoaded_of_exec (congrArg Host.Outcome.next (loadRaw_of_ready 2 hr hx hin)) rfl fun _ _ => AccTile.get_build _ _⟩
  case gets =>
    intro g d a b n s h tm l v k acc x hi hj hm ho sends
    exact ⟨fun hc => congrArg Host.Outcome.next (runLanes_one_team_done hc (getAcc_of_owner d false n.toNat _ hm ho hi hj)),
      fun hc => congrArg Host.Outcome.next (runLanes_one_team_done hc (getAcc_of_owner d true n.toNat _ hm ho hi hj))⟩

end Sys2Proof.Machine

/-! SUPPORT. Matrix instructions that write scratchpad (10 R223, R225 to R227). -/

namespace Sys2Proof.Machine

/-! ## Effects on the memories (10 R223, R225 to R227) -/

/-- A change of a state that makes of its memories what it would make of them in any state, and changes nothing else. -/
def ChangesMem (f : State → State) : Prop := ∃ g : Memory → Memory, ∀ s, f s = { s with mem := g s.mem }

theorem ChangesMem.comp {f f' : State → State} (h' : ChangesMem f') (h : ChangesMem f) : ChangesMem fun s => f' (f s) := by
  obtain ⟨g, hg⟩ := h
  obtain ⟨g', hg'⟩ := h'
  exact ⟨fun m => g' (g m), fun s => by simp only [hg, hg']⟩

theorem changesMem_spWrite (id : TeamId) (tm : Team) (a : Nat) (bs : List Byte) : ChangesMem fun s => s.spWrite id tm a bs :=
  ⟨fun m => (({ State.reset with mem := m } : State).spWrite id tm a bs).mem, fun _ => rfl⟩

theorem changesMem_foldl {α : Type} {f : State → α → State} (h : ∀ a, ChangesMem fun s => f s a) :
    ∀ as : List α, ChangesMem fun s => as.foldl f s
  | [] => ⟨id, fun _ => rfl⟩
  | a :: as => (changesMem_foldl h as).comp (h a)

theorem changesMem_writeRows (o : MOp) (f : Nat → Nat → Nat) : ChangesMem fun s => writeRows s o f :=
  changesMem_foldl (fun _ => changesMem_spWrite ..) _

theorem changesMem_storeAcc (o : MOp) (rm : Rm) (sat : Bool) (a : AccTile) : ChangesMem fun s => storeAcc s o rm sat a := by
  refine changesMem_foldl (fun i => ?_) _
  cases o.scaled
  · exact changesMem_spWrite ..
  · exact (changesMem_spWrite ..).comp (changesMem_spWrite ..)

theorem changesMem_runDelta (s : State) (a b d : MOp) (theta : Num) : ChangesMem fun s' => runDelta s s' a b d theta :=
  (changesMem_writeRows ..).comp ((changesMem_spWrite ..).comp (changesMem_writeRows ..))

/-- What an instruction leaves that has issued and whose effect is on the memories. -/
theorem stored_of_exec {s : State} {h : HandKey} {ls : List Nat} {l : Nat} {q : QuadId} {rs : List MRange} {i : Instr}
    {dst : Option MOp} {f : State → State} (hf : ChangesMem f)
    (he : exec i s = .next (allGoOn (f (withJob s (threadOf h l) q dst rs)) h ls l)) :
    ∃ t, exec i s = .next (allGoOn t h ls l) ∧ MatrixIssued s t h l q dst none ∧ t.mem = (f s).mem := by
  obtain ⟨g, hg⟩ := hf
  refine ⟨_, he, ?_, ?_⟩
  · rw [hg]
    exact (matrixIssued_withJob ..).withMem _
  · rw [hg, hg s, withJob_mem]

/-! ## ACSTORE, DELTA, SPCOMP and TXPOSE (10 R223, R225 to R227) -/

section
variable {g : Guard} {s : State} {h : HandKey} {tm : Team} {ls : List Nat} {l : Nat} {v : Vals} {q : QuadId}

/-- Whether ACSTORE saturates. -/
def storeSat (o : MOp) : SatSel → Bool
  | .reg => fmtSat o.fmt
  | .sat => true
  | .wrap => false

theorem acstore_of_ready {d : BitVec 6} {a : BitVec 2} {rm : Rm} (satm : SatSel) {o : MOp}
    (hr : MatrixReady s (bare g) h tm ls l v q) (ho : mop s h.team tm (.loc d) = some o) (hfill : MayFill s o)
    (hlay : o.tile.layout = 0) (hfmt : o.noFormat = false) : exec (.acstore g d a rm satm) s =
      .next (allGoOn (storeAcc (withJob s (threadOf h l) q (some o) (o.ranges s true)) o rm (storeSat o satm) (accOf s q a.toNat))
        h ls l) := by
  obtain ⟨hempty, _, hin⟩ := hfill
  refine congrArg Host.Outcome.next (runMatrix_of_sound (reads := []) (inPlace := none) (whole := some o) (bounds := [o])
    (eff := fun s' => storeAcc s' o rm (storeSat o satm) (accOf s q a.toNat)) hr ?_ ⟨?_, ?_, ?_, ?_⟩)
  · simp only [threadOf_team, ho, hlay, hfmt, MSpec.sound, ne_eq, not_true_eq_false, decide_false, Bool.or_self]
    cases satm <;> rfl
  all_goals simp [hempty, hin]

theorem acstoreRaw_of_ready {a : CSrc} {n : BitVec 2} (hr : MatrixReady s ⟨g, csrcOp a false, noOp, noOp, []⟩ h tm ls l v q)
    (hx : v.a.toNat % 2 ^ 32 % 64 = 0) (hin : v.a.toNat % 2 ^ 32 + 32768 ≤ tm.scratch) : exec (.acstoreRaw g a n) s =
      .next (allGoOn ((withJob s (threadOf h l) q none [⟨h.team, tm, v.a.toNat % 2 ^ 32, 32768, true, none⟩]).spWrite h.team tm
        (v.a.toNat % 2 ^ 32) (accOf s q n.toNat).raw) h ls l) := by
  refine congrArg Host.Outcome.next (runBundle_team_done hr.leads ?_)
  simp only [hr.plain, Bool.false_eq_true, if_false]
  refine matrixOp_of_sound (reads := []) (bounds := []) (inPlace := none)
    (eff := fun s' => s'.spWrite h.team tm (v.a.toNat % 2 ^ 32) (accOf s q n.toNat).raw) hr ?_ (tilesMeet_nil s)
  simp only [rawFault_of_inside _ hx hin]
  rfl

theorem delta_of_ready {d a b : BitVec 6} {c : CSrc} {x y z : MOp}
    (hr : MatrixReady s ⟨g, noOp, noOp, csrcOp c false, []⟩ h tm ls l v q) (hx : mop s h.team tm (.loc a) = some x)
    (hy : mop s h.team tm (.loc b) = some y) (hz : mop s h.team tm (.loc d) = some z) (hrx : MayRead s x) (hry : MayRead s y)
    (hfill : MayFill s z) (hshape : deltaShape x y z = false) : exec (.delta g d a b c) s =
      .next (allGoOn (runDelta s (withJob s (threadOf h l) q (some z) (x.ranges s false ++ y.ranges s true ++ z.ranges s true))
        x y z (unpack fp32 (v.c.toNat % 2 ^ 32))) h ls l) := by
  have hreads : ∀ o ∈ [x, y], MayRead s o := by simp [hrx, hry]
  obtain ⟨hxr, _, hxin, _⟩ := hrx
  obtain ⟨hyr, _, hyin, _⟩ := hry
  obtain ⟨hempty, _, hin⟩ := hfill
  refine congrArg Host.Outcome.next (runMatrix_of_sound (reads := [x]) (inPlace := some y) (whole := some z) (bounds := [x, y, z])
    (eff := fun s' => runDelta s s' x y z (unpack fp32 (v.c.toNat % 2 ^ 32))) hr ?_ ⟨?_, ?_, ?_, ?_⟩)
  · simp only [threadOf_team, hx, hy, hz, hshape, lateOf_of_mayRead hreads, MSpec.sound]
  all_goals simp [hxr, hyr, hempty, hxin, hyin, hin]

section
variable {d a : BitVec 6} {x z : MOp} (hr : MatrixReady s (bare g) h tm ls l v q) (hx : mop s h.team tm (.loc a) = some x)
  (hz : mop s h.team tm (.loc d) = some z) (hrx : MayRead s x) (hempty : (z.ref.tile s).state = 0) (hlx : x.tile.layout = 0)
  (helem : sameElem x z = true) (hfx : x.noFormat = false) (hfz : z.noFormat = false) (hsz : z.scaled = false)
include hr hx hz hrx hempty hlx helem hfx hfz hsz

theorem spcomp_of_ready (hlz : z.tile.layout = 1) (hshape : sameShape x z = true)
    (hroom : z.base + (sparseBytes s x).length ≤ z.tm.scratch) : exec (.spcomp g d a) s =
      .next (allGoOn ((withJob s (threadOf h l) q (some z) (x.ranges s false ++
        [⟨z.ref.team, z.tm, z.base, (sparseBytes s x).length, true, some z.ref.entry⟩])).spWrite z.ref.team z.tm z.base
          (sparseBytes s x)) h ls l) := by
  obtain ⟨hxr, _, hxin, hlate⟩ := hrx
  have hnone : spcompLate s x z = none := by simp [spcompLate, hlate, Nat.not_lt.2 hroom, hsz]
  refine congrArg Host.Outcome.next (runMatrix_of_sound (reads := [x]) (inPlace := none) (whole := some z) (bounds := [x])
    (eff := fun s' => s'.spWrite z.ref.team z.tm z.base (sparseBytes s x)) hr ?_ ⟨?_, ?_, ?_, ?_⟩)
  · simp only [threadOf_team, hx, hz, hlx, hlz, hshape, helem, hfx, hfz, hsz, hnone, MSpec.sound, ne_eq, not_true_eq_false,
      decide_false, Bool.not_true, Bool.or_self, Bool.false_eq_true, if_false]
  all_goals simp [hxr, hempty, hxin]

theorem txpose_of_ready (hlz : z.tile.layout = 0) (hrow : z.tile.nrow = x.tile.ncol) (hcol : z.tile.ncol = x.tile.nrow)
    (hsx : x.scaled = false) (hin : z.outside 0 = false) : exec (.txpose g d a) s =
      .next (allGoOn (writeRows (withJob s (threadOf h l) q (some z) (x.ranges s false ++ z.ranges s true)) z
        fun i j => x.dense s j i) h ls l) := by
  have hreads : ∀ o ∈ [x], MayRead s o := by simpa using hrx
  obtain ⟨hxr, _, hxin, _⟩ := hrx
  refine congrArg Host.Outcome.next (runMatrix_of_sound (reads := [x]) (inPlace := none) (whole := some z) (bounds := [x, z])
    (eff := fun s' => writeRows s' z fun i j => x.dense s j i) hr ?_ ⟨?_, ?_, ?_, ?_⟩)
  · simp only [threadOf_team, hx, hz, hlx, hlz, hrow, hcol, helem, hfx, hfz, hsx, hsz, lateOf_of_mayRead hreads, MSpec.sound, ne_eq,
      not_true_eq_false, decide_false, Bool.not_true, Bool.or_self]
  all_goals simp [hxr, hempty, hxin, hin]

end

end

/-- Settles O33: each store by `stored_of_exec`, since its effect is on the memories alone (`ChangesMem`). -/
theorem matrixStores : Obligations.MatrixStores := by
  intro g s h tm ls l v q stores
  refine ⟨?acstore, ?raw, ?delta, ?rewrites⟩
  case acstore =>
    intro d a rm satm o hr ho hfill hlay hfmt
    have hstored := stored_of_exec (changesMem_storeAcc o rm (storeSat o satm) (accOf s q a.toNat))
      (acstore_of_ready satm hr ho hfill hlay hfmt)
    cases satm <;> exact hstored
  case raw =>
    intro a n hr x hx hin
    have hstored := stored_of_exec (changesMem_spWrite h.team tm x (accOf s q n.toNat).raw) (acstoreRaw_of_ready hr hx hin)
    rw [AccTile.raw_eq] at hstored
    exact hstored
  case delta =>
    intro d a b c x y z hr hx hy hz hrx hry hfill hshape diff moves code live
    exact stored_of_exec (changesMem_runDelta s x y z _) (delta_of_ready hr hx hy hz hrx hry hfill hshape)
  case rewrites =>
    intro d a x z hr hx hz hrx hempty _
    refine ⟨?_, ?_⟩
    · intro hlx hlz hshape helem hfx hfz hsz hroom
      exact stored_of_exec (changesMem_spWrite ..)
        (spcomp_of_ready hr hx hz hrx hempty hlx helem hfx hfz hsz hlz hshape hroom)
    · intro hlx hlz hrow hcol helem hfx hfz hsx hsz hin
      exact stored_of_exec (changesMem_writeRows ..)
        (txpose_of_ready hr hx hz hrx hempty hlx helem hfx hfz hsz hlz hrow hcol hsx hin)

end Sys2Proof.Machine

/-! SUPPORT. Requests of threads to bag arbiters (11 R235, R244 to R248): what the bag instructions send, and how a thread that
waits for a reply goes on with it. -/

namespace Sys2Proof.Machine

/-! ## Sending (11 R235) -/

section
variable {s : State} {h : HandKey} {hd : Hand} {l : Nat} {tm : Team} {v : Vals}

theorem nextSeqNo_of_hand (hh : aget h s.hands = some hd) : nextSeqNo s h = hd.seq := by
  simp only [nextSeqNo, hh]

/-- A thread's request has its hand's next number, and counts as pending. -/
theorem sendBag_of_hand (hh : aget h s.hands = some hd) (fn : Nat) (handle : Word) (ask : BagAsk) :
    sendBag s (threadOf h l) fn handle ask = (asking s h hd l fn handle ask, s.nextId) := by
  refine Prod.ext ?_ rfl
  simp only [sendBag, handOf_threadOf, nextSeqNo_of_hand hh]
  refine modHand_congr fun u hu => ?_
  obtain rfl : hd = u := Option.some.inj (hh.symm.trans hu)
  rfl

theorem withBag_of_live {x : BagId × Bag} {a : Dword} (hd : tm.detMode = false)
    (hb : liveBag s tm.func (handleReg a) = some x) (f : Bag → LaneOut) : withBag s tm a f = f x.2 := by
  simp only [withBag, hd, hb, Bool.false_eq_true, if_false]

/-! ## Producers: BAGPUT, BAGTAKE, BAGCNT and BAGHIST (11 R245 to R247) -/

/-- A request has gone to the arbiter, and its destination is empty until the arbiter's value comes. -/
def requested (s : State) (h : HandKey) (hd : Hand) (l fn : Nat) (handle : Word) (ask : BagAsk) (d : BitVec 8) (pair : Bool) :
    State :=
  (asking s h hd l fn handle ask).modThread (threadOf h l) fun u => setFull u d pair false

theorem markEmpty_sendBag (hh : aget h s.hands = some hd) (fn : Nat) (handle : Word) (ask : BagAsk) (d : BitVec 8) (pair : Bool) :
    markEmpty (sendBag s (threadOf h l) fn handle ask).1 (threadOf h l) d pair = requested s h hd l fn handle ask d pair := by
  rw [sendBag_of_hand hh]
  rfl

section
variable {g : Guard} {d : BitVec 8} {a b : Src} {off : BitVec 16}
  (hc : OneLane s ⟨g, srcOp a false, srcOp b false, noOp, [(d, false)]⟩ h tm l v) (hh : aget h s.hands = some hd)
include hc hh

theorem bagput_of_normal (ha : acqPending s (threadOf h l) true = false) (hal : bagAddr v.b off % 32 = 0)
    (hin : bagAddr v.b off < tm.scratch) (hm : tm.detMode = false) : exec (.bagput g d a b off) s =
      .next (goesOn (requested s h hd l tm.func (handleReg v.a) (.put (bagAddr v.b off) d none) d false) h l) := by
  refine congrArg Host.Outcome.next (runLanes_one_team_done hc ?_)
  simp only [hal, Nat.not_le.2 hin, hm, ha, ne_eq, not_true_eq_false, if_false, Bool.false_eq_true, markEmpty_sendBag hh]

/-- In deterministic mode a put is one entry of the buffer, and its status is 0 at once (11 R249). -/
theorem bagput_of_room {u : Thread} (hu : s.lane h l = some u) (hal : bagAddr v.b off % 32 = 0)
    (hin : bagAddr v.b off < tm.scratch) (hm : tm.detMode = true)
    (hr : (hd.detBuf.filter fun e => e.lane = l).length + 1 ≤ 1024 / tm.w) : exec (.bagput g d a b off) s =
      .next (goesOn ((s.setHand h { hd with detBuf := hd.detBuf ++
        [⟨(handleReg v.a).setWidth 64, l, 5, 0, 0, bagAddr v.b off, u.pc⟩] }).modThread (threadOf h l)
          fun u => writeReg u d false 0) h l) := by
  refine congrArg Host.Outcome.next (runLanes_one_team_done hc ?_)
  simp only [hal, Nat.not_le.2 hin, hm, ne_eq, not_true_eq_false, if_false, if_true, pcOf_of_lane hu, threadOf_lane]
  rw [takeEntries_of_room hh hr]
  rfl

theorem bagtake_of_block {ch : BitVec 2} {w : Nat} {x : BagId × Bag} (ha : acqPending s (threadOf h l) true = false)
    (hm : tm.detMode = false) (hb : liveBag s tm.func (handleReg v.a) = some x) (hal : bagAddr v.b off % 16 = 0)
    (hin : bagAddr v.b off + 16 ≤ tm.scratch) (hw : spLoad s (threadOf h l) tm (bagAddr v.b off) 16 16 = .ok w) :
    exec (.bagtake g d a b ch off) s = .next (goesOn (requested s h hd l tm.func (handleReg v.a)
      (.take ⟨⟨h.team.die, h.team.core, hd.quad⟩, ch.toNat⟩ (BitVec.ofNat 128 w) (bagAddr v.b off) d) d false) h l) := by
  refine congrArg Host.Outcome.next (runLanes_one_team_done hc ?_)
  rw [withBag_of_live hm hb]
  simp only [hal, Nat.not_lt.2 hin, ha, hw, ne_eq, not_true_eq_false, if_false, Bool.false_eq_true, markEmpty_sendBag hh,
    ownChan_of_hand hh]

end

theorem countBag_of_live {g : Guard} {d : BitVec 8} {pair : Bool} {a : Src} {b : Opnd} {x : BagId × Bag} (ask : Nat → BagAsk)
    (hc : OneLane s ⟨g, srcOp a false, b, noOp, [(d, pair)]⟩ h tm l v) (hh : aget h s.hands = some hd)
    (ha : acqPending s (threadOf h l) true = false) (hm : tm.detMode = false)
    (hb : liveBag s tm.func (handleReg v.a) = some x) : countBag s g d pair a b ask =
      goesOn (requested s h hd l tm.func (handleReg v.a) (ask (v.b.toNat % 1024)) d pair) h l := by
  refine runLanes_one_team_done hc ?_
  rw [withBag_of_live hm hb]
  simp only [ha, if_false, Bool.false_eq_true, markEmpty_sendBag hh]

/-! ## Threads that wait for a reply: BAGCUT, BAGWAIT, BAGINFO, BAGCLR and BAGITER (11 R241, R243, R247, R248) -/

theorem asked_of_lane {u : Thread} (hu : s.lane h l = some u) : asked s (threadOf h l) = u.ask.isSome := by
  simp only [asked, show aget (threadOf h l) s.threads = some u from hu]

/-- A thread whose reply has come takes it, and asks no more. -/
theorem replyBag_of_answer {u : Thread} {n : Nat} {x : Answer} {handle : Word} {ask : BagAsk} {done : Answer → State → LaneOut}
    (ha : acqPending s (threadOf h l) true = false) (hu : s.lane h l = some u) (hn : u.ask = some n)
    (hx : aget n s.answers = some x) (hf : x.fault = none) : replyBag s (threadOf h l) tm handle ask done =
      done x ((dropAnswers s [n]).modThread (threadOf h l) fun u => { u with ask := none }) := by
  simp only [replyBag, ha, Bool.false_eq_true, if_false, askAndWait, show aget (threadOf h l) s.threads = some u from hu, hn, hx, hf]

/-- A thread that has not asked sends its request, and waits. -/
theorem replyBag_of_unasked {u : Thread} {handle : Word} {ask : BagAsk} {done : Answer → State → LaneOut}
    (ha : acqPending s (threadOf h l) true = false) (hh : aget h s.hands = some hd) (hu : s.lane h l = some u) (hn : u.ask = none) :
    replyBag s (threadOf h l) tm handle ask done = .wait ((asking s h hd l tm.func handle ask).modThread (threadOf h l)
      fun u => { u with ask := some s.nextId }) := by
  simp only [replyBag, ha, Bool.false_eq_true, if_false, askAndWait, show aget (threadOf h l) s.threads = some u from hu, hn,
    sendBag_of_hand hh]

/-- A part of a thread u that sends a request and goes on with its reply: it asks in normal mode, where its handle names a live
bag, and the reply's value makes of its thread what result gives. -/
structure Replies (s : State) (h : HandKey) (hd : Hand) (tm : Team) (l : Nat) (v : Vals) (u : Thread) (ask : BagAsk)
    (result : Nat → Thread → Thread) (body : ThreadKey → Vals → State → Team → LaneOut) : Prop where
  answered : ∀ n x, u.ask = some n → aget n s.answers = some x → x.fault = none →
    body (threadOf h l) v s tm = .done ((dropAnswers s [n]).modThread (threadOf h l) fun u => result x.val { u with ask := none })
  asks : u.ask = none → tm.detMode = false → (liveBag s tm.func (handleReg v.a)).isSome = true →
    body (threadOf h l) v s tm = .wait ((asking s h hd l tm.func (handleReg v.a) ask).modThread (threadOf h l)
      fun u => { u with ask := some s.nextId })

section
variable {u : Thread} (ha : acqPending s (threadOf h l) true = false) (hh : aget h s.hands = some hd) (hu : s.lane h l = some u)
include ha hh hu

/-- A part that checks the mode and the handle and then asks. -/
theorem replies_waitBag {ask : BagAsk} {result : Nat → Thread → Thread} {done : ThreadKey → Answer → State → LaneOut}
    (hdone : ∀ k x t, done k x t = .done (t.modThread k (result x.val))) :
    Replies s h hd tm l v u ask result fun k v s tm => waitBag s k tm v.a ask (done k) where
  answered n x hn hx hf := by
    simp only [waitBag, asked_of_lane hu, hn, Option.isSome_some, if_true, replyBag_of_answer ha hu hn hx hf, hdone,
      modThread_modThread]
  asks hn hm hb := by
    obtain ⟨x, hx⟩ := Option.isSome_iff_exists.1 hb
    simp only [waitBag, asked_of_lane hu, hn, Option.isSome_none, Bool.false_eq_true, if_false, withBag_of_live hm hx,
      replyBag_of_unasked ha hh hu hn]

/-- BAGINFO, which deterministic mode allows (11 R249). -/
theorem replies_baginfo (d : BitVec 8) (sel : BitVec 3) : Replies s h hd tm l v u (.info sel.toNat)
    (fun n u => writeReg u d false (BitVec.ofNat 64 n)) fun k v s tm =>
      if !asked s k && (liveBag s tm.func (handleReg v.a)).isNone then .fault (badHandle (handleReg v.a))
      else replyBag s k tm (handleReg v.a) (.info sel.toNat) fun r s => putReg d false (BitVec.ofNat 64 r.val) k s where
  answered n x hn hx hf := by
    simp only [asked_of_lane hu, hn, Option.isSome_some, Bool.not_true, Bool.false_and, Bool.false_eq_true, if_false,
      replyBag_of_answer ha hu hn hx hf, putReg, modThread_modThread]
  asks hn _ hb := by
    simp only [Option.isNone_eq_false_iff.2 hb, Bool.and_false, Bool.false_eq_true, if_false, replyBag_of_unasked ha hh hu hn]

/-- BAGITER, of a cut of 48 bits and a descriptor within the scratchpad. -/
theorem replies_bagiter {x : Nat} (hx : x = v.c.toNat % 2 ^ 32) (hcut : v.b.toNat < 2 ^ 48) (hfit : Fits x 32 tm.scratch)
    (hin : x + 96 ≤ tm.scratch) : Replies s h hd tm l v u (.iter v.b.toNat x) (fun _ u => u) fun k v s tm =>
      let x := v.c.toNat % 2 ^ 32
      let ask := BagAsk.iter (v.b.toNat % 2 ^ 48) x
      if asked s k then replyBag s k tm (handleReg v.a) ask fun _ s => .done s
      else withBag s tm v.a fun _ =>
        if bits v.b.toNat 63 48 ≠ 0 then .fault { code := 0x19, felem := v.b.toNat % 2 ^ 32 }
        else if x % 32 ≠ 0 then .fault { code := 0x09, faddr := BitVec.ofNat 64 x, acc := 1 }
        else if tm.scratch < x + 96 then .fault { code := 0x08, faddr := BitVec.ofNat 64 x, acc := 1 }
        else replyBag s k tm (handleReg v.a) ask fun _ s => .done s where
  answered n y hn hy hf := by
    simp only [asked_of_lane hu, hn, Option.isSome_some, if_true, replyBag_of_answer ha hu hn hy hf]
  asks hn hm hb := by
    obtain ⟨y, hy⟩ := Option.isSome_iff_exists.1 hb
    have hz : bits v.b.toNat 63 48 = 0 := by
      rw [bits, Nat.shiftRight_eq_div_pow, Nat.div_eq_of_lt hcut, Nat.zero_mod]
    simp only [asked_of_lane hu, hn, Option.isSome_none, Bool.false_eq_true, if_false, withBag_of_live hm hy, hz, ← hx, hfit.2,
      Nat.not_lt.2 hin, ne_eq, not_true_eq_false, replyBag_of_unasked ha hh hu hn, Nat.mod_eq_of_lt hcut]

end

/-- What an instruction of one thread does whose part asks and goes on with the reply. -/
theorem goesOn_of_replies {sh : Shape} {i : Instr} {u : Thread} {ask : BagAsk} {result : Nat → Thread → Thread}
    {body : ThreadKey → Vals → State → Team → LaneOut} (hc : OneLane s sh h tm l v) (hu : s.lane h l = some u)
    (hr : Replies s h hd tm l v u ask result body)
    (hi : exec i s = .next (runLanes s sh fun k v s => inTeam s k (body k v s))) :
    (∀ n x, u.ask = some n → aget n s.answers = some x → x.fault = none → exec i s = .next (goesOn
      ((dropAnswers s [n]).modThread (threadOf h l) fun u => result x.val { u with ask := none }) h l)) ∧
    (u.ask = none → u.run = .ready → tm.detMode = false → (liveBag s tm.func (handleReg v.a)).isSome = true →
      sh.modified = false → exec i s = .next (endIssue ((asking s h hd l tm.func (handleReg v.a) ask).modThread (threadOf h l)
        fun u => { u with ask := some s.nextId, run := .stalled }) h [l])) := by
  refine ⟨fun n x hn hx hf => ?_, fun hn hrun hm hb hmod => ?_⟩
  · rw [hi, runLanes_one_team_done hc (hr.answered n x hn hx hf)]
  · rw [hi, runLanes_one_team_stays hc hmod (hr.asks hn hm hb), stallThread, modThread_modThread]
    refine congrArg (fun t => Host.Outcome.next (endIssue t h [l])) (modThread_congr fun w hw => ?_)
    obtain rfl : u = w := Option.some.inj (hu.symm.trans hw)
    simp only [hrun, if_true]

/-- Settles O34: the producers by `requested`, and each instruction whose thread waits by its `Replies`. -/
theorem bagRequests : Obligations.BagRequests := by
  intro g d a s h tm l v hd u hh hu ha
  refine ⟨fun b off hc hal hin => ⟨bagput_of_normal hc hh ha hal hin, bagput_of_room hc hh hu hal hin⟩,
    fun b ch off bg w hm hc hb hal hin hw => bagtake_of_block hc hh ha hm hb hal hin hw, fun hm hb => ?_, ?_⟩
  · obtain ⟨x, hx⟩ := Option.isSome_iff_exists.1 hb
    exact ⟨fun hc => congrArg _ (countBag_of_live _ hc hh ha hm hx), fun b hc => congrArg _ (countBag_of_live _ hc hh ha hm hx),
      fun b hc => congrArg _ (countBag_of_live _ hc hh ha hm hx)⟩
  · rintro b c sel i sh ask result (⟨rfl, rfl, rfl, hr⟩ | ⟨rfl, rfl, rfl, hr⟩ | ⟨rfl, rfl, rfl, hr⟩ | ⟨rfl, rfl, rfl, hr⟩ |
      ⟨rfl, rfl, rfl, hcut, hfit, hin, hr⟩) hc
    case inl =>
      exact goesOn_of_replies hc hu (replies_waitBag (result := result) ha hh hu fun _ _ _ => by rw [hr]; rfl) rfl
    case inr.inl =>
      exact goesOn_of_replies hc hu (replies_waitBag (result := result) ha hh hu fun _ _ _ => by rw [hr]; rfl) rfl
    case inr.inr.inl =>
      exact goesOn_of_replies hc hu (hr ▸ replies_baginfo ha hh hu d sel) rfl
    case inr.inr.inr.inl =>
      exact goesOn_of_replies hc hu (replies_waitBag (result := result) (done := fun _ _ s => .done s) ha hh hu fun _ _ _ => by
        rw [hr, modThread_id]) rfl
    case inr.inr.inr.inr =>
      exact goesOn_of_replies hc hu (hr ▸ replies_bagiter ha hh hu rfl hcut hfit hin) rfl

end

end Sys2Proof.Machine

/-! SUPPORT. Puts and takes at a bag's arbiter (11 R236, R237, R240, R246): acceptance, placement, claims and landing. -/

namespace Sys2Proof.Machine

/-! ## Calls of landed (07 R158) -/

/-- A fault record on its way changes the fault path and what the dealer is told alone. -/
theorem sendFault_rest (s : State) (r : FaultRec) :
    sendFault s r = { s with faults := (sendFault s r).faults, health := (sendFault s r).health } := by
  unfold sendFault
  split <;> rfl

/-- An update of a barrier changes memory and the threads that wait at it alone. -/
theorem updateBarrier_rest (s : State) (id : TeamId) (a : Nat) (f : Barrier → Barrier) : updateBarrier s id a f =
    { s with mem := (updateBarrier s id a f).mem, threads := (updateBarrier s id a f).threads } := by
  unfold updateBarrier
  split
  · dsimp only
    split <;> rfl
  · rfl

/-- A call of landed changes memory, the threads that wait at the barrier, suspended teams and the fault path alone. -/
theorem landed_rest (s : State) (id : TeamId) (a n src : Nat) : landed s id a n src =
    { s with
      mem := (landed s id a n src).mem, threads := (landed s id a n src).threads, saved := (landed s id a n src).saved
      faults := (landed s id a n src).faults, health := (landed s id a n src).health } := by
  unfold landed
  split
  · rfl
  · split
    · conv_lhs => rw [sendFault_rest]
      conv_rhs => rw [sendFault_rest]
    · conv_lhs => rw [updateBarrier_rest]
      conv_rhs => rw [updateBarrier_rest]

@[simp] theorem landed_bags (s : State) (id : TeamId) (a n src : Nat) : (landed s id a n src).bags = s.bags := by rw [landed_rest]
@[simp] theorem landed_chans (s : State) (id : TeamId) (a n src : Nat) : (landed s id a n src).chans = s.chans := by
  rw [landed_rest]

theorem barrierPoisoned_congr {s t : State} (hm : t.mem = s.mem) (ht : t.teams = s.teams) (id : TeamId) (a : Nat) :
    barrierPoisoned t id a = barrierPoisoned s id a := by simp only [barrierPoisoned, State.spPoisoned, hm, ht]

/-- What a call of landed makes of memory depends on memory and teams alone. -/
theorem landed_mem_congr {s t : State} (hm : t.mem = s.mem) (ht : t.teams = s.teams) (id : TeamId) (a n src : Nat) :
    (landed t id a n src).mem = (landed s id a n src).mem := by
  unfold landed
  rw [barrierPoisoned_congr hm ht]
  split
  · exact hm
  · split
    · rw [sendFault_mem, sendFault_mem, hm]
    · cases htm : aget id s.teams with
      | none => simp only [updateBarrier, ht, htm, hm]
      | some tm =>
        rw [updateBarrier_mem (ht ▸ htm), updateBarrier_mem htm, spNat_congr hm]
        simp only [State.spWrite, hm]

theorem callLanded_of_sound {s : State} {id : TeamId} {bb : Nat} (h : barrierPoisoned s id bb = false) (n : Nat)
    (poisoned : FaultInfo → State) : callLanded s id bb n poisoned = landed s id bb n := by
  simp only [callLanded, h, Bool.false_eq_true, if_false]

theorem barrierPoisoned_of_sound {s : State} (h : s.mem.spPoison = []) (id : TeamId) (a : Nat) :
    barrierPoisoned s id a = false := by
  unfold barrierPoisoned
  split
  · exact spPoisoned_of_sound h ..
  · rfl

/-! ## Acceptance (11 R235, R236) -/

section
variable {s : State} {r : BagReq} {b : BagId} {bg : Bag} {tm : Team}

/-- The arbiter may take the only request that there is, to a bag without a clear, whose hand has released what it must. -/
theorem mayTake_of_only (ha : r.after = none) (hp : putReleased s r = true) (hb : liveBag s r.func r.handle = some (b, bg))
    (hc : bg.clear = none) : mayTake s 0 r = true := by
  simp [mayTake, ha, hp, hb, hc]

theorem putReleased_of_put {x : Nat} {d : BitVec 8} (hk : r.ask = .put x d none)
    (hh : ∀ hd, aget (handOf r.thread) s.hands = some hd → (∀ e ∈ hd.storeQ, e.seq < r.seq → e.rel = none) ∧ hd.fences = []) :
    putReleased s r = true := by
  simp only [putReleased, hk]
  cases e : aget (handOf r.thread) s.hands with
  | none => rfl
  | some hd =>
    obtain ⟨hq, hf⟩ := hh hd e
    simp only [hf, List.all_nil, Bool.and_true, List.all_eq_true, Bool.or_eq_true, decide_eq_true_eq, Option.isNone_iff_eq_none]
    exact fun e he => (Nat.lt_or_ge e.seq r.seq).symm.imp_right (hq e he)

theorem putReleased_of_other (hk : ∀ x d, r.ask ≠ .put x d none) : putReleased s r = true := by
  unfold putReleased
  split
  · rename_i hd h _
    exact absurd h (hk _ _)
  · rfl

theorem putResult_value (s : State) (r : BagReq) (d : BitVec 8) (v : Dword) : putResult s r d (.value v) = given s r d false v := rfl

/-- A put in range, of a record without poison, is placed, or refused where its bag is full. -/
theorem arbitratePut_of_sound {x : Nat} {d : BitVec 8} (hb : liveBag s r.func r.handle = some (b, bg))
    (ht : aget r.thread.team s.teams = some tm) (ho : s.holds = []) (hin : x + bg.rsize ≤ tm.scratch)
    (hp : s.spPoisoned r.thread.team tm x bg.rsize = false) : arbitratePut s r x d none =
      if bg.full then putResult s r d (if bg.fmode = 1 then .value 2 else .fault { code := 0x18, felem := bg.resident })
      else given (s.modBag b fun y => y.place (s.spBytes r.thread.team tm x bg.rsize)) r d false 0 := by
  simp only [arbitratePut, hb, ht, Nat.not_lt.2 hin, heldRange_of_no_holds ho, hp, Bool.false_eq_true, if_false, putResult_value]

theorem exec_bagPutArbitrate {x : Nat} {d : BitVec 8} {kept : Option (List Byte)} (hr : s.bagReqs = [r])
    (hm : mayTake s 0 r = true) (hk : r.ask = .put x d kept) :
    exec (.bagPutArbitrate 0) s = .next (openChecks (arbitratePut s r x d kept) r.thread.team) := by
  show execBagPutArbitrate 0 s = _
  simp [execBagPutArbitrate, hr, hm, hk]

theorem exec_bagTakeClaim {c : ChanId} {block : BitVec 128} {off : Nat} {d : BitVec 8} (hr : s.bagReqs = [r])
    (hm : mayTake s 0 r = true) (hk : r.ask = .take c block off d) :
    exec (.bagTakeClaim 0) s = .next (claimTake s r c block off d) := by
  show execBagTakeClaim 0 s = _
  simp [execBagTakeClaim, hr, hm, hk]

/-! ## Placement (11 R237) -/

/-- A row for a record changes the rows of its bag alone. -/
theorem rowFor_rest (bg : Bag) (share key : Nat) :
    (bg.rowFor share key).1 = { bg with rows := (bg.rowFor share key).1.rows, nextRow := (bg.rowFor share key).1.nextRow } := by
  unfold Bag.rowFor
  dsimp only
  repeat' split
  all_goals rfl

theorem place_claims (bg : Bag) (data : List Byte) : (bg.place data).claims = bg.claims := by
  simp only [Bag.place]
  rw [rowFor_rest]

/-! ## Claims (11 R240) -/

theorem claimLoop_length (n : Nat) : ∀ (fuel sh idle : Nat) (bg : Bag) (acc : List Claim), acc.length ≤ n →
    (claimLoop n fuel sh idle bg acc).2.length ≤ n
  | 0, _, _, _, _, h => h
  | fuel + 1, sh, idle, bg, acc, h => by
    rw [claimLoop]
    dsimp only
    split
    · exact h
    · generalize hgot : List.take _ (bg.unclaimed sh) = got
      have hle : got.length ≤ n - acc.length := by
        rw [← hgot, List.length_take]
        split <;> omega
      split
      · exact claimLoop_length n fuel _ _ _ _ h
      · refine claimLoop_length n fuel _ _ _ _ ?_
        rw [List.length_append, List.length_map]
        omega

theorem claim_length (bg : Bag) (n : Nat) : (bg.claim n).2.length ≤ n := by
  unfold Bag.claim
  split
  · exact Nat.zero_le n
  · exact claimLoop_length n _ _ _ _ _ (Nat.zero_le n)

theorem claimTake_of_sound {c : ChanId} {block : BitVec 128} {off : Nat} {d : BitVec 8}
    (hb : liveBag s r.func r.handle = some (b, bg)) (ht : aget r.thread.team s.teams = some tm)
    (hf : takeFaultOf tm block.toNat bg.rsize off = none) (hn : bits block.toNat 12 0 ≠ 0) (hq : (s.chan c).heads.length < 4)
    (ho : s.holds = []) (hp : s.spPoisoned r.thread.team tm (bits block.toNat 116 96) 16 = false) :
    let n := bits block.toNat 12 0
    let got := bg.claim n
    let bb := bits block.toNat 116 96
    claimTake s r c block off d = landed (given (queueTake (s.modBag b fun _ => got.1) c r b block.toNat off bg.rsize got.2) r d
      false (BitVec.ofNat 64 got.2.length)) r.thread.team bb ((n - got.2.length) * bg.rsize) := by
  intro n got bb
  have hheld : barrierHeld s r.thread.team (bits block.toNat 116 96) = false := heldRange_of_no_holds ho ..
  simp only [claimTake, hb, ht, hf, hn, Nat.not_le.2 hq, hheld, if_false, decide_false, Bool.or_false, Bool.false_eq_true]
  refine callLanded_of_sound ?_ _ _
  exact (barrierPoisoned_congr (s := s) rfl rfl ..).trans ((barrierPoisoned_of_team ht _).trans hp)

/-! ## Landing (11 R246) -/

theorem closeTake_rest (s : State) (c : ChanId) : closeTake s c = { s with chans := (closeTake s c).chans } := by
  unfold closeTake
  split
  · split <;> rfl
  · rfl

theorem closeTake_run {s : State} {c : ChanId} {t : TakeJob} (h : (s.chan c).run = some (.take t)) :
    ((closeTake s c).chan c).run = if t.claims.length ≤ t.landed then none else some (.take t) := by
  simp only [closeTake, h]
  split
  · rw [chan_modChan_self]
  · exact h

/-- A record has been read from its slot, and its take's bytes written; the barrier has yet to count them. -/
def recordMoved (s : State) (c : ChanId) (t : TakeJob) (x : Claim) (tm : Team) (bg : Bag) : State :=
  let s1 := s.spWrite t.team tm (t.dest + t.landed * t.rsize) (dramRead s (bg.dpa s (bg.locOf x.row + x.slot * bg.rsize)) bg.rsize)
  (clearSlot (countServed (s1.modBag t.bag fun y => y.leave x.seq) (bg.pch x.share) (false, tm.func, tm.node)) t.bag x.row
    x.slot).modChan c fun ch => { ch with run := some (.take { t with landed := t.landed + 1 }) }

@[simp] theorem recordMoved_mem (s : State) (c : ChanId) (t : TakeJob) (x : Claim) (tm : Team) (bg : Bag) :
    (recordMoved s c t x tm bg).mem = (s.spWrite t.team tm (t.dest + t.landed * t.rsize)
      (dramRead s (bg.dpa s (bg.locOf x.row + x.slot * bg.rsize)) bg.rsize)).mem := rfl

theorem landTake_of_sound {s : State} {c : ChanId} {t : TakeJob} {x : Claim} {y : BagRec} (hb : aget t.bag s.bags = some bg)
    (ht : aget t.team s.teams = some tm) (hy : bg.recs.find? (fun r => r.seq = x.seq) = some y) (hw : y.written = true)
    (hl : t.limit = none) (hm : mayServe s (bg.pch x.share) (false, tm.func, tm.node) = true) (ho : s.holds = [])
    (hd : s.mem.dramPoison = []) (hp : s.mem.spPoison = []) :
    landTake s c t x = landed (recordMoved s c t x tm bg) t.team t.bb t.rsize := by
  have hheld : barrierHeld s t.team t.bb = false := heldRange_of_no_holds ho ..
  have hsound : dramPoisoned s (bg.locOf x.row + x.slot * bg.rsize) bg.rsize = false := by simp [dramPoisoned, hd]
  have hpoison : barrierPoisoned (recordMoved s c t x tm bg) t.team t.bb = false :=
    barrierPoisoned_of_sound (by rw [recordMoved_mem]; exact spWrite_poison hp ..) ..
  rw [← callLanded_of_sound hpoison _ fun f => chanFault (recordMoved s c t x tm bg) c t.team t.off f false 0]
  simp only [landTake, hb, ht, hy]
  rw [if_neg, if_neg, hsound]
  · rfl
  · simp [hm]
  · simp [hw, hl, hheld, heldRange_of_no_holds ho]

end

/-- Settles O35: acceptance by `arbitratePut_of_sound` and `claimTake_of_sound`, and a landing by `landTake_of_sound`. -/
theorem bagPutsAndTakes : Obligations.BagPutsAndTakes := by
  intro s b bg tm
  refine ⟨?put, ?place, fun key hp => ?share, ?take, claim_length bg, ?land⟩
  case put =>
    intro r x d hr ha hb hc ht hk ho hh hin hp
    have hm := mayTake_of_only ha (putReleased_of_put hk hh) hb hc
    rw [exec_bagPutArbitrate hr hm hk, arbitratePut_of_sound hb ht ho hin hp]
    refine ⟨fun hf => ?_, fun hf hmode => ?_⟩
    · simp only [hf, Bool.false_eq_true, if_false]
    · simp only [hf, hmode, if_true, putResult_value]
  case place =>
    intro data
    exact ⟨rfl, rfl, place_claims bg data, agetD_aset_self .., agetD_aset_self .., _, rfl, rfl, rfl, rfl, rfl, rfl, rfl⟩
  case share => simp only [Bag.shareFor, hp, Bag.home]
  case take =>
    intro r c block off d hr ha hb hc ht hk hf n got
    have hm := mayTake_of_only ha (putReleased_of_other (s := s) fun x e => by rw [hk]; exact fun h => nomatch h) hb hc
    rw [exec_bagTakeClaim hr hm hk]
    refine ⟨fun hn => ?_, fun hn hq ho hp => ?_⟩
    · simp only [claimTake, hb, ht, hf, show bits block.toNat 12 0 = 0 from hn, if_true, putResult_value]
    · rw [claimTake_of_sound hb ht hf hn hq ho hp]
      rfl
  case land =>
    rintro c t x r hrun hl hx rfl hb ht hr hw hm ho hd hp
    have hland := landTake_of_sound (c := c) hb ht hr hw hl hm ho hd hp
    have hrun' : ((landTake s c t x).chan c).run = some (.take { t with landed := t.landed + 1 }) := by
      rw [hland, State.chan, landed_chans]
      exact congrArg Chan.run (chan_modChan_self ..)
    refine ⟨closeTake (landTake s c t x) c, ?_, ?_, ?_, ?_⟩
    · show execBagTakeLand c s = _
      simp only [execBagTakeLand, hrun, hx]
    · rw [closeTake_rest, hland]
      simp [recordMoved, clearSlot, countServed, State.spWrite, hb]
    · rw [closeTake_run hrun']
      obtain ⟨hlt, -⟩ := List.getElem?_eq_some_iff.1 hx
      dsimp only
      congr 1
      exact propext (by omega)
    · rw [closeTake_mem, hland]
      exact landed_mem_congr (recordMoved_mem ..) rfl ..

end Sys2Proof.Machine

/-! SUPPORT. The lives of bags (11 R231 to R248; 12 R271): creation and removal, queries, records on their way to their slots,
clears and iterations. -/

namespace Sys2Proof.Machine

/-! ## What the dealer's part leaves alone (16 R372) -/

theorem countXl_bags (s : State) (fn va : Nat) (x : Xl) (w first : Bool) : (countXl s fn va x w first).bags = s.bags := by
  simp only [countXl, countLine]
  repeat' split
  all_goals rfl

/-- A read of virtual memory leaves the bags alone. -/
theorem bags_of_virtRead {s t : State} {fn va n : Nat} {acc : Acc} {stay : Bool} {bs : List Byte}
    (h : virtRead s fn va n acc stay = .ok (t, bs)) : t.bags = s.bags := by
  rw [virtRead_eq] at h
  refine List.foldlRecOn (motive := fun r : Except Miss (State × List Byte) => ∀ t bs, r = .ok (t, bs) → t.bags = s.bags)
    _ _ ?_ ?_ t bs h
  · rintro _ _ ⟨⟩; rfl
  · intro r hr p _ t bs e
    revert e
    fun_cases readPiece fn va acc stay r p <;> intro e
    case case4 u cs _ _ _ => cases e; rw [countXl_bags]; exact hr _ _ rfl
    all_goals cases e

@[simp] theorem func_modFunc_self (s : State) (fn : Nat) (f : Func → Func) : (s.modFunc fn f).func fn = f (s.func fn) :=
  agetD_aset_self ..

@[simp] theorem signal_bags (s : State) (fn vec : Nat) : (signal s fn vec).bags = s.bags := by
  unfold signal
  repeat' split
  all_goals rfl

@[simp] theorem signal_bagTable (s : State) (fn vec : Nat) : ((signal s fn vec).func fn).bagTable = (s.func fn).bagTable := by
  unfold signal
  split
  · rfl
  · split
    · rfl
    · rw [func_modFunc_self]
      split <;> rfl

@[simp] theorem replyOpen_bags (s : State) (fn : Nat) : (replyOpen s fn).bags = s.bags := by simp [replyOpen, reply]
@[simp] theorem replyOpen_bagTable (s : State) (fn : Nat) : ((replyOpen s fn).func fn).bagTable = (s.func fn).bagTable := by
  simp only [replyOpen, reply, signal_bagTable, func_modFunc_self]
  rfl

/-! ## Handles (11 R233) -/

/-- The handle of a bag names its controller, and is not 0. -/
theorem handleBag_handleOf {b : BagId} {bg : Bag} (hf : bg.func < 128) (hd : b.die < 8) (hs : b.slot < 256)
    (hg : bg.gen < 2 ^ 14) (h0 : 0 < bg.gen) : handleBag (handleOf b bg) = b ∧ handleOf b bg ≠ 0 := by
  have hn : (handleOf b bg).toNat = bg.func * 2 ^ 25 + b.die * 2 ^ 22 + b.slot * 2 ^ 14 + bg.gen := by
    rw [handleOf, BitVec.toNat_ofNat, Nat.mod_eq_of_lt (by omega)]
  refine ⟨?_, fun h => ?_⟩
  · simp only [handleBag, hn, bits, Nat.shiftRight_eq_div_pow]
    have hdie : (bg.func * 2 ^ 25 + b.die * 2 ^ 22 + b.slot * 2 ^ 14 + bg.gen) / 2 ^ 22 % 2 ^ (24 + 1 - 22) = b.die := by omega
    have hslot : (bg.func * 2 ^ 25 + b.die * 2 ^ 22 + b.slot * 2 ^ 14 + bg.gen) / 2 ^ 14 % 2 ^ (21 + 1 - 14) = b.slot := by omega
    rw [hdie, hslot]
  · rw [h] at hn
    simp only [BitVec.ofNat_eq_ofNat, BitVec.toNat_ofNat] at hn
    omega

/-- A bag is live for its function under its handle. -/
theorem liveBag_handleOf {s : State} {b : BagId} {bg : Bag} (hb : aget b s.bags = some bg) (hh : handleBag (handleOf b bg) = b)
    (h0 : handleOf b bg ≠ 0) : liveBag s bg.func (handleOf b bg) = some (b, bg) := by
  simp only [liveBag, hh, hb, h0, ne_eq, not_false_eq_true, decide_true, Bool.and_self, if_true]

theorem handleBag_of_liveBag {s : State} {fn : Nat} {handle : Word} {b : BagId} {bg : Bag}
    (h : liveBag s fn handle = some (b, bg)) : handleBag handle = b ∧ aget b s.bags = some bg := by
  revert h
  fun_cases liveBag s fn handle
  case case1 e _ => rintro ⟨⟩; exact ⟨rfl, e⟩
  all_goals exact fun h => nomatch h

theorem aget_append_of_none {κ α : Type} [DecidableEq κ] {k : κ} (v : α) : ∀ {l : List (κ × α)}, aget k l = none →
    aget k (l ++ [(k, v)]) = some v
  | [], _ => by simp [aget]
  | (k', v') :: t, h => by
    by_cases hk : k' = k
    · simp [aget, hk] at h
    · simp only [aget, hk, if_false] at h
      simp only [List.cons_append, aget, hk, if_false, aget_append_of_none v h]

/-! ## Creation and removal (11 R231 to R234) -/

/-- A bag as its descriptor v describes it, before its first put. -/
def bornBag (fn desc gen row v : Nat) : Bag :=
  ⟨fn, desc, if gen < 16383 then gen + 1 else 1, bits v 31 0, bits v 63 32, bits v 95 64, bits v 97 96, bits v 159 128,
    bits v 160 160, row, 0, 0, 0, 0, [], [], [], 0, [], [], 0, 0, none, [], none, none⟩

/-- What a descriptor must be for a bag (11 R231). -/
structure GoodDesc (desc v : Nat) : Prop where
  aligned : desc % 4 = 0
  rsize : bits v 31 0 = 32 ∨ bits v 31 0 = 64 ∨ bits v 31 0 = 128
  capPos : 0 < bits v 63 32
  capLe : bits v 63 32 ≤ 2 ^ 28
  policy : bits v 97 96 ≠ 3
  bound : 1024 / bits v 31 0 ≤ bits v 159 128
  low : bits v 127 98 = 0
  high : bits v 191 161 = 0

/-- The lowest bit of a number that is set. -/
theorem find?_lowest_bit {n low : Nat} (hl : low < 32) (hb : bit n low = true) (h : ∀ i, i < low → bit n i = false) :
    (List.range 32).find? (fun i => bit n i) = some low := by
  rw [List.find?_range_eq_some]
  exact ⟨hb, List.mem_range.2 hl, fun i hi => by simp [h i hi]⟩

/-- The state with a new bag under its descriptor; rest are the controllers of its die that are still free. -/
def withNewBag (s : State) (id : BagId) (bg : Bag) (rest : List (Nat × Nat)) : State :=
  ({ s with bags := s.bags ++ [(id, bg)], freeBags := aset id.die rest s.freeBags } : State).modFunc bg.func fun f =>
    { f with bagTable := aset bg.desc (handleOf id bg) f.bagTable }

theorem make_of_good {s s0 : State} {fn desc row v low slot gen : Nat} {rest : List (Nat × Nat)} (hg : GoodDesc desc v)
    (hl : low < 32) (hb : bit (bits v 95 64) low = true) (hz : ∀ i, i < low → bit (bits v 95 64) i = false)
    (hfree : freeOf s (low / 4) = (slot, gen) :: rest)
    (hrows : rowsFree s fn row ((bits v 63 32 + 1024 / bits v 31 0 - 1) / (1024 / bits v 31 0)) (bits v 95 64) = true) :
    let bg := bornBag fn desc gen row v
    let id : BagId := ⟨low / 4, slot⟩
    createBag.make s fn desc row s0 v = some (withNewBag s0 id bg rest, handleOf id bg) := by
  intro bg id
  obtain ⟨hal, hrs, hc0, hc, hp, hbd, hlo, hhi⟩ := hg
  have hspread : bits v 95 64 ≠ 0 := fun h => by simp [h, bit] at hb
  have hdie : ((List.range 8).map fun k => (low / 4 + k) % 8).find? (fun d => freeOf s d ≠ []) = some (low / 4) := by
    have h0 : low / 4 % 8 = low / 4 := by omega
    rw [show List.range 8 = 0 :: [1, 2, 3, 4, 5, 6, 7] from rfl, List.map_cons, Nat.add_zero, h0, List.find?_cons_of_pos]
    simp [hfree]
  have hrs' : (bits v 31 0 = 32 || bits v 31 0 = 64 || bits v 31 0 = 128) = true := by simpa [or_assoc] using hrs
  simp only [createBag.make, find?_lowest_bit hl hb hz, Option.getD_some, hdie, hfree, hrows]
  rw [if_neg]
  · rfl
  · simp only [hal, hrs', hspread, hp, hlo, hhi, ne_eq, not_true_eq_false, Nat.not_lt.2 hc, Nat.not_lt.2 hbd,
      Nat.pos_iff_ne_zero.1 hc0]
    decide

theorem exec_bagCreateRequest {s s0 t : State} {fn desc row : Nat} {bs : List Byte} {handle : Word}
    (ht : aget desc (s.func fn).bagTable = none) (hf : funcReady s fn = true) (hr : virtRead s fn desc 24 .read = .ok (s0, bs))
    (hm : createBag.make s fn desc row s0 (natOfBytes bs) = some (t, handle)) :
    exec (.bagCreateRequest fn desc row) s = .next (replyOpen t fn) := by
  show execBagCreateRequest fn desc row s = _
  simp [execBagCreateRequest, hf, ht, createBag, hr, hm]

theorem exec_bagRemoveRequest {s : State} {fn desc : Nat} {handle : Word} {b : BagId} {bg : Bag}
    (ht : aget desc (s.func fn).bagTable = some handle) (hf : funcReady s fn = true) (hb : liveBag s fn handle = some (b, bg))
    (hi : bg.iter = none) (hq : bg.iterQ = []) (hc : ∀ r ∈ bg.recs, r.claimed = false) :
    exec (.bagRemoveRequest fn desc) s = .next (replyOpen (removeBag s b bg) fn) := by
  have hany : bg.recs.any (·.claimed) = false := List.any_eq_false.2 fun r hr => by simp [hc r hr]
  show execBagRemoveRequest fn desc s = _
  simp [execBagRemoveRequest, hf, ht, hb, hi, hq, hany]

theorem liveBag_of_none {s : State} {handle : Word} (h : aget (handleBag handle) s.bags = none) (fn : Nat) :
    liveBag s fn handle = none := by
  simp only [liveBag, h]

/-! ## Changes of one bag -/

/-- Two changes of a bag that agree on it are one change. -/
theorem modBag_congr {s : State} {b : BagId} {bg : Bag} (hb : aget b s.bags = some bg) {f g : Bag → Bag} (h : f bg = g bg) :
    s.modBag b f = s.modBag b g := by
  simp only [State.modBag, amod_congr h hb]

/-! ## Queries (11 R241, R247, R248) -/

section
variable {s : State} {r : BagReq} {b : BagId} {bg : Bag}

theorem exec_bagQueryAccept (hr : s.bagReqs = [r]) (ha : r.after = none) (hm : mayTake s 0 r = true) :
    exec (.bagQueryAccept 0) s = .next (acceptQuery s r) := by
  show execBagQueryAccept 0 s = _
  simp [execBagQueryAccept, hr, ha, hm]

/-- What the arbiter makes of a query of a live bag. -/
theorem queries_of_live (hr : s.bagReqs = [r]) (ha : r.after = none) (hb : liveBag s r.func r.handle = some (b, bg))
    (hc : bg.clear = none) (hk : ∀ x d, r.ask ≠ .put x d none) : exec (.bagQueryAccept 0) s = .next (acceptQuery s r) :=
  exec_bagQueryAccept hr ha (mayTake_of_only ha (putReleased_of_other hk) hb hc)

theorem acceptQuery_of_cut (hb : liveBag s r.func r.handle = some (b, bg)) (hk : r.ask = .cut) : acceptQuery s r =
    replied (s.modBag b fun y => { y with cuts := aset bg.seq bg.claims bg.cuts }) r bg.seq := by
  obtain ⟨-, hbg⟩ := handleBag_of_liveBag hb
  rw [modBag_congr hbg (g := fun y => { y with cuts := aset y.seq y.claims y.cuts }) rfl]
  simp only [acceptQuery, hb, hk]
  rfl

end

/-! ## Records, clears and iterations (11 R236, R242, R243; 12 R271) -/

theorem markDirty_of_disabled {s : State} {fn : Nat} (h : (s.func fn).dirtyEn = false) (loc n : Nat) : markDirty s fn loc n = s := by
  simp [markDirty, h]

section
variable {s : State} {b : BagId} {bg : Bag} (hb : aget b s.bags = some bg)
include hb

theorem exec_bagRecordWrite {seq : Nat} {r : BagRec} (hr : bg.recs.find? (fun r => r.seq = seq) = some r)
    (hw : r.written = false) (hdirty : (s.func bg.func).dirtyEn = false) :
    let d := bg.dpa s (bg.locOf r.row + r.slot * bg.rsize)
    let k := engineLane bg.func true
    mayServe s (pchOf d) k = true → (s.pch (pchOf d)).served k = s.pch (pchOf d) →
    exec (.bagRecordWrite b seq) s = .next ((dramWrite s d r.data).modBag b fun y =>
      { y with recs := y.recs.map fun x => if x.seq = seq then { x with written := true, data := [] } else x }) := by
  intro d k hm hq
  have hserved : countServed (placeWrite s (.dram d (some bg.func)) r.data) (pchOf d) k = dramWrite s d r.data := by
    simp only [placeWrite, markDirty_of_disabled hdirty]
    exact countServed_of_quiet (s := dramWrite s d r.data) hq
  show execBagRecordWrite b seq s = _
  simp only [execBagRecordWrite, hb, hr, hw, Bool.false_eq_true, if_false]
  rw [if_neg (by simpa using hm)]
  exact congrArg (fun t : State => Host.Outcome.next (t.modBag b _)) hserved

theorem exec_bagClearPerform {n : Nat} (hc : bg.clear = some n) (hi : bg.iter = none) (hr : ∀ r ∈ bg.recs, r.claimed = false) :
    exec (.bagClearPerform b) s = .next { s.modBag b fun y =>
        { y with recs := [], rows := [], resident := 0, res := [], ptr := 0, clear := none } with
      answers := s.answers ++ [(n, ⟨none, 0, []⟩)], bagReqs := s.bagReqs.filter fun x => x.id ≠ n } := by
  have hany : bg.recs.any (·.claimed) = false := List.any_eq_false.2 fun r hr' => by simp [hr r hr']
  show execBagClearPerform b s = _
  simp only [execBagClearPerform, hb, hc, hi, hany, Option.isSome_none, Bool.or_false, Bool.false_eq_true, if_false]
  rfl

theorem exec_bagIterationStart {q : IterReq} {rest : List IterReq} (hi : bg.iter = none) (hq : bg.iterQ = q :: rest)
    (hc : bg.clear = none) : exec (.bagIterationStart b) s = .next (s.modBag b fun y => { y with
      iter := some (q.no, q.cut, q.run), iterQ := rest, recs := y.recs.map fun r => { r with seen := false } }) := by
  show execBagIterationStart b s = _
  simp only [execBagIterationStart, hb, hi, hq, hc, Option.isSome_none, Bool.false_eq_true, if_false]
  exact congrArg _ (modBag_congr hb (by simp only [Bag.startNext, hq]))

theorem exec_bagIterationEnd {m cut n : Nat} {r : NbRun} (hi : bg.iter = some (m, cut, n)) (hr : aget n s.runs = some r)
    (hu : ∀ u ∈ r.units, u.2.ended = true) : exec (.bagIterationEnd b) s = .next { s.modBag b fun y =>
      { y with iter := none, ended := y.ended + 1, last := some (decide (r.stops ≠ []), r.visited) } with
      runs := adel n s.runs } := by
  show execBagIterationEnd b s = _
  simp only [execBagIterationEnd, hb, hi, hr, List.all_eq_true.2 hu, if_true]
  rfl

end

/-- Settles O36: creation by `make_of_good`, removal by `exec_bagRemoveRequest`, queries by `queries_of_live`, and one lemma
for each of the other events. -/
theorem bagLives : Obligations.BagLives := by
  refine ⟨⟨?create, ?remove⟩, fun s b bg => ⟨?query, fun seq r hb hr hw hd => exec_bagRecordWrite hb hr hw hd,
    fun n hb hc hi hr => exec_bagClearPerform hb hc hi hr, fun q rest hb hi hq hc => exec_bagIterationStart hb hi hq hc,
    fun m cut n r hb hi hr hu => exec_bagIterationEnd hb hi hr hu⟩⟩
  case create =>
    intro s s0 fn desc row low slot gen rest bs hfn htab hready hread hal v rsize cap spread bound hrs hc0 hc hp hbd hlo hhi hlow
      hbit hbits hfree hslot hgen hnone hrows
    have hmake := make_of_good (s0 := s0) ⟨hal, hrs, hc0, hc, hp, hbd, hlo, hhi⟩ hlow hbit hbits hfree hrows
    have hgen' : (bornBag fn desc gen row v).gen < 2 ^ 14 ∧ 0 < (bornBag fn desc gen row v).gen := by
      simp only [bornBag]
      split <;> omega
    obtain ⟨hbag, h0⟩ := handleBag_handleOf (b := ⟨low / 4, slot⟩) (bg := bornBag fn desc gen row v) hfn
      (by dsimp only; omega) hslot hgen'.1 hgen'.2
    refine ⟨replyOpen (withNewBag s0 ⟨low / 4, slot⟩ (bornBag fn desc gen row v) rest) fn,
      handleOf ⟨low / 4, slot⟩ (bornBag fn desc gen row v), bornBag fn desc gen row v, exec_bagCreateRequest htab hready hread hmake, ?_, ?_, rfl, rfl, rfl, rfl, rfl, rfl,
      rfl, rfl, rfl, rfl, ?_⟩
    · rw [replyOpen_bagTable]
      exact (congrArg (fun f : Func => aget desc f.bagTable) (func_modFunc_self ..)).trans (aget_aset_self ..)
    · refine liveBag_handleOf ?_ hbag h0
      rw [replyOpen_bags]
      exact aget_append_of_none _ ((congrArg (aget _) (bags_of_virtRead hread)).trans hnone)
    · rw [replyOpen_mem]
      exact (mem_of_virtRead hread : s0.mem = s.mem)
  case remove =>
    intro s fn desc handle b bg ht hf hb hi hq hc
    have hgone : aget b (removeBag s b bg).bags = none := aget_adel_self ..
    refine ⟨exec_bagRemoveRequest ht hf hb hi hq hc, hgone, rfl, liveBag_of_none ?_ fn⟩
    rw [(handleBag_of_liveBag hb).1, hgone]
  case query =>
    intro r hr ha hb hc
    refine ⟨fun d hk => ?_, fun n d hk => ?_, fun n d hk => ?_, fun hk => ?_, fun sel hk => ?_, fun hk hle => ?_⟩
    all_goals
      have hq := queries_of_live hr ha hb hc fun x d h => by rw [hk] at h; exact nomatch h
      rw [hq]
    · simp only [acceptQuery, hb, hk, putResult_value]
    · simp only [acceptQuery, hb, hk, putResult_value]
    · simp only [acceptQuery, hb, hk]; rfl
    · exact ⟨_, congrArg _ (acceptQuery_of_cut hb hk)⟩
    · simp only [acceptQuery, hb, hk]; rfl
    · simp only [acceptQuery, hb, hk, hle, if_true]; rfl

end Sys2Proof.Machine

/-! SUPPORT. Near-bank runs on their units (12 R251, R254, R259, R260, R266, R269 to R272; 22 R397): starts, suspensions, stops and
ends, and the rows that join a unit's list. -/

namespace Sys2Proof.Machine

/-! ## Reading a part that has been changed -/

@[simp] theorem pch_modPch_self (s : State) (p : Nat) (f : Pch → Pch) : (s.modPch p f).pch p = f (s.pch p) := agetD_aset_self ..

/-- Two changes of a pseudo-channel that agree on it are one change. -/
theorem modPch_congr {s : State} {p : Nat} {f g : Pch → Pch} (h : f (s.pch p) = g (s.pch p)) : s.modPch p f = s.modPch p g := by
  simp only [State.modPch, h]

theorem amod_of_same {κ α : Type} [DecidableEq κ] {k : κ} {v : α} {f : α → α} (hf : f v = v) : ∀ {m : List (κ × α)},
    aget k m = some v → amod k f m = m
  | (k', v') :: m, h => by
    by_cases hk : k' = k
    · simp only [aget, hk, if_true, Option.some.injEq] at h
      simp only [amod, hk, if_true, h, hf]
    · simp only [aget, hk, if_false] at h
      simp only [amod, hk, if_false, amod_of_same hf h]

section
variable {s : State} {n : Nat} {r : NbRun} (hr : aget n s.runs = some r)
include hr

theorem modRun_of_same {f : NbRun → NbRun} (hf : f r = r) : s.modRun n f = s := by
  simp only [State.modRun, amod_of_same hf hr]

/-- Two changes of a run that agree on it are one change. -/
theorem modRun_congr {f g : NbRun → NbRun} (h : f r = g r) : s.modRun n f = s.modRun n g := by
  simp only [State.modRun, amod_congr h hr]

theorem aget_modRun (f : NbRun → NbRun) : aget n (s.modRun n f).runs = some (f r) := by
  rw [State.modRun_runs, aget_amod_self, hr, Option.map_some]

end

theorem modRun_modRun (s : State) (n : Nat) (f g : NbRun → NbRun) : (s.modRun n f).modRun n g = s.modRun n fun r => g (f r) := by
  simp only [State.modRun, amod_amod]

/-- The run that a unit performs, and its part there. -/
theorem activeRun_eq {s : State} {p n : Nat} {r : NbRun} {x : UnitRun} (h : activeRun s p = some (n, r, x)) :
    aget n s.runs = some r ∧ r.unit p = some x ∧ (s.pch p).active = true := by
  revert h
  fun_cases activeRun s p
  case case2 _ _ _ hr _ hx ha => rintro ⟨⟩; exact ⟨hr, hx, ha⟩
  all_goals exact fun h => nomatch h

/-! ## Calls for rows (12 R270) -/

theorem bben_congr {r r' : NbRun} (h : r'.word = r.word) : r'.bben = r.bben := by rw [NbRun.bben, NbRun.bben, h]

/-- A call of a run without a barrier is only counted. -/
theorem rowLanded_of_no_barrier {s : State} {n : Nat} {r : NbRun} (hr : aget n s.runs = some r) (hb : r.bben = false) :
    rowLanded s n = s.modRun n fun r => { r with landedN := r.landedN + 1 } := by
  simp only [rowLanded, hr, hb, Bool.not_false, if_true]
  exact modRun_congr hr rfl

section
variable {s : State} {n : Nat} {r : NbRun} (hr : aget n s.runs = some r) (hb : r.bben = false)
include hr hb

/-- A run without a barrier only counts its calls. -/
theorem iter_rowLanded (k : Nat) :
    iter (fun s => rowLanded s n) k s = s.modRun n fun r => { r with landedN := r.landedN + k } := by
  induction k generalizing s r with
  | zero => exact (modRun_of_same hr rfl).symm
  | succ k ih =>
    rw [iter, rowLanded_of_no_barrier hr hb, ih (aget_modRun hr _) ((bben_congr (by rfl)).trans hb), modRun_modRun]
    refine modRun_congr hr ?_
    dsimp only
    rw [Nat.add_assoc, Nat.add_comm 1 k]

theorem payOwed_of_no_barrier (p : Nat) : ∃ us m, payOwed s n p = s.modRun n fun r => { r with units := us, landedN := m } := by
  have same : s = s.modRun n fun r' => { r' with units := r.units, landedN := r.landedN } := (modRun_of_same hr rfl).symm
  unfold payOwed
  split
  · split
    · rw [modUnit, iter_rowLanded (aget_modRun hr _) ((bben_congr (by rfl)).trans hb), modRun_modRun]
      exact ⟨_, _, modRun_congr hr rfl⟩
    · exact ⟨_, _, same⟩
  · exact ⟨_, _, same⟩

/-- Rows of a unit that are over count as completed or skipped; of their run nothing changes besides but its units' parts and
the calls made. -/
theorem rowsOver_of_no_barrier (p done skip : Nat) : ∃ us m, rowsOver s n p done skip = s.modRun n fun r =>
    { r with done := r.done + done, skip := r.skip + skip, units := us, landedN := m } := by
  obtain ⟨us, m, h⟩ := payOwed_of_no_barrier (s := modUnit (s.modRun n fun r =>
    { r with done := r.done + done, skip := r.skip + skip }) n p fun x =>
      { x with cur := none, bagRow := none, owed := x.owed + done + skip }) (aget_modRun (aget_modRun hr _) _) ((bben_congr (by rfl)).trans hb) p
  refine ⟨us, m, ?_⟩
  rw [rowsOver, h, modUnit, modRun_modRun, modRun_modRun]

theorem skipRow_of_no_barrier :
    skipRow s n = s.modRun n fun r => { r with skip := r.skip + 1, landedN := r.landedN + 1 } := by
  rw [skipRow, rowLanded_of_no_barrier (aget_modRun hr _) ((bben_congr (by rfl)).trans hb), modRun_modRun]

end

/-! ## The end of a run (12 R270) -/

theorem closeRun_rest (s : State) (n : Nat) : closeRun s n = { s with runs := (closeRun s n).runs } := by
  unfold closeRun
  split
  · split <;> rfl
  · rfl

@[simp] theorem closeRun_pch (s : State) (n p : Nat) : (closeRun s n).pch p = s.pch p := by
  rw [closeRun_rest]
  rfl

/-- A run that is not over is as it was. -/
theorem aget_of_closeRun {s : State} {n : Nat} {r' : NbRun} (h : aget n (closeRun s n).runs = some r') :
    aget n s.runs = some r' := by
  revert h
  fun_cases closeRun s n
  case case1 => exact fun h => absurd ((aget_adel_self n s.runs).symm.trans h) nofun
  all_goals exact id

/-! ## Units (12 R251, R254, R260, R261, R266, R272) -/

section
variable {s : State} {p n : Nat} {r : NbRun} {x : UnitRun}

theorem exec_nbRunStart {rest : List Nat} (hq : (s.pch p).runq = n :: rest) (hr : aget n s.runs = some r) (hb : r.bag = none)
    (ha : (s.pch p).active = false) (hreq : (s.pch p).qreq = false) : exec (.nbRunStart p) s = .next (s.modPch p fun u => { u with
      active := true, store := r.ops, pc := 0, n := List.replicate 8 0, l := r.linit, m := 0, susp := none, fresh := false,
      wait := none }) := by
  show execNbRunStart p s = _
  simp only [execNbRunStart, hq, hr, ha, hreq, NbRun.due, hb, Bool.not_true, Bool.or_false, Bool.false_eq_true, if_false]

theorem exec_nbRowStart {w : RowRef} {rest : List RowRef} (ha : activeRun s p = some (n, r, x)) (hc : x.cur = none)
    (hbr : x.bagRow = none) (hm : x.noMore = false) (hreq : (s.pch p).qreq = false) (hs : (s.pch p).susp = none)
    (hb : r.bag = none) (hx : x.rows = w :: rest) : exec (.nbRowStart p) s = .next ((modUnit s n p fun x =>
      { x with cur := some w, rows := rest, begun := true }).modPch p fun u =>
      { u with l := r.linit, m := if r.rsize = 0 then 0 else 2 ^ (1024 / r.rsize) - 1 }) := by
  show execNbRowStart p s = _
  simp only [execNbRowStart, ha, hc, hbr, hm, unitGoes, hreq, hs, hb, hx, Option.isSome_none, Option.isNone_none, Bool.not_false,
    Bool.and_self, Bool.not_true, Bool.or_self, Bool.false_eq_true, if_false]
  rfl

theorem exec_nbArbitrationSuspend (ha : (s.pch p).active = true) (hs : (s.pch p).susp = none) (hw : unitAway s p = false)
    (hd : arbDue s p = true) : exec (.nbArbitrationSuspend p) s = .next (s.modPch p fun u => { u with susp := some 0 }) := by
  show execNbArbitrationSuspend p s = _
  simp only [execNbArbitrationSuspend, ha, hs, hw, hd, Option.isNone_none, Bool.not_false, Bool.and_self, if_true]

theorem exec_nbResume {k : Nat} (hs : (s.pch p).susp = some k) (hreq : (s.pch p).qreq = false)
    (h : (s.pch p).quota ≤ k ∨ (s.pch p).waits = []) :
    exec (.nbResume p) s = .next (s.modPch p fun u => { u with susp := none, fresh := true }) := by
  show execNbResume p s = _
  simp only [execNbResume, hs, hreq, Bool.false_eq_true, if_false, Bool.or_eq_true, decide_eq_true_eq, h, if_true]

/-- What the record of a stop says (12 R272). -/
def stopFault (s : State) (p : Nat) (r : NbRun) (x : UnitRun) (code : Nat) : FaultInfo where
  code := code
  felem := (s.pch p).pc % 256 + 256 * p
  faddr := BitVec.ofNat 64 (match x.cur with
    | some w => r.rowVa 0 w.i
    | none => 0)

/-- A run has stopped on a unit, whose rows have yet to be counted as skipped. -/
def runStopped (s : State) (n p code : Nat) : State :=
  (modUnit (s.modRun n fun r => { r with stops := r.stops ++ [(p, code)] }) n p fun x =>
    { x with rows := [], noMore := true }).modPch p fun u => { u with wait := none }

@[simp] theorem runStopped_mem (s : State) (n p code : Nat) : (runStopped s n p code).mem = s.mem := rfl
@[simp] theorem runStopped_faults (s : State) (n p code : Nat) : (runStopped s n p code).faults = s.faults := rfl

theorem stopUnit_of_active (ha : activeRun s p = some (n, r, x)) (code : Nat) : stopUnit s p code =
    rowsOver (runStopped (runFault s r (stopFault s p r x code) false 0) n p code) n p 0 (1 + x.rows.length) := by
  simp only [stopUnit, ha]
  rfl

theorem runFault_runs (s : State) (r : NbRun) (f : FaultInfo) (wait : Bool) (page : Nat) :
    (runFault s r f wait page).runs = s.runs := by
  rw [runFault, sendFault_rest]

theorem runFault_faults (s : State) (r : NbRun) (f : FaultInfo) : ∃ y, (runFault s r f false 0).faults.raw = s.faults.raw ++ [y] ∧
    y.code = f.code ∧ y.felem = f.felem := by
  rw [runFault, sendFault_faults]
  exact ⟨_, rfl, rfl, rfl⟩

/-- A unit that stops skips its row and those that it has not started, and sends one record. -/
theorem stopUnit_of_no_barrier (ha : activeRun s p = some (n, r, x)) (hb : r.bben = false) (code : Nat) :
    ∃ r' f, (stopUnit s p code).mem = s.mem ∧ aget n (stopUnit s p code).runs = some r' ∧ r'.stops = r.stops ++ [(p, code)] ∧
      r'.done = r.done ∧ r'.skip = r.skip + 1 + x.rows.length ∧ (stopUnit s p code).faults.raw = s.faults.raw ++ [f] ∧
      f.code = code ∧ f.felem = (s.pch p).pc % 256 + 256 * p := by
  obtain ⟨hr, -, -⟩ := activeRun_eq ha
  obtain ⟨f, hraw, hcode, helem⟩ := runFault_faults s r (stopFault s p r x code)
  have hr1 : aget n (runFault s r (stopFault s p r x code) false 0).runs = some r := by rw [runFault_runs, hr]
  have hr2 : aget n (runStopped (runFault s r (stopFault s p r x code) false 0) n p code).runs = _ :=
    aget_modRun (aget_modRun hr1 _) _
  obtain ⟨us, m, hover⟩ := rowsOver_of_no_barrier hr2 ((bben_congr (by rfl)).trans hb) p 0 (1 + x.rows.length)
  rw [stopUnit_of_active ha, hover]
  refine ⟨_, f, ?_, aget_modRun hr2 _, rfl, rfl, (Nat.add_assoc ..).symm, ?_, hcode, helem⟩
  · rw [State.modRun_mem, runStopped_mem, runFault_mem]
  · rw [State.modRun_faults, runStopped_faults, hraw]

theorem exec_nbRunStop (hu : unitReady s p = true)
    (hpc : (s.pch p).store.length ≤ (s.pch p).pc) :
    exec (.nbRunStop p) s = .next (stopUnit { s with focus := .none } p 0x1D) := by
  show execNbRunStop p s = _
  simp only [execNbRunStop, hu, hpc, decide_true, Bool.true_or, Bool.and_self, if_true]

/-- A run that has ended on a unit: it gives the place free. -/
def unitEnded (s : State) (n p : Nat) : State :=
  (modUnit s n p fun x => { x with ended := true, noMore := true }).modPch p fun u => { u with
    runq := u.runq.drop 1, active := false, susp := none, fresh := false, wait := none }

theorem exec_nbRunEnd (ha : activeRun s p = some (n, r, x)) (hc : x.cur = none) (hbr : x.bagRow = none) (he : x.emits = 0)
    (hx : x.rows = []) (hb : r.bag = none) (hw : r.waiting = []) :
    exec (.nbRunEnd p) s = .next (closeRun (unitEnded s n p) n) := by
  show execNbRunEnd p s = _
  simp only [execNbRunEnd, ha, hc, hbr, he, hx, hb, hw]
  rfl

theorem unit_of_unitEnded {r' : NbRun} (hr : aget n s.runs = some r) (hx : r.unit p = some x)
    (h : aget n (unitEnded s n p).runs = some r') : r'.unit p = some { x with ended := true, noMore := true } := by
  obtain rfl := Option.some.inj ((aget_modRun hr _).symm.trans h)
  exact (aget_amod_self ..).trans (congrArg (Option.map _) hx)

/-! ## The status block (12 R270) -/

theorem exec_nbStatusWrite {tm : Team} (hr : aget n s.runs = some r) (hst : r.sten = true) (hw : r.status = false)
    (hb : r.bag = none) (hf : r.finished = true) (haway : r.away = false) (hl : r.last = false) (hn : r.heldN = 0)
    (ho : s.holds = []) (ht : aget r.team s.teams = some tm) :
    exec (.nbStatusWrite n) s = .next (closeRun ((s.spWrite r.team tm r.st (bytesOfNat 16 r.statusBlock)).modRun n fun r =>
      { r with status := true, last := false, heldSt := false }) n) := by
  show execNbStatusWrite n s = _
  simp only [execNbStatusWrite, hr, hst, hw, hb, hf, haway, hl, hn, heldRange_of_no_holds ho, writeStatus, ht]
  rfl

/-! ## Rows whose pages have been mapped, or refused (12 R259, R269) -/

theorem exec_nbRowMapped {i : Nat} {ls : List (Option Nat)} (hr : aget n s.runs = some r) (hi : i ∈ r.waiting)
    (hat : rowAt s r i = .at ls) (hx : r.unit (pchOf ((ls.headD none).getD 0)) = some x) (hm : x.noMore = false) :
    exec (.nbRowMapped n i true) s = .next (modUnit (s.modRun n fun r => { r with waiting := r.waiting.filter (· ≠ i) }) n
      (pchOf ((ls.headD none).getD 0)) fun x => { x with rows := insertRow r.late ⟨i, ls⟩ x.rows }) := by
  show execNbRowMapped n i true s = _
  simp only [execNbRowMapped, hr, List.contains_iff_mem.2 hi, hat, placeRow, hx, hm, Bool.not_true, Bool.false_eq_true, if_false]

theorem exec_nbRowMapped_refused {i : Nat} (hr : aget n s.runs = some r) (hi : i ∈ r.waiting) :
    exec (.nbRowMapped n i false) s =
      .next (closeRun (skipRow (s.modRun n fun r => { r with waiting := r.waiting.filter (· ≠ i) }) n) n) := by
  show execNbRowMapped n i false s = _
  simp only [execNbRowMapped, hr, List.contains_iff_mem.2 hi, Bool.not_true, Bool.not_false, Bool.false_eq_true, if_false, if_true]

end

/-- Where a row joins those that its unit has still to start. -/
theorem insertRow_split (late : List Nat) (w : RowRef) : ∀ ws : List RowRef, ∃ before after, ws = before ++ after ∧
    insertRow late w ws = before ++ w :: after ∧ (late.contains w.i → after = []) ∧
    (late.contains w.i = false → (∀ x ∈ before, late.contains x.i = false ∧ x.i ≤ w.i) ∧
      ∀ x, after.head? = some x → late.contains x.i ∨ w.i < x.i)
  | [] => ⟨[], [], rfl, rfl, fun _ => rfl, fun _ => ⟨fun x h => absurd h List.not_mem_nil, fun x h => nomatch h⟩⟩
  | y :: ws => by
    by_cases h : (!late.contains w.i && (late.contains y.i || decide (w.i < y.i))) = true
    · refine ⟨[], y :: ws, rfl, if_pos h, fun hl => ?_, fun _ => ⟨fun x hx => absurd hx List.not_mem_nil, fun x hx => ?_⟩⟩
      · rw [hl] at h
        exact nomatch h
      · obtain rfl : y = x := Option.some.inj hx
        simpa using (Bool.and_eq_true_iff.1 h).2
    · obtain ⟨before, after, hws, hins, hlate, hsorted⟩ := insertRow_split late w ws
      refine ⟨y :: before, after, by rw [hws, List.cons_append], ?_, hlate, fun hl => ⟨fun x hx => ?_, (hsorted hl).2⟩⟩
      · rw [insertRow, if_neg h, hins, List.cons_append]
      · rcases List.mem_cons.1 hx with rfl | hx
        · simpa only [hl, Bool.not_false, Bool.true_and, Bool.or_eq_true, decide_eq_true_eq, not_or, Bool.not_eq_true,
            Nat.not_lt] using h
        · exact (hsorted hl).1 x hx

end Sys2Proof.Machine

/-! SUPPORT. Controllers of pseudo-channels (11 R229, R230; 12 R254, R256; 15 R334; 22 R398): what a request that is performed
whole leaves, the order in which requests are served, and the share that every waiting node keeps. -/

namespace Sys2Proof.Machine

/-! ## Requests performed whole (12 R256) -/

theorem markDirty_rest (s : State) (fn loc n : Nat) : markDirty s fn loc n = { s with mem := (markDirty s fn loc n).mem } := by
  unfold markDirty
  dsimp only
  split
  · exact List.foldlRecOn (motive := fun t : State => t = { s with mem := t.mem }) _ _ rfl fun t ht _ _ => by
      rw [ht]
  · rfl

/-- A write of DRAM to a state that differs from `s` in memory alone. -/
theorem dramWrite_rest {s t : State} {d : Nat} {bs : List Byte} (h : t = { s with mem := t.mem }) :
    dramWrite t d bs = { s with mem := (dramWrite t d bs).mem } := by
  rw [h]
  rfl

theorem placeWrite_rest (s : State) (x : Xl) (bs : List Byte) : placeWrite s x bs = { s with mem := (placeWrite s x bs).mem } := by
  unfold placeWrite
  split
  · split
    · exact dramWrite_rest (markDirty_rest ..)
    · rfl
  all_goals rfl

/-- A request that writes changes memory alone. -/
theorem put_rest (q : Req) (s : State) (bs : List Byte) : q.put s bs = { s with mem := (q.put s bs).mem } := by
  unfold Req.put
  exact List.foldlRecOn (motive := fun r : State × List Byte => r.1 = { s with mem := r.1.mem }) _ _ rfl fun r hr x _ => by
    dsimp only
    exact (placeWrite_rest ..).trans (by rw [hr])

theorem bytes_of_one_part {s : State} {q : Req} (h : q.more = []) : q.bytes s = dramRead s q.loc q.len := by
  simp [Req.bytes, Req.parts, h]

/-- A write of one part is one write of DRAM. -/
theorem put_of_one_part {s : State} {q : Req} {bs : List Byte} (h : q.more = []) (hd : q.dirty = none) (hl : bs.length = q.len) :
    q.put s bs = dramWrite s q.loc bs := by
  simp [Req.put, Req.parts, h, hd, placeWrite, ← hl]

theorem poison_of_sound {s : State} (h : s.mem.dramPoison = []) (q : Req) : q.poison s = none := by
  rw [Req.poison, List.findSome?_eq_none_iff]
  intro p _
  rw [firstPoison, h, List.find?_eq_none.2 fun l _ => by simp]
  rfl

section
variable {s : State} {q : Req} (hd : s.mem.dramPoison = [])
include hd

theorem performReq_read (hw : q.write = none) :
    performReq s q = { s with answers := s.answers ++ [(q.id, ⟨none, 0, q.bytes s⟩)] } := by
  simp [performReq, hw, poison_of_sound hd]

theorem performReq_write {bs : List Byte} (hw : q.write = some bs) : performReq s q =
    { s with
      mem := (q.put s (writtenBytes q.rop (q.bytes s) bs)).mem
      answers := s.answers ++ [(q.id, ⟨none, 0, []⟩)] } := by
  simp only [performReq, hw, poison_of_sound hd, ite_self]
  rw [put_rest]
  rfl

theorem performReq_pch (p : Nat) : (performReq s q).pch p = s.pch p := by
  cases hw : q.write with
  | none => rw [performReq_read hd hw]; rfl
  | some bs => rw [performReq_write hd hw]; rfl

end

/-! ## What has passed the nodes that wait (11 R230) -/

/-- A node that waits at a controller: its direction and what `Req.who` names: the triple that `Req.lane` and `engineLane` give. -/
abbrev Waiter := Bool × Nat × Nat

theorem agetD_foldl_count (x : Waiter) : ∀ (ws : List Waiter) (l : List (Waiter × Nat)), ws.Nodup →
    agetD x 0 (ws.foldl (fun l k => aset k (agetD k 0 l + 1) l) l) = if x ∈ ws then agetD x 0 l + 1 else agetD x 0 l
  | [], l, _ => by simp
  | w :: ws, l, hn => by
    obtain ⟨hw, hn⟩ := List.nodup_cons.1 hn
    rw [List.foldl_cons, agetD_foldl_count x ws _ hn]
    by_cases hx : x = w
    · subst hx
      simp [hw]
    · simp [hx]

/-- The counts after a request is served, of a node that waits. -/
theorem agetD_passedBy {passed : List (Waiter × Nat)} {waits : List Waiter} {own x : Waiter} (hn : waits.Nodup) (hx : x ∈ waits) :
    agetD x 0 (passedBy passed waits own) = if x = own then 0 else agetD x 0 passed + 1 := by
  rw [passedBy, agetD_foldl_count x _ _ (hn.filter _)]
  by_cases h : x = own
  · subst h
    simp [agetD]
  · simp [h, hx, agetD]

theorem lanes_nodup (u : Pch) (wr : Bool) : (u.lanes wr).Nodup := List.nodup_dedup _

theorem lanes_mono {u v : Pch} (hr : ∀ q ∈ u.reqs, q ∈ v.reqs) (hd : ∀ d ∈ u.direct, d ∈ v.direct) {wr : Bool} {x : Waiter}
    (hx : x ∈ u.lanes wr) : x ∈ v.lanes wr := by
  simp only [Pch.lanes, List.mem_dedup, List.mem_filter, List.mem_append, List.mem_map] at hx ⊢
  obtain ⟨⟨q, hq, e⟩ | ⟨d, hd', e⟩, hw⟩ := hx
  · exact ⟨.inl ⟨q, hr q hq, e⟩, hw⟩
  · exact ⟨.inr ⟨d, hd d hd', e⟩, hw⟩

/-- Where every node can still be served once in every 64 requests, none has been passed 64 times. -/
theorem passed_le_of_canShare {passed : List (Waiter × Nat)} {waits : List Waiter} (h : canShare passed waits = true) {x : Waiter}
    (hx : x ∈ waits) : agetD x 0 passed ≤ 63 := by
  have h0 := List.all_eq_true.1 h 0 (List.mem_range.2 (by decide))
  simp only [decide_eq_true_eq, Nat.le_zero, List.length_eq_zero_iff, List.filter_eq_nil_iff] at h0
  have := h0 x hx
  simp only [slack] at this
  omega

theorem passed_le_of_sharesAfter {u : Pch} {k x : Waiter} (h : sharesAfter u k = true) (hx : x ∈ u.lanes k.1) :
    agetD x 0 (passedBy u.passed (u.lanes k.1) k) ≤ 63 := passed_le_of_canShare h hx

/-- Nodes that the controller need not consider now count as passed no otherwise than those that it does. -/
theorem passed_le_of_more {u v : Pch} {k x : Waiter} (h : sharesAfter u k = true) (hp : v.passed = u.passed)
    (hr : ∀ q ∈ u.reqs, q ∈ v.reqs) (hd : ∀ d ∈ u.direct, d ∈ v.direct) (hx : x ∈ u.lanes k.1) :
    agetD x 0 (v.served k).passed ≤ 63 := by
  have hle := passed_le_of_sharesAfter h hx
  rw [agetD_passedBy (lanes_nodup ..) hx] at hle
  show agetD x 0 (passedBy v.passed (v.lanes k.1) k) ≤ 63
  rw [agetD_passedBy (lanes_nodup ..) (lanes_mono hr hd hx), hp]
  exact hle

/-! ## The order of service (11 R229, R230; 12 R254; 22 R398) -/

theorem mem_fairPlaces {u : Pch} {n : Nat} (h : n ∈ fairPlaces u) : ∃ q, u.reqs[n]? = some q ∧
    (∀ x ∈ u.reqs.take n, q.src = none ∨ x.src ≠ q.src) ∧ sharesAfter (u.without n) q.lane = true := by
  obtain ⟨-, h⟩ := List.mem_filter.1 h
  split at h
  · rename_i q hq
    obtain ⟨hsrc, hshare⟩ := Bool.and_eq_true_iff.1 h
    refine ⟨q, hq, fun x hx => ?_, hshare⟩
    simpa using List.all_eq_true.1 hsrc x hx
  · exact nomatch h

theorem mem_fairPlaces_of_servesNext {u : Pch} {n : Nat} (h : servesNext u n = true) (hf : fairPlaces u ≠ []) :
    n ∈ fairPlaces u := by
  unfold servesNext at h
  split at h
  · exact absurd ‹_› hf
  · rename_i i is e
    rw [e]
    split at h
    · exact List.mem_cons.2 (.inl (by simpa using h))
    · simpa using h

theorem first_of_servesNext {u : Pch} {n : Nat} (h : servesNext u n = true) (hf : fairPlaces u = []) : n = 0 := by
  simpa [servesNext, hf] using h

/-- The requests of one channel keep their order. -/
theorem src_of_servesNext {u : Pch} {n m : Nat} {q x : Req} (h : servesNext u n = true) (hq : u.reqs[n]? = some q) (hm : m < n)
    (hx : u.reqs[m]? = some x) : q.src = none ∨ x.src ≠ q.src := by
  by_cases hf : fairPlaces u = []
  · have := first_of_servesNext h hf
    omega
  · obtain ⟨q', hq', hsrc, -⟩ := mem_fairPlaces (mem_fairPlaces_of_servesNext h hf)
    obtain rfl : q = q' := Option.some.inj (hq.symm.trans hq')
    refine hsrc x (List.mem_of_getElem? (i := m) ?_)
    rw [List.getElem?_take, if_pos hm, hx]

/-- A controller that holds a request can always serve one. -/
theorem exists_servesNext {u : Pch} (h : u.reqs ≠ []) : ∃ n, n < u.reqs.length ∧ servesNext u n = true := by
  cases e : fairPlaces u with
  | nil => exact ⟨0, List.length_pos_iff.2 h, by simp [servesNext, e]⟩
  | cons i is =>
    have hi : i ∈ fairPlaces u := by rw [e]; exact List.mem_cons_self
    refine ⟨i, List.mem_range.1 (List.mem_of_mem_filter hi), ?_⟩
    unfold servesNext
    rw [e]
    by_cases hs : u.susp.isSome <;> simp [hs]

theorem mem_delAt_of_take {α : Type} {x : α} : ∀ {l : List α} {h n : Nat}, x ∈ delAt n (l.take h) → x ∈ delAt n l
  | [], _, _, hx => by simpa using hx
  | _ :: _, 0, _, hx => absurd hx (by simp [delAt])
  | _ :: _, _ + 1, 0, hx => List.mem_of_mem_take hx
  | a :: l, h + 1, n + 1, hx => by
    rcases List.mem_cons.1 hx with rfl | hx
    · exact List.mem_cons_self
    · exact List.mem_cons_of_mem _ (mem_delAt_of_take hx)

theorem holds_passed (u : Pch) : u.holds.passed = u.passed := by
  unfold Pch.holds
  split <;> rfl

/-- What a controller may choose from, less the request that it serves, is among what it holds less that request. -/
theorem mem_without_of_holds {u : Pch} {n : Nat} : (∀ q ∈ (u.holds.without n).reqs, q ∈ (u.without n).reqs) ∧
    ∀ d ∈ (u.holds.without n).direct, d ∈ (u.without n).direct := by
  unfold Pch.holds
  split
  · exact ⟨fun q hq => mem_delAt_of_take hq, fun d hd => absurd hd List.not_mem_nil⟩
  · exact ⟨fun _ h => h, fun _ h => h⟩

/-! ## Service (12 R256) -/

theorem pch_countServed_of_listed {s : State} {p : Nat} {u : Pch} (h : aget p s.pchs = some u) (k : Waiter) :
    (countServed s p k).pch p = u.served k := by
  simp only [State.pch, countServed, agetD, aget_amod_self, h, Option.map_some, Option.getD_some]

theorem pch_of_listed {s : State} {p : Nat} {u : Pch} (h : aget p s.pchs = some u) : s.pch p = u := by
  simp only [State.pch, agetD, h, Option.getD_some]

section
variable {s : State} {p n : Nat} {q : Req}

theorem serveNth_of_direct {d : Nat × Bool × Nat × Nat} (hq : (s.pch p).holds.reqs[n]? = some q)
    (hn : servesNext (s.pch p).holds n = true) (hack : (s.pch p).qack = false)
    (hgo : (s.pch p).qreq = true ∨ unitAway s p = true) (hd : directFirst (s.pch p).holds n = some d) :
    exec (.ordinaryRequestServe ⟨p, n⟩) s = .next (s.modPch p fun u => u.turned d) := by
  show Host.Outcome.next (serveNth p n s) = _
  simp only [serveNth, hq]
  rw [if_neg (by rcases hgo with h | h <;> simp [hack, h, hn]), hd]

/-- A request has been performed, and its controller has served it. -/
def requestServed (s : State) (p n : Nat) (q : Req) : State :=
  countServed ((performReq s q).modPch p fun u => { u.without n with held := u.held - 1 }) p q.lane

theorem serveNth_of_free (hq : (s.pch p).holds.reqs[n]? = some q) (hn : servesNext (s.pch p).holds n = true)
    (hack : (s.pch p).qack = false) (hgo : (s.pch p).qreq = true ∨ unitAway s p = true)
    (hd : directFirst (s.pch p).holds n = none) :
    exec (.ordinaryRequestServe ⟨p, n⟩) s = .next (requestServed s p n q) := by
  show Host.Outcome.next (serveNth p n s) = _
  simp only [serveNth, hq]
  rw [if_neg (by rcases hgo with h | h <;> simp [hack, h, hn]), hd]
  rfl

theorem pch_requestServed (hd : s.mem.dramPoison = []) : (requestServed s p n q).pch p =
    Pch.served { (s.pch p).without n with held := (s.pch p).held - 1 } q.lane := by
  rw [requestServed, pch_countServed_of_listed (aget_aset_self ..), performReq_pch hd]

/-- No node of the direction that the controller chose from has been passed 64 times. -/
theorem passed_requestServed (hd : s.mem.dramPoison = []) (hq : (s.pch p).holds.reqs[n]? = some q)
    (hn : servesNext (s.pch p).holds n = true) (hf : fairPlaces (s.pch p).holds ≠ []) {k : Waiter}
    (hk : k ∈ ((s.pch p).holds.without n).lanes q.lane.1) : agetD k 0 ((requestServed s p n q).pch p).passed ≤ 63 := by
  obtain ⟨q', hq', -, hshare⟩ := mem_fairPlaces (mem_fairPlaces_of_servesNext hn hf)
  obtain rfl : q = q' := Option.some.inj (hq.symm.trans hq')
  obtain ⟨hr, hdir⟩ := mem_without_of_holds (u := s.pch p) (n := n)
  rw [pch_requestServed hd]
  exact passed_le_of_more hshare (v := { (s.pch p).without n with held := (s.pch p).held - 1 }) (by simp only [Pch.without, holds_passed]) hr hdir hk

theorem passed_countServed {k x : Waiter} (h : mayServe s p k = true) (hx : x ∈ (s.pch p).lanes k.1) :
    agetD x 0 ((countServed s p k).pch p).passed ≤ 63 := by
  have hshare : sharesAfter (s.pch p) k = true := by
    simp only [mayServe, Bool.and_eq_true] at h
    exact h.1.2
  cases e : aget p s.pchs with
  | none => simp [State.pch, countServed, agetD, e, Pch.reset]
  | some u =>
    rw [pch_countServed_of_listed e, ← pch_of_listed e]
    exact passed_le_of_sharesAfter hshare hx

end

/-- Settles O43: the units by one lemma for each of their events, the places of rows by `insertRow_split`, and the controllers
by `serveNth_of_free`, `src_of_servesNext` and `passed_le_of_sharesAfter`. -/
theorem unitsAndControllers : Obligations.UnitsAndControllers := by
  refine ⟨fun s p => ⟨?start, ?row, ?suspend, ?resume, ?stop, ?end_, ?status, ?mapped⟩, insertRow_split,
    fun s p => ⟨?serve, fun k h x hx => passed_countServed h hx, exists_servesNext, ?quiesce, ?quiesced, rfl, ?ratio⟩⟩
  case start => exact fun n rest r hq hr hb ha hreq => exec_nbRunStart hq hr hb ha hreq
  case row => exact fun n r x w rest ha hc hbr hm hreq hs hb hx => exec_nbRowStart ha hc hbr hm hreq hs hb hx
  case suspend => exact fun ha hs hw hd => exec_nbArbitrationSuspend ha hs hw hd
  case resume => exact fun n hs hreq h => exec_nbResume hs hreq h
  case stop =>
    intro n r x ha hu hpc hb
    obtain ⟨r', f, hmem, hrun, hstops, hdone, hskip, hraw, hcode, helem⟩ :=
      stopUnit_of_no_barrier (s := { s with focus := .none }) ha hb 0x1D
    exact ⟨_, r', f, exec_nbRunStop hu hpc, hmem, hrun, hstops, hdone, hskip, hraw, hcode, helem⟩
  case end_ =>
    intro n r x ha hc hbr he hx hb hw
    obtain ⟨hr, hu, -⟩ := activeRun_eq ha
    refine ⟨_, exec_nbRunEnd ha hc hbr he hx hb hw, closeRun_mem .., ?_, ?_, fun r' hr' =>
      ⟨_, unit_of_unitEnded hr hu (aget_of_closeRun hr'), rfl⟩⟩
    · rw [closeRun_pch, unitEnded, pch_modPch_self]
      rfl
    · rw [closeRun_pch, unitEnded, pch_modPch_self]
  case status =>
    intro n r tm hr hst hw hb hf haway hl hn ho ht
    refine ⟨_, exec_nbStatusWrite hr hst hw hb hf haway hl hn ho ht, closeRun_mem .., fun r' hr' => ?_⟩
    obtain rfl := Option.some.inj ((aget_modRun (s := s.spWrite r.team tm r.st _) hr _).symm.trans (aget_of_closeRun hr'))
    rfl
  case mapped =>
    intro n r i hr hi
    refine ⟨fun x ls hat hx hm => exec_nbRowMapped hr hi hat hx hm, fun hb => ?_⟩
    have hskip := skipRow_of_no_barrier (aget_modRun hr fun r => { r with waiting := r.waiting.filter (· ≠ i) })
      ((bben_congr (by rfl)).trans hb)
    refine ⟨_, exec_nbRowMapped_refused hr hi, ?_, fun r' hr' => ?_⟩
    · rw [closeRun_mem, hskip]; rfl
    · have hrun := aget_of_closeRun hr'
      rw [hskip, aget_modRun (aget_modRun hr _)] at hrun
      obtain rfl := Option.some.inj hrun
      exact ⟨rfl, rfl⟩
  case serve =>
    intro n q hq hn hack hgo hd
    refine ⟨fun d hfirst => serveNth_of_direct hq hn hack hgo hfirst, fun hfirst => ⟨_, serveNth_of_free hq hn hack hgo hfirst,
      ?_, ?_, fun hw => ⟨?_, ?_, bytes_of_one_part⟩, fun bs hw => ?_, fun m x hm hx => src_of_servesNext hn hq hm hx,
      fun hf k hk => passed_requestServed hd hq hn hf hk⟩⟩
    · rw [pch_requestServed hd]; rfl
    · rw [pch_requestServed hd]; rfl
    · rw [requestServed, performReq_read hd hw]; rfl
    · rw [requestServed, performReq_read hd hw]; rfl
    · have hmem : (requestServed s p n q).mem = (q.put s (writtenBytes q.rop (q.bytes s) bs)).mem := by
        rw [requestServed, performReq_write hd hw]; rfl
      refine ⟨hmem, by rw [requestServed, performReq_write hd hw]; rfl, fun hmore hrop hdirty hl => ?_⟩
      rw [hmem, hrop, ← put_of_one_part hmore hdirty hl]
      rfl
  case quiesce =>
    exact fun hreq => congrArg Host.Outcome.next (modPch_congr (by simp only [hreq, Bool.false_eq_true, if_false]))
  case quiesced =>
    exact fun hreq hheld => congrArg Host.Outcome.next (modPch_congr (by simp only [hreq, hheld, decide_true, Bool.and_self, if_true]))
  case ratio =>
    intro ratio
    refine ⟨fun hack => congrArg Host.Outcome.next (modPch_congr (by simp only [hack, if_true])), fun hack => ⟨_, rfl, ?_, rfl⟩⟩
    rw [pch_modPch_self]
    simp only [hack, Bool.false_eq_true, if_false]

end Sys2Proof.Machine
